-- ==== Sys2Proof/Word.lean ====
section
/-! DEFINITION. The word types of Bodun (R6, R12). Bit-field and byte-order helpers stand in Machine/Bits.lean. -/

namespace Sys2Proof

/-- Eight bits; all multi-byte data is little-endian (R6). -/
abbrev Byte := BitVec 8

/-- A 32-bit register or word. -/
abbrev Word := BitVec 32

/-- A 64-bit register pair, address or latch. -/
abbrev DWord := BitVec 64

end Sys2Proof
end

