-- ==== Sys2Proof/Syntax.lean ====
section
/-! DEFINITION. The syntax of Bodun's steps: operand forms, suffixes, upper words, the payloads of device events, and
`Instr`, one constructor for each of the 287 rows of spec/opcode_table.json (148 instructions of R68, 139 device events). -/

namespace Sys2Proof

/-- Guard of an instruction: predicate number and negation (R58, R24). -/
structure Guard where
  pg : BitVec 4
  pn : Bool
  deriving DecidableEq, Repr

/-- The immediate value that operand code 0x1F0 names: imm32 or imm64 (R59, R62). -/
inductive ImmVal where
  | i32 (v : BitVec 32)
  | i64 (v : BitVec 64)
  deriving DecidableEq, Repr

/-- A source operand code (R61): window register, near register, latch, inline constant, immediate. -/
inductive Src where
  | w (i : BitVec 8)
  | n (i : BitVec 3)
  | lat
  | c (j : BitVec 6)
  | imm (v : ImmVal)
  deriving DecidableEq, Repr

/-- A destination operand code (R61). -/
inductive Dst where
  | w (i : BitVec 8)
  | n (i : BitVec 3)
  | lat
  deriving DecidableEq, Repr

/-- A float source with its XF modifiers; the absolute value is taken before the negation (R67). -/
structure FSrc where
  src : Src
  neg : Bool
  abs : Bool
  deriving DecidableEq, Repr

/-- A predicate, tie, barrier or timeline number of four bits (R65). -/
abbrev Num4 := BitVec 4

/-- MI types of R66. -/
inductive IType where
  | i32 | ui32 | i64 | ui64 | i16x2 | ui16x2 | i8x4 | ui8x4
  deriving DecidableEq, Repr

/-- MF types of R66. -/
inductive FType where
  | f32 | f16x2 | bf16x2 | f64
  deriving DecidableEq, Repr

/-- Rounding codes of R45. -/
inductive Rc where
  | rne | rz | rp | rm | sr | dyn
  deriving DecidableEq, Repr

/-- Condition codes of R67. -/
inductive Cc where
  | f | lt | eq | le | gt | ne | ge | num | nan | ltu | equ | leu | gtu | neu | geu | t
  deriving DecidableEq, Repr

/-- Accumulate modes of ISETP, FSETP and DSETP (R105). -/
inductive AccMode where
  | plain | andp | orp | xorp
  deriving DecidableEq, Repr

/-- Granularity of PRMT (R103). -/
inductive Gran where
  | n4 | n8 | n16
  deriving DecidableEq, Repr

/-- Types of MOV (R111). -/
inductive MovType where
  | b32 | b64 | f32 | f64
  deriving DecidableEq, Repr

/-- Forms of CSRW (R115). -/
inductive CsrOp where
  | write | set | clr
  deriving DecidableEq, Repr

/-- Conversion formats of R132. -/
inductive CFmt where
  | f32 | f16 | bf16 | f64 | e4m3 | e5m2 | e3m2 | e2m3 | e2m1 | ue5m3
  | i4 | ui4 | i8 | ui8 | i16 | ui16 | i32 | ui32 | i64 | ui64
  deriving DecidableEq, Repr

/-- Element codes of DP2, DP4 and DP8 (R138). -/
inductive DpElem where
  | i16 | ui16 | f16 | bf16 | i8 | ui8 | e4m3 | e5m2 | e3m2 | e2m3 | i4 | ui4 | e2m1
  deriving DecidableEq, Repr

/-- VOTE modes (R167, R176). -/
inductive VoteMode where
  | some | every | same | mask | below | count
  deriving DecidableEq, Repr

/-- MATCH forms (R177). -/
inductive MatchForm where
  | grp | lead | rank | uni
  deriving DecidableEq, Repr

/-- SHFL modes (R178). -/
inductive ShflMode where
  | idx | lo | hi | xor
  deriving DecidableEq, Repr

/-- REDS operations (R179). -/
inductive RedOp where
  | add | min | max | and | or | xor
  deriving DecidableEq, Repr

/-- REDS types (R167). -/
inductive RedType where
  | i32 | ui32 | i64 | ui64 | f32 | f64
  deriving DecidableEq, Repr

/-- HBAR modes (R184). -/
inductive HbarMode where
  | plain | and | or
  deriving DecidableEq, Repr

/-- Access widths of R265. -/
inductive Width where
  | ui8 | i8 | ui16 | i16 | b32 | b64 | b128
  deriving DecidableEq, Repr

/-- Scopes of R229. -/
inductive Scope where
  | fib | rope | coil | dev | dom | sys
  deriving DecidableEq, Repr

/-- Orders of R230. -/
inductive Order where
  | rlx | acq | rel | ar
  deriving DecidableEq, Repr

/-- Hints of R263. -/
inductive Hint where
  | none | l2only | stream
  deriving DecidableEq, Repr

/-- ATOM and ATOMS operations (R265). -/
inductive AtomOp where
  | add | min | max | and | or | xor | exch
  deriving DecidableEq, Repr

/-- ATOM and ATOMS types (R265). -/
inductive AtomType where
  | i32 | ui32 | i64 | ui64 | f32 | f64 | f16x2 | bf16x2
  deriving DecidableEq, Repr

/-- The memory upper word of R263. -/
structure MemUp where
  off   : BitVec 32
  scope : Scope
  order : Order
  hint  : Hint
  deriving DecidableEq, Repr

/-- XRED types of R327. -/
inductive XredType where
  | i32 | ui32 | f32 | f64 | f16 | bf16
  deriving DecidableEq, Repr

/-- The copy upper word of R327, field by field. The enable bits are `tie`, `cred`, `bo`, `dw` (do) and `fo`; what stands
in a field whose enable bit is 0 is kept, since R327 does not reserve it. -/
structure CopyUp where
  k     : Num4
  tie   : Bool
  wrec  : Bool
  ro    : Bool
  cred  : Bool
  bo    : Bool
  brope : BitVec 3
  dw    : Bool
  drope : BitVec 3
  fo    : Bool
  frope : BitVec 3
  ch    : BitVec 2
  rop   : RedOp
  rty   : XredType
  det   : Bool
  sat   : Bool
  is    : BitVec 8
  ds    : BitVec 8
  ss    : BitVec 8
  deriving DecidableEq, Repr

/-- The tile upper word of R328, field by field. -/
structure TileUp where
  k     : Num4
  tie   : Bool
  wrec  : Bool
  wb    : Bool
  wph   : Bool
  bo    : Bool
  brope : BitVec 3
  cnt   : BitVec 6
  drow  : BitVec 6
  srow  : BitVec 6
  srope : BitVec 3
  so    : Bool
  shp   : BitVec 8
  tq    : Num4
  tb    : Num4
  ta    : Num4
  td    : Num4
  deriving DecidableEq, Repr

/-- The barrier upper word of R329. -/
structure BarUp where
  bo    : Bool
  brope : BitVec 3
  off   : BitVec 32
  deriving DecidableEq, Repr

/-- TEW operations of R351. -/
inductive TewOp where
  | add | sub | mul | min | max | relu | mov
  deriving DecidableEq, Repr

/-- TRED operations of R353. -/
inductive TredOp where
  | add | min | max
  deriving DecidableEq, Repr

/-- REPLAY modes of R420; `hdr` names the header to resume at. -/
inductive ReplayMode where
  | res
  | hdr (t : Src)
  | kill
  deriving DecidableEq, Repr

/-- SMOVR and SMOVW spaces of R421. -/
inductive SSpace where
  | va | win | st | spad | tile
  deriving DecidableEq, Repr

/-- HALTC modes of R425. -/
inductive HaltMode where
  | halt | cont | save | kill
  deriving DecidableEq, Repr

/-- Device personality of R451. -/
inductive Personality where
  | endpoint | rootComplex
  deriving DecidableEq, Repr

/-- What a root-complex MCTP message delivers (R455). -/
inductive Mctp where
  | addr (v : DWord)
  | len (v : Word)
  | image (bytes : List Byte)
  | go
  deriving DecidableEq, Repr

/-- The firmware image's answers that the spec leaves to the image: its supervisor code, entry header (R378) and
the verdict of R437's signature check. -/
structure FwImage where
  sigOk   : Bool
  svEntry : DWord
  svCode  : List Byte
  deriving DecidableEq, Repr

/-- Registers a REGISTER_WRITE names (R455, R389). -/
inductive RegName where
  | fwaddr | fwlen | bootctl
  | bka (core : Nat) (n : BitVec 2)
  | bkc (core : Nat) (n : BitVec 2)
  | msixCtl (vector : Nat)
  deriving DecidableEq, Repr

/-- Which rope: core number and rope slot on the core (R364). -/
structure RopeId where
  core : Nat
  slot : Nat
  deriving DecidableEq, Repr

/-- Which lane of which strand. -/
structure LaneId where
  rope : RopeId
  sid  : Nat
  lane : Nat
  deriving DecidableEq, Repr

/-- A cached line's name: canonical context and VA[53:7] (R205, R216). -/
structure LineId where
  ctx  : Nat
  line : Nat
  deriving DecidableEq, Repr

/-- Who holds or asks for a copy of a line (R257, R259); `home` is the home slice itself. -/
inductive Agent where
  | cluster (n : Nat)
  | host
  | peer (n : Nat)
  | home
  deriving DecidableEq, Repr

/-- An atomic's operation as a message carries it: ATOM of R277, CAS of R279, or a plain store of bytes. -/
inductive AtomReq where
  | rmw (op : AtomOp) (ty : AtomType) (b : DWord)
  | cas (size : Nat) (c n : List Byte)
  | store (bytes : List Byte)
  deriving DecidableEq, Repr

/-- A protocol message of R248: its number in flight, line, sender (FWDS and FWDM: the requester named), receiver, bytes
with their mask, atomic, and the access that waits for the answer. -/
structure Msg where
  id    : Nat
  line  : LineId
  src   : Agent
  dst   : Agent
  off   : Nat
  data  : List Byte
  mask  : BitVec 128
  req   : Option AtomReq
  acc   : Option Nat
  /-- Lease expiry that a DATAS or DATAM carries (R251). -/
  exp   : Nat
  /-- The line is sealed: a DATAS gives the permanent state (R251, R255). -/
  sealed : Bool
  deriving DecidableEq, Repr

/-- A physical or outside access arriving at the device: physical address, bytes written (empty for a read),
size, and where the answer goes. -/
structure PhysReq where
  pa    : Nat
  size  : Nat
  data  : Option (List Byte)
  atom  : Option AtomReq
  /-- The host keeps a copy of the line (R257, R259). -/
  keep  : Bool
  tag   : Nat
  deriving DecidableEq, Repr

/-- A fabric transaction of R466 and R469 as it arrives: its destination, source and number, address, mask, bytes, atomic, MSG class;
for a message of the cache-locally mode, the line's lease expiry and its home's protocol slot (log 67). -/
structure FabTx where
  dst   : Nat
  src   : Nat
  tid   : Nat
  addr  : Nat
  mask  : BitVec 128
  data  : List Byte
  atom  : Option AtomReq
  cls   : Nat
  scope : Scope
  order : Order
  exp   : Nat
  slot  : Nat
  deriving DecidableEq, Repr

/-- A forwarded access to a scratchpad-window line (R221). -/
structure FwdReq where
  line  : LineId
  off   : Nat
  size  : Nat
  req   : Option AtomReq
  src   : Agent
  acc   : Option Nat
  deriving DecidableEq, Repr

/-- Engines of a core as R410 names them. -/
inductive EngineId where
  | copy (j : BitVec 2) | matrix | halo
  deriving DecidableEq, Repr

/-- What the debugger names (R390). -/
inductive DbgTarget where
  | ctx (c : Nat)
  | rope (r : RopeId)
  | strand (r : RopeId) (sid : Nat)
  deriving DecidableEq, Repr

/-- Where an error arises (R391). -/
inductive ErrLoc where
  | cleanCopy (cluster : Nat) (l : LineId)
  | dirtyCopy (cluster : Nat) (l : LineId)
  | roCopy (cluster : Nat) (l : LineId)
  | l2Clean (l : LineId)
  | l2Dirty (l : LineId)
  | hbmLine (pa : Nat)
  | scratch (r : RopeId) (off : Nat)
  | window (l : LaneId) (reg : Nat)
  | tile (r : RopeId) (tile : Nat) (off : Nat)
  | heldStore (acc : Nat)
  | directory (l : LineId)
  | flit (peer : Nat) (tid : Nat)
  deriving DecidableEq, Repr

/-- Fault classes of R362. -/
inductive FClass where
  | illegal | arith | xlate | range | align | bound | shape | brk | trap | syscall | engpark | halo
  deriving DecidableEq, Repr

/-- Restart kinds of R364. -/
inductive RKind where
  | at | knot | cursor
  deriving DecidableEq, Repr

/-- The class-specific part of a fault as its record names it (R364, R365). -/
structure FaultInfo where
  cls  : FClass
  kind : RKind
  info : Word
  fva  : DWord
  rpc  : DWord
  fpc  : DWord
  deriving DecidableEq, Repr

/-- Budget counters a BUDGET_WINDOW updates (R195). -/
inductive BudgetKind where
  | hbm | power
  deriving DecidableEq, Repr

/-- Where system software placed each rope of a coil: core and rope slot (R196: the choice is not architected). -/
structure Placement where
  cluster : Nat
  ropes   : List RopeId
  /-- The partition of strand 0 of each rope (R161). -/
  parts   : List Nat
  deriving DecidableEq, Repr

/-- A management command's result address in host memory (R457). -/
abbrev ResAddr := DWord

/-- PMOV forms of R110: read the predicate word into a register, or write it under a mask. -/
inductive PmovOp where
  | rd (d : Dst)
  | wr (a m : Src)
  deriving DecidableEq, Repr

/-- GSTAT forms of R496. -/
inductive GstatOp where
  | face (n : Src)
  | com
  deriving DecidableEq, Repr

/-- SHPW forms of R335. -/
inductive ShpwOp where
  | all (q : BitVec 8)
  | base (a : Src)
  deriving DecidableEq, Repr

/-- VOTE forms of R176: to a predicate (`some`, `every`, `same`) or to a register. -/
inductive VoteDst where
  | p (p : Num4)
  | r (d : Dst)
  deriving DecidableEq, Repr

/-- TIEDEF forms of R181. -/
inductive TieSet where
  | rng (a b : Src)
  | lanes (s m : Src)
  deriving DecidableEq, Repr

/-- GDEF forms of R488. -/
inductive GdefOp where
  | define (a s0 : Src)
  | del
  deriving DecidableEq, Repr

/-- Bodun's steps, one constructor per row of spec/opcode_table.json. -/
inductive Instr where
  -- events of the strands
  | clauseHeader
  | forcedKnot
  | activeSetFill (core part : Nat)
  | staleGldYield (r : RopeId) (sid : Nat)
  | breakpointHit (n : BitVec 2)
  -- group 0: control (R84)
  | nop (g : Guard)
  | bra (g : Guard) (off : BitVec 32)
  | brx (g : Guard) (a : Src)
  | call (g : Guard) (l : Dst) (off : BitVec 32)
  | callx (g : Guard) (l : Dst) (a : Src)
  | ret (g : Guard) (a : Src)
  | yield (g : Guard)
  -- group 1: integer (R90)
  | iadd (g : Guard) (t : IType) (sat : Bool) (d : Dst) (a b : Src)
  | isub (g : Guard) (t : IType) (sat : Bool) (d : Dst) (a b : Src)
  | imul (g : Guard) (t : IType) (sat : Bool) (d : Dst) (a b : Src)
  | imulh (g : Guard) (t : IType) (d : Dst) (a b : Src)
  | imad (g : Guard) (t : IType) (sat : Bool) (d : Dst) (a b c : Src)
  | imadw (g : Guard) (t : IType) (sat : Bool) (d : Dst) (a b c : Src)
  | idiv (g : Guard) (t : IType) (sat : Bool) (d : Dst) (a b : Src)
  | irem (g : Guard) (t : IType) (d : Dst) (a b : Src)
  | iabs (g : Guard) (t : IType) (sat : Bool) (d : Dst) (a : Src)
  | ineg (g : Guard) (t : IType) (sat : Bool) (d : Dst) (a : Src)
  | imin (g : Guard) (t : IType) (d : Dst) (a b : Src)
  | imax (g : Guard) (t : IType) (d : Dst) (a b : Src)
  | iaddc (g : Guard) (t : IType) (sub nc : Bool) (d : Dst) (pc : Num4) (a b : Src)
  | isad (g : Guard) (t : IType) (d : Dst) (a b c : Src)
  | lea (g : Guard) (t : IType) (sh : BitVec 3) (d : Dst) (a b : Src)
  -- group 2: logic and bit (R98)
  | and (g : Guard) (t : IType) (d : Dst) (a b : Src)
  | or (g : Guard) (t : IType) (d : Dst) (a b : Src)
  | xor (g : Guard) (t : IType) (d : Dst) (a b : Src)
  | andn (g : Guard) (t : IType) (d : Dst) (a b : Src)
  | shl (g : Guard) (t : IType) (d : Dst) (a n : Src)
  | shr (g : Guard) (t : IType) (d : Dst) (a n : Src)
  | sar (g : Guard) (t : IType) (d : Dst) (a n : Src)
  | rotl (g : Guard) (t : IType) (d : Dst) (a n : Src)
  | bfx (g : Guard) (t : IType) (d : Dst) (a f : Src)
  | bfi (g : Guard) (t : IType) (d : Dst) (a b f : Src)
  | popc (g : Guard) (t : IType) (d : Dst) (a : Src)
  | clz (g : Guard) (t : IType) (d : Dst) (a : Src)
  | brev (g : Guard) (t : IType) (d : Dst) (a : Src)
  | prmt (g : Guard) (t : IType) (gr : Gran) (d : Dst) (a b s : Src)
  -- group 3: compare and predicate (R104)
  | isetp (g : Guard) (cc : Cc) (t : IType) (m : AccMode) (p : Num4) (a b : Src)
  | fsetp (g : Guard) (cc : Cc) (rc : Rc) (m : AccMode) (p : Num4) (a b : Src)
  | dsetp (g : Guard) (cc : Cc) (rc : Rc) (m : AccMode) (p : Num4) (a b : Src)
  | plop (g : Guard) (p pa pb pc : Num4) (lut : BitVec 8)
  | sel (g : Guard) (t : IType) (d : Dst) (a b : Src) (ps : Num4) (neg : Bool)
  | iset (g : Guard) (cc : Cc) (t : IType) (mask : Bool) (d : Dst) (a b : Src)
  | pmov (g : Guard) (t : IType) (op : PmovOp)
  -- group 4: FP32 and packed FP16/BF16 (R123)
  | fadd (g : Guard) (t : FType) (sat : Bool) (rc : Rc) (d : Dst) (a b : FSrc)
  | fmul (g : Guard) (t : FType) (sat : Bool) (rc : Rc) (d : Dst) (a b : FSrc)
  | ffma (g : Guard) (t : FType) (sat : Bool) (rc : Rc) (d : Dst) (a b c : FSrc)
  | fmin (g : Guard) (t : FType) (rc : Rc) (d : Dst) (a b : FSrc)
  | fmax (g : Guard) (t : FType) (rc : Rc) (d : Dst) (a b : FSrc)
  | fdiv (g : Guard) (t : FType) (sat : Bool) (rc : Rc) (d : Dst) (a b : FSrc)
  | fsqrt (g : Guard) (t : FType) (rc : Rc) (d : Dst) (a : FSrc)
  | frcp (g : Guard) (t : FType) (sat : Bool) (rc : Rc) (d : Dst) (a : FSrc)
  | frsq (g : Guard) (t : FType) (sat : Bool) (rc : Rc) (d : Dst) (a : FSrc)
  | ffrc (g : Guard) (t : FType) (rc : Rc) (d : Dst) (a : FSrc)
  | frnd (g : Guard) (t : FType) (rc : Rc) (d : Dst) (a : FSrc)
  | fclass (g : Guard) (t : FType) (rc : Rc) (d : Dst) (a : Src)
  | fldexp (g : Guard) (t : FType) (sat : Bool) (rc : Rc) (d : Dst) (a : FSrc) (n : Src)
  -- group 5: FP64 and transcendental (R123)
  | dadd (g : Guard) (sat : Bool) (rc : Rc) (d : Dst) (a b : FSrc)
  | dmul (g : Guard) (sat : Bool) (rc : Rc) (d : Dst) (a b : FSrc)
  | dfma (g : Guard) (sat : Bool) (rc : Rc) (d : Dst) (a b c : FSrc)
  | dmin (g : Guard) (rc : Rc) (d : Dst) (a b : FSrc)
  | dmax (g : Guard) (rc : Rc) (d : Dst) (a b : FSrc)
  | ddiv (g : Guard) (sat : Bool) (rc : Rc) (d : Dst) (a b : FSrc)
  | dsqrt (g : Guard) (rc : Rc) (d : Dst) (a : FSrc)
  | fex2 (g : Guard) (t : FType) (sat : Bool) (rc : Rc) (d : Dst) (a : FSrc)
  | flg2 (g : Guard) (t : FType) (rc : Rc) (d : Dst) (a : FSrc)
  | fsin (g : Guard) (t : FType) (rc : Rc) (d : Dst) (a : FSrc)
  | fcos (g : Guard) (t : FType) (rc : Rc) (d : Dst) (a : FSrc)
  | ftanh (g : Guard) (t : FType) (rc : Rc) (d : Dst) (a : FSrc)
  -- group 6: conversion and packed (R132 to R141)
  | cvt (g : Guard) (fd fs : CFmt) (sat : Bool) (rc : Rc) (d : Dst) (a : Src)
  | pack (g : Guard) (f : CFmt) (slot : BitVec 2) (sat : Bool) (rc : Rc) (d : Dst) (a b c : Src)
  | unpk (g : Guard) (f : CFmt) (el : BitVec 3) (d : Dst) (a : Src)
  | dp4 (g : Guard) (fa fb : DpElem) (sat : Bool) (d : Dst) (a b c : Src)
  | dp8 (g : Guard) (fa fb : DpElem) (sat : Bool) (d : Dst) (a b c : Src)
  | dp2 (g : Guard) (fa fb : DpElem) (sat : Bool) (d : Dst) (a b c : Src)
  | fscl (g : Guard) (t : FType) (k : BitVec 2) (sat : Bool) (rc : Rc) (d : Dst) (a s : Src)
  | t3pk (g : Guard) (d : Dst) (a b : Src)
  | t3up (g : Guard) (hi : Bool) (d : Dst) (p : Num4) (a : Src)
  -- group 7: move (R111)
  | mov (g : Guard) (t : MovType) (d : Dst) (a : Src)
  | movs (g : Guard) (d : Dst) (sp : BitVec 5)
  | csrr (g : Guard) (d : Dst) (num : BitVec 12)
  | csrw (g : Guard) (op : CsrOp) (num : BitVec 12) (a : Src)
  -- group 8: parallel (R167)
  | fork (g : Guard) (d : Dst) (n a : Src) (off : BitVec 32)
  | fend (g : Guard)
  | vote (g : Guard) (m : VoteMode) (inv cv : Bool) (d : VoteDst) (ps : Num4) (gate : Option Src)
  | matchL (g : Guard) (f : MatchForm) (b64 cv : Bool) (d : Dst) (p : Num4) (a : Src) (gate : Option Src)
  | shfl (g : Guard) (m : ShflMode) (logN : BitVec 3) (b64 cv : Bool) (d : Dst) (p : Num4) (a b : Src) (gate : Option Src)
  | reds (g : Guard) (op : RedOp) (t : RedType) (det sat cv : Bool) (d : Dst) (a : Src) (gate : Option Src)
  | elect (g : Guard) (cv : Bool) (d : Dst) (p : Num4) (gate : Option Src)
  | tiedef (g : Guard) (k : Num4) (set : TieSet)
  | tiesgn (g : Guard) (k : Num4)
  | hbar (g : Guard) (m : HbarMode) (b : Num4) (mask : Src) (pd ps : Num4)
  | nsleep (g : Guard) (pd : Num4) (a v t : Src)
  | nsleepRetest (l : LaneId)
  | nsleepDeadline (l : LaneId)
  -- group 9: memory (R265)
  | ld (g : Guard) (w : Width) (d : BitVec 8) (a : Src) (up : MemUp)
  | st (g : Guard) (w : Width) (a v : Src) (up : MemUp)
  | lds (g : Guard) (w : Width) (d : BitVec 8) (a : Src) (up : MemUp)
  | sts (g : Guard) (w : Width) (a v : Src) (up : MemUp)
  | ldro (g : Guard) (w : Width) (d : BitVec 8) (a : Src) (up : MemUp)
  | pfch (g : Guard) (l2 wr : Bool) (a : Src) (off : BitVec 32)
  -- group 10: atomic, fence and cache (R265)
  | atom (g : Guard) (op : AtomOp) (t : AtomType) (d : Option (BitVec 8)) (a b : Src) (up : MemUp)
  | cas (g : Guard) (w : Width) (d : BitVec 8) (a c n : Src) (up : MemUp)
  | atoms (g : Guard) (op : AtomOp) (t : AtomType) (d : Option (BitVec 8)) (a b : Src) (up : MemUp)
  | fence (g : Guard) (sc : Scope)
  | lockl (g : Guard) (d : Dst) (a : Src) (off : BitVec 32)
  | unlkl (g : Guard) (d : Dst) (a : Src) (off : BitVec 32)
  | cwb (g : Guard) (a : Src) (off : BitVec 32)
  | cinv (g : Guard) (a : Src) (off : BitVec 32)
  -- memory system events
  | loadResult (acc : Nat)
  | storeRelease (acc : Nat)
  | translation (acc : Nat)
  | lateXlateFault (acc : Nat)
  | pageMigration (ctx vpage : Nat) (accept : Bool) (frame : Nat)
  | pinExpiry (cluster : Nat) (l : LineId)
  | forwardedAccess (f : FwdReq)
  | gets (m : Msg)
  | getm (m : Msg)
  | upgr (m : Msg)
  | puts (m : Msg)
  | putm (m : Msg)
  | wbdata (m : Msg)
  | atomMsg (m : Msg)
  | ack (m : Msg)
  | fwds (m : Msg)
  | fwdm (m : Msg)
  | inv (m : Msg)
  | wbgrant (m : Msg)
  | datas (m : Msg)
  | datam (m : Msg)
  | update (m : Msg)
  | timer (cluster : Nat) (l : LineId)
  | l1Eviction (cluster : Nat) (l : LineId)
  -- group 11: copy and synchronisation engine (R326)
  | shpw (g : Guard) (op : ShpwOp) (i : BitVec 8)
  | shpr (g : Guard) (d : BitVec 8) (i : BitVec 8)
  | xcp (g : Guard) (d : Option (BitVec 8)) (cs cd b : Src) (up : CopyUp)
  | xgath (g : Guard) (d : Option (BitVec 8)) (cs cd b : Src) (up : CopyUp)
  | xscat (g : Guard) (d : Option (BitVec 8)) (cs cd b : Src) (up : CopyUp)
  | xred (g : Guard) (d : Option (BitVec 8)) (cs cd b : Src) (up : CopyUp)
  | xfill (g : Guard) (d : Option (BitVec 8)) (cd b : Src) (up : CopyUp)
  | tlwait (g : Guard) (tl : BitVec 3) (n : Src)
  | tlread (g : Guard) (b64 : Bool) (d : BitVec 8) (tl : BitVec 3)
  | crpop (g : Guard) (d : BitVec 8) (p : Num4)
  | bari (g : Guard) (b e : Src) (up : BarUp)
  | bara (g : Guard) (d : BitVec 8) (b : Src) (up : BarUp)
  | barex (g : Guard) (b n : Src) (up : BarUp)
  | barw (g : Guard) (p : Num4) (b ph : Src) (up : BarUp)
  -- group 12: matrix and tile (R326)
  | tcfg (g : Guard) (m : BitVec 16) (a : Src)
  | tld (g : Guard) (d : Option (BitVec 8)) (c w : Src) (up : TileUp)
  | tst (g : Guard) (d : Option (BitVec 8)) (c w : Src) (up : TileUp)
  | tzero (g : Guard) (d : Option (BitVec 8)) (w : Src) (up : TileUp)
  | mma (g : Guard) (na nb nacc sat acc16 : Bool) (d : Option (BitVec 8)) (w : Src) (up : TileUp)
  | tew (g : Guard) (op : TewOp) (sat : Bool) (d : Option (BitVec 8)) (w : Src) (up : TileUp)
  | tcvt (g : Guard) (sat : Bool) (rc : Rc) (d : Option (BitVec 8)) (w : Src) (up : TileUp)
  | tred (g : Guard) (op : TredOp) (d : Option (BitVec 8)) (w : Src) (up : TileUp)
  | trow (g : Guard) (d : Option (BitVec 8)) (w : Src) (up : TileUp)
  -- engine events; an operation is named by its number among the operations of the device
  | taskSend (op : Nat)
  | copySegment (op : Nat)
  | copyPark (op : Nat)
  | mmaStep (op : Nat)
  | engineOpComplete (op : Nat)
  | ringRoom (op : Nat)
  -- group 13: grid and halo (R486)
  | gdef (g : Guard) (d : BitVec 8) (slot : BitVec 6) (op : GdefOp)
  | gld (g : Guard) (d : BitVec 8) (slot : BitVec 6) (q c : Src)
  | gst (g : Guard) (slot : BitVec 6) (q c v : Src)
  | gstep (g : Guard) (wrec : Bool) (d : Option (BitVec 8)) (slot : BitVec 6) (q s : Src)
  | gwait (g : Guard) (slot : BitVec 6) (q f t : Src)
  | gstat (g : Guard) (d : BitVec 8) (slot : BitVec 6) (q : Src) (op : GstatOp)
  | haloStripSend (op : Nat)
  | haloStripLand (op : Nat)
  | haloFault (op : Nat)
  -- group 14: system (R412)
  | syscall (g : Guard)
  | trap (g : Guard) (code : BitVec 32)
  | knot (g : Guard) (wm : BitVec 32) (sm tm : BitVec 16)
  | sigret (g : Guard) (f : Src)
  | bkpt (g : Guard)
  | rft (g : Guard) (d : Dst) (t : Src)
  | rqpop (g : Guard) (d : Dst) (p : Num4) (a : Src)
  | replay (g : Guard) (p : Num4) (s : Src) (m : ReplayMode)
  | smovr (g : Guard) (sp : SSpace) (sv : Bool) (w : Width) (d : Dst) (p : Num4) (a t : Src) (off : BitVec 32)
  | smovw (g : Guard) (sp : SSpace) (sv : Bool) (w : Width) (p : Num4) (a v t : Src) (off : BitVec 32)
  | sigpost (g : Guard) (p : Num4) (c s : Src)
  | ptinv (g : Guard) (full : Bool) (a n : Src) (allc : Bool) (ctx : BitVec 12)
  | haltc (g : Guard) (m : HaltMode) (d : Dst) (c : Src)
  -- faults, supervisor, signals
  | faultPark (r : RopeId) (sid : Nat) (lanes : BitVec 32) (f : FaultInfo)
  | replayQueueRoom (core : Nat)
  | supervisorFault (core : Nat) (f : FaultInfo) (resolvable : Bool)
  | supervisorTick (core : Nat)
  | mailboxWrite (core : Nat) (bytes : List Byte)
  | signalStop (l : LaneId) (sig : BitVec 4)
  | timerExpiry (ctx : Nat)
  -- system calls served for the popped or queued entry `seq` of a core (R380); `res` and `data` are the agent's
  -- answer where the spec leaves the call's outcome to the host agent (R462, R463)
  | getpid (core : Nat) (seq : Word)
  | sigaction (core : Nat) (seq : Word)
  | sigmask (core : Nat) (seq : Word)
  | kill (core : Nat) (seq : Word)
  | sysOpen (core : Nat) (seq : Word) (res : BitVec 32)
  | sysRead (core : Nat) (seq : Word) (res : BitVec 32) (data : List Byte)
  | sysWrite (core : Nat) (seq : Word) (res : BitVec 32)
  | sysClose (core : Nat) (seq : Word) (res : BitVec 32)
  | sockCreate (core : Nat) (seq : Word) (res : BitVec 32)
  | sockBind (core : Nat) (seq : Word) (res : BitVec 32)
  | sockConnect (core : Nat) (seq : Word) (res : BitVec 32)
  | sockListen (core : Nat) (seq : Word) (res : BitVec 32)
  | sockAccept (core : Nat) (seq : Word) (res : BitVec 32)
  | sockSend (core : Nat) (seq : Word) (done : Option (BitVec 32))
  | sockRecv (core : Nat) (seq : Word) (res : BitVec 32) (data : List Byte)
  | sockShutdown (core : Nat) (seq : Word) (res : BitVec 32)
  | spmap (core : Nat) (seq : Word)
  | spunmap (core : Nat) (seq : Word)
  | pause (core : Nat) (seq : Word)
  | launch (core : Nat) (seq : Word)
  | timerCall (core : Nat) (seq : Word)
  -- launches
  | coilDispatch (ctx qent stage coil : Nat) (p : Placement)
  | ropeEnd (r : RopeId)
  | launchComplete (ctx qent : Nat)
  | groupTimeout (group : Nat)
  | fabcfgAdopt (fibre : Nat)
  | stateimg (core : Nat)
  | scrub (ctx : Nat) (receipt : Option DWord) (cmd : Bool)
  -- debug and pre-emption
  | preemptRequest (ctx : Nat) (coil : Option Nat)
  | preemptDeadline (ctx coil : Nat)
  | quiesce (ctx coil : Nat)
  | saveCoil (ctx coil : Nat)
  | restoreCoil (ctx area : Nat) (p : Placement)
  | engineReset (core : Nat) (e : EngineId)
  | engineWatchdog (core : Nat) (e : EngineId)
  -- evidence and outside access
  | logBatchClose
  -- fabric
  | retryLimit (peer : Nat) (bank : Bool) (ctr : Nat)
  | relayForward (fibre : Nat)
  | rekeyCount (peer : Nat)
  | supervisorFaultResolution (core : Nat) (ok : Bool)
  | rotorSlot (fibre : Nat)
  | associationFetch (peer : Nat)
  -- what arrives from outside the device, or from its sensors, firmware and service cores
  | powerUp (strap : Personality) (fuse : Option Personality)
  | reset
  | go (img : Option FwImage)
  | fwMctpMessage (m : Mctp) (img : Option FwImage)
  | verifyDone
  | initDone (hbmOk opticsOk : Bool)
  | registerWrite (r : RegName) (v : DWord)
  | thermalThrottle (hot : Bool)
  | thermalStop
  | throttleUpdate (estimate : Nat)
  | budgetWindow (ctx cls : Nat) (k : BudgetKind) (v : Nat)
  | launchSubmission (page off : Nat) (bytes : List Byte) (posted : Bool)
  | groupReady (group : Nat) (gen : Word) (peer : Nat) (ok : Bool)
  | ctxcreate (res : ResAddr) (desc : Nat)
  | ctxctlResident (res : ResAddr) (ctx : Nat)
  | ctxctlPreemptCoil (res : ResAddr) (ctx coil : Nat)
  | ctxctlPreemptAll (res : ResAddr) (ctx : Nat)
  | ctxctlKill (res : ResAddr) (ctx : Nat)
  | ctxctlReload (res : ResAddr) (ctx : Nat)
  | ctxend (res : ResAddr) (ctx : Nat)
  | chipgrp (res : ResAddr) (group count list : Nat)
  | tabload (res : ResAddr) (slot img : Nat)
  | watch (res : ResAddr) (idx : Nat) (entry : BitVec 128)
  | inbound (res : ResAddr) (frame : Nat) (owner : Option (Nat × Nat))
  | logread (res : ResAddr) (dest : DWord) (count : Nat)
  | fabcfg (res : ResAddr) (addr : Nat)
  | keyload (slot : Nat) (nonce : BitVec 256) (key : BitVec 512) (session : Nat)
  | getMeasurements (idx : List Nat) (session : Nat)
  | debugHalt (t : DbgTarget)
  | debugStep (l : LaneId)
  | debugResume (t : DbgTarget)
  | correctableError (l : ErrLoc)
  | uncorrectableError (l : ErrLoc)
  | cxlMemRequest (r : PhysReq)
  | atomicop (r : PhysReq)
  | hostCompletion (acc : Nat)
  | completerAbort (acc : Nat)
  | fabricRead (t : FabTx)
  | fabricWrite (t : FabTx)
  | fabricAtomic (t : FabTx)
  | fabricMsg (t : FabTx)
  | rdrsp (peer tid : Nat) (data : List Byte)
  | wrrsp (peer tid : Nat) (wct : DWord)
  | atrsp (peer tid : Nat) (data : List Byte) (wct : DWord)
  | nak (peer tid : Nat) (reason : Byte)
  | linkControl (peer : Nat) (bank : Bool) (acked : Nat) (resend : List Nat)
  | flitTimeout (peer : Nat) (bank : Bool) (ctr : Nat)
  | rekey (peer : Nat) (requested : Bool)
  | fatalServiceCoreFault
  | spdmSession (id : Nat) (rootDigest : BitVec 512) (authed : Bool) (peer : Option Nat)
  deriving DecidableEq, Repr
end Sys2Proof
end

