-- ==== Sys2Proof/WellFormed.lean ====
section
/-! DEFINITION. Well-formedness of an instruction as a term: what the encoding rules of R59, R61, R62, R65 to R69 and the
instruction entries allow. `Instr.wf` holds exactly where decoding checks 4, 6 and 7 of R71 pass on the encoded word;
checks that need the machine (mode, window size, clause) stand in the step. -/

namespace Sys2Proof

/-- A 64-bit MI type (R66, R80). -/
def IType.is64 : IType → Bool
  | .i64 | .ui64 => true
  | _ => false

/-- A 32-bit scalar MI type. -/
def IType.is32 : IType → Bool
  | .i32 | .ui32 => true
  | _ => false

/-- A packed MI type. -/
def IType.packed : IType → Bool
  | .i16x2 | .ui16x2 | .i8x4 | .ui8x4 => true
  | _ => false

/-- A signed MI type. -/
def IType.signed : IType → Bool
  | .i32 | .i64 | .i16x2 | .i8x4 => true
  | _ => false

/-- Types 0 to 3 of R66. -/
def IType.scalar (t : IType) : Bool := !t.packed

/-- The source is the immediate code. -/
def Src.isImm : Src → Bool
  | .imm _ => true
  | _ => false

/-- The source is the latch. -/
def Src.isLat : Src → Bool
  | .lat => true
  | _ => false

/-- The source is a window register or a constant, as a gate mask must be (R175). -/
def Src.isGate : Src → Bool
  | .w _ | .c _ => true
  | _ => false

/-- A destination other than the latch (R16, R168, R412). -/
def Dst.notLat : Dst → Bool
  | .lat => false
  | _ => true

/-- A link destination is a window pair (R84). -/
def Dst.isWin : Dst → Bool
  | .w _ => true
  | _ => false

/-- No operand names 0x1F0 (R59). -/
def noImm (l : List Src) : Bool := l.all (fun s => !s.isImm)

/-- The value of the first immediate among sources. -/
def firstImm : List (Src × Bool) → Option ImmVal
  | [] => none
  | (.imm v, _) :: _ => some v
  | _ :: l => firstImm l

/-- Every immediate position receives the same value, and a 64-bit value needs every such position 64 bits wide
(R62, R69). Each source comes with whether its position is 64 bits wide. -/
def immOk (l : List (Src × Bool)) : Bool :=
  match firstImm l with
  | none => true
  | some v => l.all fun p =>
      match p.1 with
      | .imm u => decide (u = v) && (match v with | .i32 _ => true | .i64 _ => p.2)
      | _ => true

/-- A coordinate or data quad is a window quad, n0 or n4 or a constant: never the latch or an immediate (R266, R326). -/
def Src.quadOk (s : Src) : Bool := !s.isImm && !s.isLat

/-- A rounding code other than SR (R45). -/
def Rc.notSr : Rc → Bool
  | .sr => false
  | _ => true

/-- Condition codes that integers accept (R67, R104). -/
def Cc.intOk : Cc → Bool
  | .f | .lt | .eq | .le | .gt | .ne | .ge | .t => true
  | _ => false

/-- Types 0 to 2 of R123: 32 bits wide or packed. -/
def FType.notF64 : FType → Bool
  | .f64 => false
  | _ => true

/-- A conversion format held in a 64-bit pair (R134). -/
def CFmt.is64 : CFmt → Bool
  | .f64 | .i64 | .ui64 => true
  | _ => false

/-- A float code of R132. -/
def CFmt.isFloat : CFmt → Bool
  | .f32 | .f16 | .bf16 | .f64 | .e4m3 | .e5m2 | .e3m2 | .e2m3 | .e2m1 | .ue5m3 => true
  | _ => false

/-- Elements per packed register of PACK and UNPK, 0 where the format is not listed (R136). -/
def CFmt.packCount : CFmt → Nat
  | .f16 | .bf16 | .i16 | .ui16 => 2
  | .e4m3 | .e5m2 | .e3m2 | .e2m3 | .ue5m3 | .i8 | .ui8 => 4
  | .e2m1 | .i4 | .ui4 => 8
  | _ => 0

/-- The codes that DP2, DP4 and DP8 list (R138). -/
def DpElem.count : DpElem → Nat
  | .i16 | .ui16 | .f16 | .bf16 => 2
  | .i8 | .ui8 | .e4m3 | .e5m2 | .e3m2 | .e2m3 => 4
  | .i4 | .ui4 | .e2m1 => 8

/-- An integer element of a dot product. -/
def DpElem.isInt : DpElem → Bool
  | .i16 | .ui16 | .i8 | .ui8 | .i4 | .ui4 => true
  | _ => false

/-- Element codes of a dot product of n elements: both listed, both integer or both float (R138). -/
def dpOk (n : Nat) (a b : DpElem) : Bool := a.count == n && b.count == n && (a.isInt == b.isInt)

/-- The CSR numbers of 64 bits: SRSEED (R28), BKA0 to BKA3 (R389) and SVPAGE (R458). -/
def csr64 (num : BitVec 12) : Bool :=
  num == 0x011#12 || num == 0x840#12 || num == 0x841#12 || num == 0x842#12 || num == 0x843#12 || num == 0x849#12

/-- Scope, order and hint that LD accepts (R264); ST and the others below in the same way. -/
def MemUp.ldOk (u : MemUp) : Bool := u.scope != .fib && (u.order == .rlx || u.order == .acq)
/-- R264, ST. -/
def MemUp.stOk (u : MemUp) : Bool := u.scope != .fib && (u.order == .rlx || u.order == .rel)
/-- R264, ATOM and CAS. -/
def MemUp.atomOk (u : MemUp) : Bool := u.scope != .fib && u.hint == .none
/-- R264, LDS. -/
def MemUp.ldsOk (u : MemUp) : Bool := u.scope == .rope && (u.order == .rlx || u.order == .acq) && u.hint == .none
/-- R264, STS. -/
def MemUp.stsOk (u : MemUp) : Bool := u.scope == .rope && (u.order == .rlx || u.order == .rel) && u.hint == .none
/-- R264, ATOMS. -/
def MemUp.atomsOk (u : MemUp) : Bool := u.scope == .rope && u.hint == .none
/-- R264, LDRO. -/
def MemUp.ldroOk (u : MemUp) : Bool := u.scope == .dev && u.order == .rlx

/-- Widths that stores accept (R265). -/
def Width.storeOk : Width → Bool
  | .i8 | .i16 => false
  | _ => true

/-- Widths of CAS, and of the supervisor's moves (R265, R421). -/
def Width.casOk : Width → Bool
  | .b32 | .b64 | .b128 => true
  | _ => false

/-- A store's data operand: any source but an immediate; a quad for .b128 (R266). -/
def Width.dataOk (w : Width) (v : Src) : Bool :=
  !v.isImm && (w != .b128 || v.quadOk)

/-- ATOM operations a type accepts: the bitwise ones are reserved on floats (R265). -/
def AtomType.opOk (t : AtomType) (op : AtomOp) : Bool :=
  match t, op with
  | .f32, .and | .f32, .or | .f32, .xor | .f64, .and | .f64, .or | .f64, .xor
  | .f16x2, .and | .f16x2, .or | .f16x2, .xor | .bf16x2, .and | .bf16x2, .or | .bf16x2, .xor => false
  | _, _ => true

/-- A float REDS type. -/
def RedType.isFloat : RedType → Bool
  | .f32 | .f64 => true
  | _ => false

/-- REDS operations a type accepts (R179). -/
def RedType.opOk (t : RedType) (op : RedOp) (sat : Bool) : Bool :=
  if t.isFloat then (op == .add || op == .min || op == .max) && !sat else true

/-- A gate operand goes with .cv and only with it (R175); without .cv the field is unused (R65). -/
def gateOk (cv : Bool) : Option Src → Bool
  | none => !cv
  | some s => cv && s.isGate

/-- The XRED fields are zero wherever the instruction does not use them (R327). -/
def CopyUp.plainOk (u : CopyUp) : Bool :=
  u.rop == .add && u.rty == .i32 && !u.det && !u.sat

/-- An integer XRED type. -/
def XredType.isInt : XredType → Bool
  | .i32 | .ui32 => true
  | _ => false

/-- The modifiers of XRED that are not reserved (R339): sat goes only with integer .add; det goes neither with float
.add nor with sat. A float type with a bitwise op is no decode error: it is TILEFMT at issue (R332, R339). -/
def CopyUp.xredOk (u : CopyUp) : Bool :=
  (!u.sat || (u.rty.isInt && u.rop == .add)) &&
  (!u.det || (!u.sat && !(u.rop == .add && !u.rty.isInt)))

/-- The operand of an enabled offset is any register or constant; where it is left out the field is zero (R326). -/
def offOk (en : Bool) (b : Src) : Bool := !b.isImm && (en || b == .w 0)

/-- The awaited barrier operand w of a tile instruction (R326). -/
def TileUp.waitOk (u : TileUp) (w : Src) : Bool := offOk u.wb w

/-- A tile word's upper word names only what its operation uses, which are tiles D, A, B and C, a box, and rows: every other field is zero
(R326, R328). -/
def TileUp.only (u : TileUp) (d a b q box rows : Bool) : Bool :=
  (d || u.td == 0) && (a || u.ta == 0) && (b || u.tb == 0) && (q || u.tq == 0) &&
    (box || (u.shp == 0 && !u.so && u.srope == 0)) && (rows || (u.cnt == 0 && u.drow == 0 && u.srow == 0))

/-- Well-formedness of an instruction; device events have no encoding and nothing to check. -/
def Instr.wf : Instr → Bool
  | .brx _ a | .ret _ a => !a.isImm
  | .call _ l _ => l.isWin
  | .callx _ l a => l.isWin && !a.isImm
  | .iadd _ t _ _ a b | .isub _ t _ _ a b | .imul _ t _ _ a b => immOk [(a, t.is64), (b, t.is64)]
  | .imulh _ t _ a b | .imin _ t _ a b | .imax _ t _ a b => immOk [(a, t.is64), (b, t.is64)]
  | .imad _ t _ _ a b c => immOk [(a, t.is64), (b, t.is64), (c, t.is64)]
  | .imadw _ t _ _ a b c => t.is32 && immOk [(a, false), (b, false), (c, true)]
  | .idiv _ t _ _ a b => t.scalar && immOk [(a, t.is64), (b, t.is64)]
  | .irem _ t _ a b => t.scalar && immOk [(a, t.is64), (b, t.is64)]
  | .iabs _ t _ _ a | .ineg _ t _ _ a => t.signed && immOk [(a, t.is64)]
  | .iaddc _ t _ _ _ _ a b => t.scalar && !t.signed && immOk [(a, t.is64), (b, t.is64)]
  | .isad _ t _ a b c => !t.is64 && immOk [(a, false), (b, false), (c, false)]
  | .lea _ t _ _ a b => t.scalar && immOk [(a, true), (b, t.is64)]
  | .and _ t _ a b | .or _ t _ a b | .xor _ t _ a b | .andn _ t _ a b =>
      t.scalar && immOk [(a, t.is64), (b, t.is64)]
  | .shl _ t _ a n | .shr _ t _ a n | .sar _ t _ a n | .rotl _ t _ a n => immOk [(a, t.is64), (n, false)]
  | .bfx _ t _ a f => t.scalar && immOk [(a, t.is64), (f, false)]
  | .bfi _ t _ a b f => t.scalar && immOk [(a, t.is64), (b, t.is64), (f, false)]
  | .popc _ t _ a | .clz _ t _ a | .brev _ t _ a => t.scalar && immOk [(a, t.is64)]
  | .prmt _ t _ _ a b s => t.is32 && immOk [(a, false), (b, false), (s, false)]
  | .isetp _ cc t _ _ a b => t.scalar && cc.intOk && immOk [(a, t.is64), (b, t.is64)]
  | .fsetp _ _ rc _ _ a b => rc.notSr && immOk [(a, false), (b, false)]
  | .dsetp _ _ rc _ _ a b => rc.notSr && immOk [(a, true), (b, true)]
  | .sel _ t _ a b _ _ => t.scalar && immOk [(a, t.is64), (b, t.is64)]
  | .iset _ cc t _ _ a b => cc.intOk && immOk [(a, t.is64), (b, t.is64)]
  | .pmov _ t (.rd _) => t.is32
  | .pmov _ t (.wr a m) => t.is32 && immOk [(a, false), (m, false)]
  | .fadd _ t _ rc _ a b | .fmul _ t _ rc _ a b | .fdiv _ t _ rc _ a b =>
      t.notF64 && rc.notSr && immOk [(a.src, false), (b.src, false)]
  | .fmin _ t rc _ a b | .fmax _ t rc _ a b => t.notF64 && rc.notSr && immOk [(a.src, false), (b.src, false)]
  | .ffma _ t _ rc _ a b c =>
      t.notF64 && rc.notSr && !c.abs && immOk [(a.src, false), (b.src, false), (c.src, false)]
  | .fsqrt _ t rc _ a | .ffrc _ t rc _ a | .frnd _ t rc _ a | .flg2 _ t rc _ a | .fsin _ t rc _ a | .fcos _ t rc _ a
  | .ftanh _ t rc _ a => t.notF64 && rc.notSr && immOk [(a.src, false)]
  | .frcp _ t _ rc _ a | .frsq _ t _ rc _ a | .fex2 _ t _ rc _ a => t.notF64 && rc.notSr && immOk [(a.src, false)]
  | .fclass _ t rc _ a => t.notF64 && rc.notSr && immOk [(a, false)]
  | .fldexp _ t _ rc _ a n => t.notF64 && rc.notSr && immOk [(a.src, false), (n, false)]
  | .dadd _ _ rc _ a b | .dmul _ _ rc _ a b | .ddiv _ _ rc _ a b => rc.notSr && immOk [(a.src, true), (b.src, true)]
  | .dmin _ rc _ a b | .dmax _ rc _ a b => rc.notSr && immOk [(a.src, true), (b.src, true)]
  | .dfma _ _ rc _ a b c => rc.notSr && !c.abs && immOk [(a.src, true), (b.src, true), (c.src, true)]
  | .dsqrt _ rc _ a => rc.notSr && immOk [(a.src, true)]
  | .cvt _ fd fs sat _ _ a => !(sat && fs.isFloat && !fd.isFloat) && immOk [(a, fs.is64)]
  | .pack _ f slot _ _ _ a b c =>
      decide (2 * slot.toNat < f.packCount) && immOk [(a, false), (b, false), (c, false)]
  | .unpk _ f el _ a => decide (el.toNat < f.packCount) && immOk [(a, false)]
  | .dp4 _ fa fb _ _ a b c => dpOk 4 fa fb && immOk [(a, false), (b, false), (c, false)]
  | .dp8 _ fa fb _ _ a b c => dpOk 8 fa fb && immOk [(a, false), (b, false), (c, false)]
  | .dp2 _ fa fb _ _ a b c => dpOk 2 fa fb && immOk [(a, false), (b, false), (c, false)]
  | .fscl _ t _ _ rc _ a s => t.notF64 && rc.notSr && immOk [(a, false), (s, false)]
  | .t3pk _ _ a b => immOk [(a, false), (b, false)]
  | .t3up _ _ _ _ a => immOk [(a, false)]
  | .mov _ t _ a => immOk [(a, t == .b64 || t == .f64)]
  | .movs _ _ sp => decide (sp.toNat ≤ 16)
  | .csrw _ _ num a => immOk [(a, csr64 num)]
  | .fork _ d n a _ => d.notLat && noImm [n, a]
  | .vote _ m _ cv d _ gate =>
      gateOk cv gate &&
      (match m, d with
       | .some, .p _ | .every, .p _ | .same, .p _ => true
       | .mask, .r d | .below, .r d | .count, .r d => d.notLat
       | _, _ => false)
  | .matchL _ f _ cv d p a gate => gateOk cv gate && d.notLat && !a.isImm && (f == .uni || p == 15)
  | .shfl _ _ logN b64 cv d _ a b gate =>
      gateOk cv gate && d.notLat && decide (logN.toNat ≤ 4) && immOk [(a, b64), (b, false)]
  | .reds _ op t _ sat cv d a gate => gateOk cv gate && d.notLat && !a.isImm && t.opOk op sat
  | .elect _ cv d _ gate => gateOk cv gate && d.notLat
  | .tiedef _ _ (.rng a b) => immOk [(a, false), (b, false)]
  | .tiedef _ _ (.lanes s m) => immOk [(s, false), (m, false)]
  | .hbar _ _ _ mask _ _ => !mask.isImm
  | .nsleep _ _ a v t => immOk [(a, true), (v, false), (t, false)]
  | .ld _ _ _ a up => !a.isImm && up.ldOk
  | .ldro _ _ _ a up => !a.isImm && up.ldroOk
  | .lds _ _ _ a up => !a.isImm && up.ldsOk
  | .st _ w a v up => !a.isImm && w.dataOk v && w.storeOk && up.stOk
  | .sts _ w a v up => !a.isImm && w.dataOk v && w.storeOk && up.stsOk
  | .pfch _ _ _ a _ => !a.isImm
  | .atom _ op t _ a b up => noImm [a, b] && t.opOk op && up.atomOk
  | .atoms _ op t _ a b up => noImm [a, b] && t.opOk op && up.atomsOk
  | .cas _ w _ a c n up => !a.isImm && w.casOk && w.dataOk c && w.dataOk n && up.atomOk
  | .lockl _ d a _ | .unlkl _ d a _ => d.notLat && !a.isImm
  | .cwb _ a _ | .cinv _ a _ => !a.isImm
  | .shpw _ (.all _) _ => true
  | .shpw _ (.base a) _ => !a.isImm
  | .xcp _ _ cs cd b up => cs.quadOk && cd.quadOk && offOk up.cred b && up.plainOk && up.is == 0
  | .xgath _ _ cs cd b up | .xscat _ _ cs cd b up =>
      cs.quadOk && cd.quadOk && offOk up.cred b && up.plainOk && !up.ro
  | .xred _ _ cs cd b up => cs.quadOk && cd.quadOk && offOk up.cred b && up.xredOk && !up.ro && up.is == 0
  | .xfill _ _ cd b up =>
      cd.quadOk && offOk up.cred b && up.plainOk && !up.ro && up.is == 0 && up.ss == 0
  | .tlwait _ tl n => decide (tl.toNat ≤ 5) && !n.isImm
  | .bari _ b e _ => noImm [b, e]
  | .bara _ _ b _ => !b.isImm
  | .barex _ b n _ => noImm [b, n]
  | .barw _ _ b ph _ => noImm [b, ph]
  | .tcfg _ _ a => !a.isImm
  | .tld _ _ c w up => c.quadOk && up.waitOk w && up.only true false false false true false
  | .tst _ _ c w up => c.quadOk && up.waitOk w && up.only false true false false true false
  | .tzero _ _ w up => up.waitOk w && up.only true false false false false false
  | .mma _ _ _ _ _ _ _ w up => up.waitOk w && up.only true true true true false false
  | .tew _ _ _ _ w up => up.waitOk w && up.only true true true false false false
  | .tcvt _ _ _ _ w up => up.waitOk w && up.only true true false false false false
  | .tred _ _ _ w up => up.waitOk w && up.only true true false false false false
  | .trow _ _ w up => up.waitOk w && up.only true true false false false true
  | .gdef _ _ _ (.define a s0) => noImm [a, s0]
  | .gld _ _ _ q c => !q.isImm && c.quadOk
  | .gst _ _ q c v => !q.isImm && c.quadOk && !v.isImm
  | .gstep _ _ _ _ q s => noImm [q, s]
  | .gwait _ _ q f t => noImm [q, f, t]
  | .gstat _ _ _ q (.face n) => noImm [q, n]
  | .gstat _ _ _ q .com => !q.isImm
  | .sigret _ f => !f.isImm
  | .rft _ d t => d.notLat && !t.isImm
  | .rqpop _ d _ a => d.notLat && !a.isImm
  | .replay _ _ s (.hdr t) => noImm [s, t]
  | .replay _ _ s _ => !s.isImm
  | .smovr _ _ _ w d _ a t _ => d.notLat && noImm [a, t] && w.casOk
  | .smovw _ _ _ w _ a v t _ => noImm [a, t] && w.casOk && w.dataOk v
  | .sigpost _ _ c s => noImm [c, s]
  | .ptinv _ _ a n _ _ => noImm [a, n]
  | .haltc _ _ d c => d.notLat && !c.isImm
  | _ => true

end Sys2Proof
end

