-- ==== Sys2Proof/Decode.lean ====
section
/-! DEFINITION. Decoding of instruction words (R58 to R72) and the encoder. A word becomes `Fields`; `formOf` says, for each
opcode of R68, what each operand field holds and which mod, ext and upper-word values the entry lists; `decodeFields`
applies checks 4 to 9 of R71 in their order and then builds the instruction. Checks 1 to 3 need the clause and stand in
the step. -/

namespace Sys2Proof

/-- The cause codes of R71. -/
inductive Cause where
  | wordkind | cross | branchpos | opcode | length | privileged | reserved | operand | window | hazard | target
  deriving DecidableEq, Repr

/-- The code of a cause in the info field of R365. -/
def Cause.code : Cause → Nat
  | .wordkind => 0 | .cross => 1 | .branchpos => 2 | .opcode => 3 | .length => 4 | .privileged => 5
  | .reserved => 6 | .operand => 7 | .window => 8 | .hazard => 9 | .target => 10

/-- The upper word of R58: absent, imm32, or 64 bits. -/
inductive Upper where
  | no
  | w32 (v : BitVec 32)
  | w64 (v : BitVec 64)
  deriving DecidableEq, Repr

/-- The upper word as 64 bits. -/
def Upper.bits : Upper → BitVec 64
  | .no => 0
  | .w32 v => v.setWidth 64
  | .w64 v => v

/-- The immediate an upper word supplies (R62). -/
def Upper.imm : Upper → ImmVal
  | .no => .i32 0
  | .w32 v => .i32 v
  | .w64 v => .i64 v

/-- The fields of R58. -/
structure Fields where
  opc : BitVec 10
  pg  : BitVec 4
  pn  : Bool
  dst : BitVec 9
  sa  : BitVec 9
  sb  : BitVec 9
  sc  : BitVec 9
  md  : BitVec 6
  ext : BitVec 5
  up  : Upper
  deriving DecidableEq, Repr

/-- Length of a word in bytes from its bits [1:0]; 0 for a clause header (R58). -/
def wordLen (b : BitVec 2) : Nat := if b = 0 then 8 else if b = 1 then 12 else if b = 2 then 16 else 0

/-- The length code of an upper word. -/
def Upper.code : Upper → BitVec 2
  | .no => 0
  | .w32 _ => 1
  | .w64 _ => 2

/-- Bytes of a word with this upper word. -/
def Upper.len : Upper → Nat
  | .no => 8
  | .w32 _ => 12
  | .w64 _ => 16

/-- The fields of a word from its low 64 bits (R58). -/
def Fields.ofWord (lo : BitVec 64) (up : Upper) : Fields :=
  { opc := lo.extractLsb' 2 10, pg := lo.extractLsb' 12 4, pn := lo.getLsbD 16,
    dst := lo.extractLsb' 17 9, sa := lo.extractLsb' 26 9, sb := lo.extractLsb' 35 9, sc := lo.extractLsb' 44 9,
    md := lo.extractLsb' 53 6, ext := lo.extractLsb' 59 5, up := up }

/-- The low 64 bits of a word (R58). -/
def Fields.toWord (f : Fields) : BitVec 64 :=
  f.ext ++ f.md ++ f.sc ++ f.sb ++ f.sa ++ f.dst ++ BitVec.ofBool f.pn ++ f.pg ++ f.opc ++ f.up.code

/-- Little-endian value of a list of bytes (R6). -/
def leNat : List Byte → Nat
  | [] => 0
  | b :: l => b.toNat + 256 * leNat l

/-- The `n` bytes of a value, least significant first (R6). -/
def leBytes : Nat → Nat → List Byte
  | 0, _ => []
  | n + 1, v => BitVec.ofNat 8 v :: leBytes n (v / 256)

/-- The fields of the word that starts a list of bytes; none for a clause header code or too few bytes. -/
def Fields.ofBytes (l : List Byte) : Option Fields :=
  let lo := BitVec.ofNat 64 (leNat (l.take 8))
  let n := wordLen (lo.extractLsb' 0 2)
  if n = 0 ∨ l.length < n then none
  else
    let u := leNat ((l.take n).drop 8)
    some (Fields.ofWord lo (if n = 8 then .no else if n = 12 then .w32 (BitVec.ofNat 32 u) else .w64 (BitVec.ofNat 64 u)))

/-- The bytes of a word. -/
def Fields.toBytes (f : Fields) : List Byte :=
  leBytes 8 f.toWord.toNat ++ leBytes (f.up.len - 8) f.up.bits.toNat

/-! ### Operand codes (R61) -/

/-- The 9-bit code of a source. -/
def Src.code : Src → BitVec 9
  | .w i => i.setWidth 9
  | .n i => 0x100#9 ||| i.setWidth 9
  | .lat => 0x108#9
  | .c j => 0x140#9 ||| j.setWidth 9
  | .imm _ => 0x1F0#9

/-- The 9-bit code of a destination. -/
def Dst.code : Dst → BitVec 9
  | .w i => i.setWidth 9
  | .n i => 0x100#9 ||| i.setWidth 9
  | .lat => 0x108#9

/-- The source a code names; `up` supplies an immediate. A code that R61 reserves never gets past `Kind.codeOk`. -/
def srcOf (up : Upper) (c : BitVec 9) : Src :=
  if c.toNat < 0x100 then .w (c.setWidth 8)
  else if c.toNat < 0x108 then .n (c.setWidth 3)
  else if c.toNat = 0x108 then .lat
  else if c.toNat < 0x180 then .c (c.setWidth 6)
  else .imm up.imm

/-- The destination a code names. -/
def dstOf (c : BitVec 9) : Dst :=
  if c.toNat < 0x100 then .w (c.setWidth 8) else if c.toNat < 0x108 then .n (c.setWidth 3) else .lat

/-- What an operand field of an opcode holds. -/
inductive Kind where
  /-- Not used: zero (R65). -/
  | no
  /-- A plain number up to `max` (R65). -/
  | num (max : Nat)
  /-- A predicate number (R65). -/
  | pred
  /-- A source of `words` registers; `imm` says whether 0x1F0 is allowed (R59, R62). -/
  | src (words : Nat) (imm : Bool)
  /-- A quad: window quad, n0, n4 or a constant (R266, R326). -/
  | quad
  /-- A gate mask: window register or constant (R175). -/
  | gate
  /-- A block of window registers (R326). -/
  | block (words : Nat)
  /-- A destination; `lat` says whether the latch is allowed (R15, R61). -/
  | dst (words : Nat) (lat : Bool)
  /-- A window destination, of a long-latency instruction or a link (R16, R84). -/
  | wdst (words : Nat)
  deriving DecidableEq, Repr

/-- Length classes of R68 and R69. -/
inductive LenClass where
  | l64 | l96 | l128 | classI
  deriving DecidableEq, Repr

/-- What an opcode's fields hold, with its length class, whether the mod and ext values are listed by its entry, and
whether its upper word has no reserved bit set. -/
structure Form where
  len : LenClass
  d   : Kind
  a   : Kind
  b   : Kind
  c   : Kind
  mx  : Bool
  ux  : Bool
  deriving DecidableEq, Repr

/-- A field that holds an operand code, so that it can name 0x1F0 (R59, R69). -/
def Kind.isCode : Kind → Bool
  | .num _ | .pred => false
  | _ => true

/-- The position is 64 bits wide (R69). -/
def Kind.wide : Kind → Bool
  | .src 2 _ | .dst 2 _ | .wdst 2 => true
  | _ => false

/-- Check 8 of R71 on one field: the code is one that R61 assigns and its position allows. -/
def Kind.codeOk (k : Kind) (v : BitVec 9) : Bool :=
  let w := decide (v.toNat < 0x100)
  let n := decide (0x100 ≤ v.toNat ∧ v.toNat < 0x108)
  let l := decide (v.toNat = 0x108)
  let c := decide (0x140 ≤ v.toNat ∧ v.toNat < 0x180)
  let i := decide (v.toNat = 0x1F0)
  match k with
  | .no => true
  | .num m => decide (v.toNat ≤ m)
  | .pred => decide (v.toNat ≤ 15)
  | .src _ imm => w || n || l || c || (imm && i)
  | .quad => w || n || c
  | .gate => w || c
  | .block _ => w
  | .dst _ lat => w || n || (lat && l)
  | .wdst _ => w

/-- Registers an operand field spans. -/
def Kind.words : Kind → Nat
  | .no | .num _ | .pred => 0
  | .src n _ | .block n | .dst n _ | .wdst n => n
  | .quad => 4
  | .gate => 1

/-- Check 9 of R71 on one field: in the window, aligned to its span, a legal near pair or quad (R13, R14, R266, R326). -/
def Kind.inWindow (k : Kind) (win : Nat) (v : BitVec 9) : Bool :=
  if k.words = 0 then true
  else if v.toNat < 0x100 then decide (v.toNat % k.words = 0 ∧ v.toNat + k.words ≤ win)
  else if v.toNat < 0x108 then decide ((v.toNat - 0x100) % k.words = 0)
  else if v.toNat = 0x108 then true
  else true

/-! ### Codes of suffixes -/

/-- MI type codes (R66). -/
def IType.code : IType → BitVec 3
  | .i32 => 0 | .ui32 => 1 | .i64 => 2 | .ui64 => 3 | .i16x2 => 4 | .ui16x2 => 5 | .i8x4 => 6 | .ui8x4 => 7
/-- The MI type of a code. -/
def IType.ofCode (c : BitVec 3) : IType :=
  if c = 0 then .i32 else if c = 1 then .ui32 else if c = 2 then .i64 else if c = 3 then .ui64
  else if c = 4 then .i16x2 else if c = 5 then .ui16x2 else if c = 6 then .i8x4 else .ui8x4

/-- MF type codes (R66). -/
def FType.code : FType → BitVec 2
  | .f32 => 0 | .f16x2 => 1 | .bf16x2 => 2 | .f64 => 3
/-- The MF type of a code. -/
def FType.ofCode (c : BitVec 2) : FType :=
  if c = 0 then .f32 else if c = 1 then .f16x2 else if c = 2 then .bf16x2 else .f64

/-- Rounding codes (R45). -/
def Rc.code : Rc → BitVec 3
  | .rne => 0 | .rz => 1 | .rp => 2 | .rm => 3 | .sr => 4 | .dyn => 5
/-- The rounding of a code. -/
def Rc.ofCode (c : BitVec 3) : Rc :=
  if c = 0 then .rne else if c = 1 then .rz else if c = 2 then .rp else if c = 3 then .rm else if c = 4 then .sr
  else .dyn

/-- Condition codes (R67). -/
def Cc.code : Cc → BitVec 4
  | .f => 0 | .lt => 1 | .eq => 2 | .le => 3 | .gt => 4 | .ne => 5 | .ge => 6 | .num => 7 | .nan => 8 | .ltu => 9
  | .equ => 10 | .leu => 11 | .gtu => 12 | .neu => 13 | .geu => 14 | .t => 15
/-- The condition of a code. -/
def Cc.ofCode (c : BitVec 4) : Cc :=
  if c = 0 then .f else if c = 1 then .lt else if c = 2 then .eq else if c = 3 then .le else if c = 4 then .gt
  else if c = 5 then .ne else if c = 6 then .ge else if c = 7 then .num else if c = 8 then .nan
  else if c = 9 then .ltu else if c = 10 then .equ else if c = 11 then .leu else if c = 12 then .gtu
  else if c = 13 then .neu else if c = 14 then .geu else .t

/-- Accumulate modes (R105). -/
def AccMode.code : AccMode → BitVec 2
  | .plain => 0 | .andp => 1 | .orp => 2 | .xorp => 3
/-- The accumulate mode of a code. -/
def AccMode.ofCode (c : BitVec 2) : AccMode :=
  if c = 0 then .plain else if c = 1 then .andp else if c = 2 then .orp else .xorp

/-- PRMT granularity (R103). -/
def Gran.code : Gran → BitVec 2
  | .n4 => 0 | .n8 => 1 | .n16 => 2
/-- The granularity of a code. -/
def Gran.ofCode (c : BitVec 2) : Gran := if c = 0 then .n4 else if c = 1 then .n8 else .n16

/-- MOV types (R111). -/
def MovType.code : MovType → BitVec 2
  | .b32 => 0 | .b64 => 1 | .f32 => 2 | .f64 => 3
/-- The MOV type of a code. -/
def MovType.ofCode (c : BitVec 2) : MovType :=
  if c = 0 then .b32 else if c = 1 then .b64 else if c = 2 then .f32 else .f64

/-- CSRW forms (R111). -/
def CsrOp.code : CsrOp → BitVec 2
  | .write => 0 | .set => 1 | .clr => 2
/-- The CSRW form of a code. -/
def CsrOp.ofCode (c : BitVec 2) : CsrOp := if c = 0 then .write else if c = 1 then .set else .clr

/-- Conversion formats (R132). -/
def CFmt.code : CFmt → BitVec 5
  | .f32 => 0 | .f16 => 1 | .bf16 => 2 | .f64 => 3 | .e4m3 => 4 | .e5m2 => 5 | .e3m2 => 6 | .e2m3 => 7 | .e2m1 => 8
  | .ue5m3 => 9 | .i4 => 10 | .ui4 => 11 | .i8 => 12 | .ui8 => 13 | .i16 => 14 | .ui16 => 15 | .i32 => 16
  | .ui32 => 17 | .i64 => 18 | .ui64 => 19
/-- The format of a code; codes 20 to 31 are reserved (R132). -/
def CFmt.ofCode (c : BitVec 5) : CFmt :=
  if c = 0 then .f32 else if c = 1 then .f16 else if c = 2 then .bf16 else if c = 3 then .f64 else if c = 4 then .e4m3
  else if c = 5 then .e5m2 else if c = 6 then .e3m2 else if c = 7 then .e2m3 else if c = 8 then .e2m1
  else if c = 9 then .ue5m3 else if c = 10 then .i4 else if c = 11 then .ui4 else if c = 12 then .i8
  else if c = 13 then .ui8 else if c = 14 then .i16 else if c = 15 then .ui16 else if c = 16 then .i32
  else if c = 17 then .ui32 else if c = 18 then .i64 else .ui64

/-- Element codes of DP2 (R138). -/
def dp2El (c : BitVec 3) : DpElem := if c = 0 then .i16 else if c = 1 then .ui16 else if c = 2 then .f16 else .bf16
/-- Element codes of DP4 (R138). -/
def dp4El (c : BitVec 3) : DpElem :=
  if c = 0 then .i8 else if c = 1 then .ui8 else if c = 2 then .e4m3 else if c = 3 then .e5m2 else if c = 4 then .e3m2
  else .e2m3
/-- Element codes of DP8 (R138). -/
def dp8El (c : BitVec 3) : DpElem := if c = 0 then .i4 else if c = 1 then .ui4 else .e2m1
/-- The code of an element in its own instruction's list. -/
def DpElem.code : DpElem → BitVec 3
  | .i16 | .i8 | .i4 => 0 | .ui16 | .ui8 | .ui4 => 1 | .f16 | .e4m3 | .e2m1 => 2 | .bf16 | .e5m2 => 3 | .e3m2 => 4
  | .e2m3 => 5

/-- VOTE modes (R167). -/
def VoteMode.code : VoteMode → BitVec 3
  | .some => 0 | .every => 1 | .same => 2 | .mask => 3 | .below => 4 | .count => 5
/-- The VOTE mode of a code. -/
def VoteMode.ofCode (c : BitVec 3) : VoteMode :=
  if c = 0 then .some else if c = 1 then .every else if c = 2 then .same else if c = 3 then .mask
  else if c = 4 then .below else .count
/-- The VOTE mode writes a predicate (R176). -/
def VoteMode.toPred : VoteMode → Bool
  | .some | .every | .same => true
  | _ => false

/-- MATCH forms (R167). -/
def MatchForm.code : MatchForm → BitVec 2
  | .grp => 0 | .lead => 1 | .rank => 2 | .uni => 3
/-- The MATCH form of a code. -/
def MatchForm.ofCode (c : BitVec 2) : MatchForm :=
  if c = 0 then .grp else if c = 1 then .lead else if c = 2 then .rank else .uni

/-- SHFL modes (R167). -/
def ShflMode.code : ShflMode → BitVec 2
  | .idx => 0 | .lo => 1 | .hi => 2 | .xor => 3
/-- The SHFL mode of a code. -/
def ShflMode.ofCode (c : BitVec 2) : ShflMode :=
  if c = 0 then .idx else if c = 1 then .lo else if c = 2 then .hi else .xor

/-- REDS and XRED operations (R167, R327). -/
def RedOp.code : RedOp → BitVec 3
  | .add => 0 | .min => 1 | .max => 2 | .and => 3 | .or => 4 | .xor => 5
/-- The operation of a code. -/
def RedOp.ofCode (c : BitVec 3) : RedOp :=
  if c = 0 then .add else if c = 1 then .min else if c = 2 then .max else if c = 3 then .and else if c = 4 then .or
  else .xor

/-- REDS types (R167). -/
def RedType.code : RedType → BitVec 3
  | .i32 => 0 | .ui32 => 1 | .i64 => 2 | .ui64 => 3 | .f32 => 4 | .f64 => 5
/-- The REDS type of a code. -/
def RedType.ofCode (c : BitVec 3) : RedType :=
  if c = 0 then .i32 else if c = 1 then .ui32 else if c = 2 then .i64 else if c = 3 then .ui64 else if c = 4 then .f32
  else .f64
/-- A 64-bit REDS type. -/
def RedType.is64 : RedType → Bool
  | .i64 | .ui64 | .f64 => true
  | _ => false

/-- HBAR modes (R167). -/
def HbarMode.code : HbarMode → BitVec 2
  | .plain => 0 | .and => 1 | .or => 2
/-- The HBAR mode of a code. -/
def HbarMode.ofCode (c : BitVec 2) : HbarMode := if c = 0 then .plain else if c = 1 then .and else .or

/-- Access widths (R265). -/
def Width.code : Width → BitVec 3
  | .ui8 => 0 | .i8 => 1 | .ui16 => 2 | .i16 => 3 | .b32 => 4 | .b64 => 5 | .b128 => 6
/-- The width of a code. -/
def Width.ofCode (c : BitVec 3) : Width :=
  if c = 0 then .ui8 else if c = 1 then .i8 else if c = 2 then .ui16 else if c = 3 then .i16 else if c = 4 then .b32
  else if c = 5 then .b64 else .b128
/-- Registers an access of this width moves (R266). -/
def Width.words : Width → Nat
  | .b64 => 2
  | .b128 => 4
  | _ => 1
/-- CAS width codes (R265). -/
def casWidth (c : BitVec 2) : Width := if c = 0 then .b32 else if c = 1 then .b64 else .b128
/-- The code of a CAS width. -/
def casCode : Width → BitVec 2
  | .b64 => 1
  | .b128 => 2
  | _ => 0

/-- Scope codes (R229). -/
def Scope.code : Scope → BitVec 3
  | .fib => 0 | .rope => 1 | .coil => 2 | .dev => 3 | .dom => 4 | .sys => 5
/-- The scope of a code. -/
def Scope.ofCode (c : BitVec 3) : Scope :=
  if c = 0 then .fib else if c = 1 then .rope else if c = 2 then .coil else if c = 3 then .dev else if c = 4 then .dom
  else .sys

/-- Order codes (R230). -/
def Order.code : Order → BitVec 2
  | .rlx => 0 | .acq => 1 | .rel => 2 | .ar => 3
/-- The order of a code. -/
def Order.ofCode (c : BitVec 2) : Order := if c = 0 then .rlx else if c = 1 then .acq else if c = 2 then .rel else .ar

/-- Hint codes (R263). -/
def Hint.code : Hint → BitVec 2
  | .none => 0 | .l2only => 1 | .stream => 2
/-- The hint of a code. -/
def Hint.ofCode (c : BitVec 2) : Hint := if c = 0 then .none else if c = 1 then .l2only else .stream

/-- ATOM operations (R265). -/
def AtomOp.code : AtomOp → BitVec 3
  | .add => 0 | .min => 1 | .max => 2 | .and => 3 | .or => 4 | .xor => 5 | .exch => 6
/-- The ATOM operation of a code. -/
def AtomOp.ofCode (c : BitVec 3) : AtomOp :=
  if c = 0 then .add else if c = 1 then .min else if c = 2 then .max else if c = 3 then .and else if c = 4 then .or
  else if c = 5 then .xor else .exch

/-- ATOM types (R265). -/
def AtomType.code : AtomType → BitVec 3
  | .i32 => 0 | .ui32 => 1 | .i64 => 2 | .ui64 => 3 | .f32 => 4 | .f64 => 5 | .f16x2 => 6 | .bf16x2 => 7
/-- The ATOM type of a code. -/
def AtomType.ofCode (c : BitVec 3) : AtomType :=
  if c = 0 then .i32 else if c = 1 then .ui32 else if c = 2 then .i64 else if c = 3 then .ui64 else if c = 4 then .f32
  else if c = 5 then .f64 else if c = 6 then .f16x2 else .bf16x2
/-- Registers an ATOM operand spans (R277). -/
def AtomType.words : AtomType → Nat
  | .i64 | .ui64 | .f64 => 2
  | _ => 1

/-- XRED types (R327). -/
def XredType.code : XredType → BitVec 3
  | .i32 => 0 | .ui32 => 1 | .f32 => 2 | .f64 => 3 | .f16 => 4 | .bf16 => 5
/-- The XRED type of a code. -/
def XredType.ofCode (c : BitVec 3) : XredType :=
  if c = 0 then .i32 else if c = 1 then .ui32 else if c = 2 then .f32 else if c = 3 then .f64 else if c = 4 then .f16
  else .bf16

/-- TEW operations (R351). -/
def TewOp.code : TewOp → BitVec 3
  | .add => 0 | .sub => 1 | .mul => 2 | .min => 3 | .max => 4 | .relu => 5 | .mov => 6
/-- The TEW operation of a code. -/
def TewOp.ofCode (c : BitVec 3) : TewOp :=
  if c = 0 then .add else if c = 1 then .sub else if c = 2 then .mul else if c = 3 then .min else if c = 4 then .max
  else if c = 5 then .relu else .mov

/-- TRED operations (R353). -/
def TredOp.code : TredOp → BitVec 2
  | .add => 0 | .min => 1 | .max => 2
/-- The TRED operation of a code. -/
def TredOp.ofCode (c : BitVec 2) : TredOp := if c = 0 then .add else if c = 1 then .min else .max

/-- Spaces of SMOVR and SMOVW (R421). -/
def SSpace.code : SSpace → BitVec 3
  | .va => 0 | .win => 1 | .st => 2 | .spad => 3 | .tile => 4
/-- The space of a code. -/
def SSpace.ofCode (c : BitVec 3) : SSpace :=
  if c = 0 then .va else if c = 1 then .win else if c = 2 then .st else if c = 3 then .spad else .tile

/-- HALTC modes (R425). -/
def HaltMode.code : HaltMode → BitVec 2
  | .halt => 0 | .cont => 1 | .save => 2 | .kill => 3
/-- The HALTC mode of a code. -/
def HaltMode.ofCode (c : BitVec 2) : HaltMode :=
  if c = 0 then .halt else if c = 1 then .cont else if c = 2 then .save else .kill

/-! ### Upper words -/

/-- R263. -/
def MemUp.bits (u : MemUp) : BitVec 64 := (0#25 ++ u.hint.code ++ u.order.code ++ u.scope.code ++ u.off : BitVec 64)
/-- R263. -/
def MemUp.ofBits (v : BitVec 64) : MemUp :=
  { off := v.extractLsb' 0 32, scope := .ofCode (v.extractLsb' 32 3), order := .ofCode (v.extractLsb' 35 2),
    hint := .ofCode (v.extractLsb' 37 2) }
/-- Codes that R263, R229 and R230 leave out, and the reserved bits. -/
def memUpOk (v : BitVec 64) (ok : MemUp → Bool) : Bool :=
  v.extractLsb' 39 25 == 0 && decide ((v.extractLsb' 32 3).toNat ≤ 5) && v.extractLsb' 37 2 != 3#2 && ok (.ofBits v)
/-- PFCH, LOCKL, UNLKL, CWB and CINV carry an offset alone (R264). -/
def offUpOk (v : BitVec 64) : Bool := v.extractLsb' 32 32 == 0

/-- One bit. -/
def bit1 (b : Bool) : BitVec 1 := BitVec.ofBool b

/-- R327. -/
def CopyUp.bits (u : CopyUp) : BitVec 64 :=
  (u.k ++ bit1 u.tie ++ bit1 u.wrec ++ bit1 u.ro ++ bit1 u.cred ++ bit1 u.bo ++ u.brope ++ bit1 u.dw ++ u.drope
    ++ bit1 u.fo ++ u.frope ++ u.ch ++ u.rop.code ++ u.rty.code ++ bit1 u.det ++ bit1 u.sat ++ 0#10 ++ u.is ++ u.ds
    ++ u.ss : BitVec 64)
/-- R327. -/
def CopyUp.ofBits (v : BitVec 64) : CopyUp :=
  { k := v.extractLsb' 60 4, tie := v.getLsbD 59, wrec := v.getLsbD 58, ro := v.getLsbD 57, cred := v.getLsbD 56,
    bo := v.getLsbD 55, brope := v.extractLsb' 52 3, dw := v.getLsbD 51, drope := v.extractLsb' 48 3,
    fo := v.getLsbD 47, frope := v.extractLsb' 44 3, ch := v.extractLsb' 42 2, rop := .ofCode (v.extractLsb' 39 3),
    rty := .ofCode (v.extractLsb' 36 3), det := v.getLsbD 35, sat := v.getLsbD 34, is := v.extractLsb' 16 8,
    ds := v.extractLsb' 8 8, ss := v.extractLsb' 0 8 }
/-- The reserved bits of R327 and the op and type codes it does not list. -/
def copyUpOk (v : BitVec 64) (ok : CopyUp → Bool) : Bool :=
  v.extractLsb' 24 10 == 0 && decide ((v.extractLsb' 39 3).toNat ≤ 5) && decide ((v.extractLsb' 36 3).toNat ≤ 5)
    && ok (.ofBits v)

/-- R328. -/
def TileUp.bits (u : TileUp) : BitVec 64 :=
  (u.k ++ bit1 u.tie ++ bit1 u.wrec ++ bit1 u.wb ++ bit1 u.wph ++ bit1 u.bo ++ u.brope ++ 0#2 ++ u.cnt ++ u.drow
    ++ u.srow ++ 0#4 ++ u.srope ++ bit1 u.so ++ u.shp ++ u.tq ++ u.tb ++ u.ta ++ u.td : BitVec 64)
/-- R328. -/
def TileUp.ofBits (v : BitVec 64) : TileUp :=
  { k := v.extractLsb' 60 4, tie := v.getLsbD 59, wrec := v.getLsbD 58, wb := v.getLsbD 57, wph := v.getLsbD 56,
    bo := v.getLsbD 55, brope := v.extractLsb' 52 3, cnt := v.extractLsb' 44 6, drow := v.extractLsb' 38 6,
    srow := v.extractLsb' 32 6, srope := v.extractLsb' 25 3, so := v.getLsbD 24, shp := v.extractLsb' 16 8,
    tq := v.extractLsb' 12 4, tb := v.extractLsb' 8 4, ta := v.extractLsb' 4 4, td := v.extractLsb' 0 4 }
/-- The reserved bits of R328, and the fields that the instruction does not use. -/
def tileUpOk (v : BitVec 64) (ok : TileUp → Bool) : Bool := v.extractLsb' 50 2 == 0 && v.extractLsb' 28 4 == 0 && ok (.ofBits v)

/-- R329. -/
def BarUp.bits (u : BarUp) : BitVec 64 := (0#28 ++ bit1 u.bo ++ u.brope ++ u.off : BitVec 64)
/-- R329. -/
def BarUp.ofBits (v : BitVec 64) : BarUp :=
  { bo := v.getLsbD 35, brope := v.extractLsb' 32 3, off := v.extractLsb' 0 32 }

/-- The bits of an upper word at or above `n` are zero. -/
def zeroFrom (n : Nat) (v : BitVec 64) : Bool := v >>> n == 0

/-! ### What each opcode's fields hold -/

/-- The CSR number {ext[2:0], sc} of R114. -/
def Fields.csr (f : Fields) : BitVec 12 := (f.ext.extractLsb' 0 3 ++ f.sc : BitVec 12)
/-- MI type field. -/
def Fields.it (f : Fields) : IType := .ofCode (f.md.extractLsb' 3 3)
/-- MI saturation bit. -/
def Fields.isat (f : Fields) : Bool := f.md.getLsbD 2
/-- MI variant. -/
def Fields.ivar (f : Fields) : BitVec 2 := f.md.extractLsb' 0 2
/-- MF type field. -/
def Fields.ft (f : Fields) : FType := .ofCode (f.md.extractLsb' 4 2)
/-- MF saturation bit, where CVT and PACK also keep theirs. -/
def Fields.fsat (f : Fields) : Bool := f.md.getLsbD 3
/-- MF rounding field. -/
def Fields.frc (f : Fields) : BitVec 3 := f.md.extractLsb' 0 3
/-- Condition code or predicate number in ext[3:0]. -/
def Fields.e4 (f : Fields) : BitVec 4 := f.ext.extractLsb' 0 4
/-- ext[4]. -/
def Fields.e5 (f : Fields) : Bool := f.ext.getLsbD 4

/-- MI: the type is listed, sat is allowed or zero, and the variant is at most `var` (R66). -/
def Fields.mi (f : Fields) (types : IType → Bool) (sat : Bool) (var : Nat) : Bool :=
  types f.it && (sat || !f.isat) && decide (f.ivar.toNat ≤ var)
/-- MF: the type is listed, sat is allowed or zero, and the rounding code is 0 to 3 or 5 (R121, R123). -/
def Fields.mf (f : Fields) (types : FType → Bool) (sat : Bool) : Bool :=
  types f.ft && (sat || !f.fsat) && (decide (f.frc.toNat ≤ 3) || f.frc == 5)
/-- The XF bits outside `mask` are zero (R67). -/
def Fields.xf (f : Fields) (mask : BitVec 5) : Bool := f.ext &&& ~~~mask == 0
/-- XZ. -/
def Fields.xz (f : Fields) : Bool := f.ext == 0
/-- MZ and XZ. -/
def Fields.mzxz (f : Fields) : Bool := f.md == 0 && f.ext == 0
/-- An integer condition code (R104). -/
def Fields.icc (f : Fields) : Bool := !f.e5 && (Cc.ofCode f.e4).intOk

/-- A full source of a type's width. -/
def ks (wide : Bool) : Kind := .src (if wide then 2 else 1) true
/-- A source that cannot be an immediate. -/
def kr (n : Nat) : Kind := .src n false
/-- A destination of groups 1 to 7. -/
def kd (wide : Bool) : Kind := .dst (if wide then 2 else 1) true

/-- Group 0 (R84). -/
def form0 (f : Fields) : Nat → Option Form
  | 0 => some ⟨.l64, .no, .no, .no, .no, f.mzxz, true⟩
  | 1 => some ⟨.l96, .no, .no, .no, .no, f.mzxz, true⟩
  | 2 => some ⟨.l64, .no, kr 2, .no, .no, f.mzxz, true⟩
  | 3 => some ⟨.l96, .wdst 2, .no, .no, .no, f.mzxz, true⟩
  | 4 => some ⟨.l64, .wdst 2, kr 2, .no, .no, f.mzxz, true⟩
  | 5 => some ⟨.l64, .no, kr 2, .no, .no, f.mzxz, true⟩
  | 6 => some ⟨.l64, .no, .no, .no, .no, f.mzxz, true⟩
  | _ => none

/-- Group 1 (R90, R95, R97). -/
def form1 (f : Fields) (n : Nat) : Option Form :=
  let w := f.it.is64
  let all := fun _ : IType => true
  let bin := fun (types : IType → Bool) (sat : Bool) =>
    some (Form.mk .classI (kd w) (ks w) (ks w) .no (f.mi types sat 0 && f.xz) true)
  match n with
  | 0 => bin all true
  | 1 => bin all true
  | 2 => bin all true
  | 3 => bin all false
  | 4 => some ⟨.classI, kd w, ks w, ks w, ks w, f.mi all true 0 && f.xz, true⟩
  | 5 => some ⟨.classI, kd true, ks false, ks false, ks true, f.mi IType.is32 true 0 && f.xz, true⟩
  | 6 => bin IType.scalar true
  | 7 => bin IType.scalar false
  | 8 => some ⟨.classI, kd w, ks w, .no, .no, f.mi IType.signed true 0 && f.xz, true⟩
  | 9 => some ⟨.classI, kd w, ks w, .no, .no, f.mi IType.signed true 0 && f.xz, true⟩
  | 10 => bin all false
  | 11 => bin all false
  | 12 => some ⟨.classI, kd w, ks w, ks w, .no, f.mi (fun t => t.scalar && !t.signed) false 1, true⟩
  | 13 => some ⟨.classI, kd false, ks false, ks false, ks false, f.mi (fun t => !t.is64) false 0 && f.xz, true⟩
  | 14 => some ⟨.classI, kd true, ks true, ks w, .no, f.mi IType.scalar false 0 && f.ext.extractLsb' 3 2 == 0, true⟩
  | _ => none

/-- Group 2 (R98, R103). -/
def form2 (f : Fields) (n : Nat) : Option Form :=
  let w := f.it.is64
  let all := fun _ : IType => true
  let ok := f.mi IType.scalar false 0 && f.xz
  match n with
  | 0 | 1 | 2 | 3 => some ⟨.classI, kd w, ks w, ks w, .no, ok, true⟩
  | 4 | 5 | 6 | 7 => some ⟨.classI, kd w, ks w, ks false, .no, f.mi all false 0 && f.xz, true⟩
  | 8 => some ⟨.classI, kd w, ks w, ks false, .no, ok, true⟩
  | 9 => some ⟨.classI, kd w, ks w, ks w, ks false, ok, true⟩
  | 10 | 11 => some ⟨.classI, kd false, ks w, .no, .no, ok, true⟩
  | 12 => some ⟨.classI, kd w, ks w, .no, .no, ok, true⟩
  | 13 => some ⟨.classI, kd false, ks false, ks false, ks false, f.mi IType.is32 false 2 && f.xz, true⟩
  | _ => none

/-- Group 3 (R104). The accumulate mode's field sc has bits [8:2] zero. -/
def form3 (f : Fields) (n : Nat) : Option Form :=
  let w := f.it.is64
  match n with
  | 0 => some ⟨.classI, .pred, ks w, ks w, .num 3, f.mi IType.scalar false 0 && f.icc, true⟩
  | 1 => some ⟨.classI, .pred, ks false, ks false, .num 3, f.mf (· == .f32) false && !f.e5, true⟩
  | 2 => some ⟨.classI, .pred, ks true, ks true, .num 3, f.mf (· == .f64) false && !f.e5, true⟩
  | 3 => some ⟨.l64, .pred, .pred, .pred, .pred, f.ext.extractLsb' 2 3 == 0, true⟩
  | 4 => some ⟨.classI, kd w, ks w, ks w, .no, f.mi IType.scalar false 0, true⟩
  | 5 => some ⟨.classI, kd w, ks w, ks w, .no, f.mi (fun _ => true) false 1 && f.icc, true⟩
  | 6 =>
    if f.ivar == 0 then some ⟨.classI, kd false, .no, .no, .no, f.mi IType.is32 false 1 && f.xz, true⟩
    else some ⟨.classI, .no, ks false, ks false, .no, f.mi IType.is32 false 1 && f.xz, true⟩
  | _ => none

/-- Group 4 (R123, R128). -/
def form4 (f : Fields) (n : Nat) : Option Form :=
  let bin := fun (sat : Bool) =>
    some (Form.mk .classI (kd false) (ks false) (ks false) .no (f.mf FType.notF64 sat && f.xf 0x1B#5) true)
  let un := fun (sat : Bool) (m : BitVec 5) =>
    some (Form.mk .classI (kd false) (ks false) .no .no (f.mf FType.notF64 sat && f.xf m) true)
  match n with
  | 0 | 1 => bin true
  | 2 => some ⟨.classI, kd false, ks false, ks false, ks false, f.mf FType.notF64 true, true⟩
  | 3 | 4 => bin false
  | 5 => bin true
  | 6 => un false 9#5
  | 7 | 8 => un true 9#5
  | 9 | 10 => un false 9#5
  | 11 => un false 0#5
  | 12 => some ⟨.classI, kd false, ks false, ks false, .no, f.mf FType.notF64 true && f.xf 9#5, true⟩
  | _ => none

/-- Group 5 (R123). -/
def form5 (f : Fields) (n : Nat) : Option Form :=
  let f64 := fun t : FType => t == .f64
  let bin := fun (sat : Bool) =>
    some (Form.mk .classI (kd true) (ks true) (ks true) .no (f.mf f64 sat && f.xf 0x1B#5) true)
  let un := fun (sat : Bool) =>
    some (Form.mk .classI (kd false) (ks false) .no .no (f.mf FType.notF64 sat && f.xf 9#5) true)
  match n with
  | 0 | 1 => bin true
  | 2 => some ⟨.classI, kd true, ks true, ks true, ks true, f.mf f64 true, true⟩
  | 3 | 4 => bin false
  | 5 => bin true
  | 6 => some ⟨.classI, kd true, ks true, .no, .no, f.mf f64 false && f.xf 9#5, true⟩
  | 7 => un true
  | 8 | 9 | 10 | 11 => un false
  | _ => none

/-- A dot product's codes: both listed (at most `hi`), both integer or both float (R138). -/
def Fields.dpForm (f : Fields) (hi : Nat) : Form :=
  let x := (f.md.extractLsb' 3 3).toNat
  let y := (f.md.extractLsb' 0 3).toNat
  ⟨.classI, kd false, ks false, ks false, ks false,
    decide (x ≤ hi) && decide (y ≤ hi) && (decide (x < 2) == decide (y < 2)) && f.ext.extractLsb' 1 4 == 0, true⟩

/-- Group 6 (R134 to R141). -/
def form6 (f : Fields) (n : Nat) : Option Form :=
  let fs := CFmt.ofCode f.ext
  let listed := decide (f.ext.toNat < 20)
  match n with
  | 0 =>
    let fd := CFmt.ofCode (f.sc.setWidth 5)
    some ⟨.classI, kd fd.is64, ks fs.is64, .no, .num 19,
      listed && f.md.extractLsb' 4 2 == 0 && decide (f.frc.toNat ≤ 5)
        && (decide (20 ≤ f.sc.toNat) || !(f.fsat && fs.isFloat && !fd.isFloat)), true⟩
  | 1 => some ⟨.classI, kd false, ks false, ks false, ks false,
      listed && decide (2 * (f.md.extractLsb' 4 2).toNat < fs.packCount) && decide (f.frc.toNat ≤ 5), true⟩
  | 2 => some ⟨.classI, kd false, ks false, .no, .no,
      listed && f.md.extractLsb' 3 3 == 0 && decide ((f.md.extractLsb' 0 3).toNat < fs.packCount), true⟩
  | 3 => some (f.dpForm 5)
  | 4 => some (f.dpForm 2)
  | 5 => some (f.dpForm 3)
  | 6 => some ⟨.classI, kd false, ks false, ks false, .no, f.mf FType.notF64 true && f.ext.extractLsb' 2 3 == 0, true⟩
  | 7 => some ⟨.classI, kd false, ks false, ks false, .no, f.mzxz, true⟩
  | 8 => some ⟨.classI, kd false, ks false, .no, .no, f.md.extractLsb' 1 5 == 0 && !f.e5, true⟩
  | _ => none

/-- Group 7 (R111). -/
def form7 (f : Fields) (n : Nat) : Option Form :=
  match n with
  | 0 =>
    let w := f.md.getLsbD 0
    some ⟨.classI, kd w, ks w, .no, .no, f.md.extractLsb' 2 4 == 0 && f.xz, true⟩
  | 1 => some ⟨.l64, kd (decide (f.sa.toNat = 15 ∨ f.sa.toNat = 16)), .num 16, .no, .no, f.mzxz, true⟩
  | 2 => some ⟨.l64, kd (csr64 f.csr), .no, .no, .num 511, f.md == 0 && f.ext.extractLsb' 3 2 == 0, true⟩
  | 3 => some ⟨.classI, .no, ks (csr64 f.csr), .no, .num 511,
      decide (f.md.toNat < 3) && f.ext.extractLsb' 3 2 == 0, true⟩
  | _ => none

/-- The gate operand of the .cv forms (R175). -/
def Fields.gateK (f : Fields) : Kind := if f.e5 then .gate else .no

/-- Group 8 (R167). The fields pS and pD of a plain HBAR, which has no use for them, may hold any predicate (log 21). -/
def form8 (f : Fields) (n : Nat) : Option Form :=
  match n with
  | 0 => some ⟨.l96, .dst 1 false, kr 1, kr 1, .no, f.mzxz, true⟩
  | 1 => some ⟨.l64, .no, .no, .no, .no, f.mzxz, true⟩
  | 2 =>
    let m := VoteMode.ofCode (f.md.extractLsb' 0 3)
    some ⟨.l64, if m.toPred then .pred else .dst 1 false, .pred, .no, f.gateK,
      f.md.extractLsb' 4 2 == 0 && decide ((f.md.extractLsb' 0 3).toNat ≤ 5) && f.e4 == 0, true⟩
  | 3 => some ⟨.l64, .dst 1 false, kr (if f.md.getLsbD 0 then 2 else 1), .no, f.gateK,
      f.md.extractLsb' 3 3 == 0 && (f.md.extractLsb' 1 2 == 3 || f.e4 == 15), true⟩
  | 4 =>
    let w := f.md.getLsbD 5
    some ⟨.classI, .dst (if w then 2 else 1) false, ks w, ks false, f.gateK,
      decide ((f.md.extractLsb' 2 3).toNat ≤ 4), true⟩
  | 5 =>
    let t := RedType.ofCode (f.md.extractLsb' 3 3)
    let o := RedOp.ofCode (f.md.extractLsb' 0 3)
    some ⟨.l64, .dst (if t.is64 then 2 else 1) false, kr (if t.is64 then 2 else 1), .no, f.gateK,
      decide ((f.md.extractLsb' 3 3).toNat ≤ 5) && decide ((f.md.extractLsb' 0 3).toNat ≤ 5)
        && f.ext.extractLsb' 2 2 == 0 && t.opOk o (f.ext.getLsbD 1), true⟩
  | 6 => some ⟨.l64, .dst 1 false, .no, .no, f.gateK, f.md == 0, true⟩
  | 7 => some ⟨.classI, .num 15, ks false, ks false, .no, decide (f.md.toNat < 2) && f.xz, true⟩
  | 8 => some ⟨.l64, .num 15, .no, .no, .no, f.mzxz, true⟩
  | 9 => some ⟨.l64, .num 15, kr 1, .pred, .no, decide (f.md.toNat < 3) && !f.e5, true⟩
  | 10 => some ⟨.classI, .pred, ks true, ks false, ks false, f.mzxz, true⟩
  | _ => none

/-- Data of a load or store of a width, as a destination or a source (R266). -/
def wdstW (w : Width) : Kind := .wdst w.words
/-- Store data (R266). -/
def srcW (w : Width) : Kind := match w with | .b128 => .quad | .b64 => kr 2 | _ => kr 1

/-- Group 9 (R265). -/
def form9 (f : Fields) (n : Nat) : Option Form :=
  let w := Width.ofCode (f.md.extractLsb' 0 3)
  let ok := decide (f.md.toNat < 7) && f.xz
  let u := f.up.bits
  match n with
  | 0 => some ⟨.l128, wdstW w, kr 2, .no, .no, ok, memUpOk u MemUp.ldOk⟩
  | 1 => some ⟨.l128, .no, kr 2, srcW w, .no, ok && w.storeOk, memUpOk u MemUp.stOk⟩
  | 2 => some ⟨.l128, wdstW w, kr 1, .no, .no, ok, memUpOk u MemUp.ldsOk⟩
  | 3 => some ⟨.l128, .no, kr 1, srcW w, .no, ok && w.storeOk, memUpOk u MemUp.stsOk⟩
  | 4 => some ⟨.l128, wdstW w, kr 2, .no, .no, ok, memUpOk u MemUp.ldroOk⟩
  | 5 => some ⟨.l128, .no, kr 2, .no, .no, decide (f.md.toNat < 4) && f.xz, offUpOk u⟩
  | _ => none

/-- Group 10 (R265). -/
def form10 (f : Fields) (n : Nat) : Option Form :=
  let t := AtomType.ofCode (f.md.extractLsb' 3 3)
  let o := AtomOp.ofCode (f.md.extractLsb' 0 3)
  let ok := decide ((f.md.extractLsb' 0 3).toNat < 7) && decide (f.ext.toNat < 2) && t.opOk o
  let d : Kind := if f.ext.getLsbD 0 then .no else .wdst t.words
  let u := f.up.bits
  match n with
  | 0 => some ⟨.l128, d, kr 2, kr t.words, .no, ok, memUpOk u MemUp.atomOk⟩
  | 1 =>
    let w := casWidth (f.md.extractLsb' 0 2)
    some ⟨.l128, wdstW w, kr 2, srcW w, srcW w, decide (f.md.toNat < 3) && f.xz, memUpOk u MemUp.atomOk⟩
  | 2 => some ⟨.l128, d, kr 1, kr t.words, .no, ok, memUpOk u MemUp.atomsOk⟩
  | 3 => some ⟨.l64, .no, .no, .no, .no, decide (f.md.toNat ≤ 5) && f.xz, true⟩
  | 4 => some ⟨.l128, .dst 1 false, kr 2, .no, .no, f.mzxz, offUpOk u⟩
  | 5 => some ⟨.l128, .dst 1 false, kr 2, .no, .no, f.mzxz, offUpOk u⟩
  | 6 => some ⟨.l128, .no, kr 2, .no, .no, f.mzxz, offUpOk u⟩
  | 7 => some ⟨.l128, .no, kr 2, .no, .no, f.mzxz, offUpOk u⟩
  | _ => none

/-- The number destination of an operation-starting instruction, 0x000 with .nn (R326, R331). -/
def Fields.numK (f : Fields) : Kind := if f.e5 then .no else .wdst 1

/-- Group 11 (R326, R327, R329). -/
def form11 (f : Fields) (n : Nat) : Option Form :=
  let u := f.up.bits
  let nn := f.md == 0 && f.e4 == 0
  let cu := CopyUp.ofBits u
  let b : Kind := if cu.cred then kr 1 else .no
  match n with
  | 0 =>
    if f.md.getLsbD 0 then some ⟨.l128, .no, kr 2, .no, .no, decide (f.md.toNat < 2) && f.xz, zeroFrom 8 u⟩
    else some ⟨.l128, .no, .block 16, .no, .no, decide (f.md.toNat < 2) && f.xz, zeroFrom 8 u⟩
  | 1 => some ⟨.l128, .block 16, .no, .no, .no, f.mzxz, zeroFrom 8 u⟩
  | 2 => some ⟨.l128, f.numK, .quad, .quad, b, nn, copyUpOk u (fun c => c.plainOk && c.is == 0)⟩
  | 3 | 4 => some ⟨.l128, f.numK, .quad, .quad, b, nn, copyUpOk u (fun c => c.plainOk && !c.ro)⟩
  | 5 => some ⟨.l128, f.numK, .quad, .quad, b, nn, copyUpOk u (fun c => c.xredOk && !c.ro && c.is == 0)⟩
  | 6 => some ⟨.l128, f.numK, .no, .quad, b, nn,
      copyUpOk u (fun c => c.plainOk && !c.ro && c.is == 0 && c.ss == 0)⟩
  | 7 => some ⟨.l128, .no, kr 1, .num 5, .no, f.mzxz, zeroFrom 0 u⟩
  | 8 => some ⟨.l128, .wdst (if f.md.getLsbD 0 then 2 else 1), .no, .num 7, .no, decide (f.md.toNat < 2) && f.xz,
      zeroFrom 0 u⟩
  | 9 => some ⟨.l128, .block 8, .no, .no, .no, f.md == 0 && !f.e5, zeroFrom 0 u⟩
  | 10 => some ⟨.l128, .no, kr 1, kr 1, .no, f.mzxz, zeroFrom 36 u⟩
  | 11 => some ⟨.l128, .wdst 1, kr 1, .no, .no, f.mzxz, zeroFrom 36 u⟩
  | 12 => some ⟨.l128, .no, kr 1, kr 1, .no, f.mzxz, zeroFrom 36 u⟩
  | 13 => some ⟨.l128, .no, kr 1, kr 1, .no, f.md == 0 && !f.e5, zeroFrom 36 u⟩
  | _ => none

/-- Group 12 (R326, R328). -/
def form12 (f : Fields) (n : Nat) : Option Form :=
  let u := f.up.bits
  let tu := TileUp.ofBits u
  let w : Kind := if tu.wb then kr 1 else .no
  let ok := fun (d a b q box rows : Bool) => tileUpOk u fun t => t.only d a b q box rows
  match n with
  | 0 => some ⟨.l128, .no, kr 1, .no, .no, f.mzxz, zeroFrom 16 u⟩
  | 1 => some ⟨.l128, f.numK, .quad, .no, w, f.md == 0 && f.e4 == 0, ok true false false false true false⟩
  | 2 => some ⟨.l128, f.numK, .quad, .no, w, f.md == 0 && f.e4 == 0, ok false true false false true false⟩
  | 3 => some ⟨.l128, f.numK, .no, .no, w, f.md == 0 && f.e4 == 0, ok true false false false false false⟩
  | 4 => some ⟨.l128, f.numK, .no, .no, w, decide (f.md.toNat < 32) && f.e4 == 0, ok true true true true false false⟩
  | 5 => some ⟨.l128, f.numK, .no, .no, w,
      f.md.extractLsb' 4 2 == 0 && decide ((f.md.extractLsb' 0 3).toNat ≤ 6) && f.e4 == 0, ok true true true false false false⟩
  | 6 => some ⟨.l128, f.numK, .no, .no, w,
      f.md.extractLsb' 4 2 == 0 && decide (f.frc.toNat ≤ 5) && f.e4 == 0, ok true true false false false false⟩
  | 7 => some ⟨.l128, f.numK, .no, .no, w, decide (f.md.toNat < 3) && f.e4 == 0, ok true true false false false false⟩
  | 8 => some ⟨.l128, f.numK, .no, .no, w, f.md == 0 && f.e4 == 0, ok true true false false false true⟩
  | _ => none

/-- Group 13 (R486). The width of an FP64 grid's operand is checked at execution (R487). -/
def form13 (f : Fields) (n : Nat) : Option Form :=
  let u := f.up.bits
  match n with
  | 0 =>
    if f.md.getLsbD 0 then some ⟨.l128, .wdst 1, .no, .no, .no, decide (f.md.toNat < 2) && f.xz, zeroFrom 6 u⟩
    else some ⟨.l128, .wdst 1, kr 2, kr 1, .no, decide (f.md.toNat < 2) && f.xz, zeroFrom 6 u⟩
  | 1 => some ⟨.l128, .wdst 1, .quad, kr 1, .no, f.mzxz, zeroFrom 6 u⟩
  | 2 => some ⟨.l128, .no, .quad, kr 1, kr 1, f.mzxz, zeroFrom 6 u⟩
  | 3 => some ⟨.l128, f.numK, kr 1, kr 1, .no, f.md == 0 && f.e4 == 0, zeroFrom 7 u⟩
  | 4 => some ⟨.l128, .no, kr 1, kr 1, kr 1, f.mzxz, zeroFrom 6 u⟩
  | 5 =>
    if f.md.getLsbD 0 then some ⟨.l128, .wdst 1, .no, kr 1, .no, decide (f.md.toNat < 2) && f.xz, zeroFrom 6 u⟩
    else some ⟨.l128, .wdst 2, kr 1, kr 1, .no, decide (f.md.toNat < 2) && f.xz, zeroFrom 6 u⟩
  | _ => none

/-- Group 14 (R412, R414, R421, R424). -/
def form14 (f : Fields) (n : Nat) : Option Form :=
  let u := f.up.bits
  let w := Width.ofCode (f.md.extractLsb' 0 3)
  let a : Kind := if (u.extractLsb' 32 3) == 0 then kr 2 else kr 1
  let smOk := f.md.extractLsb' 3 3 == 0 && w.casOk && decide ((f.md.extractLsb' 0 3).toNat ≤ 6) && !f.e5
  let smUp := zeroFrom 36 u && decide ((u.extractLsb' 32 3).toNat ≤ 4)
  match n with
  | 0 => some ⟨.l64, .no, .no, .no, .no, f.mzxz, true⟩
  | 1 => some ⟨.l96, .no, .no, .no, .no, f.mzxz, true⟩
  | 2 => some ⟨.l128, .no, .no, .no, .no, f.mzxz, true⟩
  | 3 => some ⟨.l64, .no, kr 2, .no, .no, f.mzxz, true⟩
  | 4 => some ⟨.l64, .no, .no, .no, .no, f.mzxz, true⟩
  | 5 => some ⟨.l64, .dst 1 false, kr 2, .no, .no, f.mzxz, true⟩
  | 6 => some ⟨.l64, .dst 1 false, kr 2, .no, .no, f.md == 0 && !f.e5, true⟩
  | 7 => some ⟨.l64, .no, kr 1, if f.md == 1 then kr 2 else .no, .no, decide (f.md.toNat < 3) && !f.e5, true⟩
  | 8 => some ⟨.l128, .dst w.words false, a, .no, kr 1, smOk, smUp⟩
  | 9 => some ⟨.l128, .no, a, srcW w, kr 1, smOk, smUp⟩
  | 10 => some ⟨.l64, .no, kr 1, kr 1, .no, f.md == 0 && !f.e5, true⟩
  | 11 => some ⟨.l128, .no, kr 2, kr 1, .no, decide (f.md.toNat < 2) && f.xz, zeroFrom 13 u⟩
  | 12 => some ⟨.l64, .dst 1 false, kr 1, .no, .no, decide (f.md.toNat < 4) && f.xz, true⟩
  | _ => none

/-- The group of an opcode (R58). -/
def Fields.group (f : Fields) : Nat := f.opc.toNat / 64
/-- The index of an opcode in its group. -/
def Fields.index (f : Fields) : Nat := f.opc.toNat % 64

/-- The form of an assigned opcode; none for group 15 and unassigned indices (R68). -/
def formOf (f : Fields) : Option Form :=
  match f.group with
  | 0 => form0 f f.index
  | 1 => form1 f f.index
  | 2 => form2 f f.index
  | 3 => form3 f f.index
  | 4 => form4 f f.index
  | 5 => form5 f f.index
  | 6 => form6 f f.index
  | 7 => form7 f f.index
  | 8 => form8 f f.index
  | 9 => form9 f f.index
  | 10 => form10 f f.index
  | 11 => form11 f f.index
  | 12 => form12 f f.index
  | 13 => form13 f f.index
  | 14 => form14 f f.index
  | _ => none

/-- The four operand fields with their kinds. -/
def Form.fields (k : Form) (f : Fields) : List (Kind × BitVec 9) := [(k.d, f.dst), (k.a, f.sa), (k.b, f.sb), (k.c, f.sc)]

/-- Check 5 of R71: the length class of R68 and R69. -/
def Form.lenOk (k : Form) (f : Fields) : Bool :=
  let named := (k.fields f).filter fun p => p.1.isCode && p.2 == 0x1F0#9
  match k.len, f.up with
  | .l64, .no => true
  | .l96, .w32 _ => true
  | .l128, .w64 _ => true
  | .classI, .no => named.isEmpty
  | .classI, .w32 _ => !named.isEmpty
  | .classI, .w64 _ => !named.isEmpty && named.all fun p => p.1.wide
  | _, _ => false

/-- Check 7 of R71: nothing reserved is set. -/
def Form.rsvOk (k : Form) (f : Fields) : Bool :=
  ((k.fields f).all fun p => p.1 != .no || p.2 == 0) && k.mx && k.ux

/-- The instructions that only the supervisor strand may run (R70). -/
def Fields.privileged (f : Fields) : Bool := decide (0x385 ≤ f.opc.toNat ∧ f.opc.toNat ≤ 0x38C)

/-- The long-latency instructions (R16, R277). -/
def Fields.longLat (f : Fields) : Bool :=
  let o := f.opc.toNat
  decide (11 ≤ f.group ∧ f.group ≤ 13) || o == 0x240 || o == 0x242 || o == 0x244 || o == 0x281
    || ((o == 0x280 || o == 0x282) && !f.ext.getLsbD 0)

/-- The branches of R70. -/
def Fields.isBranch (f : Fields) : Bool :=
  let o := f.opc.toNat
  decide (1 ≤ o ∧ o ≤ 5) || o == 0x383 || o == 0x385

/-- Instructions that stand last in their clause: the branches, TIESGN, HBAR, NSLEEP, TLWAIT, BARW and GWAIT (R71). -/
def Fields.lastOnly (f : Fields) : Bool :=
  let o := f.opc.toNat
  f.isBranch || o == 0x208 || o == 0x209 || o == 0x20A || o == 0x2C7 || o == 0x2CD || o == 0x344

/-- Instructions that stand first in their clause: KNOT and the .cv forms (R175, R413). -/
def Fields.firstOnly (f : Fields) : Bool :=
  let o := f.opc.toNat
  o == 0x382 || (decide (0x202 ≤ o ∧ o ≤ 0x206) && f.ext.getLsbD 4)

/-! ### Building the instruction -/

/-- The guard of a word. -/
def Fields.g (f : Fields) : Guard := ⟨f.pg, f.pn⟩
/-- The four operands as sources and destinations. -/
def Fields.d (f : Fields) : Dst := dstOf f.dst
/-- Operand a. -/
def Fields.a (f : Fields) : Src := srcOf f.up f.sa
/-- Operand b. -/
def Fields.b (f : Fields) : Src := srcOf f.up f.sb
/-- Operand c. -/
def Fields.c (f : Fields) : Src := srcOf f.up f.sc
/-- Window index of a long-latency destination. -/
def Fields.wd (f : Fields) : BitVec 8 := f.dst.setWidth 8
/-- A number destination, left out with .nn or .nr. -/
def Fields.od (f : Fields) (left : Bool) : Option (BitVec 8) := if left then none else some f.wd
/-- The gate operand. -/
def Fields.gate (f : Fields) : Option Src := if f.e5 then some f.c else none
/-- Float sources with their XF bits (R67). -/
def Fields.fa (f : Fields) : FSrc := ⟨f.a, f.ext.getLsbD 0, f.ext.getLsbD 3⟩
/-- Float source b. -/
def Fields.fb (f : Fields) : FSrc := ⟨f.b, f.ext.getLsbD 1, f.ext.getLsbD 4⟩
/-- Float source c. -/
def Fields.fc (f : Fields) : FSrc := ⟨f.c, f.ext.getLsbD 2, false⟩
/-- The rounding suffix. -/
def Fields.rc (f : Fields) : Rc := .ofCode f.frc
/-- imm32. -/
def Fields.i32 (f : Fields) : BitVec 32 := f.up.bits.setWidth 32
/-- A predicate number in an operand field. -/
def p4 (c : BitVec 9) : Num4 := c.setWidth 4

/-- The instruction of a word of groups 0 to 3 that passed the checks. -/
def buildA (f : Fields) : Option Instr :=
  match f.opc.toNat with
  | 0x000 => some (.nop f.g)
  | 0x001 => some (.bra f.g f.i32)
  | 0x002 => some (.brx f.g f.a)
  | 0x003 => some (.call f.g f.d f.i32)
  | 0x004 => some (.callx f.g f.d f.a)
  | 0x005 => some (.ret f.g f.a)
  | 0x006 => some (.yield f.g)
  | 0x040 => some (.iadd f.g f.it f.isat f.d f.a f.b)
  | 0x041 => some (.isub f.g f.it f.isat f.d f.a f.b)
  | 0x042 => some (.imul f.g f.it f.isat f.d f.a f.b)
  | 0x043 => some (.imulh f.g f.it f.d f.a f.b)
  | 0x044 => some (.imad f.g f.it f.isat f.d f.a f.b f.c)
  | 0x045 => some (.imadw f.g f.it f.isat f.d f.a f.b f.c)
  | 0x046 => some (.idiv f.g f.it f.isat f.d f.a f.b)
  | 0x047 => some (.irem f.g f.it f.d f.a f.b)
  | 0x048 => some (.iabs f.g f.it f.isat f.d f.a)
  | 0x049 => some (.ineg f.g f.it f.isat f.d f.a)
  | 0x04A => some (.imin f.g f.it f.d f.a f.b)
  | 0x04B => some (.imax f.g f.it f.d f.a f.b)
  | 0x04C => some (.iaddc f.g f.it (f.ivar == 1) f.e5 f.d f.e4 f.a f.b)
  | 0x04D => some (.isad f.g f.it f.d f.a f.b f.c)
  | 0x04E => some (.lea f.g f.it (f.ext.extractLsb' 0 3) f.d f.a f.b)
  | 0x080 => some (.and f.g f.it f.d f.a f.b)
  | 0x081 => some (.or f.g f.it f.d f.a f.b)
  | 0x082 => some (.xor f.g f.it f.d f.a f.b)
  | 0x083 => some (.andn f.g f.it f.d f.a f.b)
  | 0x084 => some (.shl f.g f.it f.d f.a f.b)
  | 0x085 => some (.shr f.g f.it f.d f.a f.b)
  | 0x086 => some (.sar f.g f.it f.d f.a f.b)
  | 0x087 => some (.rotl f.g f.it f.d f.a f.b)
  | 0x088 => some (.bfx f.g f.it f.d f.a f.b)
  | 0x089 => some (.bfi f.g f.it f.d f.a f.b f.c)
  | 0x08A => some (.popc f.g f.it f.d f.a)
  | 0x08B => some (.clz f.g f.it f.d f.a)
  | 0x08C => some (.brev f.g f.it f.d f.a)
  | 0x08D => some (.prmt f.g f.it (.ofCode f.ivar) f.d f.a f.b f.c)
  | 0x0C0 => some (.isetp f.g (.ofCode f.e4) f.it (.ofCode (f.sc.setWidth 2)) (p4 f.dst) f.a f.b)
  | 0x0C1 => some (.fsetp f.g (.ofCode f.e4) f.rc (.ofCode (f.sc.setWidth 2)) (p4 f.dst) f.a f.b)
  | 0x0C2 => some (.dsetp f.g (.ofCode f.e4) f.rc (.ofCode (f.sc.setWidth 2)) (p4 f.dst) f.a f.b)
  | 0x0C3 => some (.plop f.g (p4 f.dst) (p4 f.sa) (p4 f.sb) (p4 f.sc) (f.ext.extractLsb' 0 2 ++ f.md : BitVec 8))
  | 0x0C4 => some (.sel f.g f.it f.d f.a f.b f.e4 f.e5)
  | 0x0C5 => some (.iset f.g (.ofCode f.e4) f.it (f.md.getLsbD 0) f.d f.a f.b)
  | 0x0C6 => some (.pmov f.g f.it (if f.ivar == 0 then .rd f.d else .wr f.a f.b))
  | _ => none

/-- The instruction of a word of groups 4 to 7. -/
def buildB (f : Fields) : Option Instr :=
  match f.opc.toNat with
  | 0x100 => some (.fadd f.g f.ft f.fsat f.rc f.d f.fa f.fb)
  | 0x101 => some (.fmul f.g f.ft f.fsat f.rc f.d f.fa f.fb)
  | 0x102 => some (.ffma f.g f.ft f.fsat f.rc f.d f.fa f.fb f.fc)
  | 0x103 => some (.fmin f.g f.ft f.rc f.d f.fa f.fb)
  | 0x104 => some (.fmax f.g f.ft f.rc f.d f.fa f.fb)
  | 0x105 => some (.fdiv f.g f.ft f.fsat f.rc f.d f.fa f.fb)
  | 0x106 => some (.fsqrt f.g f.ft f.rc f.d f.fa)
  | 0x107 => some (.frcp f.g f.ft f.fsat f.rc f.d f.fa)
  | 0x108 => some (.frsq f.g f.ft f.fsat f.rc f.d f.fa)
  | 0x109 => some (.ffrc f.g f.ft f.rc f.d f.fa)
  | 0x10A => some (.frnd f.g f.ft f.rc f.d f.fa)
  | 0x10B => some (.fclass f.g f.ft f.rc f.d f.a)
  | 0x10C => some (.fldexp f.g f.ft f.fsat f.rc f.d f.fa f.b)
  | 0x140 => some (.dadd f.g f.fsat f.rc f.d f.fa f.fb)
  | 0x141 => some (.dmul f.g f.fsat f.rc f.d f.fa f.fb)
  | 0x142 => some (.dfma f.g f.fsat f.rc f.d f.fa f.fb f.fc)
  | 0x143 => some (.dmin f.g f.rc f.d f.fa f.fb)
  | 0x144 => some (.dmax f.g f.rc f.d f.fa f.fb)
  | 0x145 => some (.ddiv f.g f.fsat f.rc f.d f.fa f.fb)
  | 0x146 => some (.dsqrt f.g f.rc f.d f.fa)
  | 0x147 => some (.fex2 f.g f.ft f.fsat f.rc f.d f.fa)
  | 0x148 => some (.flg2 f.g f.ft f.rc f.d f.fa)
  | 0x149 => some (.fsin f.g f.ft f.rc f.d f.fa)
  | 0x14A => some (.fcos f.g f.ft f.rc f.d f.fa)
  | 0x14B => some (.ftanh f.g f.ft f.rc f.d f.fa)
  | 0x180 => some (.cvt f.g (.ofCode (f.sc.setWidth 5)) (.ofCode f.ext) f.fsat f.rc f.d f.a)
  | 0x181 => some (.pack f.g (.ofCode f.ext) (f.md.extractLsb' 4 2) f.fsat f.rc f.d f.a f.b f.c)
  | 0x182 => some (.unpk f.g (.ofCode f.ext) (f.md.extractLsb' 0 3) f.d f.a)
  | 0x183 => some (.dp4 f.g (dp4El (f.md.extractLsb' 3 3)) (dp4El f.frc) (f.ext.getLsbD 0) f.d f.a f.b f.c)
  | 0x184 => some (.dp8 f.g (dp8El (f.md.extractLsb' 3 3)) (dp8El f.frc) (f.ext.getLsbD 0) f.d f.a f.b f.c)
  | 0x185 => some (.dp2 f.g (dp2El (f.md.extractLsb' 3 3)) (dp2El f.frc) (f.ext.getLsbD 0) f.d f.a f.b f.c)
  | 0x186 => some (.fscl f.g f.ft (f.ext.extractLsb' 0 2) f.fsat f.rc f.d f.a f.b)
  | 0x187 => some (.t3pk f.g f.d f.a f.b)
  | 0x188 => some (.t3up f.g (f.md.getLsbD 0) f.d f.e4 f.a)
  | 0x1C0 => some (.mov f.g (.ofCode (f.md.extractLsb' 0 2)) f.d f.a)
  | 0x1C1 => some (.movs f.g f.d (f.sa.setWidth 5))
  | 0x1C2 => some (.csrr f.g f.d f.csr)
  | 0x1C3 => some (.csrw f.g (.ofCode (f.md.extractLsb' 0 2)) f.csr f.a)
  | _ => none

/-- The instruction of a word of groups 8 to 10. -/
def buildC (f : Fields) : Option Instr :=
  let w := Width.ofCode (f.md.extractLsb' 0 3)
  let u := MemUp.ofBits f.up.bits
  let nr := f.ext.getLsbD 0
  let aop := AtomOp.ofCode (f.md.extractLsb' 0 3)
  let aty := AtomType.ofCode (f.md.extractLsb' 3 3)
  match f.opc.toNat with
  | 0x200 => some (.fork f.g f.d f.a f.b f.i32)
  | 0x201 => some (.fend f.g)
  | 0x202 =>
    let m := VoteMode.ofCode (f.md.extractLsb' 0 3)
    some (.vote f.g m (f.md.getLsbD 3) f.e5 (if m.toPred then .p (p4 f.dst) else .r f.d) (p4 f.sa) f.gate)
  | 0x203 => some (.matchL f.g (.ofCode (f.md.extractLsb' 1 2)) (f.md.getLsbD 0) f.e5 f.d f.e4 f.a f.gate)
  | 0x204 => some (.shfl f.g (.ofCode (f.md.extractLsb' 0 2)) (f.md.extractLsb' 2 3) (f.md.getLsbD 5) f.e5 f.d f.e4 f.a
      f.b f.gate)
  | 0x205 => some (.reds f.g (.ofCode (f.md.extractLsb' 0 3)) (.ofCode (f.md.extractLsb' 3 3)) (f.ext.getLsbD 0)
      (f.ext.getLsbD 1) f.e5 f.d f.a f.gate)
  | 0x206 => some (.elect f.g f.e5 f.d f.e4 f.gate)
  | 0x207 => some (.tiedef f.g (p4 f.dst) (if f.md.getLsbD 0 then .lanes f.a f.b else .rng f.a f.b))
  | 0x208 => some (.tiesgn f.g (p4 f.dst))
  | 0x209 => some (.hbar f.g (.ofCode (f.md.extractLsb' 0 2)) (p4 f.dst) f.a f.e4 (p4 f.sb))
  | 0x20A => some (.nsleep f.g (p4 f.dst) f.a f.b f.c)
  | 0x240 => some (.ld f.g w f.wd f.a u)
  | 0x241 => some (.st f.g w f.a f.b u)
  | 0x242 => some (.lds f.g w f.wd f.a u)
  | 0x243 => some (.sts f.g w f.a f.b u)
  | 0x244 => some (.ldro f.g w f.wd f.a u)
  | 0x245 => some (.pfch f.g (f.md.getLsbD 0) (f.md.getLsbD 1) f.a u.off)
  | 0x280 => some (.atom f.g aop aty (f.od nr) f.a f.b u)
  | 0x281 => some (.cas f.g (casWidth (f.md.extractLsb' 0 2)) f.wd f.a f.b f.c u)
  | 0x282 => some (.atoms f.g aop aty (f.od nr) f.a f.b u)
  | 0x283 => some (.fence f.g (.ofCode (f.md.extractLsb' 0 3)))
  | 0x284 => some (.lockl f.g f.d f.a u.off)
  | 0x285 => some (.unlkl f.g f.d f.a u.off)
  | 0x286 => some (.cwb f.g f.a u.off)
  | 0x287 => some (.cinv f.g f.a u.off)
  | _ => none

/-- The instruction of a word of groups 11 to 14. -/
def buildD (f : Fields) : Option Instr :=
  let v := f.up.bits
  let cu := CopyUp.ofBits v
  let tu := TileUp.ofBits v
  let bu := BarUp.ofBits v
  let gs : BitVec 6 := v.extractLsb' 0 6
  let nn := f.od f.e5
  let w := Width.ofCode (f.md.extractLsb' 0 3)
  match f.opc.toNat with
  | 0x2C0 => some (.shpw f.g (if f.md.getLsbD 0 then .base f.a else .all (f.sa.setWidth 8)) (v.extractLsb' 0 8))
  | 0x2C1 => some (.shpr f.g f.wd (v.extractLsb' 0 8))
  | 0x2C2 => some (.xcp f.g nn f.a f.b f.c cu)
  | 0x2C3 => some (.xgath f.g nn f.a f.b f.c cu)
  | 0x2C4 => some (.xscat f.g nn f.a f.b f.c cu)
  | 0x2C5 => some (.xred f.g nn f.a f.b f.c cu)
  | 0x2C6 => some (.xfill f.g nn f.b f.c cu)
  | 0x2C7 => some (.tlwait f.g (f.sb.setWidth 3) f.a)
  | 0x2C8 => some (.tlread f.g (f.md.getLsbD 0) f.wd (f.sb.setWidth 3))
  | 0x2C9 => some (.crpop f.g f.wd f.e4)
  | 0x2CA => some (.bari f.g f.a f.b bu)
  | 0x2CB => some (.bara f.g f.wd f.a bu)
  | 0x2CC => some (.barex f.g f.a f.b bu)
  | 0x2CD => some (.barw f.g f.e4 f.a f.b bu)
  | 0x300 => some (.tcfg f.g (v.extractLsb' 0 16) f.a)
  | 0x301 => some (.tld f.g nn f.a f.c tu)
  | 0x302 => some (.tst f.g nn f.a f.c tu)
  | 0x303 => some (.tzero f.g nn f.c tu)
  | 0x304 => some (.mma f.g (f.md.getLsbD 0) (f.md.getLsbD 1) (f.md.getLsbD 2) (f.md.getLsbD 3) (f.md.getLsbD 4) nn f.c
      tu)
  | 0x305 => some (.tew f.g (.ofCode (f.md.extractLsb' 0 3)) f.fsat nn f.c tu)
  | 0x306 => some (.tcvt f.g f.fsat f.rc nn f.c tu)
  | 0x307 => some (.tred f.g (.ofCode (f.md.extractLsb' 0 2)) nn f.c tu)
  | 0x308 => some (.trow f.g nn f.c tu)
  | 0x340 => some (.gdef f.g f.wd gs (if f.md.getLsbD 0 then .del else .define f.a f.b))
  | 0x341 => some (.gld f.g f.wd gs f.b f.a)
  | 0x342 => some (.gst f.g gs f.b f.a f.c)
  | 0x343 => some (.gstep f.g (v.getLsbD 6) nn gs f.b f.a)
  | 0x344 => some (.gwait f.g gs f.b f.c f.a)
  | 0x345 => some (.gstat f.g f.wd gs f.b (if f.md.getLsbD 0 then .com else .face f.a))
  | 0x380 => some (.syscall f.g)
  | 0x381 => some (.trap f.g f.i32)
  | 0x382 => some (.knot f.g (v.extractLsb' 0 32) (v.extractLsb' 32 16) (v.extractLsb' 48 16))
  | 0x383 => some (.sigret f.g f.a)
  | 0x384 => some (.bkpt f.g)
  | 0x385 => some (.rft f.g f.d f.a)
  | 0x386 => some (.rqpop f.g f.d f.e4 f.a)
  | 0x387 => some (.replay f.g f.e4 f.a (if f.md == 0 then .res else if f.md == 1 then .hdr f.b else .kill))
  | 0x388 => some (.smovr f.g (.ofCode (v.extractLsb' 32 3)) (v.getLsbD 35) w f.d f.e4 f.a f.c (v.extractLsb' 0 32))
  | 0x389 => some (.smovw f.g (.ofCode (v.extractLsb' 32 3)) (v.getLsbD 35) w f.e4 f.a f.b f.c (v.extractLsb' 0 32))
  | 0x38A => some (.sigpost f.g f.e4 f.a f.b)
  | 0x38B => some (.ptinv f.g (f.md.getLsbD 0) f.a f.b (v.getLsbD 12) (v.extractLsb' 0 12))
  | 0x38C => some (.haltc f.g (.ofCode (f.md.extractLsb' 0 2)) f.d f.a)
  | _ => none

/-- The instruction of a word that passed the checks. -/
def build (f : Fields) : Option Instr :=
  if f.group < 4 then buildA f else if f.group < 8 then buildB f else if f.group < 11 then buildC f else buildD f

/-- Checks 4 to 9 of R71 in their order. `user`: the word runs in user mode; `set0v`: of its clause header; `win`: the
window size of its rope. -/
def checkFields (user set0v : Bool) (win : Nat) (f : Fields) : Option Cause :=
  match formOf f with
  | none => some .opcode
  | some k =>
    if !k.lenOk f then some .length
    else if user && f.privileged then some .privileged
    else if !k.rsvOk f then some .reserved
    else if (f.longLat && !set0v) || !((k.fields f).all fun p => p.1.codeOk p.2) then some .operand
    else if !((k.fields f).all fun p => p.1.inWindow win p.2) then some .window
    else none

/-- Decoding of one word, rejecting by cause. -/
def decodeFields (user set0v : Bool) (win : Nat) (f : Fields) : Except Cause Instr :=
  match checkFields user set0v win f with
  | some c => .error c
  | none =>
    match build f with
    | some i => .ok i
    | none => .error .opcode

/-- Decoding of the word that starts a list of bytes; a clause header code is WORDKIND (R71 check 1). -/
def decodeBytes (user set0v : Bool) (win : Nat) (l : List Byte) : Except Cause Instr :=
  match Fields.ofBytes l with
  | none => .error .wordkind
  | some f => decodeFields user set0v win f

/-- The instruction the decoder reads from `w`, numbered as the opcode table numbers bits: least significant bit first,
the bits above `nbits` zero; as the supervisor strand would run it in a clause with set0 valid and a full window. -/
def decodeTableWord (nbits w : Nat) : Option Instr :=
  match decodeBytes false true 256 (leBytes 16 (w % 2 ^ nbits)) with
  | .ok i => some i
  | .error _ => none

/-! ### The encoder -/

/-- The first immediate among the sources of a class-I word, as its upper word. -/
def immUp : List Src → Upper
  | [] => .no
  | .imm (.i32 v) :: _ => .w32 v
  | .imm (.i64 v) :: _ => .w64 v
  | _ :: l => immUp l

/-- A word with only its opcode and guard set. -/
def enc (opc : BitVec 10) (g : Guard) : Fields :=
  { opc := opc, pg := g.pg, pn := g.pn, dst := 0, sa := 0, sb := 0, sc := 0, md := 0, ext := 0, up := .no }

/-- A class-I word of three sources. -/
def encI (opc : BitVec 10) (g : Guard) (md : BitVec 6) (ext : BitVec 5) (d : BitVec 9) (l : List Src) : Fields :=
  { opc := opc, pg := g.pg, pn := g.pn, dst := d, sa := (l.headD (.w 0)).code, sb := ((l.drop 1).headD (.w 0)).code,
    sc := ((l.drop 2).headD (.w 0)).code, md := md, ext := ext, up := immUp l }

/-- mod of layout MI. -/
def mdI (t : IType) (sat : Bool) (var : BitVec 2) : BitVec 6 := (t.code ++ bit1 sat ++ var : BitVec 6)
/-- mod of layout MF. -/
def mdF (t : FType) (sat : Bool) (rc : Rc) : BitVec 6 := (t.code ++ bit1 sat ++ rc.code : BitVec 6)
/-- ext of layout XF. -/
def exF (a b : FSrc) (negc : Bool) : BitVec 5 :=
  (bit1 b.abs ++ bit1 a.abs ++ bit1 negc ++ bit1 b.neg ++ bit1 a.neg : BitVec 5)
/-- The absent second float source. -/
def noF : FSrc := ⟨.w 0, false, false⟩
/-- ext of ext[4] and a 4-bit number. -/
def ex4 (hi : Bool) (n : BitVec 4) : BitVec 5 := (bit1 hi ++ n : BitVec 5)
/-- Two float sources. -/
def encF2 (opc : BitVec 10) (g : Guard) (t : FType) (sat : Bool) (rc : Rc) (d : Dst) (a b : FSrc) : Fields :=
  encI opc g (mdF t sat rc) (exF a b false) d.code [a.src, b.src]
/-- One float source. -/
def encF1 (opc : BitVec 10) (g : Guard) (t : FType) (sat : Bool) (rc : Rc) (d : Dst) (a : FSrc) : Fields :=
  encI opc g (mdF t sat rc) (exF a noF false) d.code [a.src]
/-- An integer word of group 1 or 2. -/
def encN (opc : BitVec 10) (g : Guard) (t : IType) (sat : Bool) (d : Dst) (l : List Src) : Fields :=
  encI opc g (mdI t sat 0) 0 d.code l
/-- Gate code and ext bit. -/
def gateCode : Option Src → BitVec 9
  | none => 0
  | some s => s.code
/-- A predicate number as an operand field. -/
def pc9 (p : Num4) : BitVec 9 := p.setWidth 9
/-- A memory word. -/
def encM (opc : BitVec 10) (g : Guard) (md : BitVec 6) (ext : BitVec 5) (d a b c : BitVec 9) (up : BitVec 64) : Fields :=
  { opc := opc, pg := g.pg, pn := g.pn, dst := d, sa := a, sb := b, sc := c, md := md, ext := ext, up := .w64 up }
/-- A window number destination as a field. -/
def od9 : Option (BitVec 8) → BitVec 9
  | none => 0
  | some i => i.setWidth 9
/-- ext[4] of .nn. -/
def nnx (d : Option (BitVec 8)) : BitVec 5 := ex4 d.isNone 0
/-- ext[0] of .nr. -/
def nrx (d : Option (BitVec 8)) : BitVec 5 := (bit1 d.isNone).setWidth 5

/-- The word of an instruction of groups 0 to 3; none for any other. -/
def encodeA : Instr → Option Fields
  | .nop g => some (enc 0x000#10 g)
  | .bra g off => some { enc 0x001#10 g with up := .w32 off }
  | .brx g a => some { enc 0x002#10 g with sa := a.code }
  | .call g l off => some { enc 0x003#10 g with dst := l.code, up := .w32 off }
  | .callx g l a => some { enc 0x004#10 g with dst := l.code, sa := a.code }
  | .ret g a => some { enc 0x005#10 g with sa := a.code }
  | .yield g => some (enc 0x006#10 g)
  | .iadd g t s d a b => some (encN 0x040#10 g t s d [a, b])
  | .isub g t s d a b => some (encN 0x041#10 g t s d [a, b])
  | .imul g t s d a b => some (encN 0x042#10 g t s d [a, b])
  | .imulh g t d a b => some (encN 0x043#10 g t false d [a, b])
  | .imad g t s d a b c => some (encN 0x044#10 g t s d [a, b, c])
  | .imadw g t s d a b c => some (encN 0x045#10 g t s d [a, b, c])
  | .idiv g t s d a b => some (encN 0x046#10 g t s d [a, b])
  | .irem g t d a b => some (encN 0x047#10 g t false d [a, b])
  | .iabs g t s d a => some (encN 0x048#10 g t s d [a])
  | .ineg g t s d a => some (encN 0x049#10 g t s d [a])
  | .imin g t d a b => some (encN 0x04A#10 g t false d [a, b])
  | .imax g t d a b => some (encN 0x04B#10 g t false d [a, b])
  | .iaddc g t sub nc d p a b =>
      some (encI 0x04C#10 g (mdI t false ((bit1 sub).setWidth 2)) (ex4 nc p) d.code [a, b])
  | .isad g t d a b c => some (encN 0x04D#10 g t false d [a, b, c])
  | .lea g t sh d a b => some (encI 0x04E#10 g (mdI t false 0) (sh.setWidth 5) d.code [a, b])
  | .and g t d a b => some (encN 0x080#10 g t false d [a, b])
  | .or g t d a b => some (encN 0x081#10 g t false d [a, b])
  | .xor g t d a b => some (encN 0x082#10 g t false d [a, b])
  | .andn g t d a b => some (encN 0x083#10 g t false d [a, b])
  | .shl g t d a n => some (encN 0x084#10 g t false d [a, n])
  | .shr g t d a n => some (encN 0x085#10 g t false d [a, n])
  | .sar g t d a n => some (encN 0x086#10 g t false d [a, n])
  | .rotl g t d a n => some (encN 0x087#10 g t false d [a, n])
  | .bfx g t d a f => some (encN 0x088#10 g t false d [a, f])
  | .bfi g t d a b f => some (encN 0x089#10 g t false d [a, b, f])
  | .popc g t d a => some (encN 0x08A#10 g t false d [a])
  | .clz g t d a => some (encN 0x08B#10 g t false d [a])
  | .brev g t d a => some (encN 0x08C#10 g t false d [a])
  | .prmt g t gr d a b s => some (encI 0x08D#10 g (mdI t false gr.code) 0 d.code [a, b, s])
  | .isetp g cc t m p a b =>
      some { encI 0x0C0#10 g (mdI t false 0) (ex4 false cc.code) (pc9 p) [a, b] with sc := m.code.setWidth 9 }
  | .fsetp g cc rc m p a b =>
      some { encI 0x0C1#10 g (mdF .f32 false rc) (ex4 false cc.code) (pc9 p) [a, b] with sc := m.code.setWidth 9 }
  | .dsetp g cc rc m p a b =>
      some { encI 0x0C2#10 g (mdF .f64 false rc) (ex4 false cc.code) (pc9 p) [a, b] with sc := m.code.setWidth 9 }
  | .plop g p pa pb pc lut =>
      some { enc 0x0C3#10 g with dst := pc9 p, sa := pc9 pa, sb := pc9 pb, sc := pc9 pc, md := lut.extractLsb' 0 6,
                                 ext := (lut.extractLsb' 6 2).setWidth 5 }
  | .sel g t d a b ps neg => some (encI 0x0C4#10 g (mdI t false 0) (ex4 neg ps) d.code [a, b])
  | .iset g cc t mk d a b =>
      some (encI 0x0C5#10 g (mdI t false ((bit1 mk).setWidth 2)) (ex4 false cc.code) d.code [a, b])
  | .pmov g t (.rd d) => some (encI 0x0C6#10 g (mdI t false 0) 0 d.code [])
  | .pmov g t (.wr a m) => some (encI 0x0C6#10 g (mdI t false 1) 0 0 [a, m])
  | _ => none

/-- The word of an instruction of groups 4 to 7; none for any other. -/
def encodeB : Instr → Option Fields
  | .fadd g t s rc d a b => some (encF2 0x100#10 g t s rc d a b)
  | .fmul g t s rc d a b => some (encF2 0x101#10 g t s rc d a b)
  | .ffma g t s rc d a b c => some (encI 0x102#10 g (mdF t s rc) (exF a b c.neg) d.code [a.src, b.src, c.src])
  | .fmin g t rc d a b => some (encF2 0x103#10 g t false rc d a b)
  | .fmax g t rc d a b => some (encF2 0x104#10 g t false rc d a b)
  | .fdiv g t s rc d a b => some (encF2 0x105#10 g t s rc d a b)
  | .fsqrt g t rc d a => some (encF1 0x106#10 g t false rc d a)
  | .frcp g t s rc d a => some (encF1 0x107#10 g t s rc d a)
  | .frsq g t s rc d a => some (encF1 0x108#10 g t s rc d a)
  | .ffrc g t rc d a => some (encF1 0x109#10 g t false rc d a)
  | .frnd g t rc d a => some (encF1 0x10A#10 g t false rc d a)
  | .fclass g t rc d a => some (encI 0x10B#10 g (mdF t false rc) 0 d.code [a])
  | .fldexp g t s rc d a n => some (encI 0x10C#10 g (mdF t s rc) (exF a noF false) d.code [a.src, n])
  | .dadd g s rc d a b => some (encF2 0x140#10 g .f64 s rc d a b)
  | .dmul g s rc d a b => some (encF2 0x141#10 g .f64 s rc d a b)
  | .dfma g s rc d a b c => some (encI 0x142#10 g (mdF .f64 s rc) (exF a b c.neg) d.code [a.src, b.src, c.src])
  | .dmin g rc d a b => some (encF2 0x143#10 g .f64 false rc d a b)
  | .dmax g rc d a b => some (encF2 0x144#10 g .f64 false rc d a b)
  | .ddiv g s rc d a b => some (encF2 0x145#10 g .f64 s rc d a b)
  | .dsqrt g rc d a => some (encF1 0x146#10 g .f64 false rc d a)
  | .fex2 g t s rc d a => some (encF1 0x147#10 g t s rc d a)
  | .flg2 g t rc d a => some (encF1 0x148#10 g t false rc d a)
  | .fsin g t rc d a => some (encF1 0x149#10 g t false rc d a)
  | .fcos g t rc d a => some (encF1 0x14A#10 g t false rc d a)
  | .ftanh g t rc d a => some (encF1 0x14B#10 g t false rc d a)
  | .cvt g fd fs sat rc d a =>
      some { encI 0x180#10 g (0#2 ++ bit1 sat ++ rc.code : BitVec 6) fs.code d.code [a] with sc := fd.code.setWidth 9 }
  | .pack g f slot sat rc d a b c => some (encI 0x181#10 g (slot ++ bit1 sat ++ rc.code : BitVec 6) f.code d.code [a, b, c])
  | .unpk g f el d a => some (encI 0x182#10 g (el.setWidth 6) f.code d.code [a])
  | .dp4 g fa fb sat d a b c => some (encI 0x183#10 g (fa.code ++ fb.code : BitVec 6) ((bit1 sat).setWidth 5) d.code [a, b, c])
  | .dp8 g fa fb sat d a b c => some (encI 0x184#10 g (fa.code ++ fb.code : BitVec 6) ((bit1 sat).setWidth 5) d.code [a, b, c])
  | .dp2 g fa fb sat d a b c => some (encI 0x185#10 g (fa.code ++ fb.code : BitVec 6) ((bit1 sat).setWidth 5) d.code [a, b, c])
  | .fscl g t k sat rc d a s => some (encI 0x186#10 g (mdF t sat rc) (k.setWidth 5) d.code [a, s])
  | .t3pk g d a b => some (encI 0x187#10 g 0 0 d.code [a, b])
  | .t3up g hi d p a => some (encI 0x188#10 g ((bit1 hi).setWidth 6) (ex4 false p) d.code [a])
  | .mov g t d a => some (encI 0x1C0#10 g (t.code.setWidth 6) 0 d.code [a])
  | .movs g d sp => some { enc 0x1C1#10 g with dst := d.code, sa := sp.setWidth 9 }
  | .csrr g d num => some { enc 0x1C2#10 g with dst := d.code, sc := num.extractLsb' 0 9, ext := (num.extractLsb' 9 3).setWidth 5 }
  | .csrw g op num a =>
      some { encI 0x1C3#10 g (op.code.setWidth 6) ((num.extractLsb' 9 3).setWidth 5) 0 [a] with sc := num.extractLsb' 0 9 }
  | _ => none

/-- The word of an instruction of groups 8 to 10; none for any other. -/
def encodeC : Instr → Option Fields
  | .fork g d n a off => some { enc 0x200#10 g with dst := d.code, sa := n.code, sb := a.code, up := .w32 off }
  | .fend g => some (enc 0x201#10 g)
  | .vote g m inv cv d ps gate =>
      some { enc 0x202#10 g with
        dst := (match d with | .p p => pc9 p | .r d => d.code), sa := pc9 ps, sc := gateCode gate,
        md := (0#2 ++ bit1 inv ++ m.code : BitVec 6), ext := ex4 cv 0 }
  | .matchL g f b64 cv d p a gate =>
      some { enc 0x203#10 g with
        dst := d.code, sa := a.code, sc := gateCode gate, md := (0#3 ++ f.code ++ bit1 b64 : BitVec 6), ext := ex4 cv p }
  | .shfl g m logN b64 cv d p a b gate =>
      some { encI 0x204#10 g (bit1 b64 ++ logN ++ m.code : BitVec 6) (ex4 cv p) d.code [a, b] with sc := gateCode gate }
  | .reds g op t det sat cv d a gate =>
      some { enc 0x205#10 g with
        dst := d.code, sa := a.code, sc := gateCode gate, md := (t.code ++ op.code : BitVec 6),
        ext := (bit1 cv ++ 0#2 ++ bit1 sat ++ bit1 det : BitVec 5) }
  | .elect g cv d p gate => some { enc 0x206#10 g with dst := d.code, sc := gateCode gate, ext := ex4 cv p }
  | .tiedef g k (.rng a b) => some (encI 0x207#10 g 0 0 (pc9 k) [a, b])
  | .tiedef g k (.lanes s m) => some (encI 0x207#10 g 1 0 (pc9 k) [s, m])
  | .tiesgn g k => some { enc 0x208#10 g with dst := pc9 k }
  | .hbar g m b mask pd ps =>
      some { enc 0x209#10 g with dst := pc9 b, sa := mask.code, sb := pc9 ps, md := m.code.setWidth 6, ext := ex4 false pd }
  | .nsleep g pd a v t => some (encI 0x20A#10 g 0 0 (pc9 pd) [a, v, t])
  | .ld g w d a u => some (encM 0x240#10 g (w.code.setWidth 6) 0 (d.setWidth 9) a.code 0 0 u.bits)
  | .st g w a v u => some (encM 0x241#10 g (w.code.setWidth 6) 0 0 a.code v.code 0 u.bits)
  | .lds g w d a u => some (encM 0x242#10 g (w.code.setWidth 6) 0 (d.setWidth 9) a.code 0 0 u.bits)
  | .sts g w a v u => some (encM 0x243#10 g (w.code.setWidth 6) 0 0 a.code v.code 0 u.bits)
  | .ldro g w d a u => some (encM 0x244#10 g (w.code.setWidth 6) 0 (d.setWidth 9) a.code 0 0 u.bits)
  | .pfch g l2 wr a off => some (encM 0x245#10 g (0#4 ++ bit1 wr ++ bit1 l2 : BitVec 6) 0 0 a.code 0 0 (off.setWidth 64))
  | .atom g op t d a b u => some (encM 0x280#10 g (t.code ++ op.code : BitVec 6) (nrx d) (od9 d) a.code b.code 0 u.bits)
  | .cas g w d a c n u => some (encM 0x281#10 g ((casCode w).setWidth 6) 0 (d.setWidth 9) a.code c.code n.code u.bits)
  | .atoms g op t d a b u => some (encM 0x282#10 g (t.code ++ op.code : BitVec 6) (nrx d) (od9 d) a.code b.code 0 u.bits)
  | .fence g sc => some { enc 0x283#10 g with md := sc.code.setWidth 6 }
  | .lockl g d a off => some (encM 0x284#10 g 0 0 d.code a.code 0 0 (off.setWidth 64))
  | .unlkl g d a off => some (encM 0x285#10 g 0 0 d.code a.code 0 0 (off.setWidth 64))
  | .cwb g a off => some (encM 0x286#10 g 0 0 0 a.code 0 0 (off.setWidth 64))
  | .cinv g a off => some (encM 0x287#10 g 0 0 0 a.code 0 0 (off.setWidth 64))
  | _ => none

/-- The word of an instruction of groups 11 to 14; none for any other. -/
def encodeD : Instr → Option Fields
  | .shpw g (.all q) i => some (encM 0x2C0#10 g 0 0 0 (q.setWidth 9) 0 0 (i.setWidth 64))
  | .shpw g (.base a) i => some (encM 0x2C0#10 g 1 0 0 a.code 0 0 (i.setWidth 64))
  | .shpr g d i => some (encM 0x2C1#10 g 0 0 (d.setWidth 9) 0 0 0 (i.setWidth 64))
  | .xcp g d cs cd b u => some (encM 0x2C2#10 g 0 (nnx d) (od9 d) cs.code cd.code b.code u.bits)
  | .xgath g d cs cd b u => some (encM 0x2C3#10 g 0 (nnx d) (od9 d) cs.code cd.code b.code u.bits)
  | .xscat g d cs cd b u => some (encM 0x2C4#10 g 0 (nnx d) (od9 d) cs.code cd.code b.code u.bits)
  | .xred g d cs cd b u => some (encM 0x2C5#10 g 0 (nnx d) (od9 d) cs.code cd.code b.code u.bits)
  | .xfill g d cd b u => some (encM 0x2C6#10 g 0 (nnx d) (od9 d) 0 cd.code b.code u.bits)
  | .tlwait g tl n => some (encM 0x2C7#10 g 0 0 0 n.code (tl.setWidth 9) 0 0)
  | .tlread g b64 d tl => some (encM 0x2C8#10 g ((bit1 b64).setWidth 6) 0 (d.setWidth 9) 0 (tl.setWidth 9) 0 0)
  | .crpop g d p => some (encM 0x2C9#10 g 0 (ex4 false p) (d.setWidth 9) 0 0 0 0)
  | .bari g b e u => some (encM 0x2CA#10 g 0 0 0 b.code e.code 0 u.bits)
  | .bara g d b u => some (encM 0x2CB#10 g 0 0 (d.setWidth 9) b.code 0 0 u.bits)
  | .barex g b n u => some (encM 0x2CC#10 g 0 0 0 b.code n.code 0 u.bits)
  | .barw g p b ph u => some (encM 0x2CD#10 g 0 (ex4 false p) 0 b.code ph.code 0 u.bits)
  | .tcfg g m a => some (encM 0x300#10 g 0 0 0 a.code 0 0 (m.setWidth 64))
  | .tld g d c w u => some (encM 0x301#10 g 0 (nnx d) (od9 d) c.code 0 w.code u.bits)
  | .tst g d c w u => some (encM 0x302#10 g 0 (nnx d) (od9 d) c.code 0 w.code u.bits)
  | .tzero g d w u => some (encM 0x303#10 g 0 (nnx d) (od9 d) 0 0 w.code u.bits)
  | .mma g na nb nc sat a16 d w u =>
      some (encM 0x304#10 g (0#1 ++ bit1 a16 ++ bit1 sat ++ bit1 nc ++ bit1 nb ++ bit1 na : BitVec 6) (nnx d) (od9 d) 0 0
        w.code u.bits)
  | .tew g op sat d w u => some (encM 0x305#10 g (0#2 ++ bit1 sat ++ op.code : BitVec 6) (nnx d) (od9 d) 0 0 w.code u.bits)
  | .tcvt g sat rc d w u => some (encM 0x306#10 g (0#2 ++ bit1 sat ++ rc.code : BitVec 6) (nnx d) (od9 d) 0 0 w.code u.bits)
  | .tred g op d w u => some (encM 0x307#10 g (op.code.setWidth 6) (nnx d) (od9 d) 0 0 w.code u.bits)
  | .trow g d w u => some (encM 0x308#10 g 0 (nnx d) (od9 d) 0 0 w.code u.bits)
  | .gdef g d s (.define a s0) => some (encM 0x340#10 g 0 0 (d.setWidth 9) a.code s0.code 0 (s.setWidth 64))
  | .gdef g d s .del => some (encM 0x340#10 g 1 0 (d.setWidth 9) 0 0 0 (s.setWidth 64))
  | .gld g d s q c => some (encM 0x341#10 g 0 0 (d.setWidth 9) c.code q.code 0 (s.setWidth 64))
  | .gst g s q c v => some (encM 0x342#10 g 0 0 0 c.code q.code v.code (s.setWidth 64))
  | .gstep g rc d s q st => some (encM 0x343#10 g 0 (nnx d) (od9 d) st.code q.code 0 (0#57 ++ bit1 rc ++ s : BitVec 64))
  | .gwait g s q f t => some (encM 0x344#10 g 0 0 0 t.code q.code f.code (s.setWidth 64))
  | .gstat g d s q (.face n) => some (encM 0x345#10 g 0 0 (d.setWidth 9) n.code q.code 0 (s.setWidth 64))
  | .gstat g d s q .com => some (encM 0x345#10 g 1 0 (d.setWidth 9) 0 q.code 0 (s.setWidth 64))
  | .syscall g => some (enc 0x380#10 g)
  | .trap g code => some { enc 0x381#10 g with up := .w32 code }
  | .knot g wm sm tm => some { enc 0x382#10 g with up := .w64 (tm ++ sm ++ wm : BitVec 64) }
  | .sigret g f => some { enc 0x383#10 g with sa := f.code }
  | .bkpt g => some (enc 0x384#10 g)
  | .rft g d t => some { enc 0x385#10 g with dst := d.code, sa := t.code }
  | .rqpop g d p a => some { enc 0x386#10 g with dst := d.code, sa := a.code, ext := ex4 false p }
  | .replay g p s .res => some { enc 0x387#10 g with sa := s.code, ext := ex4 false p }
  | .replay g p s (.hdr t) => some { enc 0x387#10 g with sa := s.code, sb := t.code, md := 1, ext := ex4 false p }
  | .replay g p s .kill => some { enc 0x387#10 g with sa := s.code, md := 2, ext := ex4 false p }
  | .smovr g sp sv w d p a t off =>
      some (encM 0x388#10 g (w.code.setWidth 6) (ex4 false p) d.code a.code 0 t.code
        (0#28 ++ bit1 sv ++ sp.code ++ off : BitVec 64))
  | .smovw g sp sv w p a v t off =>
      some (encM 0x389#10 g (w.code.setWidth 6) (ex4 false p) 0 a.code v.code t.code
        (0#28 ++ bit1 sv ++ sp.code ++ off : BitVec 64))
  | .sigpost g p c s => some { enc 0x38A#10 g with sa := c.code, sb := s.code, ext := ex4 false p }
  | .ptinv g full a n allc ctx =>
      some (encM 0x38B#10 g ((bit1 full).setWidth 6) 0 0 a.code n.code 0 (0#51 ++ bit1 allc ++ ctx : BitVec 64))
  | .haltc g m d c => some { enc 0x38C#10 g with dst := d.code, sa := c.code, md := m.code.setWidth 6 }
  | _ => none

/-- The word of an instruction; none for a device event, which has no encoding. -/
def encodeFields (i : Instr) : Option Fields :=
  (encodeA i).or ((encodeB i).or ((encodeC i).or (encodeD i)))

/-- The bytes of a well-formed instruction. -/
def encode (i : Instr) : Option (List Byte) := (encodeFields i).map Fields.toBytes

/-- Bytes of an instruction's word from its operands (R68, R69); 0 for a device event. -/
def Instr.len (i : Instr) : Nat :=
  match encodeFields i with
  | some f => f.up.len
  | none => 0

end Sys2Proof
end

