-- ==== Sys2Proof/Machine/Bits.lean ====
section
/-! DEFINITION. Bit-field, byte-order and small list helpers of the machine. -/

namespace Sys2Proof.Machine

/-- Bits [lo+len-1:lo] of a number. -/
def bits (v lo len : Nat) : Nat := v / 2 ^ lo % 2 ^ len

/-- Bit i of a number. -/
def bit (v i : Nat) : Bool := v / 2 ^ i % 2 == 1

/-- A number read as a signed value of `w` bits. -/
def sx (w v : Nat) : Int :=
  let u := v % 2 ^ w
  if u < 2 ^ (w - 1) then (u : Int) else (u : Int) - (2 ^ w : Nat)

/-- An integer reduced modulo 2^w (R81). -/
def wrap (w : Nat) (v : Int) : Nat := (v % ((2 ^ w : Nat) : Int)).toNat

/-- Number of one bits of the low `w` bits. -/
def popc : Nat → Nat → Nat
  | 0, _ => 0
  | w + 1, v => v % 2 + popc w (v / 2)

/-- Bits of a number reversed over width w. -/
def brev : Nat → Nat → Nat
  | 0, _ => 0
  | w + 1, v => (v % 2) * 2 ^ w + brev w (v / 2)

/-- The numbers below n whose bit is set in a mask, ascending. -/
def setBits (n mask : Nat) : List Nat := (List.range n).filter fun i => bit mask i

/-- The mask of a list of bit numbers. -/
def maskOf (l : List Nat) : Nat := l.foldl (fun m i => m ||| 2 ^ i) 0

/-- Replacement of element i of a list. -/
def setAt {α : Type} (l : List α) (i : Nat) (v : α) : List α := l.set i v

/-- Element i of a list of numbers, 0 beyond its end. -/
def getAt (l : List Nat) (i : Nat) : Nat := l.getD i 0

/-- Bytes of a list as 32-bit words, least significant byte first (R6). -/
def wordsOf : Nat → List Byte → List (BitVec 32)
  | 0, _ => []
  | n + 1, l => BitVec.ofNat 32 (leNat (l.take 4)) :: wordsOf n (l.drop 4)

/-- Little-endian value of n bytes of a list from offset o. -/
def fieldAt (l : List Byte) (o n : Nat) : Nat := leNat ((l.drop o).take n)

/-- Bytes of a list of 32-bit words. -/
def bytesOfWords (l : List (BitVec 32)) : List Byte := l.flatMap fun w => leBytes 4 w.toNat

/-- A list of bytes cut or padded with zeros to length n. -/
def padTo (n : Nat) (l : List Byte) : List Byte := l.take n ++ List.replicate (n - l.length) 0

/-- Bytes of `new` written over `old` from offset o. -/
def patch (old : List Byte) (o : Nat) (new : List Byte) : List Byte :=
  old.take o ++ new ++ old.drop (o + new.length)

/-- Smallest element of a list of numbers. -/
def listMin : List Nat → Option Nat
  | [] => none
  | a :: l => some (l.foldl Nat.min a)

/-- Round up to a multiple of k. -/
def roundUp (k v : Nat) : Nat := (v + k - 1) / k * k

/-- Ceiling division. -/
def cdiv (a b : Nat) : Nat := (a + b - 1) / b

end Sys2Proof.Machine
end

