-- ==== Sys2Proof/Machine/Float.lean ====
section
/-! DEFINITION. Number formats and the one rounding procedure (R35 to R51): exact values, RoundToFormat, conversions to
integer formats, the stochastic draw, and the correctly rounded transcendentals of R129. Condition sets are numbers with
IV, DZ, OF, UF and IX in bits 0 to 4, as in FPSTAT (R28). -/

namespace Sys2Proof.Machine

/-- Floating formats of R35, R38 and R39. -/
inductive FF where
  | f64 | f32 | f16 | bf16 | e4m3 | e5m2 | e3m2 | e2m3 | e2m1 | ue5m3
  deriving DecidableEq, Repr

/-- Invalid. -/
def fIV : Nat := 1
/-- Divide by zero. -/
def fDZ : Nat := 2
/-- Overflow. -/
def fOF : Nat := 4
/-- Underflow. -/
def fUF : Nat := 8
/-- Inexact. -/
def fIX : Nat := 16

/-- Width in bits. -/
def FF.w : FF → Nat
  | .f64 => 64 | .f32 => 32 | .f16 | .bf16 => 16 | .e4m3 | .e5m2 | .ue5m3 => 8 | .e3m2 | .e2m3 => 6 | .e2m1 => 4
/-- Mantissa bits. -/
def FF.mb : FF → Nat
  | .f64 => 52 | .f32 => 23 | .f16 => 10 | .bf16 => 7 | .e4m3 | .e2m3 | .ue5m3 => 3 | .e5m2 | .e3m2 => 2 | .e2m1 => 1
/-- Exponent bits. -/
def FF.eb : FF → Nat
  | .f64 => 11 | .f32 | .bf16 => 8 | .f16 | .e5m2 | .ue5m3 => 5 | .e4m3 => 4 | .e3m2 => 3 | .e2m3 | .e2m1 => 2
/-- Exponent bias. -/
def FF.bias : FF → Int
  | .f64 => 1023 | .f32 | .bf16 => 127 | .f16 | .e5m2 | .ue5m3 => 15 | .e4m3 => 7 | .e3m2 => 3 | .e2m3 | .e2m1 => 1
/-- Largest finite magnitude as a pattern. -/
def FF.maxP : FF → Nat
  | .f64 => 0x7FEFFFFFFFFFFFFF | .f32 => 0x7F7FFFFF | .f16 => 0x7BFF | .bf16 => 0x7F7F | .e4m3 => 0x7E | .e5m2 => 0x7B
  | .e3m2 | .e2m3 => 0x1F | .e2m1 => 7 | .ue5m3 => 0xF7
/-- Canonical NaN; +0 where the format has none (R36, R38, R47). -/
def FF.nanP : FF → Nat
  | .f64 => 0x7FF8000000000000 | .f32 => 0x7FC00000 | .f16 => 0x7E00 | .bf16 => 0x7FC0 | .e4m3 => 0x7F | .e5m2 => 0x7E
  | .ue5m3 => 0xFF | .e3m2 | .e2m3 | .e2m1 => 0
/-- A format with infinities. -/
def FF.hasInf : FF → Bool
  | .f64 | .f32 | .f16 | .bf16 | .e5m2 => true
  | _ => false
/-- A format with NaNs of its own. -/
def FF.hasNan : FF → Bool
  | .e3m2 | .e2m3 | .e2m1 => false
  | _ => true
/-- Infinity as a pattern, where there is one. -/
def FF.infP (F : FF) : Nat := (2 ^ F.eb - 1) * 2 ^ F.mb
/-- FTZ acts on FP32, FP16 and BF16 only (R37). -/
def FF.ftzs : FF → Bool
  | .f32 | .f16 | .bf16 => true
  | _ => false
/-- The sign as a pattern. -/
def FF.signP (F : FF) (neg : Bool) : Nat := if neg && F != .ue5m3 then 2 ^ (F.w - 1) else 0
/-- Exponent of the smallest normal value. -/
def FF.emin (F : FF) : Int := 1 - F.bias

/-- A floating value: NaN with its signalling mark, infinity, or (−1)^neg · m · 2^e. -/
inductive FVal where
  | nan (sig : Bool)
  | inf (neg : Bool)
  | fin (neg : Bool) (m : Nat) (e : Int)
  deriving DecidableEq, Repr

/-- The value of a pattern (R35, R38, R39). Narrow formats have no signalling NaN. -/
def unpackF (F : FF) (p : Nat) : FVal :=
  let v := p % 2 ^ F.w
  let m := v % 2 ^ F.mb
  let e := v / 2 ^ F.mb % 2 ^ F.eb
  let neg := F != .ue5m3 && bit v (F.w - 1)
  let ordinary := if e = 0 then FVal.fin neg m (F.emin - F.mb) else FVal.fin neg (2 ^ F.mb + m) (e - F.bias - F.mb)
  if e = 2 ^ F.eb - 1 then
    match F with
    | .f64 | .f32 | .f16 | .bf16 => if m = 0 then .inf neg else .nan (!bit m (F.mb - 1))
    | .e5m2 => if m = 0 then .inf neg else .nan false
    | .e4m3 => if m = 7 then .nan false else ordinary
    | .ue5m3 => .nan true
    | _ => ordinary
  else ordinary

/-- A subnormal pattern. -/
def isSub (F : FF) (p : Nat) : Bool := p / 2 ^ F.mb % 2 ^ F.eb == 0 && p % 2 ^ F.mb != 0

/-- A source pattern after FTZ: a subnormal becomes zero of its sign (R37, R120). -/
def ftzP (F : FF) (ftz : Bool) (p : Nat) : Nat :=
  if ftz && F.ftzs && isSub F p then F.signP (bit p (F.w - 1)) else p

/-- A value read under FTZ. -/
def readF (F : FF) (ftz : Bool) (p : Nat) : FVal := unpackF F (ftzP F ftz p)

/-- The value is a signalling NaN. -/
def FVal.snan : FVal → Bool
  | .nan s => s
  | _ => false
/-- The value is a NaN. -/
def FVal.isNan : FVal → Bool
  | .nan _ => true
  | _ => false
/-- The value is zero. -/
def FVal.isZero : FVal → Bool
  | .fin _ 0 _ => true
  | _ => false
/-- Its sign; false for a NaN. -/
def FVal.neg : FVal → Bool
  | .nan _ => false
  | .inf n => n
  | .fin n _ _ => n
/-- Sign change. -/
def FVal.negate : FVal → FVal
  | .nan s => .nan s
  | .inf n => .inf !n
  | .fin n m e => .fin (!n) m e

/-- How a fraction rounds (R46): `rem` of 2^sh, `st` a further nonzero part below it, `q` the integer below. -/
def roundUpQ (rc : Rc) (neg : Bool) (draw q rem sh : Nat) (st : Bool) : Bool :=
  let inx := rem != 0 || st
  match rc with
  | .rz => false
  | .rp => inx && !neg
  | .rm => inx && neg
  | .sr => decide (rem * 2 ^ 16 / 2 ^ sh + draw ≥ 2 ^ 16)
  | .rne | .dyn =>
    if sh = 0 then false
    else
      let half := 2 ^ (sh - 1)
      decide (rem > half) || (rem == half && (st || q % 2 == 1))

/-- A positive number m·2^e (and a further part below it when `st`) cut at unit 2^u: the quotient, the remainder and
the width it is a fraction of. -/
def cutAt (m : Nat) (e u : Int) : Nat × Nat × Nat :=
  if u ≥ e then
    let sh := (u - e).toNat
    (m / 2 ^ sh, m % 2 ^ sh, sh)
  else (m * 2 ^ (e - u).toNat, 0, 0)

/-- What a finite overflow delivers (R47), with its conditions OF and IX. -/
def overflowF (F : FF) (neg : Bool) (rc : Rc) (sat : Bool) : Nat × Nat :=
  let mx := F.signP neg + F.maxP
  let away := match rc with
    | .rz => false
    | .rp => !neg
    | .rm => neg
    | _ => true
  let top := if F.hasInf then F.signP neg + F.infP else if F = .e4m3 then F.nanP else mx
  (if sat then mx else if away then top else mx, fOF ||| fIX)

/-- RoundToFormat (R46) of the nonzero value (−1)^neg·(m + δ)·2^e, with 0 < δ < 1 when `st` and δ = 0 otherwise; FTZ on
the result and tininess after rounding (R37). The pattern and the conditions raised. -/
def roundF (F : FF) (rc : Rc) (sat : Bool) (draw : Nat) (ftz neg : Bool) (m : Nat) (e : Int) (st : Bool) : Nat × Nat :=
  let E := e + Nat.log2 m
  let u := max E F.emin - F.mb
  let (q, rem, sh) := cutAt m e u
  let up := roundUpQ rc neg draw q rem sh st
  let q' := if up then q + 1 else q
  let inx := rem != 0 || st
  -- the pattern of q'·2^u: a carry into the next binade carries into the exponent field
  let p := ((u + F.mb + F.bias).toNat - 1) * 2 ^ F.mb + q'
  -- tininess: rounded with an unbounded exponent range
  let (q2, rem2, sh2) := cutAt m e (E - F.mb)
  let q2' := if roundUpQ rc neg draw q2 rem2 sh2 st then q2 + 1 else q2
  let tiny := decide (E < F.emin) && !(decide (E = F.emin - 1) && q2' == 2 ^ (F.mb + 1))
  if p > F.maxP then overflowF F neg rc sat
  else if tiny && ftz && F.ftzs then (F.signP neg, fUF ||| fIX)
  else (F.signP neg + p, (if inx then fIX else 0) ||| (if tiny && inx then fUF else 0))

/-- A value delivered to a format by arithmetic: infinities stay, NaN is canonical, a finite value rounds once (R46,
R121). Where the target has no sign or no infinity the conversion rules of `convF` apply instead. -/
def deliverF (F : FF) (rc : Rc) (sat : Bool) (draw : Nat) (ftz : Bool) (v : FVal) : Nat × Nat :=
  match v with
  | .nan _ => (F.nanP, 0)
  | .inf n => (F.signP n + F.infP, 0)
  | .fin n 0 _ => (F.signP n, 0)
  | .fin n m e => roundF F rc sat draw ftz n m e false

/-- Conversion of a value to a floating format: RoundToFormat, then R47 and R133 for overflow and specials. A signalling
NaN raises IV in every case. -/
def convF (F : FF) (rc : Rc) (sat : Bool) (draw : Nat) (ftz : Bool) (v : FVal) : Nat × Nat :=
  if F = .ue5m3 then
    match v with
    | .nan _ => (0xFF, fIV)
    | .inf true => (0, fIV)
    | .inf false => (0xF7, fOF ||| fIX)
    | .fin _ 0 _ => (0, 0)
    | .fin true _ _ => (0, fIV)
    | .fin false m e => roundF F rc sat draw ftz false m e false
  else
    match v with
    | .nan s => (F.nanP, if s || !F.hasNan then fIV else 0)
    | .inf n =>
      if F.hasInf then (if sat then (F.signP n + F.maxP, fOF ||| fIX) else (F.signP n + F.infP, 0))
      else if F = .e4m3 then (if sat then (F.signP n + F.maxP, fOF ||| fIX) else (F.nanP, fIV))
      else (F.signP n + F.maxP, fOF ||| fIX)
    | .fin n 0 _ => (F.signP n, 0)
    | .fin n m e => roundF F rc sat draw ftz n m e false

/-- Rounding to an integer under a rounding code: the integer and whether a fraction was dropped (R49, R126). -/
def roundInt (rc : Rc) (draw : Nat) (neg : Bool) (m : Nat) (e : Int) : Nat × Bool :=
  let (q, rem, sh) := cutAt m e 0
  (if roundUpQ rc neg draw q rem sh false then q + 1 else q, rem != 0)

/-- Conversion of a value to an integer format of width w (R49). -/
def convI (w : Nat) (signed : Bool) (rc : Rc) (draw : Nat) (v : FVal) : Nat × Nat :=
  let hi : Int := if signed then 2 ^ (w - 1) - 1 else 2 ^ w - 1
  let lo : Int := if signed then -(2 ^ (w - 1)) else 0
  match v with
  | .nan _ => (0, fIV)
  | .inf true => (wrap w lo, fIV)
  | .inf false => (wrap w hi, fIV)
  | .fin n m e =>
    let (q, inx) := roundInt rc draw n m e
    let r : Int := if n then -(q : Int) else q
    if r > hi then (wrap w hi, fIV) else if r < lo then (wrap w lo, fIV) else (wrap w r, if inx then fIX else 0)

/-! ### Exact arithmetic -/

/-- An integer as an exact value. -/
def FVal.ofInt (v : Int) : FVal := .fin (decide (v < 0)) v.natAbs 0

/-- Exact product; the flag says that it has no defined value (0 × ∞). -/
def FVal.mul (a b : FVal) : FVal × Bool :=
  match a, b with
  | .nan _, _ => (.nan false, false)
  | _, .nan _ => (.nan false, false)
  | .inf n, y => if y.isZero then (.nan false, true) else (.inf (n != y.neg), false)
  | x, .inf n => if x.isZero then (.nan false, true) else (.inf (n != x.neg), false)
  | .fin n m e, .fin k l f => (.fin (n != k) (m * l) (e + f), false)

/-- Exact sum; an exact zero of opposite signs is −0 under RM and +0 otherwise (R46); the flag marks ∞ − ∞. -/
def FVal.add (rm : Bool) (a b : FVal) : FVal × Bool :=
  match a, b with
  | .nan _, _ => (.nan false, false)
  | _, .nan _ => (.nan false, false)
  | .inf n, .inf k => if n = k then (.inf n, false) else (.nan false, true)
  | .inf n, _ => (.inf n, false)
  | _, .inf n => (.inf n, false)
  | .fin n m e, .fin k l f =>
    let g := min e f
    let x : Int := (m * 2 ^ (e - g).toNat : Nat)
    let y : Int := (l * 2 ^ (f - g).toNat : Nat)
    let s := (if n then -x else x) + (if k then -y else y)
    if s = 0 then (.fin (if n = k then n else rm) 0 g, false) else (.fin (decide (s < 0)) s.natAbs g, false)

/-- IV of operands: a signalling NaN among them, or an operation without a value. -/
def ivOf (sn undef : Bool) : Nat := if sn || undef then fIV else 0

/-- Order of two non-NaN values with −0 below +0 (R125): a < b. -/
def FVal.ltTotal (a b : FVal) : Bool :=
  match a, b with
  | .inf n, .inf k => n && !k
  | .inf n, _ => n
  | _, .inf k => !k
  | .fin n m e, .fin k l f =>
    let g := min e f
    let x := m * 2 ^ (e - g).toNat
    let y := l * 2 ^ (f - g).toNat
    if n = k then (if n then decide (y < x) else decide (x < y)) else n
  | _, _ => false

/-- Numeric comparison of two non-NaN values, −0 equal to +0 (R67). -/
def FVal.cmp (a b : FVal) : Ordering :=
  if a.isZero && b.isZero then .eq else if a.ltTotal b then .lt else if b.ltTotal a then .gt else .eq

/-- FMIN and FMAX on patterns after preparation (R125): one of the inputs unchanged; a NaN gives way to a number; IV for
a signalling NaN. -/
def minmaxF (F : FF) (isMax : Bool) (p q : Nat) : Nat × Nat :=
  let a := unpackF F p
  let b := unpackF F q
  let fl := ivOf (a.snan || b.snan) false
  if a.isNan && b.isNan then (F.nanP, fl)
  else if a.isNan then (q, fl)
  else if b.isNan then (p, fl)
  else if isMax then (if a.ltTotal b then q else p, fl)
  else (if b.ltTotal a then q else p, fl)

/-- Integer square root by bits: the largest r below 2^k with r·r ≤ n, added to the root found so far. -/
def isqrtFrom : Nat → Nat → Nat → Nat
  | 0, _, r => r
  | k + 1, n, r => let c := r + 2 ^ k; isqrtFrom k n (if c * c ≤ n then c else r)

/-- Integer square root. -/
def isqrt (n : Nat) : Nat := isqrtFrom (Nat.log2 n / 2 + 1) n 0

/-- Division with IEEE specials and DZ (R124). -/
def divF (F : FF) (rc : Rc) (sat ftz : Bool) (a b : FVal) : Nat × Nat :=
  let iv := ivOf (a.snan || b.snan) false
  match a, b with
  | .nan _, _ => (F.nanP, iv)
  | _, .nan _ => (F.nanP, iv)
  | .inf _, .inf _ => (F.nanP, fIV)
  | .inf n, y => (F.signP (n != y.neg) + F.infP, 0)
  | x, .inf n => (F.signP (n != x.neg), 0)
  | .fin n m e, .fin k l f =>
    if l = 0 then (if m = 0 then (F.nanP, fIV) else (F.signP (n != k) + F.infP, fDZ))
    else if m = 0 then (F.signP (n != k), 0)
    else
      let s := Nat.log2 l + 70
      roundF F rc sat 0 ftz (n != k) (m * 2 ^ s / l) (e - f - s) (m * 2 ^ s % l != 0)

/-- Square root (R124). -/
def sqrtF (F : FF) (rc : Rc) (sat ftz : Bool) (a : FVal) : Nat × Nat :=
  match a with
  | .nan s => (F.nanP, ivOf s false)
  | .inf n => if n then (F.nanP, fIV) else (F.infP, 0)
  | .fin n m e =>
    if m = 0 then (F.signP n, 0)
    else if n then (F.nanP, fIV)
    else
      let (m1, e1) := if e % 2 = 0 then (m, e) else (2 * m, e - 1)
      let v := m1 * 2 ^ 140
      let r := isqrt v
      roundF F rc sat 0 ftz false r (e1 / 2 - 70) (r * r != v)

/-- Reciprocal square root (R124). -/
def rsqrtF (F : FF) (rc : Rc) (sat ftz : Bool) (a : FVal) : Nat × Nat :=
  match a with
  | .nan s => (F.nanP, ivOf s false)
  | .inf n => if n then (F.nanP, fIV) else (0, 0)
  | .fin n m e =>
    if m = 0 then (F.signP n + F.infP, fDZ)
    else if n then (F.nanP, fIV)
    else
      let (m1, e1) := if e % 2 = 0 then (m, e) else (2 * m, e - 1)
      let k := Nat.log2 m1 + 70
      let r := isqrt (2 ^ (2 * k) / m1)
      roundF F rc sat 0 ftz false r (-(e1 / 2) - k) (r * r * m1 != 2 ^ (2 * k))

/-! ### The stochastic draw (R51) -/

/-- Mix of R51. -/
def mix (z0 : Nat) : Nat :=
  let M := 2 ^ 64
  let z := (z0 + 0x9E3779B97F4A7C15) % M
  let z := ((z ^^^ (z / 2 ^ 30)) * 0xBF58476D1CE4E5B9) % M
  let z := ((z ^^^ (z / 2 ^ 27)) * 0x94D049BB133111EB) % M
  z ^^^ (z / 2 ^ 31)

/-- Rotation of a 64-bit value to the left. -/
def rotl64 (v k : Nat) : Nat := (v * 2 ^ (k % 64) + v / 2 ^ (64 - k % 64)) % 2 ^ 64

/-- Draw(L, i) from a lane's state (R51). -/
def drawOf (state L i : Nat) : Nat := rotl64 state ((2 * L + 8 * i) % 64) % 2 ^ 16

/-! ### Transcendentals (R129): an enclosure of the exact value, refined until both ends round alike -/

/-- Terms of Σ z^(2k+1)/(2k+1) at 2^w, with odd divisors from `k`: `z2` is z², `p` the current power. -/
def atanhTerms : Nat → Nat → Nat → Nat → Nat → Nat → Nat
  | 0, _, _, p, acc, k => acc + p / k
  | n + 1, w, z2, p, acc, k => atanhTerms n w z2 (p * z2 / 2 ^ w) (acc + p / k) (k + 2)

/-- atanh(z) at 2^w for z = a/2^w up to 1/3. -/
def atanhFx (w a : Nat) : Nat := atanhTerms (w / 3 + 4) w (a * a / 2 ^ w) a 0 1

/-- ln 2 at 2^w. -/
def ln2Fx (w : Nat) : Nat := 2 * atanhFx w (2 ^ w / 3)

/-- ln(m/2^k) at 2^w for 1 ≤ m/2^k < 2. -/
def lnFx (w m k : Nat) : Nat := 2 * atanhFx w ((m - 2 ^ k) * 2 ^ w / (m + 2 ^ k))

/-- Terms of e^x: acc + t·(1 + x/k + x²/k(k+1) + …). -/
def expTerms : Nat → Nat → Nat → Nat → Nat → Nat → Nat
  | 0, _, _, t, _, acc => acc + t
  | n + 1, w, x, t, k, acc => expTerms n w x (t * x / 2 ^ w / k) (k + 1) (acc + t)

/-- e^x at 2^w for 0 ≤ x < 1. -/
def expFx (w x : Nat) : Nat := expTerms (w / 2 + 8) w x (2 ^ w) 1 0

/-- Alternating series for arctan(1/n) at 2^w: Σ (−1)^k/((2k+1)·n^(2k+1)). -/
def atanInv : Nat → Nat → Nat → Nat → Int → Int
  | 0, _, _, _, acc => acc
  | t + 1, n2, p, k, acc => atanInv t n2 (p / n2) (k + 2) (if k % 4 = 1 then acc + (p / k : Nat) else acc - (p / k : Nat))

/-- π at 2^w by Machin's formula. -/
def piFx (w : Nat) : Nat :=
  let g := w + 16
  let a := atanInv (g / 4 + 4) 25 (2 ^ g / 5) 1 0
  let b := atanInv (g / 15 + 4) (239 * 239) (2 ^ g / 239) 1 0
  ((16 * a - 4 * b) / 2 ^ 16).toNat

/-- Alternating terms of sine (from t = x, k = 2) or cosine (from t = 1, k = 1). -/
def sinTerms : Nat → Nat → Nat → Nat → Nat → Bool → Int → Int
  | 0, _, _, _, _, _, acc => acc
  | n + 1, w, x2, t, k, pos, acc =>
    sinTerms n w x2 (t * x2 / 2 ^ w / (k * (k + 1))) (k + 2) (!pos) (if pos then acc + (t : Int) else acc - (t : Int))

/-- sin x at 2^w, 0 ≤ x ≤ π/4. -/
def sinFx (w x : Nat) : Int := sinTerms (w / 4 + 8) w (x * x / 2 ^ w) x 2 true 0
/-- cos x at 2^w, 0 ≤ x ≤ π/4. -/
def cosFx (w x : Nat) : Int := sinTerms (w / 4 + 8) w (x * x / 2 ^ w) (2 ^ w) 1 true 0

/-- The functions of R129. -/
inductive TFun where
  | ex2 | lg2 | sin | cos | tanh
  deriving DecidableEq, Repr

/-- A positive number m·2^e at 2^w, cut below. -/
def toFx (w m : Nat) (e : Int) : Nat :=
  let s := e + w
  if s ≥ 0 then m * 2 ^ s.toNat else m / 2 ^ (-s).toNat

/-- An approximation of a function at a finite nonzero argument, as (negative, magnitude at 2^w, extra exponent, w):
the exact magnitude lies within 2^16 units of the last place. `P` is the precision asked for. -/
def approx (f : TFun) (P : Nat) (neg : Bool) (m : Nat) (e : Int) : Bool × Nat × Int × Nat :=
  let E := e + Nat.log2 m
  let w := P + 48 + (if E < 0 then (-E).toNat else 0)
  match f with
  | .ex2 =>
    -- beyond ±1024 the result over- or underflows whatever the fraction
    let big := decide (E ≥ 11)
    let n : Int := if big then 1024 else (toFx w m e / 2 ^ w : Nat)
    let fr := if big then 0 else toFx w m e % 2 ^ w
    if neg then
      if fr = 0 then (false, 2 ^ w, -n, w)
      else (false, expFx w ((2 ^ w - fr) * ln2Fx w / 2 ^ w), -n - 1, w)
    else (false, expFx w (fr * ln2Fx w / 2 ^ w), n, w)
  | .lg2 =>
    let k := Nat.log2 m
    let l : Int := (lnFx w m k * 2 ^ w / ln2Fx w : Nat)
    let v := E * (2 ^ w : Nat) + l
    (decide (v < 0), v.natAbs, 0, w)
  | .sin | .cos =>
    let g := w + 16 + (if E > 0 then E.toNat else 0)
    let pi := piFx g
    let x := toFx g m e
    -- quadrant of x/(π/2) and the rest reduced to [0, π/2]
    let h := pi / 2
    let q := x / h
    let r := x % h
    let (q, r, back) := if 2 * r > h then (q + 1, h - r, true) else (q, r, false)
    let y := r / 2 ^ (g - w)
    let s := sinFx w y
    let c := cosFx w y
    let s := if back then -s else s
    let v : Int :=
      match f with
      | .cos => match q % 4 with | 0 => c | 1 => -s | 2 => -c | _ => s
      | _ => match q % 4 with | 0 => s | 1 => c | 2 => -s | _ => -c
    let v := if neg && f == .sin then -v else v
    (decide (v < 0), v.natAbs, 0, w)
  | .tanh =>
    if E ≥ 5 then (neg, 2 ^ w - 2 ^ (w - 40), 0, w)
    else
      -- e^(2x) by 2x = k·ln 2 + r
      let x2 := toFx w (2 * m) e
      let l2 := ln2Fx w
      let k := x2 / l2
      let ex := expFx w (x2 % l2) * 2 ^ k
      (neg, (ex - 2 ^ w) * 2 ^ w / (ex + 2 ^ w), 0, w)

/-- Rounding to FP32 of both ends of an enclosure, raised in precision while they differ. -/
def transRound : Nat → TFun → Nat → Bool → Bool → Nat → Int → Nat × Nat
  | 0, _, _, _, _, _, _ => (0, 0)
  | n + 1, f, P, sat, neg, m, e =>
    let (s, v, x, w) := approx f P neg m e
    let lo := roundF .f32 .rne sat 0 false s (max (v - 2 ^ 17) 1) (x - w) true
    let hi := roundF .f32 .rne sat 0 false s (v + 2 ^ 17) (x - w) true
    if lo = hi || n = 0 then hi else transRound n f (2 * P) sat neg m e

/-- The power of two that a value is, if it is one. -/
def pow2Of (m : Nat) (e : Int) : Option Int := if m = 2 ^ Nat.log2 m then some (e + Nat.log2 m) else none

/-- The integer a value is, if it is one. -/
def intOf (m : Nat) (e : Int) : Option Nat :=
  if e ≥ 0 then some (m * 2 ^ e.toNat)
  else if m % 2 ^ (-e).toNat = 0 then some (m / 2 ^ (-e).toNat) else none

/-- A transcendental of an FP32 value, correctly rounded to FP32 without FTZ or saturation (R129 to R131): the pattern
and the conditions. `OF` here is that of the FP32 result. -/
def transF (f : TFun) (sat : Bool) (a : FVal) : Nat × Nat :=
  match a with
  | .nan s => (FF.nanP .f32, ivOf s false)
  | .inf n =>
    match f with
    | .ex2 => if n then (0, 0) else (FF.infP .f32, 0)
    | .lg2 => if n then (FF.nanP .f32, fIV) else (FF.infP .f32, 0)
    | .sin | .cos => (FF.nanP .f32, fIV)
    | .tanh => (FF.signP .f32 n + 0x3F800000, 0)
  | .fin n m e =>
    if m = 0 then
      match f with
      | .ex2 | .cos => (0x3F800000, 0)
      | .lg2 => (FF.signP .f32 true + FF.infP .f32, fDZ)
      | .sin | .tanh => (FF.signP .f32 n, 0)
    else
      match f with
      | .ex2 =>
        if e + Nat.log2 m < 11 then
          match intOf m e with
          | some k => roundF .f32 .rne sat 0 false false 1 (if n then -(k : Int) else k) false
          | none => transRound 4 f 96 sat n m e
        else if n then roundF .f32 .rne sat 0 false false 1 (-1024) false
        else roundF .f32 .rne sat 0 false false 1 1024 false
      | .lg2 =>
        if n then (FF.nanP .f32, fIV)
        else
          match pow2Of m e with
          | some k => deliverF .f32 .rne false 0 false (.ofInt k)
          | none => transRound 4 f 96 false n m e
      | _ => transRound 4 f 96 false n m e

end Sys2Proof.Machine
end

