-- ==== Sys2Proof/Machine/IntOps.lean ====
section
/-! DEFINITION. What groups 1 to 3 compute on values: integer and address arithmetic (R91 to R97), logic and bits
(R99 to R103), comparisons (R67, R105, R109), selection and predicate words (R107 to R110). Values are numbers below
2^32 or 2^64; packed values keep element i in bits [W·i+W−1:W·i] (R43). -/

namespace Sys2Proof.Machine

/-- Element width of an MI type. -/
def iw : IType → Nat
  | .i32 | .ui32 => 32
  | .i64 | .ui64 => 64
  | .i16x2 | .ui16x2 => 16
  | .i8x4 | .ui8x4 => 8

/-- Elements of an MI type (R91). -/
def ie : IType → Nat
  | .i16x2 | .ui16x2 => 2
  | .i8x4 | .ui8x4 => 4
  | _ => 1

/-- Element i of a value. -/
def elemN (w v i : Nat) : Nat := v / 2 ^ (w * i) % 2 ^ w

/-- Element i read signed or unsigned (R91 Get). -/
def elemI (t : IType) (v i : Nat) : Int := if t.signed then sx (iw t) (elemN (iw t) v i) else (elemN (iw t) v i : Nat)

/-- A value from its elements. -/
def joinN (w : Nat) : List Nat → Nat
  | [] => 0
  | x :: l => x % 2 ^ w + 2 ^ w * joinN w l

/-- Smallest value of an element. -/
def iMin (t : IType) : Int := if t.signed then -(2 ^ (iw t - 1)) else 0
/-- Largest value of an element. -/
def iMax (t : IType) : Int := if t.signed then 2 ^ (iw t - 1) - 1 else 2 ^ iw t - 1
/-- Clamp (R81). -/
def clampI (lo hi v : Int) : Int := if v < lo then lo else if v > hi then hi else v

/-- Delivery of an exact integer to an element: clamped with .sat, then modulo 2^W (R81). -/
def putI (t : IType) (sat : Bool) (v : Int) : Nat := wrap (iw t) (if sat then clampI (iMin t) (iMax t) v else v)

/-- R91: an operation on each element. -/
def mapI (t : IType) (sat : Bool) (op : Int → Int → Int → Int) (a b c : Nat) : Nat :=
  joinN (iw t) ((List.range (ie t)).map fun i => putI t sat (op (elemI t a i) (elemI t b i) (elemI t c i)))

/-- R91. -/
def vIadd (t : IType) (sat : Bool) (a b : Nat) : Nat := mapI t sat (fun x y _ => x + y) a b 0
/-- R91. -/
def vIsub (t : IType) (sat : Bool) (a b : Nat) : Nat := mapI t sat (fun x y _ => x - y) a b 0
/-- R91. -/
def vImul (t : IType) (sat : Bool) (a b : Nat) : Nat := mapI t sat (fun x y _ => x * y) a b 0
/-- R91: the high half of the product. -/
def vImulh (t : IType) (a b : Nat) : Nat := mapI t false (fun x y _ => (x * y).fdiv (2 ^ iw t)) a b 0
/-- R91. -/
def vImad (t : IType) (sat : Bool) (a b c : Nat) : Nat := mapI t sat (fun x y z => x * y + z) a b c
/-- R91. -/
def vIabs (t : IType) (sat : Bool) (a : Nat) : Nat := mapI t sat (fun x _ _ => x.natAbs) a 0 0
/-- R91. -/
def vIneg (t : IType) (sat : Bool) (a : Nat) : Nat := mapI t sat (fun x _ _ => -x) a 0 0
/-- R91. -/
def vImin (t : IType) (a b : Nat) : Nat := mapI t false (fun x y _ => if y < x then y else x) a b 0
/-- R91. -/
def vImax (t : IType) (a b : Nat) : Nat := mapI t false (fun x y _ => if x < y then y else x) a b 0

/-- R92: 32-bit factors, 64-bit sum. -/
def vImadw (t : IType) (sat : Bool) (a b c : Nat) : Nat :=
  let w : IType := if t.signed then .i64 else .ui64
  putI w sat (elemI t a 0 * elemI t b 0 + elemI w c 0)

/-- R93, for a divisor of zero without the trap or any other divisor. -/
def vIdiv (t : IType) (sat : Bool) (a b : Nat) : Nat :=
  let x := elemI t a 0
  let y := elemI t b 0
  if y = 0 then 2 ^ iw t - 1 else putI t sat (x.tdiv y)

/-- R93. -/
def vIrem (t : IType) (a b : Nat) : Nat :=
  let x := elemI t a 0
  let y := elemI t b 0
  if y = 0 then wrap (iw t) x else wrap (iw t) (x - y * x.tdiv y)

/-- R95: result and carry or borrow. -/
def vIaddc (t : IType) (sub : Bool) (cin : Bool) (a b : Nat) : Nat × Bool :=
  let c : Int := if cin then 1 else 0
  let v : Int := if sub then (a : Int) - b - c else (a : Int) + b + c
  (wrap (iw t) v, decide (v ≥ 2 ^ iw t ∨ v < 0))

/-- R96. -/
def vIsad (t : IType) (a b c : Nat) : Nat :=
  (c + ((List.range (ie t)).map fun i => (elemI t a i - elemI t b i).natAbs).sum) % 2 ^ 32

/-- R97. -/
def vLea (t : IType) (sh a b : Nat) : Nat := wrap 64 ((a : Int) + elemI t b 0 * 2 ^ sh)

/-- R99. -/
def vAndn (t : IType) (a b : Nat) : Nat := a &&& (2 ^ iw t - 1 - b % 2 ^ iw t)

/-- R100: a shift per element; the amount is the whole 32-bit n of a scalar type, element i of n otherwise. -/
def mapShift (t : IType) (op : Nat → Nat → Nat → Nat) (a n : Nat) : Nat :=
  joinN (iw t) ((List.range (ie t)).map fun i => op (iw t) (elemN (iw t) a i) (if t.packed then elemN (iw t) n i else n))

/-- R100. -/
def vShl (t : IType) (a n : Nat) : Nat := mapShift t (fun w x k => if k < w then x * 2 ^ k % 2 ^ w else 0) a n
/-- R100. -/
def vShr (t : IType) (a n : Nat) : Nat := mapShift t (fun w x k => if k < w then x / 2 ^ k else 0) a n
/-- R100. -/
def vSar (t : IType) (a n : Nat) : Nat :=
  mapShift t (fun w x k => if k < w then wrap w ((sx w x).fdiv (2 ^ k)) else if bit x (w - 1) then 2 ^ w - 1 else 0) a n
/-- R100. -/
def vRotl (t : IType) (a n : Nat) : Nat :=
  mapShift t (fun w x k => (x * 2 ^ (k % w) + x / 2 ^ (w - k % w)) % 2 ^ w) a n

/-- R101: position and length of a field, clamped to the width. -/
def bfField (w f : Nat) : Nat × Nat :=
  let p := min (f % 256) w
  (p, min (f / 256 % 256) (w - p))

/-- R101. -/
def vBfx (t : IType) (a f : Nat) : Nat :=
  let (p, l) := bfField (iw t) f
  if l = 0 then 0 else if t.signed then wrap (iw t) (sx l (bits a p l)) else bits a p l

/-- R101. -/
def vBfi (t : IType) (a b f : Nat) : Nat :=
  let (p, l) := bfField (iw t) f
  a % 2 ^ p + bits b 0 l * 2 ^ p + a / 2 ^ (p + l) * 2 ^ (p + l)

/-- R102. -/
def vPopc (t : IType) (a : Nat) : Nat := popc (iw t) a
/-- R102. -/
def vClz (t : IType) (a : Nat) : Nat := if a % 2 ^ iw t = 0 then iw t else iw t - 1 - Nat.log2 (a % 2 ^ iw t)
/-- R102. -/
def vBrev (t : IType) (a : Nat) : Nat := brev (iw t) a

/-- R103. -/
def vPrmt (g : Gran) (a b s : Nat) : Nat :=
  let v := a + 2 ^ 32 * b
  match g with
  | .n4 => joinN 4 ((List.range 8).map fun i => elemN 4 v (elemN 4 s i))
  | .n8 => joinN 8 ((List.range 4).map fun i =>
      let k := elemN 8 s i
      let x := elemN 8 v (k % 8)
      let y := if bit k 3 then brev 8 x else x
      if bit k 4 then 255 - y else y)
  | .n16 => joinN 16 ((List.range 2).map fun i => elemN 16 v (elemN 16 s i % 4))

/-- Integer relation of a condition code (R67). -/
def ccInt (cc : Cc) (a b : Int) : Bool :=
  match cc with
  | .lt => decide (a < b)
  | .eq => decide (a = b)
  | .le => decide (a ≤ b)
  | .gt => decide (a > b)
  | .ne => decide (a ≠ b)
  | .ge => decide (a ≥ b)
  | .t => true
  | _ => false

/-- R105: the integer comparison of ISETP. -/
def vIcmp (t : IType) (cc : Cc) (a b : Nat) : Bool := ccInt cc (elemI t a 0) (elemI t b 0)

/-- R105: how a comparison joins the old predicate. -/
def accum (m : AccMode) (old r : Bool) : Bool :=
  match m with
  | .plain => r
  | .andp => old && r
  | .orp => old || r
  | .xorp => old != r

/-- R109. -/
def vIset (t : IType) (cc : Cc) (mask : Bool) (a b : Nat) : Nat :=
  joinN (iw t) ((List.range (ie t)).map fun i =>
    if ccInt cc (elemI t a i) (elemI t b i) then (if mask then 2 ^ iw t - 1 else 1) else 0)

/-- R107: entry of the table. -/
def plopBit (lut : Nat) (a b c : Bool) : Bool :=
  bit lut ((if a then 1 else 0) + (if b then 2 else 0) + (if c then 4 else 0))

/-- R110: predicates 0 to 14 under a mask. -/
def pmovWr (old a m : Nat) : Nat := (old &&& (0xFFFF - (m &&& 0x7FFF))) ||| (a &&& m &&& 0x7FFF)

/-- R140: byte i of T3PK from its five codes. -/
def t3byte (codes i : Nat) : Nat :=
  let ks := (List.range 5).map fun t => elemN 2 codes (5 * i + t)
  if ks.any (· == 3) then 0xFF else ks.foldr (fun k v => k + 3 * v) 0

/-- R140. -/
def vT3pk (a b : Nat) : Nat := joinN 8 ((List.range 4).map (t3byte (a % 2 ^ 32 + 2 ^ 32 * (b % 256))))

/-- Trit i of a T3 byte, as its code; a reserved byte yields zeros (R41). -/
def tritOf (byte i : Nat) : Nat := if byte > 242 then 0 else byte / 3 ^ i % 3

/-- R141: ten codes and whether a byte is reserved. -/
def vT3up (hi : Bool) (a : Nat) : Nat × Bool :=
  let o := if hi then 2 else 0
  let x := elemN 8 a o
  let y := elemN 8 a (o + 1)
  (joinN 2 ((List.range 5).map (tritOf x) ++ (List.range 5).map (tritOf y)), decide (x > 242 ∨ y > 242))

end Sys2Proof.Machine
end

