-- ==== Sys2Proof/Machine/FloatOps.lean ====
section
/-! DEFINITION. What groups 4 to 6 compute on values (R120 to R139), and the float forms of comparisons, REDS and
atomics. Every function answers the result and the set of conditions raised by all its elements (R119). -/

namespace Sys2Proof.Machine

/-- Element format of an MF type. -/
def fElem : FType → FF
  | .f32 => .f32
  | .f16x2 => .f16
  | .bf16x2 => .bf16
  | .f64 => .f64

/-- Elements of an MF type. -/
def fCount : FType → Nat
  | .f16x2 | .bf16x2 => 2
  | _ => 1

/-- A source pattern prepared: FTZ, then absolute value, then negation (R120). -/
def prepP (F : FF) (ftz neg abs : Bool) (p : Nat) : Nat :=
  let p := ftzP F ftz (p % 2 ^ F.w)
  let p := if abs then p % 2 ^ (F.w - 1) else p
  if neg then (p + 2 ^ (F.w - 1)) % 2 ^ F.w else p

/-- An operation on each element, conditions joined (R118, R119). -/
def mapF (t : FType) (op : Nat → Nat × Nat) : Nat × Nat :=
  let rs := (List.range (fCount t)).map op
  (joinN (fElem t).w (rs.map (·.1)), rs.foldl (fun f r => f ||| r.2) 0)

/-- Element i of a value of an MF type. -/
def elemF (t : FType) (v i : Nat) : Nat := elemN (fElem t).w v i

/-- Modifiers and environment of a float operation: negations and absolute values of a, b, c; FTZ; the resolved rounding;
saturation. -/
structure FEnv where
  na  : Bool
  aa  : Bool
  nb  : Bool
  ab  : Bool
  nc  : Bool
  ftz : Bool
  rc  : Rc
  sat : Bool
  deriving DecidableEq, Repr

/-- Exact sum, delivered. -/
def addP (F : FF) (rc : Rc) (sat ftz : Bool) (a b : FVal) : Nat × Nat :=
  let (v, u) := FVal.add (rc == .rm) a b
  let (p, fl) := deliverF F rc sat 0 ftz v
  (p, fl ||| ivOf (a.snan || b.snan) u)

/-- Exact product, delivered. -/
def mulP (F : FF) (rc : Rc) (sat ftz : Bool) (a b : FVal) : Nat × Nat :=
  let (v, u) := FVal.mul a b
  let (p, fl) := deliverF F rc sat 0 ftz v
  (p, fl ||| ivOf (a.snan || b.snan) u)

/-- Exact product and sum, rounded once (R124). -/
def fmaP (F : FF) (rc : Rc) (sat ftz : Bool) (a b c : FVal) : Nat × Nat :=
  let (x, u) := FVal.mul a b
  let (v, u2) := FVal.add (rc == .rm) x c
  let (p, fl) := deliverF F rc sat 0 ftz v
  (p, fl ||| ivOf (a.snan || b.snan || c.snan) (u || u2))

/-- Operand a of element i, prepared. -/
def FEnv.pa (v : FEnv) (t : FType) (a i : Nat) : Nat := prepP (fElem t) v.ftz v.na v.aa (elemF t a i)
/-- Operand b of element i, prepared. -/
def FEnv.pb (v : FEnv) (t : FType) (b i : Nat) : Nat := prepP (fElem t) v.ftz v.nb v.ab (elemF t b i)
/-- Operand c of element i, prepared. -/
def FEnv.pc (v : FEnv) (t : FType) (c i : Nat) : Nat := prepP (fElem t) v.ftz v.nc false (elemF t c i)

/-- FADD and DADD (R124). -/
def vFadd (t : FType) (v : FEnv) (a b : Nat) : Nat × Nat :=
  mapF t fun i => addP (fElem t) v.rc v.sat v.ftz (unpackF (fElem t) (v.pa t a i)) (unpackF (fElem t) (v.pb t b i))
/-- FMUL and DMUL (R124). -/
def vFmul (t : FType) (v : FEnv) (a b : Nat) : Nat × Nat :=
  mapF t fun i => mulP (fElem t) v.rc v.sat v.ftz (unpackF (fElem t) (v.pa t a i)) (unpackF (fElem t) (v.pb t b i))
/-- FFMA and DFMA (R124). -/
def vFfma (t : FType) (v : FEnv) (a b c : Nat) : Nat × Nat :=
  mapF t fun i => fmaP (fElem t) v.rc v.sat v.ftz (unpackF (fElem t) (v.pa t a i)) (unpackF (fElem t) (v.pb t b i))
    (unpackF (fElem t) (v.pc t c i))
/-- FMIN, FMAX, DMIN and DMAX (R125). -/
def vFminmax (t : FType) (v : FEnv) (isMax : Bool) (a b : Nat) : Nat × Nat :=
  mapF t fun i => minmaxF (fElem t) isMax (v.pa t a i) (v.pb t b i)
/-- FDIV and DDIV (R124). -/
def vFdiv (t : FType) (v : FEnv) (a b : Nat) : Nat × Nat :=
  mapF t fun i => divF (fElem t) v.rc v.sat v.ftz (unpackF (fElem t) (v.pa t a i)) (unpackF (fElem t) (v.pb t b i))
/-- FSQRT and DSQRT (R124). -/
def vFsqrt (t : FType) (v : FEnv) (a : Nat) : Nat × Nat :=
  mapF t fun i => sqrtF (fElem t) v.rc v.sat v.ftz (unpackF (fElem t) (v.pa t a i))
/-- FRCP: the correctly rounded reciprocal (R124). -/
def vFrcp (t : FType) (v : FEnv) (a : Nat) : Nat × Nat :=
  mapF t fun i => divF (fElem t) v.rc v.sat v.ftz (.fin false 1 0) (unpackF (fElem t) (v.pa t a i))
/-- FRSQ (R124). -/
def vFrsq (t : FType) (v : FEnv) (a : Nat) : Nat × Nat :=
  mapF t fun i => rsqrtF (fElem t) v.rc v.sat v.ftz (unpackF (fElem t) (v.pa t a i))

/-- FFRC of one value (R126): exact, the sign of a. A subnormal fraction comes only of a subnormal source, or is tiny and
subject to FTZ (R37). -/
def ffrcP (F : FF) (ftz : Bool) (a : FVal) : Nat × Nat :=
  match a with
  | .nan s => (F.nanP, ivOf s false)
  | .inf _ => (F.nanP, fIV)
  | .fin n m e =>
    let r := if e ≥ 0 then 0 else m % 2 ^ (-e).toNat
    deliverF F .rz false 0 ftz (.fin n r e)
/-- FFRC (R126). -/
def vFfrc (t : FType) (v : FEnv) (a : Nat) : Nat × Nat :=
  mapF t fun i => ffrcP (fElem t) v.ftz (unpackF (fElem t) (v.pa t a i))

/-- FRND of one value (R126): integral, no IX, a zero keeps the sign of a. -/
def frndP (F : FF) (rc : Rc) (a : FVal) : Nat × Nat :=
  match a with
  | .nan s => (F.nanP, ivOf s false)
  | .inf n => (F.signP n + F.infP, 0)
  | .fin n m e =>
    if e ≥ 0 then deliverF F .rne false 0 false (.fin n m e)
    else ((deliverF F .rne false 0 false (.fin n (roundInt rc 0 n m e).1 0)).1, 0)
/-- FRND (R126). -/
def vFrnd (t : FType) (v : FEnv) (a : Nat) : Nat × Nat :=
  mapF t fun i => frndP (fElem t) v.rc (unpackF (fElem t) (v.pa t a i))

/-- The class bit of a stored pattern (R127). -/
def fclassBit (F : FF) (p : Nat) : Nat :=
  match unpackF F p with
  | .nan s => if s then 8 else 9
  | .inf n => if n then 0 else 7
  | .fin n m _ => if m = 0 then (if n then 3 else 4) else if isSub F p then (if n then 2 else 5) else (if n then 1 else 6)
/-- FCLASS (R127): a mask in the low bits of each element's place. -/
def vFclass (t : FType) (a : Nat) : Nat :=
  joinN (fElem t).w ((List.range (fCount t)).map fun i => 2 ^ fclassBit (fElem t) (elemF t a i))

/-- FLDEXP of one value (R128). The scale is clamped where the result is beyond every format either way. -/
def fldexpP (F : FF) (rc : Rc) (sat ftz : Bool) (a : FVal) (n : Int) : Nat × Nat :=
  match a with
  | .nan s => (F.nanP, ivOf s false)
  | .inf g => (F.signP g + F.infP, 0)
  | .fin g m e => deliverF F rc sat 0 ftz (.fin g m (e + clampI (-5000) 5000 n))
/-- FLDEXP (R128): n whole as INT32 for .f32, element i as INT16 otherwise. -/
def vFldexp (t : FType) (v : FEnv) (a n : Nat) : Nat × Nat :=
  mapF t fun i => fldexpP (fElem t) v.rc v.sat v.ftz (unpackF (fElem t) (v.pa t a i))
    (if fCount t = 1 then sx 32 n else sx 16 (elemN 16 n i))

/-- A result already rounded, subjected to FTZ (R37): tiny when subnormal or marked UF. -/
def ftzOut (F : FF) (ftz : Bool) (r : Nat × Nat) : Nat × Nat :=
  if ftz && F.ftzs && (isSub F r.1 || bit r.2 3) then (F.signP (bit r.1 (F.w - 1)), r.2 ||| fUF ||| fIX) else r

/-- A transcendental of one element (R129 to R131). A packed element is widened, evaluated in FP32 and narrowed once
under RNE; OF and UF are those of the last rounding. -/
def transP (f : TFun) (F : FF) (sat ftz : Bool) (a : FVal) : Nat × Nat :=
  if F = .f32 then ftzOut .f32 ftz (transF f sat a)
  else
    let (p1, f1) := transF f false a
    if bit f1 2 then (if sat then F.maxP else F.infP, fOF ||| fIX)
    else
      let (p2, f2) := deliverF F .rne sat 0 false (unpackF .f32 p1)
      let inx := bit f1 4 || bit f2 4
      let tiny := isSub F p2 || bit f2 3 || (inx && p2 % 2 ^ (F.w - 1) == 0)
      let fl := (f1 &&& 3) ||| (f2 &&& 4) ||| (if inx then fIX else 0) ||| (if inx && tiny then fUF else 0)
      ftzOut F ftz (p2, fl)
/-- FEX2, FLG2, FSIN, FCOS and FTANH (R129). -/
def vTrans (f : TFun) (t : FType) (v : FEnv) (a : Nat) : Nat × Nat :=
  mapF t fun i => transP f (fElem t) v.sat v.ftz (unpackF (fElem t) (v.pa t a i))

/-- FSETP and DSETP (R67, R106): the relation and IV. -/
def vFcmp (F : FF) (cc : Cc) (ftz : Bool) (p q : Nat) : Bool × Nat :=
  let a := readF F ftz p
  let b := readF F ftz q
  let un := a.isNan || b.isNan
  let iv := a.snan || b.snan || (un && (cc == .lt || cc == .le || cc == .gt || cc == .ge))
  let o := FVal.cmp a b
  let r := match cc with
    | .f => false
    | .lt => !un && o == .lt
    | .eq => !un && o == .eq
    | .le => !un && o != .gt
    | .gt => !un && o == .gt
    | .ne => !un && o != .eq
    | .ge => !un && o != .lt
    | .num => !un
    | .nan => un
    | .ltu => un || o == .lt
    | .equ => un || o == .eq
    | .leu => un || o != .gt
    | .gtu => un || o == .gt
    | .neu => un || o != .eq
    | .geu => un || o != .lt
    | .t => true
  (r, if iv then fIV else 0)

/-! ### Conversions -/

/-- A conversion format as a floating format. -/
def CFmt.ff : CFmt → Option FF
  | .f32 => some .f32 | .f16 => some .f16 | .bf16 => some .bf16 | .f64 => some .f64 | .e4m3 => some .e4m3
  | .e5m2 => some .e5m2 | .e3m2 => some .e3m2 | .e2m3 => some .e2m3 | .e2m1 => some .e2m1 | .ue5m3 => some .ue5m3
  | _ => none

/-- Width and signedness of an integer conversion format. -/
def CFmt.iws : CFmt → Nat × Bool
  | .i4 => (4, true) | .ui4 => (4, false) | .i8 => (8, true) | .ui8 => (8, false) | .i16 => (16, true)
  | .ui16 => (16, false) | .i32 => (32, true) | .ui32 => (32, false) | .i64 => (64, true) | .ui64 => (64, false)
  | _ => (32, false)

/-- CVT of one element (R135): the destination pattern at its own width, and the conditions. -/
def cvtP (fd fs : CFmt) (rc : Rc) (sat ftz : Bool) (draw : Nat) (p : Nat) : Nat × Nat :=
  match CFmt.ff fs, CFmt.ff fd with
  | some S, some D =>
    let v := readF S ftz p
    let (r, fl) := convF D rc sat draw ftz v
    (r, fl ||| ivOf v.snan false)
  | some S, none =>
    let (w, sg) := CFmt.iws fd
    convI w sg rc draw (readF S ftz p)
  | none, some D =>
    let (w, sg) := CFmt.iws fs
    let v : Int := if sg then sx w p else (p % 2 ^ w : Nat)
    convF D rc sat draw ftz (.ofInt v)
  | none, none =>
    let (w, sg) := CFmt.iws fs
    let v : Int := if sg then sx w p else (p % 2 ^ w : Nat)
    let (w2, sg2) := CFmt.iws fd
    let lo : Int := if sg2 then -(2 ^ (w2 - 1)) else 0
    let hi : Int := if sg2 then 2 ^ (w2 - 1) - 1 else 2 ^ w2 - 1
    (wrap w2 (if sat then clampI lo hi v else v), 0)

/-- The register image of a destination (R134): a signed integer narrower than 32 bits is sign-extended. -/
def cvtImage (fd : CFmt) (p : Nat) : Nat :=
  match CFmt.ff fd with
  | some _ => p
  | none => let (w, sg) := CFmt.iws fd; if sg && w < 32 then wrap 32 (sx w p) else p

/-- CVT (R134, R135). -/
def vCvt (fd fs : CFmt) (rc : Rc) (sat ftz : Bool) (draw : Nat) (a : Nat) : Nat × Nat :=
  let (p, fl) := cvtP fd fs rc sat ftz draw a
  (cvtImage fd p, fl)

/-- Bits an element of a packed format takes in a register (R43). -/
def CFmt.slotW : CFmt → Nat
  | .f16 | .bf16 | .i16 | .ui16 => 16
  | .e2m1 | .i4 | .ui4 => 4
  | _ => 8

/-- The 32-bit source format of a packed format (R136). -/
def CFmt.packSrc (f : CFmt) : CFmt := if (CFmt.ff f).isSome then .f32 else .i32

/-- Replacement of element i of a packed register. -/
def putElem (w v i x : Nat) : Nat := v - elemN w v i * 2 ^ (w * i) + x % 2 ^ w * 2 ^ (w * i)

/-- PACK (R136); `draw j` is the draw of the element j of the slot. -/
def vPack (f : CFmt) (slot : Nat) (rc : Rc) (sat ftz : Bool) (draw : Nat → Nat) (a b c : Nat) : Nat × Nat :=
  let w := CFmt.slotW f
  let (x, f1) := cvtP f (CFmt.packSrc f) rc sat ftz (draw 0) a
  let (y, f2) := cvtP f (CFmt.packSrc f) rc sat ftz (draw 1) b
  (putElem w (putElem w c (2 * slot) x) (2 * slot + 1) y, f1 ||| f2)

/-- UNPK (R137). -/
def vUnpk (f : CFmt) (i : Nat) (ftz : Bool) (a : Nat) : Nat × Nat :=
  let p := elemN (CFmt.slotW f) a i
  match CFmt.ff f with
  | some F =>
    let v := readF F ftz p
    let (r, fl) := deliverF .f32 .rne false 0 ftz v
    (r, (fl &&& 15) ||| ivOf v.snan false)
  | none => let (w, sg) := CFmt.iws f; (if sg then wrap 32 (sx w p) else p % 2 ^ w, 0)

/-! ### Dot products and scaling -/

/-- A dot element's format. -/
def DpElem.ff : DpElem → FF
  | .f16 => .f16 | .bf16 => .bf16 | .e4m3 => .e4m3 | .e5m2 => .e5m2 | .e3m2 => .e3m2 | .e2m3 => .e2m3 | _ => .e2m1
/-- An integer dot element. -/
def DpElem.int (d : DpElem) (w p : Nat) : Int :=
  match d with
  | .i16 | .i8 | .i4 => sx w p
  | _ => (p % 2 ^ w : Nat)

/-- Exact sum of values from a first one, with the mark of an undefined sum. -/
def sumFrom (z : FVal) (l : List FVal) : FVal × Bool :=
  l.foldl (fun acc v => let (s, u) := FVal.add false acc.1 v; (s, acc.2 || u)) (z, false)

/-- DP2, DP4 and DP8 (R138). -/
def vDp (fa fb : DpElem) (sat ftz : Bool) (a b c : Nat) : Nat × Nat :=
  let n := fa.count
  let w := 32 / n
  if fa.isInt then
    let s := ((List.range n).map fun i => DpElem.int fa w (elemN w a i) * DpElem.int fb w (elemN w b i)).foldl (· + ·) 0
    let v := sx 32 c + s
    (wrap 32 (if sat then clampI (-(2 ^ 31)) (2 ^ 31 - 1) v else v), 0)
  else
    let xs := (List.range n).map fun i => readF (DpElem.ff fa) ftz (elemN w a i)
    let ys := (List.range n).map fun i => readF (DpElem.ff fb) ftz (elemN w b i)
    let z := readF .f32 ftz c
    let ps := (xs.zip ys).map fun p => FVal.mul p.1 p.2
    -- s is the sum of the products, which a NaN among them makes NaN; c is added to it
    let (p, u) := match (ps.map (·.1)).find? FVal.isNan with
      | some v => (v, false)
      | none => sumFrom ((ps.map (·.1)).headD (.fin false 0 0)) (ps.map (·.1)).tail
    let (v, u') := FVal.add false z p
    let (r, fl) := deliverF .f32 .rne sat 0 ftz v
    (r, fl ||| ivOf (xs.any FVal.snan || ys.any FVal.snan || z.snan) (u || u' || ps.any (·.2)))

/-- FSCL (R139). -/
def vFscl (t : FType) (v : FEnv) (k a s : Nat) : Nat × Nat :=
  let sc := unpackF .ue5m3 (elemN 8 s k)
  mapF t fun i => mulP (fElem t) v.rc v.sat v.ftz (unpackF (fElem t) (v.pa t a i)) sc

/-! ### Constants (R63, R64) -/

/-- Position types of operands (R62, R64). -/
inductive Pos where
  | i (t : IType)
  | f (t : FType)
  | b32
  | b64
  | c (f : CFmt)
  /-- n packed elements of w bits, narrow floats or small integers (R138). -/
  | p (w n : Nat) (ff : Option FF)
  deriving DecidableEq, Repr

/-- The exact value of constants 0 to 55 as (negative, numerator, denominator); for the irrational ones the value at
2^160, a hundred bits beyond every format (R63). -/
def constVal (j : Nat) : Bool × Nat × Nat :=
  let w := 160
  let pi := piFx w
  let l2 := ln2Fx (w + 8)
  match j with
  | 48 => (false, 1, 3) | 49 => (false, 1, 5) | 50 => (false, 1, 6) | 51 => (false, 1, 7) | 52 => (false, 1, 9)
  | 53 => (false, 1, 10) | 54 => (false, 1, 12) | 55 => (false, 1, 24)
  | 56 => (false, pi, 2 ^ w)
  | 57 => (false, 2 ^ w, pi)
  | 58 => (false, 2 * pi, 2 ^ w)
  | 59 => (false, l2, 2 ^ (w + 8))
  | 60 => (false, 2 ^ (w + 8), l2)
  | 61 => (false, 3 * l2 + lnFx (w + 8) 5 2, l2)
  | 62 => (false, isqrt (2 * 2 ^ (2 * w)), 2 ^ w)
  | 63 => (false, isqrt (2 ^ (2 * w) / 2), 2 ^ w)
  | _ =>
    if j < 16 then (false, j, 1) else if j < 32 then (true, j - 15, 1)
    else if j < 40 then (false, 1, 2 ^ (40 - j)) else (false, 2 ^ (j - 40), 1)

/-- A constant rounded to a float format under RNE without saturation; no flag (R64). -/
def constF (F : FF) (j : Nat) : Nat :=
  let (n, a, b) := constVal j
  if a = 0 then 0
  else if F = .ue5m3 && n then 0
  else (roundF F .rne false 0 false n (a * 2 ^ 200 / b) (-200) (a * 2 ^ 200 % b != 0)).1

/-- A constant rounded to an integer under RNE (R64). -/
def constI (j : Nat) : Int :=
  let (n, a, b) := constVal j
  let q := a / b
  let r := a % b
  let q' := if 2 * r > b || (2 * r == b && q % 2 == 1) then q + 1 else q
  if n then -(q' : Int) else q'

/-- A value replicated into n elements of width w. -/
def repl (w n v : Nat) : Nat := joinN w (List.replicate n v)

/-- A constant in an operand position (R64). -/
def constAt (p : Pos) (j : Nat) : Nat :=
  match p with
  | .i t => repl (iw t) (ie t) (wrap (iw t) (constI j))
  | .f t => repl (fElem t).w (fCount t) (constF (fElem t) j)
  | .b32 => wrap 32 (constI j)
  | .b64 => wrap 64 (constI j)
  | .c k => match CFmt.ff k with
    | some F => constF F j
    | none => wrap (CFmt.iws k).1 (constI j)
  | .p w n ff => repl w n (match ff with
    | some F => constF F j
    | none => wrap w (constI j))

/-- A 64-bit position. -/
def Pos.wide : Pos → Bool
  | .i t => t.is64
  | .f t => t == .f64
  | .b32 => false
  | .b64 => true
  | .c k => k.is64
  | .p _ _ _ => false

/-- An FP32 pattern widened exactly to FP64 (R62); a NaN widens with its payload in place. -/
def widen (p : Nat) : Nat :=
  match unpackF .f32 p with
  | .nan _ => FF.signP .f64 (bit p 31) + FF.infP .f64 + p % 2 ^ 23 * 2 ^ 29
  | v => (deliverF .f64 .rne false 0 false v).1

/-- The immediate in an operand position (R62). -/
def immAt (p : Pos) (v : ImmVal) : Nat :=
  match v with
  | .i64 x => x.toNat
  | .i32 x =>
    match p with
    | .i .i64 => wrap 64 x.toInt
    | .c .i64 => wrap 64 x.toInt
    | .f .f64 => widen x.toNat
    | .c .f64 => widen x.toNat
    | _ => x.toNat

end Sys2Proof.Machine
end

