-- ==== Sys2Proof/Config.lean ====
section
/-! DEFINITION. What an implementation fixes and the free values: constants with no body, so that no proof can see a value
of them (log 6, 7). -/

namespace Sys2Proof.Config

/-- A value the spec leaves open, one for each number drawn (log 7). -/
opaque freeValue : Nat → BitVec 64

/-- A byte that a line reads as under another key than the one it was written under (R227): the two keys, the address, the
bytes written. -/
opaque xtsByte : Nat → Nat → Nat → List Byte → BitVec 8

/-- The SVPAGE value of a core (R458): an address in the firmware's own map. -/
opaque svPage : Nat → BitVec 64

/-- SHAKE256 with an output of n bytes, uninterpreted (R431, R436, R439). -/
opaque shake256 : List Byte → Nat → List Byte

/-- The SLH-DSA-SHAKE-256s signature under the attestation key, uninterpreted (R431). -/
opaque slhSign : List Byte → List Byte

/-- The firmware digest, fuse configuration, ROM version and public keys that the measurements name (R437 to R439). -/
opaque fuseBytes : List Byte

/-- Boot ROM version (R439). -/
opaque romBytes : List Byte

/-- Public attestation key (R431). -/
opaque attKey : List Byte

/-- The requester root digests installed before the first context starts, of which the first four count (R429). -/
opaque requesterRoots : List (BitVec 512)

/-- The boot nonce of a boot (R436). -/
opaque bootNonce : Nat → List Byte

end Sys2Proof.Config
end

