-- ==== Sys2Proof/Machine/Parts.lean ====
section
/-! DEFINITION. The parts of a rope, strand and fibre as State holds them (R12 to R33, R143 to R165, R362 to R375). -/

namespace Sys2Proof.Machine

/-- Who issues instructions: a strand of a rope, or the supervisor strand of a core (R161, R378). -/
inductive Who where
  | strand (r : RopeId) (sid : Nat)
  | sup (core : Nat)
  deriving DecidableEq, Repr

/-- The clause a path is inside of (R17, R33): header address, next word, words left, the set flags, the yield bit. -/
structure Clause where
  hpc   : DWord
  ip    : DWord
  left  : Nat
  first : Bool
  set0  : Option (BitVec 4)
  set1  : Option (BitVec 4)
  yield : Bool
  /-- The header is still to be fetched again: fetch has not answered a resumption at `ip` yet (R367). -/
  seek  : Bool := false
  deriving DecidableEq, Repr

/-- What a fibre waits for at its next header (R153, R157 to R160, R185, R341, R345, R495). -/
inductive Wait where
  /-- Arrived at barrier b; the reduced predicate goes to pD unless the form is plain (R184). -/
  | hbar (b : Nat) (pd : Option Num4)
  /-- Second signature of tie k waits for the round (R158). -/
  | tie (k : Nat)
  /-- NSLEEP at a word (R185): address, value, deadline (none: without one), predicate, and where the instruction stands. -/
  | sleep (a : DWord) (v : Word) (deadline : Option Nat) (pd : Num4) (ip hpc : DWord)
  /-- TLWAIT for value n of a timeline (R341). -/
  | tl (tl : Nat) (n : Word)
  /-- BARW on a barrier word (R345): the scratchpad address, owner rope slot, phase and predicate. -/
  | bar (rope : RopeId) (off : Nat) (ph : Nat) (pd : Num4)
  /-- GWAIT for faces of a grid slot (R495): slot, partition, faces, step, deadline. -/
  | grid (slot part : Nat) (faces : Nat) (t : Int) (deadline : Option Nat)
  /-- A wait that ended while a signal handler ran: the predicate and the register it gives are written when the fibre is back (R427). -/
  | over (pd : Option (Num4 × Bool)) (reg : Option (Nat × Word))
  deriving DecidableEq, Repr

/-- What a fibre slot holds (R148, R152). -/
inductive FSt where
  | empty
  | live
  /-- faulted, its replay entry not yet written (R375, R367). -/
  | parking
  /-- parked by the replay entry of this sequence number. -/
  | parked (seq : Word)
  deriving DecidableEq, Repr

/-- One fibre's state (R12, R370, R373, R374, R385). -/
structure Fibre where
  st     : FSt
  pc     : DWord
  preds  : BitVec 16
  win    : List Word
  pend   : BitVec 256
  /-- Registers that long-latency instructions of the current clause are to write: they stay a hazard until it ends (R21). -/
  own    : BitVec 256
  near   : List Word
  lat    : DWord
  fpctl  : Word
  fpstat : Word
  intctl : Word
  smask  : BitVec 16
  cnt    : Word
  kpc    : DWord
  kpreds : BitVec 16
  kcnt   : Word
  /-- What it issued from this number on, it issued after the knot (R368). -/
  kid    : Nat
  wm     : Word
  sm     : BitVec 16
  tm     : BitVec 16
  serial : Bool
  issued : Nat
  /-- The clause it stands inside of, when it was taken out of its path in mid-clause. -/
  cl     : Option Clause
  /-- Signal selected for it (R385). -/
  sel    : Option Nat
  wait   : Option Wait
  /-- Rotations its unlisted group has waited (R156). -/
  uage   : Nat
  /-- Latest Vis at device scope of its writes performed so far, and of its scratchpad writes (R235, R238). -/
  vis    : Nat
  /-- The word it resumes at after a replay does not hit a breakpoint again (R389). -/
  noBrk  : Bool
  /-- It stands at a branch target whose test the fetch fault of R86 put off: a word there that is no header is cause 10. -/
  atTgt  : Bool
  /-- Stopped at its header for a pre-emption (R394). -/
  stop   : Bool
  /-- What it retries was saved with its coil: the entry of a fault that it meets again is marked (R375). -/
  rtry   : Bool
  /-- Waits that signal handlers interrupted, the latest first: SIGRET takes one back (R427). -/
  stash  : List (Option Wait)
  deriving DecidableEq, Repr

/-- An empty slot (R148). -/
def Fibre.vacant : Fibre :=
  { st := .empty, pc := 0, preds := 0x8000, win := [], pend := 0, own := 0, near := List.replicate 8 0, lat := 0, fpctl := 0, fpstat := 0,
    intctl := 0, smask := 0, cnt := 0, kpc := 0, kpreds := 0x8000, kcnt := 0, kid := 0, wm := 0xFFFFFFFF, sm := 0xFFFF, tm := 0xFFFF,
    serial := false, issued := 0, cl := .none, sel := .none, wait := .none, uage := 0, vis := 0, noBrk := false,
    atTgt := false, stop := false, rtry := false, stash := [] }

/-- A fibre at rope start or at FORK: every register and predicate zero but p15, in a region that starts at `pc`
(R12, R148, R370). -/
def Fibre.start (size : Nat) (pc : DWord) : Fibre :=
  { Fibre.vacant with st := .live, pc := pc, win := List.replicate size 0, kpc := pc }

/-- One path-table entry (R151, R154) with the clause it is inside of. -/
structure Path where
  mask  : BitVec 32
  pc    : DWord
  count : Nat
  byRot : Bool
  cl    : Option Clause
  deriving DecidableEq, Repr

/-- A raised completion flag of one issued instruction: `left` operations still to complete (R18). -/
structure Due where
  tag  : Nat
  flag : Nat
  left : Nat
  deriving DecidableEq, Repr

/-- One strand (R151, R154, R18, R28, R162, R373). -/
structure Strand where
  fibres   : List Fibre
  cur      : Option Path
  others   : List Path
  flags    : List Nat
  due      : List Due
  quantum  : Word
  quantumP : Option Word
  srseed   : DWord
  srseedP  : Option DWord
  /-- Held stores issued since the strand's fibres last entered a region (R373). -/
  held     : Nat
  /-- YIELD has run in the clause: the quantum counts as spent at the next header (R89). -/
  spent    : Bool
  /-- Address and count of the current path where it has become empty (R154). -/
  gone     : Option (DWord × Nat)
  /-- Paths stalled at issue, by mask, each with the flag that stands at 63 (R19, R153). -/
  brim     : List (BitVec 32 × Nat)
  /-- First register of its windows in its partition's register file (R12, R161; log 69). -/
  base     : Nat
  /-- Active-set slot, none when pending (R162). -/
  slot     : Option Nat
  /-- GTIME at which it took its slot. -/
  since    : Nat
  /-- GTIME at which it became ready in the pending set. -/
  ready    : Option Nat
  /-- Debug halt (R390). -/
  halted   : Bool
  /-- The debugger steps this lane's fibre by one word (R390). -/
  grant    : Option Nat
  /-- A fault could not be written because the replay queue is full (R375). -/
  full     : Bool
  /-- Held at a stale GLD since this GTIME (R498). -/
  stale    : Option Nat
  /-- It last issued at this count of issues of its core; the least goes first by default (R162). -/
  last     : Nat
  /-- The clock cycle after that of its last issue: it issues at most once in a cycle (R162). -/
  nextC    : Nat
  deriving DecidableEq, Repr

/-- A strand of empty slots. -/
def Strand.init : Strand :=
  { fibres := List.replicate 32 Fibre.vacant, cur := .none, others := [], flags := List.replicate 12 0, due := [], quantum := 64,
    quantumP := .none, srseed := 0, srseedP := .none, held := 0, spent := false, gone := .none, brim := [], base := 0, slot := .none, since := 0, ready := .none, halted := false,
    grant := .none, full := false, stale := .none, last := 0, nextC := 0 }

/-- The origin of a lane's window in its partition's register file, of 1,024 registers for each lane (R12, R13; log 69). -/
def Strand.windowBase (st : Strand) (lane : Nat) : BitVec 15 := BitVec.ofNat 15 (1024 * lane + st.base)

/-- One hardware barrier (R159, R183, R184). The lists hold FIDs. -/
structure Hbar where
  opened   : Bool
  mask     : Nat
  expected : List Nat
  arrived  : List Nat
  /-- AND and OR of the predicate bits of the arrivals. -/
  band     : Bool
  bor      : Bool
  nextMask : Option Nat
  /-- Arrivals for the next round: FID, form, pD and predicate bit. -/
  defer    : List (Nat × HbarMode × Num4 × Bool)
  /-- Form, pD and predicate bit of the arrivals of this round. -/
  want     : List (Nat × HbarMode × Num4 × Bool)
  deriving DecidableEq, Repr

/-- A barrier between rounds. -/
def Hbar.init : Hbar :=
  { opened := false, mask := 0, expected := [], arrived := [], band := true, bor := false, nextMask := .none, defer := [], want := [] }

/-- A fault of a lane before it is written as a replay entry (R363, R365, R367). -/
structure Flt where
  cls  : FClass
  kind : RKind
  info : Word
  fva  : DWord
  rpc  : DWord
  deriving DecidableEq, Repr

/-- Lane registers saved with an AT entry (R366). -/
structure LaneBlk where
  lane : Nat
  near : List Word
  lat  : DWord
  deriving DecidableEq, Repr

/-- A replay entry (R364, R366). `op` is the engine operation of an ENGPARK entry. -/
structure Entry where
  seq    : Word
  ctx    : Nat
  rope   : RopeId
  sid    : Nat
  fmask  : BitVec 32
  cls    : FClass
  kind   : RKind
  info   : Word
  opnum  : Word
  tl     : Nat
  rtry   : Bool
  srl    : Bool
  fva    : DWord
  rpc    : DWord
  fpc    : DWord
  hpc    : DWord
  kpc    : DWord
  lanes  : List LaneBlk
  popped : Bool
  op     : Option Nat
  deriving DecidableEq, Repr

/-- Lanes that faulted together and whose entry is not yet written: an AT park waits for translation of earlier
operations, and any park waits for room in the queue (R363, R367, R375). -/
structure Parking where
  rope  : RopeId
  sid   : Nat
  mask  : BitVec 32
  flt   : Flt
  fpc   : DWord
  hpc   : DWord
  deriving DecidableEq, Repr

end Sys2Proof.Machine
end

