-- ==== Sys2Proof/Machine/MemParts.lean ====
section
/-! DEFINITION. The parts of the memory system as State holds them: locations, translations, cached copies, directory
entries, messages, pins, locks, windows and accesses in progress (R201 to R284). -/

namespace Sys2Proof.Machine

/-- Where a byte lives (R211). -/
inductive Loc where
  | hbm (pa : Nat)
  | host (pa : Nat)
  | peer (p a : Nat)
  deriving DecidableEq, Repr

/-- A permission copy of R206: Rd, W, X, S, N. -/
structure Perm where
  rd : Bool
  w : Bool
  x : Bool
  sup : Bool
  lent : Bool
  deriving DecidableEq, Repr

/-- Nothing is forbidden. -/
def Perm.all : Perm := ⟨true, true, true, false, false⟩

/-- A finished translation of one byte address: canonical context and VA (R216), location, mode, permissions. -/
structure Xl where
  cctx : Nat
  cva  : Nat
  loc  : Loc
  mode : Nat
  key  : Nat
  rd   : Bool
  w    : Bool
  x    : Bool
  sup  : Bool
  lent : Bool
  /-- What the canonical page itself allows, which the line's copies carry (R206); none where no leaf was consulted (R218). -/
  own  : Option Perm
  deriving DecidableEq, Repr

/-- A leaf translation held by a slice's translation unit (R212), with its mode 2 access counter (R215). -/
structure Tlb where
  slice : Nat
  ctx  : Nat
  page : Nat
  big  : Bool
  leaf : BitVec 128
  cnt  : Nat
  deriving DecidableEq, Repr

/-- A non-leaf entry held by a slice's translation unit (R212): the VA bits above its table's index, and the table. -/
structure NonLeaf where
  slice : Nat
  ctx   : Nat
  level : Nat
  pre   : Nat
  table : Nat
  deriving DecidableEq, Repr

/-- A remap filter entry (R217), with what its alias leaf allows (R216). -/
structure Remap where
  cluster : Nat
  ctx     : Nat
  page    : Nat
  cctx    : Nat
  cpage   : Nat
  perm    : Perm
  deriving DecidableEq, Repr

/-- A cluster's L1 copy of a line (R249, R255, R261). -/
structure Copy where
  cluster : Nat
  line    : LineId
  slot    : Nat
  cst     : Nat
  data    : List Byte
  dirty   : BitVec 128
  expiry  : Nat
  /-- In the victim buffer (R261). -/
  vb      : Bool
  /-- The victim buffer has surrendered the line (R262). -/
  surr    : Bool
  /-- None once PTINV.perm has dropped it (R214, R424). -/
  perm    : Option Perm
  /-- The way of its set, which is an L1 step of the slice's core (R203). -/
  way     : Nat
  /-- Permanent until INV (R251, SEAL). -/
  lasting : Bool
  /-- The access that waits for the WCT of its write-back (R283). -/
  wb      : Option Nat
  deriving DecidableEq, Repr

/-- A read-only copy beside L1 (R273). -/
structure RoCopy where
  cluster : Nat
  line    : LineId
  data    : List Byte
  deriving DecidableEq, Repr

/-- The 16 message types (R248). -/
inductive MType where
  | gets | getm | upgr | puts | putm | wbdata | atom | ack | fwds | fwdm | inv | wbgrant | datas | datam | update | timer
  deriving DecidableEq, Repr

/-- A message in flight (R248). -/
structure Flight where
  ty  : MType
  msg : Msg
  deriving DecidableEq, Repr

/-- An open transaction of a home line (R252): the entry's message and word, and what it still expects. -/
structure Txn where
  ty    : MType
  msg   : Msg
  entry : Nat
  acks  : Nat
  datas : Nat
  /-- Bytes gathered so far from the holders, with their mask (R260). -/
  gdata : List Byte
  gmask : Nat
  /-- It merges a privatised line; its message is served after it (R260). -/
  merge : Bool
  /-- The old bytes of an atomic performed as it opened (R251). -/
  old   : List Byte
  /-- Lanes whose writes at the requester's slice take its WCT (R234, R251). -/
  late  : List LaneId
  deriving DecidableEq, Repr

/-- A line in its home's L2 slice, with its directory entry (R204, R252, R257 to R260). -/
structure HomeLine where
  line   : LineId
  loc    : Loc
  key    : Nat
  slot   : Nat
  hstate : Nat
  ptrs   : List Nat
  coarse : Option Nat
  host   : Bool
  peers  : List Nat
  sealed : Bool
  /-- Latest WCT given (R234). -/
  wct    : Nat
  /-- Latest lease expiry recorded (R251). -/
  lease  : Nat
  txn    : Option Txn
  queue  : List Flight
  /-- Privatisation masks per cluster (R260). -/
  priv   : List (Nat × Nat)
  /-- Bytes of a peer-homed line that this device holds under mode 1 or 2, empty where it holds none (R477). -/
  rdata  : List Byte
  /-- It holds them writable, and a request for them is on its way (R477). -/
  rwrite : Bool
  rsent  : Bool
  /-- Its remote home serves it under direct-mode rules, with no copy recorded (R259, R477). -/
  rdir   : Bool
  /-- Lease expiry of the bytes held from the remote home; 0: none. -/
  rexp   : Nat
  /-- The bytes of a local line in L2, and whether they are newer than memory's (R204, R225). -/
  data   : List Byte
  dirty  : Bool
  /-- The permission copy of L2 (R206). -/
  perm   : Option Perm
  deriving DecidableEq, Repr

/-- A pinned line (R237): the pinning rope, whether the pin is of coil scope, its start, the bytes written under it,
and whether an outside access was refused during it. -/
structure Pin where
  cluster : Nat
  line    : LineId
  rope    : RopeId
  coil    : Bool
  start   : Nat
  wmask   : BitVec 128
  /-- Lanes whose writes it holds, for their Vis times. -/
  lanes   : List LaneId
  refused : Bool
  deriving DecidableEq, Repr

/-- A scratchpad mapping table entry (R219), with the rope it belongs to and the dirty mark of each line (R221). -/
structure Window where
  cluster : Nat
  idx     : Nat
  wb      : Bool
  vbase   : Nat
  ctx     : Nat
  klen    : Nat
  koff    : Nat
  core    : Nat
  rope    : RopeId
  dirty   : List Nat
  /-- Unmapping or saved: forwarded accesses receive Retry (R222, R397). -/
  closed  : Bool
  deriving DecidableEq, Repr

/-- What an access in progress does. -/
inductive AccKind where
  /-- LD of a width (R271). -/
  | ld (w : Width)
  /-- LDRO (R273). -/
  | ldro (w : Width)
  /-- ST (R272); the bytes stand in `data`. -/
  | st
  /-- ATOM or CAS with a result or without (R277, R279). -/
  | atom (r : AtomReq) (nr : Bool)
  /-- A result already known that has yet to land: LDS, ATOMS, GLD, engine numbers (R18). -/
  | land
  /-- A CWB or pushed line whose write-back is on its way, for its lane and others (R237, R283). -/
  | cwb (also : List LaneId)
  /-- A write of SHPW: its flag falls once its Vis has passed (R335). -/
  | shpw
  deriving DecidableEq, Repr

/-- One lane's memory access from its issue until nothing of it is outstanding (R18, R268, R371). -/
structure Access where
  id     : Nat
  lane   : LaneId
  ctx    : Nat
  va     : Nat
  size   : Nat
  kind   : AccKind
  /-- Destination: first window register, and how many (R266). -/
  wd     : Option (Nat × Nat)
  scope  : Scope
  order  : Order
  /-- Bytes to store, or the result once known. -/
  data   : List Byte
  /-- The result is known or the write is performed. -/
  done   : Bool
  xl     : Option Xl
  /-- The translation failed with this code (R210); the late fault is yet to be reported. -/
  xf     : Option Nat
  /-- The number of the flag it raised. -/
  tag    : Option Nat
  /-- A request for it is on its way. -/
  sent   : Bool
  /-- Store-queue entry (R371); none for anything but a held store. -/
  sq     : Option Nat
  /-- Where it faults to. -/
  fpc    : DWord
  hpc    : DWord
  /-- Its result is discarded when it lands (R368). -/
  void   : Bool
  /-- A predicate it writes when it lands (R343). -/
  pd     : Option (Num4 × Bool) := none
  deriving DecidableEq, Repr

/-- One decoded protocol table (R250): header fields and the defined entries by 16·state + message. -/
structure Table where
  nh     : Nat
  nc     : Nat
  lz     : Nat
  cinit  : Nat
  hinit  : Nat
  cread  : Nat
  cwrite : Nat
  cdirty : Nat
  home   : List (Nat × Nat)
  cache  : List (Nat × Nat)
  deriving DecidableEq, Repr

/-- A range-map entry (R245). -/
structure Range where
  base  : Nat
  limit : Nat
  lease : Nat
  slot  : Nat
  pe    : Bool
  valid : Bool
  deriving DecidableEq, Repr

end Sys2Proof.Machine
end

