-- ==== Sys2Proof/Machine/EngParts.lean ====
section
/-! DEFINITION. Engine operations as State holds them: shape records, tile controls, operations of the task table, the
copy channels, the matrix engine and the halo engine (R298 to R333, R491 to R494). -/

namespace Sys2Proof.Machine

/-- A shape record, read once at issue (R299, R300). -/
structure Shape where
  boxes  : List Nat
  fill   : Nat
  sbase  : Nat
  stride : List Nat
  dim    : List Nat
  rsv    : Bool
  scalei : Bool
  clip   : Bool
  swz    : Nat
  spad   : Bool
  rank   : Nat
  fmt    : Nat
  base   : Nat
  /-- Its index in the shape table. -/
  idx    : Nat
  deriving DecidableEq, Repr

/-- Tile controls as an operation captures them (R316, R317). -/
structure Tc where
  t3t  : Bool
  sc   : Bool
  cols : Nat
  rows : Nat
  fmt  : Nat
  deriving DecidableEq, Repr

/-- A barrier word's place: the rope that owns the scratchpad, and the offset (R310). -/
structure BarRef where
  rope : RopeId
  off  : Nat
  deriving DecidableEq, Repr

/-- A copy's fixed operands (R337 to R340). `src` is none for XFILL; `rows` holds the remapped rows of XGATH and XSCAT. -/
structure CopyOp where
  src   : Option Shape
  dst   : Shape
  srope : RopeId
  drope : RopeId
  cs    : List Int
  cd    : List Int
  scat  : Bool
  rows  : Option (List Int)
  red   : Option (RedOp × XredType × Bool)
  ro    : Bool
  /-- A refetch moves only these lines of its destination (R407). -/
  only  : Option (List Nat)
  cred  : Option BarRef
  deriving DecidableEq, Repr

/-- A tile operation's fixed operands (R347 to R354); tiles are named by number with the captured controls. -/
inductive TileOp where
  | tld (d : Nat) (tc : Tc) (sh : Shape) (rope : RopeId) (c : List Int)
  | tst (a : Nat) (tc : Tc) (sh : Shape) (rope : RopeId) (c : List Int)
  | tzero (d : Nat) (tc : Tc)
  | mma (na nb nacc sat acc16 : Bool) (d a b c : Nat) (td ta tb tq : Tc)
  | tew (op : TewOp) (sat : Bool) (d a b : Nat) (td ta tb : Tc)
  | tcvt (sat : Bool) (rc : Rc) (d a : Nat) (td ta : Tc) (seed : DWord) (ftz : Bool)
  | tred (op : TredOp) (d a : Nat) (td ta : Tc)
  | trow (d a : Nat) (td ta : Tc) (drow srow n : Nat)
  deriving DecidableEq, Repr

/-- A halo operation of GSTEP (R491 to R494): grid slot, partition, committed step, how many dimensions it has entered, the
faces whose strips wait (R493), and the face whose strip it is writing. -/
structure HaloOp where
  slot : Nat
  part : Nat
  step : Word
  dim  : Nat
  wait : List Nat
  cur  : Option Nat
  deriving DecidableEq, Repr

/-- What an operation does. -/
inductive OpKind where
  | copy (c : CopyOp)
  | tile (t : TileOp)
  | halo (h : HaloOp)
  deriving DecidableEq, Repr

/-- An engine instruction's operation before its number's issue to the engine: what a tie holds (R157, R330). -/
structure Pending where
  kind  : OpKind
  tl    : Nat
  num   : Word
  wrec  : Bool
  wait  : Option (BarRef × Bool)
  /-- The low and upper words of the instruction that fixed it (R330, R405). -/
  word  : BitVec 64 × BitVec 64
  shape : Nat
  /-- Strands owed a flag decrement, with the tag of the issue. -/
  owed  : List (Nat × Nat)
  deriving DecidableEq, Repr

/-- A second signature of a tie's round (R158): the fibre, the instruction it signs by (none: TIESGN), where that stands, and the
flag it raises when it signs. -/
structure Second where
  fid  : Nat
  ins  : Option Instr
  ip   : DWord
  next : DWord
  hpc  : DWord
  flag : Option (BitVec 4)
  /-- The fibre as it executed it: the instruction's operands are these, whatever a handler does meanwhile. -/
  fib  : Fibre
  deriving DecidableEq, Repr

/-- Where an operation stands (R306, R308, R315, R323). -/
inductive OpSt where
  /-- In the task table, not yet sent. -/
  | table
  /-- In its channel's queue, or taken by the sequencer or the halo engine. -/
  | queued
  | running
  /-- Parked at a translation fault with a replay entry (R308). -/
  | parked
  /-- Records still to be written, by their statuses: a full ring holds the operation (R314, R315). -/
  | held (statuses : List Nat)
  /-- The first of these records is written, and the ring's tail is still to pass it (R312). -/
  | posted (statuses : List Nat)
  deriving DecidableEq, Repr

/-- An engine operation from its issue to its completion (R307, R313, R323, R324). -/
structure Op where
  id     : Nat
  core   : Nat
  rope   : RopeId
  ctx    : Nat
  qent   : Nat
  rtag   : Word
  tl     : Nat
  num    : Word
  word   : BitVec 64 × BitVec 64
  /-- The lowest number that the same issue started on its timeline (R405). -/
  tag    : Word
  kind   : OpKind
  st     : OpSt
  wrec   : Bool
  wait   : Option (BarRef × Bool)
  shape  : Nat
  owed   : List (Nat × Nat)
  /-- Cursor: row and segment, or the step index of an MMA (R307, R321). -/
  crow   : Nat
  cseg   : Nat
  done   : Nat
  fva    : Nat
  /-- Fault code, with the access code of R365 above it. -/
  fcode  : Nat
  /-- Latest Vis of its global writes (R243). -/
  vis    : Nat
  /-- All of its writes are performed. -/
  fin    : Bool
  /-- GTIME of its last progress (R410). -/
  since  : Nat
  /-- It was parked when its coil was saved (R375). -/
  rtry   : Bool
  deriving DecidableEq, Repr

end Sys2Proof.Machine
end

