-- ==== Sys2Proof/Machine/RopeParts.lean ====
section
/-! DEFINITION. Ropes and cores as State holds them (R143 to R164, R188, R189, R306 to R323, R375 to R389). -/

namespace Sys2Proof.Machine

/-- A timeline counter (R243): last number issued, value, numbers completed above the value. -/
structure Tl where
  issued : Word
  value  : Word
  above  : List Word
  deriving DecidableEq, Repr

/-- A tie register (R157, R158); the sets hold FIDs. -/
structure Tie where
  expected : List Nat
  signed   : List Nat
  /-- The stochastic state of each signer as it signed (R52). -/
  seeds    : List (Nat × DWord)
  /-- The round's operation, with the number it will bear (R330, R331). -/
  pending  : Option Pending
  /-- Fibres blocked on a second signature, in issue order. -/
  second   : List Second
  deriving DecidableEq, Repr

/-- A tie before its first TIEDEF (R182). -/
def Tie.init : Tie := { expected := [], signed := [], seeds := [], pending := .none, second := [] }

/-- A rope (R146, R189). Scratchpad, tiles and side planes list their bytes that are not zero, by rising offset. -/
structure Rope where
  id      : RopeId
  ctx     : Nat
  qent    : Nat
  stage   : Nat
  /-- Linear coil number within its stage, and the coordinate triples (R144). -/
  coil    : Nat
  coilXyz : Nat × Nat × Nat
  ropeXyz : Nat × Nat × Nat
  /-- Index in its coil, the number of ropes of the coil, and its fibre count (R144, R327). -/
  ridx    : Nat
  nrope   : Nat
  nf      : Nat
  size    : Nat
  bidx    : Nat
  spadA   : Nat
  sramOff : Nat
  spad    : List Host.Cell
  ntiles  : Nat
  tiles   : List (List Host.Cell)
  planes  : List (List Host.Cell)
  tcs     : List Word
  hbars   : List Hbar
  ties    : List Tie
  tls     : List Tl
  strands : List Strand
  /-- Partition of strand 0 (R161). -/
  part    : Nat
  shapes  : Nat
  /-- Read-only staged scratchpad blocks with their operation (R340). -/
  staged  : List (Nat × Nat)
  stagers : List Op
  /-- Timelines whose engine was reset: its fibres receive ENGINE once they have stopped (R410). -/
  engSig  : Option Nat
  /-- The timelines that the frames of ENGINE name (R410). -/
  engInfo : Nat
  /-- The coil's strands are stopping since this GTIME (R394). -/
  stopping : Option Nat
  /-- The coil is halted or quiesced: nothing of it issues (R395, R425). -/
  halt    : Bool
  /-- Its coil is restored, and staged lines are still to be fetched again (R407). -/
  fetching : Bool
  /-- Steps of the core's array that it has taken still hold lines of L1: its strands wait until they have left (R202). -/
  crowd   : Bool
  /-- Its launch was killed (R149, R382). -/
  killed  : Bool
  /-- Latest Vis of the writes of its ended fibres: its completion is recorded after them (R193). -/
  vis     : Nat
  /-- It has ended, and only its scratchpad is kept until its coil has ended (R147, R150). -/
  ended   : Bool
  deriving DecidableEq, Repr

/-- A core (R306, R321, R323, R364, R375, R378, R389, R418, R448). -/
structure Core where
  no      : Nat
  rq      : List Entry
  seq     : Word
  parking : List Parking
  bka     : List DWord
  bkc     : List Word
  svflt   : Word
  sv      : Strand
  /-- RFT event bits 1 and 2 (R418). -/
  mailEv  : Bool
  tickEv  : Bool
  /-- GTIME of its last 100 µs tick (R418). -/
  tickAt  : Nat
  /-- The supervisor strand is blocked at RFT's target, and the events go to this destination (R418). -/
  rft     : Option Dst
  /-- A supervisor fault the service cores have yet to resolve (R376). -/
  svWait  : Option FaultInfo
  stopped : Bool
  /-- Fetch buffers: context, line and the bytes fetched (R26, R284). -/
  fetched : List (Nat × Nat × List Byte)
  /-- The service cores could not resolve a fault of SMOVR or SMOVW (R422). -/
  svNo    : Bool
  /-- They have resolved one, and its retry is still to succeed (R448). -/
  svTry   : Bool
  /-- The context of a HALTC that is under way, and what it has counted (R425). -/
  svHold  : Option (Nat × Nat)
  /-- Words its strands have issued, to order them (R162). -/
  issues  : Nat
  deriving DecidableEq, Repr

/-- The supervisor strand before it starts: lane 0 alone, 64 window registers (R378). -/
def Strand.sup (pc page : DWord) : Strand :=
  { Strand.init with
    fibres := { Fibre.start 64 pc with win := [page.setWidth 32, page.extractLsb' 32 32] ++ List.replicate 62 0, serial := true } ::
      List.replicate 31 Fibre.vacant,
    cur := some ⟨1, pc, 0, false, .none⟩ }

/-- A core at reset (R389, R378): nothing queued, breakpoints off, no supervisor code yet. -/
def Core.init (n : Nat) : Core :=
  { no := n, rq := [], seq := 0, parking := [], bka := List.replicate 4 0, bkc := List.replicate 4 0, svflt := 0, sv := Strand.init,
    mailEv := false, tickEv := false, tickAt := 0, rft := .none, svWait := .none, stopped := false, fetched := [], svNo := false, svTry := false, svHold := .none, issues := 0 }

end Sys2Proof.Machine
end

