-- ==== Sys2Proof/Machine/DevParts.lean ====
section
/-! DEFINITION. Contexts, launches and budgets as State holds them (R186 to R200, R245, R312, R382 to R385, R456, R459). -/

namespace Sys2Proof.Machine

/-- States of BOOTSTS (R454). -/
inductive BootSt where
  | reset | waitfw | verify | init | ready | halted
  deriving DecidableEq, Repr

/-- A disposition record (R384). -/
structure Disp where
  hpc   : DWord
  hmask : BitVec 16
  spreg : BitVec 8
  once  : Bool
  deriving DecidableEq, Repr

/-- Default action on a signal (R384). -/
def Disp.dflt : Disp := { hpc := 0, hmask := 0, spreg := 0, once := false }

/-- A budget class: limits and counters (R195). -/
structure Budget where
  cores : Nat
  hbm   : Nat
  power : Nat
  hbmC  : Nat
  powC  : Nat
  deriving DecidableEq, Repr

/-- Where a launch stands (R190, R198). -/
inductive LaunchSt where
  | queued
  /-- Waits for the members of its chip group since this GTIME (R198). -/
  | group (since : Nat)
  | running
  /-- Ends with this status once its running ropes have ended (R194, R200). -/
  | failing (status : Nat)
  deriving DecidableEq, Repr

/-- A launch queue entry (R186, R190, R459). -/
structure Launch where
  q      : Nat
  seq    : Word
  packet : List Byte
  st     : LaunchSt
  boff   : Nat
  /-- Coils dispatched so far, as stage and index. -/
  gone   : List (Nat × Nat)
  /-- Ropes ended so far. -/
  ended  : Nat
  /-- Coil indices this device takes on every stage (R198). -/
  lo     : Nat
  hi     : Nat
  /-- Members of the group that have reported ready, and that have reported their ropes ended (R198, R200). -/
  readyM : List Nat
  doneM  : List (Nat × Nat)
  /-- The device that accepted it, and the status that this one has settled for the whole group (R198, R200). -/
  boss   : Nat
  final  : Option Nat
  /-- It has opened on all members of its group (R198). -/
  opened : Bool
  deriving DecidableEq, Repr

/-- A hosted partition's step state (R485): committed step, valid-through and expired-before of each face, and the rope whose fibre
executed its latest GSTEP (R493). -/
structure GridPart where
  c    : Word
  vt   : List Word
  eb   : List Word
  rope : Option RopeId
  deriving DecidableEq, Repr

/-- A registered grid slot (R481, R483, R485, R488): the descriptor's address and bytes, peer and base of each partition, initial
step, the hosted partitions, and the latest step known to be committed by partitions at peers (R493). -/
structure Grid where
  slot  : Nat
  desc  : Nat
  bytes : List Byte
  map   : List (Nat × Nat)
  s0    : Word
  parts : List (Nat × GridPart)
  known : List (Nat × Word)
  deriving DecidableEq, Repr

/-- A file or socket handle (R462, R463). -/
structure Handle where
  no     : Nat
  socket : Bool
  deriving DecidableEq, Repr

/-- A saved coil (R398, R406): its area in the save region, what names it, its budget class, and its ropes as they stood, for what
an area has no field for (log 62). -/
structure Saved where
  qent  : Nat
  seq   : Word
  stage : Nat
  coil  : Nat
  area  : Nat
  len   : Nat
  cls   : Nat
  ropes : List Rope
  ops   : List Op
  /-- Its area was refused; it is read again when the context next becomes resident. -/
  bad   : Bool
  deriving DecidableEq, Repr

/-- What a management command under way waits for (R457): coils to be stopped and saved, ropes to end, or these before a scrub. -/
inductive CmdKind where
  | preempt (coil : Option Nat)
  | kill
  | end_
  deriving DecidableEq, Repr

/-- A management command whose result is still to be written (R457): context, result address, coils affected. -/
structure Cmd where
  kind : CmdKind
  ctx  : Nat
  res  : Nat
  n    : Nat
  deriving DecidableEq, Repr

/-- A stop of one coil under way or standing (R393 to R396, R425): since when, whether the coil is to be saved, whether it is
quiesced, and left in place for want of room (R401). -/
structure Stop where
  ctx   : Nat
  qent  : Nat
  stage : Nat
  coil  : Nat
  since : Nat
  save  : Bool
  quiet : Bool
  full  : Bool
  deriving DecidableEq, Repr

/-- A context (R456, R205, R245, R312, R382 to R385, R459, R488). -/
structure Context where
  no       : Nat
  desc     : Nat
  root     : Nat
  rmap     : Nat
  ring     : Nat
  ringn    : Nat
  /-- The counts of its ring are still to be written zero: no engine writes a record before (R312). -/
  ringNew  : Bool
  kslot    : Nat
  /-- Since when it is being scrubbed (R430). -/
  scrubAt  : Option Nat
  lquota   : Nat
  pid      : Word
  budgetA  : Nat
  rcpt     : Nat
  compl    : Nat
  msix     : Nat
  nonce    : BitVec 256
  dumpva   : Nat
  savebase : Nat
  savelen  : Nat
  resident : Bool
  /-- Killed by a signal or CTXCTL: it has no process until CTXEND (R457). -/
  dead     : Bool
  /-- It leaves residency once nothing of it is resident (R409). -/
  leaving  : Bool
  ranges   : List Range
  /-- A range map that is about to take effect: accesses to lines whose protocol it changes are refused meanwhile (R247). -/
  next     : Option (List Range)
  budgets  : List Budget
  queue    : List Launch
  nextSeq  : Word
  pending  : BitVec 16
  disps    : List Disp
  /-- Interval timer: next expiry and period (R383). -/
  timer    : Option (Nat × Nat)
  stopped  : Bool
  locks    : Nat
  saved    : List Saved
  grids    : List Grid
  handles  : List Handle
  /-- Stretches of pages lent by a SEND: first page, number of pages, and whether the payload has left (R464). -/
  lent     : List (Nat × Nat × Bool)
  /-- fva and info of posted signals that are pending, by signal number (R320, R382, R392). -/
  sinfo    : List (Nat × DWord × Word)
  /-- Results of calls already served, for fibres by completion index, strand and lane (R420: a call is not performed twice). -/
  answers  : List ((Nat × Nat × Nat) × Word)
  /-- Its process is being terminated with a core dump: the signal, and the entry that caused it (R382, R400). -/
  dying    : Option (Nat × Option (Nat × Word))
  deriving DecidableEq, Repr

/-- A chip group (R198, R199): members with their peer number and context, last generation started. -/
structure Group where
  no      : Nat
  members : List (Nat × Nat)
  last    : Word
  deriving DecidableEq, Repr

end Sys2Proof.Machine
end

