-- ==== Sys2Proof/Machine/FabParts.lean ====
section
/-! DEFINITION. The fabric, the evidence records and the outside world as State holds them (R428 to R436, R466 to R478). -/

namespace Sys2Proof.Machine

/-- Transaction kinds of R466. -/
inductive TxKind where
  | read | write | atomic | msg | rdrsp | wrrsp | atrsp | nak
  deriving DecidableEq, Repr

/-- Who repeats its accesses to lines at peers until they are answered (log 73): system software and the service cores, a lane of a rope
with the words it has issued (for itself and for what its strand fetches), an engine operation, a rope of a launch for its completion, a launch for what one of its coils depends on, a
call by its entry, a context. -/
inductive Doer where
  | sys
  | lane (l : LaneId) (issued : Nat)
  | op (id : Nat)
  | rope (r : RopeId) (qent bidx : Nat)
  | launch (ctx : Nat) (seq : Word) (stage coil : Nat)
  | call (core : Nat) (seq : Word)
  | ctx (no : Nat)
  deriving DecidableEq, Repr

/-- What waits for a transaction's response. -/
inductive TxFor where
  | acc (id : Nat)
  | op (id : Nat)
  | page (ctx vpage frame : Nat)
  /-- A line of the cache-locally mode (R477). -/
  | line (l : LineId)
  /-- An agent that repeats its access and takes the answer from `rbuf` (`State.agent`), with the context and VA it acts at. -/
  | agent (who : Doer) (ctx va : Nat)
  | none
  deriving DecidableEq, Repr

/-- A transaction this device sends (R466, R469). -/
structure Tx where
  tid  : Nat
  dst  : Nat
  kind : TxKind
  addr : Nat
  mask : BitVec 128
  data : List Byte
  atom : Option AtomReq
  cls  : Nat
  wct  : Nat
  what : TxFor
  /-- For a message of the cache-locally mode: lease expiry and protocol slot (log 67). -/
  exp  : Nat := 0
  slot : Nat := 0
  deriving DecidableEq, Repr

/-- A flit this device has queued or sent and that its peer has not acknowledged (R468, R470). -/
structure Flit where
  peer  : Nat
  bank  : Bool
  ctr   : Nat
  part  : Nat
  tx    : Tx
  sent  : Bool
  tries : Nat
  /-- An intermediate has refused it with BUSY: it goes in its own slot (R473). -/
  direct : Bool
  last  : Bool
  deriving DecidableEq, Repr

/-- The answer to a transaction of an agent that repeats its access: whose it is, what it answered, the bytes, and for a write or an
atomic the time at which it is visible. -/
structure RBuf where
  who  : Doer
  peer : Nat
  addr : Nat
  kind : TxKind
  data : List Byte
  vis  : Nat
  deriving DecidableEq, Repr

/-- A key bank of an association (R474, R475): key identity, flits sent and received, whether it is in use. -/
structure Bank where
  key  : Nat
  txc  : Nat
  rxc  : Nat
  live : Bool
  deriving DecidableEq, Repr

/-- A security association (R474 to R476). -/
structure Assoc where
  peer   : Nat
  b0     : Bank
  b1     : Bank
  kg     : Bool
  cached : Bool
  deriving DecidableEq, Repr

/-- A slot table (R472): one optional peer per slot. -/
abbrev SlotTab := List (Option Nat)

/-- A fabric configuration (R472). -/
structure FabCfg where
  retry   : Nat
  horizon : Nat
  tabs    : List SlotTab
  deriving DecidableEq, Repr

/-- The fabric side of the device (R471 to R478). -/
structure Fabric where
  retry   : Nat
  horizon : Nat
  /-- Slot tables of the fibres, 96 or none before the first FABCFG. -/
  tabs    : List SlotTab
  /-- Configuration not yet adopted, with the fibres that have yet to adopt it. -/
  next    : Option (FabCfg × List Nat)
  /-- Current slot of each fibre, and the flits it has sent in it. -/
  slots   : List (Nat × Nat × Nat)
  assocs  : List Assoc
  flits   : List Flit
  /-- Transactions whose response is outstanding. -/
  open_   : List Tx
  /-- Answers that agents have yet to take. -/
  rbuf    : List RBuf
  nextTid : Nat
  /-- Relayed transactions in arrival order (R473). -/
  relay   : List (TxKind × FabTx)
  /-- Protocol messages for peers that have left and whose answers are awaited. -/
  told    : List Nat
  dead    : List Nat
  dropped : Nat
  deriving DecidableEq, Repr

/-- Before any FABCFG (R472). -/
def Fabric.init : Fabric :=
  { retry := 8, horizon := 0, tabs := [], next := .none, slots := [], assocs := [], flits := [], open_ := [], rbuf := [], nextTid := 0, relay := [],
    told := [], dead := [], dropped := 0 }

/-- Key slot states (R428). -/
inductive KeySt where
  | empty | loaded | bound | scrubbing
  deriving DecidableEq, Repr

/-- A key slot: state, nonce, and an identity for the key that no path reads back (R428, R429). -/
structure KeySlot where
  no    : Nat
  st    : KeySt
  nonce : BitVec 256
  key   : Nat
  deriving DecidableEq, Repr

/-- A watched range (R433). -/
structure Watch where
  idx   : Nat
  base  : Nat
  limit : Nat
  ctx   : Nat
  kinds : Nat
  valid : Bool
  deriving DecidableEq, Repr

/-- A log batch (R436): its records of 32 bytes. -/
structure Batch where
  prev  : List Byte
  bseq  : Nat
  rseq0 : Nat
  recs  : List (List Byte)
  start : Nat
  deriving DecidableEq, Repr

/-- An inbound-map entry (R218, R430). -/
structure InEntry where
  frame : Nat
  ctx   : Nat
  page  : Nat
  scrub : Bool
  deriving DecidableEq, Repr

/-- An SPDM session (R429, R474). -/
structure Session where
  id     : Nat
  secure : Bool
  root   : BitVec 512
  peer   : Option Nat
  deriving DecidableEq, Repr

/-- What the device sends to the outside, in order (R454, R461, R457, R452, R466). -/
inductive Out where
  | msix (vector : Nat)
  | refusedArea (ctx area off : Nat)
  | result (addr : Nat) (status value : Nat)
  | answer (tag : Nat) (data : List Byte)
  | abort (tag : Nat)
  | retry (tag : Nat)
  | unsupported (tag : Nat)
  | submit (code : Nat)
  | command (code : Nat)
  | hostReq (acc pa : Nat) (data : List Byte)
  | fab (tx : Tx)
  | relay (kind : TxKind) (dst src tid : Nat)
  | busy (src tid : Nat)
  | linkCtl (peer : Nat) (bank : Bool) (ctr : Nat) (resend : Bool)
  | keyStatus (code : Nat)
  | measure (idx : Nat) (digest : List Byte)
  | serviceReq (core : Nat) (what : Nat)
  | debug (what : Nat)
  | call (core : Nat) (seq : Word) (num : Nat)
  | wrote (ctx handle : Nat) (data : List Byte)
  deriving DecidableEq, Repr

end Sys2Proof.Machine
end

