-- ==== Sys2Proof/Machine/State.lean ====
section
/-! DEFINITION. The machine's state as plain data, the reasons a step stops, and the state after reset (R454). -/

namespace Sys2Proof.Machine

/-- The whole device (R12 to R500). Lists keyed by a number hold at most one entry per number. -/
structure State where
  -- device and boot (R451 to R455, R5, R10, R197)
  personality : Personality
  boot        : BootSt
  bootErr     : Nat
  fwaddr      : DWord
  fwlen       : Word
  fwBytes     : List Byte
  fwImage     : Option FwImage
  bootNonce   : Nat
  chip        : Nat
  gtime       : Nat
  share       : Nat
  hot         : Bool
  thermal     : Bool
  power       : Nat
  errCount    : List (Nat × Nat)
  correctable : Nat
  -- memory (R201 to R284)
  hbm         : List Host.Cell
  hbmKey      : List (Nat × Nat)
  host        : List Host.Cell
  svMem       : List Host.Cell
  hostUp      : Bool
  tlb         : List Tlb
  nonleaf     : List NonLeaf
  remap       : List Remap
  migreq      : List (Nat × Nat)
  inbound     : List InEntry
  copies      : List Copy
  roCopies    : List RoCopy
  homes       : List HomeLine
  msgs        : List Flight
  pins        : List Pin
  refused     : List LineId
  locks       : List (Nat × LineId)
  windows     : List Window
  accs        : List Access
  fwds        : List FwdReq
  tables      : List (Nat × Table)
  tabImages   : List (Nat × List Byte)
  sealedW     : List (Nat × Nat)
  wbWct       : List (Nat × Nat)
  -- work (R143 to R200, R298 to R333, R362 to R390, R456)
  ropes       : List Rope
  cores       : List Core
  ops         : List Op
  ctxs        : List Context
  groups      : List Group
  stops       : List Stop
  cmds        : List Cmd
  /-- Management commands written and not yet run, oldest first (R457). -/
  cmdq        : List Instr
  /-- MSI-X vectors whose mask bit is clear, and those others whose pending bit is set (R461; log 77). -/
  msixOpen    : List Nat
  msixPend    : List Nat
  rrCtx       : Nat
  debugger    : Bool
  discarded   : Nat
  -- keys and evidence (R428 to R439)
  keys        : List KeySlot
  sessions    : List Session
  receipts    : Nat
  watches     : List Watch
  batch       : Option Batch
  batches     : List Batch
  rseq        : Nat
  bseq        : Nat
  prevDig     : List Byte
  lastPrev    : List Byte
  -- fabric (R466 to R478)
  fab         : Fabric
  -- counters of the memory system
  nextId      : Nat
  -- the model's own fields (log 4, 5, 7)
  sched       : List Nat
  ticks       : List Nat
  picks       : List Nat
  inputs      : List Instr
  agent       : Doer
  again       : Bool
  still       : Bool
  freeCtr     : Nat
  cur         : Option Who
  out         : List Out
  deriving DecidableEq, Repr

/-- Why the machine stops with a fault. -/
inductive Fault where
  /-- Raised by SCRUB where its receipt is to go to a local physical address that HBM does not have (R201, R430, R456). Safe: the
  machine stops where the spec gives no such byte. -/
  | noSuchAddress (pa : Nat)
  deriving DecidableEq, Repr

/-- Why the machine refuses a step. -/
inductive Refusal where
  /-- No meaning yet. Safe. -/
  | notModelled (mnemonic : String)
  deriving DecidableEq, Repr

/-- The device at power-up, with the values R454 states for RESET and the values the log names for the rest (log 2 to 5). -/
def State.reset : State :=
  { personality := .endpoint, boot := .reset, bootErr := 0, fwaddr := 0, fwlen := 0, fwBytes := [], fwImage := none, bootNonce := 0,
    chip := 1, gtime := 0, share := 16, hot := false, thermal := false, power := 0, errCount := [], correctable := 0,
    hbm := [], hbmKey := [], host := [], svMem := [], hostUp := true, tlb := [], nonleaf := [], remap := [], migreq := [], inbound := [],
    copies := [], roCopies := [], homes := [], msgs := [], pins := [], refused := [], locks := [], windows := [], accs := [], fwds := [], tables := [],
    tabImages := [], sealedW := [], wbWct := [], ropes := [], cores := [], ops := [], ctxs := [], groups := [], stops := [], cmds := [], cmdq := [], msixOpen := [], msixPend := [], rrCtx := 0, debugger := false, discarded := 0,
    keys := [⟨0, .loaded, 0, 0⟩], sessions := [], receipts := 0, watches := [], batch := none, batches := [], rseq := 0, bseq := 0,
    prevDig := [], lastPrev := [], fab := Fabric.init, nextId := 1, sched := [], ticks := [], picks := [], inputs := [], agent := .sys, again := false, still := false, freeCtr := 0, cur := none, out := [] }

end Sys2Proof.Machine
end

