-- ==== Sys2Proof/Machine/Store.lean ====
section
/-! DEFINITION. Byte cells in canonical form, lists keyed by a number, and the access functions of State's parts. -/

namespace Sys2Proof.Machine

/-- What an address that no cell lists reads as: zero (R454; log 9). -/
def cellDefault : Byte := 0

/-- The byte of an address. -/
def cellRead : List Host.Cell → Nat → Byte
  | [], _ => cellDefault
  | (b, v) :: l, a => if a = b then v else if a < b then cellDefault else cellRead l a

/-- One byte written, the canonical form kept: rising addresses, no entry equal to what an unlisted address reads as. -/
def cellWrite : List Host.Cell → Nat → Byte → List Host.Cell
  | [], a, v => if v = cellDefault then [] else [(a, v)]
  | (b, w) :: l, a, v =>
    if a < b then if v = cellDefault then (b, w) :: l else (a, v) :: (b, w) :: l
    else if a = b then if v = cellDefault then l else (b, v) :: l
    else (b, w) :: cellWrite l a v

/-- An event whose rule does not let it happen does not happen, and a word that no strand stands at is not issued: nothing changes but
the model's note that it was so (log 50). -/
def State.noEvent (s : State) : Host.Outcome State Fault Refusal := .next { s with still := true }

/-- n bytes from address a. -/
def cellsRead (l : List Host.Cell) (a : Nat) : Nat → List Byte
  | 0 => []
  | n + 1 => cellRead l a :: cellsRead l (a + 1) n

/-- Bytes written from address a. -/
def cellsWrite (l : List Host.Cell) (a : Nat) : List Byte → List Host.Cell
  | [] => l
  | b :: bs => cellsWrite (cellWrite l a b) (a + 1) bs

/-- All addresses of a list of cells are at or above a bound, they rise, and no entry is the default. -/
def Memory.wfFrom : Nat → List Host.Cell → Bool
  | _, [] => true
  | lo, (a, v) :: l => decide (lo ≤ a) && decide (v ≠ cellDefault) && Memory.wfFrom (a + 1) l

/-- The canonical form of a memory. -/
def Memory.wf (l : List Host.Cell) : Bool := Memory.wfFrom 0 l

/-- The element of a key replaced, or appended where there is none. -/
def upsert {α κ : Type} [DecidableEq κ] (key : α → κ) (x : α) : List α → List α
  | [] => [x]
  | y :: l => if key y = key x then x :: l else y :: upsert key x l

/-- The first element with a key. -/
def lookupBy {α κ : Type} [DecidableEq κ] (key : α → κ) (k : κ) : List α → Option α
  | [] => none
  | y :: l => if key y = k then some y else lookupBy key k l

/-- Elements with a key removed. -/
def eraseBy {α κ : Type} [DecidableEq κ] (key : α → κ) (k : κ) (l : List α) : List α := l.filter fun x => decide (key x ≠ k)

/-- An element put into a list that rises by a measure, after its equals. -/
def insBy {α : Type} (m : α → Nat) (x : α) : List α → List α
  | [] => [x]
  | y :: l => if m x < m y then x :: y :: l else y :: insBy m x l

/-- A list sorted by a measure, stably. -/
def sortBy {α : Type} (m : α → Nat) (l : List α) : List α := l.foldl (fun acc x => insBy m x acc) []

/-- A core's state. -/
def State.core (s : State) (n : Nat) : Core := (lookupBy Core.no n s.cores).getD (Core.init n)

/-- A core's state replaced. -/
def State.setCore (s : State) (c : Core) : State := { s with cores := upsert Core.no c s.cores }

/-- A resident rope. -/
def State.rope? (s : State) (r : RopeId) : Option Rope := lookupBy Rope.id r s.ropes

/-- A rope's state replaced. -/
def State.setRope (s : State) (r : Rope) : State := { s with ropes := upsert Rope.id r s.ropes }

/-- A context. -/
def State.ctx? (s : State) (n : Nat) : Option Context := lookupBy Context.no n s.ctxs

/-- A context's state replaced. -/
def State.setCtx (s : State) (c : Context) : State := { s with ctxs := upsert Context.no c s.ctxs }

/-- An engine operation. -/
def State.op? (s : State) (id : Nat) : Option Op := lookupBy Op.id id s.ops

/-- An engine operation replaced. -/
def State.setOp (s : State) (o : Op) : State := { s with ops := upsert Op.id o s.ops }

/-- An access in progress. -/
def State.acc? (s : State) (id : Nat) : Option Access := lookupBy Access.id id s.accs

/-- An access in progress replaced. -/
def State.setAcc (s : State) (a : Access) : State := { s with accs := upsert Access.id a s.accs }

/-- An access taken off the list. -/
def State.dropAcc (s : State) (id : Nat) : State := { s with accs := eraseBy Access.id id s.accs }

/-- The strand of an issuer: a rope's strand, or a core's supervisor strand. -/
def State.strand (s : State) : Who → Strand
  | .strand r sid => match s.rope? r with
    | some rp => rp.strands.getD sid Strand.init
    | none => Strand.init
  | .sup c => (s.core c).sv

/-- A strand replaced. -/
def State.setStrand (s : State) (w : Who) (st : Strand) : State :=
  match w with
  | .strand r sid => match s.rope? r with
    | some rp => s.setRope { rp with strands := rp.strands.set sid st }
    | none => s
  | .sup c => s.setCore { s.core c with sv := st }

/-- A fibre of a strand. -/
def Strand.fibre (st : Strand) (l : Nat) : Fibre := st.fibres.getD l Fibre.vacant

/-- A fibre of a strand replaced. -/
def Strand.setFibre (st : Strand) (l : Nat) (f : Fibre) : Strand := { st with fibres := st.fibres.set l f }

/-- A fibre of an issuer. -/
def State.fibre (s : State) (w : Who) (l : Nat) : Fibre := (s.strand w).fibre l

/-- A fibre of an issuer replaced. -/
def State.setFibre (s : State) (w : Who) (l : Nat) (f : Fibre) : State := s.setStrand w ((s.strand w).setFibre l f)

/-- The core of an issuer. -/
def Who.core : Who → Nat
  | .strand r _ => r.core
  | .sup c => c

/-- The supervisor strand is the issuer: it runs in supervisor mode (R70, R378). -/
def Who.isSup : Who → Bool
  | .sup _ => true
  | .strand _ _ => false

/-- The lane's name for an issuer; the supervisor strand stands as lane 0 of rope slot 128, which no rope has (R364). -/
def Who.lane (w : Who) (l : Nat) : LaneId :=
  match w with
  | .strand r sid => ⟨r, sid, l⟩
  | .sup c => ⟨⟨c, 128⟩, 0, l⟩

/-- The issuer of a lane's name. -/
def laneWho (l : LaneId) : Who := if l.rope.slot = 128 then .sup l.rope.core else .strand l.rope l.sid

/-- The cluster of a core (R30). -/
def clusterOf (core : Nat) : Nat := core / 8

/-- Context of an issuer; none for the supervisor strand. -/
def State.ctxOf (s : State) (w : Who) : Option Nat :=
  match w with
  | .strand r _ => (s.rope? r).map Rope.ctx
  | .sup _ => none

/-- An operation in progress is numbered. -/
def State.fresh (s : State) : Nat × State := (s.nextId, { s with nextId := s.nextId + 1 })

/-- A free value drawn (log 7). -/
def State.free (s : State) : BitVec 64 × State := (Config.freeValue s.freeCtr, { s with freeCtr := s.freeCtr + 1 })

/-- A choice drawn from the list of choices; 0 where the list is empty (log 4). -/
def State.pick (s : State) : Nat × State := (s.picks.headD 0, { s with picks := s.picks.tail })

/-- Something sent to the outside. -/
def State.send (s : State) (o : Out) : State := { s with out := s.out ++ [o] }

/-- A fibre has a write that becomes visible at time t (R235). -/
def Fibre.seen (f : Fibre) (t : Nat) : Fibre := { f with vis := max f.vis t }

/-- A lane's latest visible time raised. -/
def State.raiseVis (s : State) (l : LaneId) (t : Nat) : State :=
  s.setFibre (laneWho l) l.lane ((s.fibre (laneWho l) l.lane).seen t)

end Sys2Proof.Machine
end

