-- ==== Sys2Proof/Machine/Tables.lean ====
section
/-! DEFINITION. Protocol tables (R250, R251), the six shipped ones (R255; log 15), and the choice of a line's table (R246). -/

namespace Sys2Proof.Machine

/-- Message type numbers (R248). -/
def MType.num : MType → Nat
  | .gets => 0 | .getm => 1 | .upgr => 2 | .puts => 3 | .putm => 4 | .wbdata => 5 | .atom => 6 | .ack => 7
  | .fwds => 8 | .fwdm => 9 | .inv => 10 | .wbgrant => 11 | .datas => 12 | .datam => 13 | .update => 14 | .timer => 15

/-- A defined transition entry: next state, WCT rule, action bits (R251). -/
def tent (next wct : Nat) (acts : List Nat) : Nat := 2 ^ 31 + next * 2 ^ 27 + wct * 2 ^ 24 + maskOf acts

/-- Next state of an entry. -/
def entNext (e : Nat) : Nat := bits e 27 4

/-- WCT rule of an entry. -/
def entWct (e : Nat) : Nat := bits e 24 3

/-- Action bit of an entry. -/
def entAct (e i : Nat) : Bool := bit e i

/-- Entries of one state from (message type, entry). -/
def trow (s : Nat) (l : List (MType × Nat)) : List (Nat × Nat) := l.map fun p => (16 * s + p.1.num, p.2)

/-- Slot 0: INV (R255). The home entry for S and GETM is the word of R255's example. -/
def tableInv : Table :=
  { nh := 4, nc := 4, lz := 0, cinit := 0, hinit := 0, cread := 0xE, cwrite := 0xC, cdirty := 0xC,
    home :=
      trow 0 [(.gets, tent 1 0 [0, 2, 7]), (.getm, tent 2 1 [0, 3, 9]), (.upgr, tent 2 1 [0, 3, 9]), (.puts, tent 0 0 [8]),
        (.putm, tent 0 0 [8, 11]), (.wbdata, tent 0 1 [1, 8]), (.atom, tent 0 1 [14]), (.ack, tent 0 0 [])] ++
      trow 1 [(.gets, tent 1 0 [2, 7]), (.getm, tent 2 2 [3, 4, 9]), (.upgr, tent 2 2 [3, 4, 9]), (.puts, tent 1 0 [8]),
        (.putm, tent 1 0 [8, 11]), (.wbdata, tent 1 2 [1, 8]), (.atom, tent 0 2 [4, 10, 14]), (.ack, tent 1 0 [])] ++
      trow 2 [(.gets, tent 1 0 [5, 7]), (.getm, tent 2 2 [6, 9]), (.upgr, tent 2 2 [6, 9]), (.puts, tent 2 0 []),
        (.putm, tent 0 0 [8, 11]), (.wbdata, tent 2 1 [1]), (.atom, tent 0 2 [6, 10, 14]), (.ack, tent 2 0 [])] ++
      trow 3 [(.gets, tent 0 0 [15]), (.getm, tent 3 1 [15]), (.upgr, tent 3 1 [15]), (.puts, tent 3 0 []), (.putm, tent 3 0 [8, 11]),
        (.wbdata, tent 3 1 [1]), (.atom, tent 0 2 [14, 15]), (.ack, tent 3 0 [])],
    cache :=
      trow 0 [(.inv, tent 0 0 [16]), (.datas, tent 1 0 []), (.datam, tent 2 0 []), (.wbgrant, tent 0 0 [18])] ++
      trow 1 [(.inv, tent 0 0 [16, 19]), (.datas, tent 1 0 []), (.datam, tent 2 0 [])] ++
      trow 2 [(.fwds, tent 1 0 [17, 18, 20]), (.fwdm, tent 0 0 [17, 18, 19]), (.inv, tent 0 0 [16, 18, 19]), (.datas, tent 2 0 []),
        (.datam, tent 2 0 [])] ++
      trow 3 [(.fwdm, tent 0 0 [18, 19]), (.inv, tent 0 0 [16, 18, 19]), (.datam, tent 3 0 [])] }

/-- Slot 1: LEASE. -/
def tableLease : Table :=
  { nh := 2, nc := 2, lz := 1, cinit := 0, hinit := 0, cread := 2, cwrite := 0, cdirty := 0,
    home := [0, 1].flatMap fun h =>
      trow h [(.gets, tent 1 0 [2, 13]), (.getm, tent h 3 [1]), (.upgr, tent h 3 [1]), (.puts, tent h 0 []), (.wbdata, tent h 3 [1]),
        (.atom, tent h 3 [14]), (.ack, tent h 0 [])],
    cache :=
      trow 0 [(.datas, tent 1 0 []), (.inv, tent 0 0 [16])] ++
      trow 1 [(.datas, tent 1 0 []), (.timer, tent 0 0 [19]), (.inv, tent 0 0 [16, 19])] }

/-- Slot 2: UPD. -/
def tableUpd : Table :=
  { nh := 2, nc := 2, lz := 0, cinit := 0, hinit := 0, cread := 2, cwrite := 0, cdirty := 0,
    home := [0, 1].flatMap fun h =>
      trow h [(.gets, tent 1 0 [2, 7]), (.getm, tent h 4 [1, 12]), (.upgr, tent h 4 [1, 12]), (.puts, tent h 0 [8]),
        (.wbdata, tent h 4 [1, 12]), (.atom, tent h 4 [12, 14]), (.ack, tent h 0 [])],
    cache :=
      trow 0 [(.datas, tent 1 0 []), (.update, tent 0 0 [16]), (.inv, tent 0 0 [16])] ++
      trow 1 [(.datas, tent 1 0 []), (.update, tent 1 0 [16, 21]), (.inv, tent 0 0 [16, 19])] }

/-- Slot 3: MIG. -/
def tableMig : Table :=
  { nh := 2, nc := 2, lz := 0, cinit := 0, hinit := 0, cread := 2, cwrite := 2, cdirty := 2,
    home :=
      trow 0 [(.gets, tent 1 5 [0, 3, 9]), (.getm, tent 1 5 [0, 3, 9]), (.upgr, tent 1 5 [0, 3, 9]), (.puts, tent 0 0 [8]),
        (.putm, tent 0 0 [8, 11]), (.wbdata, tent 0 5 [1, 8]), (.atom, tent 0 5 [14]), (.ack, tent 0 0 [])] ++
      trow 1 [(.gets, tent 1 5 [6, 9]), (.getm, tent 1 5 [6, 9]), (.upgr, tent 1 5 [6, 9]), (.puts, tent 1 0 []),
        (.putm, tent 0 0 [8, 11]), (.wbdata, tent 1 5 [1]), (.atom, tent 0 5 [6, 10, 14]), (.ack, tent 1 0 [])],
    cache :=
      trow 0 [(.datam, tent 1 0 []), (.inv, tent 0 0 [16])] ++
      trow 1 [(.datam, tent 1 0 []), (.fwdm, tent 0 0 [17, 18, 19]), (.inv, tent 0 0 [16, 18, 19])] }

/-- Slot 4: WONCE. -/
def tableWonce : Table :=
  { nh := 2, nc := 3, lz := 0, cinit := 0, hinit := 0, cread := 6, cwrite := 0, cdirty := 0,
    home :=
      trow 0 [(.gets, tent 0 0 [2, 7]), (.getm, tent 1 6 [1, 4, 22]), (.upgr, tent 1 6 [1, 4, 22]), (.puts, tent 0 0 [8]),
        (.wbdata, tent 1 6 [1, 4, 22]), (.atom, tent 1 6 [4, 14, 22]), (.ack, tent 0 0 [])] ++
      trow 1 [(.gets, tent 1 0 [2, 22]), (.getm, tent 1 6 [1, 4, 22]), (.upgr, tent 1 6 [1, 4, 22]), (.puts, tent 1 0 [8]),
        (.wbdata, tent 1 6 [1, 4, 22]), (.atom, tent 1 6 [4, 14, 22]), (.ack, tent 1 0 [])],
    cache :=
      trow 0 [(.datas, tent 1 0 []), (.inv, tent 0 0 [16])] ++
      trow 1 [(.datas, tent 1 0 []), (.inv, tent 0 0 [16, 19])] ++
      trow 2 [(.datas, tent 2 0 []), (.inv, tent 0 0 [16, 19])] }

/-- Slot 5: PRIV. -/
def tablePriv : Table :=
  { nh := 1, nc := 3, lz := 0, cinit := 0, hinit := 0, cread := 6, cwrite := 6, cdirty := 4,
    home := trow 0 [(.gets, tent 0 0 [2]), (.getm, tent 0 1 [3]), (.upgr, tent 0 1 [3]), (.puts, tent 0 0 []), (.wbdata, tent 0 1 [1]),
      (.atom, tent 0 1 [14]), (.ack, tent 0 0 [])],
    cache :=
      trow 0 [(.datas, tent 1 0 []), (.datam, tent 1 0 []), (.inv, tent 0 0 [16])] ++
      trow 1 [(.datas, tent 1 0 []), (.datam, tent 1 0 []), (.inv, tent 0 0 [16, 19])] ++
      trow 2 [(.datas, tent 2 0 []), (.datam, tent 2 0 []), (.inv, tent 0 0 [16, 18, 19])] }

/-- The table of a slot; an empty slot is never named by a valid range (R247). -/
def State.table (s : State) (slot : Nat) : Table :=
  match slot with
  | 0 => tableInv
  | 1 => tableLease
  | 2 => tableUpd
  | 3 => tableMig
  | 4 => tableWonce
  | 5 => tablePriv
  | n => (lookupBy Prod.fst n s.tables).elim tableInv Prod.snd

/-- A home entry. -/
def Table.homeEntry (t : Table) (st : Nat) (m : MType) : Option Nat := (lookupBy Prod.fst (16 * st + m.num) t.home).map Prod.snd

/-- A cache entry. -/
def Table.cacheEntry (t : Table) (st : Nat) (m : MType) : Option Nat := (lookupBy Prod.fst (16 * st + m.num) t.cache).map Prod.snd

/-- Loads hit in a cache state (R249). -/
def Table.reads (t : Table) (st : Nat) : Bool := bit t.cread st

/-- Writes are performed at the slice in a cache state (R249). -/
def Table.writes (t : Table) (st : Nat) : Bool := bit t.cwrite st

/-- A cache state holds dirty bytes (R250). -/
def Table.isDirty (t : Table) (st : Nat) : Bool := bit t.cdirty st

/-- The entry of a range map for a line: the lowest-numbered valid one whose range holds it (R246). -/
def rangeIn (rs : List Range) (l : LineId) : Option Range :=
  rs.find? fun r => r.valid && decide (r.base ≤ l.line / 512 ∧ l.line / 512 ≤ r.limit)

/-- The slot that a range map gives a line; 0 where no entry covers it (R246). -/
def slotIn (rs : List Range) (l : LineId) : Nat := ((rangeIn rs l).map Range.slot).getD 0

/-- The range-map entry of a line (R246). -/
def State.rangeOf (s : State) (l : LineId) : Option Range := (s.ctx? l.ctx).bind fun c => rangeIn c.ranges l

/-- The protocol of a line of this device is being changed: its accesses are refused until it has been (R247). -/
def State.switching (s : State) (l : LineId) : Bool :=
  match s.ctx? l.ctx with
  | some c => c.next.any fun rs => decide (slotIn rs l ≠ slotIn c.ranges l)
  | none => false

/-- The table slot of a line: its range's, or for a line of a peer the one its remote home has selected (R246). -/
def State.slotOf (s : State) (l : LineId) : Nat :=
  let own := ((s.rangeOf l).map Range.slot).getD 0
  match lookupBy HomeLine.line l s.homes with
  | some h => match h.loc with
    | .peer _ _ => h.slot
    | _ => own
  | none => own

/-- The lease of a line in ns (R245). -/
def State.leaseOf (s : State) (l : LineId) : Nat := 16 * ((s.rangeOf l).map Range.lease).getD 0

/-- Privatisation is enabled for a line of this device: for a peer's line its home's own map alone counts (R245, R246, R260). -/
def State.peOf (s : State) (l : LineId) : Bool :=
  match (lookupBy HomeLine.line l s.homes).map HomeLine.loc with
  | some (.peer _ _) => false
  | _ => ((s.rangeOf l).map Range.pe).getD false

/-! ### Where a line may live (R203, R204) -/

/-- The home slice of a line (R204). -/
def sliceOf (l : LineId) : Nat := (l.line + l.ctx) % 96

/-- The set of a line in its home slice: the spec gives their number and not the index (log 72). -/
def l2Set (l : LineId) : Nat := (l.line + l.ctx) / 96 % 2048

/-- The core of its cluster in whose L1 slice a line lives: VA[9:7] xor VA[12:10] xor VA[15:13] (R203). -/
def l1Slice (l : LineId) : Nat := (l.line % 8) ^^^ (l.line / 8 % 8) ^^^ (l.line / 64 % 8)

/-- The set of a line in its L1 slice: VA[18:10] (R203). -/
def l1Set (l : LineId) : Nat := l.line / 8 % 512

end Sys2Proof.Machine
end

