-- ==== Sys2Proof/Machine/Phys.lean ====
section
/-! DEFINITION. Bytes below the caches: HBM under its keys, host memory, a peer's line held here; atomics on bytes (R225,
R227, R277 to R279). -/

namespace Sys2Proof.Machine

/-- The key identity that a slot holds; 0 where the slot is empty or unknown (R428). -/
def State.keyOf (s : State) (slot : Nat) : Nat := (lookupBy KeySlot.no slot s.keys).elim 0 KeySlot.key

/-- A local physical address exists (R201). -/
def hbmOk (pa : Nat) : Bool := decide (pa < 0x18000000000)

/-- The key identity that an HBM line was written under (R225). -/
def State.tagOf (s : State) (pa : Nat) : Nat := (lookupBy Prod.fst (pa / 128) s.hbmKey).elim 0 Prod.snd

/-- n bytes of HBM within one line, read under a key identity: other bytes than were written where the key differs (R227). -/
def State.hbmRead (s : State) (key pa n : Nat) : List Byte :=
  let t := s.tagOf pa
  if t = key then cellsRead s.hbm pa n
  else (List.range n).map fun i => Config.xtsByte t key (pa + i) (cellsRead s.hbm (pa / 128 * 128) 128)

/-- Bytes written to HBM within one line under a key identity; the whole line is then under that key (R225, R227). -/
def State.hbmWrite (s : State) (key pa : Nat) (b : List Byte) : State :=
  if s.tagOf pa = key then { s with hbm := cellsWrite s.hbm pa b }
  else
    let base := pa / 128 * 128
    let line := patch (s.hbmRead key base 128) (pa - base) b
    { s with hbm := cellsWrite s.hbm base line,
             hbmKey := if key = 0 then eraseBy Prod.fst (pa / 128) s.hbmKey else upsert Prod.fst (pa / 128, key) s.hbmKey }

/-- Bytes of HBM read directly under slot 0's key: firmware structures and tables that no inbound entry names. -/
def State.rawRead (s : State) (pa n : Nat) : List Byte := (List.range n).flatMap fun i => s.hbmRead 0 (pa + i) 1

/-- Bytes of HBM written directly under slot 0's key. -/
def State.rawWrite (s : State) (pa : Nat) : List Byte → State
  | [] => s
  | b :: bs => (s.hbmWrite 0 pa [b]).rawWrite (pa + 1) bs

/-- Bytes `new` taken where the mask has a one, `old` elsewhere. -/
def mergeMask (mask : Nat) : Nat → List Byte → List Byte → List Byte
  | i, o :: old, n :: new => (if bit mask i then n else o) :: mergeMask mask (i + 1) old new
  | _, old, _ => old

/-- The 128 bytes of a line at its home: those in L2; a line of the host is read where the host has it (R204, R211; log 8). -/
def State.homeBytes (s : State) (h : HomeLine) : List Byte :=
  match h.loc with
  | .hbm _ => h.data
  | .host pa => cellsRead s.host pa 128
  | .peer _ _ => padTo 128 h.rdata

/-- A home line's state replaced. -/
def State.setHome (s : State) (h : HomeLine) : State := { s with homes := upsert HomeLine.line h s.homes }

/-- A local line whose bytes in L2 are newer than memory's is written back under the key that its slot holds now (R225, R227). -/
def State.writeL2 (s : State) (h : HomeLine) : State :=
  match h.loc with
  | .hbm pa => if h.dirty then s.hbmWrite (s.keyOf h.key) pa h.data else s
  | _ => s

/-- A line leaves its L2 slice. -/
def State.dropHome (s : State) (h : HomeLine) : State :=
  let s := s.writeL2 h
  { s with homes := eraseBy HomeLine.line h.line s.homes }

/-- Bytes written to a line at its home under a mask. -/
def State.homePut (s : State) (h : HomeLine) (mask : Nat) (b : List Byte) : State :=
  let new := mergeMask mask 0 (s.homeBytes h) b
  match h.loc with
  | .hbm _ => s.setHome { h with data := new, dirty := true }
  | .host pa => { s with host := cellsWrite s.host pa new }
  | .peer _ _ => s.setHome { h with rdata := new }

/-- A mask with n ones from bit o. -/
def spanMask (o n : Nat) : Nat := (2 ^ n - 1) * 2 ^ o

/-- A line-wide list of bytes with `b` at offset o. -/
def lineAt (o : Nat) (b : List Byte) : List Byte := padTo 128 (List.replicate o 0 ++ b)

/-- Bytes an atomic acts on (R277, R279). -/
def atomSize : AtomReq → Nat
  | .rmw _ ty _ => 4 * ty.words
  | .cas n _ _ => n
  | .store b => b.length

/-- The element type of a float atomic. -/
def atomF : AtomType → Option FType
  | .f32 => some .f32
  | .f64 => some .f64
  | .f16x2 => some .f16x2
  | .bf16x2 => some .bf16x2
  | _ => none

/-- The new value of an ATOM or ATOMS (R277, R278): floats round to nearest even, keep subnormals and raise nothing. -/
def atomNew (op : AtomOp) (ty : AtomType) (old b : Nat) : Nat :=
  let env : FEnv := ⟨false, false, false, false, false, false, .rne, false⟩
  let it : IType := match ty with
    | .i32 => .i32
    | .ui32 => .ui32
    | .i64 => .i64
    | _ => .ui64
  match op with
  | .add => match atomF ty with
    | some f => (vFadd f env old b).1
    | none => vIadd it false old b
  | .min => match atomF ty with
    | some f => (vFminmax f env false old b).1
    | none => vImin it old b
  | .max => match atomF ty with
    | some f => (vFminmax f env true old b).1
    | none => vImax it old b
  | .and => old &&& b
  | .or => old ||| b
  | .xor => old ^^^ b
  | .exch => b

/-- An atomic on its bytes: the old bytes and, when it writes, the new ones (R277, R279). -/
def atomDo (r : AtomReq) (old : List Byte) : List Byte × Option (List Byte) :=
  match r with
  | .rmw op ty b => (old, some (leBytes (4 * ty.words) (atomNew op ty (leNat old) b.toNat)))
  | .cas _ c n => (old, if old = c then some n else none)
  | .store b => (old, some b)

end Sys2Proof.Machine
end

