-- ==== Sys2Proof/Machine/Wire.lean ====
section
/-! DEFINITION. How a transaction leaves for the fabric: its number, its flits, its association (R466, R468, R469, R474, R475). -/

namespace Sys2Proof.Machine

/-- Flits of a transaction: a first one with up to 72 bytes and continuations of 104 (R469). -/
def flitsOf (n : Nat) : Nat := 1 + (n - 72 + 103) / 104

/-- A new association: bank 0 is in use (R474). -/
def Assoc.new (peer key : Nat) (cached : Bool) : Assoc :=
  { peer := peer, b0 := ⟨key, 0, 0, true⟩, b1 := ⟨0, 0, 0, false⟩, kg := false, cached := cached }

/-- A bank of an association. -/
def Assoc.bank (a : Assoc) (k : Bool) : Bank := if k then a.b1 else a.b0

/-- A bank of an association replaced. -/
def Assoc.setBank (a : Assoc) (k : Bool) (b : Bank) : Assoc := if k then { a with b1 := b } else { a with b0 := b }

/-- An association replaced or added. -/
def Fabric.setAssoc (f : Fabric) (a : Assoc) : Fabric := { f with assocs := upsert Assoc.peer a f.assocs }

/-- The association with a peer, established by the service cores where there is none; up to 4,096 are cached on die (R474). -/
def State.assoc (s : State) (p : Nat) : State × Assoc :=
  match lookupBy Assoc.peer p s.fab.assocs with
  | some a => (s, a)
  | none =>
    let a := Assoc.new p s.nextId (decide ((s.fab.assocs.filter Assoc.cached).length < 4096))
    ({ s with fab := s.fab.setAssoc a, nextId := s.nextId + 1 }, a)

/-- A transaction is cut into flits of the association's current bank, which queue for their slots (R468, R469, R475). -/
def State.queueFlits (s : State) (t : Tx) : State :=
  let r := s.assoc t.dst
  let b := r.2.bank r.2.kg
  let n := flitsOf t.data.length
  let fl := (List.range n).map fun i =>
    ({ peer := t.dst, bank := r.2.kg, ctr := b.txc + i, part := i, tx := t, sent := false, tries := 0, direct := false, last := decide (i + 1 = n) } : Flit)
  let f := r.1.fab
  { r.1 with fab := ({ f with flits := f.flits ++ fl } : Fabric).setAssoc (r.2.setBank r.2.kg { b with txc := b.txc + n }) }

/-- A transaction is numbered and queued; one that something waits for stays open until its response (R466, R469). -/
def State.sendTx (s : State) (t : Tx) : State :=
  let t := { t with tid := s.fab.nextTid % 65536 }
  let f := s.fab
  let o := if t.what = .none then f.open_ else f.open_ ++ [t]
  ({ s with fab := { f with nextTid := f.nextTid + 1, open_ := o } } : State).queueFlits t

/-- A MSG of the cache-locally mode leaves for a peer (R248, R477). -/
def State.sendProto (s : State) (p : Nat) (ty : MType) (addr : Nat) (mask : BitVec 128) (data : List Byte) (exp slot : Nat) : State :=
  s.sendTx { tid := 0, dst := p, kind := .msg, addr := addr, mask := mask, data := data, atom := none, cls := ty.num, wct := 0, what := .none,
             exp := exp, slot := slot }

end Sys2Proof.Machine
end

