-- ==== Sys2Proof/Machine/Proto.lean ====
section
/-! DEFINITION. The protocol engines: where lines live, home side, cache side, transactions, write completion times, three-phase
write-back, privatisation, and a whole transaction run at once for agents that send no message of R248 (R202 to R204, R231 to R237,
R248 to R262). -/

namespace Sys2Proof.Machine

/-- A home's entry for a line. -/
def State.home? (s : State) (l : LineId) : Option HomeLine := lookupBy HomeLine.line l s.homes

/-- A message put in flight. -/
def State.post (s : State) (ty : MType) (m : Msg) : State :=
  { s with msgs := s.msgs ++ [⟨ty, { m with id := s.nextId }⟩], nextId := s.nextId + 1 }

/-- A message of a line with nothing but its ends. -/
def plainMsg (l : LineId) (src dst : Agent) : Msg :=
  { id := 0, line := l, src := src, dst := dst, off := 0, data := [], mask := 0, req := none, acc := none, exp := 0, sealed := false }

/-- The window that maps a canonical address: the W mark of the line's directory entry, with the cluster and the core that it names (R219, R221,
R257). -/
def State.window? (s : State) (ctx va : Nat) : Option Window :=
  s.windows.find? fun w => decide (w.ctx = ctx ∧ w.vbase * 1024 ≤ va ∧ va < w.vbase * 1024 + w.klen * 1024)

/-- Clusters that a record names (R257, R258). -/
def HomeLine.holders (h : HomeLine) : List Nat :=
  match h.coarse with
  | none => h.ptrs
  | some v => (setBits 45 v).flatMap fun g => (List.range 8).map (8 * g + ·)

/-- A holder recorded: a fifth cluster switches to the coarse vector, a fifth peer is not recorded (R257 to R259). -/
def HomeLine.add (h : HomeLine) : Agent → HomeLine
  | .cluster n => match h.coarse with
    | some v => { h with coarse := some (v ||| 2 ^ (n / 8)) }
    | none =>
      if h.ptrs.contains n then h
      else if h.ptrs.length < 4 then { h with ptrs := h.ptrs ++ [n] }
      else { h with ptrs := [], coarse := some (maskOf ((n :: h.ptrs).map (· / 8))) }
  | .host => { h with host := true }
  | .peer p => if h.peers.contains p ∨ 4 ≤ h.peers.length then h else { h with peers := h.peers ++ [p] }
  | .home => h

/-- A holder removed from the record; the coarse vector is kept (R258). -/
def HomeLine.del (h : HomeLine) : Agent → HomeLine
  | .cluster n => { h with ptrs := h.ptrs.filter (· ≠ n) }
  | .host => { h with host := false }
  | .peer p => { h with peers := h.peers.filter (· ≠ p) }
  | .home => h

/-- A sole owner recorded; pointers are used again (R251, R258). -/
def HomeLine.own (h : HomeLine) (a : Agent) : HomeLine :=
  ({ h with ptrs := [], coarse := none, host := false, peers := [] } : HomeLine).add a

/-- The owner: pointer 0, or the holder beyond the device (R257). -/
def HomeLine.owner (h : HomeLine) : Option Agent :=
  match h.ptrs.head?, h.host, h.peers.head? with
  | some n, _, _ => some (.cluster n)
  | none, true, _ => some .host
  | none, false, some p => some (.peer p)
  | none, false, none => none

/-- Every recorded holder but one (R251, INVSH and UPDSH; R258: every cluster of a coarse group). -/
def HomeLine.others (h : HomeLine) (a : Agent) : List Agent :=
  ((h.holders.map Agent.cluster) ++ (if h.host then [Agent.host] else []) ++ h.peers.map Agent.peer).filter (· ≠ a)

/-- A pin of a line (R237). -/
def State.pin? (s : State) (l : LineId) : Option Pin := s.pins.find? fun p => decide (p.line = l)

/-- The line is pinned against an agent: the pinning cluster is another (R237). -/
def State.pinnedFrom (s : State) (l : LineId) (a : Agent) : Bool :=
  match s.pin? l with
  | some p => decide (a ≠ .cluster p.cluster)
  | none => false

/-- A refusal under a pin is remembered until the home has served the line (R237). -/
def State.refuse (s : State) (l : LineId) : State :=
  { s with pins := s.pins.map fun p => if p.line = l then { p with refused := true } else p,
           refused := if s.refused.contains l then s.refused else s.refused ++ [l] }

/-- An access of an agent is refused if the line is pinned against it (R237). -/
def State.refuseAt (s : State) (l : LineId) (a : Agent) : State := if s.pinnedFrom l a then s.refuse l else s

/-- A write's access is performed with this WCT: its lane waits for that time (R234, R235). A plain store is then done with;
an atomic keeps its old value until it lands. -/
def State.written (s : State) (acc : Option Nat) (wct : Nat) (old : List Byte) : State :=
  match acc.bind s.acc? with
  | none => s
  | some a =>
    let s := s.raiseVis a.lane wct
    match a.kind with
    | .atom _ false => s.setAcc { a with data := old, done := true, sent := false }
    | .ld _ | .ldro _ | .land => s
    | .shpw => s.setAcc { a with done := true, sent := false }
    | .cwb also => (also.foldl (fun (s : State) l => s.raiseVis l wct) s).dropAcc a.id
    | _ => s.dropAcc a.id

/-- The WCT of a cluster's write-back, for which a FENCE of a fibre of the cluster waits (R262). -/
def State.wroteBack (s : State) (a : Agent) (wct : Nat) : State :=
  match a with
  | .cluster c => { s with wbWct := upsert Prod.fst (c, max wct ((lookupBy Prod.fst c s.wbWct).elim 0 Prod.snd)) s.wbWct }
  | _ => s

/-- The write of an entry performed on the home's bytes: WRMEM or ATOMIC; the old bytes of an atomic (R251). -/
def State.homePerform (s : State) (l : LineId) (m : Msg) (e : Nat) : State × List Byte :=
  match s.home? l with
  | none => (s, [])
  | some h =>
    if entAct e 14 then
      match m.req with
      | some r =>
        let o := atomDo r (((s.homeBytes h).drop m.off).take (atomSize r))
        (match o.2 with
          | some b => s.homePut h (spanMask m.off b.length) (lineAt m.off b)
          | none => s, o.1)
      | none => (s, [])
    else if entAct e 1 then (s.homePut h m.mask.toNat m.data, [])
    else (s, [])

/-- The WCT of an entry's write: its rule at this time, never below an earlier one of the line (R234, R251). -/
def wctOf (e : Nat) (h : HomeLine) (now : Nat) : Nat := max h.wct (if entWct e = 3 then max now h.lease else now)

/-- The bytes an UPDATE carries: the written ones, or an atomic's (R251). -/
def updMask (m : Msg) (e : Nat) : BitVec 128 :=
  if entAct e 14 then BitVec.ofNat 128 (spanMask m.off ((m.req.map atomSize).getD 0)) else m.mask

/-- Agents that take a copy by the messages DATAS and DATAM. -/
def agentHolds : Agent → Bool
  | .cluster _ | .peer _ => true
  | _ => false

/-- DATAS or DATAM to the requester, with an expiry where the entry gives a lease (R251). -/
def State.answer (s : State) (h : HomeLine) (m : Msg) (e : Nat) : State :=
  if agentHolds m.src then
    let exp := if h.rexp ≠ 0 then h.rexp else s.gtime + s.leaseOf h.line
    let ans : Msg := { plainMsg h.line .home m.src with
      data := s.homeBytes h, acc := m.acc, exp := if entAct e 13 then exp else 0, sealed := entAct e 22 }
    let s := if entAct e 13 then s.setHome { h with lease := max h.lease exp } else s
    if entAct e 3 then s.post .datam ans else if entAct e 2 then s.post .datas ans else s
  else s

/-- The entry's data goes to its requester as the transaction opens: no write of the entry and no owner's bytes come before it. -/
def answersAtOnce (e : Nat) : Bool := !entAct e 1 && !entAct e 14 && !entAct e 5 && !entAct e 6

/-- An entry applied: its messages leave and a transaction opens that expects their answers (R251, R252). UPDSH writes the home
line first; WONCE's write of a sealed line goes to every enabled cluster and is counted at its slice (R255). An ATOM's owner gives the
line to the home. -/
def State.homeApply (s : State) (h : HomeLine) (ty : MType) (m : Msg) (e : Nat) : State :=
  let goesTo : Agent := if ty = .atom then .home else m.src
  let zw := decide (h.slot = 4 ∧ h.hstate = 1) && entAct e 4
  let invs := if zw then ((List.range 360).map Agent.cluster).filter (· ≠ m.src)
    else if entAct e 4 then h.others m.src else []
  let upds := if entAct e 12 then h.others m.src else []
  let fwd := if entAct e 5 || entAct e 6 then (h.owner.filter (· ≠ goesTo)).toList else []
  let (s, old) := if entAct e 12 then s.homePerform h.line m e else (s, [])
  let sl := sliceOf h.line
  let s := { s with sealedW := if zw then upsert Prod.fst (sl, ((lookupBy Prod.fst sl s.sealedW).elim 0 Prod.snd) + 1) s.sealedW else s.sealedW }
  let line := ((s.home? h.line).map s.homeBytes).getD []
  let s : State := invs.foldl (fun (s : State) a => s.post .inv (plainMsg h.line goesTo a)) s
  let s := upds.foldl (fun (s : State) a => s.post .update { plainMsg h.line goesTo a with data := line, mask := updMask m e }) s
  let s := fwd.foldl (fun (s : State) a => s.post (if entAct e 6 then .fwdm else .fwds) { plainMsg h.line goesTo a with acc := m.acc }) s
  let s := if entAct e 11 then s.post .wbgrant (plainMsg h.line .home m.src) else s
  match s.home? h.line with
  | none => s
  | some h =>
    let s := if answersAtOnce e then s.answer h m e else s
    match s.home? h.line with
    | none => s
    | some h =>
      let t : Txn := { ty := ty, msg := m, entry := e, acks := invs.length + upds.length,
                       datas := fwd.length + (if entAct e 11 then 1 else 0), gdata := [], gmask := 0, merge := false, old := old, late := [] }
      s.setHome { h with txn := some t }

/-- The record of a line after an entry of this message (R251, R257, R258): holders that acknowledged an INV and a cleared owner leave
it; the coarse vector stays until a single owner is recorded or the line returns goesTo hinit. -/
def HomeLine.record (h : HomeLine) (a : Agent) (e next hinit : Nat) : HomeLine :=
  let h := if entAct e 4 && !entAct e 12 then
      { h with ptrs := h.ptrs.filter (fun n => decide (Agent.cluster n = a)), host := h.host && decide (a = .host),
               peers := h.peers.filter (fun p => decide (Agent.peer p = a)) }
    else h
  let h := if entAct e 8 then h.del a else h
  let h := if entAct e 10 then (h.owner.map h.del).getD h else h
  let h := if entAct e 7 then h.add a else h
  let h := if entAct e 9 then h.own a else h
  if next = hinit ∧ h.hstate ≠ hinit then { h with coarse := none } else h

/-- A transaction closes: the write is performed, the record and the state change, the answers that waited leave (R251, R252). A PUTM
that finds the line forwarded elsewhere leaves the state as it is (R262); an agent that keeps no copy leaves none recorded. A merge ends
in I, and its request is served next (R260). -/
def State.homeClose (s : State) (h : HomeLine) (t : Txn) : State :=
  let e := t.entry
  let m := t.msg
  if t.merge then
    s.setHome { h with hstate := 0, ptrs := [], coarse := none, priv := [], txn := none, queue := ⟨t.ty, m⟩ :: h.queue }
  else
    let (s, old) := if entAct e 12 then (s, t.old) else s.homePerform h.line m e
    let wr := entAct e 1 || entAct e 14
    let w := wctOf e h s.gtime
    let s := if wr then s.written m.acc w old else s
    let s := if t.ty = .wbdata then s.wroteBack m.src w else s
    let s := t.late.foldl (fun (s : State) l => s.raiseVis l w) s
    match s.home? h.line with
    | none => s
    | some h =>
      let late := decide (t.ty = .putm ∧ h.owner ≠ some m.src)
      let hinit := (s.table h.slot).hinit
      let next := if late then h.hstate else if entAct e 9 && decide (m.src = .home) then hinit else entNext e
      let s := s.setHome { (h.record m.src e next hinit) with
        sealed := h.sealed || entAct e 22, wct := if wr || entWct e != 0 then w else h.wct, hstate := next, txn := none }
      let s := { s with refused := s.refused.filter (· ≠ h.line) }
      if answersAtOnce e then s
      else match s.home? h.line with
        | some h => s.answer h m e
        | none => s

/-- The masks of the other clusters in a privatisation entry meet these bytes (R260). -/
def privMeets (priv : List (Nat × Nat)) (c mask : Nat) : Bool := priv.any fun p => decide (p.1 ≠ c ∧ p.2 &&& mask ≠ 0)

/-- A cluster's mask grows by the bytes it reads or writes (R260). -/
def privAdd (priv : List (Nat × Nat)) (c mask : Nat) : List (Nat × Nat) :=
  upsert Prod.fst (c, ((lookupBy Prod.fst c priv).elim 0 Prod.snd) ||| mask) priv

/-- A P copy granted to a cluster (R260). -/
def State.privGrant (s : State) (h : HomeLine) (c : Nat) (m : Msg) : State :=
  let s := s.setHome { h with hstate := 3, priv := privAdd h.priv c m.mask.toNat,
                              ptrs := if h.ptrs.contains c then h.ptrs else h.ptrs ++ [c] }
  s.post .datam { plainMsg h.line .home (.cluster c) with data := s.homeBytes h, acc := m.acc, sealed := true }

/-- A merge starts: FWDM goes to every P holder, and its bytes are awaited (R260). -/
def State.startMerge (s : State) (h : HomeLine) (ty : MType) (m : Msg) : State :=
  let s := h.ptrs.foldl (fun (s : State) c => s.post .fwdm (plainMsg h.line .home (.cluster c))) s
  s.setHome { h with txn := some { ty := ty, msg := m, entry := tent 0 0 [15], acks := 0, datas := h.ptrs.length, gdata := [], gmask := 0,
                                   merge := true, old := [], late := [] } }

/-- The owner's M copy of a line that becomes privatised is a P copy from now on, on its way or held (R260). -/
def State.ownerToP (s : State) (l : LineId) (o : Nat) : State :=
  { s with copies := s.copies.map fun (x : Copy) => if x.line = l ∧ x.cluster = o then { x with cst := 3 } else x,
           msgs := s.msgs.map fun (f : Flight) => if f.msg.line = l ∧ f.msg.dst = .cluster o ∧ f.ty = .datam then
             { f with msg := { f.msg with sealed := true } } else f }

/-- Lines that a slice's privatisation table holds (R260). -/
def State.privLines (s : State) (sl : Nat) : Nat := (s.homes.filter fun x => decide (x.priv ≠ [] ∧ sliceOf x.line = sl)).length

/-- What the home does with a request that finds no transaction open: byte-mask privatisation first (R260), then the table's
entry (R251). An entry with RETRY refuses: the sender repeats its message. -/
def State.homeTake (s : State) (h : HomeLine) (ty : MType) (m : Msg) : State :=
  let plain := match (s.table h.slot).homeEntry h.hstate ty with
    | some e => if entAct e 23 then s.post ty m else s.homeApply h ty m e
    | none => s
  if h.slot = 0 ∧ h.hstate = 3 ∧ (ty = .gets ∨ ty = .getm ∨ ty = .upgr ∨ ty = .atom) then
    match m.src, decide (ty = .atom) with
    | .cluster c, false =>
      if privMeets h.priv c m.mask.toNat ∨ (4 ≤ h.priv.length ∧ ¬ (h.priv.any fun p => p.1 = c)) then s.startMerge h ty m
      else s.privGrant h c m
    | _, _ => s.startMerge h ty m
  else if h.slot = 0 ∧ h.hstate = 2 ∧ s.peOf h.line ∧ (ty = .getm ∨ ty = .upgr) then
    match m.src, h.owner with
    | .cluster c, some (.cluster o) =>
      if o = c then plain
      else
        let od := ((s.copies.find? fun x => decide (x.line = h.line ∧ x.cluster = o)).map Copy.dirty).getD 0
        let s' := s.ownerToP h.line o
        let h' := { h with hstate := 3, priv := [(o, od.toNat)], ptrs := [o] }
        if od.toNat &&& m.mask.toNat ≠ 0 ∨ 256 ≤ s.privLines (sliceOf h.line) then s'.startMerge h' ty m else s'.privGrant h' c m
    | _, _ => plain
  else plain

/-- Transactions that expect nothing more close, and the line's queue is served in arrival order (R252). -/
def State.homeSettle : Nat → LineId → State → State
  | 0, _, s => s
  | n + 1, l, s =>
    match s.home? l with
    | none => s
    | some h =>
      match h.txn with
      | some t => if t.acks = 0 ∧ t.datas = 0 then State.homeSettle n l (s.homeClose h t) else s
      | none =>
        match h.queue with
        | [] => s
        | q :: qs => State.homeSettle n l ((s.setHome { h with queue := qs }).homeTake { h with queue := qs } q.ty q.msg)

/-- Requests that a scope pin refuses (R237); notices and returns are never refused by it. -/
def MType.isRequest : MType → Bool
  | .gets | .getm | .upgr | .atom => true
  | _ => false

/-- Messages that wait in a slice's queues (R252). -/
def State.queued (s : State) (sl : Nat) : Nat := ((s.homes.filter fun h => decide (sliceOf h.line = sl)).map fun h => h.queue.length).sum

/-- The line is one of this device. -/
def HomeLine.isLocal (h : HomeLine) : Bool :=
  match h.loc with
  | .peer _ _ => false
  | _ => true

/-- A message arrives at the home. None: it is refused with Retry and its sender repeats it (R237, R247, R252). -/
def State.homeRecv (s : State) (ty : MType) (m : Msg) : Option State :=
  match s.home? m.line with
  | none => some s
  | some h =>
    if ty.isRequest && (s.pinnedFrom m.line m.src || (s.switching m.line && h.isLocal)) then none
    else
      match h.txn with
      | none => some (State.homeSettle 200 m.line (s.homeTake h ty m))
      | some t =>
        if ty = .ack ∧ 0 < t.acks then
          some (State.homeSettle 200 m.line (s.setHome { h with txn := some { t with acks := t.acks - 1 } }))
        else if ty = .wbdata ∧ 0 < t.datas then
          let w := max h.wct s.gtime
          let s := ((s.homePut h m.mask.toNat m.data).written m.acc w []).wroteBack m.src w
          match s.home? m.line with
          | some h => some (State.homeSettle 200 m.line (s.setHome { h with txn := some { t with datas := t.datas - 1 } }))
          | none => some s
        else if s.queued (sliceOf m.line) < 64 then some (s.setHome { h with queue := h.queue ++ [⟨ty, m⟩] })
        else none

/-- A cluster's copy of a line. -/
def State.copy? (s : State) (c : Nat) (l : LineId) : Option Copy := s.copies.find? fun x => decide (x.cluster = c ∧ x.line = l)

/-- A copy replaced or added. -/
def State.setCopy (s : State) (c : Copy) : State := { s with copies := upsert (fun x : Copy => (x.cluster, x.line)) c s.copies }

/-- A copy dropped. -/
def State.dropCopy (s : State) (c : Nat) (l : LineId) : State :=
  { s with copies := s.copies.filter fun x => decide (¬ (x.cluster = c ∧ x.line = l)) }

/-- Dirty bytes of a copy sent to the home (R261). -/
def State.sendDirty (s : State) (x : Copy) (acc : Option Nat) : State :=
  s.post .wbdata { plainMsg x.line (.cluster x.cluster) .home with data := x.data, mask := x.dirty, acc := acc }

/-- A copy leaves its slice: a dirty or owned one in three phases through the victim buffer, which has 16 entries per slice, a recorded
clean one by PUTS, any other silently (R255, R261). None: the victim buffer is full. -/
def State.evict (s : State) (cp : Copy) : Option State :=
  let t := s.table cp.slot
  if cp.vb then none
  else if cp.slot = 5 ∧ cp.dirty ≠ 0 then some ((s.sendDirty cp none).dropCopy cp.cluster cp.line)
  else if t.isDirty cp.cst ∧ cp.slot ≠ 5 then
    if 16 ≤ (s.copies.filter fun x => decide (x.cluster = cp.cluster ∧ l1Slice x.line = l1Slice cp.line) && x.vb).length then none
    else some ((s.setCopy { cp with vb := true }).post .putm (plainMsg cp.line (.cluster cp.cluster) .home))
  else if cp.slot = 1 ∨ cp.slot = 5 ∨ cp.lasting then some (s.dropCopy cp.cluster cp.line)
  else some ((s.dropCopy cp.cluster cp.line).post .puts (plainMsg cp.line (.cluster cp.cluster) .home))

/-- A message arrives at a victim buffer that holds the line (R261, R262). -/
def State.vbRecv (s : State) (x : Copy) (ty : MType) (m : Msg) : State :=
  let data : Msg := { plainMsg x.line .home m.src with data := x.data, acc := m.acc }
  match ty with
  | .fwds =>
    let s := if agentHolds m.src then s.post .datas data else s
    (s.sendDirty x x.wb).setCopy { x with dirty := 0, wb := none }
  | .fwdm =>
    let s := if agentHolds m.src then s.post .datam data else s
    (s.sendDirty x x.wb).setCopy { x with dirty := 0, wb := none, surr := true }
  | .inv | .update => s.post .ack (plainMsg x.line (.cluster x.cluster) .home)
  | .wbgrant => (s.sendDirty x x.wb).dropCopy x.cluster x.line
  | _ => s

/-- 64 KiB steps of a core's array that are scratchpad: the allocations of its resident ropes, rounded up (R202). -/
def State.spadSteps (s : State) (core : Nat) : Nat :=
  cdiv ((s.ropes.filter fun r => decide (r.id.core = core)).map Rope.spadA).sum 65536

/-- Copies of a cluster that stand in the set of a line, outside the victim buffer (R203). -/
def State.l1SetOf (s : State) (c : Nat) (l : LineId) : List Copy :=
  s.copies.filter fun x => decide (x.cluster = c ∧ l1Slice x.line = l1Slice l ∧ l1Set x.line = l1Set l) && !x.vb

/-- A way of a line's set for a fill: a free L1 step of the slice's core, or that of a victim, which leaves; pinned lines are never
chosen. None: the fill waits for a pin or for the victim buffer (R202, R203, R256, R261; log 72). -/
def State.l1Way (s : State) (c : Nat) (l : LineId) : Option (State × Nat) :=
  let k := s.spadSteps (8 * c + l1Slice l)
  let set := s.l1SetOf c l
  match (List.range 12).find? fun w => decide (k ≤ w) && !set.any fun x => decide (x.way = w) with
  | some w => some (s, w)
  | none => set.findSome? fun x => if (s.pin? x.line).isSome then none else (s.evict x).map fun t => (t, x.way)

/-- DATAS or DATAM arrives at a slice: the entry's actions, and the copy as its next state has it; a sealed WONCE line stands in Z, a
privatised INV line in P (R251, R255, R260). None: no way is free for it. -/
def State.fill (s : State) (c : Nat) (ty : MType) (m : Msg) (slot e : Nat) (x : Option Copy) : Option State :=
  let z := m.sealed && decide (slot = 4 ∧ ty = .datas)
  let st := if z then 2 else if m.sealed && decide (slot = 0 ∧ ty = .datam) then 3 else entNext e
  let room := match x with
    | some x => some (s, x.way)
    | none => s.l1Way c m.line
  room.map fun p =>
    let dirty := (x.map Copy.dirty).getD 0
    let cp : Copy :=
      { cluster := c, line := m.line, slot := slot, cst := st, dirty := if entAct e 20 then 0 else dirty, expiry := m.exp, vb := false,
        data := match x with
          | some x => mergeMask x.dirty.toNat 0 m.data x.data
          | none => m.data
        surr := false, perm := ((m.acc.bind s.acc?).bind Access.xl).bind Xl.own, way := p.2, lasting := z || entAct e 22, wb := none }
    let s := if entAct e 18 then p.1.sendDirty { cp with dirty := dirty } none else p.1
    let s := if entAct e 16 then s.post .ack (plainMsg m.line (.cluster c) .home) else s
    if entAct e 19 then s.dropCopy c m.line else s.setCopy cp

/-- A cache entry applied (R251). None: the message is refused, and comes again. -/
def State.cacheEnt (s : State) (c : Nat) (ty : MType) (m : Msg) (slot : Nat) (t : Table) (st : Nat) (x : Option Copy) : Option State :=
  match t.cacheEntry st ty with
  | none =>
    if ty = .inv ∨ ty = .update then some (s.post .ack (plainMsg m.line (.cluster c) .home))
    else if ty = .fwds ∨ ty = .fwdm then some (s.post .wbdata (plainMsg m.line (.cluster c) .home))
    else some s
  | some e =>
    if entAct e 23 then none
    else if ty = .datas ∨ ty = .datam then s.fill c ty m slot e x
    else
      let s := match x with
        | some x =>
          let s := if entAct e 17 then
              if agentHolds m.src then s.post (if ty = .fwds then .datas else .datam)
                  { plainMsg m.line .home m.src with data := x.data, acc := m.acc }
              else s
            else s
          if entAct e 18 then s.sendDirty x none else s
        | none => if entAct e 18 then s.post .wbdata (plainMsg m.line (.cluster c) .home) else s
      let s := if entAct e 16 then s.post .ack (plainMsg m.line (.cluster c) .home) else s
      some (if entAct e 19 then s.dropCopy c m.line
      else match x with
        | some x => s.setCopy { x with
            cst := entNext e, dirty := if entAct e 20 then 0 else x.dirty, lasting := x.lasting || entAct e 22,
            data := if entAct e 21 then mergeMask m.mask.toNat 0 x.data m.data else x.data }
        | none => s)

/-- A message arrives at a cluster's slice: the cache table's entry (R251). A cluster with no copy acknowledges at once
(R258, R262). -/
def State.cacheRecv (s : State) (c : Nat) (ty : MType) (m : Msg) : Option State :=
  let slot := ((s.home? m.line).map HomeLine.slot).getD 0
  let t := s.table slot
  match s.copy? c m.line with
  | some x => if x.vb then some (s.vbRecv x ty m) else s.cacheEnt c ty m slot t x.cst (some x)
  | none => s.cacheEnt c ty m slot t t.cinit none

/-- A message in flight is the oldest of its line on its channel, from a sender to the home or from the home's side to a holder: the
device delivers those in order (log 15). -/
def State.isNext (s : State) (ty : MType) (m : Msg) : Bool :=
  match s.msgs.find? fun f => decide (f.msg.line = m.line ∧ f.msg.dst = m.dst ∧ (m.dst = .home → f.msg.src = m.src)) with
  | some f => decide (f = ⟨ty, m⟩)
  | none => false

/-- A message taken off the list of those in flight. -/
def State.takeMsg (s : State) (m : Msg) : State := { s with msgs := s.msgs.filter fun f => decide (f.msg.id ≠ m.id) }

/-- A message delivered to whom it is for; a refused one stays in flight (R237, R252). -/
def State.deliver (s : State) (ty : MType) (m : Msg) : State :=
  match m.dst with
  | .home => match (s.takeMsg m).homeRecv ty m with
    | some s' => s'
    | none => if s.pinnedFrom m.line m.src then s.refuse m.line else s
  | .cluster c => ((s.takeMsg m).cacheRecv c ty m).getD s
  | _ => s

/-- Messages of a line delivered until its home has no open transaction (a transaction run at once, log 15). -/
def State.runLine : Nat → LineId → State → State
  | 0, _, s => s
  | n + 1, l, s =>
    match s.home? l with
    | none => s
    | some h =>
      if h.txn.isNone then s
      else
        match s.msgs.find? fun f => decide (f.msg.line = l) && (match f.msg.dst with | .cluster _ => true | .home => !f.ty.isRequest | _ => false) with
        | some f => State.runLine n l (s.deliver f.ty f.msg)
        | none => s

/-- A whole transaction of an agent other than a cluster's slice, run at once. None: it has to be repeated later (a pin, an open
transaction, a holder beyond the device that has yet to answer). -/
def State.homeDo (s : State) (l : LineId) (a : Agent) (ty : MType) (m : Msg) : Option State :=
  match s.home? l with
  | none => none
  | some h =>
    if s.pinnedFrom l a || h.txn.isSome || h.queue ≠ [] || (((s.table h.slot).homeEntry h.hstate ty).any fun e => entAct e 23) then none
    else
      match s.homeRecv ty { m with line := l, src := a, dst := .home } with
      | none => none
      | some s' =>
        let s' := State.runLine 2000 l s'
        match s'.home? l with
        | some h' => if h'.txn.isNone then some s' else none
        | none => none

/-- The 128 bytes of a line as its home gives them to an agent, dirty copies written back first (R249, R255). -/
def State.homeRead (s : State) (l : LineId) (a : Agent) : Option (State × List Byte) :=
  match s.homeDo l a .gets (plainMsg l a .home) with
  | none => none
  | some s' => (s'.home? l).map fun h => (s', s'.homeBytes h)

/-- A write of bytes performed at the home by an agent, with the WCT it receives (R234). -/
def State.homeWrite (s : State) (l : LineId) (a : Agent) (o : Nat) (b : List Byte) : Option (State × Nat) :=
  let m : Msg := { plainMsg l a .home with off := o, req := some (.store b) }
  match s.homeDo l a .atom m with
  | none => none
  | some s' => (s'.home? l).map fun h => (s', h.wct)

/-- An atomic performed at the home by an agent: its old bytes and its WCT (R233). -/
def State.homeAtomic (s : State) (l : LineId) (a : Agent) (o : Nat) (r : AtomReq) : Option (State × List Byte × Nat) :=
  match s.homeRead l a with
  | none => none
  | some (s, line) =>
    match s.homeDo l a .atom { plainMsg l a .home with off := o, req := some r } with
    | none => none
    | some s' => (s'.home? l).map fun h => (s', (line.drop o).take (atomSize r), h.wct)

/-- Copies that the host and peers hold of a line at rest are asked back: by one INV each, and a peer that alone holds it by FWDM,
which brings its bytes (R248, R257, R259). -/
def State.recall (s : State) (l : LineId) : State :=
  match s.home? l with
  | none => s
  | some h =>
    if h.txn.isSome then s
    else (((if h.host then [Agent.host] else []) ++ h.peers.map Agent.peer).filter fun a =>
        !s.msgs.any fun f => decide (f.msg.line = l ∧ f.msg.dst = a)).foldl
      (fun (s : State) a => s.post (if h.owner = some a ∧ !h.host ∧ h.peers.length = 1 then .fwdm else .inv) (plainMsg l .home a)) s

/-- An agent that keeps no copy has found a line's home not ready: a refusal under a pin is noted, and holders beyond the device are asked
(R237, R259). -/
def State.nudge (s : State) (l : LineId) : State := (s.refuseAt l .home).recall l

/-! ### The lines of an L2 slice (R204, R256, R257) -/

/-- A line held from a peer goes back to the peer's home (R477). -/
def State.dropRemote (s : State) (h : HomeLine) : State :=
  match h.loc with
  | .peer p a =>
    if h.rdata = [] then s
    else
      let t : Tx := { tid := 0, dst := p, kind := .msg, addr := a, mask := if h.rwrite then BitVec.allOnes 128 else 0,
                      data := if h.rwrite then h.rdata else [], atom := none, cls := if h.rwrite then 5 else 3, wct := 0, what := .none }
      (s.setHome { h with rdata := [], rwrite := false, rexp := 0 }).sendTx t
  | _ => s

/-- A line may leave its L2 set: nothing of it is under way, it is not locked, in a window, sealed or privatised, no time that it has
given lies ahead, and every copy of it on the device is recorded (R204, R223, R256, R257; log 72). -/
def State.l2Free (s : State) (h : HomeLine) : Bool :=
  h.txn.isNone && h.queue.isEmpty && !h.sealed && h.priv.isEmpty && !h.host && h.peers.isEmpty && !h.rsent &&
    decide (h.wct ≤ s.gtime ∧ h.lease ≤ s.gtime) && (s.pin? h.line).isNone && !s.refused.contains h.line &&
    !s.locks.any (fun k => decide (k.2 = h.line)) && (s.window? h.line.ctx (h.line.line * 128)).isNone &&
    !s.msgs.any (fun f => decide (f.msg.line = h.line)) &&
    !s.copies.any fun c => decide (c.line = h.line) && !h.holders.contains c.cluster

/-- A line that no cluster holds leaves its L2 slice: it is written back, or returned to its peer (R214, R257, R477). -/
def State.retireLine (s : State) (h : HomeLine) : State :=
  let s := s.dropRemote h
  s.dropHome ((s.home? h.line).getD h)

/-- An L2 victim: its holders are invalidated, and the line is written back or returned to its peer (R257). -/
def State.l2Evict (s : State) (h : HomeLine) : State :=
  let mine := s.copies.filter fun c => decide (c.line = h.line)
  let mask := mine.foldl (fun n (c : Copy) => n ||| c.dirty.toNat) 0
  let data := mine.foldl (fun d (c : Copy) => mergeMask c.dirty.toNat 0 d c.data) (s.homeBytes h)
  let s := { s with copies := s.copies.filter fun c => decide (c.line ≠ h.line) }
  let s := if mask = 0 then s else s.homePut h mask data
  match s.home? h.line with
  | some h => s.retireLine h
  | none => s

/-- A line's set at its home slice. -/
def State.l2SetOf (s : State) (l : LineId) : List HomeLine :=
  s.homes.filter fun h => decide (sliceOf h.line = sliceOf l ∧ l2Set h.line = l2Set l)

/-- Room for a line in its set of 24 ways, a victim's if need be (R204). None: the fill waits. -/
def State.l2Room (s : State) (l : LineId) : Option State :=
  let set := s.l2SetOf l
  if set.length < 24 then some s else (set.find? s.l2Free).map s.l2Evict

/-- The line stands at its home, filled from the place that the translation gives where it was absent, with its directory entry in hinit
(R204, R246, R257); the translation renews its permission copy (R206). Where its set has no room it is still absent. -/
def State.ensureHome (s : State) (l : LineId) (loc : Loc) (key : Nat) (perm : Option Perm) : State :=
  match s.home? l with
  | some h => if perm.isNone ∨ h.perm = perm then s else s.setHome { h with perm := perm }
  | none =>
    match s.l2Room l with
    | none => s
    | some s =>
      let slot := match loc with
        | .peer _ _ => 0
        | _ => s.slotOf l
      let data := match loc with
        | .hbm pa => s.hbmRead (s.keyOf key) pa 128
        | _ => []
      s.setHome { line := l, loc := loc, key := key, slot := slot, hstate := (s.table slot).hinit, ptrs := [], coarse := none, host := false,
                  peers := [], sealed := false, wct := 0, lease := 0, txn := none, queue := [], priv := [], rdata := [], rwrite := false,
                  rsent := false, rdir := false, rexp := 0, data := data, dirty := false, perm := perm }

end Sys2Proof.Machine
end

