-- ==== Sys2Proof/Machine/Xlate.lean ====
section
/-! DEFINITION. Translation: page-table entries, the walk, the checks of R210, aliases, accessed and dirty bits, cached
translations (R205 to R218). -/

namespace Sys2Proof.Machine

/-- Access kinds of R209 and R365. -/
inductive XKind where
  | load | store | atomic | fetch | engRead | engWrite
  deriving DecidableEq, Repr

/-- Access code of R365 and R435. -/
def XKind.code : XKind → Nat
  | .load => 0 | .store => 1 | .atomic => 2 | .fetch => 3 | .engRead => 4 | .engWrite => 5

/-- The access writes. -/
def XKind.writes : XKind → Bool
  | .store | .atomic | .engWrite => true
  | _ => false

/-- What a translation answers: a location, a fault code of R210, or Retry (R237). -/
inductive XRes where
  | ok (x : Xl)
  | bad (code : Nat)
  | retry
  deriving DecidableEq, Repr

/-- A field of a page-table entry (R208). -/
def pteBits (e : BitVec 128) (lo len : Nat) : Nat := bits e.toNat lo len

/-- A bit of a page-table entry. -/
def pteBit (e : BitVec 128) (i : Nat) : Bool := bit e.toNat i

/-- frame field (R208). -/
def pteFrame (e : BitVec 128) : Nat := pteBits e 32 28
/-- peer field. -/
def ptePeer (e : BitVec 128) : Nat := pteBits e 60 18
/-- mode field. -/
def pteMode (e : BitVec 128) : Nat := pteBits e 10 2

/-- The inbound-map entry of a local frame (R218). -/
def State.inb? (s : State) (frame : Nat) : Option InEntry := lookupBy InEntry.frame frame s.inbound

/-- The canonical line behind a local physical address with an inbound entry (R218). -/
def InEntry.lineOf (e : InEntry) (pa : Nat) : LineId := ⟨e.ctx, e.page * 512 + pa % 65536 / 128⟩

/-- A non-leaf entry keeps R209: it names a local table aligned to its size and every other field but P is zero. -/
def nonLeafOk (e : BitVec 128) (level : Nat) : Bool :=
  decide (e.toNat = pteFrame e * 2 ^ 32 + 1) && decide (pteFrame e * 65536 < 0x18000000000) &&
    (level != 1 || decide (pteFrame e % 2 = 0))

/-- An entry of a table as memory and L2 hold it now, read by nobody: in L2 where the line stands there, else as it was written. -/
def State.peek (s : State) (pa : Nat) : BitVec 128 :=
  BitVec.ofNat 128 (match s.homes.find? fun h => decide (h.loc = .hbm (pa / 128 * 128)) with
    | some h => fieldAt h.data (pa % 128) 16
    | none => leNat (if (s.inb? (pa / 65536)).isSome then s.hbmRead (s.tagOf pa) pa 16 else s.rawRead pa 16))

/-- The leaf entry of a page in memory, whether present or not: where it stands, whether it maps 256 MiB, what it holds (R207, R208). -/
def State.leafAt (s : State) (ctx page : Nat) : Option (Nat × Bool × BitVec 128) :=
  match s.ctx? ctx with
  | none => none
  | some c =>
    let e1 := s.peek (c.root + page / 2 ^ 25 % 8192 * 16)
    if !nonLeafOk e1 1 then none
    else
      let a2 := pteFrame e1 * 65536 + page / 2 ^ 12 % 8192 * 16
      let e2 := s.peek a2
      if pteBit e2 1 then some (a2, true, e2)
      else if !nonLeafOk e2 2 then none
      else
        let a3 := pteFrame e2 * 65536 + page % 4096 * 16
        some (a3, false, s.peek a3)

/-- The key slot of the page behind an inbound entry: as its canonical leaf names it, else its context's (R218, R225, R226). -/
def State.frameKey (s : State) (e : InEntry) : Nat :=
  match s.leafAt e.ctx e.page with
  | some (_, _, l) => if pteBit l 0 then pteBits l 16 8 else ((s.ctx? e.ctx).map Context.kslot).getD 0
  | none => ((s.ctx? e.ctx).map Context.kslot).getD 0

/-- The canonical line behind an inbound entry stands at its home (R218). -/
def State.inHome (s : State) (e : InEntry) (pa : Nat) : State :=
  s.ensureHome (e.lineOf pa) (.hbm (pa / 128 * 128)) (s.frameKey e) none

/-- A page-table entry as the walker reads it: at the canonical line's home where the frame has an inbound entry, and in HBM
where it has none; whole, as one access of 16 bytes (R213, R214, R218). None: Retry. -/
def State.pteRead (s : State) (pa : Nat) : State × Option (BitVec 128) :=
  match s.inb? (pa / 65536) with
  | some e =>
    let s := s.inHome e pa
    match s.homeRead (e.lineOf pa) .home with
    | some (s, l) => (s, some (BitVec.ofNat 128 (fieldAt l (pa % 128) 16)))
    | none => (s.nudge (e.lineOf pa), none)
  | none => (s, some (BitVec.ofNat 128 (leNat (s.rawRead pa 16))))

/-- The walker's atomic OR of AC and D into an entry (R213): bits 8 and 9 stand in its byte 1. None: Retry. -/
def State.pteOr (s : State) (pa : Nat) (m : Byte) : State × Bool :=
  let a := pa + 1
  match s.inb? (pa / 65536) with
  | some e =>
    let s := s.inHome e pa
    match s.homeRead (e.lineOf pa) .home with
    | some (t, l) => match t.homeWrite (e.lineOf pa) .home (a % 128) [l.getD (a % 128) 0 ||| m] with
      | some p => (p.1, true)
      | none => (t.nudge (e.lineOf pa), false)
    | none => (s.nudge (e.lineOf pa), false)
  | none => (s.rawWrite a ((s.rawRead a 1).map (· ||| m)), true)

/-- A leaf keeps R209 but for the key rule, and an alias leaf the zero fields of R216. -/
def leafOk (e : BitVec 128) (big : Bool) : Bool :=
  let local_ := decide (ptePeer e = 0)
  pteBit e 1 && decide (pteMode e ≠ 3) && (pteMode e == 0 || !local_) && (!big || decide (pteFrame e % 4096 = 0)) &&
    (!local_ || decide (pteFrame e * 65536 < 0x18000000000)) &&
    (!pteBit e 6 || decide (pteFrame e = 0 ∧ ptePeer e = 0 ∧ pteMode e = 0 ∧ pteBits e 24 8 = 0 ∧ pteBits e 16 8 = 0))

/-- A leaf found for a page: the entry, whether it maps 256 MiB, and where it stands (none: it is a cached one). -/
structure Found where
  leaf : BitVec 128
  big  : Bool
  addr : Option Nat
  deriving DecidableEq, Repr

/-- A slice's cached leaf of a page (R212). -/
def State.tlb? (s : State) (sl ctx page : Nat) : Option Tlb :=
  s.tlb.find? fun t => decide (t.slice = sl ∧ t.ctx = ctx ∧ (if t.big then t.page / 4096 = page / 4096 else t.page = page))

/-- The name of a cached leaf. -/
def Tlb.key (t : Tlb) : Nat × Nat × Bool × Nat := (t.slice, t.ctx, t.big, t.page)

/-- A cached leaf replaced, or added: of a slice's 4,096 the oldest goes (R212; log 34). -/
def State.setTlb (s : State) (t : Tlb) : State :=
  let mine := s.tlb.filter fun x => decide (x.slice = t.slice)
  let old := if (lookupBy Tlb.key t.key s.tlb).isNone ∧ 4096 ≤ mine.length then mine.head? else none
  { s with tlb := upsert Tlb.key t (match old with
      | some o => s.tlb.erase o
      | none => s.tlb) }

/-- A non-leaf entry cached: of a slice's 512 the oldest goes (R212; log 34). -/
def State.addNonLeaf (s : State) (n : NonLeaf) : State :=
  let mine := s.nonleaf.filter fun x => decide (x.slice = n.slice)
  let l := if 512 ≤ mine.length then (mine.head?.map s.nonleaf.erase).getD s.nonleaf else s.nonleaf
  { s with nonleaf := l ++ [n] }

/-- What led a slice to a fault is walked afresh at the replay (R213). -/
def State.forget (s : State) (sl ctx page : Nat) : State :=
  { s with tlb := s.tlb.filter fun t => decide (¬ (t.slice = sl ∧ t.ctx = ctx ∧ (if t.big then t.page / 4096 = page / 4096 else t.page = page))),
           nonleaf := s.nonleaf.filter fun n => decide (¬ (n.slice = sl ∧ n.ctx = ctx ∧
             n.pre = (if n.level = 1 then page / 2 ^ 25 else page / 2 ^ 12))) }

/-- The table below an entry: from the slice's non-leaf cache, or read and checked (R209, R210, R212). -/
def State.nextTable (s : State) (sl ctx level pre ea : Nat) : State × Except XRes (Sum Nat (BitVec 128)) :=
  match s.nonleaf.find? fun n => decide (n.slice = sl ∧ n.ctx = ctx ∧ n.level = level ∧ n.pre = pre) with
  | some n => (s, .ok (.inl n.table))
  | none =>
    match s.pteRead ea with
    | (s, none) => (s, .error .retry)
    | (s, some e) =>
      if !pteBit e 0 then (s, .error (.bad 1))
      else if level = 2 ∧ pteBit e 1 then (s, .ok (.inr e))
      else if !nonLeafOk e level then (s, .error (.bad 2))
      else (s.addNonLeaf ⟨sl, ctx, level, pre, pteFrame e * 65536⟩, .ok (.inl (pteFrame e * 65536)))

/-- A slice's walk of a page's three levels, with the checks of R210 as far as R209 (R207 to R210). -/
def State.walk (s : State) (sl ctx page : Nat) : State × Except XRes Found :=
  match s.ctx? ctx with
  | none => (s, .error (.bad 1))
  | some c =>
    let i1 := page / 2 ^ 25 % 8192
    let i2 := page / 2 ^ 12 % 8192
    let i3 := page % 4096
    match s.nextTable sl ctx 1 (page / 2 ^ 25) (c.root + i1 * 16) with
    | (s, .error r) => (s, .error r)
    | (s, .ok (.inr _)) => (s, .error (.bad 2))
    | (s, .ok (.inl t2)) =>
      match s.nextTable sl ctx 2 (page / 2 ^ 12) (t2 + i2 * 16) with
      | (s, .error r) => (s, .error r)
      | (s, .ok (.inr e)) => if leafOk e true then (s, .ok ⟨e, true, some (t2 + i2 * 16)⟩) else (s, .error (.bad 2))
      | (s, .ok (.inl t3)) =>
        match s.pteRead (t3 + i3 * 16) with
        | (s, none) => (s, .error .retry)
        | (s, some e) =>
          if !pteBit e 0 then (s, .error (.bad 1))
          else if leafOk e false then (s, .ok ⟨e, false, some (t3 + i3 * 16)⟩) else (s, .error (.bad 2))

/-- The leaf of a page at a slice: from its translation cache, or walked; a write whose leaf has D clear is walked, to set it
(R212 to R214). A fault is not cached, and neither is what led to it. -/
def State.leafFor (s : State) (sl ctx page : Nat) (wr : Bool) : State × Except XRes Found :=
  let walked := fun (s : State) => match s.walk sl ctx page with
    | (s, .error (.bad n)) => (s.forget sl ctx page, Except.error (.bad n))
    | r => r
  match s.tlb? sl ctx page with
  | some t => if wr && !pteBit t.leaf 9 && !pteBit t.leaf 6 then walked s else (s, .ok ⟨t.leaf, t.big, none⟩)
  | none => walked s

/-- The accessed bit, and for a write the dirty bit, set in a walked entry, which the cache then takes (R213, R216). False: Retry. -/
def State.touch (s : State) (sl ctx page : Nat) (f : Found) (dirty : Bool) : State × Bool :=
  match f.addr with
  | none => (s, true)
  | some a =>
    let want : Nat := 256 + (if dirty then 512 else 0)
    let leaf := f.leaf ||| BitVec.ofNat 128 want
    let base := if f.big then page / 4096 * 4096 else page
    let cnt := ((s.tlb? sl ctx page).map Tlb.cnt).getD 0
    match (if leaf = f.leaf then (s, true) else s.pteOr a (BitVec.ofNat 8 (want / 256))) with
    | (s, true) => (s.setTlb ⟨sl, ctx, base, f.big, leaf, cnt⟩, true)
    | r => r

/-- A fabric peer can be reached: some slot table has an entry for it, and it is not this device (R472, R478). -/
def State.reaches (s : State) (p : Nat) : Bool :=
  decide (p ≠ s.chip) && !s.fab.dead.contains p && s.fab.tabs.any fun t => t.contains (some p)

/-- The leaf's peer can be reached (R210 check 4, R451). -/
def State.peerOk (s : State) (p : Nat) : Bool :=
  if p = 0 then true else if p = 0x3FFFF then s.hostUp && decide (s.personality = .endpoint) else s.reaches p

/-- A key field is permitted for a context and names a slot that holds a key (R226, R227). -/
def State.keyOk (s : State) (ctx key : Nat) : Bool :=
  key == 0 || (decide ((s.ctx? ctx).map Context.kslot = some key) &&
    ((lookupBy KeySlot.no key s.keys).map fun k => decide (k.st = .loaded ∨ k.st = .bound)).getD false)

/-- What a leaf allows (R208). -/
def leafPerm (e : BitVec 128) : Perm := ⟨pteBit e 2, pteBit e 3, pteBit e 4, pteBit e 5, pteBit e 7⟩

/-- What two leaves allow together (R216). -/
def Perm.meet (a b : Perm) : Perm := ⟨a.rd && b.rd, a.w && b.w, a.x && b.x, a.sup || b.sup, a.lent || b.lent⟩

/-- Where the byte of a leaf lies (R211). -/
def leafLoc (e : BitVec 128) (big : Bool) (va : Nat) : Loc :=
  let frame := if big then pteFrame e / 4096 * 4096 else pteFrame e
  let off := if big then va % 2 ^ 28 else va % 65536
  if ptePeer e = 0 then .hbm (frame * 65536 + off)
  else if ptePeer e = 0x3FFFF then .host (pteBits e 24 8 * 2 ^ 44 + frame * 65536 + off)
  else .peer (ptePeer e) (frame * 65536 + off)

/-- The permission check of R209. -/
def Perm.permits (p : Perm) (k : XKind) (user : Bool) : Bool :=
  (match k with
    | .load | .engRead => p.rd
    | .store | .engWrite => p.w
    | .atomic => p.rd && p.w
    | .fetch => p.x) && (!user || !p.sup)

/-- A permission copy lets an access proceed: a write on a lent page always consults the table (R206). -/
def Perm.lets (p : Perm) (k : XKind) (user : Bool) : Bool := p.permits k user && !(k.writes && p.lent)

/-- The mode 2 counter of the entry through which a slice has translated: at 2^mthr a migration request is posted (R215). -/
def State.countMode2 (s : State) (sl ctx page : Nat) : State :=
  match s.tlb? sl ctx page with
  | some t =>
    if pteMode t.leaf = 2 then
      if t.cnt + 1 ≥ 2 ^ pteBits t.leaf 12 4 then { s.setTlb { t with cnt := 0 } with migreq := s.migreq ++ [(ctx, page)] }
      else s.setTlb { t with cnt := t.cnt + 1 }
    else s
  | none => s

/-- A place some bytes on. -/
def Loc.plus : Loc → Nat → Loc
  | .hbm pa, o => .hbm (pa + o)
  | .host pa, o => .host (pa + o)
  | .peer p a, o => .peer p (a + o)

/-- The translation that a line's own home gives an access that needs no walk (R205): p is what the access may do, own what the page
allows. -/
def HomeLine.xl (h : HomeLine) (cva : Nat) (own : Option Perm) (p : Perm) : Xl :=
  { cctx := h.line.ctx, cva := cva, loc := h.loc.plus (cva % 128), mode := match h.loc with
      | .hbm _ => 0
      | _ => 1
    key := h.key, rd := p.rd, w := p.w, x := p.x, sup := p.sup, lent := p.lent, own := own }

/-- The line's bytes are here: those of a peer's line may not be (R477). -/
def HomeLine.here (h : HomeLine) : Bool :=
  match h.loc with
  | .peer _ _ => h.rdata != []
  | _ => true

/-- A hit in L2 whose permission copy, with the rights of an alias, lets the access proceed (R205, R206, R216). -/
def State.hitL2 (s : State) (cctx cva : Nat) (al : Option Perm) (k : XKind) (user : Bool) : Option Xl :=
  match s.home? ⟨cctx, cva / 128⟩ with
  | some h => if h.here then h.perm.bind fun own =>
      let p := al.elim own own.meet
      if p.lets k user then some (h.xl cva (some own) p) else none
    else none
  | none => none

/-- A remap filter entry for a page (R217). -/
def State.remap? (s : State) (cluster ctx page : Nat) : Option Remap :=
  s.remap.find? fun r => decide (r.cluster = cluster ∧ r.ctx = ctx ∧ r.page = page)

/-- The canonical address behind a remap filter entry. -/
def Remap.cva (r : Remap) (va : Nat) : Nat := r.cpage * 65536 + va % 65536

/-- A filter entry is taken in, or used again: it is the cluster's youngest; of 256 the least recently used goes (R217). -/
def State.useRemap (s : State) (r : Remap) : State :=
  let rest := s.remap.filter fun x => decide (¬ (x.cluster = r.cluster ∧ x.ctx = r.ctx ∧ x.page = r.page))
  let mine := rest.filter fun x => decide (x.cluster = r.cluster)
  let rest := if 256 ≤ mine.length then (mine.head?.map rest.erase).getD rest else rest
  { s with remap := rest ++ [r] }

/-- A filter entry dropped, after a fault behind it (R213). -/
def State.dropRemap (s : State) (cluster ctx page : Nat) : State :=
  { s with remap := s.remap.filter fun x => decide (¬ (x.cluster = cluster ∧ x.ctx = ctx ∧ x.page = page)) }

/-- The redirect that an alias leaf gives a page (R216, R217). -/
def Found.redirect (f : Found) (cluster ctx page : Nat) : Remap :=
  { cluster := cluster, ctx := ctx, page := page, cctx := pteBits f.leaf 78 12,
    cpage := if f.big then pteBits f.leaf 90 38 / 4096 * 4096 + page % 4096 else pteBits f.leaf 90 38, perm := leafPerm f.leaf }

/-- The canonical leaf decides an access: the checks of R210 from the second on, then AC and D, the slice's count, and the place
(R210, R211, R213, R215, R216). `al`: the rights of the alias it came by; `mis`: that alias maps another page size. -/
def State.byLeaf (s : State) (sl ctx cctx cva : Nat) (c : Found) (al : Option Perm) (mis : Bool) (k : XKind) (user : Bool) : State × XRes :=
  let page := cva / 65536
  let e := c.leaf
  let own := leafPerm e
  let p := al.elim own own.meet
  let bad : Option Nat :=
    if al.isSome && (pteBit e 6 || mis) then some 2
    else if ptePeer e = 0 ∧ !(s.keyOk ctx (pteBits e 16 8) && s.keyOk cctx (pteBits e 16 8)) then some 3
    else if !s.peerOk (ptePeer e) then some 4
    else if !p.permits k user then some 5
    else if k.writes && p.lent then some 6
    else none
  match bad with
  | some n => (s.forget sl cctx page, .bad n)
  | none =>
    match s.touch sl cctx page c k.writes with
    | (s, false) => (s, .retry)
    | (s, true) =>
      (s.countMode2 sl cctx page,
        .ok { cctx := cctx, cva := cva, loc := leafLoc e c.big cva, mode := pteMode e, key := pteBits e 16 8, rd := p.rd, w := p.w, x := p.x,
              sup := p.sup, lent := p.lent, own := some own })

/-- A request that a filter entry or a redirect has rewritten, at the canonical line's home (R205, R217). -/
def State.rewritten (s : State) (ctx : Nat) (r : Remap) (big : Option Bool) (va : Nat) (k : XKind) (user : Bool) : State × XRes :=
  let cva := r.cva va
  match s.hitL2 r.cctx cva (some r.perm) k user with
  | some x => (s, .ok x)
  | none =>
    let sl := sliceOf ⟨r.cctx, cva / 128⟩
    match s.leafFor sl r.cctx (cva / 65536) k.writes with
    | (s, .error e) => (s, e)
    | (s, .ok c) => s.byLeaf sl ctx r.cctx cva c (some r.perm) (big.any fun b => b != c.big) k user

/-- The translation of one address for an access of a kind by a context, as a request that leaves a cluster has it: the remap filter,
a hit at the home, else the home's translation unit, whose redirect the filter takes (R205 to R217). `user`: pages with S = 1 are
forbidden. What led to a fault is not used again. -/
def State.translate (s : State) (cluster ctx va : Nat) (k : XKind) (user : Bool) : State × XRes :=
  let page := va / 65536
  let r := match (s.remap? cluster ctx page).filter fun r => r.perm.lets k user with
    | some r => (s.useRemap r).rewritten ctx r none va k user
    | none =>
      match s.hitL2 ctx va none k user with
      | some x => (s, .ok x)
      | none =>
        let sl := sliceOf ⟨ctx, va / 128⟩
        match s.leafFor sl ctx page k.writes with
        | (s, .error e) => (s, e)
        | (s, .ok f) =>
          if pteBit f.leaf 6 then
            match s.touch sl ctx page f false with
            | (s, false) => (s, .retry)
            | (s, true) =>
              let r := f.redirect cluster ctx page
              match (s.useRemap r).rewritten ctx r (some f.big) va k user with
              | (s, .bad n) => (s.forget sl ctx page, .bad n)
              | q => q
          else s.byLeaf sl ctx ctx va f none false k user
  match r with
  | (s, .bad n) => (s.dropRemap cluster ctx page, .bad n)
  | q => q

/-- The line and page of an address as UNLKL, CWB and CINV find them: through the filter, at the home or by its translation unit, with
no permission checked and no AC set; the error: true for Retry, false where the walk faults (R282). -/
def State.canonical (s : State) (cluster ctx va : Nat) : State × Except Bool Xl :=
  let page := va / 65536
  let there := fun (s : State) (cctx cva : Nat) (al : Option Bool) =>
    match s.home? ⟨cctx, cva / 128⟩ with
    | some h => (s, Except.ok (h.xl cva none Perm.all))
    | none =>
      match s.leafFor (sliceOf ⟨cctx, cva / 128⟩) cctx (cva / 65536) false with
      | (s, .error .retry) => (s, .error true)
      | (s, .error _) => (s, .error false)
      | (s, .ok c) =>
        let e := c.leaf
        if pteBit e 6 || (al.any fun b => b != c.big) || (ptePeer e == 0 && !(s.keyOk ctx (pteBits e 16 8) && s.keyOk cctx (pteBits e 16 8))) ||
            !s.peerOk (ptePeer e) then (s, .error false)
        else (s, .ok { cctx := cctx, cva := cva, loc := leafLoc e c.big cva, mode := pteMode e, key := pteBits e 16 8, rd := true, w := true,
                       x := true, sup := false, lent := false, own := none })
  match s.remap? cluster ctx page with
  | some r => there (s.useRemap r) r.cctx (r.cva va) none
  | none =>
    match s.home? ⟨ctx, va / 128⟩ with
    | some h => (s, .ok (h.xl va none Perm.all))
    | none =>
      match s.leafFor (sliceOf ⟨ctx, va / 128⟩) ctx page false with
      | (s, .error .retry) => (s, .error true)
      | (s, .error _) => (s, .error false)
      | (s, .ok f) =>
        if pteBit f.leaf 6 then
          let r := f.redirect cluster ctx page
          there (s.useRemap r) r.cctx (r.cva va) (some f.big)
        else there s ctx va none

/-- The canonical line of a translation (R205). -/
def Xl.line (x : Xl) : LineId := ⟨x.cctx, x.cva / 128⟩

/-- Where the line of a translation begins. -/
def Xl.lineLoc (x : Xl) : Loc :=
  match x.loc with
  | .hbm pa => .hbm (pa / 128 * 128)
  | .host pa => .host (pa / 128 * 128)
  | .peer p a => .peer p (a / 128 * 128)

/-- The page is in direct mode beyond the device (R211). -/
def Xl.direct (x : Xl) : Bool :=
  match x.loc with
  | .hbm _ => false
  | _ => x.mode == 0

/-- The watched range of a canonical line: the lowest index (R433, R435). -/
def State.watch? (s : State) (l : LineId) : Option Watch :=
  s.watches.find? fun w => w.valid && decide (w.ctx = l.ctx ∧ w.base ≤ l.line / 512 ∧ l.line / 512 ≤ w.limit)

end Sys2Proof.Machine
end

