-- ==== Sys2Proof/Machine/Mem.lean ====
section
/-! DEFINITION. Named accesses to memory for agents that act in one step: scratchpads, watched lines and the log, the home's
bytes, host memory, and the fabric's transactions (R218, R221, R232, R274, R340, R434 to R436, R466). -/

namespace Sys2Proof.Machine

/-- Bytes of a rope's scratchpad. -/
def Rope.spadRead (r : Rope) (o n : Nat) : List Byte := cellsRead r.spad o n

/-- Bytes written to a scratchpad; read-only staged marks of the blocks written are cleared (R340). -/
def Rope.spadWrite (r : Rope) (o : Nat) (b : List Byte) : Rope :=
  { r with spad := cellsWrite r.spad o b,
           staged := r.staged.filter fun m => decide (¬ (o < m.1 * 128 + 128 ∧ m.1 * 128 < o + b.length)) }

/-- The lines of a window that n bytes from offset o of its rope's allocation lie in; the allocation begins at `off` of the array. -/
def Window.lines (w : Window) (off o n : Nat) : List Nat :=
  let base := w.koff * 1024 - off
  let lo := max o base
  let hi := min (o + n) (base + w.klen * 1024)
  if lo < hi then (List.range ((hi - 1 - base) / 128 - (lo - base) / 128 + 1)).map fun i => w.vbase * 8 + (lo - base) / 128 + i else []

/-- Any write sets the dirty bits of the window lines that it meets (R221). -/
def State.winDirty (s : State) (r : RopeId) (off o n : Nat) : State :=
  { s with windows := s.windows.map fun (w : Window) =>
      if w.rope = r then { w with dirty := w.dirty ++ (w.lines off o n).filter fun l => !w.dirty.contains l } else w }

/-- Bytes of a scratchpad written by an agent (R221, R340). -/
def State.spadWrite (s : State) (r : RopeId) (o : Nat) (b : List Byte) : State :=
  match s.rope? r with
  | some rp => (s.setRope (rp.spadWrite o b)).winDirty r rp.sramOff o b.length
  | none => s

/-- A rope that is resident or in a saved coil. -/
def State.ropeAny (s : State) (id : RopeId) : Option Rope :=
  match s.rope? id with
  | some r => some r
  | none => s.ctxs.findSome? fun c => c.saved.findSome? fun x => x.ropes.find? fun r => decide (r.id = id)

/-- Offset in its rope's allocation of a window address (R219, R221). -/
def State.winOff (s : State) (w : Window) (va : Nat) : Nat :=
  w.koff * 1024 - ((s.ropeAny w.rope).map Rope.sramOff).getD 0 + (va - w.vbase * 1024)

/-- Bytes of a window; those of a saved rope are as they stood (R221, R222). -/
def State.winRead (s : State) (w : Window) (va n : Nat) : List Byte :=
  ((s.ropeAny w.rope).map fun r => r.spadRead (s.winOff w va) n).getD (List.replicate n 0)

/-- Bytes written to a window (R221). -/
def State.winWrite (s : State) (w : Window) (va : Nat) (b : List Byte) : State := s.spadWrite w.rope (s.winOff w va) b

/-- Who is named in an access record (R435). -/
inductive By where
  | dev (cluster : Nat)
  | host
  | peer (p : Nat)
  deriving DecidableEq, Repr

/-- The bytes of a batch (R436): header, records, zeros to 4,096 bytes. -/
def Batch.bytes (b : Batch) : List Byte :=
  leBytes 15 0 ++ leBytes 1 b.recs.length ++ leBytes 8 b.rseq0 ++ leBytes 8 b.bseq ++ padTo 32 b.prev ++ padTo 4032 b.recs.flatten

/-- The prev of the next batch (R436). -/
def State.nextPrev (s : State) : List Byte :=
  if s.bseq = 0 then Config.shake256 (Config.shake256 s.fwBytes 64 ++ Config.bootNonce s.bootNonce) 32
  else s.prevDig

/-- The open batch closes (R436). -/
def State.closeBatch (s : State) : State :=
  match s.batch with
  | none => s
  | some b => { s with batch := none, batches := s.batches ++ [b], bseq := s.bseq + 1, prevDig := Config.shake256 b.bytes 32,
                       lastPrev := b.prev }

/-- The bytes of an access record (R435). -/
def State.recordBytes (s : State) (w : Watch) (l : LineId) (k : XKind) (by_ : By) : List Byte :=
  let who : Nat := match by_ with
    | .dev c => c * 2 ^ 110
    | .host => 2 ^ 108
    | .peer p => 2 * 2 ^ 108 + p * 2 ^ 90
  leBytes 32 (s.rseq + who + k.code * 2 ^ 119 + w.idx * 2 ^ 122 + l.ctx * 2 ^ 132 + l.line % 2 ^ 47 * 2 ^ 144 + s.gtime * 2 ^ 192)

/-- An access to a watched line enters the log before it is performed. None: the ring is full, Retry (R434 to R436). -/
def State.logAcc (s : State) (l : LineId) (k : XKind) (by_ : By) : Option State :=
  match s.watch? l with
  | none => some s
  | some w =>
    if !bit w.kinds k.code then some s
    else if s.batch.isNone ∧ 4096 ≤ s.batches.length then none
    else
      let rec_ := s.recordBytes w l k by_
      let b : Batch := s.batch.getD { prev := s.nextPrev, bseq := s.bseq, rseq0 := s.rseq, recs := [], start := s.gtime }
      let s := { s with batch := some { b with recs := b.recs ++ [rec_] }, rseq := s.rseq + 1 }
      some (if 126 ≤ b.recs.length + 1 then s.closeBatch else s)

/-- An access to a translated address goes to the remote home by a transaction of its own: its page is in direct mode, the remote home
gives no copy of the line, or the line's protocol writes at its home (R211, R259, R477). -/
def State.isDirect (s : State) (x : Xl) (wr : Bool) : Bool :=
  x.direct || (match x.loc, s.home? x.line with
    | .peer _ _, some h => h.rdir || (wr && decide (h.rdata ≠ [] ∧ (s.table h.slot).cwrite = 0))
    | _, _ => false)

/-- A line held from a peer under mode 1 or 2 is here, writable where that is asked; else the peer's home is asked for it by a MSG
of GETS or GETM (R477). -/
def State.peerReady (s : State) (l : LineId) (wr : Bool) : State × Bool :=
  match s.home? l with
  | none => (s, false)
  | some h =>
    match h.loc with
    | .peer p a =>
      if h.rdata ≠ [] ∧ (h.rwrite ∨ !wr) ∧ (h.rexp = 0 ∨ s.gtime < h.rexp) then (s, true)
      else if h.rsent then (s, false)
      else ((s.setHome { h with rsent := true }).sendTx
        { tid := 0, dst := p, kind := .msg, addr := a, mask := 0, data := [], atom := none, cls := if wr then 1 else 0, wct := 0, what := .line l },
        false)
    | _ => (s, true)

/-- The local copies of a peer's line give their dirty bytes to the bytes held here and are dropped (R477; log 15). None: not now. -/
def State.emptyLine (s : State) (h : HomeLine) : Option State :=
  if h.txn.isSome || h.queue != [] || (s.pin? h.line).isSome || s.msgs.any (fun f => decide (f.msg.line = h.line)) then none
  else
    let mine := s.copies.filter fun c => decide (c.line = h.line)
    let data := mine.foldl (fun d (c : Copy) => mergeMask c.dirty.toNat 0 d c.data) (padTo 128 h.rdata)
    let s := { s with copies := s.copies.filter fun c => decide (c.line ≠ h.line), roCopies := s.roCopies.filter fun c => decide (c.line ≠ h.line) }
    some (s.setHome { h with rdata := data, ptrs := [], coarse := none, priv := [], hstate := (s.table h.slot).hinit })

/-- The agent at work is named, so that answers from peers find it (log 73). -/
def State.as (s : State) (who : Doer) : State := { s with agent := who }

/-- The answer of a peer to the agent at work, taken once its step goes through (R477). -/
def State.takeRbuf (s : State) (kind : TxKind) (p a : Nat) : Option (State × RBuf) :=
  match s.fab.rbuf.find? fun e => decide (e.who = s.agent ∧ e.peer = p ∧ e.addr = a ∧ e.kind = kind) with
  | some e => some ({ s with fab := { s.fab with rbuf := s.fab.rbuf.erase e } }, e)
  | none => none

/-- Someone who repeats accesses is still at work on them (log 73). -/
def State.doerLives (s : State) : Doer → Bool
  | .lane l n => decide ((s.fibre (laneWho l) l.lane).issued = n ∧ (s.fibre (laneWho l) l.lane).st ≠ .empty)
  | .op id => (s.op? id).isSome
  | .rope r q b => (s.rope? r).any fun r => decide (r.qent = q ∧ r.bidx = b)
  | .launch c q st k => (s.ctx? c).any fun c => c.queue.any fun l => decide (l.seq = q ∧ l.st = .running) && !l.gone.contains (st, k)
  | .call c q => (s.core c).rq.any fun e => decide (e.seq = q)
  | _ => true

/-- The answers and open transactions of those no longer at work are forgotten (log 73). -/
def State.tidyAsks (s : State) : State :=
  let lives := fun (t : Tx) => match t.what with
    | .agent w _ _ => s.doerLives w
    | _ => true
  if s.fab.rbuf.all (fun b => s.doerLives b.who) && s.fab.open_.all lives then s
  else { s with fab := { s.fab with rbuf := s.fab.rbuf.filter fun b => s.doerLives b.who, open_ := s.fab.open_.filter lives } }

/-- The answers that stood before a step which has to be repeated stand again: the step takes all of them when it goes through. -/
def State.unspent (s t : State) : State := { t with fab := { t.fab with rbuf := s.fab.rbuf } }

/-- What the accesses between s and t have taken stands again in a later state u, whatever else u has dropped. -/
def State.giveBack (s t u : State) : State :=
  { u with fab := { u.fab with rbuf := (s.fab.rbuf.filter fun b => !t.fab.rbuf.contains b) ++ u.fab.rbuf } }

/-- A step that found Retry: what it has asked for stands. Where that is nothing new, the step has not come about (log 50). -/
def State.retried (s t : State) : Host.Outcome State Fault Refusal :=
  let t := t.as s.agent
  if t = s then s.noEvent else .next t

/-- A transaction of a kind to a peer's address is outstanding for the agent at work, or answered. -/
def State.asking (s : State) (x : Xl) (kind : TxKind) : Bool :=
  match x.loc with
  | .peer p a => s.fab.open_.any (fun t => decide (t.dst = p ∧ t.addr = a ∧ t.kind = kind ∧ t.what = .agent s.agent x.cctx x.cva)) ||
      (s.takeRbuf kind p a).isSome
  | _ => false

/-- A transaction of the agent at work leaves for a line at a peer (R477). -/
def State.askPeer (s : State) (x : Xl) (kind : TxKind) (n : Nat) (b : List Byte) (r : Option AtomReq) : State :=
  match x.loc with
  | .peer p a => s.sendTx { tid := 0, dst := p, kind := kind, addr := a, mask := BitVec.ofNat 128 (spanMask (a % 128) n), data := b, atom := r,
                            cls := 0, wct := 0, what := .agent s.agent x.cctx x.cva }
  | _ => s

/-- The line's home is at a peer. -/
def Xl.far (x : Xl) : Bool :=
  match x.loc with
  | .peer _ _ => true
  | _ => false

/-- An access that its remote home performs finds nothing of the line held here, and no request for it on its way: what is held is given
back first (R231, R249, R277, R477). None: not yet. -/
def State.farReady (s : State) (x : Xl) : Option State :=
  match s.home? x.line with
  | none => some s
  | some h =>
    if h.rsent then none
    else if h.rdata = [] then some s
    else (s.emptyLine h).map fun s => ((s.home? x.line).map s.dropRemote).getD s

/-- A load of n bytes at a translated address by an agent that keeps no copy. None: Retry. -/
def State.mLoad (s : State) (x : Xl) (n : Nat) (k : XKind) (by_ : By) : Option (State × List Byte) :=
  match s.window? x.cctx x.cva with
  | some w => if w.closed then none else (s.logAcc x.line k by_).map fun s => (s, s.winRead w x.cva n)
  | none =>
    match x.loc, s.isDirect x false with
    | .host pa, true => (s.logAcc x.line k by_).map fun s => (s, cellsRead s.host pa n)
    | .peer p a, true => (s.takeRbuf .read p a).map fun q => (q.1, q.2.data)
    | _, _ =>
      let s := s.ensureHome x.line x.lineLoc x.key x.own
      match s.peerReady x.line false with
      | (_, false) => none
      | (s, true) =>
        match s.logAcc x.line k by_ with
        | none => none
        | some s => (s.homeRead x.line .home).map fun p => (p.1, (p.2.drop (x.cva % 128)).take n)

/-- A store of bytes within one line at a translated address by an agent that keeps no copy, with its WCT. None: Retry. -/
def State.mStore (s : State) (x : Xl) (b : List Byte) (k : XKind) (by_ : By) : Option (State × Nat) :=
  match s.window? x.cctx x.cva with
  | some w => if w.closed then none else (s.logAcc x.line k by_).map fun s => (s.winWrite w x.cva b, s.gtime)
  | none =>
    match x.loc, s.isDirect x true with
    | .host pa, true => (s.logAcc x.line k by_).map fun s => ({ s with host := cellsWrite s.host pa b }, s.gtime)
    | .peer p a, true => (s.takeRbuf .write p a).map fun q => (q.1, q.2.vis)
    | _, _ =>
      let s := s.ensureHome x.line x.lineLoc x.key x.own
      match s.peerReady x.line true with
      | (_, false) => none
      | (s, true) =>
        match s.logAcc x.line k by_ with
        | none => none
        | some s => s.homeWrite x.line .home (x.cva % 128) b

/-- An atomic at a translated address by an agent that keeps no copy: the old bytes and the WCT. None: Retry. -/
def State.mAtomic (s : State) (x : Xl) (r : AtomReq) (k : XKind) (by_ : By) : Option (State × List Byte × Nat) :=
  match s.window? x.cctx x.cva with
  | some w =>
    if w.closed then none
    else (s.logAcc x.line k by_).map fun s =>
      let o := atomDo r (s.winRead w x.cva (atomSize r))
      (match o.2 with
        | some b => s.winWrite w x.cva b
        | none => s, o.1, s.gtime)
  | none =>
    match x.loc, s.isDirect x true with
    | .host pa, true => (s.logAcc x.line k by_).map fun s =>
        let o := atomDo r (cellsRead s.host pa (atomSize r))
        (match o.2 with
          | some b => { s with host := cellsWrite s.host pa b }
          | none => s, o.1, s.gtime)
    | .peer p a, _ => (s.takeRbuf .atomic p a).map fun q => (q.1, q.2.data, q.2.vis)
    | _, _ =>
      let s := s.ensureHome x.line x.lineLoc x.key x.own
      match s.peerReady x.line true with
      | (_, false) => none
      | (s, true) =>
        match s.logAcc x.line k by_ with
        | none => none
        | some s => s.homeAtomic x.line .home (x.cva % 128) r

/-- An access that found Retry: a pin has refused it (R237), or its line or answer is asked for at the peer, once it stands in the log
where its line is watched (R434, R477), or copies beyond the device are asked back. `b`: what a store writes. -/
def State.chase (s : State) (x : Xl) (n : Nat) (k : XKind) (b : List Byte) (r : Option AtomReq) (by_ : By) : State :=
  let s := s.refuseAt x.line .home
  if s.isDirect x k.writes || (x.far && r.isSome) then
    let kind : TxKind := if r.isSome then .atomic else if k.writes then .write else .read
    if s.asking x kind then s
    else match (if k.writes then s.farReady x else some s).bind fun s => s.logAcc x.line k by_ with
      | some s => s.askPeer x kind n b r
      | none => s
  else ((s.ensureHome x.line x.lineLoc x.key x.own).peerReady x.line k.writes).1.recall x.line

/-- What an access through an address ends in. -/
inductive VRes (α : Type) where
  | ok (v : α)
  | bad (code : Nat)
  | retry
  deriving DecidableEq, Repr

/-- A load of n bytes within one line by virtual address (a device-scope load of an agent that keeps no copy). -/
def State.vLoad (s : State) (cluster ctx va n : Nat) (k : XKind) (user : Bool) : State × VRes (List Byte) :=
  match s.translate cluster ctx va k user with
  | (s, .bad c) => (s, .bad c)
  | (s, .retry) => (s, .retry)
  | (s, .ok x) => match s.mLoad x n k (.dev cluster) with
    | some (s, b) => (s, .ok b)
    | none => (s.chase x n k [] none (.dev cluster), .retry)

/-- A store of bytes within one line by virtual address, with its WCT. -/
def State.vStore (s : State) (cluster ctx va : Nat) (b : List Byte) (k : XKind) (user : Bool) : State × VRes Nat :=
  match s.translate cluster ctx va k user with
  | (s, .bad c) => (s, .bad c)
  | (s, .retry) => (s, .retry)
  | (s, .ok x) => match s.mStore x b k (.dev cluster) with
    | some (s, w) => (s, .ok w)
    | none => (s.chase x b.length k b none (.dev cluster), .retry)

/-- An atomic by virtual address: the old bytes and the WCT. -/
def State.vAtomic (s : State) (cluster ctx va : Nat) (r : AtomReq) (k : XKind) (user : Bool) : State × VRes (List Byte × Nat) :=
  match s.translate cluster ctx va k user with
  | (s, .bad c) => (s, .bad c)
  | (s, .retry) => (s, .retry)
  | (s, .ok x) => match s.mAtomic x r k (.dev cluster) with
    | some (s, w) => (s, .ok w)
    | none => (s.chase x (atomSize r) k [] (some r) (.dev cluster), .retry)

/-- Consecutive bytes cut at line boundaries: address and length of each part. -/
def lineParts : Nat → Nat → Nat → List (Nat × Nat)
  | 0, _, _ => []
  | f + 1, a, n => if n = 0 then [] else
    let k := min n (128 - a % 128)
    (a, k) :: lineParts f (a + k) (n - k)

/-- A step of several accesses goes through whole or not at all: in Retry it leaves what the first of its parts that is answered Retry has
asked for, and the answers it took for the next attempt. -/
def State.whole {α β γ : Type} (s : State) (f : State → β → State × VRes γ) (qs : List β) (r : State × VRes α) : State × VRes α :=
  match r.2 with
  | .retry => ((qs.findSome? fun q => match f s q with
      | (t, .retry) => some (s.unspent t)
      | _ => none).getD s, .retry)
  | _ => r

/-- A load of any length by virtual address, line by line. -/
def State.vLoadN (s : State) (cluster ctx va n : Nat) (k : XKind) (user : Bool) : State × VRes (List Byte) :=
  let parts := lineParts (n / 128 + 2) va n
  let one := fun (s : State) (q : Nat × Nat) => s.vLoad cluster ctx q.1 q.2 k user
  s.whole one parts (parts.foldl (fun (p : State × VRes (List Byte)) q =>
    match p.2 with
    | .ok b => match one p.1 q with
      | (s, .ok c) => (s, .ok (b ++ c))
      | r => r
    | _ => p) (s, .ok []))

/-- A store of any length by virtual address, line by line; the latest WCT. -/
def State.vStoreN (s : State) (cluster ctx va : Nat) (b : List Byte) (k : XKind) (user : Bool) : State × VRes Nat :=
  let parts := lineParts (b.length / 128 + 2) va b.length
  let one := fun (s : State) (q : Nat × Nat) => s.vStore cluster ctx q.1 ((b.drop (q.1 - va)).take q.2) k user
  s.whole one parts (parts.foldl (fun (p : State × VRes Nat) q =>
    match p.2 with
    | .ok w => match one p.1 q with
      | (s, .ok w') => (s, .ok (max w w'))
      | r => r
    | _ => p) (s, .ok 0))

/-- A stretch of memory can be written whole: every page translates for writing (nothing is performed). -/
def State.vProbe (s : State) (cluster ctx va n : Nat) (k : XKind) (user : Bool) : State × VRes Unit :=
  (lineParts (n / 128 + 2) va n).foldl (fun (p : State × VRes Unit) q =>
    match p.2 with
    | .ok _ => match p.1.translate cluster ctx q.1 k user with
      | (s, .ok _) => (s, .ok ())
      | (s, .bad c) => (s, .bad c)
      | (s, .retry) => (s, .retry)
    | _ => p) (s, .ok ())

end Sys2Proof.Machine
end

