-- ==== Sys2Proof/Machine/Fetch.lean ====
section
/-! DEFINITION. Fetching words and clause headers (R17, R22, R25, R26, R31, R33, R85, R86). -/

namespace Sys2Proof.Machine

/-- Address after a word of len bytes, the dead word skipped (R33). -/
def nextIp (a : DWord) (len : Nat) : DWord :=
  let b := a + BitVec.ofNat 64 len
  if b.toNat % 32 = 28 then b + 4 else b

/-- A word of len bytes at an address would cross its 32-byte block (R25). -/
def crosses (a : DWord) (len : Nat) : Bool := decide (32 < a.toNat % 32 + len)

/-- What a fetch ends in: bytes, a fault of a class with its info, or Retry (R26, R31). -/
inductive FRes where
  | ok (b : List Byte)
  | flt (cls : FClass) (info : Word)
  | retry
  deriving DecidableEq, Repr

/-- A translation fault's info (R365). -/
def xlateInfo (code : Nat) (k : XKind) : Word := BitVec.ofNat 32 (code + 256 * k.code)

/-- One line fetched by a core for a context: from the fetch buffers, or from memory, which the buffers then hold. The old bytes
are used unless the list of choices says otherwise (R26; log 14). -/
def State.fetchLine (s : State) (core ctx line : Nat) : State × FRes :=
  let c := s.core core
  let fresh := fun (s : State) =>
    match s.vLoad (clusterOf core) ctx (line * 128) 128 .fetch true with
    | (s, .ok b) => (s.setCore { s.core core with fetched := upsert (fun e : Nat × Nat × List Byte => (e.1, e.2.1)) (ctx, line, b) (s.core core).fetched }, FRes.ok b)
    | (s, .bad code) => (s, .flt .xlate (xlateInfo code .fetch))
    | (s, .retry) => (s, .retry)
  match c.fetched.find? fun e => decide (e.1 = ctx ∧ e.2.1 = line) with
  | some e =>
    let (n, s) := s.pick
    if n = 0 then (s, .ok e.2.2) else fresh s
  | none => fresh s

/-- n bytes fetched at an address by an issuer; the bytes of one word never leave a line (R25, R31). -/
def State.fetch (s : State) (w : Who) (a : DWord) (n : Nat) : State × FRes :=
  match w with
  | .sup _ => if 2 ^ 54 ≤ a.toNat then (s, .flt .range 0x300) else (s, .ok (cellsRead s.svMem a.toNat n))
  | .strand r _ =>
    match s.ctxOf w with
    | none => (s, .flt .xlate (xlateInfo 1 .fetch))
    | some ctx =>
      if 2 ^ 54 ≤ a.toNat then (s, .flt .range 0x300)
      else
        match s.fetchLine r.core ctx (a.toNat / 128) with
        | (s, .ok b) => (s, .ok ((b.drop (a.toNat % 128)).take n))
        | q => q

/-- The header code in bits [1:0] (R17). -/
def isHeaderWord (b : List Byte) : Bool := leNat b % 4 == 3

/-- The header is well formed: reserved bits zero, set-flag numbers in range (R17). -/
def headerOk (h : Nat) : Bool :=
  h % 4 == 3 && bits h 29 35 == 0 && !(bit h 22 && decide (12 ≤ bits h 18 4)) && !(bit h 27 && decide (12 ≤ bits h 23 4))

/-- The wait mask of a header. -/
def headerWait (h : Nat) : Nat := bits h 6 12

/-- The clause that a header opens (R17, R33). -/
def clauseOf (hpc : DWord) (h : Nat) : Clause :=
  { hpc := hpc, ip := nextIp hpc 8, left := bits h 2 4 + 1, first := true,
    set0 := if bit h 22 then some (BitVec.ofNat 4 (bits h 18 4)) else none,
    set1 := if bit h 27 then some (BitVec.ofNat 4 (bits h 23 4)) else none, yield := bit h 28 }

/-- What the test of a branch target finds (R85, R86). -/
inductive Target where
  | header
  | notHeader
  | flt (cls : FClass) (info : Word)
  | retry
  deriving DecidableEq, Repr

/-- The target test: 54 bits, 4-byte aligned, no dead word, a clause header there (R22, R33, R85). -/
def State.target (s : State) (w : Who) (t : DWord) : State × Target :=
  if 2 ^ 54 ≤ t.toNat ∨ t.toNat % 4 ≠ 0 ∨ t.toNat % 32 = 28 then (s, .notHeader)
  else
    match s.fetch w t 8 with
    | (s, .ok b) => (s, if isHeaderWord b then .header else .notHeader)
    | (s, .flt c i) => (s, .flt c i)
    | (s, .retry) => (s, .retry)

/-- The word at an address: its fields, or what keeps it from being one (R25, R59). -/
inductive WRes where
  | ok (f : Fields)
  | header
  | crosses
  | flt (cls : FClass) (info : Word)
  | retry
  deriving DecidableEq, Repr

/-- The word fetched at an address (R25, R26, R59, R71). -/
def State.word (s : State) (w : Who) (a : DWord) : State × WRes :=
  match s.fetch w a 16 with
  | (s, .flt c i) => (s, .flt c i)
  | (s, .retry) => (s, .retry)
  | (s, .ok b) =>
    if isHeaderWord (b.take 8) then (s, .header)
    else
      let n := wordLen (BitVec.ofNat 2 (leNat (b.take 8) % 4))
      if crosses a n then (s, .crosses)
      else match Fields.ofBytes (b.take n) with
        | some f => (s, .ok f)
        | none => (s, .header)

/-- What fetch finds on the way from a header to `rpc` (R33, R367, R416): the clause as it stands before the word there, `rpc` as the
address after the clause's last word, neither, a fault of a word before it, or no answer yet. -/
inductive CRes where
  | inside (c : Clause)
  | ended
  | missed
  | flt (cls : FClass) (info : Word) (a : DWord)
  | retry
  deriving DecidableEq, Repr

/-- The way of fetch from a header to `rpc`, at most n words on. -/
def State.clauseAt (s : State) (w : Who) (rpc : DWord) : Nat → Clause → State × CRes
  | 0, _ => (s, .missed)
  | n + 1, c =>
    if c.left = 0 then (s, if c.ip = rpc then .ended else .missed)
    else if c.ip = rpc then (s, .inside c)
    else
      match s.word w c.ip with
      | (s, .ok f) => State.clauseAt s w rpc n { c with ip := nextIp c.ip f.up.len, left := c.left - 1, first := false }
      | (s, .flt k i) => (s, .flt k i c.ip)
      | (s, .retry) => (s, .retry)
      | (s, _) => (s, .missed)

end Sys2Proof.Machine
end

