-- ==== Sys2Proof/Machine/Paths.lean ====
section
/-! DEFINITION. Paths of a strand: listing, merging, refilling, rotation, selection and splitting (R87, R151 to R156, R175). -/

namespace Sys2Proof.Machine

/-- Lane numbers of a 32-bit mask, ascending. -/
def lanesOf (m : BitVec 32) : List Nat := setBits 32 m.toNat

/-- A 32-bit mask of lane numbers. -/
def maskOfLanes (l : List Nat) : BitVec 32 := BitVec.ofNat 32 (maskOf l)

/-- The listed paths: the current one first. -/
def Strand.paths (st : Strand) : List Path := st.cur.toList ++ st.others

/-- Lanes that some path lists. -/
def Strand.listed (st : Strand) : BitVec 32 := st.paths.foldl (fun m p => m ||| p.mask) 0

/-- Lanes whose fibre is live and in no path (R151). -/
def Strand.unlisted (st : Strand) : List Nat :=
  (List.range 32).filter fun l => decide ((st.fibre l).st = .live) && !st.listed.getLsbD l

/-- A set of fibres standing at one address, not listed (R156). -/
structure Grp where
  pc    : DWord
  cl    : Option Clause
  lanes : List Nat
  age   : Nat
  deriving DecidableEq, Repr

/-- A lane added to its group. -/
def grpAdd (f : Fibre) (l : Nat) : List Grp → List Grp
  | [] => [⟨f.pc, f.cl, [l], f.uage⟩]
  | g :: gs => if g.pc = f.pc ∧ g.cl = f.cl then { g with lanes := g.lanes ++ [l], age := max g.age f.uage } :: gs else g :: grpAdd f l gs

/-- The unlisted groups of a strand. -/
def Strand.groups (st : Strand) : List Grp := st.unlisted.foldl (fun gs l => grpAdd (st.fibre l) l gs) []

/-- Smallest element by a measure. -/
def minBy {α : Type} (m : α → Nat) : List α → Option α
  | [] => none
  | a :: l => match minBy m l with
    | some b => if m a ≤ m b then some a else some b
    | none => some a

/-- Largest element by a measure. -/
def maxBy {α : Type} (m : α → Nat) : List α → Option α
  | [] => none
  | a :: l => match maxBy m l with
    | some b => if m b ≤ m a then some a else some b
    | none => some a

/-- The lanes that stand with a lane: of its path, or of its unlisted group. -/
def Strand.mates (st : Strand) (l : Nat) : List Nat :=
  match st.paths.find? fun p => p.mask.getLsbD l with
  | some p => lanesOf p.mask
  | none => ((st.groups.find? fun g => g.lanes.contains l).map Grp.lanes).getD [l]

/-- A group becomes a path (R152, R156). -/
def Strand.list (st : Strand) (g : Grp) : Strand :=
  { st with others := st.others ++ [⟨maskOfLanes g.lanes, g.pc, 0, false, g.cl⟩],
            fibres := st.fibres.mapIdx fun i (f : Fibre) => if g.lanes.contains i then { f with uage := 0 } else f }

/-- A listed path becomes an unlisted group: its fibres keep where they stand (R152, R156). -/
def Strand.unlist (st : Strand) (p : Path) : Strand :=
  { st with others := st.others.filter fun q => decide (q.mask ≠ p.mask),
            fibres := st.fibres.mapIdx fun i (f : Fibre) =>
              if p.mask.getLsbD i then { f with pc := p.pc, cl := p.cl, uage := 0 } else f }

/-- A new path takes a free entry, or its fibres stay unlisted (R152). -/
def Strand.addPath (st : Strand) (p : Path) : Strand :=
  let fibres := st.fibres.mapIdx fun i (f : Fibre) => if p.mask.getLsbD i then { f with pc := p.pc, cl := p.cl, uage := 0 } else f
  if st.paths.length < 8 then { st with fibres := fibres, others := st.others ++ [p] } else { st with fibres := fibres }

/-- The lowest-pc unlisted groups take the free entries (R156). -/
def Strand.refill : Nat → Strand → Strand
  | 0, st => st
  | n + 1, st =>
    if st.paths.length < 8 then
      match minBy (fun g => g.pc.toNat) st.groups with
      | some g => Strand.refill n (st.list g)
      | none => st
    else st

/-- The unlisted group that a rotation lists: one of eight rotations or more, the oldest first, else the lowest pc (R156). -/
def Strand.nextGroup (st : Strand) : Option Grp :=
  match maxBy Grp.age (st.groups.filter fun g => decide (8 ≤ g.age)) with
  | some g => some g
  | none => minBy (fun g => g.pc.toNat) st.groups

/-- A rotation among unlisted groups (R156): every other group grows older by one. -/
def Strand.rotateUnlisted (st : Strand) : Strand :=
  match st.nextGroup, maxBy (fun p : Path => p.pc.toNat) st.others with
  | some g, some hi =>
    let old := st.unlisted.filter fun l => !g.lanes.contains l
    let st := { st with fibres := st.fibres.mapIdx fun i (f : Fibre) => if old.contains i then { f with uage := f.uage + 1 } else f }
    (st.unlist hi).list g
  | _, _ => st

/-- Listed paths other than the current one, and unlisted fibres, that stand at one header become one path, in the entry of the first
(R175). -/
def Strand.mergeOthers (st : Strand) (pc : DWord) : Strand :=
  let here := fun (p : Path) => decide (p.pc = pc ∧ p.cl = none)
  let un := st.unlisted.filter fun l => decide ((st.fibre l).pc = pc ∧ (st.fibre l).cl = none)
  match st.others.filter here with
  | [] => st
  | p :: more =>
    let m := more.foldl (fun m p => m ||| p.mask) (p.mask ||| maskOfLanes un)
    { st with others := (st.others.filter fun q => decide (q.mask = p.mask) || !here q).map fun q => if q.mask = p.mask then { q with mask := m } else q }

/-- Listed paths and unlisted fibres that stand at the current path's header join it (R155). -/
def Strand.mergeAt (st : Strand) : Strand :=
  match st.cur with
  | none => st
  | some c =>
    if c.cl.isSome then st
    else
      let same := st.others.filter fun p => decide (p.pc = c.pc ∧ p.cl = none)
      let un := st.unlisted.filter fun l => decide ((st.fibre l).pc = c.pc ∧ (st.fibre l).cl = none)
      let m := same.foldl (fun m p => m ||| p.mask) (c.mask ||| maskOfLanes un)
      { st with cur := some { c with mask := m }, others := st.others.filter fun p => decide (¬ (p.pc = c.pc ∧ p.cl = none)) }

/-- The header that a path stands at, as fetch would give it. -/
def State.peekHeader (s : State) (w : Who) (pc : DWord) : Option Nat :=
  match s.fetch w pc 8 with
  | (_, .ok b) => if headerOk (leNat b) then some (leNat b) else none
  | _ => none

/-- The convergence gate's lane operand, when the clause's first word is a .cv instruction (R175). -/
def State.gateSrc (s : State) (w : Who) (pc : DWord) : Option (BitVec 9) :=
  match s.word w (nextIp pc 8) with
  | (_, .ok f) => if f.firstOnly && decide (0x202 ≤ f.opc.toNat ∧ f.opc.toNat ≤ 0x206) then some f.sc else none
  | _ => none

/-- The lane mask a gate names: a window register of the path's lowest lane, or an inline constant as an unsigned 32-bit value
(R64, R175). -/
def gateMask (f : Fibre) (c : BitVec 9) : BitVec 32 :=
  if c.toNat < 0x100 then f.win.getD c.toNat 0
  else BitVec.ofNat 32 (constAt (.i .ui32) (c.toNat - 0x140))

/-- The gate is open: every live or parked fibre it names is in the path (R175). -/
def Strand.gateOpen (st : Strand) (m : BitVec 32) (p : Path) : Bool :=
  (List.range 32).all fun l => !m.getLsbD l || p.mask.getLsbD l || decide ((st.fibre l).st = .empty)

/-- While its coil stops, a path stands still at a region entry: a KNOT clause or a forced boundary (R374, R394). -/
def State.atEntry (s : State) (w : Who) (st : Strand) (p : Path) : Bool :=
  match w with
  | .sup _ => false
  | .strand r _ =>
    match s.rope? r with
    | none => false
    | some rp => rp.stopping.isSome &&
        ((lanesOf p.mask).any (fun l => decide (512 ≤ (st.fibre l).issued)) ||
          match s.word w (nextIp p.pc 8) with
          | (_, .ok f) => f.opc == 0x382#10
          | _ => false)

/-- At the headers of gates, paths that stand there together merge, and unlisted fibres that stand there join them (R175). -/
def State.mergeGates (s : State) (w : Who) (st : Strand) : Strand :=
  (st.others.filter fun p => p.cl.isNone && (s.gateSrc w p.pc).isSome).foldl (fun (st : Strand) p => st.mergeOthers p.pc) st

/-- A listed path is ready: none of its fibres waits, it does not stall at a flag that stands at 63, the flags its header waits on are
clear, its gate is open (R19, R153). -/
def State.pathReady (s : State) (w : Who) (st : Strand) (p : Path) : Bool :=
  let ls := lanesOf p.mask
  ls ≠ [] && ls.all (fun l => decide ((st.fibre l).wait = none) && !(st.fibre l).stop) &&
    st.brim.all (fun b => decide (b.1 ≠ p.mask ∨ getAt st.flags b.2 < 63)) &&
    (p.cl.isSome || !s.atEntry w st p &&
      match s.peekHeader w p.pc with
      | none => true
      | some h => (setBits 12 (headerWait h)).all (fun i => getAt st.flags i = 0) &&
        match s.gateSrc w p.pc with
        | some c => st.gateOpen (gateMask (st.fibre (ls.headD 0)) c) p
        | none => true)

/-- The current path's entry takes another listed path. -/
def Strand.take (st : Strand) (p : Path) (byRot : Bool) : Strand :=
  let old := (st.cur.filter fun c => decide (c.mask ≠ 0)).toList
  { st with cur := some { p with count := 0, byRot := byRot }, gone := none, others := (st.others.filter fun q => decide (q.mask ≠ p.mask)) ++ old }

/-- The next ready path after an address, in the order of addresses, wrapping to the lowest (R154). -/
def nextAbove (pc : DWord) (l : List Path) : Option Path :=
  match minBy (fun p : Path => p.pc.toNat) (l.filter fun p => decide (pc.toNat < p.pc.toNat)) with
  | some p => some p
  | none => minBy (fun p : Path => p.pc.toNat) l

/-- Where every listed path is blocked and unlisted groups exist, the listed path of the highest PC makes room for the group that R156
chooses (R175); it counts as a rotation for the groups that stay (log 70). -/
def Strand.relieve (st : Strand) : Strand :=
  match st.nextGroup, maxBy (fun p : Path => p.pc.toNat) st.others with
  | some g, some p =>
    let old := st.unlisted.filter fun l => !g.lanes.contains l
    let st := { st with fibres := st.fibres.mapIdx fun i (f : Fibre) => if old.contains i then { f with uage := f.uage + 1 } else f }
    (st.unlist p).list g
  | _, _ => st

/-- SelectPath of R154, in its order, at a clause header of the current path or where that is empty or blocked. While the debugger
steps a fibre, its path stays and no other joins it (R390). -/
def State.selectPath (s : State) (w : Who) (st : Strand) : Strand :=
  if st.grant.isSome then st else
  let st := s.mergeGates w ((st.mergeAt).refill 8)
  let others := st.others.filter (s.pathReady w st)
  -- no path is current: the lowest ready one is taken, and where none is, room is made for an unlisted group
  let lowest := fun (st : Strand) =>
    match minBy (fun p : Path => p.pc.toNat) (st.others.filter (s.pathReady w st)) with
    | some p => st.take p false
    | none => { st with cur := none, gone := none }.relieve
  let rotate := fun (pc : DWord) =>
    let st := st.rotateUnlisted
    match nextAbove pc (st.others.filter (s.pathReady w st)) with
    | some p => st.take p true
    | none => st
  match st.cur.filter fun c => decide (c.mask ≠ 0) with
  | none => match st.gone with
    | some (pc, n) => if st.quantum.toNat ≤ n ∧ others ≠ [] then rotate pc else lowest { st with cur := none }
    | none => lowest { st with cur := none }
  | some c =>
    -- a path inside its clause goes on, unless something blocks it there (R19, R158)
    if c.cl.isSome ∧ s.pathReady w st c then st
    else if st.quantum.toNat ≤ c.count ∧ others ≠ [] then rotate c.pc
    else if !s.pathReady w st c then lowest { st with cur := none, others := st.others ++ [c] }
    else
      match minBy (fun p : Path => p.pc.toNat) (others.filter fun p => decide (p.pc.toNat < c.pc.toNat)) with
      | some p => if c.byRot then st else st.take p false
      | none => st

/-- The parts of a path after a branch: lanes by the address they go to, ascending (R87, R152). -/
def partsOf (tgts : List (Nat × DWord)) : List (DWord × List Nat) :=
  let ins := fun (acc : List (DWord × List Nat)) (q : Nat × DWord) =>
    match lookupBy Prod.fst q.2 acc with
    | some e => upsert Prod.fst (q.2, e.2 ++ [q.1]) acc
    | none => acc ++ [(q.2, [q.1])]
  sortBy (fun e : DWord × List Nat => e.1.toNat) (tgts.foldl ins [])

/-- A clause of the current path ends: the part at the lowest address keeps the entry and its count, the others take free entries
in ascending order of address (R152). -/
def Strand.split (st : Strand) (c : Path) (tgts : List (Nat × DWord)) : Strand :=
  match partsOf tgts with
  | [] => { st with cur := none }
  | (a, ls) :: more =>
    let st := { st with cur := some { c with mask := maskOfLanes ls, pc := a, cl := none },
                        fibres := st.fibres.mapIdx fun i (f : Fibre) => if ls.contains i then { f with pc := a, cl := none, uage := 0 } else f }
    more.foldl (fun st p => st.addPath ⟨maskOfLanes p.2, p.1, 0, false, none⟩) st

end Sys2Proof.Machine
end

