-- ==== Sys2Proof/Machine/Operands.lean ====
section
/-! DEFINITION. Every operand form: window and near registers, latch, constants, immediates, pairs and quads; pending bits;
predicates; guards (R12 to R15, R21, R24, R59 to R65, R80, R266). -/

namespace Sys2Proof.Machine

/-- Window register i; a register beyond the window holds nothing (the decoder refuses it, R13). -/
def Fibre.reg (f : Fibre) (i : Nat) : Nat := (f.win.getD i 0).toNat

/-- Window register i written. -/
def Fibre.setReg (f : Fibre) (i : Nat) (v : Nat) : Fibre := { f with win := f.win.set i (BitVec.ofNat 32 v) }

/-- Consecutive window registers written. -/
def Fibre.setRegs (f : Fibre) (i : Nat) : List Word → Fibre
  | [] => f
  | v :: vs => (f.setReg i v.toNat).setRegs (i + 1) vs

/-- Near register i. -/
def Fibre.nreg (f : Fibre) (i : Nat) : Nat := (f.near.getD i 0).toNat

/-- Near register i written. -/
def Fibre.setNreg (f : Fibre) (i : Nat) (v : Nat) : Fibre := { f with near := f.near.set i (BitVec.ofNat 32 v) }

/-- The latch written: a 32-bit result clears its upper half (R15). -/
def Fibre.setLat (f : Fibre) (v : Nat) : Fibre := { f with lat := BitVec.ofNat 64 v }

/-- A source operand read in a position of 32 or 64 bits (R13 to R15, R61 to R64). -/
def Fibre.src (f : Fibre) (p : Pos) (x : Src) : Nat :=
  match x with
  | .w i => if p.wide then f.reg i.toNat + 2 ^ 32 * f.reg (i.toNat + 1) else f.reg i.toNat
  | .n i => if p.wide then f.nreg i.toNat + 2 ^ 32 * f.nreg (i.toNat + 1) else f.nreg i.toNat
  | .lat => if p.wide then f.lat.toNat else f.lat.toNat % 2 ^ 32
  | .c j => constAt p j.toNat
  | .imm v => immAt p v

/-- n words of a source: pairs, quads and blocks; a constant is taken as one unsigned integer of the width (R266). -/
def Fibre.srcWords (f : Fibre) (n : Nat) (x : Src) : List Word :=
  match x with
  | .w i => (List.range n).map fun k => f.win.getD (i.toNat + k) 0
  | .n i => (List.range n).map fun k => f.near.getD (i.toNat + k) 0
  | .lat => (List.range n).map fun k => if k < 2 then BitVec.ofNat 32 (f.lat.toNat / 2 ^ (32 * k)) else 0
  | .c j => (List.range n).map fun k => BitVec.ofNat 32 (wrap (32 * n) (constI j.toNat) / 2 ^ (32 * k))
  | .imm v => (List.range n).map fun k => BitVec.ofNat 32 (immAt .b64 v / 2 ^ (32 * k))

/-- A coordinate quad: four signed words, or one constant for all four (R326). -/
def Fibre.quad (f : Fibre) (x : Src) : List Int :=
  match x with
  | .c j => List.replicate 4 (constI j.toNat)
  | _ => (f.srcWords 4 x).map BitVec.toInt

/-- A destination written with a result of 32 or 64 bits; code 0x108 is the latch alone (R15, R61). -/
def Fibre.dst (f : Fibre) (wide : Bool) (d : Dst) (v : Nat) : Fibre :=
  match d with
  | .w i => if wide then (f.setReg i.toNat (v % 2 ^ 32)).setReg (i.toNat + 1) (v / 2 ^ 32) else f.setReg i.toNat v
  | .n i => if wide then (f.setNreg i.toNat (v % 2 ^ 32)).setNreg (i.toNat + 1) (v / 2 ^ 32) else f.setNreg i.toNat v
  | .lat => f.setLat (if wide then v else v % 2 ^ 32)

/-- A destination and the latch written with one result (R15). -/
def Fibre.result (f : Fibre) (wide : Bool) (d : Dst) (v : Nat) : Fibre :=
  (f.dst wide d v).setLat (if wide then v else v % 2 ^ 32)

/-- Predicate i; p15 reads 1 (R12). -/
def Fibre.pred (f : Fibre) (i : Num4) : Bool := i == 15 || f.preds.getLsbD i.toNat

/-- Predicate i written; a write to p15 is ignored (R12, R65). -/
def Fibre.setPred (f : Fibre) (i : Num4) (v : Bool) : Fibre :=
  if i = 15 then f
  else { f with preds := if v then f.preds ||| (1#16 <<< i.toNat) else f.preds &&& ~~~(1#16 <<< i.toNat) }

/-- A wait is over: its predicate and its register are written. -/
def Fibre.waitDone (f : Fibre) (pd : Option (Num4 × Bool)) (reg : Option (Nat × Word)) : Fibre :=
  let f := match pd with
    | some (p, v) => f.setPred p v
    | none => f
  match reg with
  | some (i, v) => f.setReg i v.toNat
  | none => f

/-- The wait that `is` names is over. One that a signal's stop has set aside ends when the fibre is back (R427). -/
def Fibre.release (f : Fibre) (is : Wait → Bool) (pd : Option (Num4 × Bool)) (reg : Option (Nat × Word)) : Fibre :=
  if f.wait.any is then { f with wait := none }.waitDone pd reg
  else match f.stash.findIdx? fun w => w.any is with
    | some i => { f with stash := f.stash.set i (some (.over pd reg)) }
    | none => f

/-- After a signal's handler the fibre waits again for what it waited for, or takes what ended that meanwhile (R427). -/
def Fibre.waitAgain (f : Fibre) : Fibre :=
  let g := { f with wait := none, stash := f.stash.drop 1 }
  match f.stash.headD none with
  | some (.over pd reg) => g.waitDone pd reg
  | w => { g with wait := w }

/-- The guard passes (R24). -/
def Fibre.guard (f : Fibre) (g : Guard) : Bool := f.pred g.pg != g.pn

/-- Window registers a source of n words touches. -/
def useS (n : Nat) : Src → List Nat
  | .w i => (List.range n).map (i.toNat + ·)
  | _ => []

/-- Window registers a destination of n words touches. -/
def useD (n : Nat) : Dst → List Nat
  | .w i => (List.range n).map (i.toNat + ·)
  | _ => []

/-- Window registers a long-latency destination of n words touches. -/
def useW (n : Nat) (d : Option (BitVec 8)) : List Nat :=
  match d with
  | some i => (List.range n).map (i.toNat + ·)
  | none => []

/-- Words of a width flag. -/
def nw (wide : Bool) : Nat := if wide then 2 else 1

/-- A named register is pending, or is to take a result of the clause itself, landed or not: the hazard of R21. -/
def Fibre.hazard (f : Fibre) (uses : List Nat) : Bool := uses.any fun i => f.pend.getLsbD i || f.own.getLsbD i

/-- Registers marked pending, for the rest of the clause whatever lands (R21). -/
def Fibre.setPend (f : Fibre) (l : List Nat) : Fibre :=
  let mark := fun (m : BitVec 256) => l.foldl (fun m i => m ||| (1#256 <<< i)) m
  { f with pend := mark f.pend, own := mark f.own }

/-- Registers that remain pending. -/
def Fibre.keepPend (f : Fibre) (l : List Nat) : Fibre := { f with pend := l.foldl (fun m i => m ||| (1#256 <<< i)) f.pend }

/-- Registers no longer pending. -/
def Fibre.clrPend (f : Fibre) (l : List Nat) : Fibre := { f with pend := l.foldl (fun m i => m &&& ~~~(1#256 <<< i)) f.pend }

/-- A trap of one lane: class, kind, info, fault VA; `after`: it resumes at the following word (R363, R416). -/
structure Trap where
  cls   : FClass
  kind  : RKind
  info  : Word
  fva   : DWord
  after : Bool
  deriving DecidableEq, Repr

/-- An ILLEGAL trap with a cause (R71). -/
def illegal (c : Cause) : Trap := ⟨.illegal, .at, BitVec.ofNat 32 c.code, 0, false⟩

/-- What one lane of one issue comes to: its fibre, where a branch takes it, the trap it raised. -/
structure LaneRes where
  fib : Fibre
  tgt : Option DWord
  trap : Option Trap
  deriving DecidableEq, Repr

/-- A lane that completes. -/
def LaneRes.ok (f : Fibre) : LaneRes := ⟨f, none, none⟩

/-- A lane that traps; nothing of it is written. -/
def LaneRes.fault (f : Fibre) (t : Trap) : LaneRes := ⟨f, none, some t⟩

end Sys2Proof.Machine
end

