-- ==== Sys2Proof/Machine/Flags.lean ====
section
/-! DEFINITION. Conditions of floating-point results, their traps and the sticky flags; control-register checks (R28, R29, R48,
R106, R119). -/

namespace Sys2Proof.Machine

/-- The trap enables of FPCTL as a mask over IX, UF, OF, DZ, IV (R28). -/
def fpEnables (fpctl : Word) : Nat := fpctl.toNat / 8 % 32

/-- FTZ of FPCTL (R28). -/
def Fibre.ftz (f : Fibre) : Bool := f.fpctl.getLsbD 8

/-- The dynamic rounding mode of FPCTL (R28). -/
def Fibre.rm (f : Fibre) : Rc :=
  match f.fpctl.toNat % 8 with
  | 0 => .rne | 1 => .rz | 2 => .rp | _ => .rm

/-- A rounding code with .dyn resolved by FPCTL.RM (R45). -/
def Fibre.rc (f : Fibre) : Rc → Rc
  | .dyn => f.rm
  | r => r

/-- Conditions recorded in FPSTAT (R28). -/
def Fibre.raise (f : Fibre) (flags : Nat) : Fibre := { f with fpstat := f.fpstat ||| BitVec.ofNat 32 (flags % 32) }

/-- The conditions meet an enable of the fibre's FPCTL (R119). -/
def Fibre.traps (f : Fibre) (flags : Nat) : Bool := fpEnables f.fpctl &&& flags ≠ 0

/-- The ARITH trap that names conditions (R365). -/
def arith (flags : Nat) : Trap := ⟨.arith, .at, BitVec.ofNat 32 (flags % 32), 0, false⟩

/-- How an instruction with conditions F ends: an ARITH trap, or FPSTAT and what it writes (R119). -/
def Fibre.finish (f : Fibre) (flags : Nat) (write : Fibre → Fibre) : LaneRes :=
  if f.traps flags then .fault f (arith flags) else .ok (write (f.raise flags))

/-- A float result with its conditions written to a destination and the latch (R15, R119). -/
def Fibre.finishF (f : Fibre) (wide : Bool) (d : Dst) (r : Nat × Nat) : LaneRes := f.finish r.2 fun f => f.result wide d r.1

/-- Control and status registers by number (R28, R389, R448, R458). -/
inductive Csr where
  | fpctl | fpstat | intctl | quantum | srseed | knotlim | tc (i : Nat) | bka (n : Nat) | bkc (n : Nat) | svflt | svpage
  deriving DecidableEq, Repr

/-- The register of a number; none: unassigned (R28, R29). -/
def csrOf (n : Nat) : Option Csr :=
  if n = 0 then some .fpctl else if n = 1 then some .fpstat else if n = 2 then some .intctl else if n = 0x10 then some .quantum
  else if n = 0x11 then some .srseed else if n = 0x20 then some .knotlim
  else if 0x100 ≤ n ∧ n < 0x110 then some (.tc (n - 0x100))
  else if 0x840 ≤ n ∧ n < 0x844 then some (.bka (n - 0x840)) else if 0x844 ≤ n ∧ n < 0x848 then some (.bkc (n - 0x844))
  else if n = 0x848 then some .svflt else if n = 0x849 then some .svpage else none

/-- The register takes 64 bits (R28, R389, R458). -/
def Csr.wide : Csr → Bool
  | .srseed | .bka _ | .svpage => true
  | _ => false

/-- Packed size in bytes of n elements of an engine format (R298). -/
def packedSize (fmt n : Nat) : Nat :=
  match fmt with
  | 0 => 8 * n
  | 1 | 16 => 4 * n
  | 2 | 3 | 9 => 2 * n
  | 4 | 5 | 6 | 7 | 10 | 11 => n
  | 8 | 12 | 13 => cdiv n 2
  | 14 => cdiv n 5
  | _ => cdiv n 8

/-- The five narrow float formats (R40, R298). -/
def narrowFmt (fmt : Nat) : Bool := decide (4 ≤ fmt ∧ fmt ≤ 8)

/-- A tile control value breaks R316. -/
def tcBad (v : Nat) : Bool :=
  let fmt := bits v 0 5
  let cols := bits v 11 12 + 1
  bits v 26 6 != 0 || bit v 24 || decide (16 < fmt) || decide (256 < packedSize fmt cols) ||
    (bit v 23 && (!narrowFmt fmt || cols % 16 != 0)) || (bit v 25 && fmt != 14)

/-- A value that R29 forbids in a register; read-only registers forbid every one. -/
def csrForbidden (c : Csr) (v : Nat) : Bool :=
  match c with
  | .fpctl => decide (512 ≤ v) || decide (4 ≤ v % 8)
  | .fpstat => decide (32 ≤ v)
  | .intctl => decide (2 ≤ v)
  | .quantum => decide (4096 ≤ v) || v == 0
  | .srseed => false
  | .tc _ => tcBad v
  | .bka _ => decide (2 ^ 54 ≤ v) || v % 4 != 0
  | .bkc _ => decide (2 ^ 19 ≤ v) || bits v 1 5 != 0
  | .knotlim | .svflt | .svpage => true

end Sys2Proof.Machine
end

