-- ==== Sys2Proof/Machine/Ops.lean ====
section
/-! DEFINITION. The operations every instruction is made of: flags of long-latency operations, parking a fault (taking an
exception) and resuming from it, region entry, and the drivers that issue one word for one path (R18 to R24, R33, R82, R152,
R362 to R376). -/

namespace Sys2Proof.Machine

/-- One operation of an issued instruction is done with: its flag falls when the last one is (R18). -/
def Strand.dueDone (st : Strand) (tag : Nat) : Strand :=
  match lookupBy Due.tag tag st.due with
  | none => st
  | some d =>
    if d.left ≤ 1 then { st with due := eraseBy Due.tag tag st.due, flags := st.flags.set d.flag (getAt st.flags d.flag - 1) }
    else { st with due := upsert Due.tag { d with left := d.left - 1 } st.due }

/-- The same for an issuer's strand. -/
def State.dueDone (s : State) (w : Who) (tag : Option Nat) : State :=
  match tag with
  | some t => s.setStrand w ((s.strand w).dueDone t)
  | none => s

/-- A flag raised for n operations of one issue (R18). -/
def Strand.raiseDue (st : Strand) (flag : Option (BitVec 4)) (tag n : Nat) : Strand :=
  match flag with
  | some f => if n = 0 then st else
    { st with due := st.due ++ [⟨tag, f.toNat, n⟩], flags := st.flags.set f.toNat (getAt st.flags f.toNat + 1) }
  | none => st

/-- Lanes taken out of every path (R82, R152); a current path that becomes empty leaves its address and count (R154). -/
def Strand.leave (st : Strand) (m : BitVec 32) : Strand :=
  { st with cur := (st.cur.map fun p => { p with mask := p.mask &&& ~~~m }).filter fun p => decide (p.mask ≠ 0),
            gone := match st.cur with
              | some p => if p.mask &&& ~~~m = 0 then some (p.pc, p.count) else none
              | none => st.gone,
            others := (st.others.map fun (p : Path) => { p with mask := p.mask &&& ~~~m }).filter fun p => decide (p.mask ≠ 0) }

/-- The fibre's accesses whose translation is still to come (R170, R367, R371). -/
def State.untranslated (s : State) (l : LaneId) : Bool :=
  s.accs.any fun a => decide (a.lane = l ∧ a.xl = none ∧ a.void = false ∧ a.kind ≠ .land)

/-- A signal's pending bit set in a process (R385). -/
def State.setPending (s : State) (ctx sig : Nat) : State :=
  match s.ctx? ctx with
  | some c => s.setCtx { c with pending := c.pending ||| (1#16 <<< sig) }
  | none => s

/-- A signal posted to a process with the fva and info its frame will carry; one already pending merges into it (R382, R385). -/
def State.postSig (s : State) (ctx sig : Nat) (fva : DWord) (info : Word) : State :=
  match s.ctx? ctx with
  | some c =>
    if c.pending.getLsbD sig then s
    else s.setCtx { c with pending := c.pending ||| (1#16 <<< sig), sinfo := upsert Prod.fst (sig, fva, info) c.sinfo }
  | none => s

/-- An unresolvable fault of supervisor code: the core's strands stop, and ENGINE is posted to every context with a rope on the core
(R376). -/
def State.stopCore (s : State) (core : Nat) (info : FaultInfo) : State :=
  let s := s.setCore { s.core core with stopped := true, svWait := some info }
  let ctxs := ((s.ropes.filter fun r => decide (r.id.core = core)).map Rope.ctx).eraseDups
  let s := { s with ropes := s.ropes.map fun (r : Rope) => if r.id.core = core then
      { r with strands := r.strands.map fun (st : Strand) => { st with fibres := st.fibres.map fun (f : Fibre) =>
          if f.st = .live then { f with sel := some 7 } else f } } else r }
  ctxs.foldl (fun (s : State) x => s.setPending x 7) s

/-- A fault of supervisor code (R376): a translation fault goes to the service cores and blocks the strand; any other stops the
core's strands. BKPT goes to the debugger where one is attached (R416). -/
def State.supFault (s : State) (core : Nat) (t : Trap) (fpc hpc : DWord) : State :=
  let info : FaultInfo := ⟨t.cls, t.kind, t.info, t.fva, fpc, fpc⟩
  if t.cls = .xlate ∨ (t.cls = .brk ∧ s.debugger) then
    (s.setCore { s.core core with svWait := some info }).send (.serviceReq core t.info.toNat)
  else s.stopCore core { info with rpc := hpc }

/-- Held stores of a fibre that are not yet released are discarded (R236, R372). -/
def State.dropHeld (s : State) (l : LaneId) : State :=
  { s with accs := s.accs.filter fun a => decide (¬ (a.lane = l ∧ a.sq.isSome)) }

/-- Results still due to a fibre's registers from what it issued from number n on are to be discarded when they arrive, and their
pending bits are cleared (R173, R368). -/
def State.voidFrom (s : State) (l : LaneId) (n : Nat) : State :=
  let s := { s with accs := s.accs.map fun (a : Access) => if a.lane = l ∧ a.wd.isSome ∧ n ≤ a.id then { a with void := true } else a }
  let f := s.fibre (laneWho l) l.lane
  let due := (s.accs.filter fun a => decide (a.lane = l ∧ a.void = false)).flatMap fun a => match a.wd with
    | some (d, k) => (List.range k).map (d + ·)
    | none => []
  s.setFibre (laneWho l) l.lane ({ f with pend := 0, own := 0 }.keepPend (due.filter fun i => f.pend.getLsbD i))

/-- The same for everything that it has issued. -/
def State.voidLoads (s : State) (l : LaneId) : State := s.voidFrom l 0

/-- A park is complete but for its entry: for kind AT every earlier memory operation is translated (R367). -/
def State.parkReady (s : State) (p : Parking) : Bool :=
  p.flt.kind != .at || (lanesOf p.mask).all fun l => !s.untranslated ⟨p.rope, p.sid, l⟩

/-- The replay entry of a park (R364, R366). -/
def State.entryOf (s : State) (p : Parking) (seq : Word) : Entry :=
  let st := s.strand (.strand p.rope p.sid)
  let f := st.fibre ((lanesOf p.mask).headD 0)
  { seq := seq, ctx := ((s.rope? p.rope).map Rope.ctx).getD 0, rope := p.rope, sid := p.sid, fmask := p.mask, cls := p.flt.cls,
    kind := p.flt.kind, info := p.flt.info, opnum := 0, tl := 0, rtry := f.rtry, srl := f.serial, fva := p.flt.fva, rpc := p.flt.rpc,
    fpc := p.fpc, hpc := p.hpc, kpc := f.kpc,
    lanes := if p.flt.kind = .at then (lanesOf p.mask).map fun l => ⟨l, (st.fibre l).near, (st.fibre l).lat⟩ else [],
    popped := false, op := none }

/-- The replay queue has a free entry (R375). -/
def Core.room (c : Core) : Bool := decide (c.rq.length < 64)

/-- A park's entry is written and its fibres are parked by it (R363, R364, R375). -/
def State.writeEntry (s : State) (p : Parking) : State :=
  let c := s.core p.rope.core
  let e := s.entryOf p c.seq
  let w : Who := .strand p.rope p.sid
  let st := s.strand w
  let st := { st with fibres := st.fibres.mapIdx fun i (f : Fibre) => if p.mask.getLsbD i then { f with st := FSt.parked c.seq } else f }
  let rest := c.parking.filter fun q => decide (q ≠ p)
  let full := rest.any fun q => decide (q.rope = p.rope ∧ q.sid = p.sid) && s.parkReady q
  (s.setCore { c with rq := c.rq ++ [e], seq := c.seq + 1, parking := rest }).setStrand w { st with full := full && decide (64 ≤ c.rq.length + 1) }

/-- The parks of a core that are complete are written in order while the queue has room; a strand whose park finds none stops
issuing (R375). -/
def State.flushParks (s : State) (core : Nat) : State :=
  (s.core core).parking.foldl (fun (s : State) p =>
    if s.parkReady p then
      if (s.core core).room then s.writeEntry p
      else s.setStrand (.strand p.rope p.sid) { s.strand (.strand p.rope p.sid) with full := true }
    else s) s

/-- TAKING AN EXCEPTION (R82, R362 to R367, R372, R376). The lanes leave their path and park at their restart PC; kind KNOT
discards their held stores and the results still due. The entry is written at once where nothing holds it back. In the
supervisor strand the fault goes to the service cores or stops the core. -/
def State.park (s : State) (w : Who) (lanes : List Nat) (t : Trap) (rpc fpc hpc : DWord) : State :=
  match w with
  | .sup core => s.supFault core t fpc hpc
  | .strand r sid =>
    let m := maskOfLanes lanes
    let st := (s.strand w).leave m
    let mark := fun (i : Nat) (f : Fibre) =>
      if m.getLsbD i then { f with st := .parking, pc := rpc, cl := none, wait := none } else f
    let st := { st with fibres := st.fibres.mapIdx mark }
    let s := s.setStrand w st
    let s := if t.kind = .knot then lanes.foldl (fun (s : State) l => (s.dropHeld ⟨r, sid, l⟩).voidFrom ⟨r, sid, l⟩ (s.fibre w l).kid) s else s
    let c := s.core r.core
    let p : Parking := { rope := r, sid := sid, mask := m, flt := ⟨t.cls, t.kind, t.info, t.fva, rpc⟩, fpc := fpc, hpc := hpc }
    (s.setCore { c with parking := c.parking ++ [p] }).flushParks r.core

/-- Lanes grouped by what their traps share, in ascending order of their lowest lane (R363; lanes of different regions or of
different serial modes need entries of their own, R364). -/
def groupTraps (st : Strand) (l : List (Nat × Trap)) : List (Trap × List Nat) :=
  let key := fun (q : Nat × Trap) => (q.2, (st.fibre q.1).kpc, (st.fibre q.1).serial)
  let ins := fun (acc : List ((Trap × DWord × Bool) × List Nat)) (q : Nat × Trap) =>
    match lookupBy Prod.fst (key q) acc with
    | some e => upsert Prod.fst (key q, e.2 ++ [q.1]) acc
    | none => acc ++ [(key q, [q.1])]
  (l.foldl ins []).map fun e => (e.1.1, e.2)

/-- A region entered at a header: predicate word and stochastic count snapshot, serial mode ends, the count of R374 restarts
(R370, R415); n is the number of the next thing issued (R368). -/
def Fibre.enter (f : Fibre) (n : Nat) (kpc : DWord) (wm : Word) (sm tm : BitVec 16) : Fibre :=
  { f with kpc := kpc, kid := n, kpreds := f.preds, kcnt := f.cnt, serial := false, issued := 0, rtry := false, wm := wm, sm := sm, tm := tm }

/-- A fibre rejoins its strand as a path of its own (R152, R420). A signal that it has been chosen for stays with it (R382). -/
def State.rejoin (s : State) (w : Who) (lane : Nat) (f : Fibre) (cl : Option Clause) : State :=
  let st := (s.strand w).setFibre lane { f with st := .live, cl := cl, wait := none }
  s.setStrand w (st.addPath ⟨maskOfLanes [lane], f.pc, 0, false, cl⟩)

/-- RETURN FROM AN EXCEPTION, kind AT (R366, R367, R416): the lane block is restored and the clause at hpc runs on at rpc
without a new test of its wait mask. The header is fetched again; a fault of that fetch, or a word that fetch no longer
reaches, parks the fibre again. A restart at the header itself, or after the clause's last word, stands at a header. -/
def State.resumeAt (s : State) (w : Who) (lane : Nat) (near : List Word) (lat rpc hpc : DWord) : State :=
  let f := { s.fibre w lane with near := near, lat := lat, pc := rpc, noBrk := true }
  if rpc = hpc then s.rejoin w lane { f with own := 0 } none
  else
    let fault := fun (s : State) (c : FClass) (i : Word) (a : DWord) => (s.setFibre w lane f).park w [lane] ⟨c, .at, i, a, false⟩ rpc a hpc
    -- fetch has no answer yet: the fibre stands at rpc, and its header is fetched when its path is next chosen
    let later := fun (s : State) =>
      s.rejoin w lane f (some { hpc := hpc, ip := rpc, left := 0, first := false, set0 := none, set1 := none, yield := false, seek := true })
    match s.fetch w hpc 8 with
    | (s, .flt c i) => fault s c i hpc
    | (s, .retry) => later s
    | (s, .ok b) =>
      if headerOk (leNat b) then
        match s.clauseAt w rpc 17 (clauseOf hpc (leNat b)) with
        | (s, .inside cl) => s.rejoin w lane f (some cl)
        | (s, .ended) => s.rejoin w lane { f with own := 0 } none
        | (s, .missed) => (s.setFibre w lane f).park w [lane] (illegal .target) rpc rpc hpc
        | (s, .flt c i a) => fault s c i a
        | (s, .retry) => later s
      else (s.setFibre w lane f).park w [lane] (illegal .target) rpc rpc hpc

/-- The lanes of a path whose header has not been fetched again resume once more (R367). -/
def State.seekAgain (s : State) (w : Who) (p : Path) (cl : Clause) : State :=
  (lanesOf p.mask).foldl (fun (s : State) l =>
    let f := s.fibre w l
    (s.setStrand w ((s.strand w).leave (maskOfLanes [l]))).resumeAt w l f.near f.lat cl.ip cl.hpc) s

/-- RETURN FROM AN EXCEPTION, kind KNOT (R368): at the knot header with near registers and latch zero, predicates and stochastic
count as at region entry. -/
def State.resumeKnot (s : State) (w : Who) (lane : Nat) : State :=
  let f := s.fibre w lane
  s.rejoin w lane { f with pc := f.kpc, atTgt := false, noBrk := true, near := List.replicate 8 0, lat := 0, preds := f.kpreds ||| 0x8000, cnt := f.kcnt,
                           issued := 0 } none

/-- A fibre resumed at a header as a new region (R370, R387, R420). A target that is no header is cause 10 when it is fetched. -/
def State.resumeNew (s : State) (w : Who) (lane : Nat) (hpc : DWord) : State :=
  let f := s.fibre w lane
  s.rejoin w lane ({ f with pc := hpc, atTgt := true, near := List.replicate 8 0, lat := 0 }.enter s.nextId hpc 0xFFFFFFFF 0xFFFF 0xFFFF) none

/-- Where one word is issued: the issuer, its strand, its path, the clause, and the address after the word. -/
structure Cx where
  who  : Who
  st   : Strand
  path : Path
  cl   : Clause
  next : DWord
  deriving DecidableEq, Repr

/-- Address of the word being issued. -/
def Cx.ip (c : Cx) : DWord := c.cl.ip

/-- The issuing strand stands at a word of a clause. -/
def State.cx? (s : State) (len : Nat) : Option Cx :=
  match s.cur with
  | none => none
  | some w =>
    match (s.strand w).cur with
    | none => none
    | some p =>
      match p.cl with
      | none => none
      | some cl => some ⟨w, s.strand w, p, cl, nextIp cl.ip len⟩

/-- What the issue of an instruction needs beside its effect: length, guard, registers named, whether it is committing (R170),
and which flag it raises (R18): none, set0, or set1 where that is valid. -/
structure Iss where
  len    : Nat
  g      : Guard
  uses   : List Nat
  commit : Bool := false
  flag   : Option Bool := none
  /-- The supervisor strand may not execute it: OPERAND (R508). -/
  rope   : Bool := false
  /-- It accesses something when it issues, so it waits for the lane's earlier acquires (R238). -/
  access : Bool := false
  /-- It is a release of narrow scope: the lane's earlier accesses have completed before it issues (R238). -/
  rel    : Bool := false
  deriving DecidableEq, Repr

/-- The executing lanes: of the path, with their guard passing (R24). -/
def Cx.lanes (c : Cx) (g : Guard) : List Nat := (lanesOf c.path.mask).filter fun l => (c.st.fibre l).guard g

/-- The lanes that also pass the hazard check: the issuing set (R21, R174). -/
def Cx.set (c : Cx) (i : Iss) : List Nat := (c.lanes i.g).filter fun l => !(c.st.fibre l).hazard i.uses

/-- An instruction of R508 in the supervisor strand. -/
def Cx.barred (c : Cx) (i : Iss) : Bool :=
  i.rope && match c.who with
    | .sup _ => true
    | _ => false

/-- The active-set slot given up where another strand of the partition is ready in the pending set (R163). -/
def State.swapSlot (s : State) (w : Who) : State :=
  match w with
  | .sup _ => s
  | .strand r sid =>
    let st := s.strand w
    let part := fun (rp : Rope) (i : Nat) => (rp.part + i) % 4
    let mine := ((s.rope? r).map fun rp => part rp sid).getD 0
    let cands := (s.ropes.filter fun rp => decide (rp.id.core = r.core)).flatMap fun rp =>
      (rp.strands.zipIdx.filter fun q => decide (part rp q.2 = mine ∧ q.1.slot = none) && q.1.ready.isSome).map fun q =>
        (Who.strand rp.id q.2, q.1.ready.getD 0)
    match st.slot, minBy Prod.snd cands with
    | some k, some (w', _) =>
      let s := s.setStrand w { st with slot := none, ready := some s.gtime }
      s.setStrand w' { s.strand w' with slot := some k, since := s.gtime, ready := none }
    | _, _ => s

/-- The word is done with: counts, the lanes that trapped park, the path goes on or its clause ends (R24, R33, R82, R87, R152,
R154, R374). `tgts`: where a branch takes a lane. -/
def State.finish (s : State) (c : Cx) (traps : List (Nat × Trap)) (tgts : List (Nat × DWord)) : State :=
  let st := s.strand c.who
  let all := lanesOf c.path.mask
  match c.who, traps with
  | .sup core, (_, t) :: _ => s.supFault core t c.ip c.cl.hpc
  | _, _ =>
    -- the lanes that go on: they neither trapped nor ended, nor were they parked by a round that the word completed
    let rest := all.filter fun l => !(traps.any fun q => q.1 = l) && decide ((st.fibre l).st = .live)
    let tally := fun (i : Nat) (f : Fibre) =>
      if all.contains i then
        { f with issued := f.issued + 1, noBrk := false, rtry := f.rtry && (!f.noBrk || traps.any fun q => q.1 = i) } else f
    let st := { st with fibres := st.fibres.mapIdx tally, brim := eraseBy Prod.fst c.path.mask st.brim }
    let groups := groupTraps st traps
    let p := { c.path with mask := maskOfLanes rest, count := c.path.count + 1 }
    let st :=
      if rest = [] then { st with cur := none, gone := some (p.pc, p.count) }
      else if c.cl.left ≤ 1 then st.split p (rest.map fun l => (l, (lookupBy Prod.fst l tgts).elim c.next Prod.snd))
      else { st with cur := some { p with cl := some { c.cl with ip := c.next, left := c.cl.left - 1, first := false } } }
    let s := s.setStrand c.who st
    let rpc := fun (g : Trap × List Nat) =>
      if g.1.kind = .knot then (st.fibre (g.2.headD 0)).kpc else if g.1.after then c.next else c.ip
    let s := groups.foldl (fun (s : State) g => s.park c.who g.2 g.1 (rpc g) c.ip c.cl.hpc) s
    if c.cl.left ≤ 1 ∧ c.cl.yield then s.swapSlot c.who else s

/-- One lane of a word whose effect is on its own fibre alone. -/
def Cx.lane (c : Cx) (i : Iss) (f : Nat → Fibre → LaneRes) (l : Nat) (fb : Fibre) : LaneRes :=
  if c.path.mask.getLsbD l && fb.guard i.g then
    if c.barred i then .fault fb (illegal .operand)
    else if fb.hazard i.uses then .fault fb (illegal .hazard) else f l fb
  else .ok fb

/-- A word whose effect is on the executing fibres alone, issued for one path: each lane reads and writes its own registers
(R82). -/
def issue (i : Iss) (f : Cx → Nat → Fibre → LaneRes) (s : State) : Host.Outcome State Fault Refusal :=
  match s.cx? i.len with
  | none => s.noEvent
  | some c =>
    let rs := c.st.fibres.mapIdx fun l fb => c.lane i (f c) l fb
    let s := s.setStrand c.who { c.st with fibres := rs.map LaneRes.fib }
    .next (s.finish c (rs.zipIdx.filterMap fun q => q.1.trap.map fun t => (q.2, t))
      (rs.zipIdx.filterMap fun q => q.1.tgt.map fun t => (q.2, t)))

/-- What a lane with effects beyond its fibre comes to: the state, its result, and the operations it leaves outstanding. -/
structure LaneFx where
  s   : State
  res : LaneRes
  due : Nat
  deriving DecidableEq, Repr

/-- The lane's fibre after the word: one that executed a committing instruction is in serial mode (R373). -/
def LaneRes.committed (r : LaneRes) (i : Iss) : Fibre := if i.commit && (r.trap.map Trap.after).getD true then { r.fib with serial := true } else r.fib

/-- The lanes of a word taken in ascending order, each fibre written back before the next (R269). -/
def runLanes (c : Cx) (i : Iss) (f : State → Nat → Fibre → LaneFx) (s : State) :
    State × List (Nat × Trap) × List (Nat × DWord) × Nat :=
  (c.lanes i.g).foldl (fun (a : State × List (Nat × Trap) × List (Nat × DWord) × Nat) l =>
    let fb := a.1.fibre c.who l
    if c.barred i then (a.1, a.2.1 ++ [(l, illegal .operand)], a.2.2)
    else if fb.hazard i.uses then (a.1, a.2.1 ++ [(l, illegal .hazard)], a.2.2)
    else
      let r := f a.1 l fb
      (r.s.setFibre c.who l (r.res.committed i),
        a.2.1 ++ (r.res.trap.map fun t => (l, t)).toList, a.2.2.1 ++ (r.res.tgt.map fun t => (l, t)).toList, a.2.2.2 + r.due))
    (s, [], [], 0)

/-- The flag an instruction raises: set1 where it asks for it and the clause names one, set0 otherwise (R18). -/
def Cx.flag (c : Cx) (i : Iss) : Option (BitVec 4) :=
  match i.flag with
  | none => none
  | some true => if c.cl.set1.isSome then c.cl.set1 else c.cl.set0
  | some false => c.cl.set0

/-- An access of a lane is not performed yet. -/
def Access.open_ (b : Access) : Bool := !b.done && !b.void && b.kind != .land

/-- A lane has an acquire in progress (R238). -/
def State.acqOpen (s : State) (l : LaneId) : Bool := s.accs.any fun a => decide (a.lane = l) && a.open_ && (a.order == .acq || a.order == .ar)

/-- A lane has an access in progress. -/
def State.anyOpen (s : State) (l : LaneId) : Bool := s.accs.any fun a => decide (a.lane = l) && a.open_

/-- The word stalls at issue, which costs time only: a committing instruction waits for translation (R170), an access at issue for
earlier acquires and a narrow release for earlier accesses (R238), a flag that stands at 63 has to fall (R19). -/
def State.stalls (s : State) (c : Cx) (i : Iss) : Bool :=
  (c.lanes i.g).any (fun l => (i.commit && s.untranslated (c.who.lane l)) || (i.access && s.acqOpen (c.who.lane l)) ||
      (i.rel && s.anyOpen (c.who.lane l))) ||
    match c.flag i with
    | some k => decide (63 ≤ getAt c.st.flags k.toNat) && !(c.lanes i.g).isEmpty
    | none => false

/-- A lane at work on the word that it is at. -/
def Cx.doer (c : Cx) (s : State) (l : Nat) : Doer := .lane (c.who.lane l) (s.fibre c.who l).issued

/-- The lane function of `issueTry` on the state before the word, where it finds an access that has to be repeated: what that
leaves (a request on its way). -/
def Cx.again (c : Cx) (i : Iss) (f : State → Nat → Fibre → Except State LaneFx) (s : State) : Option State :=
  if c.barred i then none
  else (c.set i).findSome? fun l => match f (s.as (c.doer s l)) l (s.fibre c.who l) with
    | .error e => some e
    | .ok _ => none

/-- `runLanes` with a lane function that may find an access to be repeated. -/
def runLanesTry (c : Cx) (i : Iss) (f : State → Nat → Fibre → Except State LaneFx) (s : State) :
    Option (State × List (Nat × Trap) × List (Nat × DWord) × Nat) :=
  (c.lanes i.g).foldl (fun (a : Option (State × List (Nat × Trap) × List (Nat × DWord) × Nat)) l =>
    match a with
    | none => none
    | some a =>
      let fb := a.1.fibre c.who l
      if c.barred i then some (a.1, a.2.1 ++ [(l, illegal .operand)], a.2.2)
      else if fb.hazard i.uses then some (a.1, a.2.1 ++ [(l, illegal .hazard)], a.2.2)
      else match f (a.1.as (c.doer a.1 l)) l fb with
        | .error _ => none
        | .ok r => some ((r.s.as a.1.agent).setFibre c.who l (r.res.committed i), a.2.1 ++ (r.res.trap.map fun t => (l, t)).toList,
            a.2.2.1 ++ (r.res.tgt.map fun t => (l, t)).toList, a.2.2.2 + r.due))
    (some (s, [], [], 0))

/-- The issue of a word stalls: where a flag that stands at 63 holds it up, its path is blocked until the flag falls (R19, R153). -/
def State.stall (s : State) (c : Cx) (i : Iss) : State :=
  match c.flag i with
  | some k => if 63 ≤ getAt c.st.flags k.toNat ∧ c.lanes i.g ≠ [] then
      s.setStrand c.who { c.st with brim := upsert Prod.fst (c.path.mask, k.toNat) c.st.brim }
    else s
  | none => s

/-- A word with effects beyond the executing fibres, issued for one path, lane by lane (R82, R269). The lane function takes the
number of the issue, under which its operations count towards the flag; where it answers an error, an access of it was answered
Retry, and the whole word is repeated later, which costs time only (R237). -/
def issueTry (i : Iss) (f : Cx → Nat → State → Nat → Fibre → Except State LaneFx) (s : State) : Host.Outcome State Fault Refusal :=
  match s.cx? i.len with
  | none => s.noEvent
  | some c =>
    if s.stalls c i then .next (s.stall c i)
    else
      let (tag, s) := s.fresh
      match c.again i (f c tag) s, runLanesTry c i (f c tag) s with
      | some s, _ => .next s
      | none, none => .next s
      | none, some (s, traps, tgts, n) =>
        let s := s.setStrand c.who ((s.strand c.who).raiseDue (c.flag i) tag n)
        .next (s.finish c traps tgts)

/-- The same for a word none of whose accesses is answered Retry. -/
def issueSt (i : Iss) (f : Cx → Nat → State → Nat → Fibre → LaneFx) (s : State) : Host.Outcome State Fault Refusal :=
  match s.cx? i.len with
  | none => s.noEvent
  | some c =>
    if s.stalls c i then .next (s.stall c i)
    else
      let (tag, s) := s.fresh
      let (s, traps, tgts, n) := runLanes c i (f c tag) s
      let s := s.setStrand c.who ((s.strand c.who).raiseDue (c.flag i) tag n)
      .next (s.finish c traps tgts)

end Sys2Proof.Machine
end

