-- ==== Sys2Proof/Machine/Header.lean ====
section
/-! DEFINITION. Clause headers, forced knots, the active set and hardware breakpoints (R17 to R23, R27, R33, R50, R154 to R156,
R163, R370, R374, R389, R498). -/

namespace Sys2Proof.Machine

/-- A pending QUANTUM or SRSEED takes effect at the strand's clause header; a new seed clears every stochastic count (R27, R50). After
a YIELD the current path's quantum counts as spent there (R89). -/
def Strand.applyCsr (st : Strand) : Strand :=
  let st := match st.quantumP with
    | some q => { st with quantum := q, quantumP := none }
    | none => st
  let st := if st.spent then
      { st with spent := false, cur := st.cur.map fun p => { p with count := max p.count st.quantum.toNat },
                gone := st.gone.map fun g => (g.1, max g.2 st.quantum.toNat) }
    else st
  match st.srseedP with
  | some x => { st with srseed := x, srseedP := none, fibres := st.fibres.map fun (f : Fibre) => { f with cnt := 0 } }
  | none => st

/-- Every lane of the current path parks where it stands (R82, R362). -/
def State.trapPath (s : State) (w : Who) (t : Trap) (a hpc : DWord) : State :=
  match (s.strand w).cur with
  | none => s
  | some p =>
    let gs := groupTraps (s.strand w) ((lanesOf p.mask).map fun l => (l, t))
    match w with
    | .sup core => s.supFault core t a hpc
    | _ => gs.foldl (fun (s : State) g => s.park w g.2 g.1 a a hpc) s

/-- Lanes of a path that reach a forced boundary at its header: KNOTLIM instructions issued in the region (R374). -/
def Strand.forcedLanes (st : Strand) (p : Path) : List Nat := (lanesOf p.mask).filter fun l => decide (512 ≤ (st.fibre l).issued)

/-- A lane's earlier operations hold up its region entry: untranslated, or held stores not yet released (R370). -/
def State.holdsEntry (s : State) (l : LaneId) : Bool :=
  s.untranslated l || s.accs.any fun a => decide (a.lane = l) && a.sq.isSome

/-- Fibres of a strand entered into a new region at a header (R370). -/
def Strand.enterAll (st : Strand) (n : Nat) (ls : List Nat) (kpc : DWord) (wm : Word) (sm tm : BitVec 16) : Strand :=
  { st with held := 0,
            fibres := st.fibres.mapIdx fun i (f : Fibre) => if ls.contains i then f.enter n kpc wm sm tm else f }

/-- The breakpoint that a fibre of a context hits at an address (R389): the lowest enabled one that matches. -/
def Core.breakAt (c : Core) (ctx : Nat) (a : DWord) : Option Nat :=
  (List.range 4).find? fun n =>
    let k := (c.bkc.getD n 0).toNat
    bit k 0 && (bit k 6 || bits k 7 12 == ctx) && c.bka.getD n 0 == a

/-- The breakpoint that the current path hits, with the lanes that hit it; a replayed fibre passes the word it resumes at (R389). -/
def State.breakHit (s : State) (w : Who) (a : DWord) : Option (Nat × List Nat) :=
  match w with
  | .sup _ => none
  | .strand r _ =>
    match s.rope? r, (s.strand w).cur with
    | some rp, some p =>
      let ls := (lanesOf p.mask).filter fun l => !((s.strand w).fibre l).noBrk
      if ls = [] then none else ((s.core r.core).breakAt rp.ctx a).map fun n => (n, ls)
    | _, _ => none

/-- The address of the word that the current path stands at. -/
def Path.at (p : Path) : DWord := p.cl.elim p.pc Clause.ip

/-- The lanes of a breakpoint park with class BREAK before the word has any effect (R389). -/
def State.breakPark (s : State) (w : Who) (n : Nat) (ls : List Nat) : State :=
  match (s.strand w).cur with
  | none => s
  | some p =>
    let a := p.at
    (groupTraps (s.strand w) (ls.map fun l => (l, (⟨.brk, .at, BitVec.ofNat 32 n, 0, false⟩ : Trap)))).foldl
      (fun (s : State) g => s.park w g.2 g.1 a a (p.cl.elim p.pc Clause.hpc)) s

/-- A header that passes its checks opens its clause: near registers and latch read zero (R14, R15, R33). -/
def Strand.openClause (st : Strand) (p : Path) (h : Nat) : Strand :=
  { st with
    cur := some { p with cl := some (clauseOf p.pc h) },
    fibres := st.fibres.mapIdx fun i (f : Fibre) =>
      if p.mask.getLsbD i then { f with near := List.replicate 8 0, lat := 0, own := 0, noBrk := false, atTgt := false } else f }

/-- A path at a header whose word is none: cause 0, and cause 10 for the lanes whose branch brought them here untested (R22, R71,
R86). A header code with a reserved field set is cause 0 for them too, as where the test was not put off (log 20). -/
def State.badHeader (s : State) (w : Who) (p : Path) (b : List Byte) : State :=
  match w with
  | .sup core => s.supFault core (illegal .wordkind) p.pc p.pc
  | _ =>
    let st := s.strand w
    (groupTraps st ((lanesOf p.mask).map fun l => (l, illegal (if (st.fibre l).atTgt && !isHeaderWord b then .target else .wordkind)))).foldl
      (fun (s : State) g => s.park w g.2 g.1 p.pc p.pc p.pc) s

/-- The strand holds its slot for 64 cycles or more while another of its partition has been ready that long: it leaves at this
header (R163). -/
def State.overdue (s : State) (w : Who) : Bool :=
  match w with
  | .sup _ => false
  | .strand r sid =>
    let part := fun (rp : Rope) (i : Nat) => (rp.part + i) % 4
    match s.rope? r with
    | none => false
    | some me =>
      let st := s.strand w
      let old := fun (t : Nat) => decide (t * 7 / 10 + 64 ≤ s.gtime * 7 / 10)
      st.slot.isSome && old st.since &&
        s.ropes.any fun rp => decide (rp.id.core = r.core) &&
          rp.strands.zipIdx.any fun q => decide (part rp q.2 = part me sid) && q.1.slot.isNone && (q.1.ready.map old).getD false

/-- CLAUSE_HEADER: the strand stands at a clause header; registers written for the next header take effect, a path is selected,
and its header is fetched, checked and tested (R17, R20, R22, R27, R33, R154, R163, R374, R389). -/
def execClauseHeader (s : State) : Host.Outcome State Fault Refusal :=
  match s.cur with
  | none => s.noEvent
  | some w =>
    let st0 := s.strand w
    if (st0.cur.map fun p => p.cl.isSome && s.pathReady w st0 p).getD false then s.noEvent
    else
      let st := s.selectPath w st0.applyCsr
      let s := s.setStrand w st
      match st.cur with
      | none => .next s
      | some p =>
        if p.cl.isSome then .next s
        else if !s.pathReady w st p then .next s
        else if s.overdue w then .next (s.swapSlot w)
        else if (lanesOf p.mask).any fun l => (st.fibre l).sel.isSome then .next s
        else
          let forced := if w.isSup then [] else st.forcedLanes p
          if forced.any fun l => s.holdsEntry (w.lane l) then .next s
          else
            match s.breakHit w p.pc with
            | some (n, ls) => .next (s.breakPark w n ls)
            | none =>
              match s.fetch w p.pc 8 with
              | (s, .retry) => .next s
              | (s, .flt c i) => .next (s.trapPath w ⟨c, .at, i, p.pc, false⟩ p.pc p.pc)
              | (s, .ok b) =>
                if headerOk (leNat b) then
                  let st := s.strand w
                  let st := if forced = [] then st else st.enterAll s.nextId forced p.pc 0xFFFFFFFF 0xFFFF 0xFFFF
                  .next (s.setStrand w (st.openClause p (leNat b)))
                else .next (s.badHeader w p b)

/-- FORCED_KNOT: the fibres of the current path that have issued KNOTLIM instructions enter a new region at the header (R374). -/
def execForcedKnot (s : State) : Host.Outcome State Fault Refusal :=
  match s.cur with
  | none => s.noEvent
  | some w =>
    let st := s.strand w
    match st.cur with
    | none => s.noEvent
    | some p =>
      let ls := if w.isSup then [] else st.forcedLanes p
      if p.cl.isSome ∨ ls = [] then s.noEvent
      else if ls.any fun l => s.holdsEntry (w.lane l) then .next s
      else .next (s.setStrand w (st.enterAll s.nextId ls p.pc 0xFFFFFFFF 0xFFFF 0xFFFF))

/-- BREAKPOINT_HIT: the current path stands at the word of an enabled breakpoint (R389). -/
def execBreakpointHit (n : BitVec 2) (s : State) : Host.Outcome State Fault Refusal :=
  match s.cur with
  | none => s.noEvent
  | some w =>
    match (s.strand w).cur with
    | none => s.noEvent
    | some p =>
      match s.breakHit w p.at with
      | some (k, ls) => if k = n.toNat then .next (s.breakPark w k ls) else s.noEvent
      | none => s.noEvent

/-- The strand could issue if it had a slot: it is not stopped, its rope has its part of the array, and some path is ready or stands inside a
clause (R153, R162, R202). -/
def State.strandReady (s : State) (w : Who) : Bool :=
  let st := s.strand w
  let held := match w with
    | .sup c => (s.core c).stopped || (s.core c).svWait.isSome || (s.core c).rft.isSome
    | .strand r _ => (s.core r.core).stopped || ((s.rope? r).map fun rp => rp.halt || rp.crowd).getD true
  !held && (!st.halted || st.grant.isSome) && !st.full && st.stale.isNone &&
    match (s.selectPath w st).cur with
    | some p => s.pathReady w (s.selectPath w st) p
    | none => false

/-- The strands of one partition of a core, by number of slot where they hold one. -/
def State.partition (s : State) (core part : Nat) : List Who :=
  (s.ropes.filter fun r => decide (r.id.core = core)).flatMap fun r =>
    ((List.range r.strands.length).filter fun i => decide ((r.part + i) % 4 = part)).map fun i => Who.strand r.id i

/-- The pending strand that became ready first (R163). -/
def State.firstPending (s : State) (core part : Nat) : Option Who :=
  minBy (fun w => ((s.strand w).ready).getD 0) ((s.partition core part).filter fun w =>
    decide ((s.strand w).slot = none) && (s.strand w).ready.isSome && s.strandReady w)

/-- A strand that holds a slot stands at a header and is not ready: it leaves the active set (R163). -/
def State.leaves (s : State) (w : Who) : Bool :=
  let st := s.strand w
  st.slot.isSome && !s.strandReady w && st.stale.isNone && match st.cur with
    | some p => p.cl.isNone
    | none => st.others.all fun p => p.cl.isNone

/-- The slot that a pending strand takes: an empty one, or that of a strand that leaves (R163). -/
def State.freeSlot (s : State) (core part : Nat) : Option (Nat × Option Who) :=
  let ws := s.partition core part
  match (List.range 8).find? fun k => !ws.any fun w => decide ((s.strand w).slot = some k) with
  | some k => some (k, none)
  | none => (ws.find? s.leaves).bind fun w => (s.strand w).slot.map fun k => (k, some w)

/-- A pending strand takes a slot (R163). -/
def State.takeSlot (s : State) (w : Who) (k : Nat) (old : Option Who) : State :=
  let s := match old with
    | some o => s.setStrand o { s.strand o with slot := none, ready := none }
    | none => s
  s.setStrand w { s.strand w with slot := some k, since := s.gtime, ready := none }

/-- ACTIVE_SET_FILL (R163). -/
def execActiveSetFill (core part : Nat) (s : State) : Host.Outcome State Fault Refusal :=
  match s.firstPending core part, s.freeSlot core part with
  | some w, some (k, old) => .next (s.takeSlot w k old)
  | _, _ => s.noEvent

/-- A strand held at a stale GLD for 64 cycles while another of its partition is ready (R498). -/
def State.staleDue (s : State) (r : RopeId) (sid : Nat) : Bool :=
  let st := s.strand (.strand r sid)
  match st.slot, st.stale, s.rope? r with
  | some _, some t, some rp => decide (t * 7 / 10 + 64 ≤ s.gtime * 7 / 10) && (s.firstPending r.core ((rp.part + sid) % 4)).isSome
  | _, _, _ => false

/-- STALE_GLD_YIELD: the strand leaves the active set inside its clause and keeps its clause state; the pending strand takes the
slot (R498). -/
def execStaleGldYield (r : RopeId) (sid : Nat) (s : State) : Host.Outcome State Fault Refusal :=
  if s.staleDue r sid then
    match (s.strand (.strand r sid)).slot, (s.rope? r).bind fun rp => s.firstPending r.core ((rp.part + sid) % 4) with
    | some k, some w => .next (s.takeSlot w k (some (.strand r sid)))
    | _, _ => s.noEvent
  else s.noEvent

end Sys2Proof.Machine
end

