-- ==== Sys2Proof/Machine/Access.lean ====
section
/-! DEFINITION. Accesses of fibres in progress: their order, the caches, pins, forwards and remote homes through which they are
performed, and the landing of their results (R18, R32, R221, R231, R234 to R238, R249, R255, R260, R268 to R279, R371). -/

namespace Sys2Proof.Machine

/-- The cluster an access comes from. -/
def Access.cluster (a : Access) : Nat := clusterOf a.lane.rope.core

/-- The line of a translated access. -/
def Access.line? (a : Access) : Option LineId := a.xl.map Xl.line

/-- Scope .rope or .coil (R229). -/
def narrow : Scope → Bool
  | .rope | .coil => true
  | _ => false

/-- The order is an acquire, the order is a release (R230). -/
def acquires (o : Order) : Bool := o == .acq || o == .ar
/-- The order is a release. -/
def releases (o : Order) : Bool := o == .rel || o == .ar

/-- What the kind of an access asks of a translation (R209). -/
def AccKind.xkind : AccKind → XKind
  | .ld _ | .ldro _ | .land => .load
  | .st | .cwb _ | .shpw => .store
  | .atom .. => .atomic

/-- A new access of a lane. -/
def State.newAcc (s : State) (a : Access) : State := { s with accs := s.accs ++ [{ a with id := s.nextId }], nextId := s.nextId + 1 }

/-- Access of a lane with nothing known of it yet. -/
def accOf (lane : LaneId) (ctx va size : Nat) (k : AccKind) (fpc hpc : DWord) : Access :=
  { id := 0, lane := lane, ctx := ctx, va := va, size := size, kind := k, wd := none, scope := .dev, order := .rlx, data := [], done := false,
    xl := none, xf := none, tag := none, sent := false, sq := none, fpc := fpc, hpc := hpc, void := false }

/-- Earlier accesses of the same lane. -/
def State.earlier (s : State) (a : Access) : List Access := s.accs.filter fun b => decide (b.lane = a.lane ∧ b.id < a.id) && !b.void

/-- The write of a lane stands in a pin that has not ended (R237). -/
def State.inPin (s : State) (l : LaneId) : Bool := s.pins.any fun p => p.lanes.contains l

/-- The write of a lane at its slice waits for the WCT of the transaction that gave it the line (R234, R251). -/
def State.inLate (s : State) (l : LaneId) : Bool := s.homes.any fun h => h.txn.any fun t => t.late.contains l

/-- The scope at which an access is performed: one of narrow scope to a line that is never retained, or that is watched, counts as
.dev (R237). -/
def State.scopeOf (s : State) (a : Access) : Scope :=
  match a.xl with
  | some x => if narrow a.scope && (x.direct || (s.watch? x.line).isSome) then .dev else a.scope
  | none => a.scope

/-- Earlier writes of a lane are visible device-wide, and its earlier loads have completed (R238); `es`: its earlier accesses. -/
def State.settled (s : State) (l : LaneId) (es : List Access) : Bool :=
  es.all (fun b => !b.open_) && !s.inPin l && !s.inLate l && decide ((s.fibre (laneWho l) l.lane).vis < s.gtime) &&
    !s.accs.any fun b => match b.kind with
      | .cwb also => also.contains l
      | _ => false

/-- The order rules of an access towards the earlier ones of its lane (R238): an acquire comes first, a release last. -/
def State.orderOk (s : State) (a : Access) : Bool :=
  let es := s.earlier a
  es.all (fun b => !(acquires b.order && b.open_)) &&
    (!releases a.order || (if narrow (s.scopeOf a) then es.all (fun b => !b.open_) else s.settled a.lane es))

/-- An earlier access of the lane whose translation is still to come may be to the same line: pages agree in the bits below 64 KiB,
aliases as well (R216, R231). -/
def Access.mayMeet (a b : Access) : Bool :=
  b.xl.isNone && b.xf.isNone && !b.void && b.kind != .land && decide (b.lane = a.lane ∧ b.va % 65536 / 128 = a.va % 65536 / 128)

/-- An earlier access of the same kind class and line holds this one up (R231, R269): a load waits for earlier loads and atomics of
its lane, a store or atomic for every earlier access of its lane and those of its strand of its own kind; any access for an earlier one
of its lane that may be to its line. -/
def State.lineBusy (s : State) (a : Access) : Bool :=
  let same := fun (b : Access) => b.open_ && decide (b.id < a.id) && b.line?.isSome && decide (b.line? = a.line?)
  s.accs.any fun b => (b.open_ && decide (b.id < a.id) && a.mayMeet b) || same b &&
    match a.kind, b.kind with
    | .ld _, .st | .ldro _, .st => false
    | .ld _, _ | .ldro _, _ => decide (b.lane = a.lane)
    | .st, .st => decide (b.lane.rope = a.lane.rope ∧ b.lane.sid = a.lane.sid)
    | .atom .., .atom .. => decide (b.lane.rope = a.lane.rope ∧ b.lane.sid = a.lane.sid)
    | _, _ => decide (b.lane = a.lane)

/-- The canonical bytes of a translated access begin here. -/
def Access.canon (a : Access) : Nat × Nat :=
  match a.xl with
  | some x => (x.cctx, x.cva)
  | none => (a.ctx, a.va)

/-- The bytes of a fibre's earlier stores that have not been performed stand in a load's result, by whatever alias they were written
(R32, R216). -/
def State.overlay (s : State) (a : Access) (bytes : List Byte) : List Byte :=
  (s.earlier a).foldl (fun bs b =>
    if b.kind = .st ∧ !b.done ∧ b.canon.1 = a.canon.1 then
      let o := a.canon.2
      let w := b.canon.2
      bs.mapIdx fun i x => if w ≤ o + i ∧ o + i < w + b.data.length then b.data.getD (o + i - w) x else x
    else bs) bytes

/-- A message that waits for this access is on its way, or the home works on it. -/
def State.asked (s : State) (id : Nat) : Bool :=
  s.msgs.any (fun f => decide (f.msg.acc = some id)) || s.fwds.any (fun f => decide (f.acc = some id)) ||
    s.fab.open_.any (fun t => decide (t.what = .acc id)) ||
    s.homes.any fun h => (h.txn.any fun t => decide (t.msg.acc = some id)) || h.queue.any fun f => decide (f.msg.acc = some id)

/-- Bytes of a line that an access touches. -/
def Access.mask (a : Access) (x : Xl) : BitVec 128 := BitVec.ofNat 128 (spanMask (x.cva % 128) a.size)

/-- A request to the line's home leaves for an access (R248, R249); a peer's line is first asked for where it is not held (R477). -/
def State.request (s : State) (a : Access) (x : Xl) (ty : MType) (wr : Bool) (data : List Byte) (req : Option AtomReq) : State :=
  let s := s.ensureHome x.line x.lineLoc x.key x.own
  match s.peerReady x.line wr with
  | (s, false) => s
  | (s, true) => s.post ty { plainMsg x.line (.cluster a.cluster) .home with
      off := x.cva % 128, data := if data = [] then [] else lineAt (x.cva % 128) data, mask := a.mask x, req := req, acc := some a.id }

/-- The read-only copy of a line beside a cluster's L1 is dropped (R273). -/
def State.dropRo (s : State) (c : Nat) (l : LineId) : State :=
  { s with roCopies := s.roCopies.filter fun r => decide (¬ (r.cluster = c ∧ r.line = l)) }

/-- Bytes written into a cluster's copy of a line (R249). A PRIV copy becomes dirty (R255). -/
def State.sliceWrite (s : State) (cp : Copy) (o : Nat) (b : List Byte) : State :=
  (s.setCopy { cp with data := patch cp.data o b, dirty := cp.dirty ||| BitVec.ofNat 128 (spanMask o b.length),
                       cst := if cp.slot = 5 ∧ cp.cst = 1 then 2 else cp.cst }).dropRo cp.cluster cp.line

/-- A P copy serves bytes of its own mask or of no mask (R260). -/
def State.privServes (s : State) (cp : Copy) (m : BitVec 128) : Bool :=
  if cp.slot = 0 ∧ cp.cst = 3 then
    match s.home? cp.line with
    | some h => !privMeets h.priv cp.cluster m.toNat
    | none => true
  else true

/-- A P copy's mask takes the bytes it has served (R260). -/
def State.privTake (s : State) (cp : Copy) (m : BitVec 128) : State :=
  if cp.slot = 0 ∧ cp.cst = 3 then
    match s.home? cp.line with
    | some h => s.setHome { h with priv := privAdd h.priv cp.cluster m.toNat }
    | none => s
  else s

/-- A request of this cluster for the line is open at the home: what it writes may not be read before its WCT (R234). -/
def State.openBy (s : State) (c : Nat) (l : LineId) : Bool :=
  ((s.home? l).bind HomeLine.txn).any fun t => t.ty.isRequest && decide (t.msg.src = .cluster c)

/-- A cluster's copy can be read: its state, its lease, and not in the victim buffer (R249, R261). -/
def State.readable (s : State) (cp : Copy) : Bool :=
  !cp.vb && (s.table cp.slot).reads cp.cst && (cp.expiry == 0 || decide (s.gtime < cp.expiry))

/-- A cluster's copy that serves a load (R234, R249). -/
def State.hit? (s : State) (c : Nat) (l : LineId) (m : BitVec 128) : Option Copy :=
  match s.copy? c l with
  | some cp => if s.readable cp && s.privServes cp m && !s.openBy c l then some cp else none
  | none => none

/-- A hit in L1 needs no translation: the line stands in the cluster under the canonical address that the filter gives, and its
permission copy lets the access proceed (R205, R206, R216, R217). -/
def State.hitL1 (s : State) (cluster ctx va : Nat) (k : XKind) (user : Bool) : Option Xl :=
  let r := s.remap? cluster ctx (va / 65536)
  let cctx := (r.map Remap.cctx).getD ctx
  let cva := (r.map fun r => r.cva va).getD va
  match s.copy? cluster ⟨cctx, cva / 128⟩, s.home? ⟨cctx, cva / 128⟩ with
  | some cp, some h => if s.readable cp then cp.perm.bind fun own =>
      let p := (r.map Remap.perm).elim own own.meet
      if p.lets k user then some (h.xl cva (some own) p) else none
    else none
  | _, _ => none

/-- A fill of the line for this cluster is on its way, or asked for. -/
def State.filling (s : State) (c : Nat) (l : LineId) : Bool :=
  let asks := fun (ty : MType) => ty == .gets || ty == .getm || ty == .upgr
  s.msgs.any (fun f => decide (f.msg.line = l) && ((asks f.ty && decide (f.msg.src = .cluster c)) ||
      ((f.ty == .datas || f.ty == .datam) && decide (f.msg.dst = .cluster c)))) ||
    (s.home? l).any fun h => (h.txn.any fun t => asks t.ty && decide (t.msg.src = .cluster c)) ||
      h.queue.any fun q => asks q.ty && decide (q.msg.src = .cluster c)

/-- A cluster's copy that takes a write (R249). -/
def State.writable? (s : State) (c : Nat) (l : LineId) (m : BitVec 128) : Option Copy :=
  match s.copy? c l with
  | some cp => if !cp.vb && (s.table cp.slot).writes cp.cst && s.privServes cp m then some cp else none
  | none => none

/-- The line stands in the cluster's victim buffer: its accesses wait (R261). -/
def State.inVb (s : State) (c : Nat) (l : LineId) : Bool := (s.copy? c l).any Copy.vb

/-- Any open pin of the line lets an access of its own cluster in; none else (R237). -/
def State.myPin? (s : State) (c : Nat) (l : LineId) : Option Pin := s.pins.find? fun p => decide (p.cluster = c ∧ p.line = l)

/-- A line can be pinned now: no refused access waits, the home is at rest and no message of the line is on its way (R237). -/
def State.canPin (s : State) (l : LineId) : Bool :=
  !s.refused.contains l && (s.pin? l).isNone && !s.msgs.any (fun f => decide (f.msg.line = l)) &&
    ((s.home? l).map fun h => h.txn.isNone && h.queue.isEmpty).getD true

/-- A write at a pinned line by a lane of the pinning cluster: the bytes and the lane go into the pin (R237). -/
def State.pinWrite (s : State) (p : Pin) (l : LaneId) (m : BitVec 128) : State :=
  { s with pins := s.pins.map fun (q : Pin) => if q.line = p.line then
      { q with wmask := q.wmask ||| m, lanes := if q.lanes.contains l then q.lanes else q.lanes ++ [l] } else q }

/-- What a write-back knows of its line, which needs no translation. -/
def lineXl (l : LineId) : Xl :=
  { cctx := l.ctx, cva := l.line * 128, loc := .hbm 0, mode := 0, key := 0, rd := true, w := true, x := false, sup := false, lent := false, own := none }

/-- A pin ends: the written bytes go to the home under the line's protocol, and the lanes wait for their WCT (R237). -/
def State.endPin (s : State) (p : Pin) : State :=
  let s := { s with pins := s.pins.filter fun q => decide (q.line ≠ p.line),
                    refused := if p.refused && !s.refused.contains p.line then s.refused ++ [p.line] else s.refused }
  match s.copy? p.cluster p.line, p.lanes with
  | some cp, l :: also =>
    if p.wmask = 0 then s
    else
      let a : Access := { accOf l p.line.ctx (p.line.line * 128) 128 (.cwb also) 0 0 with
        xl := some (lineXl p.line) }
      let id := s.nextId
      let s := s.newAcc a
      let m : Msg := { plainMsg p.line (.cluster p.cluster) .home with data := cp.data, mask := p.wmask, acc := some id }
      if (s.table cp.slot).cwrite = 0 then (s.dropCopy p.cluster p.line).post .getm m
      else (s.setCopy { cp with dirty := cp.dirty &&& ~~~p.wmask }).post .wbdata m
  | _, _ => s

/-- The pins that a wide release or FENCE of a lane ends: those of its rope, and those of its coil's scope (R237). -/
def State.pinsOf (s : State) (r : RopeId) : List Pin :=
  s.pins.filter fun p => decide (p.rope = r) || (p.coil &&
    match s.rope? p.rope, s.rope? r with
    | some a, some b => decide (a.ctx = b.ctx ∧ a.qent = b.qent ∧ a.stage = b.stage ∧ a.coil = b.coil)
    | _, _ => false)

/-- A lane waits for what a pin writes back as well. -/
def Pin.plus (p : Pin) (l : LaneId) : Pin := { p with lanes := if p.lanes.contains l then p.lanes else p.lanes ++ [l] }

/-- The pins of a rope end (R237). -/
def State.endPins (s : State) (r : RopeId) : State := (s.pinsOf r).foldl State.endPin s

/-- The pins that a lane's wide release or FENCE ends: the lane waits for the WCTs that result (R281). -/
def State.pushPins (s : State) (l : LaneId) : State := (s.pinsOf l.rope).foldl (fun (s : State) p => s.endPin (p.plus l)) s

/-- Dirty P copies of a cluster go to the home, and stay privatised (R260). The lane waits for their WCT. -/
def State.pushPriv (s : State) (l : LaneId) : State :=
  let c := clusterOf l.rope.core
  (s.copies.filter fun cp => decide (cp.cluster = c ∧ cp.slot = 0 ∧ cp.cst = 3 ∧ cp.dirty ≠ 0)).foldl (fun (s : State) cp =>
    let a : Access := { accOf l cp.line.ctx (cp.line.line * 128) 128 (.cwb []) 0 0 with
      xl := some (lineXl cp.line) }
    let id := s.nextId
    let s := s.newAcc a
    (s.setCopy { cp with dirty := 0 }).post .wbdata
      { plainMsg cp.line (.cluster c) .home with data := cp.data, mask := cp.dirty, acc := some id }) s

/-- What a wide release or FENCE of a lane has to start before it can wait: ends of pins and pushes of P copies; none where nothing
is left to start (R237, R260, R281). -/
def State.widePush (s : State) (l : LaneId) : Option State :=
  let dirtyP := s.copies.any fun cp => decide (cp.cluster = clusterOf l.rope.core ∧ cp.slot = 0 ∧ cp.cst = 3 ∧ cp.dirty ≠ 0)
  if s.pinsOf l.rope = [] ∧ !dirtyP then none else some ((s.pushPins l).pushPriv l)

/-- The access is done with its value: a result waits to land, anything else is dropped. -/
def State.doneAcc (s : State) (a : Access) (data : List Byte) : State :=
  match a.kind with
  | .ld _ | .ldro _ | .land => s.setAcc { a with data := data, done := true }
  | .atom _ nr => if nr then s.dropAcc a.id else s.setAcc { a with data := data, done := true }
  | .shpw => s.setAcc { a with done := true }
  | _ => s.dropAcc a.id

/-- A write at this cluster is performed now (R234, R235). -/
def State.seenNow (s : State) (l : LaneId) : State := s.raiseVis l s.gtime

/-- A forwarded access to another cluster's window leaves (R221). -/
def State.forward (s : State) (a : Access) (x : Xl) (req : Option AtomReq) : State :=
  { s with fwds := s.fwds ++ [⟨x.line, x.cva % 128, a.size, req, .cluster a.cluster, some a.id⟩] }

/-- The atomic request of an access that writes. -/
def Access.req (a : Access) : Option AtomReq :=
  match a.kind with
  | .atom r _ => some r
  | .st | .shpw => some (.store a.data)
  | _ => none

/-- An access that a mode 0 remote page, a watched range or a window takes past the caches, and a wide atomic to a line homed at a peer,
which is performed there (R211, R221, R237, R277, R434). `some (some s)`:
a step was made; `some none`: it waits; `none`: the line is an ordinary one. -/
def State.bypass (s : State) (a : Access) (x : Xl) : Option (Option State) :=
  let k := a.kind.xkind
  match s.window? x.cctx x.cva with
  | some w =>
    if w.closed then some none
    else if w.cluster = a.cluster ∨ s.watch? x.line ≠ none then
      match a.req with
      | none => some ((s.mLoad x a.size k (.dev a.cluster)).map fun p => p.1.doneAcc a (p.1.overlay a p.2))
      | some r => some ((s.mAtomic x r k (.dev a.cluster)).map fun p => (p.1.seenNow a.lane).doneAcc a p.2.1)
    else some (some (s.forward a x a.req))
  | none =>
    match x.loc, s.isDirect x k.writes || (x.far && !narrow a.scope && k == .atomic) with
    | .host _, true => match a.req with
      | none => some ((s.mLoad x a.size k (.dev a.cluster)).map fun p => p.1.doneAcc a (p.1.overlay a p.2))
      | some _ => some none
    | .peer p ad, true =>
      some (((if k.writes then s.farReady x else some s).bind fun s => s.logAcc x.line k (.dev a.cluster)).map fun s =>
        s.sendTx { tid := 0, dst := p, kind := (match a.kind with | .atom .. => .atomic | .st | .shpw => .write | _ => .read), addr := ad,
                   mask := a.mask x, data := a.data, atom := (match a.kind with | .atom r _ => some r | _ => none),
                   cls := 0, wct := 0, what := .acc a.id })
    | _, _ =>
      if s.watch? x.line ≠ none then
        match a.req with
        | none => match s.mLoad x a.size k (.dev a.cluster) with
          | some (s, b) => some (some (s.doneAcc a (s.overlay a b)))
          | none => some none
        | some r => match s.mAtomic x r k (.dev a.cluster) with
          | some (s, o, w) => some (some ((s.raiseVis a.lane w).doneAcc a o))
          | none => some none
      else none

/-- A load tries: a hit, a fill on its way, or a request (R249, R271, R273). -/
def State.tryLoad (s : State) (a : Access) (x : Xl) (ro : Bool) : Option State :=
  let c := a.cluster
  let off := x.cva % 128
  let take := fun (s : State) (line : List Byte) => s.doneAcc a (s.overlay a ((line.drop off).take a.size))
  if ro then
    match s.roCopies.find? fun r => decide (r.cluster = c ∧ r.line = x.line) with
    | some r => some (take s r.data)
    | none =>
      let s := s.ensureHome x.line x.lineLoc x.key x.own
      match s.peerReady x.line false with
      | (s, false) => some s
      | (s, true) => (s.homeRead x.line .home).map fun p =>
          let line := match p.1.copy? c x.line with
            | some cp => mergeMask cp.dirty.toNat 0 p.2 cp.data
            | none => p.2
          take { p.1 with roCopies := p.1.roCopies ++ [⟨c, x.line, line⟩] } line
  else if s.inVb c x.line then none
  else
    match s.hit? c x.line (a.mask x) with
    | some cp => some (take ((s.setCopy { cp with perm := x.own.orElse fun _ => cp.perm }).privTake cp (a.mask x)) cp.data)
    | none => if s.asked a.id then none else some (s.request a x .gets false [] none)

/-- The access's change of a copy's bytes: the old bytes, and what is written. -/
def Access.apply (a : Access) (old : List Byte) : List Byte × Option (List Byte) :=
  match a.req with
  | some r => atomDo r old
  | none => (old, none)

/-- The lane's write stands at its slice: it takes the WCT of the open transaction that gave the line, or that of its performance
(R234, R235, R251). -/
def State.atOwner (s : State) (l : LaneId) (line : LineId) : State :=
  match s.home? line with
  | some h => match h.txn with
    | some t => if s.openBy (clusterOf l.rope.core) line then
        s.setHome { h with txn := some { t with late := if t.late.contains l then t.late else t.late ++ [l] } }
      else s.seenNow l
    | none => s.seenNow l
  | none => s.seenNow l

/-- A write or atomic performed on this cluster's copy; `pin`: under its pin (R233, R237). -/
def State.atSlice (s : State) (a : Access) (x : Xl) (cp : Copy) (pin : Option Pin) : State :=
  let off := x.cva % 128
  let o := a.apply ((cp.data.drop off).take a.size)
  let s := match o.2 with
    | some b => s.sliceWrite cp off b
    | none => s
  let s := s.privTake cp (a.mask x)
  let s := match pin with
    | some p => s.pinWrite p a.lane (if o.2.isSome then a.mask x else 0)
    | none => if cp.slot = 5 then s else s.atOwner a.lane x.line
  s.doneAcc a o.1

/-- A write or atomic of narrow scope, or one by the pinning cluster: at the slice, under a pin (R237). -/
def State.tryPinned (s : State) (a : Access) (x : Xl) : Option State :=
  let c := a.cluster
  let ready := fun (s : State) => match s.copy? c x.line with
    | some cp => if !cp.vb && (if (s.table cp.slot).cwrite = 0 then (s.table cp.slot).reads cp.cst else (s.table cp.slot).writes cp.cst) then some cp else none
    | none => none
  match s.myPin? c x.line, ready s with
  | some p, some cp => some (s.atSlice a x cp (some p))
  | none, some cp =>
    if s.canPin x.line then
      let p : Pin := { cluster := c, line := x.line, rope := a.lane.rope, coil := a.scope == .coil, start := s.gtime, wmask := 0, lanes := [],
                       refused := false }
      some ({ s with pins := s.pins ++ [p] }.atSlice a x cp (some p))
    else none
  | _, none =>
    if s.inVb c x.line || s.asked a.id then none
    else
      let held := (s.copy? c x.line).any s.readable
      some (s.request a x (if (s.table (s.slotOf x.line)).cwrite = 0 then .gets else if held then .upgr else .getm) true [] none)

/-- A write at this cluster under its line's protocol (R234, R249, R255). One performed at the home waits for a fill of its cluster, and
the cluster's copy goes: neither may hold bytes older than the write (R231). -/
def State.tryWrite (s : State) (a : Access) (x : Xl) : Option State :=
  let c := a.cluster
  if s.inVb c x.line || s.asked a.id then none
  else if (s.table (s.slotOf x.line)).cwrite = 0 then
    if s.filling c x.line then none
    else
      let held := (s.copy? c x.line).any s.readable
      some (((s.dropCopy c x.line).dropRo c x.line).request a x (if held then .upgr else .getm) true a.data none)
  else
    match s.writable? c x.line (a.mask x) with
    | some cp => some (s.atSlice a x cp none)
    | none => some (s.request a x (if (s.hit? c x.line (a.mask x)).isSome then .upgr else .getm) true [] none)

/-- An atomic of scope .dev or wider: performed at the line's home (R277). The home sends its requester no INV, so the cluster's clean
copy goes, and a fill on its way is waited for (R231, R251). -/
def State.tryAtom (s : State) (a : Access) (x : Xl) (r : AtomReq) : Option State :=
  let c := a.cluster
  if s.inVb c x.line || s.asked a.id || s.filling c x.line then none
  else
    let s := s.dropRo c x.line
    let s := match s.copy? c x.line with
      | some cp => if (s.table cp.slot).isDirty cp.cst then s else s.dropCopy c x.line
      | none => s
    some (s.request a x .atom true [] (some r))

/-- One attempt to perform an access. None: nothing can be done about it now. -/
def State.perform (s : State) (a : Access) : Option State :=
  match a.xl with
  | none => none
  | some x =>
    if releases a.order && !narrow (s.scopeOf a) && (s.widePush a.lane).isSome then s.widePush a.lane
    else if !s.orderOk a || s.lineBusy a then none
    else if s.asked a.id then none
    else
      match s.bypass a x with
      | some r => r
      | none =>
        let pinned := narrow a.scope || (s.myPin? a.cluster x.line).isSome
        match a.kind with
        | .ld _ => s.tryLoad a x false
        | .ldro _ => s.tryLoad a x true
        | .st | .shpw => if pinned then s.tryPinned a x else s.tryWrite a x
        | .atom r _ => if pinned then s.tryPinned a x else s.tryAtom a x r
        | _ => none

/-- The register image of a result: a narrow load is extended to 32 bits (R266). -/
def landBytes (k : AccKind) (b : List Byte) : List Byte :=
  match k with
  | .ld .i8 | .ldro .i8 => leBytes 4 (wrap 32 (sx 8 (leNat b)))
  | .ld .i16 | .ldro .i16 => leBytes 4 (wrap 32 (sx 16 (leNat b)))
  | .ld .ui8 | .ldro .ui8 | .ld .ui16 | .ldro .ui16 => leBytes 4 (leNat b)
  | _ => b

/-- A result lands: the registers are written (none by a result of no bytes), their pending bits cleared, its predicate written, and
the flag falls; a discarded one only lowers the flag (R18, R343, R368). -/
def State.land (s : State) (a : Access) : State :=
  let w := laneWho a.lane
  let s := s.dropAcc a.id
  let f := s.fibre w a.lane.lane
  let f1 := match a.wd with
    | some (d, n) => (if a.data = [] then f else f.setRegs d (wordsOf n (landBytes a.kind a.data))).clrPend ((List.range n).map (d + ·))
    | none => f
  let f2 := match a.pd with
    | some (p, v) => f1.setPred p v
    | none => f1
  let s := if a.void then s else s.setFibre w a.lane.lane f2
  s.dueDone w a.tag

end Sys2Proof.Machine
end

