-- ==== Sys2Proof/Machine/Memory.lean ====
section
/-! DEFINITION. Group 9: loads, stores, the scratchpad, the read-only path and prefetch (R32, R188, R238, R263 to R276, R371, R373). -/

namespace Sys2Proof.Machine

/-- Bytes of an access width (R265). -/
def widthBytes : Width → Nat
  | .ui8 | .i8 => 1
  | .ui16 | .i16 => 2
  | .b32 => 4
  | .b64 => 8
  | .b128 => 16

/-- The effective address of a global access (R267). -/
def Fibre.gea (f : Fibre) (a : Src) (off : BitVec 32) : Nat := (BitVec.ofNat 64 (f.src .b64 a) + off.signExtend 64).toNat

/-- The effective offset of a scratchpad access, exact (R267). -/
def Fibre.sea (f : Fibre) (a : Src) (off : BitVec 32) : Int := (f.src .b32 a : Int) + off.toInt

/-- The RANGE fault of an access (R31, R365). -/
def rangeTrap (k : XKind) (ea : Nat) : Trap := ⟨.range, .at, xlateInfo 0 k, BitVec.ofNat 64 ea, false⟩

/-- The ALIGN fault of an access of z bytes (R365). -/
def alignTrap (z : Nat) (ea : Nat) : Trap := ⟨.align, .at, BitVec.ofNat 32 (Nat.log2 z), BitVec.ofNat 64 ea, false⟩

/-- An XLATE fault of restart kind AT (R267). -/
def xlateTrap (code : Nat) (k : XKind) (ea : Nat) : Trap := ⟨.xlate, .at, xlateInfo code k, BitVec.ofNat 64 ea, false⟩

/-- The range and alignment checks of a global access, in their order (R267). -/
def globalCheck (k : XKind) (z ea : Nat) : Option Trap :=
  if 2 ^ 54 ≤ ea then some (rangeTrap k ea) else if ea % z ≠ 0 then some (alignTrap z ea) else none

/-- The bound and alignment checks of a scratchpad access in an allocation of `size` bytes (R267). -/
def scratchCheck (size z : Nat) (ea : Int) : Option Trap :=
  if ea < 0 ∨ (size : Int) < ea + z then some ⟨.bound, .at, 0, 0, false⟩
  else if ea % z ≠ 0 then some (alignTrap z 0) else none

/-- An access translated: a hit in L1 needs nothing more, any other leaves its cluster (R205, R210). In serial mode this is done before
the next instruction issues (R373): a Retry leaves the access to be repeated, a fault is reported at the instruction. A read-only copy is
no L1 line (R273). -/
def State.early (s : State) (a : Access) (user : Bool) : State × XRes :=
  let ro := match a.kind with
    | .ldro _ => true
    | _ => false
  match if ro then none else s.hitL1 a.cluster a.ctx a.va a.kind.xkind user with
  | some x => (s, .ok x)
  | none => s.translate a.cluster a.ctx a.va a.kind.xkind user

/-- LD and LDRO of one lane (R271, R273). -/
def loadLane (ro : Bool) (w : Width) (d : BitVec 8) (a : Src) (up : MemUp) (c : Cx) (tag : Nat) (s : State) (l : Nat) (fb : Fibre) :
    Except State LaneFx :=
  let ea := fb.gea a up.off
  let z := widthBytes w
  match globalCheck .load z ea with
  | some t => .ok ⟨s, .fault fb t, 0⟩
  | none =>
    let k : AccKind := if ro then .ldro w else .ld w
    let n := Width.words w
    let acc : Access := { accOf (c.who.lane l) ((s.ctxOf c.who).getD 0) ea z k c.ip c.cl.hpc with
      wd := some (d.toNat, n), scope := up.scope, order := up.order, tag := some tag }
    let fb' := fb.setPend ((List.range n).map (d.toNat + ·))
    if c.who.isSup then .ok ⟨s.newAcc { acc with data := landBytes k (cellsRead s.svMem ea z), done := true, kind := .land }, .ok fb', 1⟩
    else if fb.serial then
      match s.early acc true with
      | (s, .ok x) => .ok ⟨s.newAcc { acc with xl := some x }, .ok fb', 1⟩
      | (s, .bad e) => .ok ⟨s, .fault fb (xlateTrap e .load ea), 0⟩
      | (s, .retry) => .error s
    else .ok ⟨s.newAcc acc, .ok fb', 1⟩

/-- LD (R271). -/
def execLd (g : Guard) (w : Width) (d : BitVec 8) (a : Src) (up : MemUp) (s : State) : Host.Outcome State Fault Refusal :=
  issueTry { len := 16, g := g, uses := useW (Width.words w) (some d) ++ useS 2 a, flag := some false } (loadLane false w d a up) s

/-- LDRO (R273). -/
def execLdro (g : Guard) (w : Width) (d : BitVec 8) (a : Src) (up : MemUp) (s : State) : Host.Outcome State Fault Refusal :=
  issueTry { len := 16, g := g, uses := useW (Width.words w) (some d) ++ useS 2 a, flag := some false } (loadLane true w d a up) s

/-- The bytes a store takes from its data operand: the low bytes of it, a constant as an unsigned integer of the width (R266). -/
def Fibre.storeBytes (f : Fibre) (w : Width) (v : Src) : List Byte := (bytesOfWords (f.srcWords (Width.words w) v)).take (widthBytes w)

/-- ST of one lane: held in the store queue outside serial mode (R272, R371, R373). -/
def storeLane (w : Width) (a v : Src) (up : MemUp) (c : Cx) (tag : Nat) (s : State) (l : Nat) (fb : Fibre) : Except State LaneFx :=
  let ea := fb.gea a up.off
  let z := widthBytes w
  match globalCheck .store z ea with
  | some t => .ok ⟨s, .fault fb t, 0⟩
  | none =>
    let b := fb.storeBytes w v
    let acc : Access := { accOf (c.who.lane l) ((s.ctxOf c.who).getD 0) ea z .st c.ip c.cl.hpc with
      scope := up.scope, order := up.order, data := b }
    if c.who.isSup then .ok ⟨{ s with svMem := cellsWrite s.svMem ea b }, .ok (fb.seen s.gtime), 0⟩
    else if fb.serial then
      match s.early acc true with
      | (s, .ok x) => .ok ⟨s.newAcc { acc with xl := some x }, .ok fb, 0⟩
      | (s, .bad e) => .ok ⟨s, .fault fb (xlateTrap e .store ea), 0⟩
      | (s, .retry) => .error s
    else .ok ⟨s.newAcc { acc with sq := some tag }, .ok fb, 0⟩

/-- Every fibre of a strand runs in serial mode (R373). -/
def Strand.serialise (st : Strand) : Strand :=
  { st with fibres := st.fibres.map fun (f : Fibre) => if f.st = .empty then f else { f with serial := true } }

/-- Lanes whose ST enters the store queue. -/
def Cx.holders (c : Cx) (i : Iss) (w : Width) (a : Src) (up : MemUp) : List Nat :=
  if c.who.isSup then []
  else (c.set i).filter fun l => !(c.st.fibre l).serial && (globalCheck .store (widthBytes w) ((c.st.fibre l).gea a up.off)).isNone

/-- Entries of a strand's store queue in use (R371). -/
def State.sqUsed (s : State) (w : Who) : Nat := ((s.accs.filter fun a => decide (laneWho a.lane = w)).filterMap Access.sq).eraseDups.length

/-- Some fibre of the strand has an operation that is not translated, or a held store (R373). -/
def State.unreleased (s : State) (w : Who) : Bool :=
  s.accs.any fun a => decide (laneWho a.lane = w) && (a.sq.isSome || (a.xl.isNone && !a.void && a.kind != .land))

/-- ST (R272): the 17th held store of a region waits until everything of its strand is translated and released, and puts its
strand in serial mode; a full store queue is waited for (R371, R373). -/
def execSt (g : Guard) (w : Width) (a v : Src) (up : MemUp) (s : State) : Host.Outcome State Fault Refusal :=
  let i : Iss := { len := 16, g := g, uses := useS 2 a ++ useS (Width.words w) v }
  match s.cx? i.len with
  | none => s.noEvent
  | some c =>
    if c.holders i w a up = [] then issueTry i (storeLane w a v up) s
    else if 16 ≤ c.st.held then
      if s.unreleased c.who then .next s else issueTry i (storeLane w a v up) (s.setStrand c.who c.st.serialise)
    else if 16 ≤ s.sqUsed c.who then .next s
    else
      match issueTry i (storeLane w a v up) s with
      | .next t => .next (if t.accs.any (fun x => x.sq.isSome && decide (s.nextId ≤ x.id)) then
          t.setStrand c.who { t.strand c.who with held := c.st.held + 1 } else t)
      | r => r

/-- A rope's scratchpad allocation and its bytes, for a lane (R188). -/
def State.myRope (s : State) (w : Who) : Option Rope :=
  match w with
  | .strand r _ => s.rope? r
  | .sup _ => none

/-- LDS of one lane: performed in the array at issue, landing later (R274). -/
def ldsLane (w : Width) (d : BitVec 8) (a : Src) (up : MemUp) (c : Cx) (tag : Nat) (s : State) (l : Nat) (fb : Fibre) : LaneFx :=
  match s.myRope c.who with
  | none => ⟨s, .fault fb (illegal .operand), 0⟩
  | some rp =>
    let ea := fb.sea a up.off
    let z := widthBytes w
    match scratchCheck rp.spadA z ea with
    | some t => ⟨s, .fault fb t, 0⟩
    | none =>
      let n := Width.words w
      ⟨s.newAcc { accOf (c.who.lane l) rp.ctx ea.toNat z .land c.ip c.cl.hpc with
          wd := some (d.toNat, n), scope := .rope, data := landBytes (.ld w) (rp.spadRead ea.toNat z), done := true, tag := some tag },
        .ok (fb.setPend ((List.range n).map (d.toNat + ·))), 1⟩

/-- LDS (R274). -/
def execLds (g : Guard) (w : Width) (d : BitVec 8) (a : Src) (up : MemUp) (s : State) : Host.Outcome State Fault Refusal :=
  issueSt { len := 16, g := g, uses := useW (Width.words w) (some d) ++ useS 1 a, flag := some false, rope := true, access := true }
    (ldsLane w d a up) s

/-- STS of one lane: performed in the array at issue (R274). -/
def stsLane (w : Width) (a v : Src) (up : MemUp) (c : Cx) (s : State) (fb : Fibre) : LaneFx :=
  match s.myRope c.who with
  | none => ⟨s, .fault fb (illegal .operand), 0⟩
  | some rp =>
    let ea := fb.sea a up.off
    match scratchCheck rp.spadA (widthBytes w) ea with
    | some t => ⟨s, .fault fb t, 0⟩
    | none => ⟨s.spadWrite rp.id ea.toNat (fb.storeBytes w v), .ok (fb.seen s.gtime), 0⟩

/-- STS (R274). -/
def execSts (g : Guard) (w : Width) (a v : Src) (up : MemUp) (s : State) : Host.Outcome State Fault Refusal :=
  issueSt { len := 16, g := g, uses := useS 1 a ++ useS (Width.words w) v, rope := true, access := true, rel := releases up.order }
    (fun c _ s _ fb => stsLane w a v up c s fb) s

/-- The line of an address is asked for ahead of its use, where nothing stands against it: into the cluster's L1, or into its home slice
only (R276). -/
def State.prefetch (s : State) (w : Who) (ea : Nat) (l2 wr : Bool) : State :=
  match s.ctxOf w with
  | none => s
  | some ctx =>
    if 2 ^ 54 ≤ ea then s
    else
      let c := clusterOf w.core
      match s.translate c ctx ea .load true with
      | (s', .ok x) =>
        let s' := s'.ensureHome x.line x.lineLoc x.key x.own
        let busy := ((s'.home? x.line).map fun h => h.txn.isSome || h.queue != []).getD true
        if s'.isDirect x false || (s'.window? x.cctx x.cva).isSome || (s'.watch? x.line).isSome || s'.pinnedFrom x.line (.cluster c) || busy
          || (s'.copy? c x.line).isSome || s'.msgs.any (fun f => decide (f.msg.line = x.line)) then s
        else
          match s'.peerReady x.line (wr && !l2) with
          | (s', false) => s'
          | (s', true) => if l2 then s' else s'.post (if wr && (s'.table (s'.slotOf x.line)).cwrite != 0 then .getm else .gets) (plainMsg x.line (.cluster c) .home)
      | _ => s

/-- PFCH: a fill may be asked for or not, as the list of choices says (R276; log 4). -/
def execPfch (g : Guard) (l2 wr : Bool) (a : Src) (off : BitVec 32) (s : State) : Host.Outcome State Fault Refusal :=
  issueSt { len := 16, g := g, uses := useS 2 a }
    (fun c _ s _ fb =>
      let (n, s) := s.pick
      ⟨if n = 0 then s else s.prefetch c.who (fb.gea a off) l2 wr, .ok fb, 0⟩) s

end Sys2Proof.Machine
end

