-- ==== Sys2Proof/Machine/Atomic.lean ====
section
/-! DEFINITION. Group 10: atomics, compare and swap, fences, line locks, write-back and invalidation of lines (R223, R224, R238,
R261, R277 to R284). -/

namespace Sys2Proof.Machine

/-- The operand position of an atomic's data (R277, R64). -/
def atomPos : AtomType → Pos
  | .i32 => .i .i32
  | .ui32 => .i .ui32
  | .i64 => .i .i64
  | .ui64 => .i .ui64
  | .f32 => .f .f32
  | .f64 => .f .f64
  | .f16x2 => .f .f16x2
  | .bf16x2 => .f .bf16x2

/-- Registers an atomic type fills. -/
def atomWords (t : AtomType) : Nat := AtomType.words t

/-- One lane of a global atomic: checked and translated at issue, performed later (R267, R277, R280). -/
def atomLane (r : Fibre → AtomReq) (d : Option (BitVec 8)) (n : Nat) (a : Src) (up : MemUp) (c : Cx) (tag : Nat) (s : State) (l : Nat)
    (fb : Fibre) : Except State LaneFx :=
  let req := r fb
  let ea := fb.gea a up.off
  let z := atomSize req
  match globalCheck .atomic z ea with
  | some t => .ok ⟨s, .fault fb t, 0⟩
  | none =>
    let acc : Access := { accOf (c.who.lane l) ((s.ctxOf c.who).getD 0) ea z (.atom req d.isNone) c.ip c.cl.hpc with
      wd := d.map fun x => (x.toNat, n), scope := up.scope, order := up.order, tag := d.map fun _ => tag }
    let fb' := match d with
      | some x => fb.setPend ((List.range n).map (x.toNat + ·))
      | none => fb
    let due := if d.isSome then 1 else 0
    if c.who.isSup then
      let o := atomDo req (cellsRead s.svMem ea z)
      let s := match o.2 with
        | some b => { s with svMem := cellsWrite s.svMem ea b }
        | none => s
      let s := if d.isSome then s.newAcc { acc with data := o.1, done := true, kind := .land } else s
      .ok ⟨s, .ok (fb'.seen s.gtime), due⟩
    else
      match s.early acc true with
      | (s, .ok x) => .ok ⟨s.newAcc { acc with xl := some x }, .ok fb', due⟩
      | (s, .bad e) => .ok ⟨s, .fault fb (xlateTrap e .atomic ea), 0⟩
      | (s, .retry) => .error s

/-- The flag an atomic raises: set0 where it returns a value (R18, R277). -/
def atomFlag (d : Option (BitVec 8)) : Option Bool := if d.isSome then some false else none

/-- ATOM (R277, R278). -/
def execAtom (g : Guard) (op : AtomOp) (t : AtomType) (d : Option (BitVec 8)) (a b : Src) (up : MemUp) (s : State) :
    Host.Outcome State Fault Refusal :=
  issueTry { len := 16, g := g, uses := useW (atomWords t) d ++ useS 2 a ++ useS (atomWords t) b, commit := true, flag := atomFlag d }
    (atomLane (fun f => .rmw op t (BitVec.ofNat 64 (f.src (atomPos t) b))) d (atomWords t) a up) s

/-- CAS (R279). -/
def execCas (g : Guard) (w : Width) (d : BitVec 8) (a c n : Src) (up : MemUp) (s : State) : Host.Outcome State Fault Refusal :=
  let k := Width.words w
  issueTry { len := 16, g := g, uses := useW k (some d) ++ useS 2 a ++ useS k c ++ useS k n, commit := true, flag := some false }
    (atomLane (fun f => .cas (widthBytes w) (bytesOfWords (f.srcWords k c)) (bytesOfWords (f.srcWords k n))) (some d) k a up) s

/-- ATOMS of one lane: performed in the array at issue, its result landing later (R274, R277). -/
def atomsLane (op : AtomOp) (t : AtomType) (d : Option (BitVec 8)) (a b : Src) (up : MemUp) (c : Cx) (tag : Nat) (s : State) (l : Nat)
    (fb : Fibre) : LaneFx :=
  match s.myRope c.who with
  | none => ⟨s, .fault fb (illegal .operand), 0⟩
  | some rp =>
    let ea := fb.sea a up.off
    let n := atomWords t
    match scratchCheck rp.spadA (4 * n) ea with
    | some e => ⟨s, .fault fb e, 0⟩
    | none =>
      let o := atomDo (.rmw op t (BitVec.ofNat 64 (fb.src (atomPos t) b))) (rp.spadRead ea.toNat (4 * n))
      let s := match o.2 with
        | some x => s.spadWrite rp.id ea.toNat x
        | none => s
      match d with
      | none => ⟨s, .ok (fb.seen s.gtime), 0⟩
      | some x =>
        ⟨s.newAcc { accOf (c.who.lane l) rp.ctx ea.toNat (4 * n) .land c.ip c.cl.hpc with
            wd := some (x.toNat, n), scope := .rope, data := o.1, done := true, tag := some tag },
          .ok ((fb.setPend ((List.range n).map (x.toNat + ·))).seen s.gtime), 1⟩

/-- ATOMS (R277). -/
def execAtoms (g : Guard) (op : AtomOp) (t : AtomType) (d : Option (BitVec 8)) (a b : Src) (up : MemUp) (s : State) :
    Host.Outcome State Fault Refusal :=
  issueSt { len := 16, g := g, uses := useW (atomWords t) d ++ useS 1 a ++ useS (atomWords t) b, commit := true, flag := atomFlag d,
            rope := true, access := true, rel := releases up.order }
    (atomsLane op t d a b up) s

/-- Every write-back of a line that has left the slice's L1 is visible: none waits in the victim buffer with dirty bytes, none is on its way
or at work at a home, and the latest WCT has passed (R261, R262). -/
def State.wroteBackAll (s : State) (c : Nat) : Bool :=
  !s.copies.any (fun cp => decide (cp.cluster = c) && cp.vb && !cp.surr && cp.dirty != 0) &&
    !s.msgs.any (fun f => decide (f.ty = .wbdata ∧ f.msg.src = .cluster c)) &&
    !s.homes.any (fun h => (h.txn.any fun t => decide (t.ty = .wbdata ∧ t.msg.src = .cluster c)) ||
      h.queue.any fun f => decide (f.ty = .wbdata ∧ f.msg.src = .cluster c)) &&
    decide ((lookupBy Prod.fst c s.wbWct).elim 0 Prod.snd < s.gtime)

/-- A lane's FENCE of a scope is complete (R238, R262, R281). -/
def State.fenced (s : State) (l : LaneId) (sc : Scope) : Bool :=
  match sc with
  | .fib => !s.accs.any fun b => decide (b.lane = l) && (match b.kind with | .cwb _ => true | _ => false)
  | .rope | .coil => !s.anyOpen l
  | _ => s.settled l (s.accs.filter fun b => decide (b.lane = l) && !b.void) && s.wroteBackAll (clusterOf l.rope.core)

/-- What a fence of a scope has to start is started; true once it is complete for every lane (R237, R281). -/
def State.fenceTry (s : State) (ls : List LaneId) (sc : Scope) : State × Bool :=
  let s := if sc == .fib || narrow sc then s else ls.foldl (fun (s : State) l => (s.widePush l).getD s) s
  (s, ls.all fun l => s.fenced l sc)

/-- FENCE: the path stalls until it is complete for every lane that executes it (R281). -/
def execFence (g : Guard) (sc : Scope) (s : State) : Host.Outcome State Fault Refusal :=
  let i : Iss := { len := 8, g := g, uses := [], commit := true }
  match s.cx? i.len with
  | none => s.noEvent
  | some c =>
    if s.stalls c i then .next s
    else
      match s.fenceTry ((c.lanes g).map c.who.lane) sc with
      | (s, true) => issueSt i (fun _ _ s _ fb => ⟨s, .ok fb, 0⟩) s
      | (s, false) => .next s

/-- A lock of a context on a line, which is filled first: the status, and what changes. A line that two contexts lock counts once for its
slice (R223, R282). -/
def State.lockLine (s : State) (ctx : Nat) (x : Xl) : State × Nat :=
  if s.isDirect x false || (s.window? x.cctx x.cva).isSome then (s, 4)
  else if s.locks.contains (ctx, x.line) then (s, 1)
  else
    match s.ctx? ctx with
    | none => (s, 2)
    | some c =>
      if c.lquota ≤ c.locks then (s, 2)
      else if 12288 ≤ (((s.locks.map Prod.snd).filter fun l => decide (sliceOf l = sliceOf x.line ∧ l ≠ x.line)).eraseDups).length then (s, 3)
      else
        let s := s.ensureHome x.line x.lineLoc x.key x.own
        ({ (s.setCtx { c with locks := c.locks + 1 }) with locks := s.locks ++ [(ctx, x.line)] }, 0)

/-- A context's lock on a line released (R224, R282). -/
def State.unlockLine (s : State) (ctx : Nat) (l : LineId) : State × Nat :=
  if s.locks.contains (ctx, l) then
    let s := { s with locks := s.locks.filter fun k => decide (k ≠ (ctx, l)) }
    (match s.ctx? ctx with
      | some c => s.setCtx { c with locks := c.locks - 1 }
      | none => s, 0)
  else (s, 1)

/-- LOCKL of one lane (R282). In the supervisor space, which has no context, no quota exists: QUOTA. -/
def locklLane (d : Dst) (a : Src) (off : BitVec 32) (c : Cx) (s : State) (fb : Fibre) : Except State LaneFx :=
  let ea := fb.gea a off
  if 2 ^ 54 ≤ ea then .ok ⟨s, .fault fb (rangeTrap .load ea), 0⟩
  else
    match s.ctxOf c.who with
    | none => .ok ⟨s, .ok (fb.dst false d 2), 0⟩
    | some ctx =>
      match s.translate (clusterOf c.who.core) ctx ea .load true with
      | (s, .bad e) => .ok ⟨s, .fault fb (xlateTrap e .load ea), 0⟩
      | (s, .retry) => .error s
      | (s, .ok x) =>
        let (s, n) := s.lockLine ctx x
        .ok ⟨s, .ok (fb.dst false d n), 0⟩

/-- LOCKL (R282). -/
def execLockl (g : Guard) (d : Dst) (a : Src) (off : BitVec 32) (s : State) : Host.Outcome State Fault Refusal :=
  issueTry { len := 16, g := g, uses := useD 1 d ++ useS 2 a, commit := true } (fun c _ s _ fb => locklLane d a off c s fb) s

/-- UNLKL of one lane (R282). -/
def unlklLane (d : Dst) (a : Src) (off : BitVec 32) (c : Cx) (s : State) (fb : Fibre) : Except State LaneFx :=
  let ea := fb.gea a off
  if 2 ^ 54 ≤ ea then .ok ⟨s, .fault fb (rangeTrap .load ea), 0⟩
  else
    match s.ctxOf c.who with
    | none => .ok ⟨s, .ok (fb.dst false d 1), 0⟩
    | some ctx =>
      match s.canonical (clusterOf c.who.core) ctx ea with
      | (s, .error true) => .error s
      | (s, .error false) => .ok ⟨s, .ok (fb.dst false d 1), 0⟩
      | (s, .ok x) =>
        let (s, n) := s.unlockLine ctx x.line
        .ok ⟨s, .ok (fb.dst false d n), 0⟩

/-- UNLKL (R282). -/
def execUnlkl (g : Guard) (d : Dst) (a : Src) (off : BitVec 32) (s : State) : Host.Outcome State Fault Refusal :=
  issueTry { len := 16, g := g, uses := useD 1 d ++ useS 2 a, commit := true } (fun c _ s _ fb => unlklLane d a off c s fb) s

/-- The dirty bytes of a held line go to the home, and the copy stays held, clean; the lane waits for their WCT (R255, R283). -/
def State.writeBack (s : State) (l : LaneId) (cp : Copy) : State :=
  let a : Access := { accOf l cp.line.ctx (cp.line.line * 128) 128 (.cwb []) 0 0 with
    xl := some (lineXl cp.line) }
  let id := s.nextId
  ((s.newAcc a).sendDirty cp (some id)).setCopy { cp with dirty := 0, cst := if cp.slot = 5 ∧ cp.cst = 2 then 1 else cp.cst }

/-- One more lane waits for the WCT of a write-back. -/
def State.alsoWaits (s : State) (id : Nat) (l : LaneId) : State :=
  match s.acc? id with
  | some a => match a.kind with
    | .cwb also => if a.lane = l ∨ also.contains l then s else s.setAcc { a with kind := .cwb (also ++ [l]) }
    | _ => s
  | none => s

/-- The bytes of the line are on their way from the victim buffer to the home: the lane waits for their WCT (R262, R283). -/
def State.joinWb (s : State) (l : LaneId) (line : LineId) : State :=
  let c := clusterOf l.rope.core
  let a : Access := { accOf l line.ctx (line.line * 128) 128 (.cwb []) 0 0 with xl := some (lineXl line) }
  let s := match s.copy? c line with
    | some cp => if !cp.vb || cp.surr then s else match cp.wb with
      | some id => s.alsoWaits id l
      | none => (s.newAcc a).setCopy { cp with wb := some s.nextId }
    | none => s
  match s.msgs.find? fun f => decide (f.ty = .wbdata ∧ f.msg.line = line ∧ f.msg.src = .cluster c) with
  | some f => match f.msg.acc with
    | some id => s.alsoWaits id l
    | none =>
      let id := s.nextId
      let s := s.newAcc a
      { s with msgs := s.msgs.map fun (g : Flight) => if g = f then { g with msg := { g.msg with acc := some id } } else g }
  | none => s

/-- CWB of one lane's line: a pin of its rope ends, dirty bytes of the slice are written back, those in the victim buffer are waited for,
and a clean or absent line counts as written now; a read-only copy goes (R237, R273, R283). -/
def State.cwbLine (s : State) (l : LaneId) (line : LineId) : State :=
  let c := clusterOf l.rope.core
  let s := s.dropRo c line
  match (s.myPin? c line).filter fun p => decide (p.rope = l.rope) with
  | some p =>
    let d := ((s.copy? c line).map Copy.dirty).getD 0
    s.endPin { (p.plus l) with wmask := p.wmask ||| d }
  | none =>
    match s.copy? c line with
    | some cp => if !cp.vb && cp.dirty != 0 then s.writeBack l cp else s.joinWb l line
    | none => s.joinWb l line

/-- A line leaves a core's fetch buffers, under the name it was fetched by and its canonical one (R26, R284). -/
def State.dropFetched (s : State) (core ctx line cctx cline : Nat) : State :=
  let k := s.core core
  let stays := fun (e : Nat × Nat × List Byte) => decide (¬ (e.1 = ctx ∧ e.2.1 = line) ∧ ¬ (e.1 = cctx ∧ e.2.1 = cline))
  s.setCore { k with fetched := k.fetched.filter stays }

/-- CINV of one lane's line: written back as by CWB, then dropped from the slice, the read-only copies and the issuing core's fetch
buffers; one that stands in the victim buffer is leaving already (R284). None: it waits for another rope's pin or for room in the victim
buffer. -/
def State.cinvLine (s : State) (l : LaneId) (ctx va : Nat) (x : Xl) : Option State :=
  let c := clusterOf l.rope.core
  let s := s.cwbLine l x.line
  if (s.myPin? c x.line).isSome then none
  else
    (match s.copy? c x.line with
      | some cp => if cp.vb then some s else s.evict cp
      | none => some s).map fun (s : State) => s.dropFetched l.rope.core ctx (va / 128) x.cctx (x.cva / 128)

/-- The lane has an access to the line in progress, which its own CWB or CINV follows. -/
def State.lineOpen (s : State) (l : LaneId) (line : LineId) : Bool :=
  s.accs.any fun b => decide (b.lane = l) && b.open_ && decide (b.line? = some line) && (match b.kind with | .cwb _ => false | _ => true)

/-- CWB and CINV of one lane. The error repeats the word: an access of the lane to the line is in progress, or a page-table read was
answered Retry. -/
def cacheLane (inv : Bool) (a : Src) (off : BitVec 32) (c : Cx) (s : State) (l : Nat) (fb : Fibre) : Except State LaneFx :=
  let ea := fb.gea a off
  if 2 ^ 54 ≤ ea then .ok ⟨s, .fault fb (rangeTrap .load ea), 0⟩
  else
    match s.ctxOf c.who with
    | none => .ok ⟨s, .ok fb, 0⟩
    | some ctx =>
      match s.canonical (clusterOf c.who.core) ctx ea with
      | (s, .error true) => .error s
      | (s, .error false) => .ok ⟨if inv then s.dropFetched c.who.core ctx (ea / 128) ctx (ea / 128) else s, .ok (fb.seen s.gtime), 0⟩
      | (s, .ok x) =>
        let lane := c.who.lane l
        if (s.window? x.cctx x.cva).isSome || s.isDirect x false then
          .ok ⟨if inv then s.dropFetched c.who.core ctx (ea / 128) x.cctx (x.cva / 128) else s, .ok (fb.seen s.gtime), 0⟩
        else if s.lineOpen lane x.line then .error s
        else
          match (if inv then s.cinvLine lane ctx ea x else some (s.cwbLine lane x.line)) with
          | some s => .ok ⟨s, .ok (fb.seen s.gtime), 0⟩
          | none => .error s

/-- CWB (R283). -/
def execCwb (g : Guard) (a : Src) (off : BitVec 32) (s : State) : Host.Outcome State Fault Refusal :=
  issueTry { len := 16, g := g, uses := useS 2 a, commit := true, access := true } (fun c _ s l fb => cacheLane false a off c s l fb) s

/-- CINV (R284). -/
def execCinv (g : Guard) (a : Src) (off : BitVec 32) (s : State) : Host.Outcome State Fault Refusal :=
  issueTry { len := 16, g := g, uses := useS 2 a, commit := true, access := true } (fun c _ s l fb => cacheLane true a off c s l fb) s

end Sys2Proof.Machine
end

