-- ==== Sys2Proof/Machine/Alu.lean ====
section
/-! DEFINITION. The shapes of the register-to-register instructions of groups 1 to 7: one, two or three sources, a result in
the destination and the latch, float environments, and predicate results (R15, R80, R82, R118 to R120). -/

namespace Sys2Proof.Machine

/-- What a word with these sources and this destination needs to issue (R13, R21, R69). -/
def aluIss (g : Guard) (dw : Bool) (d : Option Dst) (l : List (Pos × Src)) : Iss :=
  { len := (immUp (l.map Prod.snd)).len, g := g,
    uses := (d.elim [] (useD (nw dw))) ++ l.flatMap fun p => useS (nw p.1.wide) p.2 }

/-- d := f(a) (R80, R82). -/
def alu1 (g : Guard) (dw : Bool) (d : Dst) (pa : Pos) (a : Src) (f : Nat → Nat) (s : State) : Host.Outcome State Fault Refusal :=
  issue (aluIss g dw (some d) [(pa, a)]) (fun _ _ fb => .ok (fb.result dw d (f (fb.src pa a)))) s

/-- d := f(a, b). -/
def alu2 (g : Guard) (dw : Bool) (d : Dst) (pa : Pos) (a : Src) (pb : Pos) (b : Src) (f : Nat → Nat → Nat) (s : State) :
    Host.Outcome State Fault Refusal :=
  issue (aluIss g dw (some d) [(pa, a), (pb, b)]) (fun _ _ fb => .ok (fb.result dw d (f (fb.src pa a) (fb.src pb b)))) s

/-- d := f(a, b, c). -/
def alu3 (g : Guard) (dw : Bool) (d : Dst) (pa : Pos) (a : Src) (pb : Pos) (b : Src) (pc : Pos) (c : Src)
    (f : Nat → Nat → Nat → Nat) (s : State) : Host.Outcome State Fault Refusal :=
  issue (aluIss g dw (some d) [(pa, a), (pb, b), (pc, c)])
    (fun _ _ fb => .ok (fb.result dw d (f (fb.src pa a) (fb.src pb b) (fb.src pc c)))) s

/-- d := f(a, b) for one integer type (R91). -/
def int2 (g : Guard) (t : IType) (d : Dst) (a b : Src) (f : Nat → Nat → Nat) (s : State) : Host.Outcome State Fault Refusal :=
  alu2 g t.is64 d (.i t) a (.i t) b f s

/-- Position of a shift amount (R98, R100). -/
def shiftPos (t : IType) : Pos := if t.packed then .i t else .i .ui32

/-- d := a shifted by n (R100). -/
def shift2 (g : Guard) (t : IType) (d : Dst) (a n : Src) (f : Nat → Nat → Nat) (s : State) : Host.Outcome State Fault Refusal :=
  alu2 g t.is64 d (.i t) a (shiftPos t) n f s

/-- A division (R93, R94): with a divisor of zero and INTCTL.IDZE set the fibre takes an ARITH trap; info bit 8 names it (R365). -/
def divide (g : Guard) (t : IType) (d : Dst) (a b : Src) (f : Nat → Nat → Nat) (s : State) : Host.Outcome State Fault Refusal :=
  issue (aluIss g t.is64 (some d) [(.i t, a), (.i t, b)])
    (fun _ _ fb =>
      if fb.src (.i t) b = 0 ∧ fb.intctl.getLsbD 0 then .fault fb ⟨.arith, .at, 256, 0, false⟩
      else .ok (fb.result t.is64 d (f (fb.src (.i t) a) (fb.src (.i t) b)))) s

/-- Environment of a float operation on a fibre: its FTZ and resolved rounding, the XF modifiers of its sources (R28, R45, R67,
R120). -/
def fenv (fb : Fibre) (rc : Rc) (sat : Bool) (a b c : FSrc) : FEnv :=
  { na := a.neg, aa := a.abs, nb := b.neg, ab := b.abs, nc := c.neg, ftz := fb.ftz, rc := fb.rc rc, sat := sat }

/-- d := f(a) with conditions (R119). -/
def flt1 (g : Guard) (t : FType) (sat : Bool) (rc : Rc) (d : Dst) (a : FSrc) (f : FEnv → Nat → Nat × Nat) (s : State) :
    Host.Outcome State Fault Refusal :=
  issue (aluIss g (t == .f64) (some d) [(.f t, a.src)])
    (fun _ _ fb => fb.finishF (t == .f64) d (f (fenv fb rc sat a noF noF) (fb.src (.f t) a.src))) s

/-- d := f(a, b) with conditions (R119). -/
def flt2 (g : Guard) (t : FType) (sat : Bool) (rc : Rc) (d : Dst) (a b : FSrc) (f : FEnv → Nat → Nat → Nat × Nat) (s : State) :
    Host.Outcome State Fault Refusal :=
  issue (aluIss g (t == .f64) (some d) [(.f t, a.src), (.f t, b.src)])
    (fun _ _ fb => fb.finishF (t == .f64) d (f (fenv fb rc sat a b noF) (fb.src (.f t) a.src) (fb.src (.f t) b.src))) s

/-- d := f(a, b, c) with conditions (R119). -/
def flt3 (g : Guard) (t : FType) (sat : Bool) (rc : Rc) (d : Dst) (a b c : FSrc) (f : FEnv → Nat → Nat → Nat → Nat × Nat)
    (s : State) : Host.Outcome State Fault Refusal :=
  issue (aluIss g (t == .f64) (some d) [(.f t, a.src), (.f t, b.src), (.f t, c.src)])
    (fun _ _ fb => fb.finishF (t == .f64) d
      (f (fenv fb rc sat a b c) (fb.src (.f t) a.src) (fb.src (.f t) b.src) (fb.src (.f t) c.src))) s

/-- A float comparison into a predicate (R105, R106). -/
def fcmp (g : Guard) (F : FF) (t : FType) (cc : Cc) (m : AccMode) (p : Num4) (a b : Src) (s : State) :
    Host.Outcome State Fault Refusal :=
  issue (aluIss g false none [(.f t, a), (.f t, b)])
    (fun _ _ fb =>
      let r := vFcmp F cc fb.ftz (fb.src (.f t) a) (fb.src (.f t) b)
      fb.finish r.2 fun fb => fb.setPred p (accum m (fb.pred p) r.1)) s

end Sys2Proof.Machine
end

