-- ==== Sys2Proof/Machine/Convert.lean ====
section
/-! DEFINITION. Group 6, conversion and packed data, with the stochastic draws (R50 to R53, R132 to R141). -/

namespace Sys2Proof.Machine

/-- StrandKey of R51 for a rope's strand. -/
def strandKey (seed : DWord) (r : Rope) (sid : Nat) : Nat :=
  let h := mix seed.toNat
  let h := mix (h ^^^ (r.coilXyz.2.1 % 2 ^ 32 * 2 ^ 32 + r.coilXyz.1 % 2 ^ 32))
  let h := mix (h ^^^ (r.ropeXyz.2.1 % 2 ^ 16 * 2 ^ 48 + r.ropeXyz.1 % 2 ^ 16 * 2 ^ 32 + r.coilXyz.2.2 % 2 ^ 32))
  mix (h ^^^ (r.stage % 2 ^ 16 * 2 ^ 48 + r.ropeXyz.2.2 % 2 ^ 16 * 2 ^ 32 + sid))

/-- State(L) of R51 of an issuer's lane with stochastic count `cnt`. The supervisor strand has no identity in a launch: its
state is a free value (log 7). -/
def State.srState (s : State) (w : Who) (seed : DWord) (cnt : Word) : Nat :=
  match w with
  | .strand r sid => match s.rope? r with
    | some rp => mix (strandKey seed rp sid ^^^ cnt.toNat)
    | none => 0
  | .sup _ => (Config.freeValue s.freeCtr).toNat

/-- A free value used by the supervisor strand is spent (log 7). -/
def State.spend (s : State) (w : Who) : State :=
  match w with
  | .sup _ => { s with freeCtr := s.freeCtr + 1 }
  | _ => s

/-- An executed SR conversion adds one to its lane's count (R50). -/
def Fibre.drew (f : Fibre) (rc : Rc) : Fibre := if rc = .sr then { f with cnt := f.cnt + 1 } else f

/-- A conversion with conditions and draws: the lane function takes the draw of an element (R51, R119). -/
def convert (i : Iss) (dw : Bool) (d : Dst) (rc : Rc) (f : (Nat → Nat) → Fibre → Nat × Nat) (s : State) :
    Host.Outcome State Fault Refusal :=
  issueSt i (fun c _ s l fb =>
    let st := if rc = .sr then s.srState c.who c.st.srseed fb.cnt else 0
    let r := (fb.finishF dw d (f (drawOf st l) fb))
    ⟨if rc = .sr then s.spend c.who else s, if r.trap.isSome then r else { r with fib := r.fib.drew rc }, 0⟩) s

/-- CVT (R134, R135). -/
def execCvt (g : Guard) (fd fs : CFmt) (sat : Bool) (rc : Rc) (d : Dst) (a : Src) (s : State) :
    Host.Outcome State Fault Refusal :=
  convert (aluIss g fd.is64 (some d) [(.c fs, a)]) fd.is64 d rc
    (fun dr fb => vCvt fd fs (fb.rc rc) sat fb.ftz (dr 0) (fb.src (.c fs) a)) s
/-- PACK (R136). A constant in c is taken as one 32-bit integer, of whose type R136 and R64 say nothing (log 18). -/
def execPack (g : Guard) (f : CFmt) (slot : BitVec 2) (sat : Bool) (rc : Rc) (d : Dst) (a b c : Src) (s : State) :
    Host.Outcome State Fault Refusal :=
  let p : Pos := .c (CFmt.packSrc f)
  convert (aluIss g false (some d) [(p, a), (p, b), (.b32, c)]) false d rc
    (fun dr fb => vPack f slot.toNat (fb.rc rc) sat fb.ftz (fun j => dr (2 * slot.toNat + j)) (fb.src p a) (fb.src p b)
      (fb.src .b32 c)) s
/-- UNPK (R137). A constant in a is taken as one 32-bit integer, of whose type R137 and R64 say nothing (log 18). -/
def execUnpk (g : Guard) (f : CFmt) (el : BitVec 3) (d : Dst) (a : Src) (s : State) : Host.Outcome State Fault Refusal :=
  issue (aluIss g false (some d) [(.b32, a)]) (fun _ _ fb => fb.finishF false d (vUnpk f el.toNat fb.ftz (fb.src .b32 a))) s

/-- Position of a dot product's packed source (R63, R138). -/
def dotPos : DpElem → Pos
  | .i16 => .i .i16x2
  | .ui16 => .i .ui16x2
  | .f16 => .f .f16x2
  | .bf16 => .f .bf16x2
  | .i8 => .i .i8x4
  | .ui8 => .i .ui8x4
  | .i4 | .ui4 => .p 4 8 none
  | e => .p (32 / e.count) e.count (some (DpElem.ff e))

/-- A dot product (R138): the accumulator is INT32 or FP32. -/
def dot (g : Guard) (fa fb : DpElem) (sat : Bool) (d : Dst) (a b c : Src) (s : State) : Host.Outcome State Fault Refusal :=
  let pc : Pos := if fa.isInt then .i .i32 else .f .f32
  issue (aluIss g false (some d) [(dotPos fa, a), (dotPos fb, b), (pc, c)])
    (fun _ _ f => f.finishF false d (vDp fa fb sat f.ftz (f.src (dotPos fa) a) (f.src (dotPos fb) b) (f.src pc c))) s

/-- DP4 (R138). -/
def execDp4 (g : Guard) (fa fb : DpElem) (sat : Bool) (d : Dst) (a b c : Src) (s : State) :
    Host.Outcome State Fault Refusal := dot g fa fb sat d a b c s
/-- DP8 (R138). -/
def execDp8 (g : Guard) (fa fb : DpElem) (sat : Bool) (d : Dst) (a b c : Src) (s : State) :
    Host.Outcome State Fault Refusal := dot g fa fb sat d a b c s
/-- DP2 (R138). -/
def execDp2 (g : Guard) (fa fb : DpElem) (sat : Bool) (d : Dst) (a b c : Src) (s : State) :
    Host.Outcome State Fault Refusal := dot g fa fb sat d a b c s
/-- FSCL (R139). A constant in s is taken as one 32-bit integer, of whose type R139 and R64 say nothing (log 18). -/
def execFscl (g : Guard) (t : FType) (k : BitVec 2) (sat : Bool) (rc : Rc) (d : Dst) (a sc : Src) (s : State) :
    Host.Outcome State Fault Refusal :=
  issue (aluIss g false (some d) [(.f t, a), (.b32, sc)])
    (fun _ _ fb => fb.finishF false d
      (vFscl t (fenv fb rc sat ⟨a, false, false⟩ noF noF) k.toNat (fb.src (.f t) a) (fb.src .b32 sc))) s
/-- T3PK (R140). -/
def execT3pk (g : Guard) (d : Dst) (a b : Src) (s : State) : Host.Outcome State Fault Refusal :=
  alu2 g false d .b32 a .b32 b vT3pk s
/-- T3UP (R141). -/
def execT3up (g : Guard) (hi : Bool) (d : Dst) (p : Num4) (a : Src) (s : State) : Host.Outcome State Fault Refusal :=
  issue (aluIss g false (some d) [(.b32, a)])
    (fun _ _ fb =>
      let r := vT3up hi (fb.src .b32 a)
      .ok ((fb.result false d r.1).setPred p r.2)) s

end Sys2Proof.Machine
end

