-- ==== Sys2Proof/Machine/Move.lean ====
section
/-! DEFINITION. Group 7, moves, special registers and control registers (R27 to R30, R111 to R116, R316, R458). -/

namespace Sys2Proof.Machine

/-- Position of MOV's source (R112). -/
def movPos : MovType → Pos
  | .b32 => .i .ui32
  | .b64 => .i .ui64
  | .f32 => .f .f32
  | .f64 => .f .f64

/-- MOV (R112). -/
def execMov (g : Guard) (t : MovType) (d : Dst) (a : Src) (s : State) : Host.Outcome State Fault Refusal :=
  alu1 g (movPos t).wide d (movPos t) a (fun x => x) s

/-- CLOCK: arithmetic-clock cycles since boot at 700 MHz (R2, R30; log 16). -/
def State.clock (s : State) : Nat := s.gtime * 7 / 10

/-- A special register of an issuer's lane (R30). None where the supervisor strand, which has no rope and no process, reads a
number that only a rope or a process has: a free value (log 7). -/
def State.special (s : State) (w : Who) (lane sp : Nat) : Option Nat :=
  let r := match w with
    | .strand r _ => s.rope? r
    | .sup _ => none
  let sid := match w with
    | .strand _ sid => sid
    | .sup _ => 0
  match sp with
  | 0 => some (sid * 32 + lane)
  | 1 => some lane
  | 2 => some sid
  | 3 => r.map fun r => r.ropeXyz.1
  | 4 => r.map fun r => r.ropeXyz.2.1
  | 5 => r.map fun r => r.ropeXyz.2.2
  | 6 => r.map fun r => r.coilXyz.1
  | 7 => r.map fun r => r.coilXyz.2.1
  | 8 => r.map fun r => r.coilXyz.2.2
  | 9 => r.map Rope.stage
  | 10 => some w.core
  | 11 => some (clusterOf w.core)
  | 12 => some s.chip
  | 13 => r.map Rope.ctx
  | 14 => (r.bind fun r => s.ctx? r.ctx).map fun c => c.pid.toNat
  | 15 => some s.clock
  | _ => some s.gtime

/-- MOVS (R113). -/
def execMovs (g : Guard) (d : Dst) (sp : BitVec 5) (s : State) : Host.Outcome State Fault Refusal :=
  let wide := decide (sp = 15 ∨ sp = 16)
  issueSt { len := 8, g := g, uses := useD (nw wide) d }
    (fun c _ s l fb =>
      match s.special c.who l sp.toNat with
      | some v => ⟨s, .ok (fb.result wide d (v % 2 ^ (if wide then 64 else 32))), 0⟩
      | none => let (v, s) := s.free; ⟨s, .ok (fb.result wide d (v.toNat % 2 ^ 32)), 0⟩) s

/-- A control register as an issuer's lane reads it: what was last written, even where it takes effect only at the next header
(R114). None: the register is not there for it, cause 6. -/
def State.csrRead (s : State) (w : Who) (f : Fibre) (c : Csr) : Option Nat :=
  let st := s.strand w
  let k := s.core w.core
  match c with
  | .fpctl => some f.fpctl.toNat
  | .fpstat => some f.fpstat.toNat
  | .intctl => some f.intctl.toNat
  | .quantum => some (st.quantumP.getD st.quantum).toNat
  | .srseed => some (st.srseedP.getD st.srseed).toNat
  | .knotlim => some 512
  | .tc i => match w with
    | .strand r _ => (s.rope? r).bind fun rp => if i < rp.ntiles then (rp.tcs[i]?).map BitVec.toNat else none
    | .sup _ => none
  | .bka n => some (k.bka.getD n 0).toNat
  | .bkc n => some (k.bkc.getD n 0).toNat
  | .svflt => some k.svflt.toNat
  | .svpage => some (Config.svPage w.core).toNat

/-- The register of a number for an issuer, or the cause of R116. A number that is no register is RESERVED for the supervisor strand
from 0x800 on too, which neither R29 nor R116 says (log 19). -/
def csrFor (w : Who) (num : Nat) : Except Cause Csr :=
  if 0x800 ≤ num ∧ ¬ w.isSup then .error .privileged
  else match csrOf num with
    | some c => .ok c
    | none => .error .reserved

/-- CSRR (R114, R116). -/
def execCsrr (g : Guard) (d : Dst) (num : BitVec 12) (s : State) : Host.Outcome State Fault Refusal :=
  issue { len := 8, g := g, uses := useD (nw (csr64 num)) d }
    (fun c _ fb =>
      match csrFor c.who num.toNat with
      | .error e => .fault fb (illegal e)
      | .ok r => match s.csrRead c.who fb r with
        | some v => .ok (fb.result (csr64 num) d v)
        | none => .fault fb (illegal .reserved)) s

/-- A tile control of a rope written (R316). -/
def State.setTc (s : State) (r : RopeId) (i : Nat) (v : Word) : State :=
  match s.rope? r with
  | some rp => s.setRope { rp with tcs := rp.tcs.set i v }
  | none => s

/-- A register that does not belong to the fibre written (R27, R115). -/
def State.csrWrite (s : State) (w : Who) (c : Csr) (v : Nat) : State :=
  let st := s.strand w
  let k := s.core w.core
  match c with
  | .quantum => s.setStrand w { st with quantumP := some (BitVec.ofNat 32 v) }
  | .srseed => s.setStrand w { st with srseedP := some (BitVec.ofNat 64 v) }
  | .tc i => match w with
    | .strand r _ => s.setTc r i (BitVec.ofNat 32 v)
    | .sup _ => s
  | .bka n => s.setCore { k with bka := k.bka.set n (BitVec.ofNat 64 v) }
  | .bkc n => s.setCore { k with bkc := k.bkc.set n (BitVec.ofNat 32 v) }
  | _ => s

/-- A per-fibre register written. -/
def Fibre.csrWrite (f : Fibre) (c : Csr) (v : Nat) : Fibre :=
  match c with
  | .fpctl => { f with fpctl := BitVec.ofNat 32 v }
  | .fpstat => { f with fpstat := BitVec.ofNat 32 v }
  | .intctl => { f with intctl := BitVec.ofNat 32 v }
  | _ => f

/-- The new value of a CSRW (R115). -/
def csrNew (op : CsrOp) (old a : Nat) : Nat :=
  match op with
  | .write => a
  | .set => old ||| a
  | .clr => old - (old &&& a)

/-- A register of the strand, of which the lowest writing lane's value stands (R27). -/
def Csr.perStrand : Csr → Bool
  | .quantum | .srseed => true
  | _ => false

/-- CSRW (R27, R29, R115, R116). -/
def execCsrw (g : Guard) (op : CsrOp) (num : BitVec 12) (a : Src) (s : State) : Host.Outcome State Fault Refusal :=
  let pa : Pos := .i (if csr64 num then .ui64 else .ui32)
  let i := aluIss g false none [(pa, a)]
  -- what a lane would write, from the state before the instruction
  let val := fun (c : Cx) (fb : Fibre) (r : Csr) => (s.csrRead c.who fb r).map fun old => csrNew op old (fb.src pa a)
  issueSt i
    (fun c _ s' l fb =>
      match csrFor c.who num.toNat with
      | .error e => ⟨s', .fault fb (illegal e), 0⟩
      | .ok r =>
        match val c fb r with
        | none => ⟨s', .fault fb (illegal .reserved), 0⟩
        | some v =>
          if csrForbidden r v then ⟨s', .fault fb (illegal .reserved), 0⟩
          else
            let first := (c.set i).find? fun k => ((val c (c.st.fibre k) r).map fun v => !csrForbidden r v).getD false
            let s' := if !r.perStrand || first == some l then s'.csrWrite c.who r v else s'
            ⟨s', .ok (fb.csrWrite r v), 0⟩) s

end Sys2Proof.Machine
end

