-- ==== Sys2Proof/Machine/EngBase.lean ====
section
/-! DEFINITION. Engine operations: shape records and their checks, operation numbers and timelines, barrier words, the task table,
completion records and rings, parking and ending (R243, R298 to R315, R323, R324, R331, R332). -/

namespace Sys2Proof.Machine

/-- Bytes of an element that takes whole bytes, 1 for the formats below a byte (R298). -/
def fmtBytes (fmt : Nat) : Nat :=
  match fmt with
  | 0 => 8
  | 1 | 16 => 4
  | 2 | 3 | 9 => 2
  | _ => 1

/-- A 4-bit format (R298). -/
def fmt4 (fmt : Nat) : Bool := fmt == 8 || fmt == 12 || fmt == 13

/-- A format below 8 bits. -/
def fmtSub (fmt : Nat) : Bool := fmt4 fmt || fmt == 14 || fmt == 15

/-- Elements that share a byte (R41 to R43). -/
def subPer (fmt : Nat) : Nat :=
  match fmt with
  | 14 => 5
  | 15 => 8
  | _ => if fmt4 fmt then 2 else 1

/-- A shape record from its 64 bytes (R300). -/
def shapeOf (idx : Nat) (b : List Byte) : Shape :=
  let v := leNat b
  { boxes := (List.range 4).map fun k => bits v (448 + 16 * k) 16
    fill := bits v 416 32
    sbase := bits v 384 32
    stride := (List.range 4).map fun k => bits v (224 + 40 * k) 40
    dim := (List.range 4).map fun k => bits v (96 + 32 * k) 32
    rsv := bits v 78 18 != 0
    scalei := bit v 77
    clip := bit v 76
    swz := bits v 73 3
    spad := bit v 72
    rank := bits v 69 3
    fmt := bits v 64 5
    base := bits v 0 64
    idx := idx }

/-- Extent, stride and box of a dimension; 1, 0 and 1 at the rank or above (R300). -/
def Shape.ext (h : Shape) (k : Nat) : Nat := if k < h.rank then getAt h.dim k else 1
/-- Stride of a dimension. -/
def Shape.str (h : Shape) (k : Nat) : Nat := if k < h.rank then getAt h.stride k else 0
/-- Box extent of a dimension. -/
def Shape.box (h : Shape) (k : Nat) : Nat := if k < h.rank then getAt h.boxes k else 1
/-- Rows of a box (R301). -/
def Shape.rows (h : Shape) : Nat := h.box 1 * h.box 2 * h.box 3

/-- Element bytes of a scale block in memory (R44). -/
def blockBytes (fmt : Nat) : Nat := if fmt = 8 then 8 else 16

/-- The packed place of element e of a format below 8 bits: its byte, and its position in the byte (R41 to R43). -/
def subPlace (fmt : Nat) (e : Int) : Int × Nat :=
  let per : Int := (subPer fmt : Nat)
  (e / per, (e % per).toNat)

/-- The packed place of element e of a row: byte, and position in the byte (R43, R44, R301). -/
def Shape.pos (h : Shape) (e : Int) : Int × Nat :=
  if h.str 0 ≠ 0 then (e * h.str 0, 0)
  else
    let e' := if h.scalei then e % 16 else e
    let b : Int := if h.scalei then e / 16 * (blockBytes h.fmt + 1) else 0
    if fmtSub h.fmt then let p := subPlace h.fmt e'; (b + p.1, p.2)
    else (b + e' * fmtBytes h.fmt, 0)

/-- The place of the scale byte of the block that holds element e (R44). -/
def Shape.spos (h : Shape) (e : Int) : Int := e / 16 * (blockBytes h.fmt + 1) + blockBytes h.fmt

/-- The base of a row of a box at absolute coordinates of dimensions 1 to 3 (R301). -/
def Shape.rowBase (h : Shape) (c1 c2 c3 : Int) : Int := h.base + c1 * h.str 1 + c2 * h.str 2 + c3 * h.str 3

/-- A scratchpad offset after its swizzle (R302). -/
def Shape.swizzle (h : Shape) (o : Nat) : Nat := if h.spad then o ^^^ (o / 128 % 2 ^ h.swz * 16) else o

/-- Packed bytes of a box row, scales included (R298, R44). -/
def Shape.rowBytes (h : Shape) (n : Nat) : Nat := packedSize h.fmt n + if h.scalei then cdiv n 16 else 0

/-- A SHAPE trap of a code (R304, R332, R365). -/
def shapeTrap (code : Nat) : Trap := ⟨.shape, .at, BitVec.ofNat 32 code, 0, false⟩

/-- Check 1 of R304: RECORD. -/
def Shape.badRecord (h : Shape) : Bool :=
  h.rsv || decide (16 < h.fmt) || decide (h.rank = 0 ∨ 4 < h.rank) || decide (3 < h.swz) || (h.swz != 0 && !h.spad) ||
    (List.range 4).any fun k => decide (h.rank ≤ k) && (getAt h.dim k != 0 || getAt h.stride k != 0 || getAt h.boxes k != 0)

/-- Check 2 of R304: LAYOUT. -/
def Shape.badLayout (h : Shape) (c0 : Int) (dest : Bool) : Bool :=
  (h.str 0 != 0 && (fmtSub h.fmt || h.str 0 % fmtBytes h.fmt != 0)) ||
    (h.scalei && (!narrowFmt h.fmt || h.str 0 != 0 || h.ext 0 % 16 != 0 || h.box 0 % 16 != 0 || c0 % 16 != 0)) ||
    (List.range h.rank).any (fun k => h.box k == 0) || (dest && decide (2 ^ 23 - 1 < h.rowBytes (h.box 0) * h.rows))

/-- Check 3 of R304: MISALIGN. -/
def Shape.badAlign (h : Shape) : Bool :=
  h.base % fmtBytes h.fmt != 0 || (List.range 4).any (fun k => h.str k % fmtBytes h.fmt != 0) ||
    (h.swz != 0 && (h.base % 1024 != 0 || [1, 2, 3].any fun k => h.str k % 128 != 0))

/-- The part of a dimension of a box that lies inside the extents (R304, R305). -/
def Shape.inside (h : Shape) (c : List Int) (k : Nat) : Int × Int :=
  (max (c.getD k 0) 0, min (c.getD k 0 + h.box k - 1) (h.ext k - 1))

/-- The byte after the last one that the unclipped part of a box addresses; none where all of it is clipped. -/
def Shape.last (h : Shape) (c : List Int) : Option Int :=
  let io := (List.range 4).map fun k => if k < h.rank then h.inside c k else (0, 0)
  if io.any fun p => decide (p.2 < p.1) then none
  else
    let hi := io.map Prod.snd
    let r := h.rowBase (hi.getD 1 0) (hi.getD 2 0) (hi.getD 3 0)
    let e := r + (h.pos (hi.getD 0 0)).1 + fmtBytes h.fmt
    some (if h.scalei then max e (r + h.spos (hi.getD 0 0) + 1) else e)

/-- A record with the boxes that an operation moves through it: the origin its instruction gives, the origins of the boxes, one per row
where rows are remapped (R338), whether it is the destination, and the bytes of the target scratchpad. -/
structure Boxed where
  h    : Shape
  c    : List Int
  at_  : List (List Int)
  dest : Bool
  size : Nat

/-- A record with one box at an origin. -/
def Shape.boxed (h : Shape) (c : List Int) (dest : Bool) (size : Nat) : Boxed := ⟨h, c, [c], dest, size⟩

/-- Check 4 of R304, EXTENT: with clip = 0 some box element lies outside the extents. -/
def Boxed.outside (b : Boxed) : Bool :=
  !b.h.clip && b.at_.any fun c => (List.range b.h.rank).any fun k => decide (c.getD k 0 < 0 ∨ (b.h.ext k : Int) < c.getD k 0 + b.h.box k)

/-- Check 4 of R304, ACCESS: a global element address at or above 2^54. -/
def Boxed.range (b : Boxed) : Option Trap :=
  if b.h.spad then none
  else b.at_.findSome? fun c => match b.h.last c with
    | some n => if 2 ^ 54 < n then some ⟨.range, .at, BitVec.ofNat 32 ((if b.dest then 5 else 4) * 256), BitVec.ofNat 64 (n - 1).toNat, false⟩
                else none
    | none => none

/-- Check 5 of R304, SCRATCH: some byte that a box addresses lies outside the target allocation. -/
def Boxed.beyond (b : Boxed) : Bool :=
  b.h.spad && b.at_.any fun c => match b.h.last c with
    | some n => decide ((b.size : Int) < n)
    | none => false

/-- The checks of R304 over all records that an instruction names, each check over every record before the next check: the fault, if one
fails (log 27). `bad`: what the instruction's entry adds under a code. -/
def recordChecks (bs : List Boxed) (bad : Nat → Bool) : Option Trap :=
  if bs.any (fun b => b.h.badRecord) || bad 1 then some (shapeTrap 1)
  else if bs.any (fun b => b.h.badLayout (b.c.getD 0 0) b.dest) || bad 2 then some (shapeTrap 2)
  else if bs.any (fun b => b.h.badAlign) || bad 3 then some (shapeTrap 3)
  else if bs.any Boxed.outside || bad 4 then some (shapeTrap 4)
  else match bs.findSome? Boxed.range with
    | some t => some t
    | none => if bs.any Boxed.beyond || bad 5 then some (shapeTrap 5) else none

/-- The checks of R304 on a record with a box at origin c. `size`: bytes of the target scratchpad. -/
def Shape.check (h : Shape) (c : List Int) (dest : Bool) (size : Nat) : Option Trap := recordChecks [h.boxed c dest size] fun _ => false

/-- The ropes of a coil by index (R327). -/
def State.coilRope (s : State) (r : Rope) (i : Nat) : Option Rope :=
  s.ropes.find? fun x => decide (x.ctx = r.ctx ∧ x.qent = r.qent ∧ x.stage = r.stage ∧ x.coil = r.coil ∧ x.ridx = i)

/-- The rope that a rope field names: itself where the field is not enabled (R327). -/
def State.ropeField (s : State) (r : Rope) (en : Bool) (i : BitVec 3) : Option Rope :=
  if en then (if i.toNat < r.nrope then s.coilRope r i.toNat else none) else some r

/-! ### Numbers and timelines (R243, R244) -/

/-- The timeline's next number is taken (R243). -/
def Rope.number (r : Rope) (tl : Nat) : Rope × Word :=
  let t := r.tls.getD tl ⟨0, 0, []⟩
  ({ r with tls := r.tls.set tl { t with issued := t.issued + 1 } }, t.issued + 1)

/-- The value advances over an unbroken run of completed numbers (R243). -/
def Tl.advance : Nat → Tl → Tl
  | 0, t => t
  | n + 1, t => if t.above.contains (t.value + 1) then
      Tl.advance n { t with value := t.value + 1, above := t.above.filter (· ≠ t.value + 1) } else t

/-- A number completes (R243). -/
def Tl.complete (t : Tl) (n : Word) : Tl := Tl.advance (t.above.length + 1) { t with above := t.above ++ [n] }

/-- The next n numbers would put the timeline 2^31 or more ahead of its value: what takes them stalls (R243). -/
def Tl.limit (t : Tl) (n : Nat) : Bool := n != 0 && decide (2 ^ 31 ≤ (t.issued - t.value).toNat + n)

/-- A wait for n is satisfied (R244). -/
def Tl.reached (t : Tl) (n : Word) : Bool := decide ((t.value - n).toNat < 2 ^ 31)

/-! ### Barrier words (R310, R311) -/

/-- A barrier word's fields. -/
structure BarWord where
  gen   : Nat
  err   : Bool
  bytes : Int
  due   : Nat
  quota : Nat
  deriving DecidableEq, Repr

/-- A barrier word from its 16 bytes. -/
def BarWord.ofBytes (b : List Byte) : BarWord :=
  let v := leNat b
  { gen := bits v 112 16, err := bit v 104, bytes := sx 24 (bits v 80 24), due := bits v 48 16, quota := bits v 16 16 }

/-- The 16 bytes of a barrier word; reserved bits are zero. -/
def BarWord.toBytes (w : BarWord) : List Byte :=
  leBytes 16 (w.gen % 65536 * 2 ^ 112 + (if w.err then 2 ^ 104 else 0) + wrap 24 w.bytes * 2 ^ 80 + w.due * 2 ^ 48 + w.quota * 2 ^ 16)

/-- The phase completes when nothing is due (R311). -/
def BarWord.close (w : BarWord) : BarWord :=
  if w.due = 0 ∧ w.bytes = 0 then { w with gen := (w.gen + 1) % 65536, due := w.quota } else w

/-- BYTES changed by an amount; outside the 24-bit range it keeps its low bits and ERR is set (R311). -/
def BarWord.add (w : BarWord) (n : Int) : BarWord :=
  let v := w.bytes + n
  ({ w with bytes := sx 24 (wrap 24 v), err := w.err || decide (v < -(2 ^ 23) ∨ 2 ^ 23 - 1 < v) } : BarWord).close

/-- An arrival (R311): beyond the quota it sets ERR and changes nothing else. -/
def BarWord.arrive (w : BarWord) : BarWord :=
  if w.due = 0 then { w with err := true } else ({ w with due := w.due - 1 } : BarWord).close

/-- A barrier word read at its place. -/
def State.barRead (s : State) (b : BarRef) : BarWord :=
  BarWord.ofBytes (((s.rope? b.rope).map fun r => r.spadRead b.off 16).getD [])

/-- A barrier word updated at the SRAM array (R311). -/
def State.barUpdate (s : State) (b : BarRef) (f : BarWord → BarWord) : State :=
  s.spadWrite b.rope b.off (f (s.barRead b)).toBytes

/-- The checks of R267 on a barrier word's offset: the allocation, then alignment (R332). -/
def barCheck (size off : Nat) : Option Trap :=
  if size < off + 16 then some ⟨.bound, .at, 0, 0, false⟩
  else if off % 16 ≠ 0 then some ⟨.align, .at, 4, 0, false⟩ else none

/-! ### Rings and records (R312 to R315) -/

/-- A completion record of an operation (R313). -/
def Op.record (o : Op) (status : Nat) (done : Nat) : List Byte :=
  leBytes 32 (o.num.toNat + status * 2 ^ 32 + o.fcode % 256 * 2 ^ 40 + o.tl * 2 ^ 53 + o.qent * 2 ^ 60 + o.rtag.toNat * 2 ^ 64 +
    o.shape * 2 ^ 96 + done % 2 ^ 24 * 2 ^ 120 + o.cseg * 2 ^ 144 + o.crow * 2 ^ 160 + o.fva * 2 ^ 192)

/-- What a record's writing ends in: written, with its WCT, no room, or an access that has to be repeated. -/
inductive RingRes where
  | ok (w : Nat)
  | full
  | retry
  deriving DecidableEq, Repr

/-- Both counts of a context's ring are written zero, once its page is there (R312). -/
def State.zeroRing (s : State) (ctx : Nat) : State :=
  match s.ctx? ctx with
  | none => s
  | some c =>
    if !c.ringNew then s
    else if c.ring = 0 then s.setCtx { c with ringNew := false }
    else
      match (s.as (.ctx ctx)).vStore 0 ctx c.ring (leBytes 4 0) .store false with
      | (t, .ok _) => match t.vStore 0 ctx (c.ring + 64) (leBytes 4 0) .store false with
        | (u, .ok _) => (match u.ctx? ctx with
          | some c => u.setCtx { c with ringNew := false }
          | none => u).as s.agent
        | (u, _) => (s.unspent u).as s.agent
      | (t, _) => (s.unspent t).as s.agent

/-- The context has a completion ring (R312). -/
def State.hasRing (s : State) (ctx : Nat) : Bool := ((s.ctx? ctx).map fun c => c.ring != 0).getD false

/-- The cluster whose memory path an operation's records take; the operations of saved coils have no core of their own (log 74). -/
def Op.cluster (o : Op) : Nat := if o.core < 2880 then clusterOf o.core else 0

/-- A record put into its context's ring: head read afresh, then the record (R312, R315). -/
def State.ringRecord (s : State) (o : Op) (status : Nat) : State × RingRes :=
  match s.ctx? o.ctx with
  | none => (s, .full)
  | some c =>
    if c.ringNew then (s, .full) else
    let again := fun (t : State) => ((s.unspent t, .retry) : State × RingRes)
    match s.vLoad o.cluster o.ctx c.ring 4 .engRead false with
    | (t, .ok tb) =>
      match t.vLoad o.cluster o.ctx (c.ring + 64) 4 .engRead false with
      | (t, .ok hb) =>
        if (leNat tb + 2 ^ 32 - leNat hb) % 2 ^ 32 = 2 ^ c.ringn then (t, .full)
        else
          match t.vStoreN o.cluster o.ctx (c.ring + 128 + 32 * (leNat tb % 2 ^ c.ringn)) (o.record status o.done) .engWrite false with
          | (t, .ok w) => (t, .ok w)
          | (t, _) => again t
      | (t, _) => again t
    | (t, _) => again t

/-- The ring's tail advances past the record that stands behind it (R312). None: not yet. -/
def State.ringTail (s : State) (o : Op) : State × Bool :=
  match s.ctx? o.ctx with
  | none => (s, true)
  | some c =>
    match s.vLoad o.cluster o.ctx c.ring 4 .engRead false with
    | (t, .ok tb) =>
      match t.vStore o.cluster o.ctx c.ring (leBytes 4 ((leNat tb + 1) % 2 ^ 32)) .engWrite false with
      | (t, .ok _) => (t, true)
      | (t, _) => (s.unspent t, false)
    | (t, _) => (s.unspent t, false)

/-- An operation with a record written whose ring's tail has yet to pass it. -/
def OpSt.isPosted : OpSt → Bool
  | .posted _ => true
  | _ => false

/-- Records of the operation are still to be written or to be passed by the tail: its engine takes no further operation (R315). -/
def OpSt.isHeld : OpSt → Bool
  | .held _ | .posted _ => true
  | _ => false

/-- The operation has ended, and only its records hold it. -/
def OpSt.ending : OpSt → Bool
  | .held l | .posted l => l.getLast? != some 1
  | _ => false

/-! ### Operations -/

/-- The operation is out of the way: its number completes and each strand's flag falls (R243, R324). -/
def State.retire (s : State) (o : Op) : State :=
  let s := { s with ops := eraseBy Op.id o.id s.ops }
  let s := match s.rope? o.rope with
    | some r => s.setRope { r with tls := r.tls.set o.tl ((r.tls.getD o.tl ⟨0, 0, []⟩).complete o.num) }
    | none => s
  o.owed.foldl (fun (s : State) q => s.dueDone (.strand o.rope q.1) (some q.2)) s

/-- The next record of an operation is tried: the ring has room for it once no other record waits for its tail (R312, R315). -/
def State.postRecord (s : State) (op : Nat) : State :=
  match s.op? op with
  | none => s
  | some o =>
    match o.st with
    | .held (n :: more) =>
      if s.ops.any fun x => decide (x.ctx = o.ctx) && x.st.isPosted then s
      else
        match (s.as (.op op)).ringRecord o n with
        | (t, .ok w) => (t.setOp { o with st := .posted (n :: more), vis := max o.vis w }).as s.agent
        | (t, _) => t.as s.agent
    | _ => s

/-- The operation ends with a status and a record, where one is wanted and the context has a ring (R312 to R315). -/
def State.endOp (s : State) (o : Op) (status done : Nat) (wanted : Bool) : State :=
  if wanted && s.hasRing o.ctx then (s.setOp { o with st := .held [status], done := done, fin := true }).postRecord o.id else s.retire o

/-- An operation enters the task table (R323). -/
def State.enterOp (s : State) (r : Rope) (tag : Word) (p : Pending) : State :=
  let (id, s) := s.fresh
  s.setOp { id := id, core := r.id.core, rope := r.id, ctx := r.ctx, qent := r.qent, rtag := BitVec.ofNat 32 r.bidx, tl := p.tl, num := p.num,
            word := p.word, tag := tag, kind := p.kind, st := .table, wrec := p.wrec, wait := p.wait, shape := p.shape,
            owed := p.owed, crow := 0, cseg := 0, done := 0, fva := 0, fcode := 0, vis := 0, fin := false, since := s.gtime, rtry := false }

/-- A tie's pending operation is dropped: its number counts as done and a record says CANCELLED (R181). -/
def State.cancelPending (s : State) (r : Rope) (p : Pending) : State :=
  let (id, s) := s.fresh
  let o : Op :=
    { id := id, core := r.id.core, rope := r.id, ctx := r.ctx, qent := r.qent, rtag := BitVec.ofNat 32 r.bidx, tl := p.tl, num := p.num,
      word := p.word, tag := p.num, kind := p.kind, st := .queued, wrec := p.wrec, wait := none, shape := p.shape, owed := p.owed,
      crow := 0, cseg := 0, done := 0, fva := 0, fcode := 0, vis := 0, fin := true, since := s.gtime, rtry := false }
  (s.setOp o).endOp o 3 0 true

/-- The operations of a core that have yet to be sent: the first 32 stand in its task table, the others wait for an entry (R323;
log 58). -/
def State.unsent (s : State) (core : Nat) : List Op := s.ops.filter fun o => decide (o.core = core ∧ o.st = .table ∧ o.tl ≤ 4)

/-- Free entries of a core's task table (R323). -/
def State.taskRoom (s : State) (core : Nat) : Nat := 32 - (s.unsent core).length

/-- The operation has an entry of its core's task table (R323). -/
def State.inTable (s : State) (o : Op) : Bool := ((s.unsent o.core).take 32).any fun x => decide (x.id = o.id)

/-- Operations that a strand's word has started still wait for an entry: the strand stalls (R323, R333; log 58). -/
def State.tableFull (s : State) (w : Who) : Bool :=
  match w with
  | .sup _ => false
  | .strand r sid => ((s.unsent r.core).drop 32).any fun o => decide (o.rope = r) && o.owed.any fun q => decide (q.1 = sid)

end Sys2Proof.Machine
end

