-- ==== Sys2Proof/Machine/Copy.lean ====
section
/-! DEFINITION. Moving boxes: what one row of a copy or of a tile move reads and writes, its segments, and one segment performed
(R301 to R308, R318, R319, R337 to R340, R348). -/

namespace Sys2Proof.Machine

/-- A space that engine bytes lie in. -/
inductive Space where
  | glob
  | spad (r : RopeId)
  | tile (t : Nat)
  | side (t : Nat)
  deriving DecidableEq, Repr

/-- One side of a row: a row of a box at absolute coordinates, or a row of a tile. -/
inductive Side where
  | box (h : Shape) (sp : Space) (c : List Int)
  | tile (t row fmt : Nat)
  deriving DecidableEq, Repr

/-- One element of a row on a side: its address before swizzling, its position in the byte, its place unless it is clipped. -/
structure Elem where
  addr  : Int
  pos   : Nat
  place : Option (Space × Nat)
  deriving DecidableEq, Repr

/-- The coordinates of dimensions 1 and above lie inside the extents (R305). -/
def Shape.rowIn (h : Shape) (c : List Int) : Bool :=
  [1, 2, 3].all fun k => decide (h.rank ≤ k ∨ (0 ≤ c.getD k 0 ∧ c.getD k 0 < h.ext k))

/-- Element e of a row lies inside the extents; in T3 and B1 its whole byte does (R305, R337). -/
def Shape.elemIn (h : Shape) (e : Int) : Bool :=
  decide (0 ≤ e) && decide ((if h.fmt = 14 ∨ h.fmt = 15 then e - (e % (subPer h.fmt : Nat)) else e) < h.ext 0)

/-- Element i of a row (R301, R305, R318). -/
def Side.elem (s : Side) (i : Int) : Elem :=
  match s with
  | .box h sp c =>
    let e := c.getD 0 0 + i
    let p := h.pos e
    let a := h.rowBase (c.getD 1 0) (c.getD 2 0) (c.getD 3 0) + p.1
    ⟨a, p.2, if h.rowIn c && h.elemIn e then some (sp, h.swizzle a.toNat) else none⟩
  | .tile t row fmt =>
    let p : Int × Nat := if fmtSub fmt then subPlace fmt i else (i * fmtBytes fmt, 0)
    ⟨row * 256 + p.1, p.2, some (.tile t, row * 256 + p.1.toNat)⟩

/-- Position i beside a row's own elements holds an element of the row's record, which a move must keep. -/
def Side.holds (s : Side) (i : Int) : Bool :=
  match s with
  | .box h _ c => decide (0 ≤ c.getD 0 0 + i ∧ c.getD 0 0 + i < h.ext 0)
  | .tile .. => false

/-- The scale byte of the block of element i; clipped where every element of the block is (R305, R319). -/
def Side.scale (s : Side) (i : Int) : Elem :=
  match s with
  | .box h sp c =>
    let e := c.getD 0 0 + i
    let a := h.rowBase (c.getD 1 0) (c.getD 2 0) (c.getD 3 0) + h.spos e
    ⟨a, 0, if h.rowIn c ∧ 0 ≤ e + 15 ∧ e < h.ext 0 then some (sp, h.swizzle a.toNat) else none⟩
  | .tile t row _ => ⟨row * 32 + i / 16, 0, some (.side t, row * 32 + i.toNat / 16)⟩

/-- One byte, or one element within a byte, that a row moves. `sub`: the format and the position in the destination's byte; `spos`: the
position in the source's byte. -/
structure Cellet where
  addr  : Int
  dst   : Option (Space × Nat)
  sub   : Option (Nat × Nat)
  src   : Option (Space × Nat)
  spos  : Nat
  fill  : Byte
  scale : Bool
  deriving DecidableEq, Repr

/-- The element at a position of a byte (R41 to R43). -/
def subGet (fmt pos : Nat) (b : Byte) : Nat :=
  match fmt with
  | 14 => tritOf b.toNat pos
  | 15 => b.toNat / 2 ^ pos % 2
  | _ => b.toNat / 16 ^ pos % 16

/-- A byte with one of its elements replaced; a reserved T3 byte counts as five zero trits (R41). -/
def subPut (fmt pos : Nat) (b : Byte) (v : Nat) : Byte :=
  let (n, m) : Nat × Nat := match fmt with
    | 14 => (5, 3)
    | 15 => (8, 2)
    | _ => (2, 16)
  BitVec.ofNat 8 (((List.range n).map fun k => (if k = pos then v % m else subGet fmt k b) * m ^ k).sum)

/-- The low bits of a fill pattern for byte k of an element, or for the byte that holds an element of fewer bits (R305, R337, R43). -/
def fillByte (fmt fill k : Nat) : Byte :=
  if fmt4 fmt then BitVec.ofNat 8 (fill % 16 * 17)
  else if fmt = 6 ∨ fmt = 7 then BitVec.ofNat 8 (fill % 64)
  else BitVec.ofNat 8 (fill / 2 ^ (8 * k))

/-- T3 and B1: the byte of element i moves whole, its source byte holding the same elements, where no neighbour in the destination's byte is
to be kept. None: it moves by elements. Else the first element of the byte in the row (R337; log 27). -/
def wholeByte (fmt n : Nat) (src : Option Side) (dst : Side) (i : Nat) : Option Nat :=
  if fmt ≠ 14 ∧ fmt ≠ 15 then none
  else
    let p := (dst.elem i).pos
    let first : Int := (i : Int) - (p : Int)
    if src.all (fun x => (x.elem i).pos == p) && (List.range (subPer fmt)).all (fun k =>
        let e : Int := first + (k : Int)
        decide (0 ≤ e ∧ e < (n : Int)) || !dst.holds e) then some (i - p) else none

/-- A row's bytes in element order: n elements of a format, a fill pattern, whether scale bytes move, the source (none: the fill)
and the destination (R305, R319, R337). -/
def rowCells (fmt n fill : Nat) (scales : Bool) (src : Option Side) (dst : Side) : List Cellet :=
  let nb := fmtBytes fmt
  (List.range n).flatMap fun (i : Nat) =>
    let d := dst.elem i
    let s := src.map fun x => x.elem i
    let whole := wholeByte fmt n src dst i
    let els : List Cellet := if whole.any (· ≠ i) then [] else (List.range nb).map fun (k : Nat) =>
      { addr := d.addr + (k : Int), dst := d.place.map fun p => (p.1, p.2 + k), sub := if fmtSub fmt && whole.isNone then some (fmt, d.pos) else none,
        src := (s.bind Elem.place).map fun p => (p.1, p.2 + k), spos := (s.map Elem.pos).getD 0, fill := fillByte fmt fill k, scale := false }
    if scales && (i + 1) % 16 == 0 then
      let b : Int := ((i / 16 * 16 : Nat) : Int)
      let d := dst.scale b
      els ++ [{ addr := d.addr, dst := d.place, sub := none, src := src.bind fun x => (x.scale b).place, spos := 0, fill := 0x78,
                scale := true }]
    else els

/-- The segment key of a place: its space and 128-byte block (R307). A side plane's byte has none: it goes with its block's elements
(R319, R348). -/
def segKey (p : Space × Nat) : Option (Space × Nat) :=
  match p.1 with
  | .side _ => none
  | _ => some (p.1, p.2 / 128)

/-- The segments of a row: bytes that are not written go with the segment before them, or with the first (R305, R307). -/
def segments : List Cellet → List (List Cellet)
  | l =>
    let put := fun (acc : List (Option (Space × Nat) × List Cellet)) (c : Cellet) =>
      match c.dst.bind segKey, acc with
      | none, [] => [(none, [c])]
      | none, (k, cs) :: more => (k, cs ++ [c]) :: more
      | some k, [] => [(some k, [c])]
      | some k, (none, cs) :: more => (some k, cs ++ [c]) :: more
      | some k, (some k', cs) :: more => if k = k' then (some k', cs ++ [c]) :: more else (some k, [c]) :: (some k', cs) :: more
    (l.foldl put []).reverse.map Prod.snd

/-- Bytes that a segment counts: distinct byte addresses, clipped ones included (R305, R311). -/
def segBytes (l : List Cellet) : Nat := ((l.map fun c => (c.addr, c.scale)).eraseDups).length

/-- Bytes read and written, without the clipped ones (R313). -/
def segDone (l : List Cellet) : Nat :=
  (((l.filter fun c => c.src.isSome && c.dst.isSome).map fun c => (c.addr, c.scale)).eraseDups).length

/-- Places grouped into runs of rising addresses that stay in a naturally aligned 16 bytes (R232, R307). -/
def runsOf : List (Space × Nat) → List (Space × Nat × Nat)
  | [] => []
  | (sp, a) :: l =>
    match runsOf l with
    | (sp', b, n) :: more => if sp' = sp ∧ b = a + 1 ∧ b % 16 ≠ 0 then (sp, a, n + 1) :: more else (sp, a, 1) :: (sp', b, n) :: more
    | [] => [(sp, a, 1)]

/-- Bytes of a tile. -/
def Rope.tileRead (r : Rope) (t o n : Nat) : List Byte := cellsRead (r.tiles.getD t []) o n
/-- Bytes of a side plane; the plane holds what differs from its own reset value, zero (R317). -/
def Rope.sideRead (r : Rope) (t o n : Nat) : List Byte := cellsRead (r.planes.getD t []) o n
/-- Bytes written to a tile. -/
def Rope.tileWrite (r : Rope) (t o : Nat) (b : List Byte) : Rope := { r with tiles := r.tiles.set t (cellsWrite (r.tiles.getD t []) o b) }
/-- Bytes written to a side plane. -/
def Rope.sideWrite (r : Rope) (t o : Nat) (b : List Byte) : Rope := { r with planes := r.planes.set t (cellsWrite (r.planes.getD t []) o b) }

/-- What a segment's accesses end in: bytes or a time, a fault with its code and address, or Retry. -/
inductive MRes (α : Type) where
  | ok (v : α)
  | bad (code va : Nat) (wr : Bool)
  | retry
  deriving DecidableEq, Repr

/-- Bytes of a run read by an engine of a rope (R242, R307). -/
def State.engRead (s : State) (r : RopeId) (ctx : Nat) (q : Space × Nat × Nat) : State × MRes (List Byte) :=
  match q.1 with
  | .glob => match s.vLoad (clusterOf r.core) ctx q.2.1 q.2.2 .engRead true with
    | (s, .ok b) => (s, .ok b)
    | (s, .bad c) => (s, .bad c q.2.1 false)
    | (s, .retry) => (s, .retry)
  | .spad o => (s, .ok (((s.rope? o).map fun x => x.spadRead q.2.1 q.2.2).getD []))
  | .tile t => (s, .ok (((s.rope? r).map fun x => x.tileRead t q.2.1 q.2.2).getD []))
  | .side t => (s, .ok (((s.rope? r).map fun x => x.sideRead t q.2.1 q.2.2).getD []))

/-- Bytes of a run written by an engine of a rope, with their WCT (R232, R307). -/
def State.engWrite (s : State) (r : RopeId) (ctx : Nat) (q : Space × Nat) (b : List Byte) : State × MRes Nat :=
  match q.1 with
  | .glob => match s.vStore (clusterOf r.core) ctx q.2 b .engWrite true with
    | (s, .ok w) => (s, .ok w)
    | (s, .bad c) => (s, .bad c q.2 true)
    | (s, .retry) => (s, .retry)
  | .spad o => (s.spadWrite o q.2 b, .ok 0)
  | .tile t => match s.rope? r with
    | some x => (s.setRope (x.tileWrite t q.2 b), .ok 0)
    | none => (s, .ok 0)
  | .side t => match s.rope? r with
    | some x => (s.setRope (x.sideWrite t q.2 b), .ok 0)
    | none => (s, .ok 0)

/-- Accesses that go through together or not at all: where one is answered Retry or faults, only what the first of those has done to find
that out is kept. -/
def State.together {α β γ : Type} (s : State) (f : State → β → State × MRes γ) (qs : List β) (r : State × MRes α) : State × MRes α :=
  match r.2 with
  | .ok _ => r
  | e => ((qs.findSome? fun q => match f s q with
      | (_, .ok _) => none
      | (t, _) => some t).getD s, e)

/-- Runs read in order: the bytes by place. -/
def State.engReads (s : State) (r : RopeId) (ctx : Nat) (qs : List (Space × Nat × Nat)) :
    State × MRes (List ((Space × Nat) × Byte)) :=
  s.together (fun (s : State) q => s.engRead r ctx q) qs
    (qs.foldl (fun (acc : State × MRes (List ((Space × Nat) × Byte))) q =>
      match acc.2 with
      | .ok l => match acc.1.engRead r ctx q with
        | (s, .ok b) => (s, .ok (l ++ b.zipIdx.map fun x => ((q.1, q.2.1 + x.2), x.1)))
        | (s, .bad c v w) => (s, .bad c v w)
        | (s, .retry) => (s, .retry)
      | _ => acc) (s, .ok []))

/-- The pages a segment writes are tested before any byte of it is written (R308). -/
def State.engProbe (s : State) (r : RopeId) (ctx : Nat) (qs : List (Space × Nat)) : State × MRes Unit :=
  qs.foldl (fun (acc : State × MRes Unit) q =>
    match acc.2, q.1 with
    | .ok _, .glob => match acc.1.translate (clusterOf r.core) ctx q.2 .engWrite true with
      | (s, .ok _) => (s, .ok ())
      | (s, .bad c) => (s, .bad c q.2 true)
      | (s, .retry) => (s, .retry)
    | _, _ => acc) (s, .ok ())

/-- A byte of a read list. -/
def readAt (l : List ((Space × Nat) × Byte)) (p : Space × Nat) : Byte := (lookupBy Prod.fst p l).elim 0 Prod.snd

/-- R303: a scale byte times the tensor-wide base, to UE5M3 under RNE with sat; a reserved one stays 0xFF. -/
def rescale (base : Nat) (b : Byte) : Byte :=
  if base = 0 then b
  else match unpackF .ue5m3 b.toNat with
    | .nan _ => 0xFF
    | v => BitVec.ofNat 8 (convF .ue5m3 .rne true 0 false (FVal.mul v (unpackF .f32 base)).1).1

/-- The source value of a cell: a byte, or an element of a byte. A fill takes the element that stands at the destination's position. -/
def Cellet.val (c : Cellet) (l : List ((Space × Nat) × Byte)) (sbase : Nat) : Byte :=
  match c.src, c.sub with
  | none, none => c.fill
  | none, some (fmt, pos) => BitVec.ofNat 8 (subGet fmt pos c.fill)
  | some p, none => if c.scale then rescale sbase (readAt l p) else readAt l p
  | some p, some (fmt, _) => BitVec.ofNat 8 (subGet fmt c.spos (readAt l p))

/-- A cell's value joined into the byte that stands at its destination. -/
def Cellet.join (c : Cellet) (old v : Byte) : Byte :=
  match c.sub with
  | none => v
  | some (fmt, pos) => subPut fmt pos old v.toNat

/-- The bytes that cells write, by place in order; a byte written in part keeps its other elements. -/
def newBytes (cs : List Cellet) (rd old : List ((Space × Nat) × Byte)) (sbase : Nat) : List ((Space × Nat) × Byte) :=
  cs.foldl (fun acc c =>
    match c.dst with
    | none => acc
    | some p =>
      let o := match lookupBy Prod.fst p acc with
        | some e => e.2
        | none => readAt old p
      upsert Prod.fst (p, c.join o (c.val rd sbase)) acc) []

/-- XRED's element width in bytes and operation (R339): no condition is raised, FPCTL is not read. -/
def xredOp (op : RedOp) (ty : XredType) (sat : Bool) (a b : Nat) : Nat :=
  let f := fun (F : FF) => match op with
    | .add => (addP F .rne false false (unpackF F a) (unpackF F b)).1
    | .min => (minmaxF F false a b).1
    | _ => (minmaxF F true a b).1
  let it : IType := if ty = .i32 then .i32 else .ui32
  match ty with
  | .f32 => f .f32
  | .f64 => f .f64
  | .f16 => f .f16
  | .bf16 => f .bf16
  | _ => match op with
    | .add => vIadd it sat a b
    | .min => vImin it a b
    | .max => vImax it a b
    | .and => a &&& b
    | .or => a ||| b
    | .xor => a ^^^ b

/-- Bytes of an XRED element. -/
def xredBytes : XredType → Nat
  | .f64 => 8
  | .f16 | .bf16 => 2
  | _ => 4

/-- Elements combined: old op source, in order (R339). -/
def xredAll (op : RedOp) (ty : XredType) (sat : Bool) : Nat → List Byte → List Byte → List Byte
  | 0, _, _ => []
  | n + 1, old, new =>
    let w := xredBytes ty
    if old = [] then [] else
      leBytes w (xredOp op ty sat (leNat (old.take w)) (leNat (new.take w))) ++ xredAll op ty sat n (old.drop w) (new.drop w)

/-- A run of an XRED's destination combined with its source bytes in one indivisible update: at the SRAM array, or at the line's home,
where a home beyond the device takes a compare and swap of the 16-byte chunk that starts over when another write comes between
(R233, R274, R339; log 75). -/
def State.engCombine (s : State) (r : RopeId) (ctx : Nat) (red : RedOp × XredType × Bool) (q : Space × Nat × Nat) (b : List Byte) :
    State × MRes Nat :=
  let new := fun (old : List Byte) => xredAll red.1 red.2.1 red.2.2 16 old b
  let near := fun (s : State) => match s.engRead r ctx q with
    | (s, .ok old) => s.engWrite r ctx (q.1, q.2.1) (new old)
    | (s, .bad c v w) => (s, .bad c v w)
    | (s, .retry) => (s, .retry)
  match q.1 with
  | .glob =>
    let cl := clusterOf r.core
    let a := q.2.1 / 16 * 16
    match s.translate cl ctx q.2.1 .engWrite true with
    | (s, .bad c) => (s, .bad c q.2.1 true)
    | (s, .retry) => (s, .retry)
    | (s, .ok x) =>
      if !x.far then near s
      else
        match s.vLoad cl ctx a 16 .engRead true with
        | (s, .bad c) => (s, .bad c a false)
        | (s, .retry) => (s, .retry)
        | (t, .ok old) =>
          let o := q.2.1 - a
          match t.vAtomic cl ctx a (.cas 16 old (old.take o ++ new ((old.drop o).take q.2.2) ++ old.drop (o + q.2.2))) .engWrite true with
          | (t, .bad c) => (t, .bad c a true)
          | (t, .retry) => (s.unspent t, .retry)
          | (t, .ok (was, w)) => if was = old then (t, .ok w) else (t, .retry)
  | _ => near s

/-- One segment of an operation performed: its source read, its destination written, all of it or nothing (R307, R308, R339).
The answer is the latest WCT of its global writes. -/
def State.segment (s : State) (r : RopeId) (ctx sbase : Nat) (red : Option (RedOp × XredType × Bool)) (cs : List Cellet) :
    State × MRes Nat :=
  let live := cs.filter fun c => c.dst.isSome
  let srcs := (live.filterMap Cellet.src).eraseDups
  let dsts := (live.filterMap Cellet.dst).eraseDups
  match s.engReads r ctx (runsOf srcs) with
  | (s, .bad c v w) => (s, .bad c v w)
  | (s, .retry) => (s, .retry)
  | (t, .ok rd) =>
    match t.engProbe r ctx dsts with
    | (t, .bad c v w) => (t, .bad c v w)
    | (t, .retry) => (s.unspent t, .retry)
    | (t, .ok _) =>
      match t.engReads r ctx (runsOf (((live.filter fun c => c.sub.isSome).filterMap Cellet.dst).eraseDups)) with
      | (t, .bad c v w) => (t, .bad c v w)
      | (t, .retry) => (s.unspent t, .retry)
      | (t, .ok old) =>
        let new := newBytes live rd old sbase
        let put := fun (s : State) (q : Space × Nat × Nat) =>
          let b := (List.range q.2.2).map fun i => readAt new (q.1, q.2.1 + i)
          match red with
          | some x => s.engCombine r ctx x q b
          | none => s.engWrite r ctx (q.1, q.2.1) b
        let qs := runsOf (new.map Prod.fst)
        match t.together put qs (qs.foldl (fun (acc : State × MRes Nat) q =>
            match acc.2 with
            | .ok m => match put acc.1 q with
              | (s, .ok w) => (s, .ok (max m w))
              | r => r
            | _ => acc) (t, .ok 0)) with
        | (u, .retry) => (s.giveBack t u, .retry)
        | r => r

/-- Coordinates of row r of a box at an origin (R301). -/
def Shape.rowAt (h : Shape) (c : List Int) (r : Nat) : List Int :=
  [c.getD 0 0, c.getD 1 0 + (r % h.box 1 : Nat), c.getD 2 0 + (r / h.box 1 % h.box 2 : Nat), c.getD 3 0 + (r / (h.box 1 * h.box 2) : Nat)]

/-- A remapped row's coordinates (R338). -/
def remapRow (c : List Int) (i : Int) : List Int := [c.getD 0 0, i, c.getD 2 0, c.getD 3 0]

/-- The space that a record's bytes lie in. -/
def Shape.space (h : Shape) (r : RopeId) : Space := if h.spad then .spad r else .glob

/-- Rows that a copy moves (R337, R338). -/
def CopyOp.nrows (c : CopyOp) : Nat :=
  match c.rows with
  | some l => l.length
  | none => c.dst.rows

/-- The cells of row r of a copy (R337, R338). -/
def CopyOp.row (c : CopyOp) (r : Nat) : List Cellet :=
  let idx := (c.rows.map fun l => l.getD r 0)
  let d := match idx, c.scat with
    | some i, true => remapRow c.cd i
    | _, _ => c.dst.rowAt c.cd r
  let s := c.src.map fun h => Side.box h (h.space c.srope) (match idx, c.scat with
    | some i, false => remapRow c.cs i
    | _, _ => h.rowAt c.cs r)
  let cells := rowCells c.dst.fmt (c.dst.box 0) ((c.src.getD c.dst).fill) c.dst.scalei s (.box c.dst (c.dst.space c.drope) d)
  match c.only with
  | none => cells
  | some ls => cells.filter fun x => match x.dst with
    | some p => ls.contains (p.2 / 128)
    | none => false

/-- Rows, cells, source scale base, reduction and credited barrier of an operation that moves bytes; none for any other. -/
structure Mover where
  n     : Nat
  row   : Nat → List Cellet
  sbase : Nat
  red   : Option (RedOp × XredType × Bool)
  cred  : Option BarRef

/-- What an operation moves (R337, R348). -/
def OpKind.mover : OpKind → Option Mover
  | .copy c => some ⟨c.nrows, c.row, (c.src.map Shape.sbase).getD 0, c.red, c.cred⟩
  | .tile (.tld d tc h r c) => some ⟨tc.rows,
      fun i => rowCells tc.fmt tc.cols h.fill h.scalei (some (.box h (h.space r) (h.rowAt c i))) (.tile d i tc.fmt), h.sbase, none, none⟩
  | .tile (.tst a tc h r c) => some ⟨tc.rows,
      fun i => rowCells tc.fmt tc.cols 0 h.scalei (some (.tile a i tc.fmt)) (.box h (h.space r) (h.rowAt c i)), 0, none, none⟩
  | _ => none

/-- Bytes that remain from an operation's cursor, as its barrier counts them (R308, R311). -/
def Mover.remains (m : Mover) (o : Op) : Nat :=
  let rest := ((List.range m.n).filter fun r => decide (o.crow < r)).map fun r => segBytes (m.row r)
  rest.sum + (((segments (m.row o.crow)).drop o.cseg).map segBytes).sum

/-- A destination barrier is credited (R311). -/
def State.credit (s : State) (b : Option BarRef) (n : Nat) (err : Bool) : State :=
  match b with
  | some b => s.barUpdate b fun w => let w := w.add (-(n : Int)); { w with err := w.err || err }
  | none => s

/-- Lines of the destination scratchpad that a read-only staging copy writes in full (R340). -/
def Mover.fullLines (m : Mover) : List Nat :=
  let ps := ((List.range m.n).flatMap fun r => (m.row r).filterMap fun c => match c.dst with
    | some (.spad _, a) => some a
    | _ => none).eraseDups
  ((ps.map (· / 128)).eraseDups).filter fun l => decide ((ps.filter fun a => a / 128 = l).length = 128)

/-- What a copy has still to move after the segment at its cursor. -/
def Mover.later (m : Mover) (o : Op) : List Cellet :=
  ((segments (m.row o.crow)).drop (o.cseg + 1)).flatten ++ ((List.range m.n).filter fun r => decide (o.crow < r)).flatMap m.row

/-- The marks of read-only staging that a segment of a copy puts: on the lines that the copy writes in full, once it has written the
last of their bytes (R340; log 27). -/
def State.stage (s : State) (o : Op) (m : Mover) (seg : List Cellet) : State :=
  match o.kind with
  | .copy c =>
    if c.ro then
      let lines := fun (l : List Cellet) => (l.filterMap fun x => x.dst.map fun p => p.2 / 128).eraseDups
      let rest := lines (m.later o)
      let ls := (lines seg).filter fun k => m.fullLines.contains k && !rest.contains k
      if ls = [] then s
      else match s.rope? c.drope with
        | some r => s.setRope { r with staged := ls.foldl (fun l k => upsert Prod.fst (k, o.id) l) r.staged, stagers := upsert Op.id o r.stagers }
        | none => s
    else s
  | _ => s

/-- An ENGPARK entry is written for a parked operation while the queue has room (R308, R362, R375). -/
def State.engEntry (s : State) (o : Op) : State :=
  let c := s.core o.core
  let e : Entry :=
    { seq := c.seq, ctx := o.ctx, rope := o.rope, sid := 0, fmask := 0, cls := .engpark, kind := .cursor,
      info := BitVec.ofNat 32 o.fcode, opnum := o.num, tl := o.tl, rtry := o.rtry, srl := false,
      fva := BitVec.ofNat 64 o.fva, rpc := 0, fpc := 0, hpc := 0, kpc := 0, lanes := [], popped := false, op := some o.id }
  s.setCore { c with rq := c.rq ++ [e], seq := c.seq + 1 }

end Sys2Proof.Machine
end

