-- ==== Sys2Proof/Machine/EngBuild.lean ====
section
/-! DEFINITION. The checks that an operation-starting instruction makes at issue, and the operation it fixes (R299, R304, R316,
R327 to R332, R337 to R339, R346 to R354). -/

namespace Sys2Proof.Machine

/-- What the checks of an instruction end in: a value, the trap of the first check that fails, or an access to be repeated. -/
inductive Bld (α : Type) where
  | ok (v : α)
  | trap (t : Trap)
  | again
  deriving DecidableEq, Repr

/-- Checks in sequence. -/
def andThen {α β : Type} (r : State × Bld α) (k : State → α → State × Bld β) : State × Bld β :=
  match r with
  | (s, .ok v) => k s v
  | (s, .trap t) => (s, .trap t)
  | (s, .again) => (s, .again)

/-- One check: its trap where the condition holds. -/
def failIf (s : State) (bad : Bool) (t : Trap) : State × Bld Unit := (s, if bad then .trap t else .ok ())

/-- A check that answers a trap or none. -/
def failOn (s : State) (t : Option Trap) : State × Bld Unit :=
  (s, match t with
    | some t => .trap t
    | none => .ok ())

/-- The shape record that an instruction names, read at its issue (R299). -/
def State.readShape (s : State) (r : Rope) (i : BitVec 8) : State × Bld Shape :=
  let a := r.shapes + 64 * i.toNat
  if 2 ^ 54 ≤ a + 63 then (s, .trap ⟨.range, .at, 0x400, BitVec.ofNat 64 a, false⟩)
  else
    match s.vLoadN (clusterOf r.id.core) r.ctx a 64 .engRead true with
    | (s, .ok b) => (s, .ok (shapeOf i.toNat b))
    | (s, .bad c) => (s, .trap ⟨.xlate, .at, xlateInfo c .engRead, BitVec.ofNat 64 a, false⟩)
    | (s, .retry) => (s, .again)

/-- The rope that an enabled rope field names; beyond the coil's ropes TILEALLOC (R332). -/
def State.needRope (s : State) (r : Rope) (en : Bool) (i : BitVec 3) : State × Bld Rope :=
  match s.ropeField r en i with
  | some x => (s, .ok x)
  | none => (s, .trap (shapeTrap 6))

/-- The five copies. -/
inductive CopyM where
  | cp | gath | scat | red | fill
  deriving DecidableEq, Repr

/-- The engine format that an XRED type needs (R339). -/
def xredFmt : XredType → Nat
  | .i32 | .ui32 => 16
  | .f32 => 1
  | .f64 => 0
  | .f16 => 3
  | .bf16 => 2

/-- A record with its box cut to one row: what a remapped row is checked against (R338). -/
def Shape.one (h : Shape) : Shape := { h with boxes := h.boxes.mapIdx fun k b => if k = 0 ∨ h.rank ≤ k then b else 1 }

/-- The list positions that an instruction reads, from the one its box coordinate names, and their indices: none where a byte of one lies
outside the allocation (R338). -/
def indexList (r : Rope) (h : Shape) (c1 : Int) (n : Nat) : List (Int × Option Int) :=
  (List.range n).map fun (k : Nat) =>
    let p : Int := c1 + (k : Int)
    let a := h.swizzle (h.base + (h.pos p).1).toNat
    (p, if p < 0 ∨ r.spadA < a + 4 then none else some (sx 32 (leNat (r.spadRead a 4))))

/-- What XGATH and XSCAT read their rows from, and what they remap (R338). -/
structure Remapped where
  ih   : Shape
  rm   : Shape
  dest : Bool
  n    : Nat
  list : List (Int × Option Int)

/-- The index shape's faults, by code: its own record, the conditions of R338, its alignment, its positions, its bytes. -/
def Remapped.bad (x : Remapped) (code : Nat) : Bool :=
  match code with
  | 1 => x.ih.badRecord
  | 2 => x.ih.badLayout 0 false || !x.ih.spad || x.ih.fmt != 16 || x.ih.rank != 1 || decide (x.rm.rank < 2) || decide (4096 < x.n) ||
    (x.dest && decide (2 ^ 23 - 1 < x.rm.rowBytes (x.rm.box 0) * x.n))
  | 3 => x.ih.badAlign
  | 4 => x.list.any fun q => decide (q.1 < 0 ∨ (x.ih.ext 0 : Int) ≤ q.1)
  | _ => x.list.any fun q => q.2.isNone

/-- R337: the conditions on a pair of records. -/
def pairBad (m : CopyM) (src dst : Shape) (ro : Bool) : Bool :=
  src.fmt != dst.fmt || src.scalei != dst.scalei || src.box 0 != dst.box 0 ||
    (m != .gath && m != .scat && src.rows != dst.rows) || (ro && (src.spad || !dst.spad))

/-- A copy's checks in the order of R332, and what it fixes (R304, R327, R337 to R339). -/
def State.buildCopy (s : State) (r : Rope) (f : Fibre) (m : CopyM) (cs cd b : Src) (u : CopyUp) : State × Bld OpKind :=
  let cs := f.quad cs
  let cd := f.quad cd
  andThen (s.needRope r u.bo u.brope) fun s br =>
  andThen (s.needRope r u.dw u.drope) fun s dr =>
  andThen (s.needRope r u.fo u.frope) fun s sr =>
  andThen (s.readShape r u.ds) fun s dst =>
  andThen (if m = .fill then (s, .ok none) else andThen (s.readShape r u.ss) fun s h => (s, .ok (some h))) fun s src =>
  andThen (failIf s (m == .red && (dst.fmt != xredFmt u.rty || (!u.rty.isInt && decide (u.rop = .and ∨ u.rop = .or ∨ u.rop = .xor))))
    (shapeTrap 7)) fun s _ =>
  andThen (match m with
    | .gath | .scat => andThen (s.readShape r u.is) fun s h => (s, .ok (some h))
    | _ => (s, .ok none)) fun s ih =>
  let scat := m == .scat
  let rm : Option Remapped := ih.map fun h =>
    let n := if scat then (src.getD dst).rows else dst.rows
    ⟨h, if scat then dst else src.getD dst, scat, n, indexList r h ((if scat then cd else cs).getD 1 0) (min n 4096)⟩
  let rows := rm.map fun x => x.list.filterMap Prod.snd
  let boxed := fun (h : Shape) (c : List Int) (dest : Bool) (size : Nat) => match rows, dest == scat with
    | some l, true => ({ h := h.one, c := c, at_ := l.map (remapRow c), dest := dest, size := size } : Boxed)
    | _, _ => h.boxed c dest size
  andThen (failOn s (recordChecks ((src.map fun h => boxed h cs false sr.spadA).toList ++ [boxed dst cd true dr.spadA]) fun code =>
    (rm.any fun x => x.bad code) || (code == 2 && (src.any fun h => pairBad m h dst u.ro)))) fun s _ =>
  let off := f.src .b32 b
  andThen (failOn s (if u.cred then barCheck br.spadA off else none)) fun s _ =>
  (s, .ok (.copy { src := src, dst := dst, srope := sr.id, drope := dr.id, cs := cs, cd := cd, scat := m == .scat, rows := rows,
                   red := if m = .red then some (u.rop, u.rty, u.sat) else none, ro := u.ro, only := none,
                   cred := if u.cred then some ⟨br.id, off⟩ else none }))

/-- A tile control as an operation captures it (R316, R317). -/
def tcOf (v : Word) : Tc :=
  let n := v.toNat
  { t3t := bit n 25, sc := bit n 23, cols := bits n 11 12 + 1, rows := bits n 5 6 + 1, fmt := bits n 0 5 }

/-- The controls of a tile of a rope. -/
def Rope.tc (r : Rope) (i : Num4) : Tc := tcOf (r.tcs.getD i.toNat 0)

/-- A named tile at or beyond the rope's tile count (R332). -/
def Rope.noTile (r : Rope) (l : List Num4) : Bool := l.any fun i => decide (r.ntiles ≤ i.toNat)

/-- An integer format of the matrix engine's pairings (R54). -/
def intPair (fmt : Nat) : Bool := decide (9 ≤ fmt ∧ fmt ≤ 15)

/-- The accumulator format of a pairing; none where R54 rejects it (R350). -/
def mmaAcc (a b : Nat) (acc16 : Bool) : Option Nat :=
  if a = 0 ∧ b = 0 then (if acc16 then none else some 0)
  else if a = 1 ∧ b = 1 then (if acc16 then none else some 1)
  else if (a = 2 ∧ b = 2) ∨ (a = 3 ∧ b = 3) ∨ (narrowFmt a ∧ narrowFmt b) then some (if acc16 then 3 else 1)
  else if intPair a ∧ intPair b then (if acc16 then none else some 16)
  else none

/-- The format of TRED's destination (R353). -/
def tredFmt (a : Nat) : Nat := if a = 0 then 0 else if (9 ≤ a ∧ a ≤ 13) ∨ a = 16 then 16 else 1

/-- The checks of TLD and TST on their tile and record (R348). -/
def tileBox (s : State) (tc : Tc) (h : Shape) (c : List Int) (dest : Bool) (size : Nat) : State × Bld Unit :=
  andThen (failIf s (h.fmt != tc.fmt || (h.scalei && !tc.sc)) (shapeTrap 7)) fun s _ =>
  andThen (failIf s (h.box 0 != tc.cols || h.rows != tc.rows) (shapeTrap 8)) fun s _ =>
  failOn s (h.check c dest size)

/-- A tile operation's checks in the order of R332, and what it fixes (R346 to R354). `seed`: State(L) of R51 for TCVT. -/
def State.buildTile (s : State) (r : Rope) (f : Fibre) (seed : DWord) (i : Instr) : State × Bld OpKind :=
  let two := fun (u : TileUp) => failIf s (r.noTile [u.td, u.ta]) (shapeTrap 6)
  match i with
  | .tld _ _ c _ u =>
    andThen (failIf s (r.noTile [u.td]) (shapeTrap 6)) fun s _ =>
    andThen (s.needRope r u.so u.srope) fun s sr =>
    andThen (s.readShape r u.shp) fun s h =>
    andThen (tileBox s (r.tc u.td) h (f.quad c) false sr.spadA) fun s _ =>
    (s, .ok (.tile (.tld u.td.toNat (r.tc u.td) h sr.id (f.quad c))))
  | .tst _ _ c _ u =>
    andThen (failIf s (r.noTile [u.ta]) (shapeTrap 6)) fun s _ =>
    andThen (s.needRope r u.so u.srope) fun s sr =>
    andThen (s.readShape r u.shp) fun s h =>
    andThen (tileBox s (r.tc u.ta) h (f.quad c) true sr.spadA) fun s _ =>
    (s, .ok (.tile (.tst u.ta.toNat (r.tc u.ta) h sr.id (f.quad c))))
  | .tzero _ _ _ u =>
    andThen (failIf s (r.noTile [u.td]) (shapeTrap 6)) fun s _ => (s, .ok (.tile (.tzero u.td.toNat (r.tc u.td))))
  | .mma _ na nb nacc sat acc16 _ _ u =>
    let d := r.tc u.td
    let a := r.tc u.ta
    let b := r.tc u.tb
    let q := r.tc u.tq
    andThen (failIf s (r.noTile [u.td, u.ta, u.tb, u.tq] || u.td == u.ta || u.td == u.tb) (shapeTrap 6)) fun s _ =>
    andThen (failIf s (match mmaAcc a.fmt b.fmt acc16 with
      | none => true
      | some x => d.fmt != x || q.fmt != x) (shapeTrap 7)) fun s _ =>
    andThen (failIf s (a.rows != q.rows || a.rows != d.rows || b.rows != q.cols || b.rows != d.cols || a.cols != b.cols) (shapeTrap 8)) fun s _ =>
    (s, .ok (.tile (.mma na nb nacc sat acc16 u.td.toNat u.ta.toNat u.tb.toNat u.tq.toNat d a b q)))
  | .tew _ op sat _ _ u =>
    let d := r.tc u.td
    let a := r.tc u.ta
    let b := r.tc u.tb
    andThen (failIf s (r.noTile [u.td, u.ta, u.tb]) (shapeTrap 6)) fun s _ =>
    andThen (failIf s (d.fmt != a.fmt || b.fmt != a.fmt || !(decide (a.fmt < 4) || a.fmt == 16)) (shapeTrap 7)) fun s _ =>
    andThen (failIf s (d.rows != a.rows || d.cols != a.cols || b.rows != a.rows || b.cols != a.cols) (shapeTrap 8)) fun s _ =>
    (s, .ok (.tile (.tew op sat u.td.toNat u.ta.toNat u.tb.toNat d a b)))
  | .tcvt _ sat rc _ _ u =>
    let d := r.tc u.td
    let a := r.tc u.ta
    andThen (two u) fun s _ =>
    andThen (failIf s (a.fmt == 14 || a.fmt == 15 || d.fmt == 14 || d.fmt == 15) (shapeTrap 7)) fun s _ =>
    andThen (failIf s (d.rows != a.rows || d.cols != a.cols) (shapeTrap 8)) fun s _ =>
    (s, .ok (.tile (.tcvt sat (f.rc rc) u.td.toNat u.ta.toNat d a seed false)))
  | .tred _ op _ _ u =>
    let d := r.tc u.td
    let a := r.tc u.ta
    andThen (two u) fun s _ =>
    andThen (failIf s (d.fmt != tredFmt a.fmt) (shapeTrap 7)) fun s _ =>
    andThen (failIf s (d.rows != a.rows || d.cols != 1) (shapeTrap 8)) fun s _ =>
    (s, .ok (.tile (.tred op u.td.toNat u.ta.toNat d a)))
  | .trow _ _ _ u =>
    let d := r.tc u.td
    let a := r.tc u.ta
    andThen (two u) fun s _ =>
    andThen (failIf s (d.fmt != a.fmt || d.cols != a.cols || d.sc != a.sc) (shapeTrap 7)) fun s _ =>
    andThen (failIf s (decide (a.rows < u.srow.toNat + u.cnt.toNat + 1) || decide (d.rows < u.drow.toNat + u.cnt.toNat + 1)) (shapeTrap 8)) fun s _ =>
    (s, .ok (.tile (.trow u.td.toNat u.ta.toNat d a u.drow.toNat u.srow.toNat (u.cnt.toNat + 1))))
  | _ => (s, .trap (illegal .opcode))

/-- Destination, tie, record bit and timeline of an operation-starting instruction. -/
structure Starter where
  d    : Option (BitVec 8)
  tie  : Option Num4
  wrec : Bool
  tl   : Nat
  deriving DecidableEq, Repr

/-- A copy's starter fields (R327). -/
def copyStarter (u : CopyUp) (d : Option (BitVec 8)) : Starter := ⟨d, if u.tie then some u.k else none, u.wrec, u.ch.toNat⟩

/-- A tile operation's starter fields (R328). -/
def tileStarter (u : TileUp) (d : Option (BitVec 8)) : Starter := ⟨d, if u.tie then some u.k else none, u.wrec, 4⟩

/-- The upper word and offset operand of a tile operation. -/
def tileUp? : Instr → Option (TileUp × Src × Option (BitVec 8))
  | .tld _ d _ w u | .tst _ d _ w u | .tzero _ d w u | .mma _ _ _ _ _ _ d w u | .tew _ _ _ d w u | .tcvt _ _ _ d w u | .tred _ _ d w u
  | .trow _ d w u => some (u, w, d)
  | _ => none

/-- The upper word and destination of a copy. -/
def copyUp? : Instr → Option (CopyUp × Option (BitVec 8))
  | .xcp _ d _ _ _ u | .xgath _ d _ _ _ u | .xscat _ d _ _ _ u | .xred _ d _ _ _ u | .xfill _ d _ _ u => some (u, d)
  | _ => none

/-- The starter fields of an instruction; none where it starts no operation. -/
def starter? (i : Instr) : Option Starter :=
  match copyUp? i, tileUp? i with
  | some (u, d), _ => some (copyStarter u d)
  | none, some (u, _, d) => some (tileStarter u d)
  | none, none => none

/-- The low and upper words of an instruction. -/
def wordOf (i : Instr) : BitVec 64 × BitVec 64 :=
  match encodeFields i with
  | some f => (f.toWord, f.up.bits)
  | none => (0, 0)

/-- A word without pg, pn, dst and ext[4]: what signers of one round have to share (R330). -/
def tieWord (w : BitVec 64 × BitVec 64) : BitVec 64 × BitVec 64 := (w.1 &&& 0x7FFFFFFFFC000FFF, w.2)

/-- The checks of R332 on one fibre's operands, and the operation they fix, its number still open. An access to be repeated leaves the answers
to the others as they were. -/
def State.build (s : State) (r : Rope) (f : Fibre) (seed : DWord) (i : Instr) : State × Bld Pending :=
  match go with
  | (t, .again) => (s.unspent t, .again)
  | x => x
where
  /-- The checks in their order. -/
  go : State × Bld Pending :=
    let mk := fun (k : OpKind) (t : Starter) (sh : Nat) (wait : Option (BarRef × Bool)) =>
      ({ kind := k, tl := t.tl, num := 0, wrec := t.wrec, wait := wait, word := wordOf i, shape := sh, owed := [] } : Pending)
    let copy := fun (m : CopyM) (d : Option (BitVec 8)) (cs cd b : Src) (u : CopyUp) =>
      andThen (s.buildCopy r f m cs cd b u) fun s k => (s, .ok (mk k (copyStarter u d) u.ss.toNat none))
    match i with
    | .xcp _ d cs cd b u => copy .cp d cs cd b u
    | .xgath _ d cs cd b u => copy .gath d cs cd b u
    | .xscat _ d cs cd b u => copy .scat d cs cd b u
    | .xred _ d cs cd b u => copy .red d cs cd b u
    | .xfill _ d cd b u => copy .fill d (.c 0) cd b u
    | i =>
      match tileUp? i with
      | none => (s, .trap (illegal .opcode))
      | some (u, w, d) =>
        andThen (s.needRope r u.bo u.brope) fun s br =>
        andThen (s.buildTile r f seed i) fun s k =>
        let off := f.src .b32 w
        andThen (failOn s (if u.wb then barCheck br.spadA off else none)) fun s _ =>
        (s, .ok (mk k (tileStarter u d) u.shp.toNat (if u.wb then some (⟨br.id, off⟩, u.wph) else none)))

end Sys2Proof.Machine
end

