-- ==== Sys2Proof/Machine/Tie.lean ====
section
/-! DEFINITION. Ties, and the instructions that start engine operations (R52, R157, R158, R323, R330 to R333, R337 to R354). -/

namespace Sys2Proof.Machine

/-- The stochastic state of a fibre by its FID (R51, R52). -/
def State.tcvtSeed (s : State) (r : RopeId) (fid : Nat) : DWord :=
  let w : Who := .strand r (fid / 32)
  BitVec.ofNat 64 (s.srState w (s.strand w).srseed (s.fibre w (fid % 32)).cnt)

/-- A TCVT with another stochastic state. -/
def OpKind.withSeed (k : OpKind) (x : DWord) : OpKind :=
  match k with
  | .tile (.tcvt sat rc d a td ta _ ftz) => .tile (.tcvt sat rc d a td ta x ftz)
  | k => k

/-- The lowest FID of a list. -/
def lowest (l : List Nat) (d : Nat) : Nat := (listMin l).getD d

/-- A tie of a rope replaced. -/
def State.setTie (s : State) (r : RopeId) (k : Nat) (t : Tie) : State :=
  match s.rope? r with
  | some rp => s.setRope { rp with ties := rp.ties.set k t }
  | none => s

/-- A tie of a rope. -/
def State.tie (s : State) (r : RopeId) (k : Nat) : Tie := ((s.rope? r).bind fun rp => rp.ties[k]?).getD Tie.init

/-- What a signature comes to: the round's number (0 without an operation) with the flag decrements its strand now owes, a second
signature, a trap, or an access to be repeated. -/
inductive SignRes where
  | signed (n : Word) (due : Nat)
  | second
  | trap (t : Trap)
  | again
  deriving DecidableEq, Repr

/-- The round's operation takes a signer of a strand: the strand's first raises its flag (R331). -/
def Pending.owe (p : Pending) (sid tag : Nat) : Pending × Nat :=
  if p.owed.any fun q => q.1 = sid then (p, 0) else ({ p with owed := p.owed ++ [(sid, tag)] }, 1)

/-- A fibre signs a tie, by TIESGN (no instruction) or by an engine instruction (R157, R158, R330). -/
def State.tieSign (s : State) (r : RopeId) (k fid : Nat) (ins : Option Instr) (f : Fibre) (tag : Nat) : State × SignRes :=
  let t := s.tie r k
  let low := lowest t.expected fid
  -- its stochastic state as it signs, for a TCVT that the round may issue (R52, log 28)
  let seeds := upsert Prod.fst (fid, s.tcvtSeed r fid) t.seeds
  if !t.expected.contains fid then (s, .trap (illegal .operand))
  else if t.signed.contains fid then (s, .second)
  else
    match ins with
    | none => (s.setTie r k { t with signed := t.signed ++ [fid], seeds := seeds }, .signed 0 0)
    | some i =>
      match t.pending with
      | some p =>
        if tieWord p.word = tieWord (wordOf i) then
          let (p, due) := p.owe (fid / 32) tag
          (s.setTie r k { t with signed := t.signed ++ [fid], seeds := seeds, pending := some p }, .signed p.num due)
        else (s, .trap (illegal .operand))
      | none =>
        match s.rope? r with
        | none => (s, .trap (illegal .operand))
        | some rp =>
          match s.build rp f (s.tcvtSeed r low) i with
          | (s, .again) => (s, .again)
          | (s, .trap e) => (s, .trap e)
          | (s, .ok p) =>
            match s.rope? r with
            | none => (s, .trap (illegal .operand))
            | some rp =>
              let (rp, n) := rp.number p.tl
              let p := { p with num := n, owed := [(fid / 32, tag)] }
              ((s.setRope rp).setTie r k { t with signed := t.signed ++ [fid], seeds := seeds, pending := some p }, .signed n 1)

/-- What an operation-starting instruction leaves in its fibre: its number, and the count of a stochastic TCVT (R52, R331). -/
def Fibre.started (f : Fibre) (i : Instr) (n : Word) : Fibre :=
  let f := match (starter? i).bind Starter.d with
    | some d => f.setReg d.toNat n.toNat
    | none => f
  match i with
  | .tcvt _ _ rc _ _ _ => f.drew rc
  | _ => f

/-- The wait for a tie's round. -/
def Wait.isTie (k : Nat) : Wait → Bool
  | .tie j => j == k
  | _ => false

/-- A second signature signs the round that now runs, with its operands as they were, also where a signal has stopped the fibre
meanwhile (R158, R181, R330, R427). `again` leaves it held, and so does a trap until the fibre is there to take it. -/
def State.resign (s : State) (r : RopeId) (k : Nat) (q : Second) : State × Bool :=
  let w : Who := .strand r (q.fid / 32)
  let l := q.fid % 32
  let (tag, s) := s.fresh
  let hold := fun (s : State) => let t := s.tie r k; s.setTie r k { t with second := t.second ++ [q] }
  match s.tieSign r k q.fid q.ins q.fib tag with
  | (s, .signed n due) =>
    let f := s.fibre w l
    let f := f.release (Wait.isTie k) none ((q.ins.bind starter?).bind fun i => i.d.map fun d => (d.toNat, n))
    let f := match q.ins with
      | some (.tcvt _ _ rc _ _ _) => f.drew rc
      | _ => f
    let s := s.setFibre w l f
    (s.setStrand w ((s.strand w).raiseDue q.flag tag due), true)
  | (s, .trap t) =>
    let f := s.fibre w l
    if f.st = .live ∧ f.wait.any (Wait.isTie k) then ((s.setFibre w l { f with wait := none }).park w [l] t q.ip q.ip q.hpc, false)
    else (hold s, false)
  | (s, .second) | (s, .again) => (hold s, false)

/-- Every expected fibre has signed. -/
def Tie.full (t : Tie) : Bool := t.expected.all t.signed.contains

/-- A round completes: its operation issues, the signed set is cleared, and the second signatures sign the next round (R157,
R158). -/
def State.tieComplete : Nat → RopeId → Nat → State → State
  | 0, _, _, s => s
  | n + 1, r, k, s =>
    let t := s.tie r k
    let s := s.setTie r k { t with signed := [], seeds := [], pending := none, second := [] }
    let s := match t.pending, s.rope? r with
      -- a TCVT draws by the state of the lowest fibre that is expected now (R52, R149)
      | some p, some rp => s.enterOp rp p.num (match lookupBy Prod.fst (lowest t.expected (2 ^ 20)) t.seeds with
        | some q => { p with kind := p.kind.withSeed q.2 }
        | none => p)
      | _, _ => s
    t.second.foldl (fun (s : State) q =>
      match s.resign r k q with
      | (s, true) => if (s.tie r k).full then State.tieComplete n r k s else s
      | (s, false) => s) s

/-- A round completes where every expected fibre has signed. -/
def State.tieCheck (s : State) (r : RopeId) (k : Nat) : State := if (s.tie r k).full then State.tieComplete 3 r k s else s

/-- Second signatures whose accesses had to be repeated are tried again, and those that trap once their fibre is there. -/
def State.tieRetry (s : State) (r : RopeId) (k : Nat) : State :=
  let t := s.tie r k
  let ready := fun (q : Second) => if t.expected.contains q.fid then !t.signed.contains q.fid else
    let f := s.fibre (.strand r (q.fid / 32)) (q.fid % 32)
    decide (f.st = .live) && f.wait.any (Wait.isTie k)
  let todo := t.second.filter ready
  if todo = [] then s
  else
    let s := s.setTie r k { t with second := t.second.filter fun q => !ready q }
    todo.foldl (fun (s : State) q =>
      match s.resign r k q with
      | (s, true) => s.tieCheck r k
      | (s, false) => s) s

/-- A fibre is blocked on its second signature of a tie (R158). -/
def State.holdSecond (s : State) (r : RopeId) (k fid : Nat) (ins : Option Instr) (c : Cx) (flag : Option (BitVec 4)) (fb : Fibre) : State :=
  let t := s.tie r k
  s.setTie r k { t with second := t.second ++ [⟨fid, ins, c.ip, c.next, c.cl.hpc, flag, fb⟩] }

/-- One lane of an operation-starting instruction (R330 to R332). -/
def startLane (i : Iss) (ins : Instr) (c : Cx) (tag : Nat) (s : State) (l : Nat) (fb : Fibre) : Except State LaneFx :=
  match c.who, starter? ins with
  | .strand r sid, some st =>
    let fid := sid * 32 + l
    match st.tie with
    | none =>
      match s.rope? r with
      | none => .ok ⟨s, .fault fb (illegal .operand), 0⟩
      | some rp =>
        match s.build rp fb (s.tcvtSeed r fid) ins with
        | (s, .again) => .error s
        | (s, .trap t) => .ok ⟨s, .fault fb t, 0⟩
        | (s, .ok p) =>
          match s.rope? r with
          | none => .ok ⟨s, .fault fb (illegal .operand), 0⟩
          | some rp =>
            let (rp, n) := rp.number p.tl
            let lead := ((s.ops.find? fun o => decide (o.rope = r ∧ o.owed = [(sid, tag)])).map Op.tag).getD n
            let s := (s.setRope rp).enterOp rp lead { p with num := n, owed := [(sid, tag)] }
            .ok ⟨s, .ok (fb.started ins n), 1⟩
    | some k =>
      match s.tieSign r k.toNat fid (some ins) fb tag with
      | (s, .again) => .error s
      | (s, .trap t) => .ok ⟨s, .fault fb t, 0⟩
      | (s, .second) => .ok ⟨s.holdSecond r k.toNat fid (some ins) c (c.flag i) fb, .ok { fb with wait := some (.tie k.toNat) }, 0⟩
      | (s, .signed n due) => .ok ⟨s.tieCheck r k.toNat, .ok (fb.started ins n), due⟩
  | _, _ => .ok ⟨s, .fault fb (illegal .operand), 0⟩

/-- The word would complete a tie's round. -/
def State.roundEnds (s : State) (r : RopeId) (sid k : Nat) (lanes : List Nat) : Bool :=
  let t := s.tie r k
  t.expected.all fun f => t.signed.contains f || (decide (f / 32 = sid) && lanes.contains (f % 32))

/-- The task table has no free entry for what an issue starts, or its timeline stands at the limit of R243: the word stalls. Where the
table has room for some of its operations only, the strand stalls after it until the others have an entry (R323, R333; log 58). -/
def State.startStalls (s : State) (c : Cx) (i : Iss) (st : Starter) : Bool :=
  match c.who with
  | .sup _ => false
  | .strand r _ =>
    let n := (c.set i).length
    let t := ((s.rope? r).bind fun rp => rp.tls[st.tl]?).getD ⟨0, 0, []⟩
    let enters := match st.tie with
      | none => decide (n ≠ 0)
      | some k => s.roundEnds r (c.who.lane 0).sid k.toNat (c.set i)
    let numbers := match st.tie with
      | none => n
      | some k => if (s.tie r k.toNat).pending.isSome then 0 else min n 1
    enters && decide (s.taskRoom r.core = 0) || t.limit numbers

/-- An operation-starting instruction (R330 to R333). -/
def startOp (i : Iss) (ins : Instr) (s : State) : Host.Outcome State Fault Refusal :=
  match s.cx? i.len, starter? ins with
  | some c, some st => if s.startStalls c i st then .next s else issueTry i (startLane i ins) s
  | _, _ => s.noEvent

/-- What an engine word needs to issue: 128 bits, committing, set1 where the clause has one (R18, R333); not in the supervisor strand (R508). -/
def engIss (g : Guard) (uses : List Nat) : Iss := { len := 16, g := g, uses := uses, commit := true, flag := some true, rope := true, access := true }

/-- The window registers of a copy (R326). -/
def copyUses (d : Option (BitVec 8)) (quads : List Src) (b : Src) (u : CopyUp) : List Nat :=
  useW 1 d ++ quads.flatMap (useS 4) ++ if u.cred then useS 1 b else []

/-- The window registers of a tile operation. -/
def tileUses (d : Option (BitVec 8)) (quads : List Src) (w : Src) (u : TileUp) : List Nat :=
  useW 1 d ++ quads.flatMap (useS 4) ++ if u.wb then useS 1 w else []

/-- XCP (R337, R340). -/
def execXcp (g : Guard) (d : Option (BitVec 8)) (cs cd b : Src) (u : CopyUp) (s : State) : Host.Outcome State Fault Refusal :=
  startOp (engIss g (copyUses d [cs, cd] b u)) (.xcp g d cs cd b u) s
/-- XGATH (R338). -/
def execXgath (g : Guard) (d : Option (BitVec 8)) (cs cd b : Src) (u : CopyUp) (s : State) : Host.Outcome State Fault Refusal :=
  startOp (engIss g (copyUses d [cs, cd] b u)) (.xgath g d cs cd b u) s
/-- XSCAT (R338). -/
def execXscat (g : Guard) (d : Option (BitVec 8)) (cs cd b : Src) (u : CopyUp) (s : State) : Host.Outcome State Fault Refusal :=
  startOp (engIss g (copyUses d [cs, cd] b u)) (.xscat g d cs cd b u) s
/-- XRED (R339). -/
def execXred (g : Guard) (d : Option (BitVec 8)) (cs cd b : Src) (u : CopyUp) (s : State) : Host.Outcome State Fault Refusal :=
  startOp (engIss g (copyUses d [cs, cd] b u)) (.xred g d cs cd b u) s
/-- XFILL (R337). -/
def execXfill (g : Guard) (d : Option (BitVec 8)) (cd b : Src) (u : CopyUp) (s : State) : Host.Outcome State Fault Refusal :=
  startOp (engIss g (copyUses d [cd] b u)) (.xfill g d cd b u) s
/-- TLD (R348). -/
def execTld (g : Guard) (d : Option (BitVec 8)) (c w : Src) (u : TileUp) (s : State) : Host.Outcome State Fault Refusal :=
  startOp (engIss g (tileUses d [c] w u)) (.tld g d c w u) s
/-- TST (R348). -/
def execTst (g : Guard) (d : Option (BitVec 8)) (c w : Src) (u : TileUp) (s : State) : Host.Outcome State Fault Refusal :=
  startOp (engIss g (tileUses d [c] w u)) (.tst g d c w u) s
/-- TZERO (R349). -/
def execTzero (g : Guard) (d : Option (BitVec 8)) (w : Src) (u : TileUp) (s : State) : Host.Outcome State Fault Refusal :=
  startOp (engIss g (tileUses d [] w u)) (.tzero g d w u) s
/-- MMA (R350). -/
def execMma (g : Guard) (na nb nacc sat acc16 : Bool) (d : Option (BitVec 8)) (w : Src) (u : TileUp) (s : State) :
    Host.Outcome State Fault Refusal :=
  startOp (engIss g (tileUses d [] w u)) (.mma g na nb nacc sat acc16 d w u) s
/-- TEW (R351). -/
def execTew (g : Guard) (op : TewOp) (sat : Bool) (d : Option (BitVec 8)) (w : Src) (u : TileUp) (s : State) :
    Host.Outcome State Fault Refusal :=
  startOp (engIss g (tileUses d [] w u)) (.tew g op sat d w u) s
/-- TCVT (R352). -/
def execTcvt (g : Guard) (sat : Bool) (rc : Rc) (d : Option (BitVec 8)) (w : Src) (u : TileUp) (s : State) :
    Host.Outcome State Fault Refusal :=
  startOp (engIss g (tileUses d [] w u)) (.tcvt g sat rc d w u) s
/-- TRED (R353). -/
def execTred (g : Guard) (op : TredOp) (d : Option (BitVec 8)) (w : Src) (u : TileUp) (s : State) : Host.Outcome State Fault Refusal :=
  startOp (engIss g (tileUses d [] w u)) (.tred g op d w u) s
/-- TROW (R354). -/
def execTrow (g : Guard) (d : Option (BitVec 8)) (w : Src) (u : TileUp) (s : State) : Host.Outcome State Fault Refusal :=
  startOp (engIss g (tileUses d [] w u)) (.trow g d w u) s

end Sys2Proof.Machine
end

