-- ==== Sys2Proof/Machine/Tile.lean ====
section
/-! DEFINITION. What the matrix engine computes: tile elements, one MMA step, and the operations that it performs at once
(R40 to R43, R54 to R57, R318 to R322, R349 to R354). -/

namespace Sys2Proof.Machine

/-- The floating format of an engine format code (R298). -/
def fmtFF (fmt : Nat) : Option FF :=
  match fmt with
  | 0 => some .f64 | 1 => some .f32 | 2 => some .bf16 | 3 => some .f16 | 4 => some .e4m3 | 5 => some .e5m2 | 6 => some .e3m2
  | 7 => some .e2m3 | 8 => some .e2m1 | _ => none

/-- The conversion format of an engine format code that TCVT accepts (R352). -/
def fmtC (fmt : Nat) : CFmt :=
  match fmt with
  | 0 => .f64 | 1 => .f32 | 2 => .bf16 | 3 => .f16 | 4 => .e4m3 | 5 => .e5m2 | 6 => .e3m2 | 7 => .e2m3 | 8 => .e2m1
  | 9 => .i16 | 10 => .i8 | 11 => .ui8 | 12 => .i4 | 13 => .ui4 | _ => .i32

/-- The bit pattern of an element of a tile: for T3 the trit's code, for B1 the bit (R41 to R43, R318). -/
def Rope.tileElem (r : Rope) (t fmt row col : Nat) : Nat :=
  let b := fun (o : Nat) => (cellRead (r.tiles.getD t []) (row * 256 + o)).toNat
  if fmt4 fmt then b (col / 2) / 16 ^ (col % 2) % 16
  else if fmt = 14 then tritOf (b (col / 5)) (col % 5)
  else if fmt = 15 then b (col / 8) / 2 ^ (col % 8) % 2
  else leNat (r.tileRead t (row * 256 + col * fmtBytes fmt) (fmtBytes fmt))

/-- An element of a tile written. -/
def Rope.putElem (r : Rope) (t fmt row col v : Nat) : Rope :=
  if fmt4 fmt then
    let o := row * 256 + col / 2
    let old := (cellRead (r.tiles.getD t []) o).toNat
    let new := if col % 2 = 0 then old / 16 * 16 + v % 16 else v % 16 * 16 + old % 16
    r.tileWrite t o [BitVec.ofNat 8 new]
  else if fmt = 6 ∨ fmt = 7 then r.tileWrite t (row * 256 + col) [BitVec.ofNat 8 (v % 64)]
  else r.tileWrite t (row * 256 + col * fmtBytes fmt) (leBytes (fmtBytes fmt) v)

/-- The integer value of an element of an integer, T3 or B1 format. -/
def fmtInt (fmt p : Nat) : Int :=
  match fmt with
  | 9 => sx 16 p
  | 10 => sx 8 p
  | 12 => sx 4 p
  | 11 | 13 => (p : Int)
  | 14 => if p = 1 then 1 else if p = 2 then -1 else 0
  | 15 => if p = 0 then 1 else -1
  | _ => sx 32 p

/-- The exact value of an element's pattern. -/
def fmtVal (fmt p : Nat) : FVal :=
  match fmtFF fmt with
  | some F => unpackF F (if fmt = 6 ∨ fmt = 7 then p % 64 else p)
  | none => .ofInt (fmtInt fmt p)

/-- Scale byte of block b of a row (R40, R318). -/
def Rope.scale (r : Rope) (t row b : Nat) : FVal := unpackF .ue5m3 (cellRead (r.planes.getD t []) (row * 32 + b)).toNat

/-- An element's value with its block's scale (R40). -/
def Rope.tileVal (r : Rope) (t : Nat) (tc : Tc) (row col : Nat) : FVal :=
  let v := fmtVal tc.fmt (r.tileElem t tc.fmt row col)
  if tc.sc then (FVal.mul v (r.scale t row (col / 16))).1 else v

/-- acc := RoundToFormat(acc + RoundToFormat(s)) (R55, R56). -/
def accStep (F : FF) (sat : Bool) (acc : Nat) (s : FVal) : Nat :=
  let c := (deliverF F .rne sat 0 false s).1
  (deliverF F .rne sat 0 false (FVal.add false (unpackF F acc) (unpackF F c)).1).1

/-- An exact sum from +0. -/
def exactSum (l : List FVal) : FVal := (sumFrom (.fin false 0 0) l).1

/-- The columns of chunk c of a row of k elements. -/
def chunkCols (k c : Nat) : List Nat := (List.range 16).filterMap fun x => if 16 * c + x < k then some (16 * c + x) else none

/-- Output element (i, j) after chunk c (R55 to R57). -/
def Rope.mmaElem (r : Rope) (na nb sat : Bool) (ta tb : Nat) (a b : Tc) (accF : Nat) (c i j acc : Nat) : Nat :=
  let ks := chunkCols a.cols c
  let s1 := fun (n : Bool) (v : FVal) => if n then v.negate else v
  match fmtFF accF with
  | some F =>
    let s := exactSum (ks.map fun k => (FVal.mul (s1 na (fmtVal a.fmt (r.tileElem ta a.fmt i k))) (s1 nb (fmtVal b.fmt (r.tileElem tb b.fmt j k)))).1)
    let s := if a.sc then (FVal.mul s (r.scale ta i c)).1 else s
    let s := if b.sc then (FVal.mul s (r.scale tb j c)).1 else s
    accStep F sat acc s
  | none =>
    let sg : Int := if na != nb then -1 else 1
    let s : Int := (ks.map fun k => fmtInt a.fmt (r.tileElem ta a.fmt i k) * fmtInt b.fmt (r.tileElem tb b.fmt j k)).foldl (· + ·) 0
    let v := sx 32 acc + sg * s
    wrap 32 (if sat then clampI (-(2 ^ 31)) (2 ^ 31 - 1) v else v)

/-- The numbers of a block of 16 below n. -/
def blockIdx (n b : Nat) : List Nat := chunkCols n b

/-- Steps of an MMA: chunks times output blocks (R321). -/
def mmaSteps (a b : Tc) : Nat := cdiv a.cols 16 * (cdiv a.rows 16 * cdiv b.rows 16)

/-- Reserved T3 bytes of a tile in some rows and a range of columns, by offset (R320). -/
def Rope.t3bad (r : Rope) (t : Nat) (tc : Tc) (rows : List Nat) (lo hi : Nat) : List Nat :=
  if tc.fmt ≠ 14 ∨ hi ≤ lo then []
  else rows.flatMap fun i => ((List.range ((hi - 1) / 5 + 1)).filter (lo / 5 ≤ ·)).filterMap fun j =>
    if 242 < (cellRead (r.tiles.getD t []) (i * 256 + j)).toNat then some (i * 256 + j) else none

/-- Distinct reserved T3 bytes in the parts of A and B that an MMA reads (R320). -/
def Rope.t3count (r : Rope) (ta tb : Nat) (a b : Tc) : Nat :=
  let l := (r.t3bad ta a (List.range a.rows) 0 a.cols).map fun o => (ta, o)
  let m := (r.t3bad tb b (List.range b.rows) 0 b.cols).map fun o => (tb, o)
  (l ++ m).eraseDups.length

/-- Step s of an MMA stops before it: its chunk holds a reserved byte of an operand that traps (R320). -/
def Rope.mmaStops (r : Rope) (ta tb : Nat) (a b : Tc) (step : Nat) : Bool :=
  let nb := cdiv b.rows 16
  let blocks := cdiv a.rows 16 * nb
  let c := step / blocks
  let blk := step % blocks
  let hi := min (16 * c + 16) a.cols
  (a.t3t && r.t3bad ta a (blockIdx a.rows (blk / nb)) (16 * c) hi != []) ||
    (b.t3t && r.t3bad tb b (blockIdx b.rows (blk % nb)) (16 * c) hi != [])

/-- Step s of an MMA performed: one chunk added into one block of 16 × 16 outputs (R321). -/
def Rope.mmaStep (r : Rope) (na nb nacc sat : Bool) (d ta tb q : Nat) (td a b tq : Tc) (step : Nat) : Rope :=
  let cb := cdiv b.rows 16
  let blocks := cdiv a.rows 16 * cb
  let c := step / blocks
  let blk := step % blocks
  (blockIdx a.rows (blk / cb)).foldl (fun (x : Rope) i =>
    (blockIdx b.rows (blk % cb)).foldl (fun (x : Rope) j =>
      let acc := if c = 0 then (if nacc then 0 else x.tileElem q tq.fmt i j) else x.tileElem d td.fmt i j
      x.putElem d td.fmt i j (x.mmaElem na nb sat ta tb a b td.fmt c i j acc)) x) r

/-- One element of TEW (R351). -/
def tewElem (op : TewOp) (sat : Bool) (fmt a b : Nat) : Nat :=
  match op with
  | .mov => a
  | _ =>
    match fmtFF fmt with
    | some F =>
      let x := unpackF F a
      let y := unpackF F b
      match op with
      | .add => (addP F .rne sat false x y).1
      | .sub => (addP F .rne sat false x y.negate).1
      | .mul => (mulP F .rne sat false x y).1
      | .min => (minmaxF F false a b).1
      | .max => (minmaxF F true a b).1
      | _ => (minmaxF F true a 0).1
    | none =>
      let x := sx 32 a
      let y := sx 32 b
      match op with
      | .add => putI .i32 sat (x + y)
      | .sub => putI .i32 sat (x - y)
      | .mul => putI .i32 sat (x * y)
      | .min => putI .i32 sat (if y < x then y else x)
      | .max => putI .i32 sat (if x < y then y else x)
      | _ => putI .i32 sat (if x < 0 then 0 else x)

/-- One element of TCVT (R52, R135, R352): `e` is its row-major number. -/
def tcvtElem (sat : Bool) (rc : Rc) (seed : DWord) (scale : Option FVal) (td ta : Nat) (e p : Nat) : Nat :=
  let draw := rotl64 (mix (seed.toNat ^^^ (e / 32))) (2 * (e % 32)) % 2 ^ 16
  match scale with
  | none => (cvtP (fmtC td) (fmtC ta) rc sat false draw p).1
  | some sc =>
    let v := (FVal.mul (fmtVal ta p) sc).1
    match fmtFF td with
    | some D => (convF D rc sat draw false v).1
    | none => let (w, sg) := CFmt.iws (fmtC td); (convI w sg rc draw v).1

/-- The smaller or the larger of two values, any NaN giving a NaN (R353). -/
def pickVal (isMax : Bool) (a b : FVal) : FVal :=
  if a.isNan then a else if b.isNan then b
  else if isMax then (if FVal.ltTotal a b then b else a) else (if FVal.ltTotal b a then b else a)

/-- One row of TRED (R353). -/
def Rope.tredRow (r : Rope) (op : TredOp) (ta : Nat) (a : Tc) (dfmt row : Nat) : Nat :=
  match fmtFF dfmt with
  | some F =>
    match op with
    | .add => (List.range (cdiv a.cols 16)).foldl (fun acc c =>
        let s := exactSum ((chunkCols a.cols c).map fun k => fmtVal a.fmt (r.tileElem ta a.fmt row k))
        accStep F false acc (if a.sc then (FVal.mul s (r.scale ta row c)).1 else s)) 0
    | o =>
      let vs := (List.range a.cols).map fun k => r.tileVal ta a row k
      (deliverF F .rne false 0 false ((vs.drop 1).foldl (pickVal (o == .max)) (vs.headD (.fin false 0 0)))).1
  | none =>
    let vs := (List.range a.cols).map fun k => fmtInt a.fmt (r.tileElem ta a.fmt row k)
    match op with
    | .add => wrap 32 (vs.foldl (· + ·) 0)
    | .min => wrap 32 ((vs.drop 1).foldl min (vs.headD 0))
    | .max => wrap 32 ((vs.drop 1).foldl max (vs.headD 0))

/-- All places of a tile of rows × cols, row by row. -/
def places (rows cols : Nat) : List (Nat × Nat) := (List.range rows).flatMap fun i => (List.range cols).map fun j => (i, j)

/-- A side plane of scales 1.0 (R349, R352). -/
def planeOnes : List Host.Cell := (List.range 2048).map fun i => (i, 0x78#8)

/-- A tile operation that is performed at once: everything but TLD, TST and MMA (R349, R351 to R354). Sources are read before the
destination is written. -/
def Rope.tileAtOnce (r : Rope) (t : TileOp) : Rope :=
  match t with
  | .tzero d _ => { r with tiles := r.tiles.set d [], planes := r.planes.set d planeOnes }
  | .tew op sat d a b td ta tb =>
    (places td.rows td.cols).foldl (fun (x : Rope) p =>
      x.putElem d td.fmt p.1 p.2 (tewElem op sat td.fmt (r.tileElem a ta.fmt p.1 p.2) (r.tileElem b tb.fmt p.1 p.2))) r
  | .tcvt sat rc d a td ta seed _ =>
    let x := (places td.rows td.cols).foldl (fun (x : Rope) p =>
      x.putElem d td.fmt p.1 p.2 (tcvtElem sat rc seed (if ta.sc then some (r.scale a p.1 (p.2 / 16)) else none) td.fmt ta.fmt
        (p.1 * td.cols + p.2) (r.tileElem a ta.fmt p.1 p.2))) r
    if td.sc then { x with planes := x.planes.set d planeOnes } else x
  | .tred op d a td ta =>
    (List.range ta.rows).foldl (fun (x : Rope) i => x.putElem d td.fmt i 0 (r.tredRow op a ta td.fmt i)) r
  | .trow d a td _ drow srow n =>
    let w := packedSize td.fmt td.cols
    (List.range n).foldl (fun (x : Rope) k =>
      let x := x.tileWrite d ((drow + k) * 256) (r.tileRead a ((srow + k) * 256) w)
      if td.sc then x.sideWrite d ((drow + k) * 32) (r.sideRead a ((srow + k) * 32) 32) else x) r
  | _ => r

/-- Tiles that an operation reads, and tiles that it writes (R323). -/
def OpKind.tiles : OpKind → List Nat × List Nat
  | .tile (.tld d ..) => ([], [d])
  | .tile (.tst a ..) => ([a], [])
  | .tile (.tzero d _) => ([], [d])
  | .tile (.mma _ _ nacc _ _ d a b c ..) => (if nacc then [a, b] else [a, b, c], [d])
  | .tile (.tew op _ d a b ..) => (if op = .relu ∨ op = .mov then [a] else [a, b], [d])
  | .tile (.tcvt _ _ d a ..) => ([a], [d])
  | .tile (.tred _ d a ..) => ([a], [d])
  | .tile (.trow d a ..) => ([a], [d])
  | _ => ([], [])

end Sys2Proof.Machine
end

