-- ==== Sys2Proof/Machine/Engine.lean ====
section
/-! DEFINITION. The engines at work: sending from the task table, segments, parks, MMA steps, completion, records that wait for room,
and the ends that a supervisor or a reset gives an operation (R243, R306 to R308, R314, R315, R320 to R323, R346). -/

namespace Sys2Proof.Machine

/-- An operation is moved behind or before every other of its queue: the list of operations is the order of the queues (R306). -/
def State.opLast (s : State) (o : Op) : State := { s with ops := eraseBy Op.id o.id s.ops ++ [o] }

/-- The operation is put at the head of its queue (R306, R369). -/
def State.opFirst (s : State) (o : Op) : State := { s with ops := o :: eraseBy Op.id o.id s.ops }

/-- The operation waits in its engine's queue or runs there. -/
def OpSt.sent : OpSt → Bool
  | .queued | .running => true
  | _ => false

/-- The engine of an operation, one per core and timeline, is stopped by a held record, or the operation's coil is halted (R315,
R395). A refetch bears the timeline number 6, which no timeline has, and goes first (R406). -/
def State.engBlocked (s : State) (o : Op) : Bool :=
  (s.ops.any fun x => decide (x.core = o.core ∧ x.tl = o.tl) && x.st.isHeld) || ((s.rope? o.rope).map fun r => r.halt || (r.fetching && o.tl != 6)).getD true

/-- The operation is one that its engine works on: in a channel the one that it runs, else the first of its queue; the sequencer may
overlap what has been sent to it (R306, R323, R359). -/
def State.isHead (s : State) (o : Op) : Bool :=
  let here := s.ops.filter fun x => decide (x.core = o.core ∧ x.tl = o.tl)
  let head := match here.find? fun x => decide (x.st = .running) with
    | some x => some x
    | none => here.find? fun x => x.st.sent
  !s.engBlocked o && o.st.sent && (o.tl == 4 || decide (head.map Op.id = some o.id))

/-- Lists share an element. -/
def meets (a b : List Nat) : Bool := a.any fun x => b.contains x

/-- Every earlier operation of the rope that shares a tile has finished with it (R323). -/
def State.tilesFree (s : State) (o : Op) : Bool :=
  let (rd, wr) := o.kind.tiles
  (s.ops.filter fun x => decide (x.rope = o.rope ∧ x.id < o.id)).all fun x =>
    let (r', w') := x.kind.tiles
    !meets w' (rd ++ wr) && !meets r' wr

/-- The awaited barrier phase has completed (R323, R346). -/
def State.phaseDone (s : State) (o : Op) : Bool :=
  match o.wait with
  | none => true
  | some (b, ph) => bit (s.barRead b).gen 0 != ph

/-- An entry of the task table can be sent (R323). -/
def State.sendable (s : State) (o : Op) : Bool :=
  decide (o.st = .table) && decide (o.tl ≤ 4) && s.inTable o && !s.engBlocked o && s.tilesFree o && s.phaseDone o &&
    (o.tl == 4 || decide ((s.ops.filter fun x => decide (x.core = o.core ∧ x.tl = o.tl) && x.st.sent).length < 16))

/-- TASK_SEND (R323): the entry goes to its engine; one whose barrier phase ended with ERR ends FAULTED (R346). -/
def execTaskSend (op : Nat) (s : State) : Host.Outcome State Fault Refusal :=
  match s.op? op with
  | none => s.noEvent
  | some o =>
    if s.sendable o then
      if (o.wait.map fun w => (s.barRead w.1).err).getD false then .next (s.endOp { o with fcode := 9 } 2 0 true)
      else .next (s.opLast { o with st := .queued, since := s.gtime })
    else s.noEvent

/-- The segment at an operation's cursor. -/
def Mover.segment (m : Mover) (o : Op) : List Cellet := (segments (m.row o.crow)).getD o.cseg []

/-- The cursor after one segment. -/
def Mover.advance (m : Mover) (o : Op) : Op :=
  if o.cseg + 1 < (segments (m.row o.crow)).length then { o with cseg := o.cseg + 1 }
  else { o with crow := o.crow + 1, cseg := 0, fin := decide (m.n ≤ o.crow + 1) }

/-- A segment is to be moved: its operation is at the head of its engine, and moves bytes. -/
def State.moving (s : State) (op : Nat) : Option (Op × Mover) :=
  match s.op? op with
  | none => none
  | some o => if s.isHead o && !o.fin then o.kind.mover.map fun m => (o, m) else none

/-- The segment at the cursor tried. -/
def State.trySegment (s : State) (o : Op) (m : Mover) : State × MRes Nat :=
  let r := (s.as (.op o.id)).segment o.rope o.ctx m.sbase m.red (m.segment o)
  (r.1.as s.agent, r.2)

/-- COPY_SEGMENT (R307, R348): one segment read, written and credited. An access that finds Retry is repeated later. -/
def execCopySegment (op : Nat) (s : State) : Host.Outcome State Fault Refusal :=
  match s.moving op with
  | none => s.noEvent
  | some (o, m) =>
    match s.trySegment o m with
    | (_, .bad ..) => s.noEvent
    | (t, .retry) => s.retried t
    | (s, .ok t) =>
      let seg := m.segment o
      let s := (s.credit m.cred (segBytes seg) false).stage o m seg
      .next (s.setOp { m.advance o with st := .running, done := o.done + segDone seg, vis := max o.vis t, since := s.gtime })

/-- A parked operation has no entry in the replay queue yet. -/
def State.unqueued (s : State) (o : Op) : Bool := decide (o.st = .parked) && !(s.core o.core).rq.any fun e => decide (e.op = some o.id)

/-- The entries of parked operations that are still to be written (R375). -/
def State.flushOps (s : State) (core : Nat) : State :=
  (s.ops.filter fun o => decide (o.core = core)).foldl (fun (s : State) o =>
    if s.unqueued o && (s.core core).room then s.engEntry o else s) s

/-- An operation parks: the PARKED record first, then the replay entry (R308, R314, R362). -/
def State.parkOp (s : State) (o : Op) : State :=
  if o.tl = 6 ∨ !s.hasRing o.ctx then (s.setOp { o with st := .parked }).flushOps o.core
  else (s.setOp { o with st := .held [1] }).postRecord o.id

/-- The tail passes a record that is visible, as a release of system scope (R312): the next record follows, or the operation is parked or
out of the way. Without its context it has no ring any more. -/
def State.postTail (s : State) (op : Nat) : State :=
  match s.op? op with
  | none => s
  | some o =>
    let on := fun (s : State) (n : Nat) (more : List Nat) => match more with
      | [] => if n = 1 then (s.setOp { o with st := .parked }).flushOps o.core else s.retire o
      | _ => (s.setOp { o with st := .held more }).postRecord op
    match o.st with
    | .posted (n :: more) =>
      if s.gtime ≤ o.vis then s
      else match (s.as (.op op)).ringTail o with
        | (t, true) => on (t.as s.agent) n more
        | (t, false) => t.as s.agent
    | .held (n :: more) => if s.hasRing o.ctx then s else on s n more
    | _ => s

/-- The tails that may advance do (R312). -/
def State.postTails (s : State) : State := (s.ops.filter fun o => o.st.isHeld).foldl (fun (s : State) o => s.postTail o.id) s

/-- COPY_PARK (R308): the segment at the cursor meets a translation fault; nothing of it is written. -/
def execCopyPark (op : Nat) (s : State) : Host.Outcome State Fault Refusal :=
  match s.moving op with
  | none => s.noEvent
  | some (o, m) =>
    match s.trySegment o m with
    | (s, .bad code va wr) => .next (s.parkOp { o with fcode := code + (if wr then 5 else 4) * 256, fva := va })
    | _ => s.noEvent

/-- A tile operation is at the head of the matrix engine and computes. -/
def State.computing (s : State) (op : Nat) : Option (Op × TileOp × Rope) :=
  match s.op? op with
  | none => none
  | some o =>
    if s.isHead o && !o.fin && o.kind.mover.isNone then
      match o.kind, s.rope? o.rope with
      | .tile t, some r => some (o, t, r)
      | _, _ => none
    else none

/-- MMA_STEP (R320 to R322): one chunk into one block; any other computing tile operation is performed whole. A reserved T3 byte
under trap ends the operation FORMAT. -/
def execMmaStep (op : Nat) (s : State) : Host.Outcome State Fault Refusal :=
  match s.computing op with
  | none => s.noEvent
  | some (o, .mma na nb nacc sat _ d a b q td ta tb tq, r) =>
    if r.mmaStops a b ta tb o.crow then
      .next ((s.endOp o 5 0 true).postSig o.ctx 4 0 o.num)
    else
      let s := s.setRope (r.mmaStep na nb nacc sat d a b q td ta tb tq o.crow)
      .next (s.setOp { o with st := .running, crow := o.crow + 1, fin := decide (mmaSteps ta tb ≤ o.crow + 1), since := s.gtime })
  | some (o, t, r) => .next ((s.setRope (r.tileAtOnce t)).setOp { o with st := .running, fin := true, since := s.gtime })

/-- Reserved T3 bytes that a completing MMA has decoded (R320). -/
def State.t3of (s : State) (o : Op) : Nat :=
  match o.kind, s.rope? o.rope with
  | .tile (.mma _ _ _ _ _ _ a b _ _ ta tb _), some r => r.t3count a b ta tb
  | _, _ => 0

/-- The operation's writes are performed and visible: it completes (R243). -/
def State.completes (s : State) (o : Op) : Bool := o.st.sent && o.fin && decide (o.vis < s.gtime) && !s.engBlocked o

/-- ENGINE_OP_COMPLETE (R243, R314, R320, R324, R340). -/
def execEngineOpComplete (op : Nat) (s : State) : Host.Outcome State Fault Refusal :=
  match s.op? op with
  | none => s.noEvent
  | some o =>
    if s.completes o then
      if s.t3of o ≠ 0 then .next (s.endOp o 6 (s.t3of o) true) else .next (s.endOp o 0 o.done o.wrec)
    else s.noEvent

/-- RING_ROOM (R315): a consumer has advanced head, and a held record is written. -/
def execRingRoom (op : Nat) (s : State) : Host.Outcome State Fault Refusal :=
  match s.op? op with
  | none => s.noEvent
  | some o =>
    match o.st with
    | .held _ => s.retried (s.postRecord op)
    | _ => s.noEvent

/-- A refetch that cannot be resolved: its lines read zero, and ACCESS is posted with the first of them (R407). The access is the
read of the source, as the fault has it. -/
def State.noRefetch (s : State) (o : Op) : State :=
  let s := s.retire o
  match o.kind with
  | .copy c =>
    let ls := c.only.getD []
    let s := ls.foldl (fun (s : State) l => s.spadWrite c.drope (128 * l) (List.replicate 128 0)) s
    s.postSig o.ctx 2 (BitVec.ofNat 64 (128 * ls.headD 0)) (BitVec.ofNat 32 o.fcode)
  | _ => s

/-- An operation ends before its time, FAULTED, CANCELLED or RESET: its remaining bytes are credited with ERR, its record written
(R308, R311, R314, R410). -/
def State.failOp (s : State) (o : Op) (status : Nat) : State :=
  if o.tl = 6 then s.noRefetch o
  else if o.st.ending then s
  else
    let s := match o.kind.mover with
      | some m => if o.fin then s else s.credit m.cred (m.remains o) true
      | none => s
    match o.st with
    -- its PARKED record comes first
    | .held l => s.setOp { o with fin := true, st := .held (l ++ [status]) }
    | .posted l => s.setOp { o with fin := true, st := .posted (l ++ [status]) }
    | _ => s.endOp { o with fin := true } status o.done true

/-- A parked operation resumes from its cursor, at the head of its channel's queue, behind the one the channel runs (R306, R308, R369). -/
def State.resumeOp (s : State) (o : Op) : State := s.opFirst { o with st := .queued, fcode := 0, fva := 0, since := s.gtime }

end Sys2Proof.Machine
end

