-- ==== Sys2Proof/Machine/Collective.lean ====
section
/-! DEFINITION. Collectives of group 8: VOTE, MATCH, SHFL, REDS and ELECT over the issuing set (R167, R174 to R180). -/

namespace Sys2Proof.Machine

/-- Window registers a gate names. -/
def useGate (gate : Option Src) : List Nat := gate.elim [] (useS 1)

/-- What the lanes of the issuing set hold: lane and value. -/
def Cx.gather {α : Type} (c : Cx) (i : Iss) (f : Fibre → α) : List (Nat × α) := (c.set i).map fun l => (l, f (c.st.fibre l))

/-- VOTE's mask and the mask of the set (R176). -/
def voteMasks (l : List (Nat × Bool)) : Nat × Nat := (maskOf ((l.filter Prod.snd).map Prod.fst), maskOf (l.map Prod.fst))

/-- VOTE of one lane from the mask M and the set S (R176). -/
def voteFor (m : VoteMode) (mk set l : Nat) : Nat :=
  match m with
  | .some => if mk ≠ 0 then 1 else 0
  | .every => if mk = set then 1 else 0
  | .same => if mk = 0 ∨ mk = set then 1 else 0
  | .mask => mk
  | .below => Machine.popc 32 (mk % 2 ^ l)
  | .count => Machine.popc 32 mk

/-- VOTE (R176). -/
def execVote (g : Guard) (m : VoteMode) (inv cv : Bool) (d : VoteDst) (ps : Num4) (gate : Option Src) (s : State) :
    Host.Outcome State Fault Refusal :=
  let i : Iss := { len := 8, g := g, uses := (match d with | .p _ => [] | .r d => useD 1 d) ++ useGate (if cv then gate else none) }
  issue i (fun c l fb =>
    let (mk, set) := voteMasks (c.gather i fun f => f.pred ps != inv)
    let v := voteFor m mk set l
    match d with
    | .p p => .ok (fb.setPred p (v != 0))
    | .r d => .ok (fb.dst false d v)) s

/-- The lanes of a set that hold a value: G of R177. -/
def sameAs (l : List (Nat × Nat)) (v : Nat) : List Nat := (l.filter fun p => p.2 = v).map Prod.fst

/-- MATCH of one lane from the values of the set (R177). -/
def matchFor (f : MatchForm) (vals : List (Nat × Nat)) (l v : Nat) : Nat :=
  match f with
  | .grp => maskOf (sameAs vals v)
  | .lead => (listMin (sameAs vals v)).getD l
  | .rank => ((sameAs vals v).filter (· < l)).length
  | .uni => (vals.map Prod.snd).eraseDups.length

/-- MATCH (R177). -/
def execMatchL (g : Guard) (f : MatchForm) (b64 cv : Bool) (d : Dst) (p : Num4) (a : Src) (gate : Option Src) (s : State) :
    Host.Outcome State Fault Refusal :=
  let pa : Pos := if b64 then .b64 else .b32
  let i : Iss := { len := 8, g := g, uses := useD 1 d ++ useS (nw b64) a ++ useGate (if cv then gate else none) }
  issue i (fun c l fb =>
    let vals := c.gather i fun x => x.src pa a
    let v := matchFor f vals l (fb.src pa a)
    let fb := fb.dst false d v
    .ok (if f = .uni then fb.setPred p (v == 1) else fb)) s

/-- SHFL's source lane for a lane of segments of n (R178). -/
def shflFrom (m : ShflMode) (n l b : Nat) : Int :=
  match m with
  | .idx => ((l / n * n + b % n : Nat) : Int)
  | .lo => (l : Int) - (b : Int)
  | .hi => ((l + b : Nat) : Int)
  | .xor => ((l ^^^ (b % n) : Nat) : Int)

/-- SHFL (R178). -/
def execShfl (g : Guard) (m : ShflMode) (logN : BitVec 3) (b64 cv : Bool) (d : Dst) (p : Num4) (a b : Src) (gate : Option Src)
    (s : State) : Host.Outcome State Fault Refusal :=
  let pa : Pos := if b64 then .b64 else .b32
  let n := 2 ^ (logN.toNat + 1)
  let i : Iss := { len := (immUp [a, b]).len, g := g,
                   uses := useD (nw b64) d ++ useS (nw b64) a ++ useS 1 b ++ useGate (if cv then gate else none) }
  issue i (fun c l fb =>
    let src := shflFrom m n l (fb.src (.i .ui32) b)
    let base : Int := ((l / n * n : Nat) : Int)
    let valid := decide (base ≤ src ∧ src < base + (n : Int)) && (c.set i).contains src.toNat
    .ok ((fb.dst b64 d (if valid then (c.st.fibre src.toNat).src pa a else 0)).setPred p valid)) s

/-- The float format of a REDS type. -/
def redsF : RedType → Option FF
  | .f32 => some .f32
  | .f64 => some .f64
  | _ => none

/-- A 64-bit REDS type. -/
def redsWide : RedType → Bool
  | .i64 | .ui64 | .f64 => true
  | _ => false

/-- The operand position of a REDS type. -/
def redsPos : RedType → Pos
  | .i32 => .i .i32
  | .ui32 => .i .ui32
  | .i64 => .i .i64
  | .ui64 => .i .ui64
  | .f32 => .f .f32
  | .f64 => .f .f64

/-- An integer reduction (R179). -/
def redsInt (op : RedOp) (t : RedType) (sat : Bool) (vs : List Nat) : Nat :=
  let w := if redsWide t then 64 else 32
  let signed := t == .i32 || t == .i64
  let xs := vs.map fun v => if signed then sx w v else ((v % 2 ^ w : Nat) : Int)
  let lo : Int := if signed then -(2 ^ (w - 1)) else 0
  let hi : Int := if signed then 2 ^ (w - 1) - 1 else 2 ^ w - 1
  let fold := fun (f : Int → Int → Int) => wrap w (xs.tail.foldl f (xs.headD 0))
  let bit2 := fun (f : Nat → Nat → Nat) => (vs.tail.foldl f (vs.headD 0)) % 2 ^ w
  match op with
  | .add => let v := xs.foldl (· + ·) 0; wrap w (if sat then clampI lo hi v else v)
  | .min => fold min
  | .max => fold max
  | .and => bit2 (· &&& ·)
  | .or => bit2 (· ||| ·)
  | .xor => bit2 (· ^^^ ·)

/-- The exact sum rounded once (R179, .det); the conditions it raises. -/
def redsExact (F : FF) (ps : List Nat) : Nat × Nat :=
  let vs := ps.map (unpackF F)
  let undef := vs.contains (.inf true) && vs.contains (.inf false)
  let iv := ivOf (vs.any FVal.snan) undef
  if vs.any FVal.isNan || undef then (F.nanP, iv)
  else
    let (p, fl) := deliverF F .rne false 0 false (sumFrom (vs.headD (.fin false 0 0)) vs.tail).1
    (p, fl ||| iv)

/-- Partial sums in an order that the list of choices gives: at each step two of them are rounded into one (R179, log 4, log 11). -/
def redsSteps (F : FF) : Nat → List Nat → List Nat → Nat → List Nat × Nat × Nat
  | 0, picks, ps, fl => (picks, ps.headD 0, fl)
  | n + 1, picks, ps, fl =>
    match ps with
    | [] | [_] => (picks, ps.headD 0, fl)
    | _ =>
      let i := picks.headD 0 % ps.length
      let a := ps.getD i 0
      let rest := ps.eraseIdx i
      let j := picks.tail.headD 0 % rest.length
      let r := addP F .rne false false (unpackF F a) (unpackF F (rest.getD j 0))
      redsSteps F n picks.tail.tail (r.1 :: rest.eraseIdx j) (fl ||| r.2)

/-- The least or greatest over a set (R125, R179). -/
def redsMinmax (F : FF) (isMax : Bool) (ps : List Nat) : Nat × Nat :=
  let p0 := ps.headD 0
  (ps.tail).foldl (fun r p => let q := minmaxF F isMax r.1 p; (q.1, r.2 ||| q.2)) (minmaxF F isMax p0 p0)

/-- A float reduction, with the choices it uses up (R179). -/
def redsFloat (F : FF) (op : RedOp) (det : Bool) (picks ps : List Nat) : List Nat × Nat × Nat :=
  match op with
  | .add =>
    -- a NaN or an infinite input decides the result, whatever the partial sums
    if det || ps.any fun p => match unpackF F p with
      | .fin .. => false
      | _ => true
    then (picks, redsExact F ps)
    else
      let (picks, p, fl) := redsSteps F ps.length picks ps 0
      (picks, if (unpackF F p).isNan then F.nanP else p, fl)
  | .min => (picks, redsMinmax F false ps)
  | _ => (picks, redsMinmax F true ps)

/-- REDS (R179). -/
def execReds (g : Guard) (op : RedOp) (t : RedType) (det sat cv : Bool) (d : Dst) (a : Src) (gate : Option Src) (s : State) :
    Host.Outcome State Fault Refusal :=
  let w := redsWide t
  let i : Iss := { len := 8, g := g, uses := useD (nw w) d ++ useS (nw w) a ++ useGate (if cv then gate else none) }
  match redsF t with
  | none => issue i (fun c _ fb => .ok (fb.dst w d (redsInt op t sat ((c.gather i fun f => f.src (redsPos t) a).map Prod.snd)))) s
  | some F =>
    match s.cx? 8 with
    | none => s.noEvent
    | some c =>
      let ps := (c.gather i fun f => ftzP F f.ftz (f.src (redsPos t) a)).map Prod.snd
      let (picks, r) := redsFloat F op det s.picks ps
      issue i (fun _ _ fb =>
        let (v, fl) := ftzOut F fb.ftz r
        let fb' := fb.dst w d v
        if fb.traps fl then { LaneRes.fault fb' (arith fl) with trap := some { arith fl with after := true } }
        else .ok (fb'.raise fl)) { s with picks := picks }

/-- ELECT (R180). -/
def execElect (g : Guard) (cv : Bool) (d : Dst) (p : Num4) (gate : Option Src) (s : State) : Host.Outcome State Fault Refusal :=
  let i : Iss := { len := 8, g := g, uses := useD 1 d ++ useGate (if cv then gate else none) }
  issue i (fun c l fb =>
    let low := (listMin (c.set i)).getD l
    .ok ((fb.dst false d low).setPred p (l == low))) s

end Sys2Proof.Machine
end

