-- ==== Sys2Proof/Machine/Control.lean ====
section
/-! DEFINITION. Group 0, control (R84 to R89). -/

namespace Sys2Proof.Machine

/-- NOP (R88). -/
def execNop (g : Guard) (s : State) : Host.Outcome State Fault Refusal :=
  issue { len := 8, g := g, uses := [] } (fun _ _ fb => .ok fb) s

/-- One lane of a branch (R85, R86): the target test, then the link and the branch. A fetch fault at the target counts the branch
as completed: the lane parks there. While the fetch has no answer the word is repeated. -/
def branchLane (c : Cx) (s : State) (fb : Fibre) (t : DWord) (link : Fibre → Fibre) : Except State LaneFx :=
  match s.target c.who t with
  | (s, .notHeader) => .ok ⟨s, .fault fb (illegal .target), 0⟩
  | (s, .header) => .ok ⟨s, { fib := link fb, tgt := some t, trap := none }, 0⟩
  | (s, .flt _ _) => .ok ⟨s, { fib := { link fb with atTgt := true }, tgt := some t, trap := none }, 0⟩
  | (t, .retry) => .error (s.unspent t)

/-- A branch: the target of a lane, and what it links (R85). -/
def branch (i : Iss) (t : Cx → Fibre → DWord) (link : Cx → Fibre → Fibre) (s : State) : Host.Outcome State Fault Refusal :=
  issueTry i (fun c _ s _ fb => branchLane c s fb (t c fb) (link c)) s

/-- The signed byte offset of BRA, CALL and FORK (R70). -/
def Cx.rel (c : Cx) (off : BitVec 32) : DWord := c.ip + off.signExtend 64

/-- BRA (R85). -/
def execBra (g : Guard) (off : BitVec 32) (s : State) : Host.Outcome State Fault Refusal :=
  branch { len := 12, g := g, uses := [] } (fun c _ => c.rel off) (fun _ f => f) s
/-- BRX (R85). -/
def execBrx (g : Guard) (a : Src) (s : State) : Host.Outcome State Fault Refusal :=
  branch { len := 8, g := g, uses := useS 2 a } (fun _ f => BitVec.ofNat 64 (f.src .b64 a)) (fun _ f => f) s
/-- CALL (R85): the link pair takes the fall-through address. -/
def execCall (g : Guard) (l : Dst) (off : BitVec 32) (s : State) : Host.Outcome State Fault Refusal :=
  branch { len := 12, g := g, uses := useD 2 l } (fun c _ => c.rel off) (fun c f => f.dst true l c.next.toNat) s
/-- CALLX (R85): the target is read before the link is written. -/
def execCallx (g : Guard) (l : Dst) (a : Src) (s : State) : Host.Outcome State Fault Refusal :=
  branch { len := 8, g := g, uses := useD 2 l ++ useS 2 a } (fun _ f => BitVec.ofNat 64 (f.src .b64 a))
    (fun c f => f.dst true l c.next.toNat) s
/-- RET (R85). -/
def execRet (g : Guard) (a : Src) (s : State) : Host.Outcome State Fault Refusal :=
  branch { len := 8, g := g, uses := useS 2 a } (fun _ f => BitVec.ofNat 64 (f.src .b64 a)) (fun _ f => f) s

/-- YIELD (R89): executed by one fibre at least, its clause ends as with the yield bit, and the quantum is spent there. -/
def execYield (g : Guard) (s : State) : Host.Outcome State Fault Refusal :=
  match s.cx? 8 with
  | none => s.noEvent
  | some c =>
    let r := issue { len := 8, g := g, uses := [] } (fun _ _ fb => .ok fb)
    if c.lanes g = [] then r s
    else r (s.setStrand c.who { c.st with spent := true, cur := some { c.path with cl := some { c.cl with yield := true } } })

end Sys2Proof.Machine
end

