-- ==== Sys2Proof/Machine/MemEvents.lean ====
section
/-! DEFINITION. Events of the memory system: translations and their late faults, releases, results that land, pins that expire,
forwarded accesses, the 16 messages, evictions (R18, R210, R221, R237, R248 to R262, R268, R363, R371, R372). -/

namespace Sys2Proof.Machine

/-- The issue that an access belongs to, for those whose translation comes later (R363). -/
def Access.issue (a : Access) : Option Nat := a.tag.orElse fun _ => a.sq

/-- The access waits for its translation. -/
def Access.untranslated (a : Access) : Bool := a.xl.isNone && a.xf.isNone && !a.void && a.kind != .land

/-- Accesses of one issue to one address: they share a translation and its fault (R363). -/
def Access.peers (a b : Access) : Bool :=
  decide (b.lane.rope = a.lane.rope ∧ b.lane.sid = a.lane.sid ∧ b.issue = a.issue ∧ b.va = a.va ∧ b.fpc = a.fpc)

/-- TRANSLATION: the home slice translates an access and those of its issue at its address, or finds their fault (R210). -/
def execTranslation (acc : Nat) (s : State) : Host.Outcome State Fault Refusal :=
  match s.acc? acc with
  | none => s.noEvent
  | some a =>
    if !a.untranslated then s.noEvent
    else
      let put := fun (s : State) (xl : Option Xl) (xf : Option Nat) =>
        { s with accs := s.accs.map fun (b : Access) => if b.untranslated && a.peers b then { b with xl := xl, xf := xf } else b }
      match s.early a true with
      | (s, .ok x) => .next (put s (some x) none)
      | (s, .bad e) => .next (put s none (some e))
      | (s, .retry) => .next s

/-- A lane leaves an AT park whose entry is not yet written: the late fault takes its place (R367). -/
def State.unpark (s : State) (l : LaneId) : State :=
  let c := s.core l.rope.core
  s.setCore { c with parking := (c.parking.map fun (p : Parking) =>
    if p.rope = l.rope ∧ p.sid = l.sid then { p with mask := p.mask &&& ~~~(1#32 <<< l.lane) } else p).filter fun p => decide (p.mask ≠ 0) }

/-- A faulted access is gone: its flag falls, its register is no longer pending and keeps its old value (R268). -/
def State.failAcc (s : State) (a : Access) : State :=
  let w := laneWho a.lane
  let s := s.dropAcc a.id
  let f := s.fibre w a.lane.lane
  let s := match a.wd with
    | some (d, n) => s.setFibre w a.lane.lane (f.clrPend ((List.range n).map (d + ·)))
    | none => s
  s.dueDone w a.tag

/-- LATE_XLATE_FAULT: the fibres whose access of one issue faulted at one address park with kind KNOT (R268, R363, R372). -/
def execLateXlateFault (acc : Nat) (s : State) : Host.Outcome State Fault Refusal :=
  match s.acc? acc with
  | none => s.noEvent
  | some a =>
    match a.xf with
    | none => s.noEvent
    | some e =>
      if a.void then s.noEvent
      else
        let w := laneWho a.lane
        let f := s.fibre w a.lane.lane
        let all := s.accs.filter fun b => a.peers b && decide (b.xf = some e) && !b.void &&
          decide ((s.fibre w b.lane.lane).kpc = f.kpc ∧ (s.fibre w b.lane.lane).serial = f.serial)
        let s := all.foldl (fun (s : State) b => (s.failAcc b).unpark b.lane) s
        let t : Trap := ⟨.xlate, .knot, xlateInfo e a.kind.xkind, BitVec.ofNat 64 a.va, false⟩
        let s := s.park w (all.map fun b => b.lane.lane) t f.kpc a.fpc a.hpc
        .next (s.flushParks a.lane.rope.core)

/-- A held store is released: it and every earlier operation of its fibre are translated (R371). -/
def State.releasable (s : State) (a : Access) : Bool :=
  a.xl.isSome && (s.earlier a).all fun b => b.xl.isSome || b.kind == .land

/-- The access acts on its line by whole transactions, which need copies beyond the device to be given back first. -/
def State.recallFor (s : State) (a : Access) : Option State :=
  match a.xl with
  | none => none
  | some x =>
    let t := s.recall x.line
    if s.isDirect x a.kind.xkind.writes || (s.window? x.cctx x.cva).isSome || t.msgs.length = s.msgs.length then none
    else if (s.watch? x.line).isSome || (match a.kind with | .ldro _ => true | _ => false) then some t
    else none

/-- STORE_RELEASE: a held store leaves the queue; a released one takes its next step towards its performance (R272, R371). -/
def execStoreRelease (acc : Nat) (s : State) : Host.Outcome State Fault Refusal :=
  match s.acc? acc with
  | none => s.noEvent
  | some a =>
    match a.kind with
    | .st | .shpw =>
      if a.done then s.noEvent
      else if a.sq.isSome then
        if s.releasable a then
          let b := { a with sq := none }
          let s := s.setAcc b
          .next ((s.perform b).getD s)
        else s.noEvent
      else
        match s.perform a with
        | some s => .next s
        | none => match s.recallFor a with
          | some s => .next s
          | none => s.noEvent
    | _ => s.noEvent

/-- LOAD_RESULT: a load or atomic takes its next step, or a known result lands (R18, R271, R277). A discarded result only lowers
its flag (R368). -/
def execLoadResult (acc : Nat) (s : State) : Host.Outcome State Fault Refusal :=
  match s.acc? acc with
  | none => s.noEvent
  | some a =>
    match a.kind with
    | .st | .cwb _ | .shpw => s.noEvent
    | _ =>
      let isAtom := match a.kind with
        | .atom .. => true
        | _ => false
      if a.done ∨ (a.void ∧ !isAtom) then .next (s.land a)
      else
        match s.perform a with
        | some s => .next s
        | none => match s.recallFor a with
          | some s => .next s
          | none => s.noEvent

/-- A SHPW write whose Vis has passed lowers its flag (R335). -/
def State.shpwDone (s : State) : State :=
  (s.accs.filter fun a => a.done && a.kind == .shpw && decide ((s.fibre (laneWho a.lane) a.lane.lane).vis < s.gtime)).foldl
    (fun (s : State) a => (s.dropAcc a.id).dueDone (laneWho a.lane) a.tag) s

/-- PIN_EXPIRY: the 2 µs lease of a pin ends (R237). -/
def execPinExpiry (cluster : Nat) (l : LineId) (s : State) : Host.Outcome State Fault Refusal :=
  match s.myPin? cluster l with
  | some p => if p.start + 2000 ≤ s.gtime then .next (s.endPin p) else s.noEvent
  | none => s.noEvent

/-- FORWARDED_ACCESS: performed on the bytes of the window's scratchpad; where the window is gone or closed, the requester repeats
its access (R221, R222). -/
def execForwardedAccess (f : FwdReq) (s : State) : Host.Outcome State Fault Refusal :=
  if s.fwds.contains f then
    let s := { s with fwds := s.fwds.erase f }
    let va := f.line.line * 128 + f.off
    match s.window? f.line.ctx va, f.acc.bind s.acc? with
    | some w, some a =>
      if w.closed then .next s
      else
        let old := s.winRead w va f.size
        match f.req with
        | none => .next (s.doneAcc a (s.overlay a old))
        | some r =>
          let o := atomDo r old
          let s := match o.2 with
            | some b => s.winWrite w va b
            | none => s
          .next ((s.raiseVis a.lane s.gtime).doneAcc a o.1)
    | _, _ => .next s
  else s.noEvent

/-- A message of a cluster or of the home arrives where it goes (R248, R252). -/
def message (ty : MType) (m : Msg) (s : State) : Host.Outcome State Fault Refusal :=
  if s.isNext ty m then .next (s.deliver ty m) else s.noEvent

/-- The line's bytes go on to the cluster for which an owner beyond the device gave them back (R251, R259). -/
def State.passOn (s : State) (f : Flight) : State :=
  match s.home? f.msg.line with
  | some h =>
    if agentHolds f.msg.src && (f.ty == .fwds || f.ty == .fwdm) then
      s.post (if f.ty = .fwds then .datas else .datam)
        { plainMsg f.msg.line .home f.msg.src with data := s.homeBytes h, acc := f.msg.acc }
    else s
  | none => s

/-- An answer of the host or of a peer to what the home asked of it (R259): the request in flight is answered; with no transaction
open, the agent holds no copy any more. -/
def State.outsideAnswer (s : State) (ty : MType) (m : Msg) : Option State :=
  match s.msgs.find? fun f => decide (f.msg.line = m.line ∧ f.msg.dst = m.src) &&
      (if ty = .ack then f.ty == .inv || f.ty == .update else f.ty == .fwds || f.ty == .fwdm) with
  | none => none
  | some f =>
    let s := s.takeMsg f.msg
    match s.home? m.line with
    | none => some s
    | some h =>
      if h.txn.isSome then (s.homeRecv ty m).map fun s => s.passOn f
      else
        let s := if ty = .wbdata then s.homePut h m.mask.toNat m.data else s
        (s.home? m.line).map fun h => s.setHome (h.del m.src)

/-- A message that an agent beyond the device may send as well. -/
def messageOrAnswer (ty : MType) (m : Msg) (s : State) : Host.Outcome State Fault Refusal :=
  match m.src with
  | .host | .peer _ => match s.outsideAnswer ty m with
    | some s => .next s
    | none => s.noEvent
  | _ => message ty m s

/-- GETS (R248). -/
def execGets (m : Msg) (s : State) : Host.Outcome State Fault Refusal := message .gets m s
/-- GETM. -/
def execGetm (m : Msg) (s : State) : Host.Outcome State Fault Refusal := message .getm m s
/-- UPGR. -/
def execUpgr (m : Msg) (s : State) : Host.Outcome State Fault Refusal := message .upgr m s
/-- PUTS. -/
def execPuts (m : Msg) (s : State) : Host.Outcome State Fault Refusal := message .puts m s
/-- PUTM (R261). -/
def execPutm (m : Msg) (s : State) : Host.Outcome State Fault Refusal := message .putm m s
/-- WBDATA (R261). -/
def execWbdata (m : Msg) (s : State) : Host.Outcome State Fault Refusal := messageOrAnswer .wbdata m s
/-- ATOM as a message (R233). -/
def execAtomMsg (m : Msg) (s : State) : Host.Outcome State Fault Refusal := message .atom m s
/-- ACK (R252, R259). -/
def execAck (m : Msg) (s : State) : Host.Outcome State Fault Refusal := messageOrAnswer .ack m s
/-- FWDS. -/
def execFwds (m : Msg) (s : State) : Host.Outcome State Fault Refusal := message .fwds m s
/-- FWDM. -/
def execFwdm (m : Msg) (s : State) : Host.Outcome State Fault Refusal := message .fwdm m s
/-- INV. -/
def execInv (m : Msg) (s : State) : Host.Outcome State Fault Refusal := message .inv m s
/-- WBGRANT (R261). -/
def execWbgrant (m : Msg) (s : State) : Host.Outcome State Fault Refusal := message .wbgrant m s
/-- DATAS. -/
def execDatas (m : Msg) (s : State) : Host.Outcome State Fault Refusal := message .datas m s
/-- DATAM. -/
def execDatam (m : Msg) (s : State) : Host.Outcome State Fault Refusal := message .datam m s
/-- UPDATE. -/
def execUpdate (m : Msg) (s : State) : Host.Outcome State Fault Refusal := message .update m s

/-- TIMER: a lease expires at its holder by its own clock; a permanent copy has none (R248, R251, R255). -/
def execTimer (cluster : Nat) (l : LineId) (s : State) : Host.Outcome State Fault Refusal :=
  match s.copy? cluster l with
  | some cp =>
    if !cp.vb && !cp.lasting && cp.expiry != 0 && decide (cp.expiry ≤ s.gtime) && (s.myPin? cluster l).isNone then
      match s.cacheRecv cluster .timer (plainMsg l .home (.cluster cluster)) with
      | some s => .next s
      | none => s.noEvent
    else s.noEvent
  | none => s.noEvent

/-- L1_EVICTION: a victim leaves its slice; pinned lines are never chosen (R256, R261). -/
def execL1Eviction (cluster : Nat) (l : LineId) (s : State) : Host.Outcome State Fault Refusal :=
  match s.copy? cluster l with
  | some cp =>
    if (s.myPin? cluster l).isSome then s.noEvent
    else match s.evict cp with
      | some s => .next s
      | none => s.noEvent
  | none => s.noEvent

end Sys2Proof.Machine
end

