-- ==== Sys2Proof/Machine/Ptinv.lean ====
section
/-! DEFINITION. Invalidating translations, and migrating a page (R210, R214, R215, R224, R424, R477). -/

namespace Sys2Proof.Machine

/-- A range of pages of one context, or of every context. -/
structure PageRange where
  ctx  : Option Nat
  page : Nat
  n    : Nat
  deriving DecidableEq, Repr

/-- The range holds a page of a context. -/
def PageRange.has (r : PageRange) (ctx page : Nat) : Bool :=
  (r.ctx.isNone || decide (r.ctx = some ctx)) && decide (r.page ≤ page ∧ page < r.page + r.n)

/-- The range meets a 256 MiB page. -/
def PageRange.meets (r : PageRange) (ctx page : Nat) : Bool :=
  (r.ctx.isNone || decide (r.ctx = some ctx)) && decide (r.n ≠ 0 ∧ r.page < page / 4096 * 4096 + 4096 ∧ page / 4096 * 4096 < r.page + r.n)

/-- The range holds a line. -/
def PageRange.line (r : PageRange) (l : LineId) : Bool := r.has l.ctx (l.line / 512)

/-- Cached translations, remap-filter entries, read-only copies of the range and what the cores have fetched are dropped (R26, R214,
R424). -/
def State.dropXlate (s : State) (r : PageRange) : State :=
  { s with tlb := s.tlb.filter fun t => !(if t.big then r.meets t.ctx t.page else r.has t.ctx t.page),
           nonleaf := if r.n = 0 then s.nonleaf else s.nonleaf.filter fun x => !(r.ctx.isNone || decide (r.ctx = some x.ctx)),
           remap := s.remap.filter fun m => !(r.has m.ctx m.page || r.has m.cctx m.cpage),
           roCopies := s.roCopies.filter fun c => !r.line c.line,
           cores := if r.n = 0 then s.cores else s.cores.map fun (c : Core) => { c with fetched := [] } }

/-- The permission copies of the range are dropped (R206, R424). -/
def State.dropPerms (s : State) (r : PageRange) : State :=
  { s with copies := s.copies.map fun (c : Copy) => if r.line c.line then { c with perm := none } else c,
           homes := s.homes.map fun (h : HomeLine) => if r.line h.line then { h with perm := none } else h }

/-- Locks on lines of the range are released (R224). -/
def State.dropLocks (s : State) (r : PageRange) : State :=
  let out := s.locks.filter fun k => r.line k.2
  let s := { s with locks := s.locks.filter fun k => !r.line k.2 }
  out.foldl (fun (s : State) k => match s.ctx? k.1 with
    | some c => s.setCtx { c with locks := c.locks - 1 }
    | none => s) s

/-- Every copy of a line of the range that is not pinned starts to leave: clusters write back and drop theirs, and holders beyond the
device are asked for theirs. A line of a window stays (R221, R424). -/
def State.flushLines (s : State) (r : PageRange) : State :=
  let mine := s.copies.filter fun c => r.line c.line && (s.pin? c.line).isNone && (s.window? c.line.ctx (c.line.line * 128)).isNone
  let s := mine.foldl (fun (s : State) c => (s.evict c).getD s) s
  let rest := s.homes.filter fun h => r.line h.line && h.txn.isNone
  rest.foldl (fun (s : State) h => s.recall h.line) s

/-- Nothing of the range's lines is held or on its way any more, and no time that one of them has given lies ahead. -/
def State.flushed (s : State) (r : PageRange) : Bool :=
  !s.copies.any (fun c => r.line c.line && (s.window? c.line.ctx (c.line.line * 128)).isNone) && !s.msgs.any (fun f => r.line f.msg.line) &&
    !s.homes.any (fun h => r.line h.line &&
      (h.txn.isSome || !h.queue.isEmpty || h.host || h.peers != [] || h.rsent || decide (s.gtime < h.wct ∨ s.gtime < h.lease)))

/-- Accesses that used an entry of the range are complete (R214). -/
def State.quietRange (s : State) (r : PageRange) : Bool :=
  !s.accs.any fun a => a.open_ && match a.xl with
    | some x => r.has a.ctx (a.va / 65536) || r.has x.cctx (x.cva / 65536)
    | none => false

/-- One attempt at PTINV: what can be dropped is dropped; true once it is complete (R214, R424). -/
def State.ptinv (s : State) (r : PageRange) (full : Bool) : State × Bool :=
  let s := s.dropXlate r
  let s := if full then (s.dropLocks r).flushLines r else s.dropPerms r
  if s.quietRange r && (!full || s.flushed r) then
    (if full then (s.homes.filter fun h => r.line h.line).foldl State.retireLine s else s, true)
  else (s, false)

/-- A page-table entry written in memory by the service cores, one store of 16 bytes (R214, R218). -/
def State.ptePut (s : State) (a : Nat) (e : BitVec 128) : Option State :=
  match s.inb? (a / 65536) with
  | some i => ((s.inHome i a).homeWrite (i.lineOf a) .home (a % 128) (leBytes 16 e.toNat)).map Prod.fst
  | none => some (s.rawWrite a (leBytes 16 e.toNat))

/-- The page copied to its new frame is given its leaf: peer 0, direct, the context's key slot (R477). None: not yet. -/
def State.migrated (s : State) (ctx page frame : Nat) : Option State :=
  match s.leafAt ctx page, s.ctx? ctx with
  | some (a, _, e), some c =>
    let keep := e.toNat % 2 ^ 10 / 2 * 2
    s.ptePut a (BitVec.ofNat 128 (keep + 1 + c.kslot * 2 ^ 16 + frame * 2 ^ 32))
  | _, _ => some s

/-- PAGE_MIGRATION: the service cores decline a request of R215, or carry it on: P is cleared and the page invalidated, and once that
is complete its bytes are read from the peer line by line into the local frame (R477). Pages under a scratchpad window are not migrated (R220). The event is repeated until the reads
have left; the leaf is written as the last one returns. -/
def execPageMigration (ctx vpage : Nat) (accept : Bool) (frame : Nat) (s : State) : Host.Outcome State Fault Refusal :=
  if !s.migreq.contains (ctx, vpage) then s.noEvent
  else if !accept then .next { s with migreq := s.migreq.filter (· ≠ (ctx, vpage)) }
  else
    match s.leafAt ctx vpage with
    | none => .next { s with migreq := s.migreq.filter (· ≠ (ctx, vpage)) }
    | some (a, big, e) =>
      let n := if big then 2 ^ 28 else 65536
      let held := s.windows.any fun w => decide (w.ctx = ctx ∧ w.vbase / 64 < vpage + n / 65536 ∧ vpage * 64 < w.vbase + w.klen)
      let bad := held ∨ ptePeer e = 0 ∨ ptePeer e = 0x3FFFF ∨ !s.reaches (ptePeer e) ∨ (big ∧ frame % 4096 ≠ 0) ∨ 0x18000000000 < frame * 65536 + n
      if bad then .next { s with migreq := s.migreq.filter (· ≠ (ctx, vpage)) }
      else
        match (if pteBit e 0 then s.ptePut a (e &&& ~~~1#128) else some s) with
        | none => .next s
        | some s =>
          let r : PageRange := ⟨some ctx, if big then vpage / 4096 * 4096 else vpage, n / 65536⟩
          match s.ptinv r true with
          | (s, false) => .next s
          | (s, true) =>
            let s := { s with migreq := s.migreq.filter (· ≠ (ctx, vpage)) }
            .next ((List.range (n / 128)).foldl (fun (s : State) i => s.sendTx
              { tid := 0, dst := ptePeer e, kind := .read, addr := pteFrame e * 65536 + i * 128, mask := BitVec.allOnes 128, data := [],
                atom := none, cls := 0, wct := 0, what := .page ctx vpage frame }) s)

end Sys2Proof.Machine
end

