-- ==== Sys2Proof/Machine/EngInstr.lean ====
section
/-! DEFINITION. Shape records, timelines, the completion ring, barrier words and tile controls as instructions reach them (R241 to
R244, R299, R310 to R312, R335, R336, R341 to R347). -/

namespace Sys2Proof.Machine

/-- Address of shape record i of a rope's launch (R299). -/
def Rope.shapeVa (r : Rope) (i : BitVec 8) : Nat := r.shapes + 64 * i.toNat

/-- The four 16-byte chunks of a record, or the 8 bytes of its base: offset and bytes (R335). -/
def Fibre.shapeParts (f : Fibre) (op : ShpwOp) : List (Nat × List Byte) :=
  match op with
  | .all q => (List.range 4).map fun k => (16 * k, bytesOfWords ((List.range 4).map fun j => f.win.getD (q.toNat + 4 * k + j) 0))
  | .base a => [(0, leBytes 8 (f.src .b64 a))]

/-- SHPW of one lane: device-scope releases of its bytes (R335). -/
def shpwLane (op : ShpwOp) (i : BitVec 8) (c : Cx) (tag : Nat) (s : State) (l : Nat) (fb : Fibre) : Except State LaneFx :=
  match s.myRope c.who with
  | none => .ok ⟨s, .fault fb (illegal .operand), 0⟩
  | some rp =>
    let ea := rp.shapeVa i
    if 2 ^ 54 ≤ ea + 63 then .ok ⟨s, .fault fb (rangeTrap .store ea), 0⟩
    else
      let acc : Access := { accOf (c.who.lane l) rp.ctx ea 16 .shpw c.ip c.cl.hpc with order := .rel, tag := some tag }
      match s.early acc true with
      | (s, .bad e) => .ok ⟨s, .fault fb (xlateTrap e .store ea), 0⟩
      | (s, .retry) => .error s
      | (s, .ok x) =>
        let ps := fb.shapeParts op
        let s := ps.foldl (fun (s : State) p =>
          s.newAcc { acc with va := ea + p.1, size := p.2.length, data := p.2, xl := some { x with cva := x.cva + p.1, loc := locPlus x.loc p.1 } }) s
        .ok ⟨s, .ok fb, ps.length⟩
where
  /-- The place n bytes on. -/
  locPlus (l : Loc) (n : Nat) : Loc :=
    match l with
    | .hbm pa => .hbm (pa + n)
    | .host pa => .host (pa + n)
    | .peer p a => .peer p (a + n)

/-- SHPW (R335). -/
def execShpw (g : Guard) (op : ShpwOp) (i : BitVec 8) (s : State) : Host.Outcome State Fault Refusal :=
  issueTry (engIss g (match op with
    | .all q => useW 16 (some q)
    | .base a => useS 2 a)) (shpwLane op i) s

/-- SHPR of one lane: device-scope relaxed loads into 16 registers (R336). The translation is looked up at issue; its fault restarts
at the knot unless the fibre runs in serial mode. -/
def shprLane (d : BitVec 8) (i : BitVec 8) (c : Cx) (tag : Nat) (s : State) (l : Nat) (fb : Fibre) : Except State LaneFx :=
  match s.myRope c.who with
  | none => .ok ⟨s, .fault fb (illegal .operand), 0⟩
  | some rp =>
    let ea := rp.shapeVa i
    if 2 ^ 54 ≤ ea + 63 then .ok ⟨s, .fault fb (rangeTrap .load ea), 0⟩
    else
      let acc : Access := { accOf (c.who.lane l) rp.ctx ea 16 (.ld .b128) c.ip c.cl.hpc with tag := some tag }
      match s.early acc true with
      | (s, .bad e) => .ok ⟨s, .fault fb { xlateTrap e .load ea with kind := if fb.serial then .at else .knot }, 0⟩
      | (s, .retry) => .error s
      | (s, .ok x) =>
        let s := (List.range 4).foldl (fun (s : State) (k : Nat) =>
          s.newAcc { acc with va := ea + 16 * k, wd := some (d.toNat + 4 * k, 4),
                              xl := some { x with cva := x.cva + 16 * k, loc := shpwLane.locPlus x.loc (16 * k) } }) s
        .ok ⟨s, .ok (fb.setPend ((List.range 16).map (d.toNat + ·))), 4⟩

/-- SHPR (R336). -/
def execShpr (g : Guard) (d : BitVec 8) (i : BitVec 8) (s : State) : Host.Outcome State Fault Refusal :=
  issueTry (engIss g (useW 16 (some d))) (shprLane d i) s

/-- A result or a mere completion that lands later for a lane: register and words, bytes, predicate (R18). -/
def State.landLater (s : State) (c : Cx) (l tag : Nat) (wd : Option (Nat × Nat)) (data : List Byte) (pd : Option (Num4 × Bool)) (done : Bool) :
    State :=
  s.newAcc { accOf (c.who.lane l) ((s.ctxOf c.who).getD 0) 0 0 .land c.ip c.cl.hpc with
    wd := wd, data := data, done := done, tag := some tag, pd := pd }

/-- TLWAIT of one lane: its fibre waits at the next header (R341). -/
def tlwaitLane (tl : BitVec 3) (n : Src) (c : Cx) (tag : Nat) (s : State) (l : Nat) (fb : Fibre) : LaneFx :=
  ⟨s.landLater c l tag none [] none false, .ok { fb with wait := some (.tl tl.toNat (BitVec.ofNat 32 (fb.src .b32 n))) }, 1⟩

/-- TLWAIT (R341). -/
def execTlwait (g : Guard) (tl : BitVec 3) (n : Src) (s : State) : Host.Outcome State Fault Refusal :=
  issueSt (engIss g (useS 1 n)) (tlwaitLane tl n) s

/-- A timeline of a rope; tl6 and tl7 read zero (R243). -/
def Rope.tl (r : Rope) (i : Nat) : Tl := if i < 6 then r.tls.getD i ⟨0, 0, []⟩ else ⟨0, 0, []⟩

/-- TLREAD (R342). -/
def execTlread (g : Guard) (b64 : Bool) (d : BitVec 8) (tl : BitVec 3) (s : State) : Host.Outcome State Fault Refusal :=
  let n := nw b64
  issueSt (engIss g (useW n (some d)))
    (fun c tag s l fb =>
      let t := ((s.myRope c.who).map fun r => r.tl tl.toNat).getD ⟨0, 0, []⟩
      ⟨s.landLater c l tag (some (d.toNat, n)) (leBytes (4 * n) (t.value.toNat + 2 ^ 32 * t.issued.toNat)) none true,
        .ok (fb.setPend ((List.range n).map (d.toNat + ·))), 1⟩) s

/-- What CRPOP finds: a record, an empty ring, a fault, or an access to repeat (R343). -/
inductive PopRes where
  | got (b : List Byte)
  | empty
  | bad (t : Trap)
  | again
  deriving DecidableEq, Repr

/-- The sequence of R343 for one fibre, performed at the device in one step. Where another consumer has advanced head before the compare
and swap is performed, it starts over. -/
def State.ringPop (s : State) (core ctx : Nat) : State × PopRes :=
  match s.ctx? ctx with
  | none => (s, .empty)
  | some c =>
    if c.ring = 0 then (s, .empty)
    else
      let cl := clusterOf core
      let step := fun {α : Type} (r : State × VRes α) (k : XKind) (va : Nat) (f : State → α → State × PopRes) =>
        match r with
        | (s, .ok v) => f s v
        | (s, .bad e) => (s, .bad (xlateTrap e k va))
        | (t, .retry) => (s.unspent t, .again)
      step (s.vLoad cl ctx c.ring 4 .load true) .load c.ring fun s tb =>
      step (s.vLoad cl ctx (c.ring + 64) 4 .load true) .load (c.ring + 64) fun s hb =>
      if tb = hb then (s, .empty)
      else
        let h := leNat hb
        let ra := c.ring + 128 + 32 * (h % 2 ^ c.ringn)
        step (s.vLoadN cl ctx ra 32 .load true) .load ra fun s b =>
        step (s.vAtomic cl ctx (c.ring + 64) (.cas 4 hb (leBytes 4 ((h + 1) % 2 ^ 32))) .atomic true) .atomic (c.ring + 64) fun s o =>
        if o.1 = hb then (s, .got b) else (s, .again)

/-- CRPOP of one lane (R343): the registers and the predicate change when it lands. -/
def crpopLane (d : BitVec 8) (p : Num4) (c : Cx) (tag : Nat) (s : State) (l : Nat) (fb : Fibre) : Except State LaneFx :=
  match s.myRope c.who with
  | none => .ok ⟨s, .fault fb (illegal .operand), 0⟩
  | some rp =>
    let fb' := fb.setPend ((List.range 8).map (d.toNat + ·))
    let fin := fun (s : State) (b : List Byte) => (.ok ⟨s.landLater c l tag (some (d.toNat, 8)) b (some (p, b ≠ [])) true, .ok fb', 1⟩ : Except State LaneFx)
    match s.ringPop c.who.core rp.ctx with
    | (s, .got b) => fin s b
    | (s, .empty) => fin s []
    | (s, .bad t) => .ok ⟨s, .fault fb t, 0⟩
    | (s, .again) => .error s

/-- CRPOP: its compare and swap is a release of system scope, so the lanes' earlier writes are waited for (R238, R343). -/
def execCrpop (g : Guard) (d : BitVec 8) (p : Num4) (s : State) : Host.Outcome State Fault Refusal :=
  let i := engIss g (useW 8 (some d))
  match s.cx? i.len with
  | none => s.noEvent
  | some c =>
    if s.stalls c i then .next s
    else
      match s.fenceTry ((c.set i).map c.who.lane) .sys with
      | (s, true) => issueTry i (crpopLane d p) s
      | (s, false) => .next s

/-- The barrier word that an instruction names for a lane, or the trap of its address (R344). -/
def State.barAt (s : State) (w : Who) (fb : Fibre) (b : Src) (up : BarUp) : Except Trap BarRef :=
  match s.myRope w with
  | none => .error (illegal .operand)
  | some rp =>
    match s.ropeField rp up.bo up.brope with
    | none => .error (illegal .operand)
    | some x =>
      let ea := fb.sea b up.off
      match scratchCheck x.spadA 16 ea with
      | some t => .error t
      | none => .ok ⟨x.id, ea.toNat⟩

/-- A barrier instruction of one lane: the word's place, then the effect. -/
def barLane (b : Src) (up : BarUp) (c : Cx) (s : State) (fb : Fibre) (f : BarRef → LaneFx) : LaneFx :=
  match s.barAt c.who fb b up with
  | .error t => ⟨s, .fault fb t, 0⟩
  | .ok r => f r

/-- BARI (R344). -/
def execBari (g : Guard) (b e : Src) (up : BarUp) (s : State) : Host.Outcome State Fault Refusal :=
  issueSt (engIss g (useS 1 b ++ useS 1 e))
    (fun c _ s _ fb => barLane b up c s fb fun r =>
      let q := fb.src .b32 e
      if 65536 ≤ q then ⟨s, .fault fb (illegal .operand), 0⟩
      else ⟨s.barUpdate r (fun _ => { gen := 0, err := false, bytes := 0, due := q, quota := q }), .ok (fb.seen s.gtime), 0⟩) s

/-- BARA: a release of coil scope (R241, R344). -/
def execBara (g : Guard) (d : BitVec 8) (b : Src) (up : BarUp) (s : State) : Host.Outcome State Fault Refusal :=
  issueSt { engIss g (useW 1 (some d) ++ useS 1 b) with rel := true }
    (fun c tag s l fb => barLane b up c s fb fun r =>
      let s := s.landLater c l tag (some (d.toNat, 1)) (leBytes 4 (s.barRead r).gen) none true
      ⟨s.barUpdate r BarWord.arrive, .ok ((fb.setPend [d.toNat]).seen s.gtime), 1⟩) s

/-- BAREX (R344). -/
def execBarex (g : Guard) (b n : Src) (up : BarUp) (s : State) : Host.Outcome State Fault Refusal :=
  issueSt (engIss g (useS 1 b ++ useS 1 n))
    (fun c _ s _ fb => barLane b up c s fb fun r =>
      let k := fb.src .b32 n
      if 2 ^ 23 ≤ k then ⟨s, .fault fb (illegal .operand), 0⟩
      else ⟨s.barUpdate r (fun w => w.add k), .ok (fb.seen s.gtime), 0⟩) s

/-- BARW: the fibre waits at the next header (R345). -/
def execBarw (g : Guard) (p : Num4) (b ph : Src) (up : BarUp) (s : State) : Host.Outcome State Fault Refusal :=
  issueSt (engIss g (useS 1 b ++ useS 1 ph))
    (fun c tag s l fb => barLane b up c s fb fun r =>
      ⟨s.landLater c l tag none [] none false, .ok { fb with wait := some (.bar r.rope r.off (fb.src .b32 ph % 65536) p) }, 1⟩) s

/-- TCFG (R316, R347). -/
def execTcfg (g : Guard) (m : BitVec 16) (a : Src) (s : State) : Host.Outcome State Fault Refusal :=
  issueSt (engIss g (useS 1 a))
    (fun c tag s l fb =>
      match s.myRope c.who with
      | none => ⟨s, .fault fb (illegal .operand), 0⟩
      | some rp =>
        let v := fb.src .b32 a
        let ts := setBits 16 m.toNat
        if ts.any fun t => decide (rp.ntiles ≤ t) || tcBad v then ⟨s, .fault fb (illegal .reserved), 0⟩
        else
          let s := ts.foldl (fun (s : State) t => s.setTc rp.id t (BitVec.ofNat 32 v)) s
          ⟨s.landLater c l tag none [] none true, .ok fb, 1⟩) s

/-- The placeholder of a wait ends: it is taken off the list and its flag falls (R341, R345). -/
def State.endWait (s : State) (l : LaneId) : State :=
  (s.accs.filter fun a => decide (a.lane = l ∧ a.kind = .land) && !a.done && a.wd.isNone).foldl
    (fun (s : State) a => (s.dropAcc a.id).dueDone (laneWho a.lane) a.tag) s

/-- A wait of TLWAIT or BARW that is satisfied now is over for its fibre (R341, R345). -/
def State.releaseLane (s : State) (r : RopeId) (sid l : Nat) : State :=
  let w : Who := .strand r sid
  let f := s.fibre w l
  match f.wait with
  | some (.tl tl n) =>
    if (((s.rope? r).map fun (rp : Rope) => rp.tl tl).getD ⟨0, 0, []⟩).reached n then
      (s.setFibre w l { f with wait := none }).endWait ⟨r, sid, l⟩
    else s
  | some (.bar br off ph _pd) =>
    -- the path goes on where the words of all its fibres have moved on, and each reads its ERR bit then (R345)
    let passed := fun (k : Nat) => match (s.fibre w k).wait with
      | some (.bar b o p _) => decide ((s.barRead ⟨b, o⟩).gen ≠ p)
      | _ => true
    if (s.barRead ⟨br, off⟩).gen ≠ ph ∧ ((s.strand w).mates l).all passed then
      ((s.strand w).mates l).foldl (fun (s : State) k =>
        match (s.fibre w k).wait with
        | some (.bar b o _ q) => (s.setFibre w k ({ s.fibre w k with wait := none }.setPred q (s.barRead ⟨b, o⟩).err)).endWait ⟨r, sid, k⟩
        | _ => s) s
    else s
  | _ => s

end Sys2Proof.Machine
end

