-- ==== Sys2Proof/Machine/Sync.lean ====
section
/-! DEFINITION. Fibres that are made and that end, ties and hardware barriers as instructions reach them, and sleeping on a word
(R148, R149, R157 to R160, R170, R172, R173, R181 to R185). -/

namespace Sys2Proof.Machine

/-! ### Hardware barriers (R159, R183, R184) -/

/-- FIDs of the fibres, live or parked, of the strands in a mask (R159). -/
def Rope.fidsIn (r : Rope) (mask : Nat) : List Nat :=
  (List.range (32 * r.strands.length)).filter fun f =>
    bit mask (f / 32) && decide (((r.strands.getD (f / 32) Strand.init).fibre (f % 32)).st ≠ .empty)

/-- A round begins: its expected set is fixed (R159). -/
def Rope.openRound (r : Rope) (h : Hbar) (mask : Nat) : Hbar :=
  { h with opened := true, mask := mask, expected := r.fidsIn mask, arrived := [], band := true, bor := false, want := [] }

/-- An arrival at an open round: it counts, or it is deferred to the next round; none: its mask differs (R159, R183). -/
def Hbar.arrive (h : Hbar) (fid : Nat) (m : HbarMode) (mask : Nat) (pd : Num4) (b : Bool) : Option Hbar :=
  if !h.expected.contains fid || h.arrived.contains fid then
    if h.nextMask.isSome && h.nextMask != some mask then none
    else some { h with nextMask := some mask, defer := h.defer ++ [(fid, m, pd, b)] }
  else if mask ≠ h.mask then none
  else some { h with arrived := h.arrived ++ [fid], want := h.want ++ [(fid, m, pd, b)],
                     band := h.band && (m == .plain || b), bor := h.bor || (m != .plain && b) }

/-- A barrier of a rope replaced. -/
def State.setHbar (s : State) (r : RopeId) (k : Nat) (h : Hbar) : State :=
  match s.rope? r with
  | some rp => s.setRope { rp with hbars := rp.hbars.set k h }
  | none => s

/-- A barrier of a rope. -/
def State.hbar (s : State) (r : RopeId) (k : Nat) : Hbar := ((s.rope? r).bind fun rp => rp.hbars[k]?).getD Hbar.init

/-- A fibre waiting at a barrier goes on, with its predicate (R184); one that a signal's handler keeps, when it is back. -/
def State.freeHbar (s : State) (r : RopeId) (k : Nat) (q : Nat × HbarMode × Num4 × Bool) (band bor : Bool) : State :=
  let w : Who := .strand r (q.1 / 32)
  let is := fun (w : Wait) => match w with
    | .hbar b _ => b == k
    | _ => false
  s.setFibre w (q.1 % 32) ((s.fibre w (q.1 % 32)).release is (match q.2.1 with
    | .plain => none
    | .and => some (q.2.2.1, band)
    | .or => some (q.2.2.1, bor)) none)

/-- The deferred arrivals begin the next round under their recorded mask, in ascending FID order. A round that expects nobody is
complete at once and releases them, with 1 under .and and 0 under .or (R183, R184). -/
def State.nextRound (s : State) (r : RopeId) (k : Nat) (h : Hbar) : State :=
  match h.defer, h.nextMask, s.rope? r with
  | [], _, _ | _, none, _ | _, _, none => s.setHbar r k Hbar.init
  | ds, some mask, some rp =>
    let h1 := rp.openRound { Hbar.init with nextMask := none } mask
    if h1.expected = [] then
      ds.foldl (fun (s : State) d => s.freeHbar r k d true false) (s.setHbar r k Hbar.init)
    else s.setHbar r k ((sortBy Prod.fst ds).foldl (fun (h : Hbar) d => (h.arrive d.1 d.2.1 mask d.2.2.1 d.2.2.2).getD h) h1)

/-- A round completes where every expected fibre has arrived: it releases its arrivals at once (R159, R184). -/
def State.hbarCheck : Nat → RopeId → Nat → State → State
  | 0, _, _, s => s
  | n + 1, r, k, s =>
    let h := s.hbar r k
    if h.opened ∧ h.expected.all h.arrived.contains then
      let s := h.want.foldl (fun (s : State) q => s.freeHbar r k q h.band h.bor) s
      State.hbarCheck n r k (s.nextRound r k h)
    else s

/-! ### Fibres that end (R149) -/

/-- The ended fibre leaves a tie's expected set, which may complete the round (R149, R158). -/
def State.leaveTie (s : State) (r : RopeId) (k fid : Nat) : State :=
  let t := s.tie r k
  let t' := { t with second := t.second.filter fun q => decide (q.fid ≠ fid) }
  if t.expected.contains fid then
    (s.setTie r k { t' with expected := t'.expected.filter (· ≠ fid), signed := t'.signed.filter (· ≠ fid) }).tieCheck r k
  else s.setTie r k t'

/-- The ended fibre leaves a barrier's round, which may complete it (R149, R159). -/
def State.leaveHbar (s : State) (r : RopeId) (k fid : Nat) : State :=
  let h := s.hbar r k
  let d := h.defer.filter fun q => decide (q.1 ≠ fid)
  let h := { h with expected := h.expected.filter (· ≠ fid), arrived := h.arrived.filter (· ≠ fid),
                    want := h.want.filter (fun q => decide (q.1 ≠ fid)), defer := d, nextMask := if d = [] then none else h.nextMask }
  (s.setHbar r k h).hbarCheck 4 r k

/-- A lane taken out of the replay entries and parks that hold it; an entry left without lanes is freed. -/
def State.dropEntry (s : State) (l : LaneId) : State :=
  let s := s.unpark l
  let c := s.core l.rope.core
  let cut := fun (e : Entry) => if e.rope = l.rope ∧ e.sid = l.sid ∧ e.op = none then
      { e with fmask := e.fmask &&& ~~~(1#32 <<< l.lane), lanes := e.lanes.filter fun b => decide (b.lane ≠ l.lane) } else e
  s.setCore { c with rq := (c.rq.map cut).filter fun e => decide (e.fmask ≠ 0) || e.op.isSome }

/-- A fibre ends or is killed (R149, R173): its held stores are released, or discarded where it is killed; results still due are
discarded; it leaves its path, its slot, and every tie and barrier. -/
def State.endFibre (s : State) (r : RopeId) (sid l : Nat) (killed : Bool) : State :=
  let w : Who := .strand r sid
  let id : LaneId := ⟨r, sid, l⟩
  let fid := sid * 32 + l
  let s := if killed then s.dropHeld id
    else { s with accs := s.accs.map fun (a : Access) => if a.lane = id then { a with sq := none } else a }
  let s := ((s.endWait id).voidLoads id).dropEntry id
  let s := match s.rope? r with
    | some rp => s.setRope { rp with vis := max rp.vis (s.fibre w l).vis }
    | none => s
  let st := (s.strand w).leave (maskOfLanes [l])
  let s := s.setStrand w (st.setFibre l Fibre.vacant)
  let s := (List.range 16).foldl (fun (s : State) k => s.leaveTie r k fid) s
  (List.range 16).foldl (fun (s : State) k => s.leaveHbar r k fid) s

/-- END of one lane (R173). -/
def endLane (c : Cx) (s : State) (l : Nat) (fb : Fibre) : LaneFx :=
  match c.who with
  | .strand r sid => ⟨s.endFibre r sid l false, .ok Fibre.vacant, 0⟩
  | .sup _ => ⟨s, .fault fb (illegal .operand), 0⟩

/-- END: it waits until the earlier operations of its fibres are translated (R173). -/
def execFend (g : Guard) (s : State) : Host.Outcome State Fault Refusal :=
  issueSt { len := 8, g := g, uses := [], commit := true, rope := true } (fun c _ s l fb => endLane c s l fb) s

/-! ### FORK (R172) -/

/-- A child of FORK. -/
def childOf (size : Nat) (target : DWord) (a : Nat) (fid : Nat) (p : Fibre) : Fibre :=
  { ((Fibre.start size target).setReg 0 a).setReg 1 fid with fpctl := p.fpctl, intctl := p.intctl }

/-- The lowest empty slots of a rope, as FIDs. -/
def Rope.emptySlots (r : Rope) (k : Nat) : List Nat :=
  ((List.range (32 * r.strands.length)).filter fun f => decide (((r.strands.getD (f / 32) Strand.init).fibre (f % 32)).st = .empty)).take k

/-- FORK of one lane: the children stand in their slots; their paths are formed when the word is done with. -/
def forkLane (d : Dst) (n a : Src) (off : BitVec 32) (c : Cx) (s : State) (l : Nat) (fb : Fibre) : Except State LaneFx :=
  match c.who with
  | .sup _ => .ok ⟨s, .fault fb (illegal .operand), 0⟩
  | .strand r sid =>
    let t := c.rel off
    match s.target c.who t with
    | (t, .retry) => .error (s.unspent t)
    | (s, .notHeader) => .ok ⟨s, .fault fb (illegal .target), 0⟩
    | (s, .flt cl i) => .ok ⟨s, .fault fb ⟨cl, .at, i, t, false⟩, 0⟩
    | (s, .header) =>
      match s.rope? r with
      | none => .ok ⟨s, .fault fb (illegal .operand), 0⟩
      | some rp =>
        let slots := rp.emptySlots (min (fb.src (.i .ui32) n) 32)
        let child := childOf rp.size t (fb.src .b32 a) (sid * 32 + l) fb
        let s := slots.foldl (fun (s : State) f => s.setFibre (.strand r (f / 32)) (f % 32) child) s
        .ok ⟨s, .ok (fb.dst false d (slots.headD 0xFFFF * 65536 + slots.length)), 0⟩

/-- The children that one FORK made in a strand form one path at the target (R152, R172). -/
def State.placeChildren (t s : State) (r : RopeId) (pc : DWord) : State :=
  match s.rope? r with
  | none => t
  | some rp =>
    (List.range rp.strands.length).foldl (fun (t : State) (sid : Nat) =>
      let w : Who := .strand r sid
      let new := (List.range 32).filter fun l => decide ((s.fibre w l).st = .empty ∧ (t.fibre w l).st = .live)
      if new = [] then t else t.setStrand w ((t.strand w).addPath ⟨maskOfLanes new, pc, 0, false, none⟩)) t

/-- FORK (R172). -/
def execFork (g : Guard) (d : Dst) (n a : Src) (off : BitVec 32) (s : State) : Host.Outcome State Fault Refusal :=
  let i : Iss := { len := 12, g := g, uses := useD 1 d ++ useS 1 n ++ useS 1 a, commit := true, rope := true }
  match s.cx? i.len, issueTry i (fun c _ => forkLane d n a off c) s with
  | some c, .next t => match c.who with
    | .strand r _ => .next (t.placeChildren s r (c.rel off))
    | .sup _ => .next t
  | _, r => r

/-! ### Ties (R181, R182) -/

/-- The expected set of a TIEDEF, from the fibres that are live or parked (R181). -/
def Rope.tieSet (r : Rope) (f : Fibre) (set : TieSet) : List Nat :=
  let all := r.fidsIn (2 ^ 32 - 1)
  match set with
  | .rng a b => all.filter fun x => decide (f.src (.i .ui32) a ≤ x ∧ x ≤ f.src (.i .ui32) b)
  | .lanes st m => all.filter fun x => decide (x / 32 = f.src (.i .ui32) st) && bit (f.src .b32 m) (x % 32)

/-- TIEDEF's effect (R181): the set fixed, a pending operation cancelled, second signatures counted towards the new round. -/
def State.tieDefine (s : State) (r : RopeId) (k : Nat) (expected : List Nat) : State :=
  let t := s.tie r k
  let s := s.setTie r k { expected := expected, signed := [], seeds := [], pending := none, second := [] }
  let s := match t.pending, s.rope? r with
    | some p, some rp => s.cancelPending rp p
    | _, _ => s
  t.second.foldl (fun (s : State) q =>
    match s.resign r k q with
    | (s, true) => s.tieCheck r k
    | (s, false) => s) s

/-- TIEDEF: the operands of the lowest executing lane take effect (R181). -/
def execTiedef (g : Guard) (k : Num4) (set : TieSet) (s : State) : Host.Outcome State Fault Refusal :=
  let (x, y) := match set with
    | .rng a b => (a, b)
    | .lanes a b => (a, b)
  let i : Iss := { len := (immUp [x, y]).len, g := g, uses := useS 1 x ++ useS 1 y, rope := true }
  issueSt i (fun c _ s l fb =>
    match c.who with
    | .sup _ => ⟨s, .fault fb (illegal .operand), 0⟩
    | .strand r _ =>
      if (listMin (c.set i)) = some l then ⟨s.tieDefine r k.toNat (((s.rope? r).map fun rp => rp.tieSet fb set).getD []), .ok fb, 0⟩
      else ⟨s, .ok fb, 0⟩) s

/-- TIESGN of one lane (R182). It adds nothing to the lane's stochastic count, whatever operation the round issues (R52; log 28). -/
def tiesgnLane (i : Iss) (k : Num4) (c : Cx) (tag : Nat) (s : State) (l : Nat) (fb : Fibre) : LaneFx :=
  match c.who with
  | .sup _ => ⟨s, .fault fb (illegal .operand), 0⟩
  | .strand r sid =>
    let fid := sid * 32 + l
    match s.tieSign r k.toNat fid none fb tag with
    | (s, .trap t) => ⟨s, .fault fb t, 0⟩
    | (s, .second) => ⟨s.holdSecond r k.toNat fid none c (c.flag i) fb, .ok { fb with wait := some (.tie k.toNat) }, 0⟩
    | (s, _) => ⟨s.tieCheck r k.toNat, .ok fb, 0⟩

/-- TIESGN (R182). -/
def execTiesgn (g : Guard) (k : Num4) (s : State) : Host.Outcome State Fault Refusal :=
  let i : Iss := { len := 8, g := g, uses := [], commit := true, rope := true, access := true }
  issueSt i (tiesgnLane i k) s

/-! ### HBAR (R183, R184) -/

/-- HBAR of one lane (R159, R183). -/
def hbarLane (m : HbarMode) (b : Num4) (mask : Src) (pd ps : Num4) (c : Cx) (s : State) (l : Nat) (fb : Fibre) : LaneFx :=
  match c.who with
  | .sup _ => ⟨s, .fault fb (illegal .operand), 0⟩
  | .strand r sid =>
    match s.rope? r with
    | none => ⟨s, .fault fb (illegal .operand), 0⟩
    | some rp =>
      let lead := c.st.fibre ((lanesOf c.path.mask).headD 0)
      let mk := lead.src .b32 mask % 2 ^ rp.strands.length
      let h := s.hbar r b.toNat
      let h := if h.opened then h else rp.openRound h mk
      match h.arrive (sid * 32 + l) m mk pd (fb.pred ps) with
      | none => ⟨s, .fault fb (illegal .operand), 0⟩
      | some h =>
        let s := s.setFibre c.who l { fb with wait := some (.hbar b.toNat (if m = .plain then none else some pd)) }
        let s := (s.setHbar r b.toNat h).hbarCheck 4 r b.toNat
        ⟨s, .ok (s.fibre c.who l), 0⟩

/-- HBAR: each arrival is a rope-scope release of the fibre's earlier accesses (R160, R183). -/
def execHbar (g : Guard) (m : HbarMode) (b : Num4) (mask : Src) (pd ps : Num4) (s : State) : Host.Outcome State Fault Refusal :=
  issueSt { len := 8, g := g, uses := useS 1 mask, commit := true, rope := true, access := true, rel := true }
    (fun c _ => hbarLane m b mask pd ps c) s

/-! ### NSLEEP (R185) -/

/-- A device-scope load of a fibre, made in one step: from its cluster's copy where that serves it, else at the line's home; its own
earlier stores stand in the result (R32, R249). -/
def State.fibreLoad (s : State) (l : LaneId) (ctx va n : Nat) : State × VRes (List Byte) :=
  let c := clusterOf l.rope.core
  match (s.as (.lane l (s.fibre (laneWho l) l.lane).issued)).translate c ctx va .load true with
  | (s, .bad e) => (s, .bad e)
  | (s, .retry) => (s, .retry)
  | (s, .ok x) =>
    let a : Access := { accOf l ctx va n (.ld .b32) 0 0 with id := s.nextId }
    match (if (s.window? x.cctx x.cva).isSome || s.isDirect x false || (s.watch? x.line).isSome then none else s.hit? c x.line (a.mask x)) with
    | some cp => (s, .ok (s.overlay a ((cp.data.drop (x.cva % 128)).take n)))
    | none => match s.mLoad x n .load (.dev c) with
      | some (s, b) => (s, .ok (s.overlay a b))
      | none => (s.chase x n .load [] none (.dev c), .retry)

/-- NSLEEP of one lane: checked and translated at issue, then asleep (R185). -/
def nsleepLane (pd : Num4) (a v t : Src) (c : Cx) (s : State) (l : Nat) (fb : Fibre) : Except State LaneFx :=
  let ea := fb.src .b64 a
  let z := fb.src .b32 v
  let dt := fb.src (.i .ui32) t
  match globalCheck .load 4 ea with
  | some e => .ok ⟨s, .fault fb e, 0⟩
  | none =>
    let asleep := Wait.sleep (BitVec.ofNat 64 ea) (BitVec.ofNat 32 z) (if dt = 2 ^ 32 - 1 then none else some (s.gtime + dt)) pd c.ip c.cl.hpc
    match s.ctxOf c.who with
    | none => .ok ⟨s, .ok { fb with wait := some asleep }, 0⟩
    | some ctx =>
      match s.early { accOf (c.who.lane l) ctx ea 4 (.ld .b32) c.ip c.cl.hpc with scope := .dev } true with
      | (s, .bad e) => .ok ⟨s, .fault fb (xlateTrap e .load ea), 0⟩
      | (s, .retry) => .error s
      | (s, .ok _) => .ok ⟨s, .ok { fb with wait := some asleep }, 0⟩

/-- NSLEEP (R185). -/
def execNsleep (g : Guard) (pd : Num4) (a v t : Src) (s : State) : Host.Outcome State Fault Refusal :=
  issueTry { len := (immUp [a, v, t]).len, g := g, uses := useS 2 a ++ useS 1 v ++ useS 1 t, access := true }
    (fun c _ => nsleepLane pd a v t c) s

/-- One turn of a sleeping fibre's loop (R185). -/
def State.sleepTest (s : State) (l : LaneId) (a : DWord) (v : Word) (deadline : Option Nat) (pd : Num4) (ip hpc : DWord) : State :=
  let w := laneWho l
  let wake := fun (s : State) (p : Bool) => s.setFibre w l.lane { (s.fibre w l.lane).setPred pd p with wait := none }
  let test := fun (s : State) (b : List Byte) =>
    if leNat b ≠ v.toNat then wake s true
    else if (deadline.map fun d => decide (d ≤ s.gtime)).getD false || (s.fibre w l.lane).sel.isSome then wake s false
    else s
  match s.ctxOf w with
  | none => test s (cellsRead s.svMem a.toNat 4)
  | some ctx =>
    match s.fibreLoad l ctx a.toNat 4 with
    | (s, .ok b) => test s b
    | (s, .retry) => s
    | (s, .bad e) => s.park w [l.lane] (xlateTrap e .load a.toNat) ip ip hpc

/-- NSLEEP_RETEST: the word is tested again (R185). -/
def execNsleepRetest (l : LaneId) (s : State) : Host.Outcome State Fault Refusal :=
  match (s.fibre (laneWho l) l.lane).wait with
  | some (.sleep a v d pd ip hpc) => .next (s.sleepTest l a v d pd ip hpc)
  | _ => s.noEvent

/-- NSLEEP_DEADLINE: the fibre's deadline has passed (R185). -/
def execNsleepDeadline (l : LaneId) (s : State) : Host.Outcome State Fault Refusal :=
  match (s.fibre (laneWho l) l.lane).wait with
  | some (.sleep a v (some d) pd ip hpc) => if d ≤ s.gtime then .next (s.sleepTest l a v (some d) pd ip hpc) else s.noEvent
  | _ => s.noEvent

end Sys2Proof.Machine
end

