-- ==== Sys2Proof/Machine/Grid.lean ====
section
/-! DEFINITION. Grid objects and the halo engine: group 13 and the events of halo operations (R481 to R500). -/

namespace Sys2Proof.Machine

/-! ### Geometry (R481 to R484) -/

/-- The fields of a grid descriptor (R481). -/
structure Geo where
  ext    : List Nat
  parts  : List Nat
  k      : Nat
  r      : Nat
  planes : Nat
  fmt    : Nat
  stale  : Bool
  bound  : List Nat
  bconst : Nat
  mapVa  : Nat
  rsv    : Bool
  deriving DecidableEq, Repr

/-- A descriptor from its 128 bytes (R481). -/
def geoOf (b : List Byte) : Geo :=
  let v := leNat b
  { ext := (List.range 3).map fun d => bits v (64 + 32 * d) 32
    parts := (List.range 3).map fun d => bits v (160 + 8 * d) 8
    k := bits v 196 4
    r := bits v 192 4
    planes := bits v 200 4
    fmt := bits v 184 5
    stale := bit v 204
    bound := (List.range 6).map fun f => bits v (208 + 3 * f) 3
    bconst := bits v 256 64
    mapVa := bits v 0 64
    rsv := bits v 320 704 != 0 || bits v 226 30 != 0 || bits v 205 3 != 0 || bits v 189 3 != 0 }

/-- Dimension d is active (R482). -/
def Geo.act (g : Geo) (d : Nat) : Bool := decide (1 < getAt g.ext d)
/-- Halo width of a dimension (R482). -/
def Geo.h (g : Geo) (d : Nat) : Nat := if g.act d then g.k * g.r else 0
/-- Partition extent of a dimension (R482). -/
def Geo.e (g : Geo) (d : Nat) : Nat := getAt g.ext d / getAt g.parts d
/-- Padded extent (R484). -/
def Geo.pad (g : Geo) (d : Nat) : Nat := g.e d + 2 * g.h d
/-- Bytes of an element. -/
def Geo.size (g : Geo) : Nat := fmtBytes g.fmt
/-- Number of partitions. -/
def Geo.count (g : Geo) : Nat := getAt g.parts 0 * getAt g.parts 1 * getAt g.parts 2
/-- Bytes of a partition's storage (R484). -/
def Geo.span (g : Geo) : Nat := g.planes * g.pad 2 * g.pad 1 * g.pad 0 * g.size
/-- Face f exists (R482). -/
def Geo.face (g : Geo) (f : Nat) : Bool := decide (f < 6) && g.act (f / 2)
/-- The existing faces. -/
def Geo.faces (g : Geo) : List Nat := (List.range 6).filter g.face

/-- Coordinate of partition q in dimension d (R482). -/
def Geo.qc (g : Geo) (q d : Nat) : Nat :=
  match d with
  | 0 => q % getAt g.parts 0
  | 1 => q / getAt g.parts 0 % getAt g.parts 1
  | _ => q / (getAt g.parts 0 * getAt g.parts 1)

/-- What the partition number grows by per step in dimension d (R482). -/
def Geo.qstep (g : Geo) (d : Nat) : Nat :=
  match d with
  | 0 => 1
  | 1 => getAt g.parts 0
  | _ => getAt g.parts 0 * getAt g.parts 1

/-- The partition across face f of partition q; none for an edge face (R482). -/
def Geo.neigh (g : Geo) (q f : Nat) : Option Nat :=
  let d := f / 2
  let n := getAt g.parts d
  let x := g.qc q d
  let base := q - x * g.qstep d
  let wrapped := getAt g.bound f == 1
  if f % 2 = 1 then
    if x + 1 < n then some (q + g.qstep d) else if wrapped then some base else none
  else if 0 < x then some (q - g.qstep d) else if wrapped then some (base + (n - 1) * g.qstep d) else none

/-- The face opposite to f. -/
def opposite (f : Nat) : Nat := if f % 2 = 0 then f + 1 else f - 1

/-- Address of a cell of step t in storage at `base` (R484). -/
def Geo.addr (g : Geo) (base : Nat) (t : Word) (x : Nat → Int) : Nat :=
  let p := t.toNat % g.planes
  let c := fun (d : Nat) => (x d + g.h d).toNat
  base + g.size * (((p * g.pad 2 + c 2) * g.pad 1 + c 1) * g.pad 0 + c 0)

/-- A coordinate lies inside the padded range (R487). -/
def Geo.inPad (g : Geo) (d : Nat) (x : Int) : Bool := decide (-(g.h d : Int) ≤ x ∧ x < (g.e d : Int) + g.h d)

/-- The faces a cell lies beyond (R484). -/
def Geo.beyond (g : Geo) (x : Nat → Int) : List Nat :=
  (List.range 3).flatMap fun d => if x d < 0 then [2 * d] else if (g.e d : Int) ≤ x d then [2 * d + 1] else []

/-- Before of R485. -/
def before (a b : Word) : Bool := decide (1 ≤ (b - a).toNat ∧ (b - a).toNat < 2 ^ 31)
/-- The later of two steps, in the order of Before. -/
def laterOf (a b : Word) : Word := if before a b then b else a
/-- Step s is an exchange step (R485). -/
def Grid.exchange (gr : Grid) (g : Geo) (s : Word) : Bool := decide ((s - gr.s0).toNat % g.k = 0)

/-! ### Grids of a context -/

/-- The geometry of a grid. -/
def Grid.geo (gr : Grid) : Geo := geoOf gr.bytes
/-- Storage of a partition (R483). -/
def Grid.base (gr : Grid) (q : Nat) : Nat := (gr.map.getD q (0, 0)).2
/-- Peer of a partition (R483). -/
def Grid.peer (gr : Grid) (q : Nat) : Nat := (gr.map.getD q (0, 0)).1

/-- A registered grid. -/
def State.grid? (s : State) (ctx slot : Nat) : Option Grid := (s.ctx? ctx).bind fun c => lookupBy Grid.slot slot c.grids
/-- A grid replaced or added. -/
def State.setGrid (s : State) (ctx : Nat) (g : Grid) : State :=
  match s.ctx? ctx with
  | some c => s.setCtx { c with grids := upsert Grid.slot g c.grids }
  | none => s
/-- A hosted partition's state. -/
def Grid.part? (g : Grid) (q : Nat) : Option GridPart := (lookupBy Prod.fst q g.parts).map Prod.snd
/-- A hosted partition's state replaced. -/
def Grid.setPart (g : Grid) (q : Nat) (p : GridPart) : Grid := { g with parts := upsert Prod.fst (q, p) g.parts }
/-- vt of a face. -/
def GridPart.vtOf (p : GridPart) (f : Nat) : Word := p.vt.getD f 0
/-- eb of a face. -/
def GridPart.ebOf (p : GridPart) (f : Nat) : Word := p.eb.getD f 0

/-- vt of a face raised to a step at least (R492). -/
def State.raiseVt (s : State) (ctx slot q f : Nat) (t : Word) : State :=
  match s.grid? ctx slot with
  | none => s
  | some g => match g.part? q with
    | none => s
    | some p => s.setGrid ctx (g.setPart q { p with vt := p.vt.set f (laterOf (p.vtOf f) t) })

/-- The halo operation of an engine operation. -/
def Op.halo? (o : Op) : Option HaloOp :=
  match o.kind with
  | .halo h => some h
  | _ => none

/-- Halo operations of a grid that are not complete. -/
def State.haloOps (s : State) (ctx slot : Nat) : List Op :=
  s.ops.filter fun o => decide (o.ctx = ctx) && (o.halo?.map fun h => decide (h.slot = slot)).getD false

/-! ### Chip groups of a launch (R186, R198, R199) -/

/-- The chip group of the launch a rope or operation belongs to. -/
def State.launchChips (s : State) (ctx qent : Nat) : Nat :=
  match (s.ctx? ctx).bind fun c => lookupBy Launch.q qent c.queue with
  | some l => bits (leNat l.packet) 224 16
  | none => 0

/-- Members of that group: peer and context there. -/
def State.members (s : State) (ctx qent : Nat) : List (Nat × Nat) :=
  ((lookupBy Group.no (s.launchChips ctx qent) s.groups).map Group.members).getD []

/-! ### GDEF (R488) -/

/-- What GDEF's checks end in. -/
inductive DefRes where
  | status (n : Nat)
  | fault (t : Trap)
  | retry
  | ok (g : Grid)
  deriving DecidableEq, Repr

/-- BADDESC of R488, for the record's contents. -/
def Geo.badDesc (g : Geo) : Bool :=
  g.rsv || !([0, 1, 2, 3, 16].contains g.fmt) || decide (g.r = 0 ∨ g.k = 0 ∨ 8 < g.k ∨ g.planes < g.k + 1)

/-- BADSHAPE of R488. An extent or a partition count of 0 counts as one (log 60). -/
def Geo.badShape (g : Geo) : Bool :=
  (List.range 3).any (fun d =>
    let x := getAt g.ext d
    let p := getAt g.parts d
    decide (x = 0 ∨ p = 0 ∨ x % p ≠ 0 ∨ (x = 1 ∧ p ≠ 1)) ||
      (g.act d && (decide (g.e d < g.h d) ||
        ((getAt g.bound (2 * d) == 2 || getAt g.bound (2 * d + 1) == 2) && decide (g.e d < g.h d + 1))))) ||
    decide (4096 < g.count)

/-- BADBOUND of R488. -/
def Geo.badBound (g : Geo) : Bool :=
  g.bound.any (fun r => decide (4 < r)) ||
    (List.range 3).any fun d => g.act d && ((getAt g.bound (2 * d) == 1) != (getAt g.bound (2 * d + 1) == 1))

/-- Every page of a stretch is present and writable (R488). -/
def State.writable (s : State) (ctx va n : Nat) : Bool :=
  (List.range ((va + n - 1) / 65536 + 1 - va / 65536)).all fun i =>
    match s.leafAt ctx (va / 65536 + i) with
    | some (_, big, e) => pteBit e 0 && leafOk e big && pteBit e 3
    | none => false

/-- A descriptor read or its map read fails. -/
def readFail {α : Type} (va : Nat) : VRes α → DefRes
  | .bad c => .fault (xlateTrap c .load va)
  | _ => .retry

/-- The checks of GDEF in the order of R488. -/
def State.gdefCheck (s : State) (r : Rope) (slot a : Nat) (s0 : Word) : State × DefRes :=
  match s.grid? r.ctx slot with
  | some g => (s, .status (if g.desc = a then 0 else 1))
  | none =>
    let cl := clusterOf r.id.core
    if a % 8 ≠ 0 then (s, .status 2)
    else if 2 ^ 54 ≤ a + 127 then (s, .fault (rangeTrap .load a))
    else
      match s.vLoadN cl r.ctx a 128 .load true with
      | (s, .ok b) =>
        let g := geoOf b
        if g.badDesc then (s, .status 2)
        else if g.badShape then (s, .status 3)
        else if g.badBound then (s, .status 4)
        else if g.mapVa % 16 ≠ 0 then (s, .status 5)
        else if 2 ^ 54 < g.mapVa + 16 * g.count then (s, .fault (rangeTrap .load g.mapVa))
        else
          match s.vLoadN cl r.ctx g.mapVa (16 * g.count) .load true with
          | (s, .ok mb) =>
            let es := (List.range g.count).map fun q => leNat ((mb.drop (16 * q)).take 16)
            let peers := s.chip :: (s.members r.ctx r.qent).map Prod.fst
            let mp := es.map fun e => (bits e 64 18, bits e 0 64)
            let mine := (mp.zipIdx.filter fun q => decide (q.1.1 = s.chip)).map fun q => (q.2, q.1.2)
            if es.any (fun e => bits e 82 46 != 0) || mp.any (fun e => !peers.contains e.1 || e.2 % 128 != 0) ||
                mine.any (fun q => !s.writable r.ctx q.2 g.span) then (s, .status 5)
            else
              let ps : List (Nat × GridPart) := mine.map fun q => (q.1, { c := s0 - 1, vt := List.replicate 6 (s0 - 1),
                                                                          eb := List.replicate 6 s0, rope := none })
              (s, .ok { slot := slot, desc := a, bytes := b, map := mp, s0 := s0, parts := ps, known := [] })
          | (s, e) => (s, readFail g.mapVa e)
      | (s, e) => (s, readFail a e)

/-- GDEF of one lane (R488): the status lands later; .del waits for the grid's halo operations. -/
def gdefLane (d : BitVec 8) (slot : BitVec 6) (op : GdefOp) (c : Cx) (tag : Nat) (s : State) (l : Nat) (fb : Fibre) : Except State LaneFx :=
  match s.myRope c.who with
  | none => .ok ⟨s, .fault fb (illegal .operand), 0⟩
  | some r =>
    let fb' := fb.setPend [d.toNat]
    let fin := fun (s : State) (n : Nat) => (.ok ⟨s.landLater c l tag (some (d.toNat, 1)) (leBytes 4 n) none true, .ok fb', 1⟩ : Except State LaneFx)
    match op with
    | .del =>
      if (s.grid? r.ctx slot.toNat).isNone then fin s 6
      else .ok ⟨s.newAcc { accOf (c.who.lane l) r.ctx slot.toNat 0 .land c.ip c.cl.hpc with wd := some (d.toNat, 1), tag := some tag },
                .ok fb', 1⟩
    | .define a s0 =>
      match s.gdefCheck r slot.toNat (fb.src .b64 a) (BitVec.ofNat 32 (fb.src .b32 s0)) with
      | (s, .status n) => fin s n
      | (s, .fault t) => .ok ⟨s, .fault fb t, 0⟩
      | (t, .retry) => .error (s.unspent t)
      | (s, .ok g) => fin (s.setGrid r.ctx g) 0

/-- GDEF (R488). -/
def execGdef (g : Guard) (d : BitVec 8) (slot : BitVec 6) (op : GdefOp) (s : State) : Host.Outcome State Fault Refusal :=
  issueTry (engIss g (useW 1 (some d) ++ match op with
    | .define a s0 => useS 2 a ++ useS 1 s0
    | .del => [])) (gdefLane d slot op) s

/-- A GDEF.del whose grid has no halo operation left: the slot is emptied and the status lands (R488). -/
def State.gridDeletes (s : State) : State :=
  (s.accs.filter fun a => a.kind == .land && !a.done && a.wd.isSome).foldl (fun (s : State) a =>
    if (s.haloOps a.ctx a.va).isEmpty then
      let n := if (s.grid? a.ctx a.va).isSome then 0 else 6
      let s := match s.ctx? a.ctx with
        | some c => s.setCtx { c with grids := eraseBy Grid.slot a.va c.grids }
        | none => s
      s.setAcc { a with done := true, data := leBytes 4 n }
    else s) s

/-! ### GLD, GST (R487, R489, R490) -/

/-- The grid and hosted partition an instruction names, or cause 7 (R487). -/
def State.gridFor (s : State) (w : Who) (slot : BitVec 6) (q : Nat) : Except Trap (Rope × Grid × GridPart) :=
  match s.myRope w with
  | none => .error (illegal .operand)
  | some r =>
    match s.grid? r.ctx slot.toNat with
    | none => .error (illegal .operand)
    | some g => match g.part? q with
      | none => .error (illegal .operand)
      | some p => .ok (r, g, p)

/-- A pair that FP64 needs: an even window pair inside the window, or an even near pair (R487). -/
def cellPairBad (win : Nat) (x : Src) : Bool :=
  match x with
  | .w i => decide (i.toNat % 2 ≠ 0 ∨ win ≤ i.toNat + 1)
  | .n i => decide (i.toNat % 2 ≠ 0)
  | _ => true

/-- A HALO fault at a cell (R487). -/
def haloTrap (va : Nat) : Trap := ⟨.halo, .at, 0, BitVec.ofNat 64 va, false⟩

/-- What the checks of a grid access end in: a trap, a stall at a stale face, or the cell. -/
inductive CellRes where
  | trap (t : Trap)
  | stale
  | cell (ctx va size : Nat) (ghost : Bool)
  deriving DecidableEq, Repr

/-- The coordinates and step of a quad (R486). -/
def quadCoord (v : List Int) : (Nat → Int) × Word := (fun d => v.getD d 0, BitVec.ofInt 32 (v.getD 3 0))

/-- The face tests of GLD in the order of R489. -/
def faceTest (g : Geo) (p : GridPart) (t : Word) (a : Nat) : List Nat → Option CellRes
  | [] => none
  | f :: fs =>
    if before t (p.ebOf f) then some (.trap (haloTrap a))
    else if before (p.vtOf f) t then (if g.stale then some (.trap (haloTrap a)) else some .stale)
    else faceTest g p t a fs

/-- The checks of GLD (R487, R489). -/
def State.gldCheck (s : State) (w : Who) (slot : BitVec 6) (d : BitVec 8) (q c : Src) (fb : Fibre) : CellRes :=
  let qn := fb.src .b32 q
  match s.gridFor w slot qn with
  | .error t => .trap t
  | .ok (r, gr, p) =>
    let g := gr.geo
    let (x, t) := quadCoord (fb.quad c)
    if g.size = 8 ∧ cellPairBad fb.win.length (.w d) then .trap (illegal .window)
    else if g.size = 8 ∧ fb.hazard [d.toNat, d.toNat + 1] then .trap (illegal .hazard)
    else if (List.range 3).any fun d => !g.inPad d (x d) then .trap ⟨.bound, .at, 0, 0, false⟩
    else
      let a := g.addr (gr.base qn) t x
      if before t (p.c - BitVec.ofNat 32 g.planes + 1) then .trap (haloTrap a)
      else match faceTest g p t a (g.beyond x) with
        | some e => e
        | none => .cell r.ctx a g.size (g.beyond x ≠ [])

/-- A grid access's width. -/
def cellWidth (size : Nat) : Width := if size = 8 then .b64 else if size = 4 then .b32 else .ui16

/-- GLD of one lane: a device-scope load, an acquire of the face it lies beyond (R489, R497). A stale face holds the whole path at
the instruction (R498). -/
def gldLane (d : BitVec 8) (slot : BitVec 6) (q c : Src) (x : Cx) (tag : Nat) (s : State) (l : Nat) (fb : Fibre) : Except State LaneFx :=
  match s.gldCheck x.who slot d q c fb with
  | .trap t => .ok ⟨s, .fault fb t, 0⟩
  | .stale =>
    let st := s.strand x.who
    .error (s.setStrand x.who { st with stale := some (st.stale.getD s.gtime) })
  | .cell ctx va size ghost =>
    if 2 ^ 54 ≤ va then .ok ⟨s, .fault fb (rangeTrap .load va), 0⟩
    else
      let w := cellWidth size
      let acc : Access := { accOf (x.who.lane l) ctx va size (.ld w) x.ip x.cl.hpc with
        wd := some (d.toNat, Width.words w), order := if ghost then .acq else .rlx, tag := some tag }
      match s.early acc true with
      | (s, .bad e) => .ok ⟨s, .fault fb (xlateTrap e .load va), 0⟩
      | (s, .retry) => .error s
      | (s, .ok y) => .ok ⟨s.newAcc { acc with xl := some y }, .ok (fb.setPend ((List.range (Width.words w)).map (d.toNat + ·))), 1⟩

/-- GLD (R489). -/
def execGld (g : Guard) (d : BitVec 8) (slot : BitVec 6) (q c : Src) (s : State) : Host.Outcome State Fault Refusal :=
  issueTry (engIss g (useW 1 (some d) ++ useS 1 q ++ useS 4 c)) (gldLane d slot q c) s

/-- GST of one lane: a device-scope relaxed store outside the store queue, whose flag falls once its Vis has passed (R490). -/
def gstLane (slot : BitVec 6) (q c v : Src) (x : Cx) (tag : Nat) (s : State) (l : Nat) (fb : Fibre) : Except State LaneFx :=
  let qn := fb.src .b32 q
  match s.gridFor x.who slot qn with
  | .error t => .ok ⟨s, .fault fb t, 0⟩
  | .ok (r, gr, p) =>
    let g := gr.geo
    let (xs, t) := quadCoord (fb.quad c)
    let fs := g.beyond xs
    let bad := fun (t : Trap) => (.ok ⟨s, .fault fb t, 0⟩ : Except State LaneFx)
    if g.size = 8 ∧ cellPairBad fb.win.length v then bad (illegal .window)
    else if g.size = 8 ∧ fb.hazard (useS 2 v) then bad (illegal .hazard)
    else if (List.range 3).any fun d => !g.inPad d (xs d) then bad ⟨.bound, .at, 0, 0, false⟩
    else if t ≠ p.c + 1 then bad (illegal .operand)
    else if fs ≠ [] ∧ (gr.exchange g t ∨ fs.any fun f => (g.neigh qn f).isNone) then bad ⟨.bound, .at, 0, 0, false⟩
    else
      let a := g.addr (gr.base qn) t xs
      if 2 ^ 54 ≤ a then bad (rangeTrap .store a)
      else
        let data := (bytesOfWords (fb.srcWords (Width.words (cellWidth g.size)) v)).take g.size
        let acc : Access := { accOf (x.who.lane l) r.ctx a g.size .shpw x.ip x.cl.hpc with data := data, tag := some tag }
        match s.early acc true with
        | (s, .bad e) => .ok ⟨s, .fault fb (xlateTrap e .store a), 0⟩
        | (s, .retry) => .error s
        | (s, .ok y) => .ok ⟨s.newAcc { acc with xl := some y }, .ok fb, 1⟩

/-- GST (R490). -/
def execGst (g : Guard) (slot : BitVec 6) (q c v : Src) (s : State) : Host.Outcome State Fault Refusal :=
  issueTry (engIss g (useS 1 q ++ useS 4 c ++ useS 1 v)) (gstLane slot q c v) s

/-- The strand still stands at a GLD of a stale face (R489, R498). -/
def State.staleHolds (s : State) (w : Who) : Bool :=
  match (s.strand w).cur with
  | none => false
  | some p =>
    match p.cl with
    | none => false
    | some cl =>
      match s.word w cl.ip with
      | (_, .ok f) =>
        match decodeFields (!w.isSup) cl.set0.isSome ((s.strand w).fibre ((lanesOf p.mask).headD 0)).win.length f with
        | .ok (.gld g d slot q c) => (lanesOf p.mask).any fun l =>
            let fb := (s.strand w).fibre l
            fb.guard g && !fb.hazard (useW 1 (some d) ++ useS 1 q ++ useS 4 c) && (s.gldCheck w slot d q c fb == .stale)
        | _ => false
      | _ => false

/-- Strands whose face has become valid are ready again (R498). -/
def State.unstale (s : State) (w : Who) : State :=
  let st := s.strand w
  if st.stale.isSome && !s.staleHolds w then
    s.setStrand w { st with stale := none, ready := if st.slot.isNone then some s.gtime else st.ready }
  else s

/-! ### Halo operations (R491 to R494) -/

/-- First coordinate and count of dimension e in the cells of face f's own side (R492, R494): `layer` gives dimension f/2. -/
def Geo.range (g : Geo) (f : Nat) (layer : Int × Nat) (e : Nat) : Int × Nat :=
  if e = f / 2 then layer else if e < f / 2 then (-(g.h e : Int), g.pad e) else (0, g.e e)

/-- A point. -/
def point (x y z : Int) (d : Nat) : Int :=
  match d with
  | 0 => x
  | 1 => y
  | _ => z

/-- The rows of the cells of a face: z and y, ascending (R307, R492). -/
def Geo.rowsOf (g : Geo) (f : Nat) (layer : Int × Nat) : List (Int × Int) :=
  let (z0, nz) := g.range f layer 2
  let (y0, ny) := g.range f layer 1
  (List.range nz).flatMap fun (z : Nat) => (List.range ny).map fun (y : Nat) => (z0 + z, y0 + y)

/-- The source layers of face f's strip (R492). -/
def Geo.stripLayer (g : Geo) (f : Nat) : Int × Nat :=
  let d := f / 2
  (if f % 2 = 0 then 0 else (g.e d : Int) - g.h d, g.h d)

/-- The segments of the strip of face f from partition q to its neighbour n: rows, and in a row source address, destination
address and length, cut at 128-byte blocks of the destination (R492). -/
def Grid.strip (gr : Grid) (q n f : Nat) (s : Word) : List (List (Nat × Nat × Nat)) :=
  let g := gr.geo
  let lay := g.stripLayer f
  let shift := fun (d : Nat) (x : Int) => if d = f / 2 then (if f % 2 = 0 then x + (g.e d : Int) else x - (g.e d : Int)) else x
  let (x0, nx) := g.range f lay 0
  (g.rowsOf f lay).map fun zy =>
    let a := g.addr (gr.base q) s (point x0 zy.2 zy.1)
    let b := g.addr (gr.base n) s (point (shift 0 x0) (shift 1 zy.2) (shift 2 zy.1))
    (lineParts (nx * g.size / 128 + 2) b (nx * g.size)).map fun p => (a + (p.1 - b), p.1, p.2)

/-- The cells of edge face f that FillEdge writes: source cell where the rule has one, and destination (R494). -/
def Grid.edge (gr : Grid) (q f : Nat) (s : Word) : List (Option Nat × Nat) :=
  let g := gr.geo
  let d := f / 2
  let e := (g.e d : Int)
  let lay : Int × Nat := (if f % 2 = 0 then -(g.h d : Int) else e, g.h d)
  let (x0, nx) := g.range f lay 0
  (g.rowsOf f lay).flatMap fun zy => (List.range nx).map fun (i : Nat) =>
    let p := point (x0 + i) zy.2 zy.1
    let j := if f % 2 = 0 then -(p d) else p d - (e - 1)
    let from_ := fun (n : Int) => g.addr (gr.base q) s fun k => if k = d then (if f % 2 = 0 then n else e - 1 - n) else p k
    let src := match getAt g.bound f with
      | 2 => some (from_ j)
      | 3 => some (from_ 0)
      | 4 => some (from_ (j - 1))
      | _ => none
    (src, g.addr (gr.base q) s p)

/-- Bytes of the halo engine read, with the fault's place (R500). -/
def State.haloRead (s : State) (o : Op) (va n : Nat) : State × MRes (List Byte) :=
  match s.vLoadN (clusterOf o.core) o.ctx va n .engRead true with
  | (s, .ok b) => (s, .ok b)
  | (s, .bad c) => (s, .bad c va false)
  | (s, .retry) => (s, .retry)

/-- Bytes written by the halo engine. -/
def State.haloWrite (s : State) (o : Op) (va : Nat) (b : List Byte) : State × MRes Nat :=
  match s.vStoreN (clusterOf o.core) o.ctx va b .engWrite true with
  | (s, .ok w) => (s, .ok w)
  | (s, .bad c) => (s, .bad c va true)
  | (s, .retry) => (s, .retry)

/-- FillEdge of R494. -/
def State.fillEdge (s : State) (o : Op) (gr : Grid) (q f : Nat) (st : Word) : State × MRes Nat :=
  let g := gr.geo
  (gr.edge q f st).foldl (fun (r : State × MRes Nat) cell =>
    match r with
    | (s, .ok v) =>
      let put := fun (s : State) (b : List Byte) => match s.haloWrite o cell.2 b with
        | (s, .ok w) => (s, .ok (max v w))
        | (s, .bad c a w) => (s, MRes.bad c a w)
        | (s, .retry) => (s, .retry)
      match cell.1 with
      | none => put s ((leBytes 8 g.bconst).take g.size)
      | some a => match s.haloRead o a g.size with
        | (s, .ok b) => put s b
        | (s, .bad c a w) => (s, .bad c a w)
        | (s, .retry) => (s, .retry)
    | r => r) (s, .ok 0)

/-- The operation's completion waits for a write's Vis (R243). -/
def State.sawVis (s : State) (op w : Nat) : State :=
  match s.op? op with
  | some o => s.setOp { o with vis := max o.vis w }
  | none => s

/-- The strip of a step has landed already: the receiver's vt says so (a restored operation does not repeat it). -/
def State.landed (s : State) (ctx : Nat) (gr : Grid) (n f : Nat) (st : Word) : Bool :=
  match ((s.grid? ctx gr.slot).getD gr).part? n with
  | some p => !before (p.vtOf (opposite f)) (st + BitVec.ofNat 32 (gr.geo.k - 1))
  | none => false

/-- One face of a dimension entered: an edge face is filled and its vt set, a neighbour face's strip of an exchange step waits to be
sent (R491). -/
def State.haloFace (s : State) (o : Op) (h : HaloOp) (gr : Grid) (f : Nat) : State × MRes HaloOp :=
  match gr.geo.neigh h.part f with
  | some n =>
    if gr.exchange gr.geo h.step && !s.landed o.ctx gr n f h.step then (s, .ok { h with wait := h.wait ++ [f] }) else (s, .ok h)
  | none =>
    if ((((s.grid? o.ctx h.slot).getD gr).part? h.part).map fun p => !before (p.vtOf f) h.step).getD false then (s, .ok h)
    else
      match s.fillEdge o gr h.part f h.step with
      | (s, .ok w) => ((s.sawVis o.id w).raiseVt o.ctx h.slot h.part f h.step, .ok h)
      | (s, .bad c a w) => (s, .bad c a w)
      | (s, .retry) => (s, .retry)

/-- The dimensions that can be entered now are entered (R491). -/
def State.haloEnter : Nat → State → Op → HaloOp → State × MRes HaloOp
  | 0, s, _, h => (s, .ok h)
  | n + 1, s, o, h =>
    match s.grid? o.ctx h.slot with
    | none => (s, .ok h)
    | some gr =>
      let g := gr.geo
      if 3 ≤ h.dim then (s, .ok h)
      else if !g.act h.dim then State.haloEnter n s o { h with dim := h.dim + 1 }
      else
        let lower := g.faces.filter fun f => decide (f / 2 < h.dim)
        let ready := match gr.part? h.part with
          | some p => lower.all fun f => !before (p.vtOf f) h.step
          | none => false
        if !ready then (s, .ok h)
        else
          match s.haloFace o h gr (2 * h.dim) with
          | (s, .ok h1) =>
            match s.haloFace o h1 gr (2 * h.dim + 1) with
            | (s, .ok h2) => State.haloEnter n s o { h2 with dim := h.dim + 1 }
            | r => r
          | r => r

/-- A halo operation that runs: its rope is there and not halted (R395). -/
def State.haloLive (s : State) (id : Nat) : Option (Op × HaloOp × Grid) :=
  match s.op? id with
  | none => none
  | some o =>
    match o.halo?, o.halo?.bind fun h => s.grid? o.ctx h.slot with
    | some h, some gr =>
      if o.st = .running ∧ ((s.rope? o.rope).map fun r => !r.halt).getD false then some (o, h, gr) else none
    | _, _ => none

/-- A strip for a step may land in partition q (R493). -/
def State.canLand (s : State) (gr : Grid) (q : Nat) (st : Word) : Bool :=
  if gr.peer q = s.chip then
    match gr.part? q with
    | some p => !before p.c st && ((p.rope.bind s.rope?).map fun r => !r.halt && !r.ended).getD false
    | none => false
  else match lookupBy Prod.fst q gr.known with
    | some c => !before c.2 st
    | none => false

/-- An earlier strip of the same face is not sent yet (R493). -/
def State.strip_before (s : State) (o : Op) (h : HaloOp) (f : Nat) : Bool :=
  (s.haloOps o.ctx h.slot).any fun b =>
    match b.halo? with
    | some k => decide (b.id ≠ o.id ∧ k.part = h.part ∧ before k.step h.step = true) &&
        (k.wait.contains f || decide (k.cur = some f) || decide (k.dim ≤ f / 2))
    | none => false

/-- The face whose strip goes next: the one being written, or the first waiting one that may land. -/
def State.haloFaceNow (s : State) (o : Op) (h : HaloOp) (gr : Grid) : Option Nat :=
  match h.cur with
  | some f => some f
  | none => h.wait.find? fun f =>
      match gr.geo.neigh h.part f with
      | some n => s.canLand gr n h.step && !s.strip_before o h f
      | none => false

/-- What the data of a halo MSG is about (log 61): kind (0: partition committed, 1: a segment of a strip, 2: a strip has landed),
slot, face, context at the receiver, partition and step. -/
def haloTag (kind slot face ctx part : Nat) (st : Word) : BitVec 128 :=
  BitVec.ofNat 128 (kind + slot * 2 ^ 8 + face * 2 ^ 16 + ctx * 2 ^ 24 + part * 2 ^ 40 + st.toNat * 2 ^ 72)

/-- A halo-class MSG leaves for a peer of the launch's chip group (R466, R492). -/
def State.haloSend (s : State) (ctx qent peer kind slot face part : Nat) (st : Word) (seg : Nat) (b : List Byte) (what : TxFor) : State :=
  let rc := ((lookupBy Prod.fst peer (s.members ctx qent)).map Prod.snd).getD ctx
  s.sendTx { tid := 0, dst := peer, kind := .msg, addr := seg, mask := haloTag kind slot face rc part st, data := b, atom := none, cls := 16,
             wct := 0, what := what }

/-- Segment at a cursor. -/
def segAt (l : List (List (Nat × Nat × Nat))) (row seg : Nat) : Option (Nat × Nat × Nat) := (l.getD row [])[seg]?

/-- The segment at the operation's cursor is read and written, or sent to the peer that hosts the receiver (R492). -/
def State.haloSegment (s : State) (o : Op) (h : HaloOp) (gr : Grid) (f n : Nat) : State × MRes Nat :=
  match segAt (gr.strip h.part n f h.step) o.crow o.cseg with
  | none => (s, .ok 0)
  | some (a, b, len) =>
    match s.haloRead o a len with
    | (s, .bad c v w) => (s, .bad c v w)
    | (s, .retry) => (s, .retry)
    | (s, .ok bs) =>
      if gr.peer n = s.chip then s.haloWrite o b bs
      else
        let idx := ((gr.strip h.part n f h.step).take o.crow).foldl (fun k r => k + r.length) o.cseg
        (s.haloSend o.ctx o.qent (gr.peer n) 1 h.slot (opposite f) n h.step idx bs (.op o.id), .ok s.gtime)

/-- The cursor after the segment (R307). -/
def Op.haloNext (o : Op) (l : List (List (Nat × Nat × Nat))) : Op :=
  if o.cseg + 1 < (l.getD o.crow []).length then { o with cseg := o.cseg + 1 } else { o with crow := o.crow + 1, cseg := 0 }

/-- HALO_STRIP_SEND: the next segment of a strip whose receiver has committed the step and whose rope is resident (R492, R493). -/
def execHaloStripSend (op : Nat) (s : State) : Host.Outcome State Fault Refusal :=
  match s.haloLive op with
  | none => s.noEvent
  | some (o, h, gr) =>
    match s.haloFaceNow o h gr with
    | none => s.noEvent
    | some f =>
      match gr.geo.neigh h.part f with
      | none => s.noEvent
      | some n =>
        let o := if h.cur = some f then o else { o with crow := 0, cseg := 0 }
        let l := gr.strip h.part n f h.step
        if (segAt l o.crow o.cseg).isNone then s.noEvent
        else
          match (s.as (.op op)).haloSegment o h gr f n with
          | (_, .bad _ _ _) => s.noEvent
          | (t, .retry) => s.retried (s.unspent t)
          | (s, .ok w) =>
            .next (s.setOp { o.haloNext l with kind := .halo { h with cur := some f, wait := h.wait.erase f }, vis := max o.vis w, since := s.gtime })

/-- HALO_STRIP_LAND: the last byte of the strip being written has landed, and the receiver's vt rises (R492). -/
def execHaloStripLand (op : Nat) (s : State) : Host.Outcome State Fault Refusal :=
  match s.haloLive op with
  | none => s.noEvent
  | some (o, h, gr) =>
    match h.cur, h.cur.bind fun f => gr.geo.neigh h.part f with
    | some f, some n =>
      if (segAt (gr.strip h.part n f h.step) o.crow o.cseg).isSome || s.fab.open_.any (fun t => t.what == .op o.id) then s.noEvent
      else
        let st := h.step + BitVec.ofNat 32 (gr.geo.k - 1)
        let s := s.setOp { o with kind := .halo { h with cur := none }, crow := 0, cseg := 0, since := s.gtime }
        .next (if gr.peer n = s.chip then s.raiseVt o.ctx h.slot n (opposite f) st
          else s.haloSend o.ctx o.qent (gr.peer n) 2 h.slot (opposite f) n h.step 0 [] .none)
    | _, _ => s.noEvent

/-- The halo operations go as far as the memory lets them without a strip: dimensions are entered, and one that has nothing left to
do completes once its writes are visible (R491, R243). -/
def State.haloSettle (s : State) : State :=
  (s.ops.filter fun o => o.halo?.isSome).foldl (fun (s : State) o =>
    match s.haloLive o.id with
    | none => s
    | some (o, h, _) =>
      match State.haloEnter 4 (s.as (.op o.id)) o h with
      | (t, .ok h') =>
        let o' := { (t.op? o.id).getD o with kind := .halo h', since := if h' = h then o.since else t.gtime }
        if h'.dim = 3 ∧ h'.wait = [] ∧ h'.cur = none ∧ o'.vis < t.gtime ∧ ¬ t.fab.open_.any (fun x => x.what == .op o.id) then
          (t.setOp { o' with fin := true }).endOp { o' with fin := true } 0 0 o.wrec
        else t.setOp o'
      | (_, .bad _ _ _) => s
      | (t, .retry) => s.unspent t) s

/-- What a halo operation meets next, where that is a translation fault: its code, address and whether a write met it. -/
def State.haloBad (s : State) (o : Op) (h : HaloOp) (gr : Grid) : Option (Nat × Nat × Bool) :=
  match State.haloEnter 4 s o h with
  | (_, .bad c a w) => some (c, a, w)
  | _ =>
    match s.haloFaceNow o h gr with
    | none => none
    | some f =>
      match (gr.geo.neigh h.part f).map fun n => s.haloSegment (if h.cur = some f then o else { o with crow := 0, cseg := 0 }) h gr f n with
      | some (_, .bad c a w) => some (c, a, w)
      | _ => none

/-- HALO_FAULT: the operation ends FAULTED with no park, and the signal of R210 is posted to its context (R500). -/
def execHaloFault (op : Nat) (s : State) : Host.Outcome State Fault Refusal :=
  match s.haloLive op with
  | none => s.noEvent
  | some (o, h, gr) =>
    match s.haloBad o h gr with
    | none => s.noEvent
    | some (c, a, w) =>
      let o := { o with fcode := c, fva := a, fin := true }
      .next ((s.endOp o 2 0 true).postSig o.ctx (if c = 6 then 15 else 2) (BitVec.ofNat 64 a) (xlateInfo c (if w then .engWrite else .engRead)))

/-! ### GSTEP, GWAIT, GSTAT (R491, R495, R496) -/

/-- A commit is made known to the peers whose partitions send strips to this one (R493; log 61). -/
def State.announce (s : State) (r : Rope) (gr : Grid) (q : Nat) (st : Word) : State :=
  if !gr.exchange gr.geo st then s
  else
    let ns := (gr.geo.faces.filterMap fun f => gr.geo.neigh q f).map gr.peer
    (ns.eraseDups.filter fun p => decide (p ≠ s.chip)).foldl (fun (s : State) p => s.haloSend r.ctx r.qent p 0 gr.slot 0 q st 0 [] .none) s

/-- GSTEP of one lane (R491). -/
def gstepLane (wrec : Bool) (d : Option (BitVec 8)) (slot : BitVec 6) (q sv : Src) (c : Cx) (tag : Nat) (s : State) (fb : Fibre) : LaneFx :=
  let qn := fb.src .b32 q
  let st := BitVec.ofNat 32 (fb.src .b32 sv)
  match s.gridFor c.who slot qn with
  | .error t => ⟨s, .fault fb t, 0⟩
  | .ok (r, gr, p) =>
    if st ≠ p.c + 1 then ⟨s, .fault fb (illegal .operand), 0⟩
    else
      let g := gr.geo
      let old := st - BitVec.ofNat 32 g.planes + 1
      let eb := p.eb.mapIdx fun f (e : Word) => if g.face f then laterOf e old else e
      let gr := gr.setPart qn { p with c := st, eb := eb, rope := some r.id }
      let (r, num) := r.number 5
      let s := (s.setGrid r.ctx gr).setRope r
      let id := s.nextId
      let s := s.enterOp r (BitVec.ofNat 32 tag)
        { kind := .halo { slot := slot.toNat, part := qn, step := st, dim := 0, wait := [], cur := none }, tl := 5, num := num, wrec := wrec,
          wait := none, word := (0, 0), shape := 0, owed := [] }
      let s := match s.op? id with
        | some o => s.setOp { o with st := .running, tag := num }
        | none => s
      ⟨s.announce r gr qn st, .ok (d.elim fb fun i => fb.setReg i.toNat num.toNat), 0⟩

/-- GSTEP (R491): its flag falls as soon as the commit is recorded. At the limit of R243 it stalls. -/
def execGstep (g : Guard) (wrec : Bool) (d : Option (BitVec 8)) (slot : BitVec 6) (q sv : Src) (s : State) : Host.Outcome State Fault Refusal :=
  let i := engIss g (useW 1 d ++ useS 1 q ++ useS 1 sv)
  match s.cx? i.len with
  | none => s.noEvent
  | some c =>
    if ((s.myRope c.who).map fun r => (r.tl 5).limit (c.set i).length).getD false then .next s
    else issueSt i (fun c tag s _ fb => gstepLane wrec d slot q sv c tag s fb) s

/-- GWAIT of one lane: its fibre waits at the next header (R495). -/
def gwaitLane (slot : BitVec 6) (q f t : Src) (c : Cx) (tag : Nat) (s : State) (l : Nat) (fb : Fibre) : LaneFx :=
  let m := fb.src .b32 f
  let tv := BitVec.ofNat 32 (fb.src .b32 t)
  match s.gridFor c.who slot (fb.src .b32 q) with
  | .error e => ⟨s, .fault fb e, 0⟩
  | .ok (_, gr, p) =>
    let g := gr.geo
    let fs := setBits 6 m
    if 64 ≤ m ∨ fs.any (fun f => !g.face f) then ⟨s, .fault fb (illegal .operand), 0⟩
    else if before tv (p.c - BitVec.ofNat 32 g.planes + 1) ∨ fs.any (fun f => before tv (p.ebOf f)) then ⟨s, .fault fb (haloTrap 0), 0⟩
    else ⟨s.landLater c l tag none [] none false,
          .ok { fb with wait := some (.grid slot.toNat (fb.src .b32 q) m tv.toNat none) }, 1⟩

/-- GWAIT (R495). -/
def execGwait (g : Guard) (slot : BitVec 6) (q f t : Src) (s : State) : Host.Outcome State Fault Refusal :=
  issueSt (engIss g (useS 1 q ++ useS 1 f ++ useS 1 t)) (gwaitLane slot q f t) s

/-- A GWAIT whose faces are valid is over for its fibre (R495). -/
def State.releaseGrid (s : State) (r : RopeId) (sid l : Nat) : State :=
  let w : Who := .strand r sid
  let f := s.fibre w l
  match f.wait with
  | some (.grid slot part m t _) =>
    let ok := match ((s.rope? r).bind fun (rp : Rope) => s.grid? rp.ctx slot).bind fun g => g.part? part with
      | some p => (setBits 6 m).all fun i => !before (p.vtOf i) (BitVec.ofInt 32 t)
      | none => true
    if ok then (s.setFibre w l { f with wait := none }).endWait ⟨r, sid, l⟩ else s
  | _ => s

/-- GSTAT (R496). -/
def execGstat (g : Guard) (d : BitVec 8) (slot : BitVec 6) (q : Src) (op : GstatOp) (s : State) : Host.Outcome State Fault Refusal :=
  let n := match op with
    | .face _ => 2
    | .com => 1
  issueSt (engIss g (useW n (some d) ++ useS 1 q ++ match op with
      | .face f => useS 1 f
      | .com => []))
    (fun c tag s l fb =>
      match s.gridFor c.who slot (fb.src .b32 q) with
      | .error e => ⟨s, .fault fb e, 0⟩
      | .ok (_, gr, p) =>
        let land := fun (b : List Byte) =>
          (⟨s.landLater c l tag (some (d.toNat, n)) b none true, .ok (fb.setPend ((List.range n).map (d.toNat + ·))), 1⟩ : LaneFx)
        match op with
        | .com => land (leBytes 4 p.c.toNat)
        | .face f =>
          let i := fb.src .b32 f
          if gr.geo.face i then land (leBytes 8 ((p.vtOf i).toNat + 2 ^ 32 * (p.ebOf i).toNat)) else ⟨s, .fault fb (illegal .operand), 0⟩) s

/-! ### Halo messages from peers (R466, R492, R493) -/

/-- The bytes at the receiver that an outstanding segment of a strip was for: address and length (R391, R492). -/
def State.haloRange (s : State) (o : Op) (t : Tx) : Option (Nat × Nat) :=
  let v := t.mask.toNat
  let face := bits v 16 8
  let n := bits v 40 32
  match s.grid? o.ctx (bits v 8 8) with
  | none => none
  | some gr => (gr.geo.neigh n face).bind fun q =>
      (((gr.strip q n (opposite face) (BitVec.ofNat 32 (bits v 72 32))).flatten)[t.addr]?).map fun x => (x.2.1, x.2.2)

/-- A halo-class MSG arrives: a commit at a peer, a segment of a strip, or a strip's landing; the WCT of what it wrote. None: the receiver
may not take it yet, and it stays on its way (R493); some none: a store of it met a translation fault (R500). -/
def State.haloMsg (s : State) (t : FabTx) : Option (State × Option Nat) :=
  let v := t.mask.toNat
  let slot := bits v 8 8
  let face := bits v 16 8
  let ctx := bits v 24 16
  let part := bits v 40 32
  let st := BitVec.ofNat 32 (bits v 72 32)
  match s.grid? ctx slot with
  | none => none
  | some gr =>
    match bits v 0 8 with
    | 0 => some (s.setGrid ctx { gr with known := upsert Prod.fst (part, st) gr.known }, some s.gtime)
    | k =>
      if !s.canLand gr part st then none
      else
        match gr.geo.neigh part face with
        | none => some (s, some s.gtime)
        | some from_ =>
          if s.landed ctx gr part (opposite face) st then some (s, some s.gtime)
          else if k = 1 then
            match ((gr.strip from_ part (opposite face) st).flatten)[t.addr]? with
            | none => some (s, some s.gtime)
            | some (_, b, len) =>
              let core := (((gr.part? part).bind GridPart.rope).map RopeId.core).getD 0
              match s.vStoreN (clusterOf core) ctx b (t.data.take len) .engWrite true with
              | (s, .ok w) => some (s, some w)
              | (s, .bad _) => some (s, none)
              | (_, .retry) => none
          else some (s.raiseVt ctx slot part face (st + BitVec.ofNat 32 (gr.geo.k - 1)), some s.gtime)

end Sys2Proof.Machine
end

