-- ==== Sys2Proof/Machine/Process.lean ====
section
/-! DEFINITION. Coils and processes: stopping, halting, continuing and killing them, the signals of a process, and a context's way
out of residency (R149, R382 to R385, R393 to R396, R408, R409, R425, R427). -/

namespace Sys2Proof.Machine

/-! ### Coils (R143, R147) -/

/-- A coil by launch queue entry, stage and index (R191). -/
structure CoilKey where
  ctx   : Nat
  qent  : Nat
  stage : Nat
  coil  : Nat
  deriving DecidableEq, Repr

/-- The coil of a rope. -/
def Rope.key (r : Rope) : CoilKey := ⟨r.ctx, r.qent, r.stage, r.coil⟩
/-- The coil of a stop. -/
def Stop.key (x : Stop) : CoilKey := ⟨x.ctx, x.qent, x.stage, x.coil⟩

/-- The ropes of a coil, by rope index. -/
def State.coilRopes (s : State) (k : CoilKey) : List Rope := sortBy Rope.ridx (s.ropes.filter fun r => decide (r.key = k))

/-- The resident coils of a context (R425). -/
def State.coils (s : State) (ctx : Nat) : List CoilKey := ((s.ropes.filter fun r => decide (r.ctx = ctx)).map Rope.key).eraseDups

/-- Every rope of a coil changed. -/
def State.mapCoil (s : State) (k : CoilKey) (f : Rope → Rope) : State :=
  { s with ropes := s.ropes.map fun (r : Rope) => if r.key = k then f r else r }

/-- Every fibre of a rope changed. -/
def Rope.mapFibres (r : Rope) (f : Fibre → Fibre) : Rope :=
  { r with strands := r.strands.map fun (st : Strand) => { st with fibres := st.fibres.map f } }

/-- The fibres of a rope that are not empty, as strand and lane. -/
def Rope.occupied (r : Rope) : List (Nat × Nat) :=
  (List.range r.strands.length).flatMap fun sid =>
    ((List.range 32).filter fun l => decide (((r.strands.getD sid Strand.init).fibre l).st ≠ .empty)).map fun l => (sid, l)

/-! ### Stopping, halting and continuing (R393 to R396, R408, R425) -/

/-- A stop of a coil under way or standing. -/
def State.stop? (s : State) (k : CoilKey) : Option Stop := s.stops.find? fun x => decide (x.key = k)

/-- A stop replaced or added. -/
def State.setStop (s : State) (x : Stop) : State := { s with stops := upsert Stop.key x s.stops }

/-- A request to stop a coil: its strands begin to stop (R394). A coil that is already halted changes its standing only from halted
to being saved (R425). -/
def State.stopCoil (s : State) (k : CoilKey) (save : Bool) : State :=
  match s.stop? k with
  | some x => s.setStop { x with save := x.save || save, full := x.full && !save }
  | none =>
    (s.mapCoil k fun r => { r with stopping := some (r.stopping.getD s.gtime) }).setStop
      { ctx := k.ctx, qent := k.qent, stage := k.stage, coil := k.coil, since := s.gtime, save := save, quiet := false, full := false }

/-- A halted coil resumes in place: its fibres go on from where they stand, its operations from their cursors, and its windows take
forwarded accesses again (R408, R425). -/
def State.contCoil (s : State) (k : CoilKey) : State :=
  let s := { s with stops := s.stops.filter fun x => decide (x.key ≠ k) }
  let s := s.mapCoil k fun r => { r.mapFibres (fun f => { f with stop := false }) with halt := false, stopping := none }
  let ids := (s.coilRopes k).map Rope.id
  { s with windows := s.windows.map fun (w : Window) => if ids.contains w.rope then { w with closed := false } else w }

/-- A path of a stopping strand that stands blocked at its header, or at a region entry, stops there (R394). -/
def State.stopStrand (s : State) (w : Who) : State :=
  let st := s.strand w
  let held := ((st.paths.filter fun p => p.cl.isNone && !s.pathReady w st p).flatMap fun p => lanesOf p.mask)
  if held.all fun l => (st.fibre l).stop then s
  else s.setStrand w { st with fibres := st.fibres.mapIdx fun l (f : Fibre) => if held.contains l then { f with stop := true } else f }

/-- The strands of stopping ropes stop where they can (R394). -/
def State.stopFibres (s : State) : State :=
  (s.ropes.filter fun r => r.stopping.isSome && !r.halt).foldl (fun (s : State) r =>
    (List.range r.strands.length).foldl (fun (s : State) sid => s.stopStrand (.strand r.id sid)) s) s

/-- Every live fibre of a rope has stopped. -/
def Rope.atRest (r : Rope) : Bool := r.strands.all fun st => st.fibres.all fun f => decide (f.st ≠ .live) || f.stop

/-- 4 µs after the request: a fibre in serial mode stops after the word in issue, inside its clause if it has a word left; any other
is rolled back to its kpc as by a KNOT restart (R394). -/
def State.cutFibre (s : State) (r : RopeId) (sid l : Nat) : State :=
  let w : Who := .strand r sid
  let st := s.strand w
  let f := st.fibre l
  if f.st ≠ .live ∨ f.stop then s
  else
    let p := st.paths.find? fun p => p.mask.getLsbD l
    let cl := (p.map Path.cl).getD f.cl
    let pc := match p with
      | some p => (p.cl.map Clause.ip).getD p.pc
      | none => f.pc
    let s := s.setStrand w (st.leave (maskOfLanes [l]))
    if f.serial then s.setFibre w l { f with pc := pc, cl := cl, stop := true }
    else
      let s := (s.dropHeld ⟨r, sid, l⟩).voidFrom ⟨r, sid, l⟩ f.kid
      let f := s.fibre w l
      s.setFibre w l { f with pc := f.kpc, cl := none, near := List.replicate 8 0, lat := 0, preds := f.kpreds ||| 0x8000, cnt := f.kcnt,
                              issued := 0, atTgt := false, stop := true }

/-- The first stop of a context and coil index that some condition holds of. -/
def State.stopFor (s : State) (ctx coil : Nat) (ok : Stop → Bool) : Option Stop :=
  s.stops.find? fun x => decide (x.ctx = ctx ∧ x.coil = coil) && ok x

/-- PREEMPT_DEADLINE (R394). -/
def execPreemptDeadline (ctx coil : Nat) (s : State) : Host.Outcome State Fault Refusal :=
  match s.stopFor ctx coil fun x => !x.quiet && decide (x.since + 4000 ≤ s.gtime) && !(s.coilRopes x.key).all Rope.atRest with
  | none => s.noEvent
  | some x =>
    .next ((s.coilRopes x.key).foldl (fun (s : State) r =>
      r.occupied.foldl (fun (s : State) q => s.cutFibre r.id q.1 q.2) s) s)

/-- PREEMPT_REQUEST: one coil, or every resident coil of a context, is to be stopped and saved (R393, R394). -/
def execPreemptRequest (ctx : Nat) (coil : Option Nat) (s : State) : Host.Outcome State Fault Refusal :=
  let ks := (s.coils ctx).filter fun k => match coil with
    | some c => decide (k.coil = c)
    | none => true
  if ks = [] then s.noEvent else .next (ks.foldl (fun (s : State) k => s.stopCoil k true) s)

/-- Nothing of a coil is in flight any more: results have landed, atomics and released stores are performed, faults are written or
wait only for room (R394, R395). The placeholder of a wait stays. -/
def State.coilQuiet (s : State) (k : CoilKey) : Bool :=
  let ids := (s.coilRopes k).map Rope.id
  (s.coilRopes k).all Rope.atRest &&
    s.accs.all (fun a => !ids.contains a.lane.rope || (a.kind == .land && !a.done && a.wd.isNone)) &&
    s.ropes.all (fun r => !ids.contains r.id || (s.core r.id.core).parking.all fun p => !decide (p.rope = r.id) || s.parkReady p)

/-- QUIESCE: engine operations stop at their boundaries, pins end, windows refuse forwarded accesses (R395). -/
def execQuiesce (ctx coil : Nat) (s : State) : Host.Outcome State Fault Refusal :=
  match s.stopFor ctx coil fun x => !x.quiet && s.coilQuiet x.key with
  | none => s.noEvent
  | some x =>
    let rs := s.coilRopes x.key
    let s := rs.foldl (fun (s : State) r => s.endPins r.id) s
    let s := s.mapCoil x.key fun r => { r with halt := true }
    let ids := rs.map Rope.id
    .next ({ s with windows := s.windows.map fun (w : Window) => if ids.contains w.rope then { w with closed := true } else w }.setStop
      { x with quiet := true, since := s.gtime })

/-! ### Killing (R149, R382, R425) -/

/-- Every fibre of a rope is killed, its incomplete operations end CANCELLED, and their entries are freed (R149, R425). -/
def State.killRope (s : State) (r : Rope) : State :=
  let s := s.setRope { r with killed := true, halt := false, stopping := none }
  let s := r.occupied.foldl (fun (s : State) q => s.endFibre r.id q.1 q.2 true) s
  let mine := s.ops.filter fun o => decide (o.rope = r.id)
  let s := mine.foldl (fun (s : State) o => s.failOp o 3) s
  let c := s.core r.id.core
  s.setCore { c with rq := c.rq.filter fun e => decide (e.rope ≠ r.id), parking := c.parking.filter fun p => decide (p.rope ≠ r.id) }

/-- The operations of a saved coil end CANCELLED: their records are still to be written, those of pending ties included (R181, R314). -/
def State.cancelSaved (s : State) (x : Saved) : State :=
  let ops := x.ops.map fun (o : Op) => match o.st with
    | .held l | .posted l => if o.st.ending then o else { o with fin := true, st := .held (l ++ [3]) }
    | _ => { o with fin := true, st := .held [3] }
  let s := if ((x.ropes.head?.map fun r => s.hasRing r.ctx).getD false) then { s with ops := s.ops ++ ops } else s
  x.ropes.foldl (fun (s : State) r => r.ties.foldl (fun (s : State) t => match t.pending with
    | some p => s.cancelPending r p
    | none => s) s) s

/-- A process is killed: its fibres, its saved coils, and its launches, which complete CANCELLED (R200, R382, R425); its timer is
disarmed (R383) and its context leaves residency (R457). A saved coil stays known while it has windows (R222). -/
def State.killCtx (s : State) (ctx : Nat) : State :=
  let s := { s with stops := s.stops.filter fun x => decide (x.ctx ≠ ctx) }
  let s := (s.ropes.filter fun r => decide (r.ctx = ctx)).foldl (fun (s : State) r =>
    match s.rope? r.id with
    | some r => s.killRope r
    | none => s) s
  let s := ((s.ctx? ctx).map fun c => (c.saved.filter fun x => x.ops ≠ [] || x.ropes.any fun r => r.ties.any fun t => t.pending.isSome).foldl State.cancelSaved s).getD s
  match s.ctx? ctx with
  | none => s
  | some c =>
    let kept := (c.saved.filter fun x => s.windows.any fun w => x.ropes.any fun r => decide (r.id = w.rope)).map fun (x : Saved) =>
      { x with ops := [], ropes := x.ropes.map fun (r : Rope) => { r with ties := r.ties.map fun (t : Tie) => { t with pending := none } } }
    s.setCtx { c with dead := true, leaving := true, stopped := false, timer := none, pending := 0, sinfo := [], saved := kept, answers := [], dying := none,
                                queue := c.queue.map fun (l : Launch) => { l with st := .failing 5 } }

/-! ### Signals of a process (R382 to R385, R423, R427) -/

/-- STOP: every coil is halted (R382). -/
def State.stopProcess (s : State) (ctx : Nat) : State :=
  let s := (s.coils ctx).foldl (fun (s : State) k => s.stopCoil k false) s
  match s.ctx? ctx with
  | some c => s.setCtx { c with stopped := true }
  | none => s

/-- CONT: a stopped process goes on (R382). Coils that are to be saved stay as they are. -/
def State.contProcess (s : State) (ctx : Nat) : State :=
  match s.ctx? ctx with
  | some c =>
    if c.stopped then
      ((s.coils ctx).foldl (fun (s : State) k => match s.stop? k with
        | some x => if x.save then s else s.contCoil k
        | none => s) s).setCtx { c with stopped := false }
    else s
  | none => s

/-- A signal arrives at a process: KILL and STOP act at once, CONT continues it in every case, any other becomes pending (R382,
R385, R423). -/
def State.signalCtx (s : State) (ctx sig : Nat) : State :=
  match sig with
  | 12 => s.killCtx ctx
  | 13 => s.stopProcess ctx
  | 14 => (s.contProcess ctx).postSig ctx 14 0 0
  | _ => s.postSig ctx sig 0 0

/-- The number of a fibre's call (R379). -/
def Fibre.callNum (f : Fibre) : Nat := (f.win.getD 6 0).toNat % 65536

/-- The fibre's call is one that goes to the service cores (R380). -/
def Fibre.forwarded (f : Fibre) : Bool := decide (f.callNum ∈ [3, 4, 5, 6, 7, 8, 12, 13])

/-- The fibre waits in a call that a signal ends, where its core's own supervisor serves it: PAUSE, or a forwarded call (R380, R381;
log 10, 35). -/
def State.pausing (s : State) (r : RopeId) (f : Fibre) : Bool :=
  match f.st with
  | .parked q => (f.callNum == 11 || f.forwarded) && (s.core r.core).sv.cur.isNone &&
    (s.core r.core).rq.any fun e => decide (e.seq = q ∧ e.cls = .syscall)
  | _ => false

/-- A signal of a process has a handler (R384). -/
def State.handles (s : State) (ctx sig : Nat) : Bool := ((s.ctx? ctx).map fun c => decide (2 ≤ (c.disps.getD sig Disp.dflt).hpc.toNat)).getD false

/-- A fibre that a signal may choose: live, waiting in PAUSE, or in a forwarded call that a handled signal ends, and not masking it
(R380, R381, R385). -/
def State.takesSig (s : State) (r : RopeId) (ctx : Nat) (f : Fibre) (sig : Nat) : Bool :=
  (decide (f.st = .live) || (s.pausing r f && (f.callNum == 11 || s.handles ctx sig))) && !f.smask.getLsbD sig && f.sel.isNone

/-- Where a signal of a process goes: the first rope by core and slot that has a fibre for it, and there the lowest FID (R385). -/
def State.chooseFibre (s : State) (ctx sig : Nat) : Option LaneId :=
  let rs := sortBy (fun r : Rope => r.id.core * 128 + r.id.slot) (s.ropes.filter fun r => decide (r.ctx = ctx ∧ r.ended = false))
  rs.findSome? fun r => (r.occupied.find? fun q => s.takesSig r.id ctx ((r.strands.getD q.1 Strand.init).fibre q.2) sig).map fun q => ⟨r.id, q.1, q.2⟩

/-- Some fibre has been chosen for a signal of the process. -/
def State.chosen (s : State) (ctx sig : Nat) : Bool :=
  s.ropes.any fun r => decide (r.ctx = ctx) && r.strands.any fun st => st.fibres.any fun f => decide (f.sel = some sig ∧ f.st ≠ .empty)

/-- A fibre that has parked is no longer chosen for a process signal. ENGINE stays with every fibre it was given to (R382, R385). -/
def State.unchoose (s : State) (ctx : Nat) : State :=
  { s with ropes := s.ropes.map fun (r : Rope) => if r.ctx = ctx then r.mapFibres fun f =>
      if f.sel.isSome ∧ f.sel ≠ some 7 ∧ f.st ≠ FSt.live ∧ !s.pausing r.id f then { f with sel := none } else f else r }

/-- A fibre is chosen for a signal: one that sleeps tests its word once more, and NSLEEP returns 0 where it still holds v (R185, R385). -/
def State.choose (s : State) (l : LaneId) (sig : Nat) : State :=
  let w := laneWho l
  let f := { s.fibre w l.lane with sel := some sig }
  let s := s.setFibre w l.lane f
  match f.wait with
  | some (.sleep a v d pd ip hpc) => s.sleepTest l a v d pd ip hpc
  | _ => s

/-- Pending signals choose their fibres (R385). -/
def State.chooseAll (s : State) : State :=
  (s.ctxs.filter fun c => c.resident && decide (c.pending ≠ 0)).foldl (fun (s : State) c =>
    let s := s.unchoose c.no
    ((List.range 16).filter fun i => i ≠ 0 && c.pending.getLsbD i).foldl (fun (s : State) i =>
      if s.chosen c.no i then s
      else match s.chooseFibre c.no i with
        | some l => s.choose l i
        | none => s) s) s

/-- The header a live fibre stands at: of its path, or its own where it is in none; none inside a clause. -/
def State.headerOf (s : State) (l : LaneId) : Option DWord :=
  let st := s.strand (laneWho l)
  let f := st.fibre l.lane
  match st.paths.find? fun p => p.mask.getLsbD l.lane with
  | some p => if p.cl.isNone then some p.pc else none
  | none => if f.cl.isNone then some f.pc else none

/-- A fibre chosen for a signal stands at a header and may stop there. -/
def State.stopsFor (s : State) (l : LaneId) (sig : Nat) : Bool :=
  let f := s.fibre (laneWho l) l.lane
  decide (f.st = .live ∧ f.sel = some sig) && !f.stop && (s.headerOf l).isSome &&
    ((s.rope? l.rope).map fun r => !r.halt).getD false

/-- SIGNAL_STOP: the fibre parks at its header with class TRAP and the signal's info; a wait it is in is tested again after the
handler (R427). -/
def execSignalStop (l : LaneId) (sig : BitVec 4) (s : State) : Host.Outcome State Fault Refusal :=
  if s.stopsFor l sig.toNat then
    let w := laneWho l
    let f := s.fibre w l.lane
    let pc := (s.headerOf l).getD f.pc
    let ctx := ((s.rope? l.rope).map Rope.ctx).getD 0
    let s := match s.ctx? ctx with
      | some c => s.setCtx { c with pending := c.pending &&& ~~~(1#16 <<< sig.toNat) }
      | none => s
    let s := s.setFibre w l.lane { f with sel := none, wait := none, stash := f.wait :: f.stash }
    .next (s.park w [l.lane] ⟨.trap, .at, BitVec.ofNat 32 (0xFFFFFF00 + sig.toNat), 0, false⟩ pc pc pc)
  else s.noEvent

/-- TIMER_EXPIRY: TIMER becomes pending, and a period sets the next expiry (R383). -/
def execTimerExpiry (ctx : Nat) (s : State) : Host.Outcome State Fault Refusal :=
  match s.ctx? ctx with
  | none => s.noEvent
  | some c =>
    match c.timer with
    | some (t, per) =>
      if t ≤ s.gtime then
        .next ((s.setCtx { c with timer := if per = 0 then none else some (t + per, per) }).postSig ctx 11 0 0)
      else s.noEvent
    | none => s.noEvent

/-- The timelines that a rope's ENGINE names: those of a reset that no fibre has been told of yet with those of the last (R410). -/
def Rope.engineMask (r : Rope) : Nat :=
  (r.engSig.getD 0) ||| (if r.strands.any fun st => st.fibres.any fun f => decide (f.sel = some 7 ∧ f.st ≠ .empty) then r.engInfo else 0)

/-- ENGINE reaches every fibre of a rope whose engine was reset once its strands have stopped (R382, R410). -/
def State.engineSignals (s : State) : State :=
  (s.ropes.filter fun r => r.engSig.isSome && r.atRest && (s.stop? r.key).isNone).foldl (fun (s : State) r =>
    s.setRope { r.mapFibres (fun f => if f.st ≠ .empty then { f with sel := some 7, stop := false } else f) with
      engSig := none, engInfo := r.engineMask, stopping := none }) s

/-! ### Leaving residency (R409) -/

/-- The key slot of a context goes back to LOADED (R428). -/
def State.unbind (s : State) (c : Context) : State :=
  if c.kslot = 0 then s
  else { s with keys := s.keys.map fun (k : KeySlot) => if k.no = c.kslot ∧ k.st = .bound then { k with st := .loaded } else k }

/-- Contexts that leave residency and have nothing resident: their lines are written back and dropped, their locks released, their
slot unbound (R409). -/
def State.leaveCtxs (s : State) : State :=
  (s.ctxs.filter fun c => c.leaving && c.resident).foldl (fun (s : State) c =>
    if (s.coils c.no) ≠ [] ∨ (s.ops.any fun o => decide (o.ctx = c.no)) ∨ (c.dead ∧ c.saved ≠ []) then s
    else
      match s.ptinv { ctx := some c.no, page := 0, n := 2 ^ 38 } true with
      | (s, true) =>
        match s.ctx? c.no with
        | some c =>
          -- its own locks, on lines of other contexts too (R224)
          let s := { s with locks := s.locks.filter fun k => decide (k.1 ≠ c.no) }
          (s.setCtx { c with resident := false, leaving := false, locks := 0 }).unbind c
        | none => s
      | (s, false) => s) s

end Sys2Proof.Machine
end

