-- ==== Sys2Proof/Machine/System.lean ====
section
/-! DEFINITION. Group 14: calls of the supervisor, knots, returns from handlers, the supervisor's own instructions, and the replay
queue's events (R362 to R376, R386 to R388, R412 to R427). -/

namespace Sys2Proof.Machine

/-! ### Entering the supervisor on purpose (R415, R416) -/

/-- SYSCALL (R416): committing, and not in the supervisor strand (R508). -/
def execSyscall (g : Guard) (s : State) : Host.Outcome State Fault Refusal :=
  issueSt { len := 8, g := g, uses := [], commit := true, rope := true }
    (fun _ _ s _ fb => ⟨s, .fault fb ⟨.syscall, .at, 0, 0, true⟩, 0⟩) s

/-- What TRAP raises: the range of the signal stops is ILLEGAL, cause 6 (R416). -/
def trapOf (code : BitVec 32) : Trap := if 0xFFFFFF00 ≤ code.toNat then illegal .reserved else ⟨.trap, .at, code, 0, true⟩

/-- TRAP (R416). -/
def execTrap (g : Guard) (code : BitVec 32) (s : State) : Host.Outcome State Fault Refusal :=
  issueSt { len := 12, g := g, uses := [], rope := true } (fun _ _ s _ fb => ⟨s, .fault fb (trapOf code), 0⟩) s

/-- BKPT (R416). -/
def execBkpt (g : Guard) (s : State) : Host.Outcome State Fault Refusal :=
  issueSt { len := 8, g := g, uses := [] } (fun _ _ s _ fb => ⟨s, .fault fb ⟨.brk, .at, 0xFF, 0, true⟩, 0⟩) s

/-- KNOT of one lane: it waits until the previous region is translated and its stores are released, then enters the new one. In the
supervisor strand it has no effect (R415). -/
def knotLane (wm : BitVec 32) (sm tm : BitVec 16) (c : Cx) (s : State) (l : Nat) (fb : Fibre) : Except State LaneFx :=
  if c.who.isSup then .ok ⟨s, .ok fb, 0⟩
  else if s.holdsEntry (c.who.lane l) then .error s
  else .ok ⟨s.setStrand c.who { s.strand c.who with held := 0 }, .ok (fb.enter s.nextId c.cl.hpc wm sm tm), 0⟩

/-- KNOT (R370, R415). -/
def execKnot (g : Guard) (wm : BitVec 32) (sm tm : BitVec 16) (s : State) : Host.Outcome State Fault Refusal :=
  issueTry { len := 16, g := g, uses := [] } (fun c _ => knotLane wm sm tm c) s

/-! ### SIGRET (R386, R388, R417) -/

/-- Where SIGRET takes a fibre: to a header, or into the clause it was taken out of. -/
inductive FrameRes where
  | header (f : Fibre) (rpc : DWord) (tested : Bool)
  | inside (f : Fibre) (cl : Clause)
  | trap (t : Trap)
  | retry
  deriving DecidableEq, Repr

/-- Bytes of a fibre's memory, line by line, as device-scope acquire loads (R417), and the address where they end or fault. -/
def State.fibreLoadN (s : State) (l : LaneId) (ctx va n : Nat) : State × VRes (List Byte) × Nat :=
  (lineParts (n / 128 + 2) va n).foldl (fun (p : State × VRes (List Byte) × Nat) q =>
    match p.2.1 with
    | .ok b => match p.1.fibreLoad l ctx q.1 q.2 with
      | (s, .ok c) => (s, .ok (b ++ c), q.1)
      | (s, r) => (s, r, q.1)
    | _ => p) (s, .ok [], va)

/-- The fibre that a frame's bytes restore; mask bits 0, 12 and 13 are written as zero (R386, R388, R417). -/
def Fibre.restore (f : Fibre) (v : Nat) (b : List Byte) : Fibre :=
  let f := ({ f with
    win := wordsOf f.win.length (b.drop 128), preds := BitVec.ofNat 16 (bits v 176 16) ||| 0x8000,
    fpctl := BitVec.ofNat 32 (bits v 256 32), fpstat := BitVec.ofNat 32 (bits v 224 32), intctl := BitVec.ofNat 32 (bits v 192 32),
    smask := BitVec.ofNat 16 (bits v 160 16) &&& 0xCFFE } : Fibre).waitAgain
  if bit v 155 then f
  else { f with near := wordsOf 8 (b.drop 64), lat := BitVec.ofNat 64 (leNat ((b.drop 96).take 8)) }

/-- The frame at an address checked and read (R388, R417). -/
def State.frameOf (s : State) (w : Who) (l : Nat) (fb : Fibre) (f : Nat) : State × FrameRes :=
  let n := 128 + 4 * fb.win.length
  if 2 ^ 54 < f + n then (s, .trap (rangeTrap .load f))
  else if f % 128 ≠ 0 then (s, .trap (alignTrap 128 f))
  else
    match s.fibreLoadN (w.lane l) ((s.ctxOf w).getD 0) f n with
    | (s, .bad e, a) => (s, .trap (xlateTrap e .load a))
    | (s, .retry, _) => (s, .retry)
    | (s, .ok b, _) =>
      let v := leNat (b.take 64)
      let rpc := BitVec.ofNat 64 (bits v 384 64)
      let hpc := BitVec.ofNat 64 (bits v 320 64)
      let bad := FrameRes.trap (illegal .target)
      let ctl := csrForbidden .fpctl (bits v 256 32) || csrForbidden .fpstat (bits v 224 32) || csrForbidden .intctl (bits v 192 32)
      if bits v 0 64 ≠ f ∨ bits v 64 80 ≠ 0 ∨ bits v 144 6 * 8 ≠ fb.win.length then (s, bad)
      else if bit v 155 then
        match s.target w rpc with
        | (s, .notHeader) => (s, bad)
        | (s, .header) => (s, if ctl then .trap (illegal .reserved) else .header (fb.restore v b) rpc true)
        | (s, .flt _ _) => (s, if ctl then .trap (illegal .reserved) else .header (fb.restore v b) rpc false)
        | (s, .retry) => (s, .retry)
      else
        match s.fetch w hpc 8 with
        | (s, .retry) => (s, .retry)
        | (s, .flt _ _) => (s, bad)
        | (s, .ok h) =>
          if !headerOk (leNat h) then (s, bad)
          else
            match s.clauseAt w rpc 17 (clauseOf hpc (leNat h)) with
            | (s, .inside cl) => (s, if ctl then .trap (illegal .reserved) else .inside (fb.restore v b) cl)
            | (s, .retry) => (s, .retry)
            | (s, _) => (s, bad)

/-- SIGRET of one lane; a fibre that returns into a clause is put there when the word is done with. -/
def sigretLane (f : Src) (c : Cx) (s : State) (l : Nat) (fb : Fibre) : Except State LaneFx :=
  match s.frameOf c.who l fb (fb.src .b64 f) with
  | (t, .retry) => .error (s.unspent t)
  | (s, .trap t) => .ok ⟨s, .fault fb t, 0⟩
  | (s, .header r rpc tested) => .ok ⟨s, { fib := { r with atTgt := !tested }, tgt := some rpc, trap := none }, 0⟩
  | (s, .inside r cl) => .ok ⟨s, { fib := r, tgt := some cl.ip, trap := none }, 0⟩

/-- Fibres that return into one clause take their place in it: a whole path keeps its entry, others form a path of their own. -/
def Strand.putInside (st : Strand) (cl : Clause) (ls : List Nat) : Strand :=
  let m := maskOfLanes ls
  let set := fun (p : Path) => if p.mask = m then { p with pc := cl.ip, cl := some cl } else p
  let st := { st with fibres := st.fibres.mapIdx fun i (f : Fibre) => if ls.contains i then { f with pc := cl.ip, cl := some cl } else f }
  if st.paths.any fun p => decide (p.mask = m) then { st with cur := st.cur.map set, others := st.others.map set }
  else (st.leave m).addPath ⟨m, cl.ip, 0, false, some cl⟩

/-- The clauses that the executing lanes return into, each with its lanes. -/
def State.insides (s : State) (c : Cx) (i : Iss) (f : Src) : List (Clause × List Nat) :=
  (c.set i).foldl (fun (acc : List (Clause × List Nat)) l =>
    match ((s.as (c.doer s l)).frameOf c.who l (s.fibre c.who l) ((s.fibre c.who l).src .b64 f)).2 with
    | .inside _ cl => match lookupBy Prod.fst cl acc with
      | some e => upsert Prod.fst (cl, e.2 ++ [l]) acc
      | none => acc ++ [(cl, [l])]
    | _ => acc) []

/-- SIGRET (R388, R417): the fibres go on in serial mode where their frames say. -/
def execSigret (g : Guard) (f : Src) (s : State) : Host.Outcome State Fault Refusal :=
  let i : Iss := { len := 8, g := g, uses := useS 2 f, commit := true, rope := true, access := true }
  match s.cx? i.len, issueTry i (fun c _ => sigretLane f c) s with
  | some c, .next t =>
    -- a word that has not been issued (it stalls or repeats) leaves its path where it was
    if (t.strand c.who).cur = c.st.cur then .next t
    else .next (t.setStrand c.who ((s.insides c i f).foldl (fun st e => st.putInside e.1 e.2) (t.strand c.who)))
  | _, r => r

/-! ### The supervisor's instructions (R418 to R425) -/

/-- A privileged word: in user mode it is ILLEGAL, cause 5 (R70, R412). -/
def privileged (len : Nat) (g : Guard) (uses : List Nat) (f : Cx → State → Nat → Fibre → Except State LaneFx) (s : State) :
    Host.Outcome State Fault Refusal :=
  match s.cur with
  | some (.sup _) => issueTry { len := len, g := g, uses := uses } (fun c _ => f c) s
  | _ => issueSt { len := len, g := g, uses := [] } (fun _ _ s _ fb => ⟨s, .fault fb (illegal .privileged), 0⟩) s

/-- The events that RFT reports (R418). -/
def Core.events (c : Core) : Nat :=
  (if c.rq.any fun e => !e.popped then 1 else 0) + (if c.mailEv then 2 else 0) + (if c.tickEv then 4 else 0)

/-- A supervisor strand blocked in RFT goes on once an event is present: the mask is written and bits 1 and 2 are cleared (R418). -/
def State.rftWake (s : State) (core : Nat) : State :=
  let c := s.core core
  match c.rft with
  | none => s
  | some d =>
    if c.events = 0 then s
    else
      let s := s.setCore { c with rft := none, mailEv := false, tickEv := false }
      s.setFibre (.sup core) 0 ((s.fibre (.sup core) 0).dst false d c.events)

/-- RFT of one lane: a branch after which the strand is blocked (R418). -/
def rftLane (d : Dst) (t : Src) (c : Cx) (s : State) (fb : Fibre) : Except State LaneFx :=
  match branchLane c s fb (BitVec.ofNat 64 (fb.src .b64 t)) id with
  | .error s => .error s
  | .ok r =>
    if r.res.trap.isSome then .ok r
    else .ok { r with s := r.s.setCore { r.s.core c.who.core with rft := some d } }

/-- RFT (R418). -/
def execRft (g : Guard) (d : Dst) (t : Src) (s : State) : Host.Outcome State Fault Refusal :=
  match s.cur, privileged 8 g (useD 1 d ++ useS 2 t) (fun c s _ fb => rftLane d t c s fb) s with
  | some (.sup core), .next u => .next (u.rftWake core)
  | _, r => r

/-- Class codes of R362. -/
def FClass.num : FClass → Nat
  | .illegal => 0 | .arith => 1 | .xlate => 2 | .range => 3 | .align => 4 | .bound => 5 | .shape => 6 | .brk => 7 | .trap => 8
  | .syscall => 9 | .engpark => 10 | .halo => 11

/-- Restart kinds of R364. -/
def RKind.num : RKind → Nat
  | .at => 0 | .knot => 1 | .cursor => 2

/-- The 64-byte header of an entry (R364). -/
def Entry.header (e : Entry) : List Byte :=
  leBytes 64 (e.kpc.toNat + e.hpc.toNat * 2 ^ 64 + (if e.srl then 2 ^ 157 else 0) + (if e.rtry then 2 ^ 158 else 0) +
    RKind.num e.kind * 2 ^ 159 + FClass.num e.cls * 2 ^ 161 + e.tl % 8 * 2 ^ 165 + e.sid % 32 * 2 ^ 168 + e.rope.slot % 128 * 2 ^ 173 +
    e.ctx % 4096 * 2 ^ 180 + e.seq.toNat * 2 ^ 192 + e.opnum.toNat * 2 ^ 224 + e.info.toNat * 2 ^ 256 + e.fmask.toNat * 2 ^ 288 +
    e.fpc.toNat * 2 ^ 320 + e.rpc.toNat * 2 ^ 384 + e.fva.toNat * 2 ^ 448)

/-- A lane block (R366). -/
def LaneBlk.bytes (b : LaneBlk) : List Byte := bytesOfWords b.near ++ leBytes 8 b.lat.toNat

/-- A whole entry (R364, R366). -/
def Entry.bytes (e : Entry) : List Byte := e.header ++ e.lanes.flatMap LaneBlk.bytes

/-- RQPOP of the supervisor's lane (R419). -/
def rqpopLane (d : Dst) (p : Num4) (a : Src) (c : Cx) (s : State) (fb : Fibre) : Except State LaneFx :=
  let k := s.core c.who.core
  match k.rq.find? fun e => !e.popped with
  | none => .ok ⟨s, .ok ((fb.dst false d 0).setPred p false), 0⟩
  | some e =>
    let b := e.bytes
    let a := fb.src .b64 a
    if 2 ^ 54 < a + b.length then .ok ⟨s, .fault fb (rangeTrap .store a), 0⟩
    else
    let s := s.setCore { k with rq := k.rq.map fun (x : Entry) => if x = e then { x with popped := true } else x }
    .ok ⟨{ s with svMem := cellsWrite s.svMem a b }, .ok ((fb.dst false d b.length).setPred p true), 0⟩

/-- RQPOP (R419). -/
def execRqpop (g : Guard) (d : Dst) (p : Num4) (a : Src) (s : State) : Host.Outcome State Fault Refusal :=
  privileged 8 g (useD 1 d ++ useS 2 a) (fun c s _ fb => rqpopLane d p a c s fb) s

/-- An entry that a signal stop wrote (R427). -/
def Entry.isStop (e : Entry) : Bool := decide (e.cls = .trap ∧ 0xFFFFFF00 ≤ e.info.toNat)

/-- A fibre resumed by an entry of its own (R367, R368, R420). After a signal stop it waits again for what it waited for. -/
def State.resumeLane (s : State) (e : Entry) (l : Nat) : State :=
  let w : Who := .strand e.rope e.sid
  let s := match e.kind with
    | .knot => s.resumeKnot w l
    | _ =>
      let b := (lookupBy LaneBlk.lane l e.lanes).getD ⟨l, List.replicate 8 0, 0⟩
      s.resumeAt w l b.near b.lat e.rpc e.hpc
  if e.isStop then
    s.setFibre w l (s.fibre w l).waitAgain
  else s

/-- A fibre resumed at a header as a new region (R370, R420); a handler's SIGRET finds what it waited for (R427). -/
def State.redirect (s : State) (e : Entry) (l : Nat) (t : DWord) : State :=
  let w : Who := .strand e.rope e.sid
  let f := s.fibre w l
  (s.setFibre w l (if e.isStop then f else { f with stash := none :: f.stash })).resumeNew w l t

/-- An entry leaves the queue of its core (R420). -/
def State.freeEntry (s : State) (e : Entry) : State :=
  let c := s.core e.rope.core
  s.setCore { c with rq := c.rq.filter fun x => decide (x.seq ≠ e.seq) }

/-- A REPLAY of an entry (R369, R420); false: it has no effect. -/
def State.replayEntry (s : State) (e : Entry) (m : ReplayMode) (t : DWord) : State × Bool :=
  match e.op with
  | some id =>
    match m, s.op? id with
    | .hdr _, _ => (s, false)
    | .res, some o => ((s.freeEntry e).resumeOp { o with rtry := false }, true)
    | .kill, some o => ((s.freeEntry e).failOp o 2, true)
    | _, none => (s.freeEntry e, true)
  | none =>
    let s := s.freeEntry e
    let ls := lanesOf e.fmask
    match m with
    | .res => (ls.foldl (fun (s : State) l => s.resumeLane e l) s, true)
    | .hdr _ => (ls.foldl (fun (s : State) l => s.redirect e l t) s, true)
    | .kill => (ls.foldl (fun (s : State) l => s.endFibre e.rope e.sid l true) s, true)

/-- REPLAY of the supervisor's lane (R420). -/
def replayLane (p : Num4) (sq : Src) (m : ReplayMode) (c : Cx) (s : State) (fb : Fibre) : Except State LaneFx :=
  let n := BitVec.ofNat 32 (fb.src .b32 sq)
  let t := match m with
    | .hdr t => BitVec.ofNat 64 (fb.src .b64 t)
    | _ => 0
  match (s.core c.who.core).rq.find? fun e => decide (e.seq = n) && e.popped with
  | none => .ok ⟨s, .ok (fb.setPred p false), 0⟩
  | some e =>
    let r := s.replayEntry e m t
    .ok ⟨r.1, .ok (fb.setPred p r.2), 0⟩

/-- REPLAY (R420). -/
def execReplay (g : Guard) (p : Num4) (sq : Src) (m : ReplayMode) (s : State) : Host.Outcome State Fault Refusal :=
  privileged 8 g (useS 1 sq ++ match m with
    | .hdr t => useS 2 t
    | _ => []) (fun c s _ fb => replayLane p sq m c s fb) s

/-! ### SMOVR and SMOVW (R421, R422) -/

/-- The rope and fibre that a target word names on a core (R421). -/
def State.target? (s : State) (core t : Nat) : Option (Rope × Nat × Nat) :=
  ((s.ropes.find? fun r => decide (r.id.core = core ∧ r.id.slot = bits t 5 7 ∧ r.ended = false)).map fun r => (r, bits t 0 5, bits t 12 5))

/-- A fibre parked with a popped entry, or halted (R421). -/
def State.fibreOpen (s : State) (r : Rope) (sid l : Nat) : Bool :=
  let st := r.strands.getD sid Strand.init
  match (st.fibre l).st with
  | .empty => false
  | .parked q => (s.core r.id.core).rq.any (fun e => decide (e.seq = q) && e.popped) || r.halt || st.halted
  | _ => r.halt || st.halted

/-- The address at which a fibre stands. -/
def State.pcOf (s : State) (l : LaneId) : DWord :=
  let st := s.strand (laneWho l)
  let f := st.fibre l.lane
  match st.paths.find? fun p => p.mask.getLsbD l.lane with
  | some p => p.at
  | none => (f.cl.map Clause.ip).getD f.pc

/-- What a move ends in: bytes read, done, a failure, or an access to be repeated (R422). -/
inductive MovRes where
  | got (b : List Byte)
  | done
  | fail
  | again
  deriving DecidableEq, Repr

/-- A .va access (R421, R422): a page that is not present is offered to the service cores. -/
def State.smovVa (s : State) (core : Nat) (r : Rope) (sv : Bool) (ea n : Int) (put : Option (List Byte)) (ip : DWord) : State × MovRes :=
  if ea < 0 ∨ 2 ^ 54 < ea + n ∨ ea % n ≠ 0 then (s, .fail)
  else
    let cl := clusterOf core
    let k : XKind := if put.isSome then .store else .load
    let (s, q) := match put with
      | none => match s.vLoad cl r.ctx ea.toNat n.toNat .load (!sv) with
        | (s, .ok b) => (s, VRes.ok (MovRes.got b))
        | (s, .bad c) => (s, .bad c)
        | (s, .retry) => (s, .retry)
      | some b => match s.vStore cl r.ctx ea.toNat b .store (!sv) with
        | (s, .ok _) => (s, .ok .done)
        | (s, .bad c) => (s, .bad c)
        | (s, .retry) => (s, .retry)
    let c := s.core core
    match q with
    | .ok v => (s.setCore { c with svNo := false, svTry := false, svflt := if c.svTry then c.svflt + 1 else c.svflt }, v)
    | .retry => (s, .again)
    | .bad e =>
      if e = 1 ∧ !c.svNo then
        ((s.setCore { c with svWait := some ⟨.xlate, .knot, xlateInfo e k, BitVec.ofInt 64 ea, ip, ip⟩ }).send (.serviceReq core e), .again)
      else (s.setCore { c with svNo := false, svTry := false }, .fail)

/-- Item of space .st read (R421). -/
def State.stItem (s : State) (r : Rope) (sid l : Nat) (i n : Int) : Option (List Byte) :=
  let f := (r.strands.getD sid Strand.init).fibre l
  if n = 4 then
    match i with
    | 0 => some (leBytes 4 f.preds.toNat)
    | 1 => some (leBytes 4 f.fpctl.toNat)
    | 2 => some (leBytes 4 f.fpstat.toNat)
    | 3 => some (leBytes 4 f.intctl.toNat)
    | 4 => some (leBytes 4 f.smask.toNat)
    | _ => none
  else if n = 8 then
    match i with
    | 5 => some (leBytes 8 (s.pcOf ⟨r.id, sid, l⟩).toNat)
    | 6 => some (leBytes 8 f.kpc.toNat)
    | _ => none
  else none

/-- Item of space .st written, checked under R29 (R421, R422). -/
def Fibre.putItem (f : Fibre) (i n : Int) (v : Nat) : Option Fibre :=
  if n ≠ 4 then none
  else
    match i with
    | 0 => some { f with preds := BitVec.ofNat 16 v ||| 0x8000 }
    | 1 => if csrForbidden .fpctl v then none else some { f with fpctl := BitVec.ofNat 32 v }
    | 2 => if csrForbidden .fpstat v then none else some { f with fpstat := BitVec.ofNat 32 v }
    | 3 => if csrForbidden .intctl v then none else some { f with intctl := BitVec.ofNat 32 v }
    | 4 => if 65536 ≤ v then none else some { f with smask := BitVec.ofNat 16 v }
    | _ => none

/-- A rope with no incomplete tile operation (R421). -/
def State.tilesIdle (s : State) (r : Rope) : Bool :=
  let isTile := fun (k : OpKind) => match k with
    | .tile _ => true
    | _ => false
  !(s.ops.any fun o => decide (o.rope = r.id) && isTile o.kind) && r.ties.all fun t => match t.pending with
    | some p => !isTile p.kind
    | none => true

/-- A read of a space (R421, R422). -/
def State.smovRead (s : State) (core : Nat) (sp : SSpace) (sv : Bool) (n : Nat) (t : Nat) (ea : Int) (ip : DWord) : State × MovRes :=
  match s.target? core t with
  | none => (s, .fail)
  | some (r, sid, l) =>
    let st := r.strands[sid]?
    let ok := st.isSome && s.fibreOpen r sid l
    let opt := fun (b : Option (List Byte)) => (s, match b with
      | some b => MovRes.got b
      | none => .fail)
    match sp with
    | .va => s.smovVa core r sv ea n none ip
    | .win =>
      let w := ((st.getD Strand.init).fibre l).win
      if !ok ∨ ea < 0 ∨ w.length < ea + n / 4 ∨ 8 < n ∨ ea % (n / 4) ≠ 0 then (s, .fail)
      else (s, .got (bytesOfWords ((w.drop ea.toNat).take (n / 4))))
    | .st => opt (if ok then s.stItem r sid l ea n else none)
    | .spad => if ea < 0 ∨ (r.spadA : Int) < ea + n ∨ ea % n ≠ 0 then (s, .fail) else (s, .got (r.spadRead ea.toNat n))
    | .tile =>
      let o := ea.toNat % 18432
      if ea < 0 ∨ (r.ntiles : Int) ≤ ea / 18432 ∨ ea % n ≠ 0 ∨ !s.tilesIdle r then (s, .fail)
      else (s, .got (if o < 16384 then r.tileRead (ea.toNat / 18432) o n else r.sideRead (ea.toNat / 18432) (o - 16384) n))

/-- A write to a space (R421, R422). -/
def State.smovWrite (s : State) (core : Nat) (sp : SSpace) (sv : Bool) (b : List Byte) (t : Nat) (ea : Int) (ip : DWord) : State × MovRes :=
  let n := b.length
  match s.target? core t with
  | none => (s, .fail)
  | some (r, sid, l) =>
    let w : Who := .strand r.id sid
    let ok := (r.strands[sid]?).isSome && s.fibreOpen r sid l
    match sp with
    | .va => s.smovVa core r sv ea n (some b) ip
    | .win =>
      let f := s.fibre w l
      if !ok ∨ ea < 0 ∨ f.win.length < ea + n / 4 ∨ 8 < n ∨ ea % (n / 4) ≠ 0 then (s, .fail)
      else (s.setFibre w l (f.setRegs ea.toNat (wordsOf (n / 4) b)), .done)
    | .st => match (if ok then (s.fibre w l).putItem ea n (leNat b) else none) with
      | some f => (s.setFibre w l f, .done)
      | none => (s, .fail)
    | .spad =>
      if ea < 0 ∨ (r.spadA : Int) < ea + n ∨ ea % n ≠ 0 then (s, .fail) else (s.spadWrite r.id ea.toNat b, .done)
    | .tile =>
      let o := ea.toNat % 18432
      if ea < 0 ∨ (r.ntiles : Int) ≤ ea / 18432 ∨ ea % n ≠ 0 ∨ !s.tilesIdle r then (s, .fail)
      else (s.setRope (if o < 16384 then r.tileWrite (ea.toNat / 18432) o b else r.sideWrite (ea.toNat / 18432) (o - 16384) b), .done)

/-- The address operand of a move with its offset: 64 bits for .va, 32 bits signed for the others (R421). -/
def Fibre.smovAddr (f : Fibre) (sp : SSpace) (a : Src) (off : BitVec 32) : Int :=
  match sp with
  | .va => ((BitVec.ofNat 64 (f.src .b64 a) + off.signExtend 64).toNat : Int)
  | _ => sx 32 (f.src .b32 a) + off.toInt

/-- Registers of an address operand. -/
def useA (sp : SSpace) (a : Src) : List Nat := useS (if sp = .va then 2 else 1) a

/-- Words written to a destination: one, a pair, or a quad (R266, R412). -/
def Fibre.dstWords (f : Fibre) (d : Dst) (b : List Byte) : Fibre :=
  match d, wordsOf (b.length / 4) b with
  | .w i, ws => f.setRegs i.toNat ws
  | .n i, ws => (ws.zipIdx).foldl (fun (f : Fibre) q => f.setNreg (i.toNat + q.2) q.1.toNat) f
  | .lat, _ => f

/-- SMOVR (R421, R422). -/
def execSmovr (g : Guard) (sp : SSpace) (sv : Bool) (w : Width) (d : Dst) (p : Num4) (a t : Src) (off : BitVec 32) (s : State) :
    Host.Outcome State Fault Refusal :=
  privileged 16 g (useD (Width.words w) d ++ useA sp a ++ useS 1 t)
    (fun c s _ fb =>
      match s.smovRead c.who.core sp sv (widthBytes w) (fb.src .b32 t) (fb.smovAddr sp a off) c.ip with
      | (s, .got b) => .ok ⟨s, .ok ((fb.dstWords d b).setPred p true), 0⟩
      | (t, .again) => .error (s.unspent t)
      | (s, _) => .ok ⟨s, .ok (fb.setPred p false), 0⟩) s

/-- SMOVW (R421, R422). -/
def execSmovw (g : Guard) (sp : SSpace) (sv : Bool) (w : Width) (p : Num4) (a v t : Src) (off : BitVec 32) (s : State) :
    Host.Outcome State Fault Refusal :=
  privileged 16 g (useA sp a ++ useS (Width.words w) v ++ useS 1 t)
    (fun c s _ fb =>
      match s.smovWrite c.who.core sp sv (fb.storeBytes w v) (fb.src .b32 t) (fb.smovAddr sp a off) c.ip with
      | (s, .done) => .ok ⟨s, .ok (fb.setPred p true), 0⟩
      | (t, .again) => .error (s.unspent t)
      | (s, _) => .ok ⟨s, .ok (fb.setPred p false), 0⟩) s

/-! ### SIGPOST, PTINV, HALTC (R423 to R425) -/

/-- A process is bound to a context (R423). -/
def State.hasProcess (s : State) (ctx : Nat) : Bool := ((s.ctx? ctx).map fun c => !c.dead).getD false

/-- SIGPOST (R423). -/
def execSigpost (g : Guard) (p : Num4) (cs ss : Src) (s : State) : Host.Outcome State Fault Refusal :=
  privileged 8 g (useS 1 cs ++ useS 1 ss)
    (fun _ s _ fb =>
      let ctx := fb.src .b32 cs
      let sig := fb.src .b32 ss
      if sig = 0 ∨ 15 < sig ∨ !s.hasProcess ctx then .ok ⟨s, .ok (fb.setPred p false), 0⟩
      else .ok ⟨s.signalCtx ctx sig, .ok (fb.setPred p true), 0⟩) s

/-- PTINV (R214, R424): it stalls until every access that used an old entry has completed. -/
def execPtinv (g : Guard) (full : Bool) (a n : Src) (allc : Bool) (ctx : BitVec 12) (s : State) : Host.Outcome State Fault Refusal :=
  privileged 16 g (useS 2 a ++ useS 1 n)
    (fun _ s _ fb =>
      let page := fb.src .b64 a / 65536
      let n := min (fb.src .b32 n) (2 ^ 38 - page)
      if n = 0 then .ok ⟨s, .ok fb, 0⟩
      else
        match s.ptinv ⟨if allc then none else some ctx.toNat, page, n⟩ full with
        | (s, true) => .ok ⟨s, .ok fb, 0⟩
        | (s, false) => .error s) s

/-- A coil is quiesced (R425). -/
def State.quietCoil (s : State) (k : CoilKey) : Bool := ((s.stop? k).map Stop.quiet).getD false

/-- A coil that .cont may resume: halted, or left in place for want of room (R401, R425). -/
def State.canCont (s : State) (k : CoilKey) : Bool := ((s.stop? k).map fun x => x.quiet && (!x.save || x.full)).getD false

/-- Another core's HALTC for the context is under way: this one comes after it (R425). -/
def State.haltcBusy (s : State) (core ctx : Nat) : Bool :=
  s.cores.any fun c => decide (c.no ≠ core) && (c.svHold.map fun q => decide (q.1 = ctx)).getD false

/-- HALTC on a context (R425): the number written to d, or not complete yet. -/
def State.haltc (s : State) (core ctx : Nat) (m : HaltMode) : State × Option Nat :=
  let c := s.core core
  let ks := s.coils ctx
  if s.haltcBusy core ctx then (s, none)
  else
  match m with
  | .cont =>
    let ks := ks.filter s.canCont
    (ks.foldl State.contCoil s, some ks.length)
  | .save => (ks.foldl (fun (s : State) k => s.stopCoil k true) s, some ks.length)
  | .halt =>
    match c.svHold with
    | none =>
      let n := (ks.filter fun k => !s.quietCoil k).length
      if n = 0 then (s, some 0)
      else
        let s := ks.foldl (fun (s : State) k => s.stopCoil k false) s
        (s.setCore { s.core core with svHold := some (ctx, n) }, none)
    | some (_, n) => if ks.all s.quietCoil then (s.setCore { c with svHold := none }, some n) else (s, none)
  | .kill =>
    match c.svHold with
    | none =>
      if !((s.ctx? ctx).map Context.resident).getD false then (s, some 0)
      else
        let s := s.killCtx ctx
        if ks = [] then (s, some 0) else (s.setCore { s.core core with svHold := some (ctx, ks.length) }, none)
    | some (_, n) => if ks = [] then (s.setCore { c with svHold := none }, some n) else (s, none)

/-- HALTC (R425). -/
def execHaltc (g : Guard) (m : HaltMode) (d : Dst) (cs : Src) (s : State) : Host.Outcome State Fault Refusal :=
  privileged 8 g (useD 1 d ++ useS 1 cs)
    (fun c s _ fb =>
      match s.haltc c.who.core (fb.src .b32 cs) m with
      | (s, some n) => .ok ⟨s, .ok (fb.dst false d n), 0⟩
      | (s, none) => .error s) s

/-! ### Events of the replay queue and the supervisor strand -/

/-- A park that waits for its entry. -/
def State.parking? (s : State) (r : RopeId) (sid : Nat) (lanes : BitVec 32) (f : FaultInfo) : Option Parking :=
  (s.core r.core).parking.find? fun p =>
    decide (p.rope = r ∧ p.sid = sid ∧ p.mask = lanes ∧ p.flt = ⟨f.cls, f.kind, f.info, f.fva, f.rpc⟩ ∧ p.fpc = f.fpc)

/-- FAULT_PARK: a park whose earlier operations are translated is written to the queue; where that is full, its strand stops issuing
(R363, R367, R375). -/
def execFaultPark (r : RopeId) (sid : Nat) (lanes : BitVec 32) (f : FaultInfo) (s : State) : Host.Outcome State Fault Refusal :=
  match s.parking? r sid lanes f with
  | none => s.noEvent
  | some p =>
    if !s.parkReady p ∨ (s.strand (.strand r sid)).full then s.noEvent
    else if (s.core r.core).room then .next (s.writeEntry p)
    else .next (s.setStrand (.strand r sid) { s.strand (.strand r sid) with full := true })

/-- REPLAY_QUEUE_ROOM: an entry has been freed, and what waits for one is written (R375). -/
def execReplayQueueRoom (core : Nat) (s : State) : Host.Outcome State Fault Refusal :=
  let waits := (s.core core).parking.any (fun p => s.parkReady p && (s.strand (.strand p.rope p.sid)).full) ||
    s.ops.any fun o => decide (o.core = core) && s.unqueued o
  if (s.core core).room && waits then .next ((s.flushParks core).flushOps core) else s.noEvent

/-- SUPERVISOR_FAULT: a translation fault of the supervisor strand goes to the service cores and blocks it; one that cannot be
resolved, or any other class, stops the core (R376). -/
def execSupervisorFault (core : Nat) (f : FaultInfo) (resolvable : Bool) (s : State) : Host.Outcome State Fault Refusal :=
  let c := s.core core
  if c.sv.cur.isNone || c.svWait.isSome || c.stopped then s.noEvent
  else if resolvable && f.cls == .xlate then .next ((s.setCore { c with svWait := some f }).send (.serviceReq core f.info.toNat))
  else .next (s.stopCore core f)

/-- The supervisor strand's path goes past the word it stands at. -/
def Strand.pass (st : Strand) (len : Nat) : Strand :=
  match st.cur with
  | some p => match p.cl with
    | some cl =>
      let a := nextIp cl.ip len
      if cl.left ≤ 1 then { st with cur := some { p with pc := a, cl := none } }
      else { st with cur := some { p with cl := some { cl with ip := a, left := cl.left - 1, first := false } } }
    | none => st
  | none => st

/-- SUPERVISOR_FAULT_RESOLUTION: the blocked strand goes on and retries its access; a BKPT that the debugger resumes is passed; a
fault of SMOVR or SMOVW that stays unresolved makes that instruction report failure (R376, R416, R422, R448). -/
def execSupervisorFaultResolution (core : Nat) (ok : Bool) (s : State) : Host.Outcome State Fault Refusal :=
  let c := s.core core
  match c.svWait with
  | none => s.noEvent
  | some f =>
    if c.stopped then s.noEvent
    else if f.kind = .knot then .next (s.setCore { c with svWait := none, svNo := !ok, svTry := ok })
    else if !ok then .next (s.stopCore core f)
    else if f.cls = .brk then .next (s.setCore { c with svWait := none, sv := c.sv.pass 8 })
    else .next (s.setCore { c with svWait := none, svflt := c.svflt + 1 })

/-- SUPERVISOR_TICK: event bit 2 every 100 µs (R418). -/
def execSupervisorTick (core : Nat) (s : State) : Host.Outcome State Fault Refusal :=
  let c := s.core core
  if c.tickAt + 100000 ≤ s.gtime ∧ c.no = core ∧ (s.cores.any fun k => k.no = core) then
    .next (s.setCore { c with tickAt := s.gtime, tickEv := true })
  else s.noEvent

/-- MAILBOX_WRITE: 64 bytes at the head of the supervisor page, then event bit 1 (R458). -/
def execMailboxWrite (core : Nat) (bytes : List Byte) (s : State) : Host.Outcome State Fault Refusal :=
  if 64 < bytes.length then s.noEvent
  else
    let s := { s with svMem := cellsWrite s.svMem (Config.svPage core).toNat bytes }
    .next (s.setCore { s.core core with mailEv := true })

end Sys2Proof.Machine
end

