-- ==== Sys2Proof/Machine/Launch.lean ====
section
/-! DEFINITION. Launches: packets and their checks, queues, dependences, budgets, placement, dispatch, the ends of ropes, completion, and
launches over several chips (R143 to R150, R161, R186 to R200, R459, R461). -/

namespace Sys2Proof.Machine

/-! ### The launch packet (R186, R187) -/

/-- A field of a packet by bit range (R186). -/
def Launch.fld (l : Launch) (lo len : Nat) : Nat := bits (leNat l.packet) lo len
/-- Ropes of a coil in x, y and z. -/
def Launch.coilExt (l : Launch) : Nat × Nat × Nat := (l.fld 128 8, l.fld 136 8, l.fld 144 8)
/-- Coils of a stage in x, y and z. -/
def Launch.ext (l : Launch) : Nat × Nat × Nat := (l.fld 256 32, l.fld 288 32, l.fld 320 32)
/-- Product of a triple. -/
def vol (e : Nat × Nat × Nat) : Nat := e.1 * e.2.1 * e.2.2
/-- Fibres of a rope (R144). -/
def Launch.nf (l : Launch) : Nat := l.fld 64 16 * l.fld 80 16 * l.fld 96 16
/-- Strands of a rope (R143). -/
def Launch.ns (l : Launch) : Nat := cdiv l.nf 32
/-- Window size. -/
def Launch.win (l : Launch) : Nat := l.fld 112 16
/-- Stages. -/
def Launch.stages (l : Launch) : Nat := l.fld 152 8
/-- Scratchpad allocation of a rope (R188). -/
def Launch.alloc (l : Launch) : Nat := max 1024 (roundUp 1024 (l.fld 192 32))
/-- Chip group, 0: this device alone. -/
def Launch.chips (l : Launch) : Nat := l.fld 224 16
/-- Generation of a multi-chip start. -/
def Launch.gen (l : Launch) : Word := BitVec.ofNat 32 (l.fld 352 32)
/-- Budget class. -/
def Launch.cls (l : Launch) : Nat := l.fld 176 8

/-- The conditions of R187 that a packet fails, each by the byte offset of its lowest field; a product that only a zero extent spoils
fails by that extent's own field (log 71). -/
def Launch.faults (l : Launch) (grouped : Bool) : List Nat :=
  let e := l.fld 0 64
  let need := fun (ok : Bool) (o : Nat) => if ok then [] else [o]
  need (decide (e % 4 = 0 ∧ e % 32 ≠ 28 ∧ e < 2 ^ 54)) 0 ++
  [(64, 16), (80, 16), (96, 16), (128, 8), (136, 8), (144, 8), (256, 32), (288, 32), (320, 32)].flatMap (fun f =>
    need (decide (1 ≤ l.fld f.1 f.2)) (f.1 / 8)) ++
  need (decide (l.nf ≤ 1024)) 8 ++ need (decide (8 ≤ l.win ∧ l.win ≤ 256 ∧ l.win % 8 = 0)) 14 ++ need (decide (vol l.coilExt ≤ 8)) 16 ++
  need (decide (1 ≤ l.stages ∧ l.stages ≤ 16 ∧ l.stages * vol l.ext ≤ 2 ^ 32)) 19 ++ need (decide (l.fld 160 8 ≤ 16)) 20 ++
  need (decide (l.fld 168 8 ≤ 3)) 21 ++ need (decide (l.cls ≤ 15)) 22 ++ need (decide (l.fld 184 8 ≤ 6)) 23 ++
  need (decide (cdiv l.ns 4 * l.win ≤ 1024)) 8 ++ need (decide (l.alloc ≤ 704 * 1024)) 24 ++ need (l.chips == 0 || grouped) 28 ++
  need (l.fld 240 16 == 0) 30 ++ need (l.fld 576 448 == 0) 72

/-- The byte offset of the lowest failing field (R187); none: the packet passes. -/
def State.badPacket (s : State) (l : Launch) : Option Nat :=
  listMin (l.faults ((lookupBy Group.no l.chips s.groups).isSome))

/-! ### Acceptance (R190, R198, R199, R459) -/

/-- A generation comes after another (R199). -/
def genAfter (gen last : Word) : Bool := decide (1 ≤ (gen - last).toNat ∧ (gen - last).toNat < 2 ^ 31)

/-- Coil indices of member j of n (R198). -/
def shareOf (j n c : Nat) : Nat × Nat := (j * c / n, (j + 1) * c / n)

/-- Position of a peer in a member list. -/
def memberIx (ms : List (Nat × Nat)) (p : Nat) : Option Nat := ms.findIdx? fun m => decide (m.1 = p)

/-- A service-core MSG of a chip group (log 63): kind (0 a replica of a packet, 1 ready, 2 not ready, 3 open, 4 a status reported,
5 the group's status), group, receiver's context, status and generation. -/
def groupTag (kind group ctx status : Nat) (gen : Word) : BitVec 128 :=
  BitVec.ofNat 128 (kind + group * 2 ^ 8 + ctx * 2 ^ 24 + status * 2 ^ 40 + gen.toNat * 2 ^ 48)

/-- A service-core MSG leaves for a member of a chip group (R198, R466). -/
def State.groupSend (s : State) (l : Launch) (m : Nat × Nat) (kind status : Nat) (b : List Byte) : State :=
  s.sendTx { tid := 0, dst := m.1, kind := .msg, addr := 0, mask := groupTag kind l.chips m.2 status l.gen, data := b, atom := none,
             cls := 17, wct := 0, what := .none }

/-- The group of a launch. -/
def State.groupOf (s : State) (l : Launch) : Option Group := if l.chips = 0 then none else lookupBy Group.no l.chips s.groups

/-- The members of a launch's group but this device. -/
def State.partners (s : State) (l : Launch) : List (Nat × Nat) :=
  (((s.groupOf l).map Group.members).getD []).filter fun m => decide (m.1 ≠ s.chip)

/-- A launch of a context replaced. -/
def State.setLaunch (s : State) (ctx : Nat) (l : Launch) : State :=
  match s.ctx? ctx with
  | some c => s.setCtx { c with queue := upsert Launch.q l c.queue }
  | none => s

/-- The next free queue entry (R190): the lowest-numbered one (log 71). -/
def Context.freeEntry (c : Context) : Option Nat := (List.range 16).find? fun q => !c.queue.any fun l => decide (l.q = q)

/-- Every member has reported ready: the launch opens on all of them (R198, R199). -/
def State.openGroup (s : State) (ctx : Nat) (l : Launch) : State :=
  match s.groupOf l with
  | none => s
  | some g =>
    if g.members.all fun m => l.readyM.contains m.1 then
      let s := { s with groups := upsert Group.no { g with last := l.gen } s.groups }
      (s.partners l).foldl (fun (s : State) m => s.groupSend l m 3 0 []) (s.setLaunch ctx { l with st := .running, opened := true })
    else s.setLaunch ctx l

/-- The group's launch fails before any rope of it starts (R198). -/
def State.failGroup (s : State) (ctx : Nat) (l : Launch) : State :=
  (s.partners l).foldl (fun (s : State) m => s.groupSend l m 5 4 []) (s.setLaunch ctx { l with st := .failing 4, final := some 4 })

/-- A packet is accepted into a context's queue (R187, R190, R198, R199, R459): one that fails its checks completes at once. `boss`:
the device that accepted it; `failed`: the launch has failed there already. False: the queue is full. -/
def State.accept (s : State) (c : Context) (packet : List Byte) (boss : Nat) (failed : Bool := false) : State × Bool :=
  match c.freeEntry with
  | none => (s, false)
  | some q =>
    let l : Launch := { q := q, seq := c.nextSeq, packet := padTo 128 packet, st := .running, boff := 0, gone := [], ended := 0, lo := 0, hi := 0,
                        readyM := [], doneM := [], boss := boss, final := none, opened := false }
    let l := { l with hi := vol l.ext }
    let put := fun (s : State) (l : Launch) => s.setCtx { c with nextSeq := c.nextSeq + 1, queue := c.queue ++ [l] }
    let bad := s.badPacket l
    -- a replica that this device cannot run: it tells the device that accepted the launch (R198)
    let no := fun (s : State) => ((put s { l with st := .failing 4, final := some 4 }).groupSend l (boss, 0) 2 0 [], true)
    if c.dead then if boss = s.chip then (put s { l with st := .failing 5 }, true) else no s
    else
      match s.groupOf l with
      | none => if boss = s.chip then (put s (match bad with
          | some o => { l with st := .failing 1, boff := o }
          | none => l), true)
        else no s
      | some g =>
        match memberIx g.members s.chip with
        | none => if boss = s.chip then (put s { l with st := .failing 4, final := some 4 }, true) else no s
        | some j =>
          let sh := shareOf j g.members.length (vol l.ext)
          let l := { l with lo := sh.1, hi := sh.2, st := .group s.gtime, readyM := [s.chip] }
          let ok := bad.isNone && genAfter l.gen g.last
          if boss = s.chip then
            if ok then ((s.partners l).foldl (fun (s : State) m => s.groupSend l m 0 0 l.packet) ((put s l).openGroup c.no l), true)
            else
              -- the other members take the packet with the status that it has already come to (R198; log 63)
              let s := put s { l with st := .failing 4, final := some 4 }
              ((s.partners l).foldl (fun (s : State) m => s.groupSend l m 0 4 l.packet) s, true)
          else if failed then (put s { l with st := .failing 4, final := some 4 }, true)
          else
            match g.members.find? fun m => decide (m.1 = boss) with
            | some m => ((put s l).groupSend l m (if ok then 1 else 2) 0 [], true)
            | none => no s

/-- LAUNCH_SUBMISSION (R454, R459). Answers: 0 Successful, 1 Retry, 2 Unsupported Request; a posted write is only dropped. -/
def execLaunchSubmission (page off : Nat) (bytes : List Byte) (posted : Bool) (s : State) : Host.Outcome State Fault Refusal :=
  if s.boot ≠ .ready then .next (s.send (.submit 2))
  else if posted then .next { s with discarded := s.discarded + 1 }
  else if bytes.length ≠ 128 ∨ off ≠ 0 then .next (s.send (.submit 2))
  else
    match s.ctx? page with
    | none => .next ({ s with discarded := s.discarded + 1 }.send (.submit 0))
    | some c =>
      match s.accept c bytes s.chip with
      | (s, true) => .next (s.send (.submit 0))
      | (s, false) => .next (s.send (.submit 1))

/-! ### Several chips (R198 to R200) -/

/-- The launch that awaits its group's start on this device. -/
def State.groupLaunch (s : State) (ok : Launch → Bool) : Option (Context × Launch) :=
  s.ctxs.findSome? fun c => (c.queue.find? ok).map fun l => (c, l)

/-- A launch waits for its group. -/
def Launch.waiting (l : Launch) : Option Nat :=
  match l.st with
  | .group t => some t
  | _ => none

/-- GROUP_READY: a member reports to the accepting device that it is ready for a generation, or that a check failed there (R198). -/
def execGroupReady (group : Nat) (gen : Word) (peer : Nat) (ok : Bool) (s : State) : Host.Outcome State Fault Refusal :=
  match s.groupLaunch fun l => decide (l.chips = group ∧ l.gen = gen ∧ l.boss = s.chip) && l.waiting.isSome with
  | none => s.noEvent
  | some (c, l) =>
    if !((lookupBy Group.no group s.groups).map fun g => g.members.any fun m => decide (m.1 = peer)).getD false then s.noEvent
    else if ok then .next (s.openGroup c.no { l with readyM := (peer :: l.readyM).eraseDups })
    else .next (s.failGroup c.no l)

/-- GROUP_TIMEOUT: a member has not been ready within 1 ms (R198). -/
def execGroupTimeout (group : Nat) (s : State) : Host.Outcome State Fault Refusal :=
  match s.groupLaunch fun l => decide (l.chips = group ∧ l.boss = s.chip) && (l.waiting.map fun t => decide (t + 1000000 ≤ s.gtime)).getD false with
  | none => s.noEvent
  | some (c, l) => .next (s.failGroup c.no l)

/-! ### Dependences (R192 to R194) -/

/-- What a test of producer bits ends in. -/
inductive DepRes where
  | ready | wait | fault | again
  deriving DecidableEq, Repr

/-- A bit of a bitmap read with device-scope acquires (R192, R193). -/
def State.depBit (s : State) (ctx map b : Nat) : State × DepRes :=
  match s.vLoad 0 ctx (map + b / 8) 1 .load true with
  | (s, .ok v) => (s, if bit (leNat v) (b % 8) then .ready else .wait)
  | (s, .bad _) => (s, .fault)
  | (s, .retry) => (s, .again)

/-- Bits tested in order as long as each is set. -/
def State.depBits (s : State) (ctx map : Nat) (l : List Nat) : State × DepRes :=
  l.foldl (fun (a : State × DepRes) b => if a.2 = .ready then a.1.depBit ctx map b else a) (s, .ready)

/-- Numbers of an interval around a coordinate, inside an extent. -/
def around (g r ext : Nat) : List Nat := (List.range (2 * r + 1)).filterMap fun i => if r ≤ g + i ∧ g + i - r < ext then some (g + i - r) else none

/-- The producers of a rope within their stage, by map kind; the list kind is read from memory (R192). -/
def producers (dep r : Nat) (g p : Nat × Nat × Nat) : List (Nat × Nat × Nat) :=
  let inX := if g.1 < p.1 then [g.1] else []
  let inY := if g.2.1 < p.2.1 then [g.2.1] else []
  let inZ := if g.2.2 < p.2.2 then [g.2.2] else []
  let grid := fun (xs ys zs : List Nat) => zs.flatMap fun z => ys.flatMap fun y => xs.map fun x => (x, y, z)
  match dep with
  | 1 => grid inX inY inZ
  | 2 => grid (List.range p.1) inY inZ
  | 3 => grid inX (List.range p.2.1) inZ
  | 4 => grid (around g.1 r p.1) (around g.2.1 r p.2.1) inZ
  | 5 => grid (List.range p.1) (List.range p.2.1) (List.range p.2.2)
  | _ => []

/-- Index of a rope within a stage of an extent (R192). -/
def ropeIx (p g : Nat × Nat × Nat) : Nat := (g.2.2 * p.2.1 + g.2.1) * p.1 + g.1

/-- The run of indices that the list table gives a rope (R193, R194). -/
def State.listRun (s : State) (ctx list n i : Nat) : State × Except DepRes (List Nat) :=
  let rd := fun (s : State) (a k : Nat) => s.vLoadN 0 ctx a k .load true
  match rd s (list + 8 * i) 8 with
  | (s, .bad _) => (s, .error .fault)
  | (s, .retry) => (s, .error .again)
  | (s, .ok e) =>
    let start := fieldAt e 0 4
    let count := fieldAt e 4 4
    if 4096 < count then (s, .error .fault)
    else
      match rd s (list + 8 * n + 4 * start) (4 * count) with
      | (s, .bad _) => (s, .error .fault)
      | (s, .retry) => (s, .error .again)
      | (s, .ok b) => (s, .ok ((List.range count).map fun k => fieldAt b (4 * k) 4))

/-- Ropes of a coil by their coordinates in it, x running fastest. -/
def Launch.ropesIn (l : Launch) : List (Nat × Nat × Nat) :=
  let (cx, cy, cz) := l.coilExt
  (List.range cz).flatMap fun z => (List.range cy).flatMap fun y => (List.range cx).map fun x => (x, y, z)

/-- Coordinates of coil c in its stage (R191). -/
def Launch.coilXyz (l : Launch) (c : Nat) : Nat × Nat × Nat :=
  let (ex, ey, _) := l.ext
  (c % ex, c / ex % ey, c / (ex * ey))

/-- The stage extent in ropes (R192). -/
def Launch.stageExt (l : Launch) : Nat × Nat × Nat :=
  (l.ext.1 * l.coilExt.1, l.ext.2.1 * l.coilExt.2.1, l.ext.2.2 * l.coilExt.2.2)

/-- Global coordinates of a rope of a coil (R192). -/
def Launch.global (l : Launch) (c : Nat) (r : Nat × Nat × Nat) : Nat × Nat × Nat :=
  let k := l.coilXyz c
  (k.1 * l.coilExt.1 + r.1, k.2.1 * l.coilExt.2.1 + r.2.1, k.2.2 * l.coilExt.2.2 + r.2.2)

/-- Completion bit index of a rope (R192). -/
def Launch.bitOf (l : Launch) (stage c : Nat) (r : Nat × Nat × Nat) : Nat :=
  stage * vol l.stageExt + ropeIx l.stageExt (l.global c r)

/-- Every rope of a coil has its producer bits set (R191 to R194). -/
def State.depReady (s : State) (ctx : Nat) (l : Launch) (stage c : Nat) : State × DepRes :=
  let a := l.fld 512 64
  let dep := l.fld 184 8
  if a = 0 then (s, .ready)
  else
    match s.vLoadN 0 ctx a 64 .load true with
    | (s, .bad _) => (s, .fault)
    | (s, .retry) => (s, .again)
    | (s, .ok d) =>
      let own := fieldAt d 0 8
      let prod := fieldAt d 8 8
      let p := if stage = 0 then (fieldAt d 20 4, fieldAt d 24 4, fieldAt d 28 4) else l.stageExt
      let map := if stage = 0 then prod else own
      let base := if stage = 0 then 0 else (stage - 1) * vol l.stageExt
      if dep = 0 ∨ (stage = 0 ∧ prod = 0) then (s, .ready)
      else if map = 0 then (s, .wait)
      else
        l.ropesIn.foldl (fun (acc : State × DepRes) r =>
          if acc.2 ≠ .ready then acc
          else
            let g := l.global c r
            if dep = 6 then
              match acc.1.listRun ctx (fieldAt d 32 8) (vol l.stageExt) (ropeIx l.stageExt g) with
              | (s, .error e) => (s, e)
              | (s, .ok is) => if is.any fun i => decide (vol p ≤ i) then (s, .fault) else s.depBits ctx map (is.map (base + ·))
            else acc.1.depBits ctx map ((producers dep (fieldAt d 40 1) g p).map fun x => base + ropeIx p x)) (s, .ready)

/-- What a coil depends on tested in the name of its launch: what has been asked of peers stands, with their answers, until the test goes
through (R193, R194; log 73). -/
def State.depTry (s : State) (ctx : Nat) (l : Launch) (stage c : Nat) : State × DepRes :=
  match (s.as (.launch ctx l.seq stage c)).depReady ctx l stage c with
  | (t, .again) => ((s.unspent t).as s.agent, .again)
  | (t, r) => (t.as s.agent, r)

/-! ### Budgets and room (R161, R188, R195, R196) -/

/-- Ropes of a class resident now (R195). -/
def State.coresUsed (s : State) (ctx cls : Nat) : Nat :=
  (s.ropes.filter fun r => decide (r.ctx = ctx ∧ r.ended = false) && match (s.ctx? ctx).bind fun c => lookupBy Launch.q r.qent c.queue with
    | some l => decide (l.cls = cls)
    | none => false).length

/-- A class admits n more ropes (R195). -/
def State.admits (s : State) (c : Context) (cls n : Nat) : Bool :=
  match c.budgets[cls]? with
  | some b => decide (s.coresUsed c.no cls + n ≤ b.cores ∧ b.hbmC < b.hbm ∧ b.powC < b.power)
  | none => false

/-- What a rope needs of its core. -/
structure Need where
  ns    : Nat
  win   : Nat
  alloc : Nat
  tiles : Nat
  part  : Nat
  deriving DecidableEq, Repr

/-- The ropes of a placement with their partitions. -/
def seatsOf (p : Placement) : List (RopeId × Nat) := p.ropes.zip p.parts

/-- A placement names one partition for each rope, a cluster of the device, and no banned core. -/
def placementOk (p : Placement) (banned : List Nat) : Bool :=
  decide (p.parts.length = p.ropes.length ∧ p.cluster < 360) && p.parts.all (fun b => decide (b < 4)) && p.ropes.all fun r => !banned.contains r.core

/-- Strands of a rope that stand on a partition (R161). -/
def onPart (ns b p : Nat) : Nat := ((List.range ns).filter fun i => decide ((b + i) % 4 = p)).length

/-- Ropes that hold resources of a core. -/
def State.onCore (s : State) (core : Nat) : List Rope := s.ropes.filter fun r => decide (r.id.core = core)

/-- The lowest gap in a core's scratchpad part for an allocation (R147, R188, R202). -/
def sramGap (rs : List Rope) (n : Nat) : Option Nat :=
  listMin ((0 :: rs.map fun r => r.sramOff + r.spadA).filter fun o =>
    decide (o + n ≤ 704 * 1024) && rs.all fun r => decide (o + n ≤ r.sramOff ∨ r.sramOff + r.spadA ≤ o))

/-- A core can take a rope: where its allocation would lie (R196). -/
def State.takes (s : State) (id : RopeId) (n : Need) : Option Nat :=
  let rs := s.onCore id.core
  let live := rs.filter fun r => !r.ended
  let fits := (List.range 4).all fun p =>
    let k := onPart n.ns n.part p
    let ks := live.map fun r => (onPart r.strands.length r.part p, r.size)
    decide (k + (ks.map Prod.fst).sum ≤ 32 ∧ k * n.win + (ks.map fun q => q.1 * q.2).sum ≤ 1024)
  if id.slot < 128 ∧ id.core < 2880 ∧ !(rs.any fun r => decide (r.id = id)) ∧ fits ∧ n.tiles + (live.map Rope.ntiles).sum ≤ 16 then
    sramGap rs n.alloc
  else none

/-- A placeholder of a rope that takes its room on a core while the rest of its coil is placed. -/
def shell (id : RopeId) (n : Need) (off : Nat) : Rope :=
  { id := id, ctx := 0, qent := 0, stage := 0, coil := 0, coilXyz := (0, 0, 0), ropeXyz := (0, 0, 0), ridx := 0, nrope := 0, nf := 0,
    size := n.win, bidx := 0, spadA := n.alloc, sramOff := off, spad := [], ntiles := n.tiles,
    tiles := List.replicate n.tiles [], planes := List.replicate n.tiles [], tcs := List.replicate 16 0, hbars := List.replicate 16 Hbar.init,
    ties := List.replicate 16 Tie.init, tls := List.replicate 8 ⟨0, 0, []⟩, strands := List.replicate n.ns Strand.init, part := n.part, shapes := 0,
    staged := [], stagers := [], engSig := none, engInfo := 0, stopping := none, halt := false, fetching := false, crowd := false, killed := false, vis := 0, ended := false }

/-- Room for ropes on cores of one cluster, taken in order: their offsets (R196). -/
def State.placeAll (s : State) (cl : Nat) : List (RopeId × Need) → Option (List Nat)
  | [] => some []
  | (id, n) :: l =>
    if clusterOf id.core ≠ cl then none
    else match s.takes id n with
      | none => none
      | some o => (State.placeAll { s with ropes := s.ropes ++ [shell id n o] } cl l).map fun os => o :: os

/-- The first core of a cluster that takes a rope, but for banned ones, its first free slot, and the first partition for strand 0 with
which it does (R161, R196). -/
def State.firstFit (s : State) (banned : List Nat) (cl : Nat) (n : Need) : Option (RopeId × Need) :=
  (((List.range 8).map fun i => cl * 8 + i).filter fun c => !banned.contains c).findSome? fun c =>
    ((List.range 128).map fun k => (⟨c, k⟩ : RopeId)).find? (fun id => !(s.ropes.any fun r => decide (r.id = id))) |>.bind fun id =>
      ((List.range 4).find? fun b => (s.takes id { n with part := b }).isSome).map fun b => (id, { n with part := b })

/-- A placement of ropes on one cluster, each on the first core with room. -/
def State.fitAll (s : State) (banned : List Nat) (cl : Nat) : List Need → Option (List (RopeId × Nat))
  | [] => some []
  | n :: l => match s.firstFit banned cl n with
    | none => none
    | some (id, n) => (State.fitAll { s with ropes := s.ropes ++ [shell id n (((s.takes id n).getD 0))] } banned cl l).map fun ids => (id, n.part) :: ids

/-- Some cluster has room for ropes: the first one, with a placement (R196). -/
def State.someRoom (s : State) (banned : List Nat) (ns : List Need) : Option Placement :=
  (List.range 360).findSome? fun cl => (s.fitAll banned cl ns).map fun ids => ⟨cl, ids.map Prod.fst, ids.map Prod.snd⟩

/-- The cores that a stop of a context frees: none of its coils is dispatched there (R393). -/
def State.banned (s : State) (ctx : Nat) : List Nat :=
  (s.ropes.filter fun r => decide (r.ctx = ctx) && s.stops.any fun x => decide (x.key = r.key)).map fun r => r.id.core

/-- The lowest gap of n registers between windows of a partition's register file (R161; log 69). -/
def windowGap (l : List (Nat × Nat)) (n : Nat) : Option Nat :=
  listMin ((0 :: l.map fun q => q.1 + q.2).filter fun o => decide (o + n ≤ 1024) && l.all fun q => decide (o + n ≤ q.1 ∨ q.1 + q.2 ≤ o))

/-- Origin and size of the windows that strands of ropes hold in a partition. -/
def windowsIn (rs : List Rope) (p : Nat) : List (Nat × Nat) :=
  (rs.filter fun r => !r.ended).flatMap fun r => r.strands.zipIdx.filterMap fun q => if (r.part + q.2) % 4 = p then some (q.1.base, r.size) else none

/-- The strands of a rope given their windows' origins beside other ropes of the core. None: no gap is wide enough. -/
def Rope.seat (rs : List Rope) (r : Rope) : Option Rope :=
  (List.range r.strands.length).foldl (fun (a : Option Rope) i => a.bind fun a =>
    let p := (r.part + i) % 4
    (windowGap (windowsIn rs p ++ windowsIn [{ a with strands := a.strands.take i }] p) r.size).map fun o =>
      { a with strands := a.strands.set i { a.strands.getD i Strand.init with base := o } }) (some r)

/-- Ropes made resident, with origins for their windows; where no gap is wide enough the windows of the core move together (log 69). -/
def State.seated (s : State) (new : List Rope) : State :=
  new.foldl (fun (s : State) r => match r.seat (s.onCore r.id.core) with
    | some r => { s with ropes := s.ropes ++ [r] }
    | none =>
      let all := s.onCore r.id.core ++ [r]
      let packed := all.foldl (fun (acc : List Rope) x => acc ++ [(x.seat acc).getD x]) []
      { s with ropes := (s.ropes ++ [r]).map fun x => (packed.find? fun y => decide (y.id = x.id)).getD x }) s

/-- What each rope of a launch needs. -/
def Launch.need (l : Launch) (part : Nat) : Need := ⟨l.ns, l.win, l.alloc, l.fld 160 8, part⟩

/-- A rope fits on an empty core; if not, NOFIT (R196). -/
def Launch.fitsEmpty (l : Launch) : Bool := (State.takes State.reset ⟨0, 0⟩ (l.need 0)).isSome

/-! ### Dispatch (R190, R191, R195, R393) -/

/-- All coils of the launch that this device takes are dispatched; those of other members of its chip group do not count (log 71). -/
def Launch.allGone (l : Launch) : Bool := decide (l.stages * (l.hi - l.lo) ≤ l.gone.length)

/-- The launch takes part in dispatch. -/
def Launch.isRunning (l : Launch) : Bool := decide (l.st = .running)

/-- Every rope of the launch is dispatched. One that fails with ropes left holds back the next until it completes (R190). -/
def Launch.past (l : Launch) : Bool :=
  match l.st with
  | .failing _ | .running => l.allGone
  | _ => false

/-- Queue entries in arrival order, up to the first that still has ropes to dispatch, that one included (R190). -/
def openOf : List Launch → List Launch
  | [] => []
  | l :: more => if l.past then l :: openOf more else [l]

/-- A context's coils may be dispatched: resident and not stopped (R428). -/
def State.dispatches (s : State) (c : Context) : Bool :=
  s.boot == .ready && !s.thermal && c.resident && !c.leaving && !c.dead && !c.stopped

/-- A saved coil of the class waits to be restored, ahead of every new coil of it (R195). -/
def Context.savedFirst (c : Context) (cls : Nat) : Bool := c.saved.any fun x => decide (x.cls = cls)

/-- A coil may start but for its place in the order: its launch is open, its producers are done or faulty, its class admits it. -/
def State.canStart (s : State) (c : Context) (l : Launch) (stage coil : Nat) : Bool :=
  let ok := (s.depTry c.no l stage coil).2
  !l.gone.contains (stage, coil) && (ok == .fault || !l.fitsEmpty ||
    ok == .ready && !c.savedFirst l.cls && s.admits c l.cls (vol l.coilExt) &&
      (s.someRoom (s.banned c.no) (l.ropesIn.map fun _ => l.need 0)).isSome)

/-- What open launches depend on in the memory of peers is asked for, and asked again where it still holds a launch back (R193, R194). -/
def State.depPoll (s : State) : State :=
  (s.ctxs.filter s.dispatches).foldl (fun (s : State) c =>
    ((openOf c.queue).filter fun l => l.isRunning && l.fld 512 64 != 0).foldl (fun (s : State) l =>
      let coils := ((List.range l.stages).flatMap fun st => (List.range (l.hi - l.lo)).map fun k => (st, l.lo + k)).filter fun q => !l.gone.contains q
      coils.foldl (fun (s : State) q => match s.depTry c.no l q.1 q.2 with
        | (t, .again) => t
        | (t, .wait) => if t.fab.rbuf.length < s.fab.rbuf.length then t else s
        | _ => s) s) s) s

/-- The first coil of a launch that may start: lowest stage, then lowest index (R191). -/
def State.firstCoil (s : State) (c : Context) (l : Launch) : Nat → Nat → Option (Nat × Nat)
  | 0, _ => none
  | n + 1, k =>
    let w := l.hi - l.lo
    if w = 0 then none
    else if s.canStart c l (k / w) (l.lo + k % w) then some (k / w, l.lo + k % w) else State.firstCoil s c l n (k + 1)

/-- The next coil of a launch. -/
def State.nextOf (s : State) (c : Context) (l : Launch) : Option (Nat × Nat) :=
  if l.isRunning && s.dispatches c then s.firstCoil c l (l.stages * (l.hi - l.lo)) 0 else none

/-- The coil that the dispatcher takes next: highest priority, then the contexts in turn, then the oldest launch (R191). -/
def State.nextCoil (s : State) : Option (Context × Launch × Nat × Nat) :=
  let cands := s.ctxs.flatMap fun c => (openOf c.queue).filterMap fun l => (s.nextOf c l).map fun k => (c, l, k.1, k.2)
  let rank := fun (q : Context × Launch × Nat × Nat) => (3 - q.2.1.fld 168 8) * 4096 + (q.1.no + 4096 - (s.rrCtx + 1) % 4096) % 4096
  minBy rank cands

/-- The strands of a rope at its start: fibres 0 to F − 1 live at the entry, one path each (R148, R189). -/
def Launch.strands (l : Launch) (now : Nat) : List Strand :=
  let entry := BitVec.ofNat 64 (l.fld 0 64)
  (List.range l.ns).map fun sid =>
    let n := min 32 (l.nf - 32 * sid)
    { Strand.init with
      fibres := (List.range 32).map fun i => if i < n then Fibre.start l.win entry else Fibre.vacant
      cur := some ⟨maskOfLanes (List.range n), entry, 0, false, none⟩
      ready := some now }

/-- A rope at its start: the packet image in its scratchpad, everything else zero (R144, R188, R189). -/
def Launch.rope (l : Launch) (ctx stage coil i : Nat) (r : Nat × Nat × Nat) (id : RopeId) (part off now : Nat) : Rope :=
  { shell id (l.need part) off with
    ctx := ctx, qent := l.q, stage := stage, coil := coil, coilXyz := l.coilXyz coil, ropeXyz := r, ridx := i, nrope := vol l.coilExt,
    nf := l.nf, bidx := l.bitOf stage coil r, spad := cellsWrite [] 0 l.packet, strands := l.strands now,
    shapes := l.fld 448 64, crowd := true }

/-- Read-only copies of a context in a cluster are dropped as a rope of it starts there (R273). -/
def State.dropRoCtx (s : State) (cl ctx : Nat) : State :=
  { s with roCopies := s.roCopies.filter fun r => decide (¬ (r.cluster = cl ∧ r.line.ctx = ctx)) }

/-- COIL_DISPATCH (R189 to R196): the coil next in order starts on the cores that system software has chosen; one whose dependences
fault, or whose ropes fit nowhere, ends its launch instead. -/
def execCoilDispatch (ctx qent stage coil : Nat) (p : Placement) (s : State) : Host.Outcome State Fault Refusal :=
  match s.nextCoil with
  | none => s.noEvent
  | some (c, l, st, k) =>
    if (c.no, l.q, st, k) ≠ (ctx, qent, stage, coil) then s.noEvent
    else if !l.fitsEmpty then .next (s.setLaunch ctx { l with st := .failing 2 })
    else
      match s.depTry ctx l stage coil with
      | (s, .fault) => .next (s.setLaunch ctx { l with st := .failing 3 })
      | (_, .wait) | (_, .again) => s.noEvent
      | (s, .ready) =>
        let rs := l.ropesIn
        if p.ropes.length ≠ rs.length ∨ !placementOk p (s.banned ctx) then s.noEvent
        else
          match s.placeAll p.cluster ((seatsOf p).map fun q => (q.1, l.need q.2)) with
          | none => s.noEvent
          | some offs =>
            let new := (rs.zip ((seatsOf p).zip offs)).zipIdx.map fun q =>
              l.rope ctx stage coil q.2 q.1.1 q.1.2.1.1 q.1.2.1.2 q.1.2.2 s.gtime
            let s := (s.dropRoCtx p.cluster ctx).setLaunch ctx { l with gone := l.gone ++ [(stage, coil)] }
            .next { s.seated new with rrCtx := ctx }

/-! ### Ends (R147, R150, R193, R222) -/

/-- A window is unmapped: with WB its dirty lines go to backing memory, else they are discarded; its entry goes. False: an access has to
be repeated, the window stays closed until then (R222). -/
def State.unmap (s : State) (w : Window) : State × Bool :=
  let gone := { s with windows := s.windows.filter fun (x : Window) => decide (¬ (x.cluster = w.cluster ∧ x.idx = w.idx)) }
  let one := fun (t : State) (l : Nat) => match t.vStore w.cluster w.ctx (128 * l) (s.winRead w (128 * l) 128) .store false with
    | (t, .bad _) => (t, VRes.ok 0)
    | r => r
  if s.fwds.any fun f => decide (f.line.ctx = w.ctx ∧ w.vbase * 1024 ≤ f.line.line * 128 ∧ f.line.line * 128 < (w.vbase + w.klen) * 1024) then (s, false)
  else if !w.wb then (gone, true)
  else
    match gone.whole one w.dirty (w.dirty.foldl (fun (a : State × VRes Nat) l => match a.2 with
      | .ok _ => one a.1 l
      | _ => a) (gone, .ok 0)) with
    | (t, .ok _) => (t, true)
    | (t, _) => ({ t with windows := s.windows }, false)

/-- Windows unmapped where they can be; the others refuse forwarded accesses until they are (R222). -/
def State.unmapAll (s : State) (ws : List Window) : State × Bool :=
  let shut := fun (s : State) (w : Window) => { s with windows := s.windows.map fun (x : Window) =>
    if x.cluster = w.cluster ∧ x.idx = w.idx then { x with closed := true } else x }
  ws.foldl (fun (a : State × Bool) w => match a.1.unmap w with
    | (s, true) => (s, a.2)
    | (s, false) => (shut s w, false)) (s, true)

/-- The windows of killed contexts' saved coils are unmapped; a coil without any is forgotten (R222). -/
def State.dropSaved (s : State) : State :=
  (s.ctxs.filter fun c => c.dead && c.saved != []).foldl (fun (s : State) c =>
    match (s.as (.ctx c.no)).unmapAll (s.windows.filter fun w => c.saved.any fun x => x.ropes.any fun r => decide (r.id = w.rope)) with
    | (t, true) => (t.setCtx { c with saved := [] }).as s.agent
    | (t, false) => t.as s.agent) s

/-- Lines leave the steps of the array that ropes have taken from L1: dirty ones are written back, pinned ones are waited for. A rope
starts once none is left (R202). -/
def State.makeRoom (s : State) : State :=
  (s.ropes.filter Rope.crowd).foldl (fun (s : State) r =>
    let taken := fun (s : State) => s.copies.filter fun x => decide (x.cluster = clusterOf r.id.core ∧ l1Slice x.line = r.id.core % 8 ∧
      x.way < s.spadSteps r.id.core) && !x.vb
    let s := (taken s).foldl (fun (s : State) x => if (s.pin? x.line).isSome then s else (s.evict x).getD s) s
    if taken s = [] then
      match s.rope? r.id with
      | some r => s.setRope { r with crowd := false }
      | none => s
    else s) s

/-- The rope has no live or parked fibre and no engine operation (R150), and every store of it is performed and visible (R193). -/
def State.ropeDone (s : State) (r : Rope) : Bool :=
  !r.ended && r.occupied == [] && !(s.ops.any fun o => decide (o.rope = r.id)) && r.ties.all (fun t => t.pending.isNone) &&
    !(s.accs.any fun a => decide (a.lane.rope = r.id)) &&
    decide (r.strands.foldl (fun m st => st.fibres.foldl (fun m f => max m f.vis) m) r.vis < s.gtime)

/-- The rope's bit set in its launch's bitmap (R193). Some true: done, or nothing to record; some false: DEPFAULT (R194). -/
def State.recordEnd (s : State) (r : Rope) (l : Launch) : State × Option Bool :=
  let a := l.fld 512 64
  if a = 0 then (s, some true)
  else
    match (s.as (.rope r.id r.qent r.bidx)).vLoadN (clusterOf r.id.core) r.ctx a 8 .load true with
    | (s, .bad _) => (s, some false)
    | (t, .retry) => (t, none)
    | (t, .ok d) =>
      let own := leNat d
      if own = 0 then (t, some true)
      else
        let w := own + r.bidx / 32 * 4
        match t.vAtomic (clusterOf r.id.core) r.ctx w (.rmw .or .ui32 (BitVec.ofNat 64 (2 ^ (r.bidx % 32)))) .store true with
        | (s, .ok _) => (s, some true)
        | (s, .bad _) => (s, some false)
        | (t, .retry) => (s.unspent t, none)

/-- ROPE_END (R147, R150, R193, R202, R222, R237): pins end, windows are unmapped, the completion bit is set; the scratchpad stays until
the whole coil has ended. -/
def execRopeEnd (r : RopeId) (s : State) : Host.Outcome State Fault Refusal :=
  match s.rope? r with
  | none => s.noEvent
  | some rp =>
    if s.pinsOf r ≠ [] ∧ rp.occupied = [] ∧ !rp.ended then .next (s.endPins r)
    else if !s.ropeDone rp then s.noEvent
    else
      match (s.as (.rope r rp.qent rp.bidx)).unmapAll (s.windows.filter fun w => decide (w.rope = r)) with
      | (t, false) => s.retried t
      | (s, true) =>
        let lq := (s.ctx? rp.ctx).bind fun c => (lookupBy Launch.q rp.qent c.queue)
        let r' := { rp with ended := true, ntiles := 0, tiles := [], planes := [], strands := rp.strands.map fun _ => Strand.init }
        let done := fun (s : State) =>
          let s := s.setRope r'
          let k := rp.key
          if (s.coilRopes k).all Rope.ended then
            { s with ropes := s.ropes.filter fun x => decide (x.key ≠ k), stops := s.stops.filter fun x => decide (x.key ≠ k) }
          else s
        match lq with
        | none => .next (done s)
        | some l =>
          match s.recordEnd rp l with
          | (s, none) => .next s
          | (s, some ok) =>
            let st := if ok ∨ l.st ≠ .running then l.st else .failing 3
            .next ((done s).setLaunch rp.ctx { l with ended := l.ended + 1, st := st })

/-! ### Completion (R190, R200, R461) -/

/-- Ropes or saved coils of a launch remain on this device. -/
def State.lives (s : State) (c : Context) (l : Launch) : Bool :=
  s.ropes.any (fun r => decide (r.ctx = c.no ∧ r.qent = l.q)) || c.saved.any fun x => decide (x.qent = l.q)

/-- The status that this device's part of a launch has come to (R200). -/
def State.partStatus (s : State) (c : Context) (l : Launch) : Option Nat :=
  match l.st with
  | .failing n => if s.lives c l then none else some n
  | .running => if l.allGone && !s.lives c l then some 0 else none
  | _ => none

/-- The lowest status that is not zero, else zero (R200). -/
def worst (l : List Nat) : Nat := (listMin (l.filter (· ≠ 0))).getD 0

/-- The status with which a launch completes now: of the whole group where several chips run it, the lowest that any member reports
(R200). -/
def State.endStatus (s : State) (c : Context) (l : Launch) : Option Nat :=
  match s.partStatus c l with
  | none => none
  | some n => if (s.groupOf l).isNone then some n else l.final

/-- Parts that have come to a status are reported to the device that accepted the launch, which settles the group's (R200). -/
def State.groupReports (s : State) : State :=
  s.ctxs.foldl (fun (s : State) c => c.queue.foldl (fun (s : State) l =>
    match s.groupOf l, s.partStatus c l with
    | some g, some n =>
      if l.final.isSome then s
      else
        let first := !(l.doneM.any fun q => decide (q.1 = s.chip))
        let l := if first then { l with doneM := l.doneM ++ [(s.chip, n)] } else l
        -- cancelled before it has opened: no member is to start it (R198)
        if !l.opened then
          if l.boss = s.chip then s.failGroup c.no l
          else if first then (s.setLaunch c.no l).groupSend l (l.boss, 0) 2 0 [] else s
        else
        if l.boss = s.chip then
          if g.members.all fun m => l.doneM.any fun q => decide (q.1 = m.1) then
            let f := worst (l.doneM.map Prod.snd)
            (s.partners l).foldl (fun (s : State) m => s.groupSend l m 5 f []) (s.setLaunch c.no { l with final := some f })
          else s.setLaunch c.no l
        else if first then
          match g.members.find? fun m => decide (m.1 = l.boss) with
          | some m => (s.setLaunch c.no l).groupSend l m 4 n []
          | none => s.setLaunch c.no l
        else s
    | _, _ => s) s) s

/-- A service-core MSG of a chip group arrives (R198 to R200). None: the member has no free entry yet. -/
def State.groupMsg (s : State) (src : Nat) (mask : BitVec 128) (data : List Byte) : Option State :=
  let v := mask.toNat
  let g := bits v 8 16
  let ctx := bits v 24 16
  let gen := BitVec.ofNat 32 (bits v 48 32)
  let mine := s.groupLaunch fun l => decide (l.chips = g ∧ l.gen = gen)
  match bits v 0 8 with
  | 0 => match s.ctx? ctx with
    | none => some s
    | some c => match s.accept c data src (decide (bits v 40 8 ≠ 0)) with
      | (s, true) => some s
      | (_, false) => none
  | 3 => match mine with
    | some (c, l) =>
      if l.waiting.isSome then
        let s := match s.groupOf l with
          | some gr => { s with groups := upsert Group.no { gr with last := gen } s.groups }
          | none => s
        some (s.setLaunch c.no { l with st := .running, opened := true })
      else some s
    | none => some s
  | 4 => match mine with
    | some (c, l) => some (s.setLaunch c.no { l with doneM := upsert Prod.fst (src, bits v 40 8) l.doneM })
    | none => some s
  | 5 => match mine with
    | some (c, l) =>
      let l := { l with final := some (bits v 40 8) }
      some (s.setLaunch c.no (if l.waiting.isSome then { l with st := .failing (bits v 40 8) } else l))
    | none => some s
  | k => match (if k = 1 ∨ k = 2 then execGroupReady g gen src (k = 1) s else .next s) with
    | .next s => some s
    | _ => some s

/-- A completion word (R461). -/
def Launch.word (l : Launch) (status now : Nat) : List Byte :=
  leBytes 16 (l.seq.toNat + status * 2 ^ 32 + (if status = 1 then l.boff * 2 ^ 48 else 0) + now % 2 ^ 64 * 2 ^ 64)

/-- An MSI-X message; of a masked vector its pending bit instead (R461). -/
def State.interrupt (s : State) (v : Nat) : State :=
  if s.msixOpen.contains v then s.send (.msix v) else { s with msixPend := (v :: s.msixPend).eraseDups }

/-- LAUNCH_COMPLETE (R190, R200, R461): the completion word, then the entry is free, then the message. -/
def execLaunchComplete (ctx qent : Nat) (s : State) : Host.Outcome State Fault Refusal :=
  match (s.ctx? ctx).bind fun c => (lookupBy Launch.q qent c.queue).map fun l => (c, l) with
  | none => s.noEvent
  | some (c, l) =>
    match s.endStatus c l with
    | none => s.noEvent
    | some n =>
      let s := { s with host := cellsWrite s.host (c.compl + 16 * qent) (l.word n s.gtime) }
      .next ((s.setCtx { c with queue := c.queue.filter fun x => decide (x.q ≠ qent) }).interrupt c.msix)

end Sys2Proof.Machine
end

