-- ==== Sys2Proof/Machine/Save.lean ====
section
/-! DEFINITION. What a save area, a core dump and a state image hold: the sections of a coil and their bytes (R365, R366, R398 to R405,
R443, R447, R499). -/

namespace Sys2Proof.Machine

/-! ### Fibres as a save finds them (R394, R398) -/

/-- Where a lane's fibre stands: the address, and the clause where it is inside one. -/
def Strand.standAt (st : Strand) (l : Nat) : DWord × Option Clause :=
  match st.paths.find? fun p => p.mask.getLsbD l with
  | some p => (p.at, p.cl)
  | none => ((((st.fibre l).cl).map Clause.ip).getD (st.fibre l).pc, (st.fibre l).cl)

/-- The KNOT that a header's clause begins with, if it does (R374, R415). -/
def State.knotAt (s : State) (w : Who) (pc : DWord) : Option (Guard × BitVec 32 × BitVec 16 × BitVec 16) :=
  match s.word w (nextIp pc 8) with
  | (_, .ok f) => match Sys2Proof.build f with
    | some (.knot g wm sm tm) => some (g, wm, sm, tm)
    | _ => none
  | _ => none

/-- A fibre with its own address and clause; one that stopped at a region entry is in the new region (R394). -/
def State.standFibre (s : State) (w : Who) (st : Strand) (l : Nat) (f : Fibre) : Fibre :=
  if f.st ≠ .live then f
  else
    let (pc, cl) := st.standAt l
    let f := { f with pc := pc, cl := cl }
    if f.stop && cl.isNone && f.wait.isNone then
      if 512 ≤ f.issued then f.enter s.nextId pc 0xFFFFFFFF 0xFFFF 0xFFFF
      else match s.knotAt w pc with
        | some (g, wm, sm, tm) => if f.guard g then f.enter s.nextId pc wm sm tm else f
        | none => f
    else f

/-- A rope with every fibre standing for itself. -/
def State.standing (s : State) (r : Rope) : Rope :=
  { r with strands := r.strands.mapIdx fun sid (st : Strand) => { st with fibres := st.fibres.mapIdx fun l f => s.standFibre (.strand r.id sid) st l f } }

/-- The replay entries of a rope in seq order, with those of parks that wait for room (R375, R397). -/
def State.entriesOf (s : State) (r : RopeId) : List Entry :=
  let c := s.core r.core
  sortBy (fun e : Entry => (e.seq - c.seq).toNat) (c.rq.filter fun e => decide (e.rope = r)) ++
    (c.parking.filter fun p => decide (p.rope = r)).zipIdx.map fun q => s.entryOf q.1 (c.seq + BitVec.ofNat 32 q.2)

/-- The fibre is parked with kind KNOT. -/
def knotParked (es : List Entry) (sid l : Nat) : Bool := es.any fun e => decide (e.sid = sid ∧ e.kind = .knot) && e.fmask.getLsbD l

/-- The liveness masks a fibre contributes: windows, scratchpad, tiles (R398). -/
def Fibre.lives (f : Fibre) (knot : Bool) : Word × BitVec 16 × BitVec 16 :=
  match f.st with
  | .empty => (0, 0, 0)
  | .live => if f.cl.isNone && f.wait.isNone && decide (f.pc = f.kpc) then (f.wm, f.sm, f.tm) else (0xFFFFFFFF, 0xFFFF, 0xFFFF)
  | _ => if knot then (f.wm, f.sm, f.tm) else (0xFFFFFFFF, 0xFFFF, 0xFFFF)

/-- The union of a strand's masks. -/
def Strand.lives (st : Strand) (es : List Entry) (sid : Nat) : Word × BitVec 16 × BitVec 16 :=
  st.fibres.zipIdx.foldl (fun m q => let k := q.1.lives (knotParked es sid q.2); (m.1 ||| k.1, m.2.1 ||| k.2.1, m.2.2 ||| k.2.2)) (0, 0, 0)

/-! ### Sections (R402, R403) -/

/-- A section: type, rope, strand, aux, its body before padding, the parts of the body that are not written (offset and length), and
whether a state image leaves the body out. -/
structure Sect where
  ty   : Nat
  rope : Nat
  sid  : Nat
  aux  : Nat
  body : List Byte
  skip : List (Nat × Nat)
  bare : Bool
  deriving DecidableEq, Repr

/-- Body length, padding included. -/
def Sect.len (x : Sect) : Nat := roundUp 16 x.body.length
/-- The 16-byte section header (R402). -/
def Sect.header (x : Sect) : List Byte := leBytes 16 (x.ty + x.rope * 2 ^ 24 + x.sid * 2 ^ 27 + x.aux % 2 ^ 32 * 2 ^ 32 + x.len * 2 ^ 64)
/-- The body padded with zeros. -/
def Sect.padded (x : Sect) : List Byte := padTo x.len x.body
/-- Header and body. -/
def Sect.bytes (x : Sect) : List Byte := x.header ++ x.padded

/-- Shape record bytes (R300). -/
def Shape.bytes (h : Shape) : List Byte :=
  let sum := fun (l : List Nat) (lo w : Nat) => (l.zipIdx.map fun q => q.1 % 2 ^ w * 2 ^ (lo + w * q.2)).sum
  leBytes 64 (h.base + h.fmt * 2 ^ 64 + h.rank * 2 ^ 69 + (if h.spad then 2 ^ 72 else 0) + h.swz * 2 ^ 73 + (if h.clip then 2 ^ 76 else 0) +
    (if h.scalei then 2 ^ 77 else 0) + sum h.dim 96 32 + sum h.stride 224 40 + h.sbase * 2 ^ 384 + h.fill * 2 ^ 416 + sum h.boxes 448 16)

/-- A coordinate quad. -/
def quadBytes (c : List Int) : List Byte := (List.range 4).flatMap fun i => leBytes 4 (wrap 32 (c.getD i 0))

/-- A tile control's word (R316). -/
def Tc.word (t : Tc) : Nat :=
  t.fmt + (t.rows - 1) * 2 ^ 5 + (t.cols - 1) * 2 ^ 11 + (if t.sc then 2 ^ 23 else 0) + if t.t3t then 2 ^ 25 else 0

/-- What fixes an operation in its record: quads, source and destination records, tile controls of td, ta, tb and tq, index list, barrier
offset (R405). -/
structure Fixed where
  cs   : List Int
  cd   : List Int
  src  : List Byte
  dst  : List Byte
  tcs  : List Nat
  rows : List Int
  bar  : Nat
  deriving DecidableEq, Repr

/-- The fixed part of an operation. -/
def fixedOf (k : OpKind) (wait : Option (BarRef × Bool)) : Fixed :=
  let z : List Byte := List.replicate 64 0
  let bar := (wait.map fun w => w.1.off).getD 0
  let tile := fun (td ta tb tq : Option Tc) => [td, ta, tb, tq].map fun t => (t.map Tc.word).getD 0
  let plain := fun (tcs : List Nat) => (⟨[], [], z, z, tcs, [], bar⟩ : Fixed)
  match k with
  | .copy c => ⟨c.cs, c.cd, (c.src.map Shape.bytes).getD z, c.dst.bytes, [0, 0, 0, 0], c.rows.getD [], (c.cred.map BarRef.off).getD 0⟩
  | .tile (.tld _ tc sh _ c) => ⟨c, [], sh.bytes, z, tile tc none none none, [], bar⟩
  | .tile (.tst _ tc sh _ c) => ⟨c, [], z, sh.bytes, tile none tc none none, [], bar⟩
  | .tile (.tzero _ tc) => plain (tile tc none none none)
  | .tile (.mma _ _ _ _ _ _ _ _ _ td ta tb tq) => plain (tile td ta tb tq)
  | .tile (.tew _ _ _ _ _ td ta tb) => plain (tile td ta tb none)
  | .tile (.tcvt _ _ _ _ td ta _ _) => plain (tile td ta none none)
  | .tile (.tred _ _ _ td ta) => plain (tile td ta none none)
  | .tile (.trow _ _ td ta _ _ _) => plain (tile td ta none none)
  | .halo _ => plain [0, 0, 0, 0]

/-- One ENGOP record with its index list (R405). `state`: 0 table, 1 engine, 2 parked, 3 pending on a tie. -/
def engRecord (word : BitVec 64 × BitVec 64) (x : Fixed) (crow cseg tl state : Nat) (num : Word) (owed : List (Nat × Nat)) (tag : Word) : List Byte :=
  let list := x.rows.flatMap fun i => leBytes 4 (wrap 32 i)
  leBytes 8 word.1.toNat ++ leBytes 8 word.2.toNat ++ quadBytes x.cs ++ quadBytes x.cd ++ x.src ++ x.dst ++ leBytes 4 crow ++ leBytes 2 cseg ++
    leBytes 1 tl ++ leBytes 1 state ++ leBytes 4 num.toNat ++ leBytes 4 (maskOf (owed.map Prod.fst)) ++
    leBytes 16 (owed.map fun q => q.2 * 2 ^ (4 * q.1)).sum ++ leBytes 4 x.bar ++ x.tcs.flatMap (leBytes 4) ++ leBytes 4 x.rows.length ++
    leBytes 4 tag.toNat ++ leBytes 20 0 ++ padTo (roundUp 16 list.length) list

/-- The flag numbers behind the strands and tags that an operation owes (R324). -/
def Rope.flagsOf (r : Rope) (owed : List (Nat × Nat)) : List (Nat × Nat) :=
  owed.map fun q => (q.1, ((lookupBy Due.tag q.2 (r.strands.getD q.1 Strand.init).due).map Due.flag).getD 0)

/-- The state code of an operation's record. -/
def OpSt.code : OpSt → Nat
  | .table => 0
  | .queued | .running => 1
  | .parked => 2
  | .held l | .posted l => if l.getLast? = some 1 then 2 else 1

/-- The incomplete copies and tile operations of a rope, by timeline and number. -/
def State.engOps (s : State) (r : RopeId) : List Op :=
  sortBy (fun o : Op => o.tl * 2 ^ 32 + o.num.toNat) (s.ops.filter fun o => decide (o.rope = r ∧ o.tl ≤ 4))

/-- The pending tie operations of a rope: tie and operation. -/
def Rope.tied (r : Rope) : List (Nat × Pending) := r.ties.zipIdx.filterMap fun q => q.1.pending.map fun p => (q.2, p)

/-- The lines of a rope's allocation that are read-only staged, with the operation that staged each, one still being fetched again
included (R399, R407). -/
def State.stagedBy (s : State) (r : Rope) : List (Nat × Op) :=
  (r.staged.filterMap fun q => (lookupBy Op.id q.2 r.stagers).map fun o => (q.1, o)) ++
    (s.ops.filter fun o => decide (o.rope = r.id ∧ o.tl = 6)).flatMap fun o => match o.kind with
      | .copy c => (c.only.getD []).map fun l => (l, o)
      | _ => []

/-! ### The bodies (R403, R404) -/

/-- ROPE. -/
def Rope.ropeBody (r : Rope) : List Byte :=
  padTo 256 (leBytes 4 r.coilXyz.1 ++ leBytes 4 r.coilXyz.2.1 ++ leBytes 4 r.coilXyz.2.2 ++ leBytes 2 r.ropeXyz.1 ++ leBytes 2 r.ropeXyz.2.1 ++
    leBytes 2 r.ropeXyz.2.2 ++ leBytes 2 r.nf ++ leBytes 2 r.size ++ leBytes 1 r.strands.length ++ leBytes 1 r.ntiles ++ leBytes 4 r.spadA ++
    leBytes 4 r.bidx ++ (List.range 16).flatMap (fun i => leBytes 4 (r.tcs.getD i 0).toNat) ++
    (List.range 6).flatMap fun i => let t := r.tls.getD i ⟨0, 0, []⟩; leBytes 4 t.issued.toNat ++ leBytes 4 t.value.toNat)

/-- The state of a lane record (R404): empty, at a header, inside a clause, parked, blocked at a wait. -/
def Fibre.code (f : Fibre) : Nat :=
  match f.st with
  | .empty => 0
  | .live => if f.cl.isSome then 2 else if f.wait.isSome then 4 else 1
  | _ => 3

/-- HBAR mode codes of R404. -/
def hmodeCode : HbarMode → Nat
  | .plain => 0
  | .and => 1
  | .or => 2

/-- The fields of a lane record that describe a wait at a hardware barrier (R404). -/
def Rope.hbits (r : Rope) (fid : Nat) (f : Fibre) : Nat :=
  match f.code, f.wait with
  | 4, some (.hbar b _) =>
    let h := r.hbars.getD b Hbar.init
    let d := h.defer.find? fun q => decide (q.1 = fid)
    match d.orElse fun _ => h.want.find? fun q => decide (q.1 = fid) with
    | some (_, m, pd, v) => 1 + (if d.isSome then 2 else 0) + b * 4 + pd.toNat * 64 + hmodeCode m * 1024 + (if v && m != .plain then 4096 else 0)
    | none => 1 + b * 4
  | _, _ => 0

/-- A lane record (R404). -/
def Rope.laneRec (r : Rope) (fid : Nat) (f : Fibre) : List Byte :=
  if f.st = .empty then List.replicate 64 0
  else
    let dl := match f.wait with
      | some (.sleep _ _ d _ _ _) => d.getD 0
      | some (.grid _ _ _ _ d) => d.getD 0
      | _ => 0
    leBytes 64 (f.pc.toNat + f.kpc.toNat * 2 ^ 64 + (((f.cl).map fun c => c.hpc.toNat).getD 0) * 2 ^ 128 + dl * 2 ^ 192 + f.cnt.toNat * 2 ^ 256 +
      f.kcnt.toNat * 2 ^ 288 + f.fpctl.toNat * 2 ^ 320 + f.fpstat.toNat * 2 ^ 352 + f.intctl.toNat * 2 ^ 384 + f.preds.toNat * 2 ^ 416 +
      f.kpreds.toNat * 2 ^ 432 + f.smask.toNat * 2 ^ 448 + f.code * 2 ^ 464 + (if f.serial then 2 ^ 472 else 0) + r.hbits fid f * 2 ^ 480)

/-- STRAND (R404). -/
def Rope.strandBody (r : Rope) (sid : Nat) (st : Strand) : List Byte :=
  padTo 64 (leBytes 8 st.quantum.toNat ++ leBytes 8 st.srseed.toNat ++ (List.range 12).flatMap fun i => leBytes 1 (getAt st.flags i)) ++
    st.fibres.zipIdx.flatMap (fun q => r.laneRec (sid * 32 + q.2) q.1) ++
    st.fibres.flatMap fun f => if f.code = 2 then bytesOfWords f.near ++ leBytes 8 f.lat.toNat else []

/-- The block mask of a strand: what its fibres keep alive, up to the window size (R398). -/
def Strand.blocks (st : Strand) (size : Nat) (es : List Entry) (sid : Nat) (dump : Bool) : List Nat :=
  (List.range (size / 8)).filter fun k => dump || (st.lives es sid).1.getLsbD k

/-- WINDOW. -/
def Strand.winBody (st : Strand) (bs : List Nat) : List Byte :=
  bs.flatMap fun k => (List.range 8).flatMap fun j => st.fibres.flatMap fun f => leBytes 4 (f.win.getD (8 * k + j) 0).toNat

/-- A set of FIDs. -/
def fidBytes (l : List Nat) : List Byte := leBytes 128 (maskOf l)

/-- One barrier of HBAR; zeros between rounds. -/
def Hbar.bytes (h : Hbar) : List Byte :=
  let st := (if h.opened then 1 else 0) + (if h.opened && h.band then 2 else 0) + (if h.opened && h.bor then 4 else 0) +
    if h.nextMask.isSome then 8 else 0
  leBytes 4 (if h.opened then h.mask else 0) ++ leBytes 4 st ++ fidBytes h.expected ++ fidBytes h.arrived ++ leBytes 4 (h.nextMask.getD 0) ++ leBytes 4 0

/-- One tie of TIE. -/
def Tie.bytes (t : Tie) (ix : Option Nat) : List Byte :=
  fidBytes t.expected ++ fidBytes t.signed ++ fidBytes (t.second.map Second.fid) ++ leBytes 4 (ix.getD 0xFFFFFFFF) ++ leBytes 12 0

/-- A mapping entry (R219). -/
def Window.bytes (w : Window) : List Byte :=
  leBytes 16 (1 + w.core % 8 * 2 + w.koff * 2 ^ 4 + w.klen * 2 ^ 14 + w.ctx * 2 ^ 24 + w.vbase * 2 ^ 36 + if w.wb then 2 ^ 80 else 0)

/-- A halo operation's entry (R499). -/
def Op.gridEntry (o : Op) : Option (List Byte) :=
  match o.kind with
  | .halo h =>
    let st := if o.st = .table ∨ o.st = .queued then 0 else if h.cur.isSome then 1 else if h.wait = [] then 0 else 2
    some (padTo 64 (leBytes 4 o.num.toNat ++ leBytes 1 h.slot ++ leBytes 1 st ++ leBytes 1 (h.cur.getD (h.wait.headD 0)) ++
      leBytes 1 (if o.wrec then 1 else 0) ++ leBytes 4 h.part ++ leBytes 4 h.step.toNat ++ leBytes 4 o.crow ++ leBytes 2 o.cseg))
  | _ => none

/-! ### A rope's sections (R398, R399, R403, R443, R447) -/

/-- What an area is for: a save; or a dump with the entry that caused it, and the bytes of DUMPFAULT. -/
structure Cut where
  dump  : Bool
  cause : Option Word
  fault : Option (List Byte)
  deriving DecidableEq, Repr

/-- The sixteenths of a rope's scratchpad that an operation keeps alive: its barrier word, and its destination (R398). -/
def sixteenths (r : Rope) (k : OpKind) (wait : Option (BarRef × Bool)) (m : Option Mover) : List Nat :=
  let six := fun (o : Nat) => o / (r.spadA / 16)
  let bar := fun (b : Option BarRef) => match b with
    | some b => if b.rope = r.id then [six b.off] else []
    | none => []
  let dst := match m with
    | some m => (List.range m.n).flatMap fun i => (m.row i).filterMap fun c => match c.dst with
      | some (.spad x, a) => if x = r.id then some (six a) else none
      | _ => none
    | none => []
  bar (wait.map Prod.fst) ++ bar (match k with
    | .copy c => c.cred
    | _ => none) ++ dst

/-- Tiles that an operation names. -/
def OpKind.named (k : OpKind) : List Nat := (k.tiles.1 ++ k.tiles.2).eraseDups

/-- The incomplete operations of a coil, tied ones included. -/
def State.coilKinds (s : State) (rs : List Rope) : List (RopeId × OpKind × Option (BarRef × Bool)) :=
  rs.flatMap fun r => (s.engOps r.id).map (fun o => (r.id, o.kind, o.wait)) ++ r.tied.map fun q => (r.id, q.2.kind, q.2.wait)

/-- The sections of a rope as it stands (R403). Optional ones only where they hold something (R443, R447). -/
def State.ropeSections (s : State) (cut : Cut) (rs : List Rope) (r : Rope) : List Sect :=
  let es := s.entriesOf r.id
  let keep := es.filter fun e => some e.seq ≠ cut.cause
  let ks := s.coilKinds rs
  let mk := fun (ty sid aux : Nat) (b : List Byte) => (⟨ty, r.ridx, sid, aux, b, [], false⟩ : Sect)
  let opt := fun (ok : Bool) (x : Sect) => if ok then [x] else []
  let strands := r.strands.zipIdx.flatMap fun q =>
    let bs := q.1.blocks r.size es q.2 cut.dump
    [mk 2 q.2 (maskOf ((List.range 32).filter fun l => decide ((q.1.fibre l).code = 2))) (r.strandBody q.2 q.1),
     { mk 3 q.2 (maskOf bs) (q.1.winBody bs) with bare := true }]
  let live := r.strands.zipIdx.foldl (fun (m : BitVec 16 × BitVec 16) q => let k := q.1.lives es q.2; (m.1 ||| k.2.1, m.2 ||| k.2.2)) (0, 0)
  let named := ks.flatMap fun k => sixteenths r k.2.1 k.2.2 k.2.1.mover
  let six := (List.range 16).filter fun i => cut.dump || live.1.getLsbD i || named.contains i
  let own := (ks.filter fun k => decide (k.1 = r.id)).flatMap fun k => k.2.1.named
  let tiles := (List.range r.ntiles).filter fun i => cut.dump || live.2.getLsbD i || own.contains i
  let sz := r.spadA / 16
  let staged := if cut.dump then [] else s.stagedBy r
  let skip := staged.filterMap fun q => match six.findIdx? fun i => decide (i = 128 * q.1 / sz) with
    | some k => some (k * sz + 128 * q.1 % sz, min 128 (sz - 128 * q.1 % sz))
    | none => none
  let ops := s.engOps r.id
  let recs := ops.map (fun o => engRecord o.word (fixedOf o.kind o.wait) o.crow o.cseg o.tl o.st.code o.num (r.flagsOf o.owed) o.tag) ++
    r.tied.map fun q => engRecord q.2.word (fixedOf q.2.kind q.2.wait) 0 0 q.2.tl 3 q.2.num (r.flagsOf q.2.owed) q.2.num
  let tieIx := fun (k : Nat) => (r.tied.findIdx? fun q => decide (q.1 = k)).map (· + ops.length)
  let owners := (staged.map Prod.snd).eraseDups
  let refetch := owners.flatMap fun o => (match o.kind with
    | .copy c => ((c.src.map Shape.bytes).getD (List.replicate 64 0)) ++ c.dst.bytes ++ quadBytes c.cs ++ quadBytes c.cd
    | _ => List.replicate 160 0)
  let lineMap := (List.range (r.spadA / 128)).flatMap fun l => leBytes 2 (match staged.find? fun q => decide (q.1 = l) with
    | some q => ((owners.findIdx? fun o => decide (o = q.2)).map (· + 1)).getD 0
    | none => 0)
  let wins := s.windows.filter fun w => decide (w.rope = r.id)
  let grids := (s.ops.filter fun o => decide (o.rope = r.id)).filterMap Op.gridEntry
  mk 1 0 0 r.ropeBody :: strands ++ opt (keep ≠ []) (mk 4 0 keep.length (keep.flatMap Entry.bytes)) ++
    opt (six ≠ []) { mk 5 0 (maskOf six) (six.flatMap fun i => r.spadRead (i * sz) sz) with skip := skip, bare := true } ++
    opt (tiles ≠ []) (mk 6 0 (maskOf tiles) (tiles.flatMap fun i => r.tileRead i 0 16384 ++ r.sideRead i 0 2048)) ++
    [mk 7 0 0 ((List.range 16).flatMap fun i => (r.hbars.getD i Hbar.init).bytes),
     mk 8 0 0 ((List.range 16).flatMap fun i => (r.ties.getD i Tie.init).bytes (tieIx i))] ++
    opt (recs ≠ []) (mk 9 0 recs.length recs.flatten) ++
    opt (staged ≠ []) (mk 10 0 owners.length (refetch ++ padTo (roundUp 16 lineMap.length) lineMap)) ++
    opt (wins ≠ []) (mk 11 0 wins.length (wins.flatMap Window.bytes)) ++ opt (grids ≠ []) (mk 12 0 grids.length grids.flatten) ++
    match cut.fault with
    | some b => [{ mk 13 0 0 b with bare := true }]
    | none => []

/-- The sections of a coil (R403); `frope`: the rope in which the causing fault's section stands. -/
def State.coilSections (s : State) (k : CoilKey) (cut : Cut) (frope : Nat) : List Sect :=
  let rs := (s.coilRopes k).map s.standing
  rs.flatMap fun r => s.ropeSections (if r.ridx = frope then cut else { cut with fault := none }) rs r

/-- The area header (R400). -/
def areaHeader (total gsave coil pid ctx qent stage nrope nsec kind signo : Nat) (dsf : Bool) : List Byte :=
  leBytes 128 (1 + (if dsf then 2 ^ 78 else 0) + signo * 2 ^ 79 + kind * 2 ^ 84 + nsec * 2 ^ 88 + nrope * 2 ^ 104 + stage * 2 ^ 108 +
    qent * 2 ^ 112 + ctx * 2 ^ 116 + pid * 2 ^ 128 + coil * 2 ^ 160 + gsave % 2 ^ 64 * 2 ^ 192 + total * 2 ^ 256)

/-- The header of a coil's area (R400). -/
def State.headerFor (s : State) (k : CoilKey) (xs : List Sect) (kind signo : Nat) : List Byte :=
  let total := 128 + (xs.map fun x => 16 + x.len).sum
  areaHeader total (((s.stop? k).map Stop.since).getD s.gtime) k.coil (((s.ctx? k.ctx).map fun c => c.pid.toNat).getD 0) k.ctx k.qent k.stage
    (s.coilRopes k).length xs.length kind signo false

/-- The parts of an area that are written, by offset: everything but the skipped stretches of bodies. -/
def cutOut : Nat → List (Nat × Nat) → List Byte → List (Nat × List Byte)
  | o, [], b => [(o, b)]
  | o, (p, n) :: more, b => (o, b.take (p - o)) :: cutOut (p + n) more (b.drop (p + n - o))

/-- The pieces of an area from an offset on. -/
def pieces : Nat → List Sect → List (Nat × List Byte)
  | _, [] => []
  | o, x :: xs =>
    ((cutOut 0 (sortBy Prod.fst x.skip) x.padded).map fun q => (o + 16 + q.1, q.2)) ++ (o, x.header) :: pieces (o + 16 + x.len) xs

/-! ### State images (R446, R447) -/

/-- The rope-slot table of an image. -/
def slotTable (rs : List Rope) : List Byte :=
  (List.range 16).map fun i => match rs.find? fun r => decide (r.ridx = i) with
    | some r => BitVec.ofNat 8 r.id.slot
    | none => 0xFF

/-- One image: slot table, area header, sections with the bodies that no supervisor instruction can read. -/
def State.image (s : State) (k : CoilKey) (cut : Cut) (frope signo : Nat) : List Byte :=
  let xs := s.coilSections k cut frope
  slotTable (s.coilRopes k) ++ s.headerFor k xs 1 signo ++ xs.flatMap fun x => if x.bare then x.header else x.bytes

/-- The coils of a context with the one that holds the causing entry first, the others by coil index (R400, R447). -/
def State.coilsFrom (s : State) (ctx : Nat) (first : CoilKey) : List CoilKey :=
  first :: sortBy CoilKey.coil ((s.coils ctx).filter (· ≠ first))

/-- STATEIMG (R446, R447): the request in a core's slot is acted on, and answered: 1 DONE, 2 NOTHALTED, 3 BADREQ. -/
def execStateimg (core : Nat) (s : State) : Host.Outcome State Fault Refusal :=
  let slot := (Config.svPage core).toNat + 64
  let v := leNat (cellsRead s.svMem slot 32)
  let code := bits v 0 32
  if code = 0 ∨ bits v 32 32 ≠ 0 then s.noEvent
  else
    let answer := fun (s : State) (st : Nat) =>
      let s := { s with svMem := cellsWrite s.svMem slot (leBytes 8 (st * 2 ^ 32)) }
      Host.Outcome.next (s.setCore { s.core core with mailEv := true })
    let ctx := bits v 128 12
    let ks := s.coils ctx
    let e := (s.core core).rq.find? fun e => decide (e.seq = BitVec.ofNat 32 (bits v 64 32) ∧ e.ctx = ctx) && e.popped &&
      ((s.rope? e.rope).map fun r => decide (r.ridx = bits v 144 8)).getD false
    if code ≠ 1 ∨ ks = [] then answer s 3
    else if !ks.all s.quietCoil then answer s 2
    else
      match e.bind fun e => (s.rope? e.rope).map fun r => (e, r) with
      | none => answer s 3
      | some (e, r) =>
        let cut : Cut := ⟨true, some e.seq, some (List.replicate (bits v 160 32) 0)⟩
        let put := fun (a : State × Nat) (k : CoilKey) =>
          let b := s.image k (if k = r.key then cut else { cut with fault := none, cause := none }) (bits v 144 8) (bits v 152 8)
          ({ a.1 with svMem := cellsWrite a.1.svMem a.2 b }, roundUp 4096 (a.2 + b.length))
        answer ((s.coilsFrom ctx r.key).foldl put (s, roundUp 4096 (bits v 192 64))).1 1

end Sys2Proof.Machine
end

