-- ==== Sys2Proof/Machine/Restore.lean ====
section
/-! DEFINITION. Saving and restoring a coil, and resetting an engine (R369, R375, R397 to R411, R499, R500). -/

namespace Sys2Proof.Machine

/-! ### A coil's rope names changed: it leaves its core, or comes back on another (R396, R406) -/

/-- Rope names by position. -/
abbrev Ren := List (RopeId × RopeId)

/-- A rope's new name. -/
def Ren.of (m : Ren) (r : RopeId) : RopeId := (lookupBy Prod.fst r m).elim r Prod.snd
/-- A barrier word's rope renamed. -/
def Ren.bar (m : Ren) (b : BarRef) : BarRef := { b with rope := m.of b.rope }
/-- An operation's ropes renamed. -/
def Ren.kind (m : Ren) : OpKind → OpKind
  | .copy c => .copy { c with srope := m.of c.srope, drope := m.of c.drope, cred := c.cred.map m.bar }
  | .tile (.tld d tc sh r c) => .tile (.tld d tc sh (m.of r) c)
  | .tile (.tst a tc sh r c) => .tile (.tst a tc sh (m.of r) c)
  | k => k
/-- A pending operation renamed. -/
def Ren.pend (m : Ren) (p : Pending) : Pending := { p with kind := m.kind p.kind, wait := p.wait.map fun w => (m.bar w.1, w.2) }
/-- An operation renamed. -/
def Ren.op (m : Ren) (o : Op) : Op :=
  { o with core := (m.of o.rope).core, rope := m.of o.rope, kind := m.kind o.kind, wait := o.wait.map fun w => (m.bar w.1, w.2) }
/-- A wait renamed. -/
def Ren.wait (m : Ren) : Wait → Wait
  | .bar r o ph pd => .bar (m.of r) o ph pd
  | w => w
/-- A rope renamed. -/
def Ren.rope (m : Ren) (r : Rope) : Rope :=
  { r.mapFibres (fun f => { f with wait := f.wait.map m.wait, stash := f.stash.map fun w => w.map m.wait }) with
    id := m.of r.id, ties := r.ties.map fun (t : Tie) => { t with pending := t.pending.map m.pend }, stagers := r.stagers.map m.op }
/-- Everything else of the state that names ropes renamed: waiting accesses, windows, grid partitions. -/
def State.rename (s : State) (m : Ren) : State :=
  { s with
    accs := s.accs.map fun (a : Access) => { a with lane := { a.lane with rope := m.of a.lane.rope } }
    windows := s.windows.map fun (w : Window) => { w with rope := m.of w.rope }
    ctxs := s.ctxs.map fun (c : Context) => { c with grids := c.grids.map fun (g : Grid) =>
      { g with parts := g.parts.map fun q => (q.1, { q.2 with rope := q.2.rope.map m.of }) } } }

/-! ### Saving (R398, R401) -/

/-- The lowest place in a context's save region for an area (R401). -/
def Context.room (c : Context) (n : Nat) : Option Nat :=
  let up := roundUp 4096
  listMin ((c.savebase :: c.saved.map fun x => up (x.area + x.len)).filter fun a =>
    decide (c.savebase ≤ a ∧ a + up n ≤ c.savebase + c.savelen) && c.saved.all fun x => decide (a + up n ≤ x.area ∨ up (x.area + x.len) ≤ a))

/-- Pieces written into a context's supervisor-only pages. -/
def State.putPieces (s : State) (cl ctx a : Nat) (ps : List (Nat × List Byte)) : State × VRes Unit :=
  ps.foldl (fun (r : State × VRes Unit) p =>
    match r.2 with
    | .ok _ => match r.1.vStoreN cl ctx (a + p.1) p.2 .store false with
      | (s, .ok _) => (s, .ok ())
      | (s, .bad c) => (s, .bad c)
      | (s, .retry) => (s, .retry)
    | _ => r) (s, .ok ())

/-- A saved coil leaves its cores: its ropes, operations, entries and slots go; its windows stay closed (R222, R395, R397, R406). -/
def State.depart (s : State) (k : CoilKey) (area len : Nat) : State :=
  let rs := (s.coilRopes k).map s.standing
  let (n, s) := s.fresh
  let ids := rs.map Rope.id
  let m : Ren := rs.map fun r => (r.id, ⟨2880 + n, r.ridx⟩)
  let mine := fun (r : RopeId) => ids.contains r
  let cls := (((s.ctx? k.ctx).bind fun c => lookupBy Launch.q k.qent c.queue).map Launch.cls).getD 0
  let seq := (((s.ctx? k.ctx).bind fun c => lookupBy Launch.q k.qent c.queue).map Launch.seq).getD 0
  let saved : Saved :=
    { qent := k.qent, seq := seq, stage := k.stage, coil := k.coil, area := area, len := len, cls := cls, bad := false,
      ropes := rs.map m.rope, ops := (s.ops.filter fun o => mine o.rope).map m.op }
  let s := { s with
    ropes := s.ropes.filter fun r => !mine r.id
    ops := s.ops.filter fun o => !mine o.rope
    cores := s.cores.map fun (c : Core) => { c with rq := c.rq.filter (fun e => !mine e.rope), parking := c.parking.filter fun p => !mine p.rope }
    stops := s.stops.filter fun x => decide (x.key ≠ k)
    windows := s.windows.map fun (w : Window) => if mine w.rope then { w with closed := true, idx := 16 * (n + 1) + w.idx } else w }
  let s := s.rename m
  match s.ctx? k.ctx with
  | some c => s.setCtx { c with saved := c.saved ++ [saved] }
  | none => s

/-- A record of the coil waits for its ring's tail: the coil is saved once it has passed (R312). -/
def State.posting (s : State) (k : CoilKey) : Bool :=
  let ids := (s.coilRopes k).map Rope.id
  s.ops.any fun o => ids.contains o.rope && o.st.isPosted

/-- SAVE_COIL (R398 to R401): the area of a quiesced coil is allocated and written, and its cores are free. Where the area does not fit
or a page of it is missing, the coil stays in place; under the thermal stop its context is killed. -/
def execSaveCoil (ctx coil : Nat) (s : State) : Host.Outcome State Fault Refusal :=
  match s.stopFor ctx coil fun x => x.save && x.quiet && !x.full && !s.posting x.key, s.ctx? ctx with
  | some x, some c =>
    let k := x.key
    let xs := s.coilSections k ⟨false, none, none⟩ 0
    let total := 128 + (xs.map fun y => 16 + y.len).sum
    let cl := clusterOf (((s.coilRopes k).head?.map fun r => r.id.core).getD 0)
    let noRoom := fun (s : State) => if s.thermal then Host.Outcome.next (s.killCtx ctx) else .next (s.setStop { x with full := true })
    match c.room total with
    | none => noRoom s
    | some a =>
      match s.vProbe cl ctx a total .store false with
      | (s, .bad _) => noRoom s
      | (t, .retry) => s.retried t
      | (t, .ok _) =>
        match (t.as (.ctx ctx)).putPieces cl ctx a ((0, s.headerFor k xs 0 0) :: pieces 128 xs) with
        | (s, .ok _) => .next (s.depart k a total)
        | (s, .bad _) => noRoom s
        | (u, .retry) => s.retried (s.unspent u)
  | _, _ => s.noEvent

/-! ### The checks of a restore (R406) -/

/-- Length of a replay entry's bytes at an offset of a body (R366). -/
def entryLen (b : List Byte) (o : Nat) : Nat :=
  let v := fieldAt b o 64
  64 + if bits v 159 2 = 0 then 40 * popc 32 (bits v 288 32) else 0

/-- Length of an ENGOP record at an offset (R405). -/
def recLen (b : List Byte) (o : Nat) : Nat := 256 + roundUp 16 (4 * fieldAt b (o + 228) 4)

/-- Offsets of n items that follow one another, and the end of the last. -/
def itemOffs (len : Nat → Nat) : Nat → Nat → List Nat
  | 0, o => [o]
  | n + 1, o => o :: itemOffs len n (o + len o)

/-- Bits of a body that are zero, as bit offset and count, by section type (R402 to R405, R219, R499). -/
def reservedOf (x : Sect) : List (Nat × Nat) :=
  let each := fun (n size lo len : Nat) => (List.range n).map fun i => (8 * size * i + lo, len)
  match x.ty with
  | 1 => [(8 * 144, 8 * 112)]
  | 2 => [(32, 32), (8 * 28, 8 * 36)] ++ (each 32 64 493 19).map fun q => (q.1 + 512, q.2)
  | 4 => (itemOffs (entryLen x.body) x.aux 0).dropLast.map fun o => (8 * o + 128, 29)
  | 7 => each 16 272 36 28 ++ each 16 272 (8 * 268) 32
  | 8 => each 16 400 (8 * 388) 96
  | 9 => (itemOffs (recLen x.body) x.aux 0).dropLast.map fun o => (8 * (o + 236), 160)
  | 11 => each x.aux 16 81 47
  | 12 => each x.aux 64 176 336
  | _ => []

/-- The length that a section's header and its rope call for (R403). -/
def expectLen (r : Rope) (x : Sect) : Nat :=
  let ends := fun (len : Nat → Nat) => if x.body.length < x.aux then 0 else (itemOffs len x.aux 0).getLastD 0
  match x.ty with
  | 1 => 256
  | 2 => roundUp 16 (64 + 2048 + 40 * popc 32 x.aux)
  | 3 => 1024 * popc 32 x.aux
  | 4 => roundUp 16 (ends (entryLen x.body))
  | 5 => roundUp 16 (popc 16 x.aux * (r.spadA / 16))
  | 6 => 18432 * popc 16 x.aux
  | 7 => 4352
  | 8 => 6400
  | 9 => ends (recLen x.body)
  | 10 => 160 * x.aux + roundUp 16 (2 * (r.spadA / 128))
  | 11 => 16 * x.aux
  | 12 => 64 * x.aux
  | _ => 0

/-- A section at an offset of an area, or the offset of its first failure. -/
def sectAt (rs : List Rope) (b : List Byte) (o : Nat) : Except Nat Sect :=
  let v := fieldAt b o 16
  let n := bits v 64 64
  let x : Sect := { ty := bits v 0 8, rope := bits v 24 3, sid := bits v 27 5, aux := bits v 32 32, body := (b.drop (o + 16)).take n, skip := [], bare := false }
  if bits v 8 16 ≠ 0 then .error (o + 1)
  else if x.ty = 0 ∨ 12 < x.ty then .error o
  else
    match rs.find? fun r => decide (r.ridx = x.rope) with
    | none => .error (o + 3)
    | some r =>
      if x.body.length ≠ n ∨ expectLen r x ≠ n ∨ r.strands.length ≤ x.sid then .error (o + 8)
      else
        let v := leNat x.body
        match (reservedOf x).find? fun q => bits v q.1 q.2 ≠ 0 with
        | some q => .error (o + 16 + q.1 / 8)
        | none => .ok x

/-- The sections from an offset on. -/
def sectsFrom (rs : List Rope) (b : List Byte) : Nat → Nat → Except Nat (List Sect)
  | 0, o => if o = b.length then .ok [] else .error o
  | n + 1, o =>
    match sectAt rs b o with
    | .error e => .error e
    | .ok x => match sectsFrom rs b n (o + 16 + x.len) with
      | .error e => .error e
      | .ok xs => .ok (x :: xs)

/-- An area checked and cut into its sections, or the offset of its first failure (R406). -/
def parseArea (rs : List Rope) (b : List Byte) : Except Nat (List Sect) :=
  let v := leNat (b.take 128)
  if bits v 0 8 ≠ 1 then .error 0
  else if bits v 8 70 ≠ 0 then .error 1
  else if bits v 84 4 ≠ 0 then .error 10
  else if bits v 104 4 ≠ rs.length then .error 13
  else if bits v 320 704 ≠ 0 then .error 40
  else if bits v 256 64 ≠ b.length then .error 32
  else sectsFrom rs b (bits v 88 16) 128

/-! ### Sections put back (R404 to R408) -/

/-- FIDs of a set. -/
def fidsOf (b : List Byte) (o : Nat) : List Nat := setBits 1024 (fieldAt b o 128)

/-- HBAR mode of a code. -/
def hmodeOf : Nat → HbarMode
  | 1 => .and
  | 2 => .or
  | _ => .plain

/-- A fibre as its lane record says; what the record has no field for stays as it was (R404, R408). -/
def Fibre.load (f : Fibre) (v size : Nat) : Fibre :=
  let w64 := fun (lo : Nat) => BitVec.ofNat 64 (bits v lo 64)
  let w32 := fun (lo : Nat) => BitVec.ofNat 32 (bits v lo 32)
  let code := bits v 464 8
  if code = 0 then Fibre.vacant
  else
    let wait := if code ≠ 4 ∧ code ≠ 2 then none
      else if bit v 480 then
        some (Wait.hbar (bits v 482 4) (if bits v 490 2 = 0 then none else some (BitVec.ofNat 4 (bits v 486 4))))
      else match f.wait with
        | some (.sleep a x _ pd ip hpc) => some (.sleep a x (if bits v 192 64 = 0 then none else some (bits v 192 64)) pd ip hpc)
        | some (.grid g q fc t _) => some (.grid g q fc t (if bits v 192 64 = 0 then none else some (bits v 192 64)))
        | w => w
    { f with
      st := if code = 3 then .parking else .live
      pc := w64 0, kpc := w64 64, cnt := w32 256, kcnt := w32 288, fpctl := w32 320, fpstat := w32 352, intctl := w32 384
      preds := BitVec.ofNat 16 (bits v 416 16) ||| 0x8000, kpreds := BitVec.ofNat 16 (bits v 432 16), smask := BitVec.ofNat 16 (bits v 448 16)
      serial := bits v 472 8 ≠ 0, cl := none, wait := wait, stop := false, near := List.replicate 8 0, lat := 0, pend := 0
      win := List.replicate size 0, uage := 0 }

/-- STRAND put back: its own part, its fibres, and the lane blocks of those inside a clause. -/
def Strand.load (st : Strand) (b : List Byte) (aux size : Nat) : Strand :=
  let fs := st.fibres.mapIdx fun l f => f.load (fieldAt b (64 + 64 * l) 64) size
  let ls := setBits 32 aux
  let blk := fun (i : Nat) => b.drop (2112 + 40 * i)
  { st with quantum := BitVec.ofNat 32 (fieldAt b 0 4), srseed := BitVec.ofNat 64 (fieldAt b 8 8),
            flags := (List.range 12).map fun i => fieldAt b (16 + i) 1
            cur := none, others := [], slot := none, full := false
            fibres := fs.mapIdx fun l (f : Fibre) => match ls.findIdx? (· = l) with
              | some i => { f with near := wordsOf 8 (blk i), lat := BitVec.ofNat 64 (fieldAt (blk i) 32 8) }
              | none => f }

/-- WINDOW put back. -/
def Strand.loadWin (st : Strand) (b : List Byte) (bs : List Nat) : Strand :=
  { st with fibres := st.fibres.mapIdx fun l (f : Fibre) =>
      if f.st = .empty then f
      else { f with win := f.win.mapIdx fun i w => match bs.findIdx? (· = i / 8) with
        | some k => BitVec.ofNat 32 (fieldAt b (1024 * k + 128 * (i % 8) + 4 * l) 4)
        | none => w } }

/-- A barrier put back; its waiting arrivals stand in lane records (R404). -/
def Hbar.load (h : Hbar) (b : List Byte) (waits : List (Nat × Bool × HbarMode × Num4 × Bool)) : Hbar :=
  let st := fieldAt b 4 4
  let arr := fidsOf b 136
  let own := fun (d : Bool) => (waits.filter fun q => decide (q.2.1 = d)).map fun q => (q.1, q.2.2)
  { opened := bit st 0, mask := fieldAt b 0 4, expected := fidsOf b 8, arrived := arr, band := !bit st 0 || bit st 1, bor := bit st 2,
    nextMask := if bit st 3 then some (fieldAt b 264 4) else none
    defer := (own true) ++ h.defer.filter fun q => !(waits.any fun w => decide (w.1 = q.1)) && bit st 3
    want := (own false).filter (fun q => arr.contains q.1) ++ h.want.filter fun q => arr.contains q.1 && !(waits.any fun w => decide (w.1 = q.1)) }

/-- The barrier waits that a strand's lane records describe: barrier, FID, deferred, mode, pD, bit. -/
def hwaits (sid : Nat) (b : List Byte) : List (Nat × Nat × Bool × HbarMode × Num4 × Bool) :=
  (List.range 32).filterMap fun l =>
    let v := fieldAt b (64 + 64 * l) 64
    if bits v 464 8 = 4 ∧ bit v 480 then
      some (bits v 482 4, sid * 32 + l, bit v 481, hmodeOf (bits v 490 2), BitVec.ofNat 4 (bits v 486 4), bit v 492)
    else none

/-- A rope before its sections are put back: unsaved parts are zero (R398, R406). -/
def Rope.emptied (r : Rope) : Rope :=
  { r with spad := [], tiles := r.tiles.map fun _ => [], planes := r.planes.map fun _ => [], halt := false, stopping := none, staged := [] }

/-- One section put back into its rope (R403, R404). -/
def Rope.load (r : Rope) (xs : List Sect) (x : Sect) : Rope :=
  let setSt := fun (f : Strand → Strand) => { r with strands := r.strands.mapIdx fun i st => if i = x.sid then f st else st }
  match x.ty with
  | 1 =>
    { r with
      coilXyz := (fieldAt x.body 0 4, fieldAt x.body 4 4, fieldAt x.body 8 4), ropeXyz := (fieldAt x.body 12 2, fieldAt x.body 14 2, fieldAt x.body 16 2)
      bidx := r.bidx / 2 ^ 32 * 2 ^ 32 + fieldAt x.body 28 4, tcs := (List.range 16).map fun i => BitVec.ofNat 32 (fieldAt x.body (32 + 4 * i) 4)
      tls := r.tls.mapIdx fun i (t : Tl) =>
        if i < 6 then { t with issued := BitVec.ofNat 32 (fieldAt x.body (96 + 8 * i) 4), value := BitVec.ofNat 32 (fieldAt x.body (100 + 8 * i) 4) } else t }
  | 2 => setSt fun st => st.load x.body x.aux r.size
  | 3 => setSt fun st => st.loadWin x.body (setBits 32 x.aux)
  | 5 =>
    let sz := r.spadA / 16
    (setBits 16 x.aux).zipIdx.foldl (fun (r : Rope) q => { r with spad := cellsWrite r.spad (q.1 * sz) ((x.body.drop (q.2 * sz)).take sz) }) r
  | 6 =>
    (setBits 16 x.aux).zipIdx.foldl (fun (r : Rope) q =>
      (r.tileWrite q.1 0 ((x.body.drop (q.2 * 18432)).take 16384)).sideWrite q.1 0 ((x.body.drop (q.2 * 18432 + 16384)).take 2048)) r
  | 7 =>
    let ws := (xs.filter fun y => decide (y.ty = 2 ∧ y.rope = x.rope)).flatMap fun y => hwaits y.sid y.body
    { r with hbars := r.hbars.mapIdx fun i h => h.load (x.body.drop (272 * i)) ((ws.filter fun q => decide (q.1 = i)).map Prod.snd) }
  | 8 =>
    { r with ties := r.ties.mapIdx fun i (t : Tie) =>
        let b := x.body.drop (400 * i)
        let sec := fidsOf b 256
        { t with expected := fidsOf b 0, signed := fidsOf b 128, pending := if fieldAt b 384 4 = 0xFFFFFFFF then none else t.pending, second := t.second.filter fun q => sec.contains q.fid } }
  | _ => r

/-- An operation's kind rebuilt from its record: the words say which, the record what they fixed (R405). -/
def State.rebuild (s : State) (r : Rope) (ins : Instr) (b : List Byte) (old : Option OpKind) : Option (OpKind × Option (BarRef × Bool)) :=
  let quad := fun (o : Nat) => (List.range 4).map fun i => sx 32 (fieldAt b (o + 4 * i) 4)
  let tc := fun (i : Nat) => tcOf (BitVec.ofNat 32 (fieldAt b (212 + 4 * i) 4))
  let rows := (List.range (fieldAt b 228 4)).map fun i => sx 32 (fieldAt b (256 + 4 * i) 4)
  let bar := fun (en : Bool) (i : BitVec 3) => (s.ropeField r en i).map fun x => (⟨x.id, fieldAt b 208 4⟩ : BarRef)
  match ins, copyUp? ins, tileUp? ins with
  | _, some (u, _), _ =>
    match s.ropeField r u.fo u.frope, s.ropeField r u.dw u.drope with
    | some sr, some dr =>
      let fill := match ins with
        | .xfill .. => true
        | _ => false
      let idx := match ins with
        | .xgath .. | .xscat .. => true
        | _ => false
      let scat := match ins with
        | .xscat .. => true
        | _ => false
      let red := match ins with
        | .xred .. => some (u.rop, u.rty, u.sat)
        | _ => none
      some (.copy { src := if fill then none else some (shapeOf u.ss.toNat ((b.drop 48).take 64)), dst := shapeOf u.ds.toNat ((b.drop 112).take 64),
                    srope := sr.id, drope := dr.id, cs := quad 16, cd := quad 32, scat := scat, rows := if idx then some rows else none, red := red,
                    ro := u.ro, only := none, cred := if u.cred then bar u.bo u.brope else none }, none)
    | _, _ => none
  | _, none, some (u, _, _) =>
    let wait := if u.wb then (bar u.bo u.brope).map fun x => (x, u.wph) else none
    let sr := ((s.ropeField r u.so u.srope).map Rope.id).getD r.id
    let k : Option TileOp := match ins with
      | .tld .. => some (.tld u.td.toNat (tc 0) (shapeOf u.shp.toNat ((b.drop 48).take 64)) sr (quad 16))
      | .tst .. => some (.tst u.ta.toNat (tc 1) (shapeOf u.shp.toNat ((b.drop 112).take 64)) sr (quad 16))
      | .tzero .. => some (.tzero u.td.toNat (tc 0))
      | .mma _ na nb nacc sat acc16 _ _ _ => some (.mma na nb nacc sat acc16 u.td.toNat u.ta.toNat u.tb.toNat u.tq.toNat (tc 0) (tc 1) (tc 2) (tc 3))
      | .tew _ op sat _ _ _ => some (.tew op sat u.td.toNat u.ta.toNat u.tb.toNat (tc 0) (tc 1) (tc 2))
      | .tcvt _ sat rc _ _ _ => match old with
        | some (.tile (.tcvt _ rc' _ _ _ _ seed ftz)) => some (.tcvt sat rc' u.td.toNat u.ta.toNat (tc 0) (tc 1) seed ftz)
        | _ => some (.tcvt sat rc u.td.toNat u.ta.toNat (tc 0) (tc 1) 0 false)
      | .tred _ op _ _ _ => some (.tred op u.td.toNat u.ta.toNat (tc 0) (tc 1))
      | .trow .. => some (.trow u.td.toNat u.ta.toNat (tc 0) (tc 1) u.drow.toNat u.srow.toNat (u.cnt.toNat + 1))
      | _ => none
    k.map fun k => (.tile k, wait)
  | _, none, none => none

/-- Rows or steps after which an operation is at its end. -/
def OpKind.bound (k : OpKind) : Option Nat :=
  match k with
  | .tile (.mma _ _ _ _ _ _ _ _ _ _ ta tb _) => some (mmaSteps ta tb)
  | k => k.mover.map Mover.n

/-- The flags that a record's issue owes raised once for the issue, not once per operation (R405). -/
def State.oweFlags (s : State) (r : RopeId) (b : List Byte) (sh : List ((Nat × Nat × Nat) × Nat)) : State × List (Nat × Nat) × List ((Nat × Nat × Nat) × Nat) :=
  let tl := fieldAt b 182 1
  let tag := fieldAt b 232 4
  (setBits 32 (fieldAt b 188 4)).foldl (fun (a : State × List (Nat × Nat) × List ((Nat × Nat × Nat) × Nat)) sid =>
    let s := a.1
    let w : Who := .strand r sid
    let st := s.strand w
    match lookupBy Prod.fst (tl, tag, sid) a.2.2 with
    | some (_, t) =>
      (s.setStrand w { st with due := st.due.map fun (d : Due) => if d.tag = t then { d with left := d.left + 1 } else d }, a.2.1 ++ [(sid, t)], a.2.2)
    | none =>
      let (t, s) := s.fresh
      (s.setStrand w { st with due := st.due ++ [⟨t, bits (fieldAt b 192 16) (4 * sid) 4, 1⟩] }, a.2.1 ++ [(sid, t)], a.2.2 ++ [((tl, tag, sid), t)]))
    (s, [], sh)

/-- One ENGOP record put back: its operation returns to the task table or its engine from its cursor, or to its tie (R405, R406). -/
def State.loadOp (s : State) (sv : Saved) (m : Ren) (r : RopeId) (tie : Option Nat) (b : List Byte) (sh : List ((Nat × Nat × Nat) × Nat)) :
    State × List ((Nat × Nat × Nat) × Nat) :=
  match s.rope? r, (Fields.ofBytes (b.take 16)).bind Sys2Proof.build with
  | some rp, some ins =>
    let tl := fieldAt b 182 1
    let num := BitVec.ofNat 32 (fieldAt b 184 4)
    let old := (sv.ops.map m.op).find? fun o => decide (o.rope = r ∧ o.tl = tl ∧ o.num = num)
    let oldP := (rp.ties.findSome? fun t => t.pending.filter fun p => decide (p.tl = tl ∧ p.num = num)).map Pending.kind
    match s.rebuild rp ins b ((old.map Op.kind).orElse fun _ => oldP) with
    | none => (s, sh)
    | some (kind, wait) =>
      let (s, owed, sh) := s.oweFlags r b sh
      let word := (BitVec.ofNat 64 (fieldAt b 0 8), BitVec.ofNat 64 (fieldAt b 8 8))
      let wrec := ((starter? ins).map Starter.wrec).getD false
      let shape := match copyUp? ins, tileUp? ins with
        | some (u, _), _ => u.ss.toNat
        | _, some (u, _, _) => u.shp.toNat
        | _, _ => 0
      match fieldAt b 183 1, tie with
      | 3, some k =>
        let t := s.tie r k
        (s.setTie r k { t with pending := some { kind := kind, tl := tl, num := num, wrec := wrec, wait := wait, word := word, shape := shape, owed := owed } }, sh)
      | code, _ =>
        let (id, s) := s.fresh
        let crow := fieldAt b 176 4
        let base : Op := old.getD
          { id := id, core := r.core, rope := r, ctx := rp.ctx, qent := rp.qent, rtag := BitVec.ofNat 32 rp.bidx, tl := tl, num := num, word := word, tag := 0, kind := kind,
            st := .table, wrec := wrec, wait := none, shape := shape, owed := [], crow := 0, cseg := 0, done := 0, fva := 0, fcode := 0, vis := 0, fin := false,
            since := s.gtime, rtry := false }
        let held := base.st.ending
        let o := { base with
          id := id, kind := kind, wait := wait, word := word, tag := BitVec.ofNat 32 (fieldAt b 232 4), wrec := wrec, shape := shape, owed := owed
          crow := crow, cseg := fieldAt b 180 2
          st := if code = 0 then .table else if base.st.isHeld then base.st else .queued
          fin := (base.fin && decide (base.crow = crow)) || ((kind.bound).map fun n => decide (n ≤ crow)).getD false
          since := s.gtime, rtry := decide (code = 2), fva := if held then base.fva else 0, fcode := if held then base.fcode else 0 }
        ({ s with ops := s.ops ++ [o] }, sh)
  | _, _ => (s, sh)

/-- The tie whose pending index names a record. -/
def tieFor (xs : List Sect) (rope ix : Nat) : Option Nat :=
  match xs.find? fun x => decide (x.ty = 8 ∧ x.rope = rope) with
  | some x => (List.range 16).find? fun k => decide (fieldAt x.body (400 * k + 384) 4 = ix)
  | none => none

/-- Class and kind of an entry's codes. -/
def fclassOf (n : Nat) : FClass := ([.illegal, .arith, .xlate, .range, .align, .bound, .shape, .brk, .trap, .syscall, .engpark] : List FClass).getD n .halo
/-- Restart kind of a code. -/
def rkindOf : Nat → RKind
  | 0 => .at
  | 1 => .knot
  | _ => .cursor

/-- A replay entry from its bytes (R364, R366). -/
def entryAt (b : List Byte) (o : Nat) (rope : RopeId) : Entry :=
  let v := fieldAt b o 64
  let m := BitVec.ofNat 32 (bits v 288 32)
  let w := fun (lo : Nat) => BitVec.ofNat 64 (bits v lo 64)
  { seq := BitVec.ofNat 32 (bits v 192 32), ctx := bits v 180 12, rope := rope, sid := bits v 168 5, fmask := m, cls := fclassOf (bits v 161 4),
    kind := rkindOf (bits v 159 2), info := BitVec.ofNat 32 (bits v 256 32), opnum := BitVec.ofNat 32 (bits v 224 32), tl := bits v 165 3, rtry := true,
    srl := bit v 157, fva := w 448, rpc := w 384, fpc := w 320, hpc := w 64, kpc := w 0,
    lanes := if bits v 159 2 ≠ 0 then [] else (lanesOf m).mapIdx fun i l =>
      let a := o + 64 + 40 * i
      ⟨l, wordsOf 8 (b.drop a), BitVec.ofNat 64 (fieldAt b (a + 32) 8)⟩
    popped := false, op := none }

/-- The entry is of a trap that its instruction raises by itself: repeating the access is no retry of it. -/
def Entry.again (e : Entry) : Bool := e.cls == .syscall || e.cls == .trap || e.cls == .brk

/-- A saved entry put back: its lanes retry, or it is queued as it was (R375, R397). -/
def State.loadEntry (s : State) (e : Entry) : State :=
  let w : Who := .strand e.rope e.sid
  let s := (lanesOf e.fmask).foldl (fun (s : State) l => s.setFibre w l { s.fibre w l with rtry := true }) s
  if e.again then
    let s := e.lanes.foldl (fun (s : State) b =>
      s.setFibre w b.lane { s.fibre w b.lane with near := b.near, lat := b.lat, pc := e.rpc, st := .parking }) s
    let c := s.core e.rope.core
    (s.setCore { c with parking := c.parking ++ [⟨e.rope, e.sid, e.fmask, ⟨e.cls, e.kind, e.info, e.fva, e.rpc⟩, e.fpc, e.hpc⟩] }).flushParks e.rope.core
  else (lanesOf e.fmask).foldl (fun (s : State) l => s.resumeLane e l) s

/-- Fibres that were inside a clause go back into it (R408). -/
def State.loadInside (s : State) (r : RopeId) (x : Sect) : State :=
  (List.range 32).foldl (fun (s : State) l =>
    let v := fieldAt x.body (64 + 64 * l) 64
    if bits v 464 8 ≠ 2 then s
    else
      let w : Who := .strand r x.sid
      let f := s.fibre w l
      let s := s.resumeAt w l f.near f.lat (BitVec.ofNat 64 (bits v 0 64)) (BitVec.ofNat 64 (bits v 128 64))
      let g := s.fibre w l
      if g.st = .live then s.setFibre w l { g with wait := f.wait, sel := f.sel } else s) s

/-- Free entries of a cluster's scratchpad mapping table (R219). -/
def State.freeMaps (s : State) (cl : Nat) : Nat := 16 - (s.windows.filter fun w => decide (w.cluster = cl ∧ w.idx < 16)).length

/-- Mapping entries that a saved coil needs (R406). -/
def State.mapsOf (s : State) (x : Saved) : Nat := (s.windows.filter fun w => x.ropes.any fun r => decide (r.id = w.rope)).length

/-- A mapping entry put back with its new core and place; the entry saved with the rope has its dirty marks (R219, R222, R406). -/
def State.loadWindow (s : State) (r old : Rope) (b : List Byte) : State :=
  let v := leNat b
  let cl := clusterOf r.id.core
  let used := (s.windows.filter fun w => decide (w.cluster = cl)).map Window.idx
  let vb := bits v 36 44
  let was := s.windows.find? fun w => decide (w.rope = r.id ∧ w.vbase = vb)
  let rest := s.windows.filter fun w => decide (¬ (w.rope = r.id ∧ w.vbase = vb))
  match (List.range 16).find? fun i => !used.contains i with
  | none => s
  | some i =>
    if bit v 0 then
      { s with windows := rest ++ [{ cluster := cl, idx := i, wb := bit v 80, vbase := vb, ctx := bits v 24 12, klen := bits v 14 10,
                                     koff := bits v 4 10 + r.sramOff / 1024 - old.sramOff / 1024, core := r.id.core % 8, rope := r.id,
                                     dirty := (was.map Window.dirty).getD [], closed := false }] }
    else { s with windows := rest }

/-- A halo operation's entry put back (R499). -/
def State.loadHalo (s : State) (sv : Saved) (m : Ren) (r : RopeId) (b : List Byte) : State :=
  let num := BitVec.ofNat 32 (fieldAt b 0 4)
  match (sv.ops.map m.op).find? fun o => decide (o.rope = r ∧ o.tl = 5 ∧ o.num = num) with
  | none => s
  | some o => match o.kind with
    | .halo h =>
      let (id, s) := s.fresh
      { s with ops := s.ops ++ [{ o with id := id, crow := fieldAt b 16 4, cseg := fieldAt b 20 2, wrec := fieldAt b 7 1 ≠ 0, since := s.gtime,
                                         kind := .halo { h with slot := fieldAt b 4 1, part := fieldAt b 8 4, step := BitVec.ofNat 32 (fieldAt b 12 4) } }] }
    | _ => s

/-- A REFETCH section becomes refetches: an XCP each, cut to the lines that the map gives it (R407). -/
def State.loadRefetch (s : State) (r : Rope) (x : Sect) : State :=
  let map := (List.range (r.spadA / 128)).map fun l => (l, fieldAt x.body (160 * x.aux + 2 * l) 2)
  (List.range x.aux).foldl (fun (s : State) i =>
    let b := x.body.drop (160 * i)
    let lines := (map.filter fun q => decide (q.2 = i + 1)).map Prod.fst
    let quad := fun (o : Nat) => (List.range 4).map fun k => sx 32 (fieldAt b (o + 4 * k) 4)
    let c : CopyOp :=
      { src := some (shapeOf 0 (b.take 64)), dst := shapeOf 0 ((b.drop 64).take 64), srope := r.id, drope := r.id, cs := quad 128, cd := quad 144,
        scat := false, rows := none, red := none, ro := true, only := some lines, cred := none }
    let (id, s) := s.fresh
    { s with ops := s.ops ++ [{ id := id, core := r.id.core, rope := r.id, ctx := r.ctx, qent := r.qent, rtag := BitVec.ofNat 32 r.bidx, tl := 6,
                                num := BitVec.ofNat 32 (i + 1), word := (0, 0), tag := 0, kind := .copy c, st := .queued, wrec := false, wait := none,
                                shape := 0, owed := [], crow := 0, cseg := 0, done := 0, fva := 0, fcode := 0, vis := 0, fin := lines == [],
                                since := s.gtime, rtry := false }] }) s

/-- The rope of a section, by its new name. -/
def sectRope (m : Ren) (sv : Saved) (x : Sect) : RopeId := ((sv.ropes.find? fun r => decide (r.ridx = x.rope)).map fun r => m.of r.id).getD ⟨0, 0⟩

/-- The sections put back in the order of R406. -/
def State.unpack (s : State) (sv : Saved) (m : Ren) (xs : List Sect) : State :=
  let of := fun (ty : Nat) => xs.filter fun x => decide (x.ty = ty)
  let id := sectRope m sv
  -- windows
  let s := (of 11).foldl (fun (s : State) x =>
    match s.rope? (id x), sv.ropes.find? fun r => decide (r.ridx = x.rope) with
    | some r, some old => (List.range x.aux).foldl (fun (s : State) i => s.loadWindow r old ((x.body.drop (16 * i)).take 16)) s
    | _, _ => s) s
  -- refetches
  let s := (of 10).foldl (fun (s : State) x => match s.rope? (id x) with
    | some r => s.loadRefetch r x
    | none => s) s
  -- engine operations, per timeline in order of number
  let s := (of 9).foldl (fun (s : State) x =>
    let offs := (itemOffs (recLen x.body) x.aux 0).dropLast.zipIdx
    (offs.foldl (fun (a : State × List ((Nat × Nat × Nat) × Nat)) q =>
      a.1.loadOp sv m (id x) (tieFor xs x.rope q.2) ((x.body.drop q.1).take (recLen x.body q.1)) a.2) (s, [])).1) s
  let s := (of 12).foldl (fun (s : State) x => (List.range x.aux).foldl (fun (s : State) i =>
    s.loadHalo sv m (id x) ((x.body.drop (64 * i)).take 64)) s) s
  -- replay entries, then the fibres inside clauses
  let s := (of 4).foldl (fun (s : State) x =>
    (itemOffs (entryLen x.body) x.aux 0).dropLast.foldl (fun (s : State) o =>
      let e := entryAt x.body o (id x)
      if e.cls = .engpark then s else s.loadEntry e) s) s
  (of 2).foldl (fun (s : State) x => s.loadInside (id x) x) s

/-- What a saved rope needs of a core; of one that has ended its scratchpad alone is kept (R147). -/
def Rope.need (r : Rope) (part : Nat) : Need :=
  if r.ended then ⟨0, 0, r.spadA, 0, part⟩ else ⟨r.strands.length, r.size, r.spadA, r.ntiles, part⟩

/-- A saved coil that may be restored now: its context is resident, its process runs, and its class admits it (R195, R406). -/
def State.restorable (s : State) (c : Context) (x : Saved) : Bool :=
  s.boot == .ready && !s.thermal && c.resident && !c.leaving && !c.dead && !c.stopped && !x.bad && !(s.stops.any fun y => decide (y.ctx = c.no)) &&
    s.admits c x.cls ((x.ropes.filter fun r => !r.ended).length)

/-- RESTORE_COIL (R375, R406 to R408): the area is read and checked; one that fails is refused with the offset of its first failure. -/
def execRestoreCoil (ctx area : Nat) (p : Placement) (s : State) : Host.Outcome State Fault Refusal :=
  match (s.ctx? ctx).bind fun c => (c.saved.find? fun x => decide (x.area = area)).map fun x => (c, x) with
  | none => s.noEvent
  | some (c, x) =>
    if !s.restorable c x ∨ p.ropes.length ≠ x.ropes.length ∨ !placementOk p (s.banned ctx) ∨ s.freeMaps p.cluster < s.mapsOf x then s.noEvent
    else
      match s.placeAll p.cluster ((x.ropes.zip (seatsOf p)).map fun q => (q.2.1, q.1.need q.2.2)) with
      | none => s.noEvent
      | some offs =>
        let refuse := fun (s : State) (o : Nat) => match s.ctx? ctx with
          | some c => Host.Outcome.next ((s.setCtx { c with saved := c.saved.map fun (y : Saved) => if y.area = area then { y with bad := true } else y }).send
              (.refusedArea ctx area o))
          | none => .next s
        match (s.as (.ctx ctx)).vLoadN p.cluster ctx area 128 .load false with
        | (t, .retry) => s.retried t
        | (s, .bad _) => refuse s 0
        | (u, .ok h) =>
          match u.vLoadN p.cluster ctx area (min (bits (leNat h) 256 64) (2 ^ 32)) .load false with
          | (t, .retry) => s.retried (s.unspent t)
          | (s, .bad _) => refuse s 0
          | (s, .ok b) =>
            match parseArea x.ropes b with
            | .error o => refuse s o
            | .ok xs =>
              let m : Ren := (x.ropes.zip p.ropes).map fun q => (q.1.id, q.2)
              -- flags still owed by operations that the area describes are raised afresh
              let owed := (x.ops.filter fun o => decide (o.tl ≤ 4)).flatMap (fun o => o.owed.map Prod.snd) ++
                x.ropes.flatMap fun r => r.tied.flatMap fun q => q.2.owed.map Prod.snd
              let load := fun (r : Rope) => (xs.filter fun y => decide (y.rope = r.ridx)).foldl (fun (r : Rope) y => r.load xs y) r.emptied
              let rs := (x.ropes.zip (offs.zip p.parts)).map fun q =>
                let r := m.rope (load q.1)
                { r with
                  sramOff := q.2.1, part := q.2.2, fetching := xs.any (fun y => decide (y.ty = 10)), crowd := true
                  strands := r.strands.map fun (st : Strand) =>
                    { st with due := st.due.filter (fun d => !owed.contains d.tag), ready := some s.gtime, since := s.gtime
                              fibres := st.fibres.map fun (f : Fibre) => if r.engSig.isSome ∧ f.st ≠ FSt.empty then { f with sel := some 7 } else f }
                  engSig := none, engInfo := if r.engSig.isSome then r.engineMask else r.engInfo }
              let s := s.dropRoCtx p.cluster ctx
              let s := (s.rename m).seated rs
              let s := s.unpack x m xs
              -- until every staged line is back, the fibres stand still
              let s := { s with ropes := s.ropes.map fun (r : Rope) =>
                if p.ropes.contains r.id && r.fetching then r.mapFibres fun f => if f.st = FSt.live then { f with stop := true } else f else r }
              match s.ctx? ctx with
              | some c => .next (s.setCtx { c with saved := c.saved.filter fun y => decide (y.area ≠ area) })
              | none => .next s

/-- The strands of a restored coil are released once every refetch has completed (R406, R407). -/
def State.releaseFetched (s : State) : State :=
  let busy := fun (k : CoilKey) => s.ops.any fun o => decide (o.tl = 6) && ((s.rope? o.rope).map fun r => decide (r.key = k)).getD false
  { s with ropes := s.ropes.map fun (r : Rope) =>
      if r.fetching ∧ !busy r.key then
        let r := { r with fetching := false }
        if r.stopping.isSome then r else r.mapFibres fun f => { f with stop := false }
      else r }

/-! ### Engine reset (R410, R411, R500) -/

/-- Timelines of an engine. -/
def engTl : EngineId → Nat
  | .copy j => j.toNat
  | .matrix => 4
  | .halo => 5

/-- The ropes of a core that an engine's reset affects: those whose coil is not quiesced and that hold tiles or operations on it. -/
def State.affected (s : State) (core : Nat) (e : EngineId) : List Rope :=
  (s.onCore core).filter fun r => !r.halt && !r.ended && (s.ops.any (fun o => decide (o.rope = r.id ∧ o.tl = engTl e)) || (e == .matrix && decide (r.ntiles ≠ 0)))

/-- An engine of a core is reset (R410): its operations end RESET, the matrix engine's tiles are lost, and the affected ropes stop and
receive ENGINE. -/
def State.resetEngine (s : State) (core : Nat) (e : EngineId) : State :=
  (s.affected core e).foldl (fun (s : State) r =>
    let mine := s.ops.filter fun o => decide (o.rope = r.id ∧ o.tl = engTl e)
    let s := { s with cores := s.cores.map fun (c : Core) => { c with rq := c.rq.filter fun x => !(mine.any fun o => decide (x.op = some o.id)) } }
    let s := mine.foldl (fun (s : State) o => s.failOp o 4) s
    match s.rope? r.id with
    | none => s
    | some r =>
      let r := if e = .matrix then { r with tiles := r.tiles.map fun _ => [], planes := r.planes.map fun _ => cellsWrite [] 0 (List.replicate 2048 0x78) } else r
      s.setRope { r with stopping := some (r.stopping.getD s.gtime), engSig := some (r.engSig.getD 0 ||| 2 ^ engTl e) }) s

/-- ENGINE_RESET: on system software's command (R410). -/
def execEngineReset (core : Nat) (e : EngineId) (s : State) : Host.Outcome State Fault Refusal :=
  if 2880 ≤ core ∨ s.boot ≠ .ready then s.noEvent else .next (s.resetEngine core e)

/-- The engine has held work for 1 ms without a step or segment (R410). -/
def State.hung (s : State) (core : Nat) (e : EngineId) : Bool :=
  s.ops.any fun o => decide (o.core = core ∧ o.tl = engTl e ∧ o.since + 1000000 ≤ s.gtime) && o.st.sent && s.isHead o && !o.fin

/-- ENGINE_WATCHDOG (R410). -/
def execEngineWatchdog (core : Nat) (e : EngineId) (s : State) : Host.Outcome State Fault Refusal :=
  if s.hung core e then .next (s.resetEngine core e) else s.noEvent

end Sys2Proof.Machine
end

