-- ==== Sys2Proof/Machine/Serve.lean ====
section
/-! DEFINITION. The frames of signals and their delivery (R385, R386), and the system calls, served for entries of class SYSCALL (R220,
R222, R379 to R384, R460, R462 to R464). A result is held for its fibre until every fibre of the entry has one; then the fibres go on. -/

namespace Sys2Proof.Machine

/-- A fibre's call that is to be served: its entry, rope and lane. -/
structure Call where
  e    : Entry
  r    : Rope
  lane : Nat
  deriving DecidableEq, Repr

/-- The fibre of a lane of an entry. -/
def State.entryFibre (s : State) (e : Entry) (l : Nat) : Fibre := s.fibre (.strand e.rope e.sid) l

/-- What names a fibre to the service cores: its rope's completion index, strand and lane, told apart by launch. -/
def Rope.callKey (r : Rope) (sid l : Nat) : Nat × Nat × Nat := (r.bidx, sid + 32 * r.qent, l)

/-- The supervisor strand of a core runs code of its own; else the firmware's behaviour stands for it (log 10). -/
def State.hasCode (s : State) (core : Nat) : Bool := (s.core core).sv.cur.isSome

/-- An error code (R381). -/
def err (n : Nat) : Word := BitVec.ofInt 32 (-(n : Int))

/-- The fibre of a call. -/
def State.caller (s : State) (c : Call) : Fibre := s.entryFibre c.e c.lane
/-- A 32-bit argument. -/
def State.arg (s : State) (c : Call) (i : Nat) : Nat := ((s.caller c).win.getD i 0).toNat
/-- A 64-bit argument in an even pair. -/
def State.arg64 (s : State) (c : Call) (i : Nat) : Nat := s.arg c i + s.arg c (i + 1) * 2 ^ 32

/-- The first fibre of an entry that waits for a call of a number. The supervisor strand's own calls are served here only where no code
stands for it; the service cores' calls once the entry is popped, or where no code is to pop it. -/
def State.callOf (s : State) (core : Nat) (seq : Word) (byCores : Bool) (want : Fibre → Bool) : Option (Call × Context) :=
  match (s.core core).rq.find? fun e => decide (e.seq = seq ∧ e.cls = .syscall) with
  | none => none
  | some e =>
    match s.rope? e.rope, s.ctx? e.ctx with
    | some r, some x =>
      if (s.hasCode core && !(byCores && e.popped)) || x.dying.isSome then none
      else ((lanesOf e.fmask).find? fun l => want (s.entryFibre e l) && (lookupBy Prod.fst (r.callKey e.sid l) x.answers).isNone).map
        fun l => (⟨e, r, l⟩, x)
    | _, _ => none

/-- The disposition of a signal. -/
def Context.disp (x : Context) (sig : Nat) : Disp := x.disps.getD sig Disp.dflt

/-- A process is terminated with a core dump: its coils are halted first (R382, R400). -/
def State.dumpCtx (s : State) (ctx sig : Nat) (cause : Option (Nat × Word)) : State :=
  match s.ctx? ctx with
  | none => s
  | some x =>
    if x.dead ∨ x.dying.isSome then s
    else (s.coils ctx).foldl (fun (s : State) k => s.stopCoil k false) (s.setCtx { x with dying := some (sig, cause), pending := 0 })

/-- The restart address of an entry stands inside the clause at its header: a frame of kind 0 (R386, R416). Where the header cannot be
fetched, the address tells. -/
def State.frameInside (s : State) (e : Entry) : Bool :=
  let w : Who := .strand e.rope e.sid
  decide (e.kind = .at ∧ e.rpc ≠ e.hpc) && match s.fetch w e.hpc 8 with
    | (s, .ok h) => (match s.clauseAt w e.rpc 17 (clauseOf e.hpc (leNat h)) with
      | (_, .ended) => false
      | _ => true)
    | _ => true

/-- The header and the register part of a signal frame (R386); `proc`: of a process signal. -/
def frameBytes (f : Fibre) (e : Entry) (b : LaneBlk) (sig fr fva info : Nat) (inside proc : Bool) : List Byte :=
  leBytes 64 (fr + f.win.length / 8 * 2 ^ 144 + sig * 2 ^ 150 + (if inside then 0 else 2 ^ 155) + (if proc then 0 else FClass.num e.cls * 2 ^ 156) +
    f.smask.toNat * 2 ^ 160 + f.preds.toNat * 2 ^ 176 + f.intctl.toNat * 2 ^ 192 + f.fpstat.toNat * 2 ^ 224 + f.fpctl.toNat * 2 ^ 256 +
    info * 2 ^ 288 + e.hpc.toNat * 2 ^ 320 + e.rpc.toNat * 2 ^ 384 + fva * 2 ^ 448) ++
  padTo 64 (if inside then b.bytes else []) ++ bytesOfWords f.win

/-- The fibre as its handler finds it (R387, steps 2 and 3). -/
def Fibre.handled (f : Fibre) (d : Disp) (sig fr : Nat) : Fibre :=
  let r := d.spreg.toNat
  { f with win := ((f.win.set r (BitVec.ofNat 32 fr)).set (r + 1) (BitVec.ofNat 32 (fr / 2 ^ 32))).set 0 (BitVec.ofNat 32 sig),
           smask := (f.smask ||| d.hmask ||| BitVec.ofNat 16 (2 ^ sig)) &&& 0xFFFE }

/-- What writing frames comes to: lane, signal and frame address of each, a page that cannot be written, or an access to be repeated. -/
inductive Frames where
  | ok (l : List (Nat × Nat × Nat))
  | bad (sig : Nat)
  | again
  deriving DecidableEq, Repr

/-- The fva and info of a frame: the entry's, or what a process signal was posted with; ENGINE names its rope's timelines (R386, R410). -/
def State.frameInfo (s : State) (e : Entry) (x : Context) (proc : Bool) (sig : Nat) : Nat × Nat :=
  let engine := ((s.rope? e.rope).map Rope.engInfo).getD 0
  if !proc then (e.fva.toNat, e.info.toNat)
  else if sig = 7 ∧ engine ≠ 0 then (0, engine)
  else ((x.sinfo.find? fun q => decide (q.1 = sig)).map fun q => (q.2.1.toNat, q.2.2.toNat)).getD (0, 0)

/-- The frame of one lane is written (R386, R387). A page that is not present is offered to the service cores: a choice. -/
def State.writeFrame (s : State) (e : Entry) (x : Context) (proc inside : Bool) (a : List (Nat × Nat × Nat)) (l sig : Nat) : State × Frames :=
  let f := s.entryFibre e l
  let r := (x.disp sig).spreg.toNat
  let sp := (f.win.getD r 0).toNat + (f.win.getD (r + 1) 0).toNat * 2 ^ 32
  let n := 128 + 4 * f.win.length
  let fr := (sp - n) / 128 * 128
  if f.win.length ≤ r + 1 ∨ sp < n ∨ 2 ^ 54 < fr + n then (s, .bad sig)
  else
    let b := (lookupBy LaneBlk.lane l e.lanes).getD ⟨l, List.replicate 8 0, 0⟩
    let i := s.frameInfo e x proc sig
    match s.vStoreN (clusterOf e.rope.core) e.ctx fr (frameBytes f e b sig fr i.1 i.2 inside proc) .store true with
    | (s, .ok _) => (s, .ok (a ++ [(l, sig, fr)]))
    | (s, .retry) => (s, .again)
    | (s, .bad c) =>
      let p := s.pick
      if c = 1 ∧ p.1 ≠ 0 then (p.2, .again) else (s, .bad sig)

/-- The frames of an entry's lanes, each with its signal, are written in turn (R387). -/
def State.writeFrames (s : State) (e : Entry) (x : Context) (proc : Bool) (ls : List (Nat × Nat)) : State × Frames :=
  let inside := s.frameInside e
  ls.foldl (fun (a : State × Frames) q => match a.2 with
    | .ok done => a.1.writeFrame e x proc inside done q.1 q.2
    | _ => a) (s, .ok [])

/-- Fibres whose frames are written find their handlers' registers and masks; a disposition marked once is gone (R384, R387). -/
def State.prepare (s : State) (e : Entry) (x : Context) (frs : List (Nat × Nat × Nat)) : State :=
  let s := frs.foldl (fun (s : State) q =>
    s.setFibre (.strand e.rope e.sid) q.1 ((s.entryFibre e q.1).handled (x.disp q.2.1) q.2.1 q.2.2)) s
  frs.foldl (fun (s : State) q => match s.ctx? e.ctx with
    | some y => if (x.disp q.2.1).once then s.setCtx { y with disps := y.disps.set q.2.1 { x.disp q.2.1 with hpc := 0 } } else s
    | none => s) s

/-- A handled signal is delivered to the fibres of an entry (R387). -/
def State.deliverSig (s : State) (e : Entry) (sig : Nat) (x : Context) : State :=
  match (s.as (.call e.rope.core e.seq)).writeFrames e x e.isStop ((lanesOf e.fmask).map fun l => (l, sig)) with
  | (t, .again) => s.unspent t
  | (s, .bad _) => s.dumpCtx e.ctx sig (some (e.rope.core, e.seq))
  | (s, .ok frs) => ((s.prepare e x frs).replayEntry e (.hdr (.w 0)) (x.disp sig).hpc).1

/-- The handled signal that interrupts a fibre whose call has ended with INTR (R381). -/
def State.interrupts (s : State) (e : Entry) (x : Context) (l : Nat) (v : Word) : Option Nat :=
  match (s.entryFibre e l).sel with
  | some sig => if v = err 6 ∧ 2 ≤ (x.disp sig).hpc.toNat then some sig else none
  | none => none

/-- An entry whose fibres all have their results: each is written to w0, and the fibres resume at the following word; one whose call a
handled signal has interrupted begins its handler there, with a frame that resumes it at that word (R379, R381). -/
def State.finishCalls (s : State) (e : Entry) : State :=
  match s.rope? e.rope, s.ctx? e.ctx with
  | some r, some x =>
    let w : Who := .strand e.rope e.sid
    let res := (lanesOf e.fmask).filterMap fun l => (lookupBy Prod.fst (r.callKey e.sid l) x.answers).map fun a => (l, a.2)
    if res.length ≠ (lanesOf e.fmask).length then s
    else
      let hit := res.filterMap fun q => (s.interrupts e x q.1 q.2).map fun sig => (q.1, sig)
      let t := s.setCtx { x with answers := x.answers.filter (fun a => !(res.any fun q => decide (r.callKey e.sid q.1 = a.1))),
                                 pending := hit.foldl (fun m q => m &&& ~~~(1#16 <<< q.2)) x.pending }
      let t := res.foldl (fun (s : State) q =>
        let f := s.fibre w q.1
        s.setFibre w q.1 { f with win := f.win.set 0 q.2 }) t
      if hit = [] then (t.replayEntry e .res 0).1
      else
        match (t.as (.call e.rope.core e.seq)).writeFrames e x true hit with
        | (u, .again) => s.unspent u
        | (s, .bad sig) => s.dumpCtx e.ctx sig (some (e.rope.core, e.seq))
        | (s, .ok frs) =>
          (lanesOf e.fmask).foldl (fun (s : State) l => match hit.find? fun q => decide (q.1 = l) with
            | some (_, sig) => (s.setFibre w l { s.fibre w l with sel := none }).redirect e l (x.disp sig).hpc
            | none => s.resumeLane e l) ((s.prepare e x frs).freeEntry e)
  | _, _ => s

/-- A call's result is known. A caller that was killed meanwhile takes none. -/
def State.answerCall (s : State) (c : Call) (v : Word) : State :=
  match (s.core c.e.rope.core).rq.find? fun e => decide (e.seq = c.e.seq), s.ctx? c.e.ctx with
  | some e, some x => (s.setCtx { x with answers := upsert Prod.fst (c.r.callKey c.e.sid c.lane, v) x.answers }).finishCalls e
  | _, _ => s

/-- What serving a call comes to: its result, more to be done first, or nothing yet. -/
inductive Served where
  | res (v : Word)
  | more
  | no
  deriving DecidableEq, Repr

/-- A call served for one fibre of an entry. -/
def serve (core : Nat) (seq : Word) (byCores : Bool) (want : Fibre → Bool) (f : State → Call → Context → State × Served) (s : State) :
    Host.Outcome State Fault Refusal :=
  match s.callOf core seq byCores want with
  | none => s.noEvent
  | some (c, x) =>
    match f (s.as (.call core seq)) c x with
    | (s, .res v) => .next (s.answerCall c v)
    | (t, .more) => s.retried (s.unspent t)
    | (_, .no) => s.noEvent

/-- A fibre that calls a number. -/
def calls (n : Nat) (f : Fibre) : Bool := f.callNum == n

/-- Bytes of the caller's memory; a fault is BADARG (R379). -/
def State.callLoad (s : State) (c : Call) (va n : Nat) (k : State → List Byte → State × Served) : State × Served :=
  if 2 ^ 54 < va + n then (s, .res (err 2))
  else
    match s.vLoadN (clusterOf c.e.rope.core) c.e.ctx va n .load true with
    | (s, .ok b) => k s b
    | (s, .bad _) => (s, .res (err 2))
    | (s, .retry) => (s, .more)

/-- Bytes written to the caller's memory; a fault is BADARG (R379). -/
def State.callStore (s : State) (c : Call) (va : Nat) (b : List Byte) (k : State → State × Served) : State × Served :=
  if 2 ^ 54 < va + b.length then (s, .res (err 2))
  else
    match s.vStoreN (clusterOf c.e.rope.core) c.e.ctx va b .store true with
    | (s, .ok _) => k s
    | (s, .bad _) => (s, .res (err 2))
    | (s, .retry) => (s, .more)

/-! ### The process's own calls -/

/-- GETPID (R380). -/
def execGetpid (core : Nat) (seq : Word) (s : State) : Host.Outcome State Fault Refusal :=
  serve core seq false (calls 0) (fun s _ x => (s, .res x.pid)) s

/-- The bytes of a disposition record (R384). -/
def Disp.bytes (d : Disp) : List Byte :=
  leBytes 32 ((if d.once then 1 else 0) + d.spreg.toNat * 2 ^ 168 + d.hmask.toNat * 2 ^ 176 + d.hpc.toNat * 2 ^ 192)

/-- A record's bytes as a disposition; none where a rule of R384 is broken. -/
def dispOf (b : List Byte) : Option Disp :=
  let v := leNat b
  let h := bits v 192 64
  if (2 ≤ h ∧ (h % 4 ≠ 0 ∨ 2 ^ 54 ≤ h)) ∨ bit v 168 ∨ bits v 1 167 ≠ 0 then none
  else some { hpc := BitVec.ofNat 64 h, hmask := BitVec.ofNat 16 (bits v 176 16), spreg := BitVec.ofNat 8 (bits v 168 8), once := bit v 0 }

/-- SIGACTION (R384). -/
def execSigaction (core : Nat) (seq : Word) (s : State) : Host.Outcome State Fault Refusal :=
  serve core seq false (calls 1) (fun s c x =>
    let sig := s.arg c 0
    let new := s.arg64 c 2
    let old := s.arg64 c 4
    let install := fun (s : State) (d : Option Disp) =>
      let put := fun (s : State) => (match d, s.ctx? x.no with
        | some d, some x => s.setCtx { x with disps := (x.disps ++ List.replicate (16 - x.disps.length) Disp.dflt).set sig d }
        | _, _ => s, Served.res 0)
      if old = 0 then put s else s.callStore c old (x.disp sig).bytes put
    if sig = 0 ∨ 15 < sig ∨ sig = 12 ∨ sig = 13 then (s, .res (err 2))
    else if new = 0 then install s none
    else s.callLoad c new 32 fun s b => match dispOf b with
      | some d => install s (some d)
      | none => (s, .res (err 2))) s

/-- SIGMASK (R380, R385); an operation that the spec does not list is BADARG. -/
def execSigmask (core : Nat) (seq : Word) (s : State) : Host.Outcome State Fault Refusal :=
  serve core seq false (calls 2) (fun s c _ =>
    let f := s.caller c
    let m := BitVec.ofNat 16 (s.arg c 1) &&& 0xFFFE
    let put := fun (v : BitVec 16) => (s.setFibre (.strand c.e.rope c.e.sid) c.lane { f with smask := v }, Served.res (f.smask.setWidth 32))
    match s.arg c 0 with
    | 0 => put m
    | 1 => put (f.smask ||| m)
    | 2 => put (f.smask &&& ~~~m)
    | _ => (s, .res (err 2))) s

/-- KILL (R381, R382). -/
def execKill (core : Nat) (seq : Word) (s : State) : Host.Outcome State Fault Refusal :=
  serve core seq true (calls 3) (fun s c x =>
    let sig := s.arg c 1
    match s.ctxs.find? fun y => decide (y.pid.toNat = s.arg c 0) && !y.dead with
    | none => (s, .res (err 2))
    | some y =>
      if sig = 0 ∨ 15 < sig then (s, .res (err 2))
      else if y.kslot ≠ 0 ∧ y.kslot ≠ x.kslot then (s, .res (err 4))
      else (s.signalCtx y.no sig, .res 0)) s

/-- PAUSE: a signal has chosen the fibre, and the call ends INTR (R380, R385). -/
def execPause (core : Nat) (seq : Word) (s : State) : Host.Outcome State Fault Refusal :=
  serve core seq false (fun f => calls 11 f && f.sel.isSome) (fun s _ _ => (s, .res (err 6))) s

/-- LAUNCH (R460). -/
def execLaunch (core : Nat) (seq : Word) (s : State) : Host.Outcome State Fault Refusal :=
  serve core seq true (calls 12) (fun s c x =>
    let a := s.arg64 c 0
    if a % 128 ≠ 0 then (s, .res (err 2))
    else s.callLoad c a 128 fun s b => match s.ctx? x.no with
      | none => (s, .res (err 2))
      | some x => match s.accept x b s.chip with
        | (s, true) => (s, .res 0)
        | (s, false) => (s, .res (err 5))) s

/-- TIMER (R383). -/
def execTimerCall (core : Nat) (seq : Word) (s : State) : Host.Outcome State Fault Refusal :=
  serve core seq true (calls 13) (fun s c x =>
    let d := s.arg64 c 0
    (s.setCtx { x with timer := if d = 0 then none else some (s.gtime + d, s.arg64 c 2) }, .res 0)) s

/-! ### Files and sockets (R462, R463): the outcome is the agent's that the service cores forward to (log 12) -/

/-- The answer is no error code. -/
def good (v : Word) : Bool := !v.msb

/-- The process holds a handle, of a socket or a file. -/
def Context.has (x : Context) (h : Nat) (socket : Bool) : Bool := x.handles.any fun k => decide (k.no = h ∧ k.socket = socket)

/-- A new handle of the process. -/
def State.addHandle (s : State) (ctx : Nat) (v : Word) (socket : Bool) : State :=
  match s.ctx? ctx with
  | some x => if good v then s.setCtx { x with handles := x.handles.filter (fun h => decide (h.no ≠ v.toNat)) ++ [⟨v.toNat, socket⟩] } else s
  | none => s

/-- OPEN; the path is read as far as its first byte here, the rest is the agent's. -/
def execSysOpen (core : Nat) (seq : Word) (res : BitVec 32) (s : State) : Host.Outcome State Fault Refusal :=
  serve core seq true (calls 4) (fun s c x => s.callLoad c (s.arg64 c 0) 1 fun s _ => (s.addHandle x.no res false, .res res)) s

/-- Bytes that the agent delivers go into the buffer (R379, R462); the result counts them. -/
def State.deliverTo (s : State) (c : Call) (va len : Nat) (res : Word) (data : List Byte) : State × Served :=
  if !good res then (s, .res res)
  else if data.length ≠ res.toNat ∨ len < data.length then (s, .no)
  else s.callStore c va data fun s => (s, .res res)

/-- Bytes of a buffer go to the agent; the result counts them. -/
def State.takeFrom (s : State) (c : Call) (h va len : Nat) (res : Word) : State × Served :=
  if !good res then (s, .res res)
  else if len < res.toNat then (s, .no)
  else s.callLoad c va len fun s b => (s.send (.wrote c.e.ctx h (b.take res.toNat)), .res res)

/-- READ. A handle that is not the process's gives BADARG. -/
def execSysRead (core : Nat) (seq : Word) (res : BitVec 32) (data : List Byte) (s : State) : Host.Outcome State Fault Refusal :=
  serve core seq true (calls 5) (fun s c x =>
    if !x.has (s.arg c 0) false then (s, .res (err 2)) else s.deliverTo c (s.arg64 c 2) (s.arg c 4) res data) s

/-- WRITE. -/
def execSysWrite (core : Nat) (seq : Word) (res : BitVec 32) (s : State) : Host.Outcome State Fault Refusal :=
  serve core seq true (calls 6) (fun s c x =>
    if !x.has (s.arg c 0) false then (s, .res (err 2)) else s.takeFrom c (s.arg c 0) (s.arg64 c 2) (s.arg c 4) res) s

/-- CLOSE. -/
def execSysClose (core : Nat) (seq : Word) (res : BitVec 32) (s : State) : Host.Outcome State Fault Refusal :=
  serve core seq true (calls 7) (fun s c x =>
    let h := s.arg c 0
    if !x.handles.any (fun k => decide (k.no = h)) then (s, .res (err 2))
    else (if good res then s.setCtx { x with handles := x.handles.filter fun k => decide (k.no ≠ h) } else s, .res res)) s

/-- A SOCKET operation's argument block (R463). -/
structure SockArg where
  va   : Nat
  len  : Nat
  h    : Nat
  lend : Bool
  deriving DecidableEq, Repr

/-- A socket operation served: its block is read, and its handle checked where it names one. -/
def sock (op : Nat) (handle : Bool) (core : Nat) (seq : Word) (f : State → Call → Context → SockArg → State × Served) (s : State) :
    Host.Outcome State Fault Refusal :=
  serve core seq true (fun fb => calls 8 fb && (fb.win.getD 0 0).toNat == op) (fun s c x =>
    s.callLoad c (s.arg64 c 2) 32 fun s b =>
      let a : SockArg := ⟨fieldAt b 0 8, fieldAt b 8 4, fieldAt b 12 4, fieldAt b 16 4 % 2 == 1⟩
      if handle && !x.has a.h true then (s, .res (err 2)) else f s c x a) s

/-- SOCKET CREATE. -/
def execSockCreate (core : Nat) (seq : Word) (res : BitVec 32) (s : State) : Host.Outcome State Fault Refusal :=
  sock 0 false core seq (fun s _ x _ => (s.addHandle x.no res true, .res res)) s

/-- An operation on an address record, which must be readable. -/
def State.withAddr (s : State) (c : Call) (a : SockArg) (res : Word) : State × Served := s.callLoad c a.va 32 fun s _ => (s, .res res)

/-- SOCKET BIND. -/
def execSockBind (core : Nat) (seq : Word) (res : BitVec 32) (s : State) : Host.Outcome State Fault Refusal :=
  sock 1 true core seq (fun s c _ a => s.withAddr c a res) s

/-- SOCKET CONNECT. -/
def execSockConnect (core : Nat) (seq : Word) (res : BitVec 32) (s : State) : Host.Outcome State Fault Refusal :=
  sock 2 true core seq (fun s c _ a => s.withAddr c a res) s

/-- SOCKET LISTEN. -/
def execSockListen (core : Nat) (seq : Word) (res : BitVec 32) (s : State) : Host.Outcome State Fault Refusal :=
  sock 3 true core seq (fun s _ _ _ => (s, .res res)) s

/-- SOCKET ACCEPT. -/
def execSockAccept (core : Nat) (seq : Word) (res : BitVec 32) (s : State) : Host.Outcome State Fault Refusal :=
  sock 4 true core seq (fun s _ x _ => (s.addHandle x.no res true, .res res)) s

/-- SOCKET RECV. -/
def execSockRecv (core : Nat) (seq : Word) (res : BitVec 32) (data : List Byte) (s : State) : Host.Outcome State Fault Refusal :=
  sock 6 true core seq (fun s c _ a => s.deliverTo c a.va a.len res data) s

/-- SOCKET SHUTDOWN. -/
def execSockShutdown (core : Nat) (seq : Word) (res : BitVec 32) (s : State) : Host.Outcome State Fault Refusal :=
  sock 7 true core seq (fun s _ _ _ => (s, .res res)) s

/-- What setting N in leaves comes to. -/
inductive Lend where
  | ok
  | bad
  | again
  deriving DecidableEq, Repr

/-- N set or cleared in the leaves of pages (R464). -/
def State.markLent (s : State) (ctx : Nat) (pages : List Nat) (on : Bool) : State × Lend :=
  pages.foldl (fun (a : State × Lend) p =>
    if a.2 ≠ .ok then a
    else
      match a.1.leafAt ctx p with
      | none => (a.1, .bad)
      | some (at_, _, e) =>
        if !pteBit e 0 then (a.1, .bad)
        else if pteBit e 7 = on then a
        else match a.1.ptePut at_ (if on then e ||| 0x80#128 else e &&& ~~~0x80#128) with
          | some s => (s, .ok)
          | none => (a.1, .again)) (s, .ok)

/-- A LEND send takes its pages: N on every leaf, then PTINV.perm (R464). Where a page is not present, it takes none. -/
def State.lend (s : State) (ctx page n : Nat) : State × Served :=
  let pages := (List.range n).map (page + ·)
  if pages.any fun p => ((s.leafAt ctx p).map fun q => !pteBit q.2.2 0).getD true then (s, .res (err 2))
  else
  match s.markLent ctx pages true with
  | (s, .bad) => (s, .res (err 2))
  | (s, .again) => (s, .more)
  | (s, .ok) =>
    match s.ptinv ⟨some ctx, page, n⟩ false, s.ctx? ctx with
    | (s, true), some _ => (match s.ctx? ctx with
        | some x => s.setCtx { x with lent := x.lent ++ [(page, n, false)] }
        | none => s, .more)
    | (s, _), _ => (s, .more)

/-- Pages of a lent stretch that no other SEND under way holds. -/
def Context.lentAlone (x : Context) (page n : Nat) : List Nat :=
  ((List.range n).map (page + ·)).filter fun p => !x.lent.any fun q => decide ((q.1, q.2.1) ≠ (page, n) ∧ q.1 ≤ p ∧ p < q.1 + q.2.1)

/-- The stretch of a LEND send under way, with whether its payload has left. -/
def Context.lentFor (x : Context) (page n : Nat) : Option Bool := (x.lent.find? fun q => decide (q.1 = page ∧ q.2.1 = n)).map fun q => q.2.2

/-- The stretch taken out, or left in with its payload gone. -/
def State.setLent (s : State) (ctx page n : Nat) (gone : Option Bool) : State :=
  match s.ctx? ctx with
  | some x => s.setCtx { x with lent := (x.lent.filter fun q => decide ((q.1, q.2.1) ≠ (page, n))) ++ (gone.map fun b => (page, n, b)).toList }
  | none => s

/-- A LEND send gives its pages back after its last byte (R464): the payload leaves while N is still set. -/
def State.unlend (s : State) (c : Call) (a : SockArg) (page n : Nat) (v : Word) (gone : Bool) : State × Served :=
  let finish := fun (s : State) =>
    match s.markLent c.e.ctx (((s.ctx? c.e.ctx).map fun x => x.lentAlone page n).getD []) false with
    | (s, .again) => (s, Served.more)
    | (s, _) =>
      match s.ptinv ⟨some c.e.ctx, page, n⟩ false with
      | (s, false) => (s, .more)
      | (s, true) => (s.setLent c.e.ctx page n none, .res v)
  if !gone && good v then
    match s.vLoadN (clusterOf c.e.rope.core) c.e.ctx a.va a.len .load true with
    | (s, .retry) => (s, .more)
    | (s, .bad _) => finish s
    | (s, .ok b) => finish ((s.send (.wrote c.e.ctx a.h (b.take v.toNat))).setLent c.e.ctx page n (some true))
  else finish s

/-- SOCKET SEND; with LEND, `done` none lends the pages and starts the transmission (R463, R464). -/
def execSockSend (core : Nat) (seq : Word) (done : Option (BitVec 32)) (s : State) : Host.Outcome State Fault Refusal :=
  sock 5 true core seq (fun s c x a =>
    if !a.lend then
      match done with
      | some v => s.takeFrom c a.h a.va a.len v
      | none => (s, .no)
    else if a.va % 65536 ≠ 0 ∨ a.len % 65536 ≠ 0 ∨ 2 ^ 54 < a.va + a.len then (s, .res (err 2))
    else
      let page := a.va / 65536
      let n := a.len / 65536
      match x.lentFor page n, done with
      | none, none => s.lend c.e.ctx page n
      | some gone, some v => if good v ∧ a.len < v.toNat then (s, .no) else s.unlend c a page n v gone
      | _, _ => (s, .no)) s

/-! ### Scratchpad windows (R219 to R222) -/

/-- Where a page's bytes lie in this device for SPMAP: present, writable, at peer 0, and no alias (log 64). -/
def State.ownPage (s : State) (cluster ctx page : Nat) : State × Served :=
  match s.translate cluster ctx (page * 65536) .store true with
  | (s, .retry) => (s, .more)
  | (s, .bad _) => (s, .res (err 2))
  | (s, .ok x) => match x.loc with
    | .hbm _ => if x.cctx = ctx ∧ x.cva / 65536 = page then (s, .res 0) else (s, .res (err 2))
    | _ => (s, .res (err 2))

/-- Two stretches of KiB meet. -/
def overlap (a n b m : Nat) : Bool := decide (a < b + m ∧ b < a + n)

/-- SPMAP (R219, R220): the window is registered once no cache holds a line of it any more. It meets no other window of any context, at its
addresses or in the scratchpad (log 64). -/
def execSpmap (core : Nat) (seq : Word) (s : State) : Host.Outcome State Fault Refusal :=
  serve core seq false (calls 9) (fun s c x =>
    let off := s.arg c 0
    let len := s.arg c 1
    let va := s.arg64 c 2
    let cl := clusterOf core
    let p0 := va / 65536
    let n := (va + len * 1024 - 1) / 65536 + 1 - p0
    let free := (List.range 16).find? fun i => !s.windows.any fun w => decide (w.cluster = cl ∧ w.idx = i)
    if len = 0 ∨ 704 < len ∨ va % 1024 ≠ 0 ∨ 2 ^ 54 < va + len * 1024 ∨ c.r.spadA < (off + len) * 1024 ∨
        (s.windows.any fun w => overlap w.vbase w.klen (va / 1024) len ||
          (decide (w.rope = c.r.id) && overlap w.koff w.klen (c.r.sramOff / 1024 + off) len)) then (s, .res (err 2))
    else if s.watches.any fun y => y.valid && decide (y.ctx = x.no ∧ y.base < p0 + n ∧ p0 ≤ y.limit) then (s, .res (err 4))
    else
      match free with
      | none => (s, .res (err 3))
      | some i =>
        match (List.range n).foldl (fun (a : State × Served) k => if a.2 = .res 0 then a.1.ownPage cl x.no (p0 + k) else a) (s, .res 0) with
        | (s, .res 0) =>
          let r : PageRange := ⟨some x.no, p0, n⟩
          let s := s.flushLines r
          if s.flushed r && s.quietRange r then
            ({ s with windows := s.windows ++ [{ cluster := cl, idx := i, wb := s.arg c 4 % 2 == 1, vbase := va / 1024, ctx := x.no, klen := len,
                                                 koff := c.r.sramOff / 1024 + off, core := core % 8, rope := c.r.id, dirty := [], closed := false }],
                      roCopies := s.roCopies.filter fun y => !r.line y.line }, .res 0)
          else (s, .more)
        | (s, v) => (s, v)) s

/-- SPUNMAP: the window that begins at the address, of the caller's context (R222). -/
def execSpunmap (core : Nat) (seq : Word) (s : State) : Host.Outcome State Fault Refusal :=
  serve core seq false (calls 10) (fun s c x =>
    match s.windows.find? fun w => decide (w.ctx = x.no ∧ w.vbase * 1024 = s.arg64 c 2) with
    | none => (s, .res (err 2))
    | some w =>
      match s.unmapAll [w] with
      | (s, true) => (s, .res 0)
      | (s, false) => (s, .more)) s

end Sys2Proof.Machine
end

