-- ==== Sys2Proof/Machine/Attend.lean ====
section
/-! DEFINITION. What the firmware's supervisor strand does where no supervisor code stands for it (log 10): entries are resolved or
delivered as signals, and processes are terminated with or without a core dump (R308, R376, R377, R382, R386, R387, R400). -/

namespace Sys2Proof.Machine

/-- The signal that the code of a SHAPE fault gives (R304, R332). -/
def shapeSig (code : Nat) (fva : DWord) : Nat :=
  match code with
  | 3 => 3
  | 4 => if fva.toNat < 2 ^ 54 then 5 else 2
  | 5 => 5
  | _ => 4

/-- The default signal of a fault (R210, R362). -/
def signalOf (e : Entry) : Nat :=
  match e.cls with
  | .arith => 1
  | .xlate | .engpark => if e.info.toNat % 256 = 6 then 15 else 2
  | .range => 2
  | .align => 3
  | .bound => 5
  | .shape => shapeSig (e.info.toNat % 256) e.fva
  | .halo => 8
  | .illegal | .brk | .trap | .syscall => 4

/-- Default actions of signals that come to a process (R382). -/
inductive Deflt where
  | dump
  | kill
  | nothing
  deriving DecidableEq, Repr

/-- The default of a signal that stopped a fibre (R382). -/
def defaultOf (sig : Nat) : Deflt :=
  match sig with
  | 9 | 10 | 14 => .nothing
  | 11 | 12 => .kill
  | _ => .dump

/-- An entry that cannot be resolved is delivered as its signal: to the handler, or with the default of R382. -/
def State.signalEntry (s : State) (e : Entry) (x : Context) : State :=
  let sig := if e.isStop then e.info.toNat % 256 else signalOf e
  let h := (x.disp sig).hpc.toNat
  let masked := (lanesOf e.fmask).any fun l => (s.entryFibre e l).smask.getLsbD sig
  if 2 ≤ h ∧ (e.isStop ∨ !masked) then s.deliverSig e sig x
  else
    match (if !e.isStop then .dump else if h = 1 then .nothing else defaultOf sig : Deflt) with
    | .nothing => (s.replayEntry e .res 0).1
    | .kill => s.killCtx e.ctx
    | .dump => s.dumpCtx e.ctx sig (some (e.rope.core, e.seq))

/-- Calls that no event serves: numbers that are not assigned, socket operations that do not exist, and calls forwarded to the service
cores that a handled signal ends (R380, R381, R463). -/
def State.callError (s : State) (e : Entry) (x : Context) (l : Nat) : Option Word :=
  let f := s.entryFibre e l
  let n := f.callNum
  if 13 < n ∨ (n = 8 ∧ 7 < (f.win.getD 0 0).toNat) then some (err 1)
  else
    match f.sel with
    | some sig => if f.forwarded ∧ 2 ≤ (x.disp sig).hpc.toNat then some (err 6) else none
    | none => none

/-- A SYSCALL entry: its unserved fibres with an error of their own are answered (R381). -/
def State.attendCall (s : State) (e : Entry) (x : Context) : State :=
  match s.rope? e.rope with
  | none => s
  | some r =>
    let s := s.finishCalls e
    if !((s.core e.rope.core).rq.contains e) then s
    else
    (lanesOf e.fmask).foldl (fun (s : State) l =>
      if (lookupBy Prod.fst (r.callKey e.sid l) x.answers).isSome then s
      else match s.callError e x l with
        | some v => s.answerCall ⟨e, r, l⟩ v
        | none => s) s

/-- A page is on its way to a local frame (R477): its bytes are being read, or its translation is being given up. -/
def State.migrating (s : State) (ctx page : Nat) : Bool :=
  s.fab.open_.any (fun t => match t.what with
    | .page c v _ => decide (c = ctx) && (v == page || (decide (v / 4096 = page / 4096) && (((s.leafAt ctx page).map fun q => q.2.1).getD false)))
    | _ => false) ||
  (s.migreq.any fun m => decide (m = (ctx, page))) && (((s.leafAt ctx page).map fun q => !pteBit q.2.2 0 && ptePeer q.2.2 != 0).getD false)

/-- A page has a leaf with P = 1 (R208). -/
def State.present (s : State) (ctx page : Nat) : Bool := ((s.leafAt ctx page).map fun q => pteBit q.2.2 0).getD false

/-- One entry is attended to (R377). A page that is not present is brought in, or it is not: a choice. -/
def State.attend (s : State) (e : Entry) : State :=
  match s.ctx? e.ctx with
  | none => s
  | some x =>
    if x.dying.isSome then s
    else
      match e.cls with
      | .syscall => s.attendCall e x
      | .brk => if s.debugger then s else s.signalEntry e x
      | .xlate =>
        if e.info.toNat % 256 = 1 then
          if s.migrating e.ctx (e.fva.toNat / 65536) then s
          else
          let p := if s.present e.ctx (e.fva.toNat / 65536) then (1, s) else s.pick
          if p.1 ≠ 0 then (p.2.replayEntry e .res 0).1 else p.2.signalEntry e x
        else s.signalEntry e x
      | .engpark =>
        if e.info.toNat % 256 = 1 ∧ s.migrating e.ctx (e.fva.toNat / 65536) then s
        else
        let p := if e.info.toNat % 256 ≠ 1 then (0, s) else if s.present e.ctx (e.fva.toNat / 65536) then (1, s) else s.pick
        if p.1 ≠ 0 then (p.2.replayEntry e .res 0).1
        else ((p.2.replayEntry e .kill 0).1).postSig e.ctx (signalOf e) e.fva e.info
      | _ => s.signalEntry e x

/-- The queue of every core without supervisor code is attended to. -/
def State.attendAll (s : State) : State :=
  if s.boot ≠ .ready then s
  else (s.cores.filter fun c => c.sv.cur.isNone && !c.stopped).foldl (fun (s : State) c =>
    (s.core c.no).rq.foldl (fun (s : State) e => if (s.core c.no).rq.contains e then s.attend e else s) s) s

/-- A core dump (R400): the areas of the context's resident coils, the causing one first. A page that cannot be written loses its bytes. False:
an access has to be repeated. -/
def State.coreDump (s : State) (x : Context) (sig : Nat) (cause : Option (Nat × Word)) : State × Bool :=
  let e := cause.bind fun q => (s.core q.1).rq.find? fun e => decide (e.seq = q.2)
  let home := e.bind fun e => s.rope? e.rope
  let ks := match home with
    | some r => s.coilsFrom x.no r.key
    | none => sortBy CoilKey.coil (s.coils x.no)
  let put := fun (a : (State × Bool) × Nat) (k : CoilKey) =>
    let mine := (home.map fun r => decide (r.key = k)).getD false
    let cut : Cut := ⟨true, if mine then e.map Entry.seq else none, if mine then e.map Entry.bytes else none⟩
    let xs := a.1.1.coilSections k cut ((home.map Rope.ridx).getD 0)
    let b := a.1.1.headerFor k xs 1 sig ++ xs.flatMap Sect.bytes
    let r := (lineParts (b.length / 128 + 2) a.2 b.length).foldl (fun (r : State × Bool) q =>
      match r.1.vStore 0 x.no q.1 ((b.drop (q.1 - a.2)).take q.2) .store false with
      | (s, .retry) => (s, false)
      | (s, _) => (s, r.2)) a.1
    (r, roundUp 4096 (a.2 + b.length))
  (ks.foldl put ((s, true), x.dumpva)).1

/-- Processes being terminated whose coils have quiesced are dumped and killed (R382, R400). -/
def State.finishDying (s : State) : State :=
  (s.ctxs.filter fun x => x.dying.isSome).foldl (fun (s : State) x =>
    match x.dying with
    | some (sig, cause) =>
      if (s.coils x.no).all s.quietCoil then
        match (if x.dumpva = 0 then (s, true) else (s.as (.ctx x.no)).coreDump x sig cause) with
        | (t, true) => t.killCtx x.no
        | (t, false) => s.unspent t
      else s
    | none => s) s

end Sys2Proof.Machine
end

