-- ==== Sys2Proof/Machine/Manage.lean ====
section
/-! DEFINITION. Management commands (R199, R218, R226, R245 to R247, R312, R401, R406, R409, R428, R433, R434, R436, R456, R457). -/

namespace Sys2Proof.Machine

/-! ### The service cores' own accesses to local memory -/

/-- Bytes of local memory as the service cores read them: at a canonical line's home where the frame has an inbound entry (R218). None:
Retry. -/
def State.svcRead (s : State) (pa n : Nat) : Option (State × List Byte) :=
  (lineParts (n / 128 + 2) pa n).foldl (fun (a : Option (State × List Byte)) q =>
    a.bind fun r =>
      match r.1.inb? (q.1 / 65536) with
      | some e => ((r.1.inHome e q.1).homeRead (e.lineOf q.1) .home).map fun p => (p.1, r.2 ++ (p.2.drop (q.1 % 128)).take q.2)
      | none => some (r.1, r.2 ++ r.1.rawRead q.1 q.2)) (some (s, []))

/-- What the service cores' access to local memory leaves in Retry: refusals noted, holders beyond the device asked (R237, R259). -/
def State.svcAsk (s : State) (pa n : Nat) : State :=
  (lineParts (n / 128 + 2) pa n).foldl (fun (s : State) q => match s.inb? (q.1 / 65536) with
    | some e => (s.inHome e q.1).nudge (e.lineOf q.1)
    | none => s) s

/-- Bytes of local memory written by the service cores. None: Retry. -/
def State.svcWrite (s : State) (pa : Nat) (b : List Byte) : Option State :=
  (lineParts (b.length / 128 + 2) pa b.length).foldl (fun (a : Option State) q =>
    a.bind fun s =>
      let d := (b.drop (q.1 - pa)).take q.2
      match s.inb? (q.1 / 65536) with
      | some e => ((s.inHome e q.1).homeWrite (e.lineOf q.1) .home (q.1 % 128) d).map Prod.fst
      | none => some (s.rawWrite q.1 d)) (some s)

/-- A stretch of local memory exists (R201). -/
def localOk (pa n : Nat) : Bool := decide (pa + n ≤ 0x18000000000)

/-! ### Results (R457) -/

/-- A command's result, written to host memory with a system-scope release. -/
def State.result (s : State) (res status value : Nat) : State :=
  { s with host := cellsWrite s.host (res % 2 ^ 52) (leBytes 16 (status % 2 ^ 32 + value % 2 ^ 64 * 2 ^ 64)) }.send (.result res status value)

/-- An input, or the command at the head of the queue, met something not ready for it: it comes again, with what it has brought about
standing. Where that is nothing, it has not come about (log 4). -/
def State.later (s t : State) : Host.Outcome State Fault Refusal :=
  let t := t.as s.agent
  if t = s then s.noEvent else .next { t with again := true }

/-- The steps that a management command stands for once it has been written (R457). -/
def isCommand : Instr → Bool
  | .ctxcreate .. | .ctxctlResident .. | .ctxctlPreemptCoil .. | .ctxctlPreemptAll .. | .ctxctlKill .. | .ctxctlReload .. | .ctxend ..
  | .chipgrp .. | .tabload .. | .watch .. | .inbound .. | .logread .. | .fabcfg .. => true
  | _ => false

/-- A command is written to the management aperture: Successful (0) and queued, Retry (1) where 64 are queued, Unsupported Request (2)
before READY (R454, R457). -/
def State.writeCommand (s : State) (i : Instr) : State :=
  if s.boot ≠ .ready then s.send (.command 2)
  else if 64 ≤ s.cmdq.length then s.send (.command 1)
  else { s with cmdq := s.cmdq ++ [i] }.send (.command 0)

/-- A command runs once the device is READY and every earlier one has finished (R454, R457); one that has neither ended nor started
anything that ends later is tried again. -/
def command (res : ResAddr) (f : State → State × Option (Nat × Nat)) (s : State) : Host.Outcome State Fault Refusal :=
  if s.boot ≠ .ready ∨ s.cmds ≠ [] then s.noEvent
  else
    match f s with
    | (s, some (st, v)) => .next (s.result res.toNat st v)
    | (t, none) => if t.cmds.length = s.cmds.length then s.later t else .next t

/-! ### Context descriptors (R456) -/

/-- A descriptor keeps its reserved bits and values and the alignment of its addresses, and its level-1 table stands in local memory
(R201, R207, R456). -/
def descOk (v : Nat) : Bool :=
  decide (bits v 0 64 % 0x20000 = 0) && localOk (bits v 0 64) 0x20000 &&
  decide (bits v 64 64 % 1024 = 0 ∧ bits v 288 64 % 256 = 0 ∧ bits v 416 64 % 256 = 0 ∧ bits v 832 64 % 4096 = 0 ∧ bits v 896 64 % 4096 = 0) &&
  bits v 960 1088 == 0 && bits v 496 16 == 0 && bits v 220 4 == 0 && bits v 196 4 == 0 && decide (bits v 192 4 ≤ 12 ∧ bits v 480 16 ≤ 2047)

/-- The fields of a descriptor in a context, which keeps what is not in it. -/
def Context.describe (c : Context) (v : Nat) : Context :=
  { c with root := bits v 0 64, rmap := bits v 64 64, ring := bits v 128 64, ringn := bits v 192 4, kslot := bits v 200 8,
           lquota := bits v 224 32, pid := BitVec.ofNat 32 (bits v 256 32), budgetA := bits v 288 64, rcpt := bits v 352 64,
           compl := bits v 416 64, msix := bits v 480 16, nonce := BitVec.ofNat 256 (bits v 512 256), dumpva := bits v 768 64,
           savebase := bits v 832 64, savelen := bits v 896 64 }

/-- A context before its descriptor is read: sequence numbers start at 1 (R459), nothing is pending. -/
def Context.blank (no desc : Nat) : Context :=
  { no := no, desc := desc, root := 0, rmap := 0, ring := 0, ringn := 0, kslot := 0, lquota := 0, pid := 0, budgetA := 0, rcpt := 0, compl := 0,
    msix := 0, nonce := 0, dumpva := 0, savebase := 0, savelen := 0, resident := false, dead := false, leaving := false, ranges := [],
    budgets := [], queue := [], nextSeq := 1, pending := 0, disps := [], timer := none, stopped := false, locks := 0, saved := [],
    grids := [], handles := [], lent := [], sinfo := [], answers := [], dying := none, next := none, ringNew := true, scrubAt := none }

/-- CTXCREATE (R312, R456, R457): a number in use gives BUSY. -/
def execCtxcreate (res : ResAddr) (desc : Nat) (s : State) : Host.Outcome State Fault Refusal :=
  command res (fun s =>
    if desc % 256 ≠ 0 ∨ !localOk desc 256 then (s, some (2, 0))
    else
      match s.svcRead desc 256 with
      | none => (s.svcAsk desc 256, none)
      | some (s, b) =>
        let v := leNat b
        let no := bits v 208 12
        if !descOk v then (s, some (2, 0))
        else if (s.ctx? no).isSome then (s, some (1, 0))
        else
          let c := (Context.blank no desc).describe v
          ((s.setCtx c).zeroRing no, some (0, 0))) s

/-! ### Range maps and budgets (R195, R245, R247) -/

/-- One range-map entry; none where it breaks a rule of R247. -/
def State.rangeOk (s : State) (v : Nat) : Option Range :=
  let r : Range := { base := bits v 22 38, limit := bits v 60 38, lease := bits v 6 16, slot := bits v 2 4, pe := bit v 1, valid := bit v 0 }
  if !r.valid then some r
  else if r.limit < r.base ∨ (6 ≤ r.slot ∧ (lookupBy Prod.fst r.slot s.tables).isNone) ∨ ((s.table r.slot).lz = 1 ∧ r.lease = 0) ∨
      (r.pe ∧ r.slot ≠ 0) ∨ bits v 98 30 ≠ 0 then none
  else some r

/-- A context's range map as memory holds it. None: Retry; some none: the map is rejected (R247). An address of 0 gives no entries. -/
def State.readRanges (s : State) (rmap : Nat) : Option (State × Option (List Range)) :=
  if rmap = 0 then some (s, some [])
  else if rmap % 1024 ≠ 0 ∨ !localOk rmap 1024 then some (s, none)
  else (s.svcRead rmap 1024).map fun p => (p.1, (List.range 64).foldr (fun i (acc : Option (List Range)) =>
    acc.bind fun l => (p.1.rangeOk (fieldAt p.2 (16 * i) 16)).map fun r => r :: l) (some []))

/-- The 16 budget classes of a context (R456). None: Retry. -/
def State.readBudgets (s : State) (a : Nat) (old : List Budget) : Option (State × List Budget) :=
  if a % 256 ≠ 0 ∨ !localOk a 256 then some (s, [])
  else (s.svcRead a 256).map fun p => (p.1, (List.range 16).map fun i =>
    let was := old.getD i ⟨0, 0, 0, 0, 0⟩
    { cores := fieldAt p.2 (16 * i) 2, hbm := fieldAt p.2 (16 * i + 4) 4, power := fieldAt p.2 (16 * i + 8) 4, hbmC := was.hbmC, powC := was.powC })

/-- A range map takes effect: where it changes the protocol of lines, their copies are written back and dropped first, while accesses to them
are refused, and the lines start again in their new tables (R247). False: copies are still on their way. -/
def State.setRanges (s : State) (c : Context) (rs : List Range) : State × Bool :=
  let s := s.setCtx { c with next := some rs }
  let moved := s.homes.filter fun h => decide (h.line.ctx = c.no) && h.isLocal && s.switching h.line
  let pages : List PageRange := ((moved.map fun h => h.line.line / 512).eraseDups).map fun p => ⟨some c.no, p, 1⟩
  let s := pages.foldl State.flushLines s
  if pages.all s.flushed then
    let s := (s.homes.filter fun h => pages.any fun r => r.line h.line).foldl State.retireLine s
    match s.ctx? c.no with
    | some c => (s.setCtx { c with ranges := rs, next := none }, true)
    | none => (s, true)
  else (s, false)

/-- The descriptor of a context read again: range map and budgets loaded, ring counts started where the ring is another (R247, R312,
R457). `all`: every field takes effect; else only the range map, budgets, ring and save region. The number: 0 done, 2 BADARG; none: more
to be done. -/
def State.reload (s : State) (c : Context) (all : Bool) : State × Option Nat :=
  match s.svcRead c.desc 256 with
  | none => (s.svcAsk c.desc 256, none)
  | some (s, b) =>
    let v := leNat b
    if !descOk v then (s, some 2)
    else
      let d := c.describe v
      match s.readRanges d.rmap with
      | none => (s.svcAsk d.rmap 1024, none)
      | some (s, rs) =>
        match s.readBudgets d.budgetA c.budgets with
        | none => (s.svcAsk d.budgetA 256, none)
        | some (s, bs) =>
          match (match rs with
            | some rs => s.setRanges c rs
            | none => (s, true)) with
          | (s, false) => (s, none)
          | (s, true) =>
            let c := (s.ctx? c.no).getD c
            let e := if all then { d with ranges := c.ranges } else
              { c with rmap := if rs.isSome then d.rmap else c.rmap, budgetA := d.budgetA, ring := d.ring, ringn := d.ringn, savebase := d.savebase, savelen := d.savelen }
            ((s.setCtx { e with budgets := bs, ringNew := c.ringNew || decide (d.ring ≠ c.ring) }).zeroRing c.no, some (if rs.isSome then 0 else 2))

/-! ### CTXCTL and CTXEND (R393, R406, R409, R428, R457) -/

/-- The key slot that a context names is fit for its residency (R428). -/
def State.slotFits (s : State) (c : Context) : Bool :=
  c.kslot == 0 || (match lookupBy KeySlot.no c.kslot s.keys with
    | some k => decide (k.st = .loaded ∧ k.nonce = c.nonce)
    | none => false)

/-- CTXCTL op 0 (R226, R406, R428): the value is the number of coils that will be restored. A refused residency gives BADARG. -/
def execCtxctlResident (res : ResAddr) (ctx : Nat) (s : State) : Host.Outcome State Fault Refusal :=
  command res (fun s =>
    match s.ctx? ctx with
    | none => (s, some (3, 0))
    | some c =>
      if c.resident then (s, some (if c.leaving then 1 else 0, c.saved.length))
      else if c.dead then (s, some (2, 0))
      else if 256 ≤ (s.ctxs.filter Context.resident).length then (s, some (1, 0))
      else
        match s.reload c true with
        | (s, none) => (s, none)
        | (s, some st) =>
          let c := (s.ctx? ctx).getD c
          if st ≠ 0 ∨ !s.slotFits c then (s, some (2, 0))
          else
            let s := s.setCtx { c with resident := true, leaving := false, saved := c.saved.map fun (x : Saved) => { x with bad := false } }
            let s := { s with keys := s.keys.map fun (k : KeySlot) => if c.kslot ≠ 0 ∧ k.no = c.kslot then { k with st := .bound } else k }
            (s, some (0, c.saved.length))) s

/-- Coils of a context that a request names. -/
def State.named (s : State) (ctx : Nat) (coil : Option Nat) : List CoilKey :=
  (s.coils ctx).filter fun k => match coil with
    | some c => decide (k.coil = c)
    | none => true

/-- A command starts that ends later. -/
def State.start (s : State) (kind : CmdKind) (ctx : Nat) (res : ResAddr) (n : Nat) : State × Option (Nat × Nat) :=
  ({ s with cmds := s.cmds ++ [⟨kind, ctx, res.toNat, n⟩] }, none)

/-- CTXCTL op 1 (R393, R457). -/
def execCtxctlPreemptCoil (res : ResAddr) (ctx coil : Nat) (s : State) : Host.Outcome State Fault Refusal :=
  command res (fun s =>
    if (s.ctx? ctx).isNone then (s, some (3, 0))
    else
      let ks := s.named ctx (some coil)
      (ks.foldl (fun (s : State) k => s.stopCoil k true) s).start (.preempt (some coil)) ctx res ks.length) s

/-- CTXCTL op 2 (R393, R406, R409). -/
def execCtxctlPreemptAll (res : ResAddr) (ctx : Nat) (s : State) : Host.Outcome State Fault Refusal :=
  command res (fun s =>
    if (s.ctx? ctx).isNone then (s, some (3, 0))
    else
      let ks := s.coils ctx
      (ks.foldl (fun (s : State) k => s.stopCoil k true) s).start (.preempt none) ctx res ks.length) s

/-- CTXCTL op 3 (R425, R457). -/
def execCtxctlKill (res : ResAddr) (ctx : Nat) (s : State) : Host.Outcome State Fault Refusal :=
  command res (fun s =>
    if (s.ctx? ctx).isNone then (s, some (3, 0)) else (s.killCtx ctx).start .kill ctx res (s.coils ctx).length) s

/-- CTXCTL op 4 (R247, R312, R401, R457). -/
def execCtxctlReload (res : ResAddr) (ctx : Nat) (s : State) : Host.Outcome State Fault Refusal :=
  command res (fun s =>
    match s.ctx? ctx with
    | none => (s, some (3, 0))
    | some c => match s.reload c false with
      | (s, some st) => (s, some (st, 0))
      | (s, none) => (s, none)) s

/-- CTXEND (R430, R457): what the context still has is killed first; the scrub follows. -/
def execCtxend (res : ResAddr) (ctx : Nat) (s : State) : Host.Outcome State Fault Refusal :=
  command res (fun s =>
    match s.ctx? ctx with
    | none => (s, some (3, 0))
    | some _ => (s.killCtx ctx).start .end_ ctx res 0) s

/-- Coils that a pre-emption of a context has yet to save. -/
def State.unsaved (s : State) (ctx : Nat) (coil : Option Nat) : List CoilKey :=
  (s.named ctx coil).filter fun k => ((s.stop? k).map fun x => x.save && !x.full).getD false

/-- The command that is under way ends when what it waits for has come about (R401, R406, R457). CTXEND waits for its scrub. -/
def State.finishCmd (s : State) : State :=
  match s.cmds with
  | [] => s
  | m :: more =>
    let done := fun (s : State) (st v : Nat) => { s with cmds := more }.result m.res st v
    match m.kind with
    | .end_ => s
    | .kill => if s.coils m.ctx = [] ∧ !((s.ctx? m.ctx).map Context.resident).getD false then done s 0 m.n else s
    | .preempt coil =>
      if s.unsaved m.ctx coil ≠ [] then s
      else
        let left := ((s.named m.ctx coil).filter fun k => ((s.stop? k).map Stop.full).getD false).length
        if left ≠ 0 then done s 4 left
        else if coil.isSome then done s 0 m.n
        else
          match s.ctx? m.ctx with
          | none => done s 0 m.n
          | some c =>
            if !c.resident then done s 0 m.n
            else if s.coils m.ctx = [] ∧ !c.leaving then s.setCtx { c with leaving := true }
            else s

/-! ### The other commands -/

/-- CHIPGRP (R199). The member list lies in local memory. -/
def execChipgrp (res : ResAddr) (group count list : Nat) (s : State) : Host.Outcome State Fault Refusal :=
  command res (fun s =>
    if group = 0 ∨ 1023 < group ∨ count = 0 ∨ 64 < count ∨ !localOk list (8 * count) then (s, some (2, 0))
    else if s.ctxs.any fun c => c.queue.any fun l => decide (l.chips = group) then (s, some (1, 0))
    else
      match s.svcRead list (8 * count) with
      | none => (s.svcAsk list (8 * count), none)
      | some (s, b) =>
        let es := (List.range count).map fun i => fieldAt b (8 * i) 8
        if es.any fun e => decide (bits e 18 14 ≠ 0 ∨ bits e 44 20 ≠ 0) then (s, some (2, 0))
        else ({ s with groups := upsert Group.no ⟨group, es.map fun e => (bits e 0 18, bits e 32 12), 0⟩ s.groups }, some (0, 0))) s

/-- WATCH (R433, R434): the range takes effect after PTINV.full over it; one over a mapped window is refused with BUSY. -/
def execWatch (res : ResAddr) (idx : Nat) (entry : BitVec 128) (s : State) : Host.Outcome State Fault Refusal :=
  command res (fun s =>
    let v := entry.toNat
    let w : Watch := { idx := idx, base := bits v 26 38, limit := bits v 64 38, ctx := bits v 14 12, kinds := bits v 8 6, valid := bit v 0 }
    let put := fun (s : State) => { s with watches := upsert Watch.idx w s.watches }
    if 1024 ≤ idx ∨ bits v 102 26 ≠ 0 ∨ bits v 1 7 ≠ 0 then (s, some (2, 0))
    else if !w.valid then (put s, some (0, 0))
    else if s.windows.any fun x => decide (x.ctx = w.ctx ∧ x.vbase / 64 ≤ w.limit ∧ w.base ≤ (x.vbase + x.klen - 1) / 64) then (s, some (1, 0))
    else
      match s.ptinv ⟨some w.ctx, w.base, w.limit + 1 - w.base⟩ true with
      | (s, true) => (put s, some (0, 0))
      | (s, false) => (s, none)) s

/-- INBOUND (R218). -/
def execInbound (res : ResAddr) (frame : Nat) (owner : Option (Nat × Nat)) (s : State) : Host.Outcome State Fault Refusal :=
  command res (fun s =>
    if !localOk (frame * 65536) 65536 then (s, some (2, 0))
    else
      match owner with
      | none => ({ s with inbound := eraseBy InEntry.frame frame s.inbound }, some (0, 0))
      | some (c, p) => ({ s with inbound := upsert InEntry.frame ⟨frame, c, p, false⟩ s.inbound }, some (0, 0))) s

/-- LOGREAD (R436): closed batches go to host memory, the oldest first, and are freed. -/
def execLogread (res : ResAddr) (dest : DWord) (count : Nat) (s : State) : Host.Outcome State Fault Refusal :=
  command res (fun s =>
    let l := s.batches.take count
    ({ s with batches := s.batches.drop count, host := cellsWrite s.host (dest.toNat % 2 ^ 52) (l.flatMap Batch.bytes) }, some (0, l.length))) s

/-! ### Keys, sessions, measurements (R428, R429, R439) -/

/-- KEYLOAD (R429): 0 OK, 1 BUSY, 2 BADSLOT, 3 NOTSECURE. The key's identity is the key itself, above those of slot 0 and of bytes
written without encryption. -/
def execKeyload (slot : Nat) (nonce : BitVec 256) (key : BitVec 512) (session : Nat) (s : State) : Host.Outcome State Fault Refusal :=
  if s.boot ≠ .ready then s.noEvent
  else if !(s.sessions.any fun x => decide (x.id = session ∧ x.peer = none) && x.secure) then .next (s.send (.keyStatus 3))
  else if slot = 0 ∨ 255 < slot then .next (s.send (.keyStatus 2))
  else if s.keys.any fun k => decide (k.no = slot ∧ k.st ≠ .empty) then .next (s.send (.keyStatus 1))
  else .next ({ s with keys := upsert KeySlot.no ⟨slot, .loaded, nonce, key.toNat + 2⟩ s.keys }.send (.keyStatus 0))

/-- SPDM_SESSION (R429, R474): a session, secure where both sides have authenticated (`authed`) and a requester that is no peer device
has a chain that ends in one of the installed root digests. -/
def execSpdmSession (id : Nat) (rootDigest : BitVec 512) (authed : Bool) (peer : Option Nat) (s : State) : Host.Outcome State Fault Refusal :=
  if s.boot ≠ .ready then s.noEvent
  else
    let secure := authed && (peer.isSome || (Config.requesterRoots.take 4).contains rootDigest)
    .next { s with sessions := upsert Session.id ⟨id, secure, rootDigest, peer⟩ s.sessions }

/-- The image of a table (R250). -/
def tableImage (t : Table) : List Byte :=
  let side := fun (l : List (Nat × Nat)) (n : Nat) => (List.range n).flatMap fun k => leBytes 4 ((lookupBy Prod.fst k l).elim 0 Prod.snd)
  leBytes 64 (1 + (t.nh - 1) * 2 ^ 4 + (t.nc - 1) * 2 ^ 8 + t.lz * 2 ^ 12 + t.cinit * 2 ^ 16 + t.hinit * 2 ^ 20 + t.cread * 2 ^ 24 +
    t.cwrite * 2 ^ 32 + t.cdirty * 2 ^ 40) ++ side t.home 256 ++ side t.cache 128

/-- What a slot's image reads back as: boot firmware's for slots 0 to 5, the one loaded for the others, none where a slot is empty (R253). -/
def State.slotImage (s : State) (slot : Nat) : Option (List Byte) :=
  if slot < 6 then some (tableImage (s.table slot)) else (lookupBy Prod.fst slot s.tabImages).map Prod.snd

/-- The images of the protocol slots 6 to 15, in slot order (R439). -/
def State.slotImages (s : State) : List Byte :=
  (List.range 10).flatMap fun i => (s.slotImage (6 + i)).getD (List.replicate 64 0)

/-- A measurement (R439). -/
def State.measurement (s : State) (i : Nat) : Option (List Byte) :=
  match i with
  | 1 => some (Config.shake256 Config.romBytes 64)
  | 2 => some (Config.shake256 s.fwBytes 64)
  | 3 => some (Config.shake256 Config.fuseBytes 64)
  | 4 => some (Config.shake256 s.slotImages 64)
  | 5 => some (Config.shake256 (Config.bootNonce s.bootNonce ++ padTo 32 s.lastPrev) 64)
  | _ => none

/-- GET_MEASUREMENTS (R439): the digests asked for, in the order asked. -/
def execGetMeasurements (idx : List Nat) (session : Nat) (s : State) : Host.Outcome State Fault Refusal :=
  if s.boot ≠ .ready ∨ (session ≠ 0 ∧ !(s.sessions.any fun x => decide (x.id = session))) then s.noEvent
  else .next (idx.foldl (fun (s : State) i => match s.measurement i with
    | some d => s.send (.measure i d)
    | none => s) s)

/-- LOG_BATCH_CLOSE: 100 µs after its first record (R436). -/
def execLogBatchClose (s : State) : Host.Outcome State Fault Refusal :=
  match s.batch with
  | some b => if b.start + 100000 ≤ s.gtime then .next s.closeBatch else s.noEvent
  | none => s.noEvent

end Sys2Proof.Machine
end

