-- ==== Sys2Proof/Machine/Scrub.lean ====
section
/-! DEFINITION. The scrub engine and its signed receipts (R430 to R432, R457). -/

namespace Sys2Proof.Machine

/-- Entries of a table at a base that memory lists at all: those not listed read zero, hence not present. -/
def State.entriesAt (s : State) (base size : Nat) : List (Nat × BitVec 128) :=
  ((s.hbm.filter fun c => decide (base ≤ c.1 ∧ c.1 < base + size)).map fun c => (c.1 - base) / 16).eraseDups.map fun i =>
    (i, BitVec.ofNat 128 (leNat (s.hbmRead (s.tagOf (base + 16 * i)) (base + 16 * i) 16)))

/-- Present leaves of a context with peer 0 and A = 0, ascending: first page, number of pages, first frame (R430 step 4). -/
def State.ownLeaves (s : State) (root : Nat) : List (Nat × Nat × Nat) :=
  (s.entriesAt root 131072).flatMap fun (i1, e1) =>
    if !pteBit e1 0 || !nonLeafOk e1 1 then []
    else (s.entriesAt (pteFrame e1 * 65536) 131072).flatMap fun (i2, e2) =>
      let p2 := i1 * 2 ^ 25 + i2 * 2 ^ 12
      let own := fun (e : BitVec 128) => pteBit e 0 && pteBit e 1 && decide (ptePeer e = 0) && !pteBit e 6
      if pteBit e2 1 then (if own e2 then [(p2, 4096, pteFrame e2)] else [])
      else if !pteBit e2 0 || !nonLeafOk e2 2 then []
      else (s.entriesAt (pteFrame e2 * 65536) 65536).filterMap fun (i3, e3) => if own e3 then some (p2 + i3, 1, pteFrame e3) else none

/-- Every line tagged with the context is dropped without write-back; copies at the host and at peers are invalidated (R430 step 2). -/
def State.dropCtx (s : State) (ctx : Nat) : State :=
  let hs := s.homes.filter fun h => decide (h.line.ctx = ctx)
  let s := hs.foldl (fun (s : State) h =>
    let s := if h.host then s.post .inv (plainMsg h.line .home .host) else s
    match h.loc with
    | .hbm pa => h.peers.foldl (fun (s : State) p => s.sendProto p .inv pa 0 [] 0 h.slot) s
    | _ => s) s
  { s with copies := s.copies.filter fun c => decide (c.line.ctx ≠ ctx), roCopies := s.roCopies.filter fun c => decide (c.line.ctx ≠ ctx),
           homes := s.homes.filter fun h => decide (h.line.ctx ≠ ctx), tlb := s.tlb.filter fun t => decide (t.ctx ≠ ctx),
           nonleaf := s.nonleaf.filter fun t => decide (t.ctx ≠ ctx), remap := s.remap.filter fun t => decide (t.ctx ≠ ctx ∧ t.cctx ≠ ctx) }

/-- Frames written with zero bytes, directly and without encryption: their lines stand under identity 1, which no key has (R430 step 4). -/
def State.zeroFrames (s : State) (fs : List Nat) : State :=
  { s with hbm := s.hbm.filter fun c => !fs.contains (c.1 / 65536),
           hbmKey := (s.hbmKey.filter fun k => !fs.contains (k.1 / 512)) ++ fs.flatMap fun f => (List.range 512).map fun i => (f * 512 + i, 1) }

/-- Maximal runs of consecutive pages (R432). -/
def pageRuns (ps : List Nat) : List (Nat × Nat) :=
  (ps.foldl (fun (l : List (Nat × Nat)) p => match l with
    | (b, n) :: more => if b + n = p then (b, n + 1) :: more else (p, 1) :: l
    | [] => [(p, 1)]) []).reverse

/-- Receipt bytes (R431, R432): header, range entries, digest, signature. -/
def receiptBytes (hdr : Nat) (runs : List (Nat × Nat)) : List Byte :=
  let body := leBytes 256 hdr ++ runs.flatMap fun r => leBytes 16 (r.1 + r.2 * 2 ^ 38)
  let digest := padTo 64 (Config.shake256 body 64)
  body ++ digest ++ padTo 29792 (Config.slhSign digest)

/-- The scrub of a context overwrites a slot's key: it is bound to the context, or loaded for its engagement (R226, R428, R430). -/
def Context.ownsKey (c : Context) (k : KeySlot) : Bool :=
  decide (c.kslot ≠ 0 ∧ k.no = c.kslot) && (decide (k.st = .bound ∧ c.resident = true) || decide (k.st = .loaded ∧ k.nonce = c.nonce))

/-- A scrub starts: the context's inbound entries and its key slot are marked, and requests that arrive later are refused (R428, R430
step 1). -/
def State.scrubStart (s : State) (c : Context) : State :=
  { s with inbound := s.inbound.map fun (e : InEntry) => if e.ctx = c.no then { e with scrub := true } else e
           keys := s.keys.map fun (k : KeySlot) => if c.ownsKey k then { k with st := .scrubbing } else k }.setCtx
    { c with scrubAt := some s.gtime }

/-- The state after steps 1 to 5 of a scrub with what the receipt says of them: free counts where the owner tags decide. The leaves are
those that stood as the scrub began, in memory or in L2 (log 65). -/
def State.scrubbed (s : State) (c : Context) (cause : Nat) : State × List Byte :=
  let t0 := c.scrubAt.getD s.gtime
  let nonce := ((lookupBy KeySlot.no c.kslot s.keys).map fun k => k.nonce.toNat).getD 0
  let leaves := (s.homes.foldl State.writeL2 s).ownLeaves c.root
  let cs := s.copies.filter fun x => decide (x.line.ctx = c.no)
  let hs := s.homes.filter fun h => decide (h.line.ctx = c.no)
  let clines := cs.length + hs.length
  let dlines := (cs.filter fun x => decide (x.dirty ≠ 0)).length + (hs.filter fun h => h.dirty || h.rwrite).length
  let s := s.dropCtx c.no
  let ls := leaves.flatMap fun l => (List.range l.2.1).map fun k => (l.1 + k, l.2.2 + k)
  let skipped := fun (f : Nat) => ((s.inb? f).map fun e => decide (e.ctx ≠ c.no)).getD false
  let done := ls.filter fun q => !skipped q.2
  let s := s.zeroFrames (done.map Prod.snd)
  let s := { s with keys := s.keys.filter fun k => !(decide (k.no = c.kslot ∧ k.st = KeySt.scrubbing)),
                    locks := s.locks.filter fun l => decide (l.1 ≠ c.no), inbound := s.inbound.filter fun e => decide (e.ctx ≠ c.no) }
  let (sbytes, s) := s.free
  let (rbytes, s) := s.free
  let runs := pageRuns (done.map Prod.fst)
  let hdr := 1 + 2 ^ 8 + cause * 2 ^ 16 + c.no * 2 ^ 20 + c.pid.toNat * 2 ^ 32 + c.kslot * 2 ^ 64 + runs.length * 2 ^ 96 + t0 % 2 ^ 64 * 2 ^ 128 +
    s.gtime % 2 ^ 64 * 2 ^ 192 + nonce * 2 ^ 256 + rbytes.toNat * 2 ^ 512 + sbytes.toNat * 2 ^ 576 + clines % 2 ^ 64 * 2 ^ 640 +
    done.length * 512 * 2 ^ 704 + dlines % 2 ^ 64 * 2 ^ 768 + (ls.length - done.length) * 2 ^ 832 + s.receipts % 2 ^ 64 * 2 ^ 960 +
    leNat (padTo 64 (Config.shake256 Config.attKey 64)) * 2 ^ 1024
  ({ s with receipts := s.receipts + 1 }, receiptBytes hdr runs)

/-- Outside requests accepted before the scrub have completed: nothing of the context's lines is on its way (R430 step 1). -/
def State.scrubReady (s : State) (ctx : Nat) : Bool :=
  s.coils ctx == [] && !(s.msgs.any fun f => decide (f.msg.line.ctx = ctx)) && !(s.homes.any fun h => decide (h.line.ctx = ctx) && h.txn.isSome)

/-- SCRUB: on command, or at the end of a context (R430, R457). The receipt goes to the command's address or to the descriptor's: bit 63
set, host memory; clear, local memory. -/
def execScrub (ctx : Nat) (receipt : Option DWord) (cmd : Bool) (s : State) : Host.Outcome State Fault Refusal :=
  match s.ctx? ctx with
  | none => s.noEvent
  | some c =>
    let ending := s.cmds.find? fun m => decide (m.kind = .end_ ∧ m.ctx = ctx)
    if s.boot ≠ .ready ∨ (!cmd ∧ ending.isNone) ∨ (cmd ∧ s.cmds ≠ []) then s.noEvent
    else if cmd ∧ s.coils ctx ≠ [] then .next (s.send (.result 0 1 0))
    else if c.scrubAt.isNone then .next { s.scrubStart c with again := cmd }
    else if !s.scrubReady ctx ∨ (ending.isSome ∧ c.queue ≠ []) then s.noEvent
    else
      let a := ((if cmd then receipt else none).map BitVec.toNat).getD c.rcpt
      let no := s.receipts
      let (s, b) := s.scrubbed c (if cmd then 1 else 0)
      if !bit a 63 && !localOk (a % 2 ^ 44) b.length then .fault (.noSuchAddress (a % 2 ^ 44))
      else match (if bit a 63 then some { s with host := cellsWrite s.host (a % 2 ^ 52) b } else s.svcWrite (a % 2 ^ 44) b) with
      | none => s.noEvent
      | some s =>
        match ending with
        | some m =>
          .next ({ s with ctxs := eraseBy Context.no ctx s.ctxs, cmds := s.cmds.filter fun x => decide (x ≠ m) }.result m.res 0 no)
        | none => .next ((s.setCtx { c with resident := false, leaving := false, locks := 0, scrubAt := none }).send (.result 0 0 no))

end Sys2Proof.Machine
end

