-- ==== Sys2Proof/Machine/TabCheck.lean ====
section
/-! DEFINITION. The protocol table checker and TABLOAD (R249 to R254, R261, R262). The exploration delivers each channel's messages in
order, and the channels in any order (log 66). -/

namespace Sys2Proof.Machine

/-! ### Format (R250, R251, R254 code 1) -/

/-- The entries of one side of an image that are defined, by 16·state + message. -/
def imageEntries (img : List Byte) (o n : Nat) : List (Nat × Nat) :=
  (List.range n).filterMap fun k => let e := fieldAt img (o + 4 * k) 4
    if bit e 31 then some (k, e) else none

/-- An image's table (R250). -/
def tableOf (img : List Byte) : Table :=
  let h := leNat (img.take 64)
  { nh := bits h 4 4 + 1, nc := bits h 8 4 + 1, lz := bits h 12 4, cinit := bits h 16 3, hinit := bits h 20 4, cread := bits h 24 8,
    cwrite := bits h 32 8, cdirty := bits h 40 8, home := imageEntries img 64 256, cache := imageEntries img 1088 128 }

/-- The image keeps its format. -/
def formatOk (img : List Byte) : Bool :=
  let h := leNat (img.take 64)
  let t := tableOf img
  decide (img.length = 1600 ∧ bits h 0 4 = 1 ∧ bits h 48 464 = 0 ∧ bits h 11 1 = 0 ∧ t.lz ≤ 1 ∧ bits h 19 1 = 0 ∧ t.hinit < t.nh ∧ t.cinit < t.nc) &&
    t.home.all (fun e => decide (entNext e.2 < t.nh ∧ entWct e.2 ≠ 7 ∧ bits e.2 16 6 = 0)) &&
    t.cache.all fun e => decide (entNext e.2 < t.nc ∧ entWct e.2 ≠ 7 ∧ bits e.2 0 16 = 0 ∧ bits e.2 30 1 = 0)

/-- No side defines an entry for a message that it never receives (R248, R254 code 2). -/
def sidesOk (t : Table) : Bool := t.home.all (fun e => decide (e.1 % 16 < 8)) && t.cache.all fun e => decide (8 ≤ e.1 % 16)

/-- Writes have a WCT rule, and LEASEMAX a lease (R254 code 4). -/
def rulesOk (t : Table) : Bool :=
  (t.home ++ t.cache).all fun e => !((entAct e.2 1 || entAct e.2 14) && entWct e.2 == 0) && !(entWct e.2 == 3 && t.lz == 0)

/-! ### Exploration (R254) -/

/-- A message of the exploration and the cache that asked for what it brings. -/
structure PMsg where
  ty  : MType
  req : Nat
  deriving DecidableEq, Repr

/-- An open transaction of the exploration. -/
structure PTxn where
  ty    : MType
  req   : Nat
  ent   : Nat
  acks  : Nat
  datas : Nat
  deriving DecidableEq, Repr

/-- A state of the exploration: home state, recorded holders, owner, transaction; and for each cache its state, request outstanding,
victim buffer (0 empty, 1 waiting, 2 surrendered), channel to the home and channel from it. -/
structure Probe where
  hs   : Nat
  hold : List Nat
  own  : Option Nat
  txn  : Option PTxn
  cs   : List Nat
  want : List (Option MType)
  vict : List Nat
  /-- Caches whose copy came without a lease, where the table takes one. -/
  free : List Nat
  up   : List (List PMsg)
  dn   : List (List PMsg)
  deriving DecidableEq, Repr

/-- Before anything is held. -/
def Probe.start (t : Table) (n : Nat) : Probe :=
  { hs := t.hinit, hold := [], own := none, txn := none, cs := List.replicate n t.cinit, want := List.replicate n none,
    vict := List.replicate n 0, free := [], up := List.replicate n [], dn := List.replicate n [] }

/-- A message put on a channel that has room for it. -/
def Probe.sendUp (p : Probe) (i : Nat) (ty : MType) : Option Probe :=
  if (p.up.getD i []).length < 2 then some { p with up := p.up.set i (p.up.getD i [] ++ [⟨ty, i⟩]) } else none

/-- The same towards a cache; what is for the home itself is not sent here. -/
def Probe.sendDn (p : Probe) (i : Nat) (ty : MType) (req : Nat) : Option Probe :=
  if p.cs.length ≤ i then some p
  else if (p.dn.getD i []).length < 2 then some { p with dn := p.dn.set i (p.dn.getD i [] ++ [⟨ty, req⟩]) } else none

/-- What a cache may read or write now: a line in its victim buffer serves no access (R261). -/
def Probe.state (t : Table) (p : Probe) (i : Nat) : Nat := if p.vict.getD i 0 = 0 then getAt p.cs i else t.cinit

/-- Two caches break single writer (R254 code 3). -/
def Probe.clash (t : Table) (p : Probe) : Bool :=
  (List.range p.cs.length).any fun i => t.writes (p.state t i) && (List.range p.cs.length).any fun j =>
    decide (i ≠ j) && (t.reads (p.state t j) || t.writes (p.state t j))

/-- Another cache is in cread. -/
def Probe.readers (t : Table) (p : Probe) (i : Nat) : List Nat :=
  (List.range p.cs.length).filter fun j => decide (j ≠ i) && t.reads (p.state t j)

/-- A step of the exploration: a state, a failure code, or nothing as a channel has no room. -/
abbrev PStep := List (Except Nat Probe)

/-- A step that may find no room. -/
def pstep (p : Option Probe) : PStep := (p.map Except.ok).toList

/-- The requests that a cache's own accesses and evictions lead to (R249). -/
def Probe.issue (t : Table) (p : Probe) (i : Nat) : PStep :=
  if (p.want.getD i none).isSome ∨ p.vict.getD i 0 ≠ 0 then []
  else
    let c := getAt p.cs i
    let ask := fun (ty : MType) => pstep ((p.sendUp i ty).map fun p => { p with want := p.want.set i (some ty) })
    (if t.reads c then [] else ask .gets) ++ (if t.writes c then [] else ask (if t.reads c then .upgr else .getm)) ++ ask .atom ++
    if c = t.cinit then []
    else if t.isDirty c then pstep ((p.sendUp i .putm).map fun p => { p with vict := p.vict.set i 1 })
    else pstep ((p.sendUp i .puts).map fun p => { p with cs := p.cs.set i t.cinit })

/-- A transaction closes (R251, R252), and the rule of its write is tested against the copies that remain (R254 code 4). -/
def Probe.close (t : Table) (p : Probe) (x : PTxn) : PStep :=
  let e := x.ent
  let i := x.req
  let hold := if entAct e 4 && !entAct e 12 then [] else p.hold
  let hold := if entAct e 7 && !hold.contains i then hold ++ [i] else hold
  let hold := if entAct e 8 then hold.filter (· ≠ i) else hold
  let hold := if entAct e 9 then [i] else if entAct e 10 then [] else hold
  let own := if entAct e 9 then some i else if entAct e 10 then none else p.own
  -- a PUTM from a cluster that is no longer the owner, or a notice from one no longer recorded, leaves the line as it is (R262)
  let stale := (x.ty = .putm ∧ p.own ≠ some i) ∨ (x.ty = .puts ∧ !p.hold.contains i)
  let q := if stale then { p with hold := p.hold.filter (· ≠ i), txn := none } else { p with hs := entNext e, hold := hold, own := own, txn := none }
  let fwd := (entAct e 5 || entAct e 6) && decide (p.own.isSome ∧ p.own ≠ some i)
  let q := if t.lz = 1 ∧ (entAct e 2 ∨ entAct e 3 ∨ fwd = true) then
      { q with free := (List.range p.cs.length).filter fun j => if j = i then !entAct e 13 else p.free.contains j }
    else q
  let me := if x.ty = .atom then p.cs.length else i
  let late := match entWct e with
    | 2 | 5 | 6 => p.readers t me != []
    | 3 => (p.readers t me).any p.free.contains
    | 4 => (p.readers t me).any fun j => !p.hold.contains j
    | _ => false
  if late then [.error 4]
  else if (entAct e 2 || entAct e 3) && !fwd then pstep (q.sendDn i (if entAct e 3 then .datam else .datas) i)
  else if fwd ∧ x.ty ≠ .atom then [.ok q]
  else [.ok (if x.ty = .gets ∨ x.ty = .getm ∨ x.ty = .upgr ∨ x.ty = .atom then { q with want := q.want.set i none } else q)]

/-- An entry applied at the home (R251). -/
def Probe.apply (t : Table) (p : Probe) (m : PMsg) (e : Nat) : PStep :=
  let i := m.req
  if entWct e = 1 ∧ p.readers t i ≠ [] ∧ (entAct e 1 ∨ entAct e 3 ∨ entAct e 14) then [.error 4]
  else if m.ty = .wbdata ∧ !entAct e 1 then [.error 5]
  else
    -- a sealed line's INV goes to every cluster (R255)
    let r := if m.ty = .atom then p.cs.length else i
    let others := (if entAct e 22 then List.range p.cs.length else p.hold).filter (· ≠ r)
    let shot := fun (on : Bool) (ty : MType) (q : Option Probe) => if on then others.foldl (fun q j => q.bind fun q => q.sendDn j ty r) q else q
    let q := shot (entAct e 12) .update (shot (entAct e 4) .inv (some p))
    let target := p.own.filter fun o => decide (o ≠ r)
    let fw := fun (on : Bool) (ty : MType) (q : Option Probe) => match on, target with
      | true, some o => q.bind fun q => q.sendDn o ty r
      | _, _ => q
    let q := fw (entAct e 6) .fwdm (fw (entAct e 5) .fwds q)
    let q := if entAct e 11 then q.bind fun q => q.sendDn i .wbgrant i else q
    let acks := (if entAct e 4 then others.length else 0) + if entAct e 12 then others.length else 0
    let datas := (if (entAct e 5 || entAct e 6) && target.isSome then 1 else 0) + if entAct e 11 then 1 else 0
    let x : PTxn := ⟨m.ty, i, e, acks, datas⟩
    match q with
    | none => []
    | some q => if acks + datas = 0 then q.close t x else [.ok { q with txn := some x }]

/-- The next message of a cache's channel arrives at the home (R252). -/
def Probe.home (t : Table) (p : Probe) (i : Nat) : PStep :=
  match p.up.getD i [] with
  | [] => []
  | m :: more =>
    let q := { p with up := p.up.set i more }
    match p.txn with
    | some x =>
      let x' := if m.ty = .ack ∧ x.acks ≠ 0 then some { x with acks := x.acks - 1 }
        else if m.ty = .wbdata ∧ x.datas ≠ 0 then some { x with datas := x.datas - 1 } else none
      match x' with
      | none => []
      | some y => if y.acks + y.datas = 0 then { q with txn := none }.close t y else [.ok { q with txn := some y }]
    | none =>
      match t.homeEntry p.hs m.ty with
      | none => [.error 2]
      | some e => if entAct e 23 then [] else q.apply t m e

/-- A message arrives at a victim buffer (R261, R262). -/
def Probe.buffer (t : Table) (q : Probe) (i : Nat) (m : PMsg) : PStep :=
  match m.ty with
  | .wbgrant => pstep ((q.sendUp i .wbdata).map fun q => { q with vict := q.vict.set i 0, cs := q.cs.set i t.cinit })
  | .inv | .update => pstep (q.sendUp i .ack)
  | .fwds => pstep ((q.sendUp i .wbdata).bind fun q => (q.sendDn m.req .datas m.req).map fun q => { q with vict := q.vict.set i 2 })
  | .fwdm => pstep ((q.sendUp i .wbdata).bind fun q => (q.sendDn m.req .datam m.req).map fun q => { q with vict := q.vict.set i 2 })
  | _ => [.ok q]

/-- A cache entry applied (R251); dirty bytes must go somewhere (R254 code 5). -/
def Probe.entry (t : Table) (q : Probe) (i : Nat) (m : PMsg) (e : Nat) : PStep :=
  let c := getAt q.cs i
  let n := if entAct e 19 then t.cinit else entNext e
  if t.isDirty c && (!t.isDirty n || entAct e 20) && !(entAct e 17 || entAct e 18) then [.error 5]
  else
    let q := if entAct e 16 then q.sendUp i .ack else some q
    let q := if entAct e 18 then q.bind fun q => q.sendUp i .wbdata else q
    let q := if entAct e 17 then q.bind fun q => q.sendDn m.req (if m.ty = .fwds then .datas else .datam) m.req else q
    pstep (q.map fun q => { q with cs := q.cs.set i n, want := if m.ty = .datas ∨ m.ty = .datam then q.want.set i none else q.want })

/-- The next message arrives at a cache; or its lease expires. -/
def Probe.cache (t : Table) (p : Probe) (i : Nat) : PStep :=
  let c := getAt p.cs i
  let timer := if t.lz = 1 ∧ c ≠ t.cinit ∧ p.vict.getD i 0 = 0 then
      match t.cacheEntry c .timer with
      | some e => p.entry t i ⟨.timer, i⟩ e
      | none => [.error 2]
    else []
  timer ++ match p.dn.getD i [] with
  | [] => []
  | m :: more =>
    let q := { p with dn := p.dn.set i more }
    if p.vict.getD i 0 ≠ 0 then q.buffer t i m
    else
      match t.cacheEntry c m.ty with
      | none => [.error 2]
      | some e => if entAct e 23 then [] else q.entry t i m e

/-- Every step from a state. -/
def Probe.next (t : Table) (p : Probe) : PStep :=
  (List.range p.cs.length).flatMap fun i => p.issue t i ++ p.home t i ++ p.cache t i

/-- The failures met on the way through all reachable states; `fuel` bounds the number of states, which is finite. -/
def explore (t : Table) : Nat → List Probe → List Probe → List Nat → List Nat
  | 0, _, _, bad => bad
  | _, _, [], bad => bad
  | fuel + 1, seen, p :: todo, bad =>
    let out := p.next t
    let bad := (if p.clash t then [3] else []) ++ (out.filterMap fun r => match r with
      | .error c => some c
      | .ok _ => none) ++ bad
    let new := (out.filterMap fun r => match r with
      | .ok q => some q
      | .error _ => none).eraseDups.filter fun q => !seen.contains q
    explore t fuel (new ++ seen) (new ++ todo) bad.eraseDups

/-- The image holds the shipped table PRIV, which passes the checker as R255 says, though it keeps neither code 3 nor code 4 (log 66). -/
def isPriv (t : Table) : Bool :=
  decide ({ t with home := tablePriv.home, cache := tablePriv.cache } = tablePriv) && t.home.isPerm tablePriv.home && t.cache.isPerm tablePriv.cache

/-- The checker's status of an image with n caches (R254): the first failure in the order of the codes. -/
def checkImage (img : List Byte) (n : Nat) (busy : Bool) : Nat :=
  let t := tableOf img
  if !formatOk img then 1
  else if !sidesOk t then 2
  else
    let bad := if isPriv t then [] else explore t (2 ^ 64) [Probe.start t n] [Probe.start t n] (if rulesOk t then [] else [4])
    (listMin bad).getD (if busy then 6 else 0)

/-- TABLOAD (R253, R254, R457): the slot takes the image if the checker accepts it; the checker's status is the value. -/
def execTabload (res : ResAddr) (slot img : Nat) (s : State) : Host.Outcome State Fault Refusal :=
  command res (fun s =>
    if slot < 6 ∨ 15 < slot ∨ !localOk img 1600 then (s, some (2, 0))
    else
      match s.svcRead img 1600 with
      | none => (s.svcAsk img 1600, none)
      | some (s, b) =>
        let code := checkImage b 3 (s.ctxs.any fun c => c.resident && c.ranges.any fun r => r.valid && decide (r.slot = slot))
        (if code = 0 then { s with tables := upsert Prod.fst (slot, tableOf b) s.tables, tabImages := upsert Prod.fst (slot, b) s.tabImages } else s,
         some (0, code))) s

end Sys2Proof.Machine
end

