-- ==== Sys2Proof/Machine/Fabric.lean ====
section
/-! DEFINITION. The scale-up fabric: configuration, rotor slots, relays, associations, link control, transactions and their responses,
the cache-locally mode (R218, R232 to R235, R246, R248, R259, R392, R466 to R478). -/

namespace Sys2Proof.Machine

/-! ### Inbound addresses (R218) -/

/-- An event that arrives in READY only (R454). -/
def whenReady (s : State) (f : State → Host.Outcome State Fault Refusal) : Host.Outcome State Fault Refusal :=
  if s.boot = .ready then f s else s.noEvent

/-- The inbound entry of a local physical address, outside the part that firmware keeps and outside a page under scrub (R218, R430, R453). -/
def State.inEntry (s : State) (pa : Nat) : Option InEntry :=
  if pa < 0x17F00000000 then (s.inb? (pa / 65536)).filter fun e => !e.scrub else none

/-- The translation of an inbound address: the canonical line of its entry, at its home (R218). -/
def State.inXl (s : State) (e : InEntry) (pa : Nat) : Xl :=
  { cctx := e.ctx, cva := e.page * 65536 + pa % 65536, loc := .hbm pa, mode := 0, key := s.frameKey e, rd := true, w := true, x := false,
    sup := false, lent := false, own := none }

/-- The line at an inbound address is asked back from holders beyond the device, and a refusal of it noted (R237, R259). -/
def State.nudgeAt (s : State) (pa : Nat) : State :=
  match s.inEntry pa with
  | some e => s.nudge (s.inXl e pa).line
  | none => s

/-! ### Associations (R474 to R476) -/

/-- The idle bank of an association takes a new key, its counters at zero, and kg flips; not before the old bank has retired (R475). -/
def State.newKey (s : State) (a : Assoc) : Option State :=
  if (a.bank (!a.kg)).live then none
  else
    let b : Bank := ⟨s.nextId, 0, 0, true⟩
    some { s with fab := s.fab.setAssoc { (a.setBank (!a.kg) b) with kg := !a.kg }, nextId := s.nextId + 1 }

/-- The old bank is overwritten with zeros once no flit sent under it waits for its acknowledgement (R475). -/
def State.retireBank (s : State) (p : Nat) : State :=
  match lookupBy Assoc.peer p s.fab.assocs with
  | none => s
  | some a =>
    if (a.bank (!a.kg)).live && !(s.fab.flits.any fun f => decide (f.peer = p ∧ f.bank = !a.kg)) then
      { s with fab := s.fab.setAssoc (a.setBank (!a.kg) ⟨0, 0, 0, false⟩) }
    else s

/-- REKEY: both sides change to a new key, at the request of either; of two requests at once one is dropped, with the same end
(R475, R476). -/
def execRekey (peer : Nat) (_requested : Bool) (s : State) : Host.Outcome State Fault Refusal :=
  whenReady s fun s =>
    let s := s.retireBank peer
    match lookupBy Assoc.peer peer s.fab.assocs with
    | none => s.noEvent
    | some a => match s.newKey a with
      | some s => .next (s.retireBank peer)
      | none => s.noEvent

/-- REKEY_COUNT: a bank that has carried 2^32 flits is rekeyed (R475). -/
def execRekeyCount (peer : Nat) (s : State) : Host.Outcome State Fault Refusal :=
  whenReady s fun s =>
    match lookupBy Assoc.peer peer s.fab.assocs with
    | none => s.noEvent
    | some a =>
      if 2 ^ 32 ≤ (a.bank a.kg).txc then
        match s.newKey a with
        | some s => .next (s.retireBank peer)
        | none => s.noEvent
      else s.noEvent

/-- ASSOCIATION_FETCH: an association that is not cached comes from firmware-reserved HBM, in place of another where 4,096 are cached
(R474). -/
def execAssociationFetch (peer : Nat) (s : State) : Host.Outcome State Fault Refusal :=
  whenReady s fun s =>
    match lookupBy Assoc.peer peer s.fab.assocs with
    | none => s.noEvent
    | some a =>
      if a.cached then s.noEvent
      else
        let cached := s.fab.assocs.filter Assoc.cached
        let f := match cached.head? with
          | some o => if 4096 ≤ cached.length then s.fab.setAssoc { o with cached := false } else s.fab
          | none => s.fab
        .next { s with fab := f.setAssoc { a with cached := true } }

/-! ### Configuration and slots (R471 to R473) -/

/-- One entry of a slot table. None: BADARG. -/
def slotEntry (v : Nat) : Option (Option Nat) :=
  let p := bits v 0 18
  if bits v 19 13 ≠ 0 then none
  else if bit v 18 then (if p = 0 ∨ p = 0x3FFFF then none else some (some p))
  else some none

/-- A slot table from its entries. None: BADARG. -/
def slotTab (b : List Byte) (n : Nat) : Option SlotTab :=
  (List.range n).foldr (fun i (r : Option SlotTab) => match r, slotEntry (fieldAt b (4 * i) 4) with
    | some t, some e => some (e :: t)
    | _, _ => none) (some [])

/-- A configuration block (R472). None: BADARG. -/
def fabCfgOf (hdr body : List Byte) : Option FabCfg :=
  let v := leNat hdr
  let n := bits v 0 10 + 1
  if bits v 36 476 ≠ 0 ∨ bits v 21 11 ≠ 0 ∨ bits v 32 4 = 0 ∨ 1024 < bits v 10 11 then none
  else
    match (List.range 96).foldr (fun i (r : Option (List SlotTab)) => match r, slotTab (body.drop (4 * n * i)) n with
        | some l, some t => some (t :: l)
        | _, _ => none) (some []) with
    | some tabs => some ⟨bits v 32 4, bits v 10 11, tabs⟩
    | none => none

/-- FABCFG: the block is read and checked; each fibre adopts its table at its next cycle boundary, and pairs marked unreachable are tried
again (R472, R478). -/
def execFabcfg (res : ResAddr) (addr : Nat) (s : State) : Host.Outcome State Fault Refusal :=
  command res (fun s =>
    if !localOk addr 64 then (s, some (2, 0))
    else
      match s.svcRead addr 64 with
      | none => (s.svcAsk addr 64, none)
      | some (s, hdr) =>
        let n := bits (leNat hdr) 0 10 + 1
        if !localOk addr (64 + 384 * n) then (s, some (2, 0))
        else
          match s.svcRead (addr + 64) (384 * n) with
          | none => (s.svcAsk (addr + 64) (384 * n), none)
          | some (s, body) =>
            match fabCfgOf hdr body with
            | none => (s, some (2, 0))
            | some c =>
              let f := s.fab
              let tabs := if f.tabs = [] then List.replicate 96 [] else f.tabs
              ({ s with fab := { f with retry := c.retry, horizon := c.horizon, tabs := tabs, next := some (c, List.range 96), dead := [] } },
               some (0, 0))) s
/-- The slot table of a fibre. -/
def Fabric.tab (f : Fabric) (k : Nat) : SlotTab := f.tabs.getD k []

/-- The slot a fibre is in. -/
def Fabric.slotNo (f : Fabric) (k : Nat) : Option Nat := (lookupBy Prod.fst k f.slots).map fun e => e.2.1

/-- The peer that a fibre reaches d slots from now (R472). -/
def Fabric.peerAt (f : Fabric) (k d : Nat) : Option Nat :=
  match f.slotNo k with
  | none => none
  | some i => (f.tab k).getD ((i + d) % (f.tab k).length) none

/-- How many slots from now a destination is reached directly, and by which fibre: the lowest on a tie (R473). -/
def Fabric.reach (f : Fabric) (p : Nat) : Option (Nat × Nat) :=
  (List.range f.tabs.length).foldl (fun (best : Option (Nat × Nat)) k =>
    match (List.range (f.tab k).length).find? fun d => decide (f.peerAt k d = some p) with
    | none => best
    | some d => match best with
      | some b => if d < b.1 then some (d, k) else best
      | none => some (d, k)) none

/-- The fibre ends a cycle with its current slot (R472). -/
def Fabric.atEnd (f : Fabric) (k : Nat) : Bool :=
  match f.slotNo k with
  | none => true
  | some i => decide (i + 1 = (f.tab k).length)

/-- The fibre has yet to adopt its new table. -/
def Fabric.adopts (f : Fabric) (k : Nat) : Bool := f.next.any fun n => n.2.contains k

/-- FABCFG_ADOPT: a fibre takes its new table at a cycle boundary (R472). -/
def execFabcfgAdopt (fibre : Nat) (s : State) : Host.Outcome State Fault Refusal :=
  whenReady s fun s =>
    match s.fab.next with
    | none => s.noEvent
    | some (c, ks) =>
      if ks.contains fibre && s.fab.atEnd fibre then
        let rest := ks.filter (· ≠ fibre)
        .next { s with fab := { s.fab with
          tabs := s.fab.tabs.set fibre (c.tabs.getD fibre []), slots := eraseBy Prod.fst fibre s.fab.slots,
          next := if rest = [] then none else some (c, rest) } }
      else s.noEvent

/-- Flits a fibre may still send in its slot (R471). -/
def Fabric.room (f : Fabric) (k : Nat) : Nat := 112 - ((lookupBy Prod.fst k f.slots).map fun e => e.2.2).getD 112

/-- Flits counted against a fibre's slot. -/
def Fabric.use (f : Fabric) (k n : Nat) : Fabric := { f with slots := f.slots.map fun e => if e.1 = k then (e.1, e.2.1, e.2.2 + n) else e }

/-- A flit may leave: its association is cached, and fewer than 2^22 flits of its direction wait for their acknowledgement (R468, R474). -/
def Fabric.mayGo (f : Fabric) (x : Flit) : Bool :=
  !x.sent && ((lookupBy Assoc.peer x.peer f.assocs).map Assoc.cached).getD false &&
    !f.flits.any fun y => decide (y.peer = x.peer ∧ y.bank = x.bank ∧ y.ctr + 2 ^ 22 ≤ x.ctr)

/-- Two names of one flit. -/
def Flit.same (x y : Flit) : Bool := decide (x.peer = y.peer ∧ x.bank = y.bank ∧ x.ctr = y.ctr)

/-- A flit changed where it stands. -/
def Fabric.setFlit (f : Fabric) (x : Flit) : Fabric := { f with flits := f.flits.map fun y => if y.same x then x else y }

/-- A flit leaves in this fibre's slot; with the last one of a transaction the transaction is out. -/
def State.sendFlit (s : State) (k : Nat) (x : Flit) : State :=
  let s := { s with fab := (s.fab.setFlit { x with sent := true }).use k 1 }
  if x.last && x.tries == 0 then s.send (.fab x.tx) else s

/-- What a fibre does in its slot with a flit that waits (R473): sent when this fibre is the one that reaches its destination now; kept
for a slot nearer than the horizon; else offered to the intermediate of the lowest fibre, which may refuse with BUSY (a choice, log 4). -/
def State.routeFlit (s : State) (k : Nat) (x : Flit) : State :=
  match s.fab.reach x.peer with
  | none => s
  | some (d, g) =>
    if d = 0 then (if g = k then s.sendFlit k x else s)
    else if s.fab.horizon = 0 ∨ d < s.fab.horizon ∨ x.direct then s
    else if (List.range s.fab.tabs.length).find? (fun j => (s.fab.peerAt j 0).isSome) = some k then
      let (n, s) := s.pick
      if n = 0 then s.sendFlit k x else { s with fab := s.fab.setFlit { x with direct := true } }
    else s

/-- ROTOR_SLOT: a fibre enters its next slot, and the flits that wait go as R473 routes them, up to 112 of them (R471). A fibre at its
cycle boundary adopts a new table first (R472). -/
def execRotorSlot (fibre : Nat) (s : State) : Host.Outcome State Fault Refusal :=
  whenReady s fun s =>
    let f := s.fab
    if f.tab fibre = [] ∨ (f.adopts fibre ∧ f.atEnd fibre) then s.noEvent
    else
      let i := match f.slotNo fibre with
        | none => 0
        | some i => (i + 1) % (f.tab fibre).length
      let s := { s with fab := { f with slots := upsert Prod.fst (fibre, i, 0) f.slots } }
      .next (f.flits.foldl (fun (s : State) x => if s.fab.room fibre = 0 ∨ !s.fab.mayGo x then s else s.routeFlit fibre x) s)

/-- RELAY_FORWARD: the oldest relayed transaction for the peer that this fibre's slot reaches goes on, unchanged (R473). -/
def execRelayForward (fibre : Nat) (s : State) : Host.Outcome State Fault Refusal :=
  whenReady s fun s =>
    match s.fab.relay.find? fun r => decide (s.fab.peerAt fibre 0 = some r.2.dst) with
    | none => s.noEvent
    | some r =>
      let n := flitsOf r.2.data.length
      if s.fab.room fibre < n then s.noEvent
      else .next ({ s with fab := ({ s.fab with relay := s.fab.relay.erase r } : Fabric).use fibre n }.send (.relay r.1 r.2.dst r.2.src r.2.tid))

/-- A transaction for another device comes to this one as an intermediate: it waits in the relay buffer, which holds 262,144 flits, or is
refused with BUSY (R473). -/
def State.relayIn (s : State) (k : TxKind) (t : FabTx) : State :=
  let held := s.fab.relay.foldl (fun n r => n + flitsOf r.2.data.length) 0
  if 262144 < held + flitsOf t.data.length ∨ (s.fab.tabs.all fun x => !x.contains (some t.dst)) then s.send (.busy t.src t.tid)
  else { s with fab := { s.fab with relay := s.fab.relay ++ [(k, t)] } }

/-! ### Answers to this device's own transactions (R392, R470, R477, R478) -/

/-- The context and address that a transaction acts for. -/
def State.txOwner (s : State) (t : Tx) : Option (Nat × Nat) :=
  match t.what with
  | .acc id => (s.acc? id).map fun a => (a.ctx, a.va)
  | .op id => (s.op? id).map fun o => (o.ctx, ((s.haloRange o t).map Prod.fst).getD 0)
  | .page c p _ => some (c, p * 65536)
  | .line l => some (l.ctx, l.line * 128)
  | .agent _ c va => some (c, va)
  | .none => none

/-- One line of a page on its way to its new frame has come; the leaf is written with the last (R477). None: not yet. -/
def State.pageLine (s : State) (t : Tx) (ctx page frame : Nat) (b : List Byte) : Option State :=
  let big := ((s.leafAt ctx page).map fun q => q.2.1).getD false
  let pa := frame * 65536 + (if big then t.addr % 2 ^ 28 else t.addr % 65536)
  let s := s.hbmWrite (s.keyOf (((s.ctx? ctx).map Context.kslot).getD 0)) pa (padTo 128 b)
  if s.fab.open_.any fun u => decide (u.what = t.what) then some s else s.migrated ctx page frame

/-- A transaction is no longer open. -/
def State.closeTx (s : State) (t : Tx) : State :=
  { s with fab := { s.fab with open_ := s.fab.open_.filter fun u => !(decide (u.dst = t.dst ∧ u.tid = t.tid)) } }

/-- Bytes that a transaction asks for. -/
def Tx.size (t : Tx) : Nat :=
  match t.atom with
  | some r => atomSize r
  | none => popc 128 t.mask.toNat

/-- A transaction ends with the bytes of its response, and for a write the time at which it is visible (R235). None: not yet. -/
def State.endTx (s : State) (t : Tx) (b : List Byte) (vis : Option Nat) : Option State :=
  let s := s.closeTx t
  match t.what with
  | .acc id => match s.acc? id with
    | none => some s
    | some a =>
      let s := match vis with
        | some v => s.raiseVis a.lane v
        | none => s
      some (s.doneAcc a (if t.kind = .read then s.overlay a (padTo t.size b) else padTo t.size b))
  | .page c p f => s.pageLine t c p f b
  | .agent who _ _ =>
    some { s with fab := { s.fab with rbuf := s.fab.rbuf ++ [⟨who, t.dst, t.addr, t.kind, padTo t.size b, vis.getD s.gtime⟩] } }
  | .line l => some (match s.home? l with
    | some h => s.setHome { h with rsent := false, rdir := true }
    | none => s)
  | .op id => some (match s.op? id with
    | some o => s.setOp { o with vis := max o.vis (vis.getD 0) }
    | none => s)
  | .none => some s

/-- DATALOSS is posted to a context: a range of lines by virtual address (R391, R392). -/
def State.dataLoss (s : State) (ctx va lines : Nat) : State := s.postSig ctx 6 (BitVec.ofNat 64 va) (BitVec.ofNat 32 (lines * 256))

/-- A transaction that cannot be carried out: zeros are read, nothing is written (R478). -/
def State.failTx (s : State) (t : Tx) : Option State := s.endTx t [] none

/-- An event that ends a transaction; one that cannot end yet comes again. -/
def State.ended (s : State) : Option State → Host.Outcome State Fault Refusal
  | some t => .next t
  | none => s.noEvent

/-- A response is in order: its transaction is open, and every flit of it has been sent. -/
def State.openTx (s : State) (peer tid : Nat) : Option Tx :=
  match s.fab.open_.find? fun t => decide (t.dst = peer ∧ t.tid = tid) with
  | none => none
  | some t => if s.fab.flits.any fun x => !x.sent && decide (x.tx.tid = tid ∧ x.peer = peer ∧ x.tx.kind = t.kind) then none else some t

/-- RDRSP (R466, R477): the bytes of a READ; for a request of the cache-locally mode, that no copy is given (R259). One without bytes
for a READ says that its bytes were lost past the retry limit: zeros, and DATALOSS (R478; log 61). -/
def execRdrsp (peer tid : Nat) (data : List Byte) (s : State) : Host.Outcome State Fault Refusal :=
  whenReady s fun s =>
    match s.openTx peer tid with
    | some t =>
      if t.kind = .read ∧ data = [] then
        s.ended (match s.txOwner t with
          | some (c, va) => (s.dataLoss c va 1).failTx t
          | none => s.failTx t)
      else if t.kind = .read ∨ t.kind = .msg then s.ended (s.endTx t data none)
      else s.noEvent
    | none => s.noEvent

/-- WRRSP: the write is visible 20 ns after its WCT (R234, R235). -/
def execWrrsp (peer tid : Nat) (wct : DWord) (s : State) : Host.Outcome State Fault Refusal :=
  whenReady s fun s =>
    match s.openTx peer tid with
    | some t => if t.kind = .write ∨ t.kind = .msg then s.ended (s.endTx t [] (some (wct.toNat + 20))) else s.noEvent
    | none => s.noEvent

/-- ATRSP: an atomic's old bytes and its WCT (R233 to R235). -/
def execAtrsp (peer tid : Nat) (data : List Byte) (wct : DWord) (s : State) : Host.Outcome State Fault Refusal :=
  whenReady s fun s =>
    match s.openTx peer tid with
    | some t => if t.kind = .atomic then s.ended (s.endTx t data (some (wct.toNat + 20))) else s.noEvent
    | none => s.noEvent

/-- ACCESS is posted to the context a transaction or access acts for, with code 4 (R478). -/
def State.postAccess (s : State) (ctx va : Nat) : State := s.postSig ctx 2 (BitVec.ofNat 64 va) 4

/-- NAK: a completer abort (R478). -/
def execNak (peer tid : Nat) (_reason : Byte) (s : State) : Host.Outcome State Fault Refusal :=
  whenReady s fun s =>
    match s.openTx peer tid with
    | none => s.noEvent
    | some t =>
      let u := { s with discarded := s.discarded + 1 }
      let u := match s.txOwner t with
        | some (c, va) => u.postAccess c va
        | none => u
      -- a strip that met a translation fault at its receiver ends its operation FAULTED (R500)
      s.ended (match t.what with
        | .op id => match u.op? id with
          | some o => some ((u.closeTx t).failOp o 2)
          | none => some (u.closeTx t)
        | _ => u.failTx t)

/-! ### Link control (R470, R475, R476) -/

/-- LINK_CONTROL: flits below the acknowledged counter are done with, and those asked for again are sent again, unless their retries are
spent; a bank with nothing outstanding that is not the current one retires (R470, R475). -/
def execLinkControl (peer : Nat) (bank : Bool) (acked : Nat) (resend : List Nat) (s : State) : Host.Outcome State Fault Refusal :=
  whenReady s fun s =>
    let mine := fun (x : Flit) => decide (x.peer = peer ∧ x.bank = bank) && x.sent
    let left := s.fab.flits.filter fun x => !(mine x && decide (x.ctr < acked))
    let again := left.map fun (x : Flit) =>
      if mine x && resend.contains x.ctr then
        { x with tries := x.tries + 1, sent := decide (s.fab.retry < x.tries + 1) }
      else x
    .next ({ s with fab := { s.fab with flits := again } }.retireBank peer)

/-- FLIT_TIMEOUT: a flit that has not come, or whose tag fails, is asked for again (R470). -/
def execFlitTimeout (peer : Nat) (bank : Bool) (ctr : Nat) (s : State) : Host.Outcome State Fault Refusal :=
  whenReady s fun s =>
    match lookupBy Assoc.peer peer s.fab.assocs with
    | some a => if (a.bank bank).live then .next (s.send (.linkCtl peer bank ctr true)) else s.noEvent
    | none => s.noEvent

/-! ### The cache-locally mode (R246, R248, R259, R477) -/

/-- Message types by their numbers (R248). -/
def MType.ofCode : Nat → MType
  | 0 => .gets | 1 => .getm | 2 => .upgr | 3 => .puts | 4 => .putm | 5 => .wbdata | 6 => .atom | 7 => .ack
  | 8 => .fwds | 9 => .fwdm | 10 => .inv | 11 => .wbgrant | 12 => .datas | 13 => .datam | 14 => .update | _ => .timer

/-- Protocol messages of this device's homes for peers leave as MSG transactions; those that ask for an answer stay until it comes
(R259, R477). -/
def State.peerOut (s : State) : State :=
  (s.msgs.filter fun f => match f.msg.dst with
    | .peer _ => !s.fab.told.contains f.msg.id
    | _ => false).foldl (fun (s : State) f =>
    match f.msg.dst, s.home? f.msg.line with
    | .peer p, some h => match h.loc with
      | .hbm pa =>
        let s := s.sendProto p f.ty pa f.msg.mask f.msg.data f.msg.exp h.slot
        match f.ty with
        | .inv | .update | .fwds | .fwdm => { s with fab := { s.fab with told := s.fab.told ++ [f.msg.id] } }
        | _ => s.takeMsg f.msg
      | _ => s
    | _, _ => s) s

/-- A peer's line that this device holds. -/
def State.remoteLine (s : State) (p a : Nat) : Option HomeLine :=
  s.homes.find? fun h => decide (h.loc = .peer p (a / 128 * 128))

/-- A message of a remote home arrives for this device as the holder of its line (R477). None: not now. -/
def State.asHolder (s : State) (ty : MType) (t : FabTx) : Option State :=
  match s.remoteLine t.src t.addr with
  | none => some (match ty with
    | .inv | .update => s.sendProto t.src .ack t.addr 0 [] 0 0
    | .fwds | .fwdm => s.sendProto t.src .wbdata t.addr 0 [] 0 0
    | _ => s)
  | some h =>
    let mine := fun (s : State) => { s with fab := { s.fab with open_ := s.fab.open_.filter fun (u : Tx) => decide (u.what ≠ TxFor.line h.line) } }
    match ty with
    | .datas => some ((mine s).setHome { h with rdata := padTo 128 t.data, rwrite := false, rsent := false, slot := t.slot, rexp := t.exp })
    | .datam => some ((mine s).setHome { h with rdata := padTo 128 t.data, rwrite := true, rsent := false, slot := t.slot, rexp := t.exp })
    | .inv => (s.emptyLine h).map fun s =>
        match s.home? h.line with
        | none => s
        | some h' =>
          let s := if h.rwrite then s.sendProto t.src .wbdata t.addr (BitVec.allOnes 128) h'.rdata 0 0 else s
          (s.setHome { h' with rdata := [], rwrite := false, rexp := 0 }).sendProto t.src .ack t.addr 0 [] 0 0
    | .fwds | .fwdm => (s.emptyLine h).map fun s =>
        match s.home? h.line with
        | none => s
        | some h' =>
          let m : BitVec 128 := if h.rwrite then BitVec.allOnes 128 else 0
          let keep := decide (ty = .fwds)
          (s.setHome { h' with rdata := if keep then h'.rdata else [], rwrite := false, rexp := if keep then h'.rexp else 0 }).sendProto
            t.src .wbdata t.addr m h'.rdata 0 0
    | .update =>
      let s := if h.rdata = [] then s else s.setHome { h with rdata := mergeMask t.mask.toNat 0 h.rdata t.data }
      let s := { s with copies := s.copies.map fun (c : Copy) =>
                          if c.line = h.line then { c with data := mergeMask t.mask.toNat 0 c.data t.data } else c,
                        roCopies := s.roCopies.filter fun c => decide (c.line ≠ h.line) }
      some (s.sendProto t.src .ack t.addr 0 [] 0 0)
    | _ => some s

/-- The flits of a transaction that has come in are counted and acknowledged (R470). -/
def State.came (s : State) (t : FabTx) : State :=
  let r := s.assoc t.src
  let b := r.2.bank r.2.kg
  let b := { b with rxc := b.rxc + flitsOf t.data.length }
  { r.1 with fab := r.1.fab.setAssoc (r.2.setBank r.2.kg b) }.send (.linkCtl t.src r.2.kg b.rxc false)

/-- A response to a transaction queues for its slots (R466). -/
def State.respond (s : State) (t : FabTx) (k : TxKind) (data : List Byte) (wct : Nat) : State :=
  s.queueFlits { tid := t.tid, dst := t.src, kind := k, addr := t.addr, mask := 0, data := data, atom := none, cls := 0, wct := wct, what := .none }

/-- A request that no inbound entry holds: a NAK, and it is counted (R218, R478). -/
def State.refuseIn (s : State) (t : FabTx) : State :=
  { (s.respond t .nak [] 0) with discarded := s.discarded + 1 }

/-- A line of a slice's remote table, which has 4,096 of up to four peers each, can take one more reader (R259). -/
def State.remoteRoom (s : State) (h : HomeLine) (p : Nat) : Bool :=
  h.peers.contains p ||
    (if h.peers = [] then
      decide ((s.homes.filter fun x => decide (x.peers ≠ [] ∧ sliceOf x.line = sliceOf h.line)).length < 4096)
    else decide (h.peers.length < 4))

/-- A message of a peer arrives at a home of this device: the peer stands as one more cluster (R246, R259, R477). A line of a slot 6 to 15
or of a scratchpad window, and a reader that the remote table has no room for, are given bytes and no copy (R256, R259); a line whose
protocol writes at its home gives readable copies only. None: not now. -/
def State.asHome (s : State) (ty : MType) (t : FabTx) : Option State :=
  match s.inEntry t.addr with
  | none => some (if ty = .ack then s else s.refuseIn t)
  | some e =>
    let x := s.inXl e (t.addr / 128 * 128)
    let s := s.ensureHome x.line x.lineLoc x.key none
    match s.home? x.line with
    | none => none
    | some h =>
      let me : Agent := .peer t.src
      let m : Msg := { plainMsg x.line me .home with data := padTo 128 t.data, mask := t.mask }
      match ty with
      | .gets | .getm | .upgr =>
        if 6 ≤ h.slot ∨ !s.remoteRoom h t.src ∨ (s.window? x.cctx x.cva).isSome then
          (s.mLoad x 128 .load (.peer t.src)).map fun p => p.1.respond t .rdrsp p.2 0
        else
          match s.logAcc x.line (if ty = .gets then .load else .store) (.peer t.src) with
          | none => none
          | some s => s.homeRecv (if (s.table h.slot).cwrite = 0 then .gets else ty) { m with mask := BitVec.allOnes 128 }
      | .ack => some ((s.outsideAnswer .ack m).getD s)
      | .wbdata =>
        match s.outsideAnswer .wbdata m with
        | some s => some s
        | none =>
          if h.txn.isSome || h.queue != [] then none
          else
            match s.homeRecv .putm m with
            | none => none
            | some s =>
              let s := { s with msgs := s.msgs.filter fun f => !(decide (f.msg.line = x.line ∧ f.msg.dst = me ∧ f.ty = MType.wbgrant)) }
              s.homeRecv .wbdata m
      | .atom => match t.atom with
        | some r => (s.mAtomic (s.inXl e t.addr) r .atomic (.peer t.src)).map fun q => q.1.respond t .atrsp q.2.1 q.2.2
        | none => some s
      | _ => s.homeRecv ty m

/-! ### Transactions of peers (R218, R232, R233, R466) -/

/-- A transaction that arrives: relayed when it is for another device, else taken in and served; `none` of the service: not now. -/
def arrive (k : TxKind) (t : FabTx) (serve : State → Option State) (s : State) : Host.Outcome State Fault Refusal :=
  whenReady s fun s =>
    if t.dst ≠ s.chip then .next (s.relayIn k t)
    else match serve s with
      | some s => .next (s.came t)
      | none => s.later (s.nudgeAt t.addr)

/-- Runs of ones in a byte mask: where each begins and how long it is. -/
def maskRuns : Nat → Nat → Nat → List (Nat × Nat)
  | 0, _, _ => []
  | f + 1, i, m =>
    if 128 ≤ i then []
    else if bit m i then
      let n := ((List.range (128 - i)).find? fun j => !bit m (i + j)).getD (128 - i)
      (i, n) :: maskRuns f (i + n) m
    else maskRuns f (i + 1) m

/-- Bytes of a line under a mask, in ascending order. -/
def underMask (m : Nat) (line : List Byte) : List Byte := (maskRuns 200 0 m).flatMap fun r => (line.drop r.1).take r.2

/-- FABRIC_READ: served at the line's home, under its protocol (R218, R466). -/
def execFabricRead (t : FabTx) (s : State) : Host.Outcome State Fault Refusal :=
  arrive .read t (fun s =>
    match s.inEntry t.addr with
    | none => some (s.refuseIn t)
    | some e =>
      let x := s.inXl e (t.addr / 128 * 128)
      match s.mLoad x 128 .load (.peer t.src) with
      | some (s, b) => some (s.respond t .rdrsp (underMask t.mask.toNat b) 0)
      | none => none) s

/-- FABRIC_WRITE: performed at the home; the response carries the WCT (R234, R466). -/
def execFabricWrite (t : FabTx) (s : State) : Host.Outcome State Fault Refusal :=
  arrive .write t (fun s =>
    match s.inEntry t.addr with
    | none => some (s.refuseIn t)
    | some e =>
      let r := (maskRuns 200 0 t.mask.toNat).foldl (fun (a : Option (State × Nat × Nat)) q =>
        a.bind fun (a : State × Nat × Nat) =>
          (a.1.mStore (a.1.inXl e (t.addr / 128 * 128 + q.1)) ((t.data.drop a.2.1).take q.2) .store (.peer t.src)).map fun p =>
            (p.1, a.2.1 + q.2, max a.2.2 p.2)) (some (s, 0, 0))
      r.map fun q => q.1.respond t .wrrsp [] q.2.2) s

/-- FABRIC_ATOMIC: performed at the home, serialised there (R233, R466). -/
def execFabricAtomic (t : FabTx) (s : State) : Host.Outcome State Fault Refusal :=
  arrive .atomic t (fun s =>
    match s.inEntry t.addr, t.atom with
    | none, _ => some (s.refuseIn t)
    | some _, none => some { s with fab := { s.fab with dropped := s.fab.dropped + 1 } }
    | some e, some r => (s.mAtomic (s.inXl e t.addr) r .atomic (.peer t.src)).map fun q => q.1.respond t .atrsp q.2.1 q.2.2) s

/-- FABRIC_MSG: classes 0 to 15 are the messages of R248, 16 the halo engine's strips, 17 the service cores' chip groups (R466; log 61,
log 63); any other class is discarded and counted. -/
def execFabricMsg (t : FabTx) (s : State) : Host.Outcome State Fault Refusal :=
  arrive .msg t (fun s =>
    if t.cls < 8 then s.asHome (MType.ofCode t.cls) t
    else if t.cls < 16 then s.asHolder (MType.ofCode t.cls) t
    else if t.cls = 16 then
      match s.haloMsg t with
      | some (s, some w) => some (s.respond t .wrrsp [] w)
      | some (s, none) => some (s.respond t .nak [] 0)
      | none => none
    else if t.cls = 17 then s.groupMsg t.src t.mask t.data
    else some { s with fab := { s.fab with dropped := s.fab.dropped + 1 } }) s

/-! ### Retry limit (R391, R478) -/

/-- A pair is unreachable until FABCFG is loaded again: what its homes here wait for counts as acknowledged, and the lines of its homes are
dropped, with DATALOSS for those held writable (R478). -/
def State.cutPeer (s : State) (p : Nat) : State :=
  let s := { s with fab := { s.fab with dead := if s.fab.dead.contains p then s.fab.dead else s.fab.dead ++ [p] } }
  let s := (s.msgs.filter fun f => decide (f.msg.dst = .peer p)).foldl (fun (s : State) f =>
    let ack := decide (f.ty = .inv ∨ f.ty = .update)
    match s.outsideAnswer (if ack then .ack else .wbdata) (plainMsg f.msg.line (.peer p) .home) with
    | some s => s
    | none => s.takeMsg f.msg) s
  let s := { s with homes := s.homes.map fun (h : HomeLine) => { h with peers := h.peers.filter (· ≠ p) } }
  (s.homes.filter fun h => match h.loc with
    | .peer q _ => decide (q = p)
    | _ => false).foldl (fun (s : State) h =>
      let s := if h.rwrite then s.dataLoss h.line.ctx (h.line.line * 128) 1 else s
      let s := { s with copies := s.copies.filter fun c => decide (c.line ≠ h.line), roCopies := s.roCopies.filter fun c => decide (c.line ≠ h.line),
                        msgs := s.msgs.filter fun f => decide (f.msg.line ≠ h.line), pins := s.pins.filter fun p => decide (p.line ≠ h.line),
                        accs := s.accs.map fun (a : Access) =>
                          if !a.done && a.xl.any (fun (x : Xl) => decide (x.line = h.line)) then { a with sent := false, xl := none } else a,
                        fab := { s.fab with open_ := s.fab.open_.filter fun (u : Tx) => decide (u.what ≠ TxFor.line h.line) } }
      { s with homes := eraseBy HomeLine.line h.line s.homes }) s

/-- An event of an error class is counted (R10, R391). -/
def State.countErr (s : State) (n : Nat) : State :=
  { s with errCount := upsert Prod.fst (n, ((lookupBy Prod.fst n s.errCount).elim 0 Prod.snd) + 1) s.errCount }

/-- A transaction lost with its flit: nothing of it is performed, and DATALOSS names the range concerned, that of a halo strip's segment
too (R10, R478). None: not yet. -/
def State.loseTx (s : State) (t : Tx) : Option State :=
  let lost := match s.txOwner t with
    | some (c, va) => s.dataLoss c va 1
    | none => s
  match t.kind with
  | .msg => if t.cls < 16 then some (s.cutPeer t.dst) else lost.failTx t
  | .read | .write | .atomic => lost.failTx t
  | _ => some s

/-- RETRY_LIMIT: a flit that has spent its retries is dropped with its transaction, and counted (R391, R470, R478). -/
def execRetryLimit (peer : Nat) (bank : Bool) (ctr : Nat) (s : State) : Host.Outcome State Fault Refusal :=
  whenReady s fun s =>
    match s.fab.flits.find? fun x => decide (x.peer = peer ∧ x.bank = bank ∧ x.ctr = ctr ∧ s.fab.retry < x.tries) with
    | none => s.noEvent
    | some x =>
      let u := { s with fab := { s.fab with
        flits := s.fab.flits.filter (fun y => !(decide (y.peer = peer ∧ y.tx = x.tx))), dropped := s.fab.dropped + 1 } }
      match (u.countErr 11).loseTx x.tx with
      | some u => .next (u.retireBank peer)
      | none => s.noEvent

end Sys2Proof.Machine
end

