-- ==== Sys2Proof/Machine/Outside.lean ====
section
/-! DEFINITION. Accesses of the host and completions from it (R218, R233 to R235, R257, R259, R452, R453, R478). -/

namespace Sys2Proof.Machine

/-- Bytes of device memory read or written for the host, line by line. `none` inside: not now; `none` outside: an address that no inbound
entry holds (R218, R453). -/
def State.hostPart (s : State) (pa n : Nat) (data : Option (List Byte)) : Option (Option (State × List Byte)) :=
  match s.inEntry pa with
  | none => none
  | some e =>
    let x := s.inXl e pa
    some (match data with
      | none => s.mLoad x n .load .host
      | some b => (s.mStore x b .store .host).map fun p => (p.1, []))

/-- The lines of an access in turn. -/
def State.hostParts (s : State) (pa : Nat) (data : Option (List Byte)) : List (Nat × Nat) → Option (Option (State × List Byte))
  | [] => some (some (s, []))
  | q :: qs =>
    match s.hostPart q.1 q.2 (data.map fun b => (b.drop (q.1 - pa)).take q.2) with
    | none => none
    | some none => some none
    | some (some (s, b)) =>
      match State.hostParts s pa data qs with
      | some (some (s, c)) => some (some (s, b ++ c))
      | r => r

/-- The host keeps a copy of the lines it has read: their homes record it (R257, R259). -/
def State.hostKeeps (s : State) (l : List (Nat × Nat)) : State :=
  l.foldl (fun (s : State) q =>
    match (s.inEntry q.1).map fun e => (s.inXl e q.1).line with
    | none => s
    | some n => match s.home? n with
      | some h => s.setHome { h with host := true }
      | none => s) s

/-- A line that has to come back from a peer or the host before it can be read or written is asked for. -/
def State.hostChase (s : State) (l : List (Nat × Nat)) : State :=
  l.foldl (fun (s : State) q => s.nudgeAt q.1) s

/-- CXL_MEM_REQUEST: the window is served through the inbound map only; anything else receives a completer abort, and is counted
(R218, R453). -/
def execCxlMemRequest (r : PhysReq) (s : State) : Host.Outcome State Fault Refusal :=
  whenReady s fun s =>
    if s.personality = .rootComplex then .next (s.send (.unsupported r.tag))
    else
      let n := match r.data with
        | some b => b.length
        | none => r.size
      let l := lineParts (n / 128 + 2) r.pa n
      match s.hostParts r.pa r.data l with
      | none => .next ({ s with discarded := s.discarded + 1 }.send (.abort r.tag))
      | some none => s.later (s.hostChase l)
      | some (some (s, b)) => .next ((if r.keep then s.hostKeeps l else s).send (.answer r.tag b))

/-- The AtomicOps that the device completes: FetchAdd and Swap of 4 and 8 bytes, CAS of 4, 8 and 16 (R452). -/
def atomicOpOk : AtomReq → Bool
  | .rmw .add .ui32 _ | .rmw .add .ui64 _ | .rmw .exch .ui32 _ | .rmw .exch .ui64 _ => true
  | .cas n _ _ => n == 4 || n == 8 || n == 16
  | _ => false

/-- ATOMICOP: performed at the home (R233, R452). -/
def execAtomicop (r : PhysReq) (s : State) : Host.Outcome State Fault Refusal :=
  whenReady s fun s =>
    match r.atom with
    | none => .next (s.send (.unsupported r.tag))
    | some q =>
      if s.personality = .rootComplex ∨ !atomicOpOk q ∨ r.pa % atomSize q ≠ 0 then .next (s.send (.unsupported r.tag))
      else
        match s.inEntry r.pa with
        | none => .next ({ s with discarded := s.discarded + 1 }.send (.abort r.tag))
        | some e => match s.mAtomic (s.inXl e r.pa) q .atomic .host with
          | some (s, b, _) => .next (s.send (.answer r.tag b))
          | none => s.later (s.hostChase [(r.pa, atomSize q)])

/-- An access of a fibre that its own request carries to the host: its page is in direct mode there, and its order lets it go. -/
def State.atHost (s : State) (a : Access) : Option Xl :=
  match a.xl with
  | none => none
  | some x => match x.loc, x.direct with
    | .host _, true => if a.done ∨ a.sq.isSome ∨ !s.orderOk a ∨ s.lineBusy a then none else some x
    | _, _ => none

/-- HOST_COMPLETION: the completion of a write to host memory arrives: it is visible (R235). -/
def execHostCompletion (acc : Nat) (s : State) : Host.Outcome State Fault Refusal :=
  whenReady s fun s =>
    match (s.acc? acc).bind fun a => (s.atHost a).map fun x => (a, x) with
    | none => s.noEvent
    | some (a, x) =>
      match a.req with
      | none => s.noEvent
      | some r => match s.mAtomic x r a.kind.xkind (.dev a.cluster) with
        | some (s, o, _) => .next ((s.seenNow a.lane).doneAcc a o)
        | none => s.noEvent

/-- COMPLETER_ABORT: the host has refused a request: a read gives zeros, a write has no effect, an atomic gives zeros; the event is
counted and ACCESS posted with code 4 (R478). -/
def execCompleterAbort (acc : Nat) (s : State) : Host.Outcome State Fault Refusal :=
  whenReady s fun s =>
    match (s.acc? acc).bind fun a => (s.atHost a).map fun _ => a with
    | none => s.noEvent
    | some a =>
      let s := { s with discarded := s.discarded + 1 }
      .next ((s.postAccess a.ctx a.va).doneAcc a (List.replicate a.size 0))

end Sys2Proof.Machine
end

