-- ==== Sys2Proof/Machine/Errors.lean ====
section
/-! DEFINITION. Hardware errors (R10, R11, R391, R392). -/

namespace Sys2Proof.Machine

/-- The number of a location class, by which its events are counted (R391). -/
def errClass : ErrLoc → Nat
  | .cleanCopy .. => 0 | .dirtyCopy .. => 1 | .roCopy .. => 2 | .l2Clean _ => 3 | .l2Dirty _ => 4 | .hbmLine _ => 5 | .scratch .. => 6
  | .window .. => 7 | .tile .. => 8 | .heldStore _ => 9 | .directory _ => 10 | .flit .. => 11

/-- CORRECTABLE_ERROR: corrected and counted (R10). -/
def execCorrectableError (_l : ErrLoc) (s : State) : Host.Outcome State Fault Refusal :=
  whenReady s fun s => .next { s with correctable := s.correctable + 1 }

/-- DATALOSS in a rope's own memory: scratchpad (1), window register (2), tile (3), with the rope's slot and the offset or number
(R392). -/
def State.ropeLoss (s : State) (r : RopeId) (space num : Nat) : State :=
  match s.rope? r with
  | some rp => s.postSig rp.ctx 6 (BitVec.ofNat 64 (r.slot % 128 + num % 2 ^ 32 * 2 ^ 32)) (BitVec.ofNat 32 (space + 256))
  | none => s

/-- The zeros of a line. -/
def zeroLine : List Byte := List.replicate 128 0

/-- An uncorrectable error's effect; none where nothing stands at the location (R391). -/
def State.strike (s : State) : ErrLoc → Option State
  | .cleanCopy c l => match s.copy? c l, s.home? l with
    | some x, some h =>
      -- fetched again as a load would: from the home, or from an owner whose bytes are newer
      let held := s.copies.find? fun y => decide (y.line = l ∧ some (Agent.cluster y.cluster) = h.owner ∧ y.slot ≠ 5 ∧ h.hstate ≠ 3)
      let data := match held with
        | some y => mergeMask y.dirty.toNat 0 (s.homeBytes h) y.data
        | none => s.homeBytes h
      if x.dirty = 0 then some (s.setCopy { x with data := data }) else none
    | _, _ => none
  | .dirtyCopy c l => match s.copy? c l with
    | some x =>
      if x.dirty = 0 then none
      else
        let d : BitVec 128 := if x.slot = 0 ∧ x.cst = 3 then x.dirty else BitVec.allOnes 128
        some ((s.setCopy { x with data := zeroLine, dirty := d }).dataLoss l.ctx (l.line * 128) 1)
    | none => none
  | .roCopy c l => if s.roCopies.any fun r => decide (r.cluster = c ∧ r.line = l) then some (s.dropRo c l) else none
  | .l2Clean l => match s.home? l with
    | some h => match h.loc with
      | .hbm pa => if h.dirty then none else some (s.setHome { h with data := s.hbmRead (s.keyOf h.key) pa 128 })
      | .host _ => none
      | .peer _ _ => if h.rdata = [] ∨ h.rwrite then none else (s.emptyLine h).map fun s => ((s.home? l).map s.dropRemote).getD s
    | none => none
  | .l2Dirty l => match s.home? l with
    | some h =>
      if (h.isLocal && h.dirty) || (!h.isLocal && h.rwrite) then some ((s.homePut h (2 ^ 128 - 1) zeroLine).dataLoss l.ctx (l.line * 128) 1)
      else none
    | none => none
  | .hbmLine pa =>
    if !hbmOk pa then none
    else
      let a := pa / 128 * 128
      let s := s.hbmWrite (s.tagOf a) a zeroLine
      some (match s.inb? (a / 65536) with
        | some e => s.dataLoss e.ctx (e.page * 65536 + a % 65536) 1
        | none => s)
  | .scratch r off => match s.rope? r with
    | some rp => some ((s.setRope (rp.spadWrite (off / 128 * 128) zeroLine)).ropeLoss r 1 (off / 128 * 128))
    | none => none
  | .window l reg =>
    let f := s.fibre (laneWho l) l.lane
    if f.win.length ≤ reg then none
    else some ((s.setFibre (laneWho l) l.lane { f with win := f.win.set reg 0 }).ropeLoss l.rope 2 reg)
  | .tile r t off => match s.rope? r with
    | some rp =>
      if rp.tiles.length ≤ t then none
      else some ((s.setRope { rp with tiles := rp.tiles.set t (cellsWrite (rp.tiles.getD t []) (off / 128 * 128) zeroLine) }).ropeLoss r 3 t)
    | none => none
  | .heldStore acc => match s.acc? acc with
    | some a => if a.sq.isSome then some ((s.failAcc a).dataLoss a.ctx a.va 1) else none
    | none => none
  | .directory l => match s.home? l with
    | some h =>
      let owned := s.copies.any fun x => decide (x.line = l) && (s.table h.slot).writes x.cst
      some (s.setHome (if owned then h else { h with ptrs := [], coarse := some (2 ^ 45 - 1) }))
    | none => none
  | .flit peer tid => match s.fab.open_.find? fun t => decide (t.dst = peer ∧ t.tid = tid) with
    | some t =>
      let s := { s with fab := { s.fab with flits := s.fab.flits.filter fun y => !(decide (y.peer = peer ∧ y.tx = t)), dropped := s.fab.dropped + 1 } }
      s.loseTx t
    | none => none

/-- UNCORRECTABLE_ERROR (R10, R11, R391, R392). -/
def execUncorrectableError (l : ErrLoc) (s : State) : Host.Outcome State Fault Refusal :=
  whenReady s fun s =>
    match s.strike l with
    | some s => .next (s.countErr (errClass l))
    | none => s.noEvent

end Sys2Proof.Machine
end

