-- ==== Sys2Proof/Machine/Boot.lean ====
section
/-! DEFINITION. Power, boot, heat and throttling (R4, R5, R195, R197, R225, R378, R389, R436, R437, R451, R454, R455). -/

namespace Sys2Proof.Machine

/-- The device after a reset: nothing of it is kept but the model's own fields, what lies outside it, and the numbers of its boots and
receipts (R454; log 2). It has read its fuses and passed its self-test: WAITFW. -/
def State.afterReset (s : State) (p : Personality) : State :=
  { State.reset with
    personality := p, hostUp := p == .endpoint, boot := .waitfw, bootNonce := s.bootNonce, receipts := s.receipts, host := s.host,
    chip := s.chip, sched := s.sched, ticks := s.ticks, picks := s.picks, inputs := s.inputs, freeCtr := s.freeCtr, out := s.out }

/-- POWER_UP: the fuse, once blown, overrides the strap (R451). -/
def execPowerUp (strap : Personality) (fuse : Option Personality) (s : State) : Host.Outcome State Fault Refusal :=
  .next (s.afterReset (fuse.getD strap))

/-- RESET: the personality stays (R451, R454). Before power-up there is nothing to reset. -/
def execReset (s : State) : Host.Outcome State Fault Refusal :=
  if s.boot = .reset then s.noEvent else .next (s.afterReset s.personality)

/-- The GO write in WAITFW: the image is fetched, and the device enters VERIFY (R454, R455). -/
def State.goNow (s : State) (bytes : List Byte) (img : Option FwImage) : State :=
  { s with boot := .verify, bootErr := 0, fwImage := img, fwBytes := bytes }

/-- GO: ignored outside WAITFW, and where the firmware comes over the sideband port (R451, R455). -/
def execGo (img : Option FwImage) (s : State) : Host.Outcome State Fault Refusal :=
  if s.boot = .reset then s.noEvent
  else if s.boot ≠ .waitfw ∨ s.personality = .rootComplex then .next s
  else .next (s.goNow (if img.isSome ∧ s.fwlen.toNat ≤ 2 ^ 26 then cellsRead s.host (s.fwaddr.toNat % 2 ^ 52) s.fwlen.toNat else []) img)

/-- FW_MCTP_MESSAGE: in root-complex mode the board's controller sends the three values and the image, 4 KiB a message (R455). -/
def execFwMctpMessage (m : Mctp) (img : Option FwImage) (s : State) : Host.Outcome State Fault Refusal :=
  if s.boot = .reset then s.noEvent
  else if s.boot ≠ .waitfw ∨ s.personality = .endpoint then .next s
  else match m with
    | .addr v => .next { s with fwaddr := v }
    | .len v => .next { s with fwlen := v, fwBytes := [] }
    | .image b => .next (if b.length ≤ 4096 then { s with fwBytes := s.fwBytes ++ b } else s)
    | .go => .next (s.goNow s.fwBytes (if s.fwBytes.length = s.fwlen.toNat then img else none))

/-- VERIFY_DONE: INIT, or WAITFW with TOOBIG, FETCH or BADSIG (R437, R454, R455). -/
def execVerifyDone (s : State) : Host.Outcome State Fault Refusal :=
  if s.boot ≠ .verify then s.noEvent
  else
    let back := fun (e : Nat) => { s with boot := .waitfw, bootErr := e, fwImage := none, fwBytes := [] }
    if s.fwlen.toNat = 0 ∨ 2 ^ 26 < s.fwlen.toNat then .next (back 2)
    else match s.fwImage with
      | none => .next (back 3)
      | some i => .next (if i.sigOk then { s with boot := .init } else back 1)

/-- The supervisor strands stand at the image's entry header, each with its SVPAGE value in w0:w1 (R378). -/
def supCores (entry : DWord) : List Core :=
  (List.range 2880).map fun n => { Core.init n with sv := Strand.sup entry (Config.svPage n) }

/-- INIT_DONE: HBM is zeros under slot 0's fresh key, and the supervisor code stands in its space; READY, or HALTED on a training failure
(R225, R378, R454). -/
def execInitDone (hbmOk opticsOk : Bool) (s : State) : Host.Outcome State Fault Refusal :=
  if s.boot ≠ .init then s.noEvent
  else if !hbmOk then .next { s with boot := .halted, bootErr := 4 }
  else if !opticsOk then .next { s with boot := .halted, bootErr := 5 }
  else
    match s.fwImage with
    | none => s.noEvent
    | some i => .next { s with
        boot := .ready, hbm := [], hbmKey := [], keys := [⟨0, .loaded, 0, 0⟩], bootNonce := s.bootNonce + 1, gtime := 0, rseq := 0, bseq := 0,
        prevDig := [], lastPrev := [], batch := none, batches := [],
        svMem := if i.svCode = [] then [] else cellsWrite [] i.svEntry.toNat i.svCode,
        cores := if i.svCode = [] then [] else supCores i.svEntry }

/-- REGISTER_WRITE: the boot registers take a value in WAITFW only; breakpoint CSRs keep their writable bits (R389, R455). The host
masks an MSI-X vector with bit 0 of its control word; a message that stands pending goes out when the mask is taken away (R461; log 77). -/
def execRegisterWrite (r : RegName) (v : DWord) (s : State) : Host.Outcome State Fault Refusal :=
  if s.boot = .reset then s.noEvent
  else
    let boot := decide (s.boot = .waitfw ∧ s.personality = .endpoint)
    match r with
    | .fwaddr => .next (if boot then { s with fwaddr := v } else s)
    | .fwlen => .next (if boot then { s with fwlen := v.setWidth 32 } else s)
    | .bootctl => .next s
    | .msixCtl n =>
      if v.getLsbD 0 then .next { s with msixOpen := s.msixOpen.filter (· ≠ n) }
      else
        let t := { s with msixOpen := (n :: s.msixOpen).eraseDups, msixPend := s.msixPend.filter (· ≠ n) }
        .next (if s.msixPend.contains n then t.send (.msix n) else t)
    | .bka c n => if s.boot ≠ .ready then .next s else
      let k := s.core c
      .next (s.setCore { k with bka := k.bka.set n.toNat (v &&& 0x003FFFFFFFFFFFFC) })
    | .bkc c n => if s.boot ≠ .ready then .next s else
      let k := s.core c
      .next (s.setCore { k with bkc := k.bkc.set n.toNat (v.setWidth 32 &&& 0x0007FFC1) })

/-- THERMAL_THROTTLE: a sensor reaches 105 °C, or all are below it again (R5, R197). -/
def execThermalThrottle (hot : Bool) (s : State) : Host.Outcome State Fault Refusal :=
  if s.boot = .reset then s.noEvent else .next { s with hot := hot }

/-- THERMAL_STOP: every coil of every context is stopped to be saved (R5, R393). -/
def execThermalStop (s : State) : Host.Outcome State Fault Refusal :=
  whenReady s fun s =>
    .next ((s.ctxs.flatMap fun c => s.coils c.no).foldl (fun (s : State) k => s.stopCoil k true) { s with thermal := true, hot := true })

/-- After a thermal stop: what cannot be saved is lost, and once nothing is resident the device is HALTED (R5, R401, R454). -/
def State.thermalSettle (s : State) : State :=
  if !s.thermal ∨ s.boot ≠ .ready then s
  else
    let s := ((s.stops.filter Stop.full).map Stop.ctx).foldl State.killCtx s
    if s.ropes = [] then { s with boot := .halted, bootErr := 6 } else s

/-- THROTTLE_UPDATE: the issue share falls or rises by one; the estimate is in mW (R4, R197). -/
def execThrottleUpdate (estimate : Nat) (s : State) : Host.Outcome State Fault Refusal :=
  whenReady s fun s =>
    let s := { s with power := estimate }
    .next (if s.hot ∨ 9700000 < estimate then { s with share := max 2 (s.share - 1) }
      else if estimate < 9500000 then { s with share := min 16 (s.share + 1) }
      else s)

/-- BUDGET_WINDOW: a class's count of the last completed window, whatever it is (R195; log 76). -/
def execBudgetWindow (ctx cls : Nat) (k : BudgetKind) (v : Nat) (s : State) : Host.Outcome State Fault Refusal :=
  whenReady s fun s =>
    match s.ctx? ctx with
    | none => s.noEvent
    | some c => match c.budgets[cls]? with
      | none => s.noEvent
      | some b =>
        let b := match k with
          | .hbm => { b with hbmC := v }
          | .power => { b with powC := v }
        .next (s.setCtx { c with budgets := c.budgets.set cls b })

/-- FATAL_SERVICE_CORE_FAULT: READY to HALTED (R454). -/
def execFatalServiceCoreFault (s : State) : Host.Outcome State Fault Refusal :=
  whenReady s fun s => .next { s with boot := .halted }

end Sys2Proof.Machine
end

