-- ==== Sys2Proof/Machine/Compare.lean ====
section
/-! DEFINITION. Group 3, comparison and predicates (R104 to R110). -/

namespace Sys2Proof.Machine

/-- ISETP (R105). -/
def execIsetp (g : Guard) (cc : Cc) (t : IType) (m : AccMode) (p : Num4) (a b : Src) (s : State) :
    Host.Outcome State Fault Refusal :=
  issue (aluIss g false none [(.i t, a), (.i t, b)])
    (fun _ _ fb => .ok (fb.setPred p (accum m (fb.pred p) (vIcmp t cc (fb.src (.i t) a) (fb.src (.i t) b))))) s
/-- FSETP (R105, R106); the rounding code is ignored. -/
def execFsetp (g : Guard) (cc : Cc) (_rc : Rc) (m : AccMode) (p : Num4) (a b : Src) (s : State) :
    Host.Outcome State Fault Refusal := fcmp g .f32 .f32 cc m p a b s
/-- DSETP (R105, R106); the rounding code is ignored. -/
def execDsetp (g : Guard) (cc : Cc) (_rc : Rc) (m : AccMode) (p : Num4) (a b : Src) (s : State) :
    Host.Outcome State Fault Refusal := fcmp g .f64 .f64 cc m p a b s
/-- PLOP (R107). -/
def execPlop (g : Guard) (p pa pb pc : Num4) (lut : BitVec 8) (s : State) : Host.Outcome State Fault Refusal :=
  issue { len := 8, g := g, uses := [] }
    (fun _ _ fb => .ok (fb.setPred p (plopBit lut.toNat (fb.pred pa) (fb.pred pb) (fb.pred pc)))) s
/-- SEL (R108). -/
def execSel (g : Guard) (t : IType) (d : Dst) (a b : Src) (ps : Num4) (neg : Bool) (s : State) :
    Host.Outcome State Fault Refusal :=
  issue (aluIss g t.is64 (some d) [(.i t, a), (.i t, b)])
    (fun _ _ fb => .ok (fb.result t.is64 d (if fb.pred ps != neg then fb.src (.i t) a else fb.src (.i t) b))) s
/-- ISET (R109). -/
def execIset (g : Guard) (cc : Cc) (t : IType) (mask : Bool) (d : Dst) (a b : Src) (s : State) :
    Host.Outcome State Fault Refusal := int2 g t d a b (vIset t cc mask) s
/-- PMOV (R110): p15 reads 1; a write leaves the latch. -/
def execPmov (g : Guard) (_t : IType) (op : PmovOp) (s : State) : Host.Outcome State Fault Refusal :=
  match op with
  | .rd d => issue (aluIss g false (some d) []) (fun _ _ fb => .ok (fb.result false d (fb.preds.toNat ||| 0x8000))) s
  | .wr a m => issue (aluIss g false none [(.i .ui32, a), (.i .ui32, m)])
      (fun _ _ fb => .ok { fb with
        preds := BitVec.ofNat 16 (pmovWr fb.preds.toNat (fb.src (.i .ui32) a) (fb.src (.i .ui32) m)) }) s

end Sys2Proof.Machine
end

