-- ==== Sys2Proof/Machine/Debug.lean ====
section
/-! DEFINITION. The debugger (R377, R389, R390). -/

namespace Sys2Proof.Machine

/-- The strands that the debugger names. -/
def State.dbgStrands (s : State) : DbgTarget → List Who
  | .ctx c => (s.ropes.filter fun r => decide (r.ctx = c)).flatMap fun r => (List.range r.strands.length).map fun i => Who.strand r.id i
  | .rope r => ((s.rope? r).map fun rp => (List.range rp.strands.length).map fun i => Who.strand r i).getD []
  | .strand r i => if ((s.rope? r).map fun rp => decide (i < rp.strands.length)).getD false then [.strand r i] else []

/-- DEBUG_HALT: the strands stop issuing, even inside a clause (R390). -/
def execDebugHalt (t : DbgTarget) (s : State) : Host.Outcome State Fault Refusal :=
  whenReady s fun s =>
    let s := { s with debugger := true }
    .next ((s.dbgStrands t).foldl (fun (s : State) w => s.setStrand w { s.strand w with halted := true, grant := none }) s)

/-- The path of a lane, or its unlisted group, becomes the current one; it alone moves at the next issue (R390). -/
def Strand.focus (st : Strand) (l : Nat) : Option Strand :=
  match st.paths.find? fun p => p.mask.getLsbD l with
  | some p =>
    if st.cur = some p then some { st with grant := some l }
    else
      let old := (st.cur.filter fun c => decide (c.mask ≠ 0)).toList
      some { st with cur := some p, others := (st.others.filter fun q => decide (q.mask ≠ p.mask)) ++ old, grant := some l }
  | none => match st.groups.find? fun g => g.lanes.contains l with
    | none => none
    | some g =>
      let old := (st.cur.filter fun c => decide (c.mask ≠ 0)).toList
      let st := { st with cur := none, others := st.others ++ old }
      let st := match maxBy (fun p : Path => p.pc.toNat) st.others with
        | some p => if 8 ≤ st.others.length then st.unlist p else st
        | none => st
      let st := st.list g
      match st.others.find? fun p => p.mask.getLsbD l with
      | some p => some { st with cur := some p, others := st.others.filter fun q => decide (q.mask ≠ p.mask), grant := some l }
      | none => none

/-- DEBUG_STEP: the next word of a halted fibre's path is issued, or the step reports WAITING (R390). -/
def execDebugStep (l : LaneId) (s : State) : Host.Outcome State Fault Refusal :=
  whenReady s fun s =>
    let s := { s with debugger := true }
    let w := laneWho l
    let st := s.strand w
    if !st.halted ∨ (st.fibre l.lane).st ≠ .live then s.noEvent
    else
      match st.focus l.lane with
      | none => s.noEvent
      | some st' => match st'.cur with
        | some p => if s.pathReady w st' p then .next (s.setStrand w st') else .next (s.send (.debug 1))
        | none => s.noEvent

/-- What a step leaves after its word: nothing more is granted, and a fibre that has parked is reported FAULTED (R390). -/
def State.stepDone (s : State) (w : Who) (before : Strand) : State :=
  match before.grant with
  | none => s
  | some l =>
    let st := s.strand w
    if st.cur = before.cur ∧ (st.fibre l).st = (before.fibre l).st ∧ (st.fibre l).wait = (before.fibre l).wait then s
    else
      let s := s.setStrand w { st with grant := none }
      match (st.fibre l).st with
      | .parked _ => s.send (.debug 2)
      | _ => s

/-- DEBUG_RESUME: every strand goes on from where it stands; fibres parked at a breakpoint are replayed (R389, R390). -/
def execDebugResume (t : DbgTarget) (s : State) : Host.Outcome State Fault Refusal :=
  whenReady s fun s =>
    let s := { s with debugger := true }
    let ws := s.dbgStrands t
    let s := ws.foldl (fun (s : State) w => s.setStrand w { s.strand w with halted := false, grant := none }) s
    let es := (s.cores.flatMap Core.rq).filter fun e => decide (e.cls = .brk) && ws.contains (.strand e.rope e.sid)
    .next (es.foldl (fun (s : State) e => (s.replayEntry e .res 0).1) s)

end Sys2Proof.Machine
end

