-- ==== Sys2Proof/Machine/FloatI.lean ====
section
/-! DEFINITION. Groups 4 and 5, floating point and transcendentals (R118 to R131). -/

namespace Sys2Proof.Machine

/-- FADD (R124). -/
def execFadd (g : Guard) (t : FType) (sat : Bool) (rc : Rc) (d : Dst) (a b : FSrc) (s : State) :
    Host.Outcome State Fault Refusal := flt2 g t sat rc d a b (vFadd t) s
/-- FMUL (R124). -/
def execFmul (g : Guard) (t : FType) (sat : Bool) (rc : Rc) (d : Dst) (a b : FSrc) (s : State) :
    Host.Outcome State Fault Refusal := flt2 g t sat rc d a b (vFmul t) s
/-- FFMA (R124). -/
def execFfma (g : Guard) (t : FType) (sat : Bool) (rc : Rc) (d : Dst) (a b c : FSrc) (s : State) :
    Host.Outcome State Fault Refusal := flt3 g t sat rc d a b c (vFfma t) s
/-- FMIN (R125). -/
def execFmin (g : Guard) (t : FType) (rc : Rc) (d : Dst) (a b : FSrc) (s : State) : Host.Outcome State Fault Refusal :=
  flt2 g t false rc d a b (fun v => vFminmax t v false) s
/-- FMAX (R125). -/
def execFmax (g : Guard) (t : FType) (rc : Rc) (d : Dst) (a b : FSrc) (s : State) : Host.Outcome State Fault Refusal :=
  flt2 g t false rc d a b (fun v => vFminmax t v true) s
/-- FDIV (R124). -/
def execFdiv (g : Guard) (t : FType) (sat : Bool) (rc : Rc) (d : Dst) (a b : FSrc) (s : State) :
    Host.Outcome State Fault Refusal := flt2 g t sat rc d a b (vFdiv t) s
/-- FSQRT (R124). -/
def execFsqrt (g : Guard) (t : FType) (rc : Rc) (d : Dst) (a : FSrc) (s : State) : Host.Outcome State Fault Refusal :=
  flt1 g t false rc d a (vFsqrt t) s
/-- FRCP (R124). -/
def execFrcp (g : Guard) (t : FType) (sat : Bool) (rc : Rc) (d : Dst) (a : FSrc) (s : State) :
    Host.Outcome State Fault Refusal := flt1 g t sat rc d a (vFrcp t) s
/-- FRSQ (R124). -/
def execFrsq (g : Guard) (t : FType) (sat : Bool) (rc : Rc) (d : Dst) (a : FSrc) (s : State) :
    Host.Outcome State Fault Refusal := flt1 g t sat rc d a (vFrsq t) s
/-- FFRC (R126). -/
def execFfrc (g : Guard) (t : FType) (rc : Rc) (d : Dst) (a : FSrc) (s : State) : Host.Outcome State Fault Refusal :=
  flt1 g t false rc d a (vFfrc t) s
/-- FRND (R126). -/
def execFrnd (g : Guard) (t : FType) (rc : Rc) (d : Dst) (a : FSrc) (s : State) : Host.Outcome State Fault Refusal :=
  flt1 g t false rc d a (vFrnd t) s
/-- FCLASS (R127): the stored pattern is read, no condition arises. -/
def execFclass (g : Guard) (t : FType) (_rc : Rc) (d : Dst) (a : Src) (s : State) : Host.Outcome State Fault Refusal :=
  alu1 g false d (.f t) a (vFclass t) s
/-- FLDEXP (R128): n is INT32, or INT16 per element. -/
def execFldexp (g : Guard) (t : FType) (sat : Bool) (rc : Rc) (d : Dst) (a : FSrc) (n : Src) (s : State) :
    Host.Outcome State Fault Refusal :=
  let pn : Pos := if t = .f32 then .i .i32 else .i .i16x2
  issue (aluIss g (t == .f64) (some d) [(.f t, a.src), (pn, n)])
    (fun _ _ fb => fb.finishF (t == .f64) d (vFldexp t (fenv fb rc sat a noF noF) (fb.src (.f t) a.src) (fb.src pn n))) s
/-- DADD (R124). -/
def execDadd (g : Guard) (sat : Bool) (rc : Rc) (d : Dst) (a b : FSrc) (s : State) : Host.Outcome State Fault Refusal :=
  flt2 g .f64 sat rc d a b (vFadd .f64) s
/-- DMUL (R124). -/
def execDmul (g : Guard) (sat : Bool) (rc : Rc) (d : Dst) (a b : FSrc) (s : State) : Host.Outcome State Fault Refusal :=
  flt2 g .f64 sat rc d a b (vFmul .f64) s
/-- DFMA (R124). -/
def execDfma (g : Guard) (sat : Bool) (rc : Rc) (d : Dst) (a b c : FSrc) (s : State) : Host.Outcome State Fault Refusal :=
  flt3 g .f64 sat rc d a b c (vFfma .f64) s
/-- DMIN (R125). -/
def execDmin (g : Guard) (rc : Rc) (d : Dst) (a b : FSrc) (s : State) : Host.Outcome State Fault Refusal :=
  flt2 g .f64 false rc d a b (fun v => vFminmax .f64 v false) s
/-- DMAX (R125). -/
def execDmax (g : Guard) (rc : Rc) (d : Dst) (a b : FSrc) (s : State) : Host.Outcome State Fault Refusal :=
  flt2 g .f64 false rc d a b (fun v => vFminmax .f64 v true) s
/-- DDIV (R124). -/
def execDdiv (g : Guard) (sat : Bool) (rc : Rc) (d : Dst) (a b : FSrc) (s : State) : Host.Outcome State Fault Refusal :=
  flt2 g .f64 sat rc d a b (vFdiv .f64) s
/-- DSQRT (R124). -/
def execDsqrt (g : Guard) (rc : Rc) (d : Dst) (a : FSrc) (s : State) : Host.Outcome State Fault Refusal :=
  flt1 g .f64 false rc d a (vFsqrt .f64) s
/-- FEX2 (R129 to R131). -/
def execFex2 (g : Guard) (t : FType) (sat : Bool) (rc : Rc) (d : Dst) (a : FSrc) (s : State) :
    Host.Outcome State Fault Refusal := flt1 g t sat rc d a (vTrans .ex2 t) s
/-- FLG2 (R129 to R131). -/
def execFlg2 (g : Guard) (t : FType) (rc : Rc) (d : Dst) (a : FSrc) (s : State) : Host.Outcome State Fault Refusal :=
  flt1 g t false rc d a (vTrans .lg2 t) s
/-- FSIN (R129 to R131). -/
def execFsin (g : Guard) (t : FType) (rc : Rc) (d : Dst) (a : FSrc) (s : State) : Host.Outcome State Fault Refusal :=
  flt1 g t false rc d a (vTrans .sin t) s
/-- FCOS (R129 to R131). -/
def execFcos (g : Guard) (t : FType) (rc : Rc) (d : Dst) (a : FSrc) (s : State) : Host.Outcome State Fault Refusal :=
  flt1 g t false rc d a (vTrans .cos t) s
/-- FTANH (R129 to R131). -/
def execFtanh (g : Guard) (t : FType) (rc : Rc) (d : Dst) (a : FSrc) (s : State) : Host.Outcome State Fault Refusal :=
  flt1 g t false rc d a (vTrans .tanh t) s

end Sys2Proof.Machine
end

