-- ==== Sys2Proof/Machine/Integer.lean ====
section
/-! DEFINITION. Group 1, integer arithmetic (R90 to R97). -/

namespace Sys2Proof.Machine

/-- IADD (R91). -/
def execIadd (g : Guard) (t : IType) (sat : Bool) (d : Dst) (a b : Src) (s : State) : Host.Outcome State Fault Refusal :=
  int2 g t d a b (vIadd t sat) s
/-- ISUB (R91). -/
def execIsub (g : Guard) (t : IType) (sat : Bool) (d : Dst) (a b : Src) (s : State) : Host.Outcome State Fault Refusal :=
  int2 g t d a b (vIsub t sat) s
/-- IMUL (R91). -/
def execImul (g : Guard) (t : IType) (sat : Bool) (d : Dst) (a b : Src) (s : State) : Host.Outcome State Fault Refusal :=
  int2 g t d a b (vImul t sat) s
/-- IMULH (R91). -/
def execImulh (g : Guard) (t : IType) (d : Dst) (a b : Src) (s : State) : Host.Outcome State Fault Refusal :=
  int2 g t d a b (vImulh t) s
/-- IMAD (R91). -/
def execImad (g : Guard) (t : IType) (sat : Bool) (d : Dst) (a b c : Src) (s : State) : Host.Outcome State Fault Refusal :=
  alu3 g t.is64 d (.i t) a (.i t) b (.i t) c (vImad t sat) s
/-- IMADW (R92): c and d are 64 bits wide, of the type's signedness. -/
def execImadw (g : Guard) (t : IType) (sat : Bool) (d : Dst) (a b c : Src) (s : State) : Host.Outcome State Fault Refusal :=
  alu3 g true d (.i t) a (.i t) b (.i (if t.signed then .i64 else .ui64)) c (vImadw t sat) s
/-- IDIV (R93, R94). -/
def execIdiv (g : Guard) (t : IType) (sat : Bool) (d : Dst) (a b : Src) (s : State) : Host.Outcome State Fault Refusal :=
  divide g t d a b (vIdiv t sat) s
/-- IREM (R93, R94). -/
def execIrem (g : Guard) (t : IType) (d : Dst) (a b : Src) (s : State) : Host.Outcome State Fault Refusal :=
  divide g t d a b (vIrem t) s
/-- IABS (R91). -/
def execIabs (g : Guard) (t : IType) (sat : Bool) (d : Dst) (a : Src) (s : State) : Host.Outcome State Fault Refusal :=
  alu1 g t.is64 d (.i t) a (vIabs t sat) s
/-- INEG (R91). -/
def execIneg (g : Guard) (t : IType) (sat : Bool) (d : Dst) (a : Src) (s : State) : Host.Outcome State Fault Refusal :=
  alu1 g t.is64 d (.i t) a (vIneg t sat) s
/-- IMIN (R91). -/
def execImin (g : Guard) (t : IType) (d : Dst) (a b : Src) (s : State) : Host.Outcome State Fault Refusal :=
  int2 g t d a b (vImin t) s
/-- IMAX (R91). -/
def execImax (g : Guard) (t : IType) (d : Dst) (a b : Src) (s : State) : Host.Outcome State Fault Refusal :=
  int2 g t d a b (vImax t) s
/-- IADDC (R95): carry in from and carry out to the predicate. -/
def execIaddc (g : Guard) (t : IType) (sub nc : Bool) (d : Dst) (pc : Num4) (a b : Src) (s : State) :
    Host.Outcome State Fault Refusal :=
  issue (aluIss g t.is64 (some d) [(.i t, a), (.i t, b)])
    (fun _ _ fb =>
      let r := vIaddc t sub (!nc && fb.pred pc) (fb.src (.i t) a) (fb.src (.i t) b)
      .ok ((fb.result t.is64 d r.1).setPred pc r.2)) s
/-- ISAD (R96). -/
def execIsad (g : Guard) (t : IType) (d : Dst) (a b c : Src) (s : State) : Host.Outcome State Fault Refusal :=
  alu3 g false d (.i t) a (.i t) b (.i .ui32) c (vIsad t) s
/-- LEA (R97). -/
def execLea (g : Guard) (t : IType) (sh : BitVec 3) (d : Dst) (a b : Src) (s : State) : Host.Outcome State Fault Refusal :=
  alu2 g true d (.i .ui64) a (.i t) b (vLea t sh.toNat) s

end Sys2Proof.Machine
end

