-- ==== Sys2Proof/Machine/Logic.lean ====
section
/-! DEFINITION. Group 2, logic and bit manipulation (R98 to R103). -/

namespace Sys2Proof.Machine

/-- AND (R99). -/
def execAnd (g : Guard) (t : IType) (d : Dst) (a b : Src) (s : State) : Host.Outcome State Fault Refusal :=
  int2 g t d a b (fun x y => x &&& y) s
/-- OR (R99). -/
def execOr (g : Guard) (t : IType) (d : Dst) (a b : Src) (s : State) : Host.Outcome State Fault Refusal :=
  int2 g t d a b (fun x y => x ||| y) s
/-- XOR (R99). -/
def execXor (g : Guard) (t : IType) (d : Dst) (a b : Src) (s : State) : Host.Outcome State Fault Refusal :=
  int2 g t d a b (fun x y => x ^^^ y) s
/-- ANDN (R99). -/
def execAndn (g : Guard) (t : IType) (d : Dst) (a b : Src) (s : State) : Host.Outcome State Fault Refusal :=
  int2 g t d a b (vAndn t) s
/-- SHL (R100). -/
def execShl (g : Guard) (t : IType) (d : Dst) (a n : Src) (s : State) : Host.Outcome State Fault Refusal :=
  shift2 g t d a n (vShl t) s
/-- SHR (R100). -/
def execShr (g : Guard) (t : IType) (d : Dst) (a n : Src) (s : State) : Host.Outcome State Fault Refusal :=
  shift2 g t d a n (vShr t) s
/-- SAR (R100). -/
def execSar (g : Guard) (t : IType) (d : Dst) (a n : Src) (s : State) : Host.Outcome State Fault Refusal :=
  shift2 g t d a n (vSar t) s
/-- ROTL (R100). -/
def execRotl (g : Guard) (t : IType) (d : Dst) (a n : Src) (s : State) : Host.Outcome State Fault Refusal :=
  shift2 g t d a n (vRotl t) s
/-- BFX (R101). -/
def execBfx (g : Guard) (t : IType) (d : Dst) (a f : Src) (s : State) : Host.Outcome State Fault Refusal :=
  alu2 g t.is64 d (.i t) a (.i .ui32) f (vBfx t) s
/-- BFI (R101). -/
def execBfi (g : Guard) (t : IType) (d : Dst) (a b f : Src) (s : State) : Host.Outcome State Fault Refusal :=
  alu3 g t.is64 d (.i t) a (.i t) b (.i .ui32) f (vBfi t) s
/-- POPC (R102). -/
def execPopc (g : Guard) (t : IType) (d : Dst) (a : Src) (s : State) : Host.Outcome State Fault Refusal :=
  alu1 g false d (.i t) a (vPopc t) s
/-- CLZ (R102). -/
def execClz (g : Guard) (t : IType) (d : Dst) (a : Src) (s : State) : Host.Outcome State Fault Refusal :=
  alu1 g false d (.i t) a (vClz t) s
/-- BREV (R102). -/
def execBrev (g : Guard) (t : IType) (d : Dst) (a : Src) (s : State) : Host.Outcome State Fault Refusal :=
  alu1 g t.is64 d (.i t) a (vBrev t) s
/-- PRMT (R103). -/
def execPrmt (g : Guard) (t : IType) (gr : Gran) (d : Dst) (a b sl : Src) (s : State) : Host.Outcome State Fault Refusal :=
  alu3 g false d (.i t) a (.i t) b (.i t) sl (vPrmt gr) s

end Sys2Proof.Machine
end

