-- ==== Sys2Proof/Machine/Dispatch.lean ====
section
/-! DEFINITION. What each step of Bodun does: one arm per constructor of `Instr`. -/

namespace Sys2Proof.Machine

/-- The meaning of one instruction or device event. -/
def exec (i : Instr) (s : State) : Host.Outcome State Fault Refusal :=
  match i with
  | .clauseHeader => Sys2Proof.Machine.execClauseHeader s
  | .forcedKnot => Sys2Proof.Machine.execForcedKnot s
  | .activeSetFill core part => Sys2Proof.Machine.execActiveSetFill core part s
  | .staleGldYield r sid => Sys2Proof.Machine.execStaleGldYield r sid s
  | .breakpointHit n => Sys2Proof.Machine.execBreakpointHit n s
  | .nop g => Sys2Proof.Machine.execNop g s
  | .bra g off => Sys2Proof.Machine.execBra g off s
  | .brx g a => Sys2Proof.Machine.execBrx g a s
  | .call g l off => Sys2Proof.Machine.execCall g l off s
  | .callx g l a => Sys2Proof.Machine.execCallx g l a s
  | .ret g a => Sys2Proof.Machine.execRet g a s
  | .yield g => Sys2Proof.Machine.execYield g s
  | .iadd g t sat d a b => Sys2Proof.Machine.execIadd g t sat d a b s
  | .isub g t sat d a b => Sys2Proof.Machine.execIsub g t sat d a b s
  | .imul g t sat d a b => Sys2Proof.Machine.execImul g t sat d a b s
  | .imulh g t d a b => Sys2Proof.Machine.execImulh g t d a b s
  | .imad g t sat d a b c => Sys2Proof.Machine.execImad g t sat d a b c s
  | .imadw g t sat d a b c => Sys2Proof.Machine.execImadw g t sat d a b c s
  | .idiv g t sat d a b => Sys2Proof.Machine.execIdiv g t sat d a b s
  | .irem g t d a b => Sys2Proof.Machine.execIrem g t d a b s
  | .iabs g t sat d a => Sys2Proof.Machine.execIabs g t sat d a s
  | .ineg g t sat d a => Sys2Proof.Machine.execIneg g t sat d a s
  | .imin g t d a b => Sys2Proof.Machine.execImin g t d a b s
  | .imax g t d a b => Sys2Proof.Machine.execImax g t d a b s
  | .iaddc g t sub nc d pc a b => Sys2Proof.Machine.execIaddc g t sub nc d pc a b s
  | .isad g t d a b c => Sys2Proof.Machine.execIsad g t d a b c s
  | .lea g t sh d a b => Sys2Proof.Machine.execLea g t sh d a b s
  | .and g t d a b => Sys2Proof.Machine.execAnd g t d a b s
  | .or g t d a b => Sys2Proof.Machine.execOr g t d a b s
  | .xor g t d a b => Sys2Proof.Machine.execXor g t d a b s
  | .andn g t d a b => Sys2Proof.Machine.execAndn g t d a b s
  | .shl g t d a n => Sys2Proof.Machine.execShl g t d a n s
  | .shr g t d a n => Sys2Proof.Machine.execShr g t d a n s
  | .sar g t d a n => Sys2Proof.Machine.execSar g t d a n s
  | .rotl g t d a n => Sys2Proof.Machine.execRotl g t d a n s
  | .bfx g t d a f => Sys2Proof.Machine.execBfx g t d a f s
  | .bfi g t d a b f => Sys2Proof.Machine.execBfi g t d a b f s
  | .popc g t d a => Sys2Proof.Machine.execPopc g t d a s
  | .clz g t d a => Sys2Proof.Machine.execClz g t d a s
  | .brev g t d a => Sys2Proof.Machine.execBrev g t d a s
  | .prmt g t gr d a b v => Sys2Proof.Machine.execPrmt g t gr d a b v s
  | .isetp g cc t m p a b => Sys2Proof.Machine.execIsetp g cc t m p a b s
  | .fsetp g cc rc m p a b => Sys2Proof.Machine.execFsetp g cc rc m p a b s
  | .dsetp g cc rc m p a b => Sys2Proof.Machine.execDsetp g cc rc m p a b s
  | .plop g p pa pb pc lut => Sys2Proof.Machine.execPlop g p pa pb pc lut s
  | .sel g t d a b ps neg => Sys2Proof.Machine.execSel g t d a b ps neg s
  | .iset g cc t mask d a b => Sys2Proof.Machine.execIset g cc t mask d a b s
  | .pmov g t op => Sys2Proof.Machine.execPmov g t op s
  | .fadd g t sat rc d a b => Sys2Proof.Machine.execFadd g t sat rc d a b s
  | .fmul g t sat rc d a b => Sys2Proof.Machine.execFmul g t sat rc d a b s
  | .ffma g t sat rc d a b c => Sys2Proof.Machine.execFfma g t sat rc d a b c s
  | .fmin g t rc d a b => Sys2Proof.Machine.execFmin g t rc d a b s
  | .fmax g t rc d a b => Sys2Proof.Machine.execFmax g t rc d a b s
  | .fdiv g t sat rc d a b => Sys2Proof.Machine.execFdiv g t sat rc d a b s
  | .fsqrt g t rc d a => Sys2Proof.Machine.execFsqrt g t rc d a s
  | .frcp g t sat rc d a => Sys2Proof.Machine.execFrcp g t sat rc d a s
  | .frsq g t sat rc d a => Sys2Proof.Machine.execFrsq g t sat rc d a s
  | .ffrc g t rc d a => Sys2Proof.Machine.execFfrc g t rc d a s
  | .frnd g t rc d a => Sys2Proof.Machine.execFrnd g t rc d a s
  | .fclass g t rc d a => Sys2Proof.Machine.execFclass g t rc d a s
  | .fldexp g t sat rc d a n => Sys2Proof.Machine.execFldexp g t sat rc d a n s
  | .dadd g sat rc d a b => Sys2Proof.Machine.execDadd g sat rc d a b s
  | .dmul g sat rc d a b => Sys2Proof.Machine.execDmul g sat rc d a b s
  | .dfma g sat rc d a b c => Sys2Proof.Machine.execDfma g sat rc d a b c s
  | .dmin g rc d a b => Sys2Proof.Machine.execDmin g rc d a b s
  | .dmax g rc d a b => Sys2Proof.Machine.execDmax g rc d a b s
  | .ddiv g sat rc d a b => Sys2Proof.Machine.execDdiv g sat rc d a b s
  | .dsqrt g rc d a => Sys2Proof.Machine.execDsqrt g rc d a s
  | .fex2 g t sat rc d a => Sys2Proof.Machine.execFex2 g t sat rc d a s
  | .flg2 g t rc d a => Sys2Proof.Machine.execFlg2 g t rc d a s
  | .fsin g t rc d a => Sys2Proof.Machine.execFsin g t rc d a s
  | .fcos g t rc d a => Sys2Proof.Machine.execFcos g t rc d a s
  | .ftanh g t rc d a => Sys2Proof.Machine.execFtanh g t rc d a s
  | .cvt g fd fs sat rc d a => Sys2Proof.Machine.execCvt g fd fs sat rc d a s
  | .pack g f slot sat rc d a b c => Sys2Proof.Machine.execPack g f slot sat rc d a b c s
  | .unpk g f el d a => Sys2Proof.Machine.execUnpk g f el d a s
  | .dp4 g fa fb sat d a b c => Sys2Proof.Machine.execDp4 g fa fb sat d a b c s
  | .dp8 g fa fb sat d a b c => Sys2Proof.Machine.execDp8 g fa fb sat d a b c s
  | .dp2 g fa fb sat d a b c => Sys2Proof.Machine.execDp2 g fa fb sat d a b c s
  | .fscl g t k sat rc d a v => Sys2Proof.Machine.execFscl g t k sat rc d a v s
  | .t3pk g d a b => Sys2Proof.Machine.execT3pk g d a b s
  | .t3up g hi d p a => Sys2Proof.Machine.execT3up g hi d p a s
  | .mov g t d a => Sys2Proof.Machine.execMov g t d a s
  | .movs g d sp => Sys2Proof.Machine.execMovs g d sp s
  | .csrr g d num => Sys2Proof.Machine.execCsrr g d num s
  | .csrw g op num a => Sys2Proof.Machine.execCsrw g op num a s
  | .fork g d n a off => Sys2Proof.Machine.execFork g d n a off s
  | .fend g => Sys2Proof.Machine.execFend g s
  | .vote g m inv cv d ps gate => Sys2Proof.Machine.execVote g m inv cv d ps gate s
  | .matchL g f b64 cv d p a gate => Sys2Proof.Machine.execMatchL g f b64 cv d p a gate s
  | .shfl g m logN b64 cv d p a b gate => Sys2Proof.Machine.execShfl g m logN b64 cv d p a b gate s
  | .reds g op t det sat cv d a gate => Sys2Proof.Machine.execReds g op t det sat cv d a gate s
  | .elect g cv d p gate => Sys2Proof.Machine.execElect g cv d p gate s
  | .tiedef g k set => Sys2Proof.Machine.execTiedef g k set s
  | .tiesgn g k => Sys2Proof.Machine.execTiesgn g k s
  | .hbar g m b mask pd ps => Sys2Proof.Machine.execHbar g m b mask pd ps s
  | .nsleep g pd a v t => Sys2Proof.Machine.execNsleep g pd a v t s
  | .nsleepRetest l => Sys2Proof.Machine.execNsleepRetest l s
  | .nsleepDeadline l => Sys2Proof.Machine.execNsleepDeadline l s
  | .ld g w d a up => Sys2Proof.Machine.execLd g w d a up s
  | .st g w a v up => Sys2Proof.Machine.execSt g w a v up s
  | .lds g w d a up => Sys2Proof.Machine.execLds g w d a up s
  | .sts g w a v up => Sys2Proof.Machine.execSts g w a v up s
  | .ldro g w d a up => Sys2Proof.Machine.execLdro g w d a up s
  | .pfch g l2 wr a off => Sys2Proof.Machine.execPfch g l2 wr a off s
  | .atom g op t d a b up => Sys2Proof.Machine.execAtom g op t d a b up s
  | .cas g w d a c n up => Sys2Proof.Machine.execCas g w d a c n up s
  | .atoms g op t d a b up => Sys2Proof.Machine.execAtoms g op t d a b up s
  | .fence g sc => Sys2Proof.Machine.execFence g sc s
  | .lockl g d a off => Sys2Proof.Machine.execLockl g d a off s
  | .unlkl g d a off => Sys2Proof.Machine.execUnlkl g d a off s
  | .cwb g a off => Sys2Proof.Machine.execCwb g a off s
  | .cinv g a off => Sys2Proof.Machine.execCinv g a off s
  | .loadResult acc => Sys2Proof.Machine.execLoadResult acc s
  | .storeRelease acc => Sys2Proof.Machine.execStoreRelease acc s
  | .translation acc => Sys2Proof.Machine.execTranslation acc s
  | .lateXlateFault acc => Sys2Proof.Machine.execLateXlateFault acc s
  | .pageMigration ctx vpage accept frame => Sys2Proof.Machine.execPageMigration ctx vpage accept frame s
  | .pinExpiry cluster l => Sys2Proof.Machine.execPinExpiry cluster l s
  | .forwardedAccess f => Sys2Proof.Machine.execForwardedAccess f s
  | .gets m => Sys2Proof.Machine.execGets m s
  | .getm m => Sys2Proof.Machine.execGetm m s
  | .upgr m => Sys2Proof.Machine.execUpgr m s
  | .puts m => Sys2Proof.Machine.execPuts m s
  | .putm m => Sys2Proof.Machine.execPutm m s
  | .wbdata m => Sys2Proof.Machine.execWbdata m s
  | .atomMsg m => Sys2Proof.Machine.execAtomMsg m s
  | .ack m => Sys2Proof.Machine.execAck m s
  | .fwds m => Sys2Proof.Machine.execFwds m s
  | .fwdm m => Sys2Proof.Machine.execFwdm m s
  | .inv m => Sys2Proof.Machine.execInv m s
  | .wbgrant m => Sys2Proof.Machine.execWbgrant m s
  | .datas m => Sys2Proof.Machine.execDatas m s
  | .datam m => Sys2Proof.Machine.execDatam m s
  | .update m => Sys2Proof.Machine.execUpdate m s
  | .timer cluster l => Sys2Proof.Machine.execTimer cluster l s
  | .l1Eviction cluster l => Sys2Proof.Machine.execL1Eviction cluster l s
  | .shpw g op ix => Sys2Proof.Machine.execShpw g op ix s
  | .shpr g d ix => Sys2Proof.Machine.execShpr g d ix s
  | .xcp g d cs cd b up => Sys2Proof.Machine.execXcp g d cs cd b up s
  | .xgath g d cs cd b up => Sys2Proof.Machine.execXgath g d cs cd b up s
  | .xscat g d cs cd b up => Sys2Proof.Machine.execXscat g d cs cd b up s
  | .xred g d cs cd b up => Sys2Proof.Machine.execXred g d cs cd b up s
  | .xfill g d cd b up => Sys2Proof.Machine.execXfill g d cd b up s
  | .tlwait g tl n => Sys2Proof.Machine.execTlwait g tl n s
  | .tlread g b64 d tl => Sys2Proof.Machine.execTlread g b64 d tl s
  | .crpop g d p => Sys2Proof.Machine.execCrpop g d p s
  | .bari g b e up => Sys2Proof.Machine.execBari g b e up s
  | .bara g d b up => Sys2Proof.Machine.execBara g d b up s
  | .barex g b n up => Sys2Proof.Machine.execBarex g b n up s
  | .barw g p b ph up => Sys2Proof.Machine.execBarw g p b ph up s
  | .tcfg g m a => Sys2Proof.Machine.execTcfg g m a s
  | .tld g d c w up => Sys2Proof.Machine.execTld g d c w up s
  | .tst g d c w up => Sys2Proof.Machine.execTst g d c w up s
  | .tzero g d w up => Sys2Proof.Machine.execTzero g d w up s
  | .mma g na nb nacc sat acc16 d w up => Sys2Proof.Machine.execMma g na nb nacc sat acc16 d w up s
  | .tew g op sat d w up => Sys2Proof.Machine.execTew g op sat d w up s
  | .tcvt g sat rc d w up => Sys2Proof.Machine.execTcvt g sat rc d w up s
  | .tred g op d w up => Sys2Proof.Machine.execTred g op d w up s
  | .trow g d w up => Sys2Proof.Machine.execTrow g d w up s
  | .taskSend op => Sys2Proof.Machine.execTaskSend op s
  | .copySegment op => Sys2Proof.Machine.execCopySegment op s
  | .copyPark op => Sys2Proof.Machine.execCopyPark op s
  | .mmaStep op => Sys2Proof.Machine.execMmaStep op s
  | .engineOpComplete op => Sys2Proof.Machine.execEngineOpComplete op s
  | .ringRoom op => Sys2Proof.Machine.execRingRoom op s
  | .gdef g d slot op => Sys2Proof.Machine.execGdef g d slot op s
  | .gld g d slot q c => Sys2Proof.Machine.execGld g d slot q c s
  | .gst g slot q c v => Sys2Proof.Machine.execGst g slot q c v s
  | .gstep g wrec d slot q v => Sys2Proof.Machine.execGstep g wrec d slot q v s
  | .gwait g slot q f t => Sys2Proof.Machine.execGwait g slot q f t s
  | .gstat g d slot q op => Sys2Proof.Machine.execGstat g d slot q op s
  | .haloStripSend op => Sys2Proof.Machine.execHaloStripSend op s
  | .haloStripLand op => Sys2Proof.Machine.execHaloStripLand op s
  | .haloFault op => Sys2Proof.Machine.execHaloFault op s
  | .syscall g => Sys2Proof.Machine.execSyscall g s
  | .trap g code => Sys2Proof.Machine.execTrap g code s
  | .knot g wm sm tm => Sys2Proof.Machine.execKnot g wm sm tm s
  | .sigret g f => Sys2Proof.Machine.execSigret g f s
  | .bkpt g => Sys2Proof.Machine.execBkpt g s
  | .rft g d t => Sys2Proof.Machine.execRft g d t s
  | .rqpop g d p a => Sys2Proof.Machine.execRqpop g d p a s
  | .replay g p v m => Sys2Proof.Machine.execReplay g p v m s
  | .smovr g sp sv w d p a t off => Sys2Proof.Machine.execSmovr g sp sv w d p a t off s
  | .smovw g sp sv w p a v t off => Sys2Proof.Machine.execSmovw g sp sv w p a v t off s
  | .sigpost g p c v => Sys2Proof.Machine.execSigpost g p c v s
  | .ptinv g full a n allc ctx => Sys2Proof.Machine.execPtinv g full a n allc ctx s
  | .haltc g m d c => Sys2Proof.Machine.execHaltc g m d c s
  | .faultPark r sid lanes f => Sys2Proof.Machine.execFaultPark r sid lanes f s
  | .replayQueueRoom core => Sys2Proof.Machine.execReplayQueueRoom core s
  | .supervisorFault core f resolvable => Sys2Proof.Machine.execSupervisorFault core f resolvable s
  | .supervisorTick core => Sys2Proof.Machine.execSupervisorTick core s
  | .mailboxWrite core bytes => Sys2Proof.Machine.execMailboxWrite core bytes s
  | .signalStop l sig => Sys2Proof.Machine.execSignalStop l sig s
  | .timerExpiry ctx => Sys2Proof.Machine.execTimerExpiry ctx s
  | .getpid core seq => Sys2Proof.Machine.execGetpid core seq s
  | .sigaction core seq => Sys2Proof.Machine.execSigaction core seq s
  | .sigmask core seq => Sys2Proof.Machine.execSigmask core seq s
  | .kill core seq => Sys2Proof.Machine.execKill core seq s
  | .sysOpen core seq res => Sys2Proof.Machine.execSysOpen core seq res s
  | .sysRead core seq res data => Sys2Proof.Machine.execSysRead core seq res data s
  | .sysWrite core seq res => Sys2Proof.Machine.execSysWrite core seq res s
  | .sysClose core seq res => Sys2Proof.Machine.execSysClose core seq res s
  | .sockCreate core seq res => Sys2Proof.Machine.execSockCreate core seq res s
  | .sockBind core seq res => Sys2Proof.Machine.execSockBind core seq res s
  | .sockConnect core seq res => Sys2Proof.Machine.execSockConnect core seq res s
  | .sockListen core seq res => Sys2Proof.Machine.execSockListen core seq res s
  | .sockAccept core seq res => Sys2Proof.Machine.execSockAccept core seq res s
  | .sockSend core seq done => Sys2Proof.Machine.execSockSend core seq done s
  | .sockRecv core seq res data => Sys2Proof.Machine.execSockRecv core seq res data s
  | .sockShutdown core seq res => Sys2Proof.Machine.execSockShutdown core seq res s
  | .spmap core seq => Sys2Proof.Machine.execSpmap core seq s
  | .spunmap core seq => Sys2Proof.Machine.execSpunmap core seq s
  | .pause core seq => Sys2Proof.Machine.execPause core seq s
  | .launch core seq => Sys2Proof.Machine.execLaunch core seq s
  | .timerCall core seq => Sys2Proof.Machine.execTimerCall core seq s
  | .coilDispatch ctx qent stage coil p => Sys2Proof.Machine.execCoilDispatch ctx qent stage coil p s
  | .ropeEnd r => Sys2Proof.Machine.execRopeEnd r s
  | .launchComplete ctx qent => Sys2Proof.Machine.execLaunchComplete ctx qent s
  | .groupTimeout group => Sys2Proof.Machine.execGroupTimeout group s
  | .fabcfgAdopt fibre => Sys2Proof.Machine.execFabcfgAdopt fibre s
  | .stateimg core => Sys2Proof.Machine.execStateimg core s
  | .scrub ctx receipt cmd => Sys2Proof.Machine.execScrub ctx receipt cmd s
  | .preemptRequest ctx coil => Sys2Proof.Machine.execPreemptRequest ctx coil s
  | .preemptDeadline ctx coil => Sys2Proof.Machine.execPreemptDeadline ctx coil s
  | .quiesce ctx coil => Sys2Proof.Machine.execQuiesce ctx coil s
  | .saveCoil ctx coil => Sys2Proof.Machine.execSaveCoil ctx coil s
  | .restoreCoil ctx area p => Sys2Proof.Machine.execRestoreCoil ctx area p s
  | .engineReset core e => Sys2Proof.Machine.execEngineReset core e s
  | .engineWatchdog core e => Sys2Proof.Machine.execEngineWatchdog core e s
  | .logBatchClose => Sys2Proof.Machine.execLogBatchClose s
  | .retryLimit peer bank ctr => Sys2Proof.Machine.execRetryLimit peer bank ctr s
  | .relayForward fibre => Sys2Proof.Machine.execRelayForward fibre s
  | .rekeyCount peer => Sys2Proof.Machine.execRekeyCount peer s
  | .supervisorFaultResolution core ok => Sys2Proof.Machine.execSupervisorFaultResolution core ok s
  | .rotorSlot fibre => Sys2Proof.Machine.execRotorSlot fibre s
  | .associationFetch peer => Sys2Proof.Machine.execAssociationFetch peer s
  | .powerUp strap fuse => Sys2Proof.Machine.execPowerUp strap fuse s
  | .reset => Sys2Proof.Machine.execReset s
  | .go img => Sys2Proof.Machine.execGo img s
  | .fwMctpMessage m img => Sys2Proof.Machine.execFwMctpMessage m img s
  | .verifyDone => Sys2Proof.Machine.execVerifyDone s
  | .initDone hbmOk opticsOk => Sys2Proof.Machine.execInitDone hbmOk opticsOk s
  | .registerWrite r v => Sys2Proof.Machine.execRegisterWrite r v s
  | .thermalThrottle hot => Sys2Proof.Machine.execThermalThrottle hot s
  | .thermalStop => Sys2Proof.Machine.execThermalStop s
  | .throttleUpdate estimate => Sys2Proof.Machine.execThrottleUpdate estimate s
  | .budgetWindow ctx cls k v => Sys2Proof.Machine.execBudgetWindow ctx cls k v s
  | .launchSubmission page off bytes posted => Sys2Proof.Machine.execLaunchSubmission page off bytes posted s
  | .groupReady group gen peer ok => Sys2Proof.Machine.execGroupReady group gen peer ok s
  | .ctxcreate res desc => Sys2Proof.Machine.execCtxcreate res desc s
  | .ctxctlResident res ctx => Sys2Proof.Machine.execCtxctlResident res ctx s
  | .ctxctlPreemptCoil res ctx coil => Sys2Proof.Machine.execCtxctlPreemptCoil res ctx coil s
  | .ctxctlPreemptAll res ctx => Sys2Proof.Machine.execCtxctlPreemptAll res ctx s
  | .ctxctlKill res ctx => Sys2Proof.Machine.execCtxctlKill res ctx s
  | .ctxctlReload res ctx => Sys2Proof.Machine.execCtxctlReload res ctx s
  | .ctxend res ctx => Sys2Proof.Machine.execCtxend res ctx s
  | .chipgrp res group count list => Sys2Proof.Machine.execChipgrp res group count list s
  | .tabload res slot img => Sys2Proof.Machine.execTabload res slot img s
  | .watch res idx entry => Sys2Proof.Machine.execWatch res idx entry s
  | .inbound res frame owner => Sys2Proof.Machine.execInbound res frame owner s
  | .logread res dest count => Sys2Proof.Machine.execLogread res dest count s
  | .fabcfg res addr => Sys2Proof.Machine.execFabcfg res addr s
  | .keyload slot nonce key session => Sys2Proof.Machine.execKeyload slot nonce key session s
  | .getMeasurements idx session => Sys2Proof.Machine.execGetMeasurements idx session s
  | .debugHalt t => Sys2Proof.Machine.execDebugHalt t s
  | .debugStep l => Sys2Proof.Machine.execDebugStep l s
  | .debugResume t => Sys2Proof.Machine.execDebugResume t s
  | .correctableError l => Sys2Proof.Machine.execCorrectableError l s
  | .uncorrectableError l => Sys2Proof.Machine.execUncorrectableError l s
  | .cxlMemRequest r => Sys2Proof.Machine.execCxlMemRequest r s
  | .atomicop r => Sys2Proof.Machine.execAtomicop r s
  | .hostCompletion acc => Sys2Proof.Machine.execHostCompletion acc s
  | .completerAbort acc => Sys2Proof.Machine.execCompleterAbort acc s
  | .fabricRead t => Sys2Proof.Machine.execFabricRead t s
  | .fabricWrite t => Sys2Proof.Machine.execFabricWrite t s
  | .fabricAtomic t => Sys2Proof.Machine.execFabricAtomic t s
  | .fabricMsg t => Sys2Proof.Machine.execFabricMsg t s
  | .rdrsp peer tid data => Sys2Proof.Machine.execRdrsp peer tid data s
  | .wrrsp peer tid wct => Sys2Proof.Machine.execWrrsp peer tid wct s
  | .atrsp peer tid data wct => Sys2Proof.Machine.execAtrsp peer tid data wct s
  | .nak peer tid reason => Sys2Proof.Machine.execNak peer tid reason s
  | .linkControl peer bank acked resend => Sys2Proof.Machine.execLinkControl peer bank acked resend s
  | .flitTimeout peer bank ctr => Sys2Proof.Machine.execFlitTimeout peer bank ctr s
  | .rekey peer requested => Sys2Proof.Machine.execRekey peer requested s
  | .fatalServiceCoreFault => Sys2Proof.Machine.execFatalServiceCoreFault s
  | .spdmSession id rootDigest authed peer => Sys2Proof.Machine.execSpdmSession id rootDigest authed peer s

end Sys2Proof.Machine
end

