-- ==== Sys2Proof/Machine/Sched.lean ====
section
/-! DEFINITION. One step of the device: time passes, the steps that could come next are gathered, one of them is taken, and what follows
from it without a step of its own is settled (R4, R17, R22 to R26, R59, R71, R154, R162, R163, R197, R228; log 4, log 5). -/

namespace Sys2Proof.Machine

/-! ### Issuing a word (R71) -/

/-- The word that the current path of an issuer stands at, issued by `run` once it is decoded; checks 1 to 3 of R71 come first. -/
def issueWord (run : Instr → State → Host.Outcome State Fault Refusal) (w : Who) (p : Path) (cl : Clause) (s : State) :
    Host.Outcome State Fault Refusal :=
  match s.breakHit w cl.ip with
  | some (n, _) => run (.breakpointHit (BitVec.ofNat 2 n)) s
  | none =>
    let bad := fun (s : State) (c : Cause) => Host.Outcome.next (s.trapPath w (illegal c) cl.ip cl.hpc)
    match s.word w cl.ip with
    | (s, .retry) => .next s
    | (s, .flt c i) => .next (s.trapPath w ⟨c, .at, i, cl.ip, false⟩ cl.ip cl.hpc)
    | (s, .header) => bad s .wordkind
    | (s, .crosses) => bad s .cross
    | (s, .ok f) =>
      if (f.lastOnly && cl.left != 1) || (f.firstOnly && !cl.first) then bad s .branchpos
      else
        match decodeFields (!w.isSup) cl.set0.isSome ((s.strand w).fibre ((lanesOf p.mask).headD 0)).win.length f with
        | .error c => bad s c
        | .ok i => run i s

/-- The signal that a fibre of a path has been chosen for, and its lane (R385). -/
def State.chosenAt (s : State) (w : Who) (p : Path) : Option (LaneId × Nat) :=
  (lanesOf p.mask).findSome? fun l => ((s.strand w).fibre l).sel.map fun g => (w.lane l, g)

/-- One issue of a strand: the word its path stands at, a signal's stop at a header, or the header itself (R17, R154, R385). -/
def issueAt (run : Instr → State → Host.Outcome State Fault Refusal) (w : Who) (s : State) : Host.Outcome State Fault Refusal :=
  let l := ((s.strand w).cur.map fun p => (lanesOf p.mask).headD 0).getD 0
  let s := { s with cur := some w, agent := .lane (w.lane l) (s.fibre w l).issued }
  let st := s.strand w
  match st.cur with
  | none => run .clauseHeader s
  | some p =>
    if !s.pathReady w st p then run .clauseHeader s
    else
      match p.cl with
      | some cl => if cl.seek then .next (s.seekAgain w p cl) else issueWord run w p cl s
      | none => match (if w.isSup then none else s.chosenAt w p) with
        | some (l, g) => run (.signalStop l (BitVec.ofNat 4 g)) s
        | none => run .clauseHeader s

/-! ### What may come next -/

/-- A step that may come next: an event, the next input, the command at the head of the queue, or an issue. -/
inductive Move where
  | event (i : Instr)
  | input (i : Instr)
  | command (i : Instr)
  | issue (w : Who)
  deriving DecidableEq, Repr

/-- The event of a message in flight (R248). -/
def msgEvent (f : Flight) : Instr :=
  match f.ty with
  | .gets => .gets f.msg | .getm => .getm f.msg | .upgr => .upgr f.msg | .puts => .puts f.msg | .putm => .putm f.msg
  | .wbdata => .wbdata f.msg | .atom => .atomMsg f.msg | .ack => .ack f.msg | .fwds => .fwds f.msg | .fwdm => .fwdm f.msg
  | .inv => .inv f.msg | .wbgrant => .wbgrant f.msg | .datas => .datas f.msg | .datam => .datam f.msg | .update => .update f.msg
  | .timer => .timer (match f.msg.dst with
    | .cluster c => c
    | _ => 0) f.msg.line

/-- The events that the parts of the memory system and the engines have under way. -/
def State.flowing (s : State) : List Instr :=
  (s.accs.flatMap fun a => [.translation a.id, .lateXlateFault a.id, .storeRelease a.id, .loadResult a.id]) ++
  s.msgs.map msgEvent ++ s.fwds.map Instr.forwardedAccess ++
  (s.ops.flatMap fun o => [.taskSend o.id, .copySegment o.id, .copyPark o.id, .mmaStep o.id, .engineOpComplete o.id, .ringRoom o.id,
    .haloStripSend o.id, .haloStripLand o.id, .haloFault o.id]) ++
  (s.cores.flatMap fun c => c.parking.map fun p =>
    .faultPark p.rope p.sid p.mask ⟨p.flt.cls, p.flt.kind, p.flt.info, p.flt.fva, p.flt.rpc, p.fpc⟩)

/-- The events of fibres that wait. -/
def State.waking (s : State) : List Instr :=
  s.ropes.flatMap fun r => r.strands.zipIdx.flatMap fun q => q.1.fibres.zipIdx.flatMap fun f =>
    let l : LaneId := ⟨r.id, q.2, f.2⟩
    (match f.1.wait with
      | some (.sleep ..) => [Instr.nsleepRetest l, Instr.nsleepDeadline l]
      | _ => []) ++
    (match f.1.sel with
      | some g => [Instr.signalStop l (BitVec.ofNat 4 g)]
      | none => [])

/-- The calls of an entry that need no answer from an agent beyond the device (R380). -/
def callEvents (core : Nat) (seq : Word) : List Instr :=
  [.getpid core seq, .sigaction core seq, .sigmask core seq, .kill core seq, .spmap core seq, .spunmap core seq, .pause core seq,
   .launch core seq, .timerCall core seq]

/-- Events of cores, contexts and the device's own units. -/
def State.unitEvents (s : State) : List Instr :=
  (s.cores.flatMap fun c =>
    (c.rq.filter fun e => decide (e.cls = .syscall)).flatMap (fun e => callEvents c.no e.seq) ++
    (if c.parking ≠ [] ∨ s.ops ≠ [] then [.replayQueueRoom c.no] else []) ++
    (if c.sv.cur.isSome then [.supervisorTick c.no, .stateimg c.no] else []) ++
    (if c.svWait.isSome then [.supervisorFaultResolution c.no (decide (s.picks.headD 0 ≠ 0))] else [])) ++
  ((s.ops.map Op.core).eraseDups.flatMap fun c =>
    [.engineWatchdog c .matrix, .engineWatchdog c .halo] ++ (List.range 4).map fun j => .engineWatchdog c (.copy (BitVec.ofNat 2 j))) ++
  (s.stops.flatMap fun x => [.preemptDeadline x.ctx x.coil, .quiesce x.ctx x.coil, .saveCoil x.ctx x.coil]) ++
  (s.ctxs.flatMap fun c =>
    [Instr.timerExpiry c.no, .scrub c.no none false] ++ (c.queue.map fun l => Instr.launchComplete c.no l.q) ++
    (c.saved.filterMap fun x =>
      -- cores of clusters without mapping entries enough are no candidates (R406)
      let full := (((s.windows.map Window.cluster).eraseDups.filter fun cl => decide (s.freeMaps cl < s.mapsOf x)).flatMap fun cl =>
        (List.range 8).map (8 * cl + ·))
      (s.someRoom (full ++ s.banned c.no) (x.ropes.map fun r => r.need 0)).map fun p => .restoreCoil c.no x.area p)) ++
  (match s.nextCoil with
    | some (c, l, st, k) =>
      [Instr.coilDispatch c.no l.q st k ((s.someRoom (s.banned c.no) (l.ropesIn.map fun _ => l.need 0)).getD ⟨0, [], []⟩)]
    | none => []) ++
  (s.ropes.flatMap fun r => .ropeEnd r.id :: (List.range r.strands.length).map fun i => Instr.staleGldYield r.id i) ++
  ((s.ropes.map fun r => r.id.core).eraseDups.flatMap fun c => (List.range 4).map fun p => Instr.activeSetFill c p) ++
  (s.groups.map fun g => .groupTimeout g.no) ++
  (if s.batch.isSome then [.logBatchClose] else []) ++
  (s.pins.map fun p => .pinExpiry p.cluster p.line) ++
  ((s.copies.filter fun c => c.expiry != 0).map fun c => .timer c.cluster c.line)

/-- Events of the fabric, and evictions, which the device may make at any time. -/
def State.idling (s : State) : List Instr :=
  ((List.range s.fab.tabs.length).flatMap fun k => [.fabcfgAdopt k, .rotorSlot k, .relayForward k]) ++
  (s.fab.assocs.flatMap fun a => [.rekeyCount a.peer, .associationFetch a.peer]) ++
  ((s.fab.flits.filter fun x => decide (s.fab.retry < x.tries)).map fun x => .retryLimit x.peer x.bank x.ctr) ++
  (s.copies.map fun c => .l1Eviction c.cluster c.line)

/-- A strand may issue in this clock cycle: it is ready, holds a slot of the active set, and the issue share lets it; the supervisor
strand is never throttled (R162, R197, R378). -/
def State.mayIssue (s : State) (w : Who) : Bool :=
  (w.isSup || ((s.strand w).slot.isSome && decide (s.gtime * 7 / 10 % 16 < s.share))) && decide ((s.strand w).nextC ≤ s.gtime * 7 / 10) &&
    !s.tableFull w && s.strandReady w

/-- The strands that may issue: those of supervisors first, then the one that issued longest ago (R162). -/
def State.issuers (s : State) : List Who :=
  (((s.cores.filter fun c => c.sv.cur.isSome).map fun c => Who.sup c.no).filter s.mayIssue) ++
  sortBy (fun w => (s.strand w).last) ((s.ropes.flatMap fun r => (List.range r.strands.length).map fun i => Who.strand r.id i).filter s.mayIssue)

/-- The instruction has happened: its rule let it (log 50). -/
def taken : Host.Outcome State Fault Refusal → Bool
  | .refused _ => false
  | .next t => !t.still
  | _ => true

/-- A move made. An input is gone, and a command off the queue, unless it met something not ready for it. A management command that
arrives is written to the queue (R457). -/
def make (run : Instr → State → Host.Outcome State Fault Refusal) (s : State) : Move → Host.Outcome State Fault Refusal
  | .event i => run i { s with cur := none, agent := .sys, still := false }
  | .input i =>
    if isCommand i then .next { s.writeCommand i with inputs := s.inputs.erase i }
    else
      match run i { s with cur := none, agent := .sys, again := false, still := false } with
      | .next t => .next (if t.again then { t with again := false } else { t with inputs := t.inputs.erase i })
      | r => r
  | .command i =>
    match run i { s with cur := none, agent := .sys, again := false, still := false } with
    | .next t => .next (if t.again then { t with again := false } else { t with cmdq := t.cmdq.tail })
    | r => r
  | .issue w =>
    match issueAt run w s with
    | .next t =>
      let core := (t.core w.core)
      let t := t.setStrand w { t.strand w with last := core.issues + 1, nextC := s.gtime * 7 / 10 + 1 }
      let t := t.setCore { t.core w.core with issues := core.issues + 1 }
      .next (t.stepDone w (s.strand w))
    | r => r

/-- The moves that may come next. Before READY only inputs act (R454). -/
def State.moves (run : Instr → State → Host.Outcome State Fault Refusal) (s : State) : List Move :=
  let ok := fun (i : Instr) => taken (run i { s with cur := none, agent := .sys, again := false, still := false })
  let arrives := ((s.inputs.find? fun i => isCommand i || ok i).map Move.input).toList
  if s.boot ≠ .ready then arrives
  else
    ((s.flowing ++ s.waking).filter ok).map Move.event ++ arrives ++ ((s.cmdq.head?.toList.filter ok).map Move.command) ++ s.issuers.map Move.issue ++
      ((s.unitEvents ++ s.idling).filter ok).map Move.event

/-! ### What follows at once -/

/-- Every lane of the ropes, for waits that end by themselves. -/
def State.waitingLanes (s : State) : List LaneId :=
  s.ropes.flatMap fun r => r.strands.zipIdx.flatMap fun q => (q.1.fibres.zipIdx.filter fun f => f.1.wait.isSome).map fun f => ⟨r.id, q.2, f.2⟩

/-- Pending strands note since when they are ready; a strand that holds a slot is not pending (R162, R163). -/
def State.noteReady (s : State) : State :=
  let mark := fun (r : Rope) (i : Nat) (st : Strand) =>
    { st with ready := if st.slot.isSome then none
                       else if s.strandReady (.strand r.id i) then some (st.ready.getD s.gtime) else none }
  { s with ropes := s.ropes.map fun (r : Rope) => { r with strands := r.strands.mapIdx (mark r) } }

/-- Where a strand's current path has become empty or blocked, a path is selected (R154, R175). -/
def State.reselect (s : State) (w : Who) : State :=
  let st := s.strand w
  let held := match w with
    | .sup _ => true
    | .strand r _ => (s.core r.core).stopped || ((s.rope? r).map Rope.halt).getD true
  let blocked := match st.cur with
    | some p => !s.pathReady w st p
    | none => !st.others.isEmpty
  if blocked && !held && !st.halted && !st.full && st.stale.isNone then s.setStrand w (s.selectPath w st) else s

/-- What the spec says comes about without a step of its own: waits that are over, completions that nothing holds back any more, the
service cores' and the default supervisor's own work (log 10). -/
def State.settle (s : State) : State :=
  if s.boot ≠ .ready then { s.noteReady with cur := none, agent := .sys, again := false, still := false }
  else
    let s := { s with agent := .sys }.tidyAsks
    let s := s.waitingLanes.foldl (fun (s : State) l => (s.releaseLane l.rope l.sid l.lane).releaseGrid l.rope l.sid l.lane) s
    let s := s.shpwDone
    let s := s.ropes.foldl (fun (s : State) r => (r.ties.zipIdx.filter fun t => t.1.second ≠ []).foldl (fun (s : State) t => s.tieRetry r.id t.2) s) s
    let s := s.gridDeletes.haloSettle
    let s := s.ropes.foldl (fun (s : State) r => (List.range r.strands.length).foldl (fun (s : State) i => s.unstale (.strand r.id i)) s) s
    let s := s.ropes.foldl (fun (s : State) r => (List.range r.strands.length).foldl (fun (s : State) i => s.reselect (.strand r.id i)) s) s
    let s := (s.ctxs.filter Context.ringNew).foldl (fun (s : State) c => s.zeroRing c.no) s
    let s := s.stopFibres.engineSignals.chooseAll.attendAll.finishDying.finishCmd.postTails.depPoll.dropSaved.makeRoom.leaveCtxs
    let s := (s.cores.filter fun c => c.rft.isSome).foldl (fun (s : State) c => s.rftWake c.no) s
    let s := s.groupReports.releaseFetched.peerOut.thermalSettle
    { s.noteReady with cur := none, agent := .sys, again := false, still := false }

/-- Time passes: by 1 ns, or as the list of ticks says (log 5). -/
def State.tick (s : State) : State := { s with gtime := s.gtime + s.ticks.headD 1, ticks := s.ticks.tail }

/-- The move that comes next: the first, or the one that the list of choices names (log 4). -/
def State.chooseMove (l : List Move) (s : State) : Option Move × State :=
  match s.sched with
  | [] => (l.head?, s)
  | k :: ks => (l[k % l.length]?, { s with sched := ks })

/-- One step with a given meaning of instructions. Where nothing else can come about, time passes. -/
def stepWith (run : Instr → State → Host.Outcome State Fault Refusal) (s : State) : Host.Outcome State Fault Refusal :=
  let s := s.tick
  match State.chooseMove (s.moves run) s with
  | (none, s) => .next s.settle
  | (some m, s) => match make run s m with
    | .next t => .next t.settle
    | r => r

end Sys2Proof.Machine
end

