-- ==== Sys2Proof/Machine/Place.lean ====
section
/-! DEFINITION. A rope, or the supervisor strand, placed at one word, so that the next step fetches and runs it (log 68). -/

namespace Sys2Proof.Machine

/-- Address of the placed word's clause header; the word follows it. -/
def placeAt : Nat := 0x1000

/-- The bytes of the line at `placeAt`: a header of one word with set0 valid, then the word. -/
def placeLine (nbits w : Nat) : List Byte := leBytes 8 (3 + 2 ^ 22) ++ leBytes 16 (w % 2 ^ nbits) ++ List.replicate 104 0

/-- The clause of that header, at its first and only word. -/
def placeClause : Clause := clauseOf (BitVec.ofNat 64 placeAt) (3 + 2 ^ 22)

/-- The path that stands at the word. -/
def placePath : Path := ⟨1, BitVec.ofNat 64 placeAt, 0, false, some placeClause⟩

/-- A rope of one fibre with a window of 256 registers and 16 tiles, at the word. -/
def placeRope (now : Nat) : Rope :=
  { shell ⟨0, 0⟩ ⟨1, 256, 4096, 16, 0⟩ 0 with
    nrope := 1, nf := 1,
    strands := [{ Strand.init with
      fibres := Fibre.start 256 (BitVec.ofNat 64 placeAt) :: List.replicate 31 Fibre.vacant, cur := some placePath, slot := some 0, since := now }] }

/-- The word is one of those that only the supervisor strand runs (R70). -/
def placedSup (w : Nat) : Bool := decide (0x385 ≤ bits w 2 10 ∧ bits w 2 10 ≤ 0x38C)

/-- The leaf of the page that holds the word: present, executable, local, under slot 0. -/
def placeLeaf : BitVec 128 := 0x117

/-- The leaf cached at the home slice of the word's line. -/
def placeTlb : List Tlb := [⟨sliceOf ⟨0, placeAt / 128⟩, 0, 0, false, placeLeaf, 0⟩]

/-- The device READY with one rope, of context 0, or with the supervisor strand of core 0, at the word; nothing else is under way. -/
def State.placed (s : State) (nbits w : Nat) : State :=
  let line := placeLine nbits w
  let sup := placedSup w
  let s := { s with
    boot := .ready, share := 16, accs := [], msgs := [], fwds := [], ops := [], stops := [], cmds := [], sched := [], picks := [], inputs := [],
    cur := none, tlb := placeTlb ++ s.tlb.filter fun (t : Tlb) => decide (t.ctx ≠ 0), hbm := cellsWrite s.hbm placeAt line,
    hbmKey := eraseBy Prod.fst (placeAt / 128) s.hbmKey, ropes := if sup then [] else [placeRope s.gtime],
    ctxs := upsert Context.no { Context.blank 0 0 with resident := true } s.ctxs }
  let core := Core.init 0
  if sup then
    let sv := Strand.sup (BitVec.ofNat 64 placeAt) (Config.svPage 0)
    { s with svMem := cellsWrite s.svMem placeAt line, cores := [{ core with sv := { sv with cur := some placePath } }] }
  else { s with cores := [{ core with fetched := [(0, placeAt / 128, line)] }] }

end Sys2Proof.Machine
end

