-- ==== Sys2Proof/Laws/Memory.lean ====
section
/-! SUPPORT. Laws of byte cells: the canonical form is kept, reads after writes, lists keyed by a number. -/

namespace Sys2Proof.Machine

theorem wfFrom_mono {lo lo' : Nat} (h : lo' ≤ lo) : ∀ {l : List Host.Cell}, Memory.wfFrom lo l = true → Memory.wfFrom lo' l = true
  | [], _ => rfl
  | (a, v) :: l, w => by
    simp only [Memory.wfFrom, Bool.and_eq_true, decide_eq_true_eq] at w ⊢
    exact ⟨⟨by omega, w.1.2⟩, w.2⟩

/-- An address below every cell reads as the default. -/
theorem cellRead_below {lo : Nat} : ∀ {l : List Host.Cell} {a : Nat}, Memory.wfFrom lo l = true → a < lo → cellRead l a = cellDefault
  | [], _, _, _ => rfl
  | (b, v) :: l, a, w, h => by
    simp only [Memory.wfFrom, Bool.and_eq_true, decide_eq_true_eq] at w
    have h1 : a ≠ b := by omega
    have h2 : a < b := by omega
    simp [cellRead, h1, h2]

theorem cellWrite_wfFrom {lo : Nat} (a : Nat) (v : Byte) (h : lo ≤ a) : ∀ {l : List Host.Cell}, Memory.wfFrom lo l = true →
    Memory.wfFrom lo (cellWrite l a v) = true
  | [], _ => by
    unfold cellWrite
    split <;> simp_all [Memory.wfFrom]
  | (b, u) :: l, w => by
    have w' := w
    simp only [Memory.wfFrom, Bool.and_eq_true, decide_eq_true_eq] at w
    unfold cellWrite
    split
    · split
      · exact w'
      · simp only [Memory.wfFrom, Bool.and_eq_true, decide_eq_true_eq]
        refine ⟨⟨h, ‹_›⟩, ⟨by omega, w.1.2⟩, w.2⟩
    · split
      · split
        · exact wfFrom_mono (by omega) w.2
        · simp only [Memory.wfFrom, Bool.and_eq_true, decide_eq_true_eq]
          exact ⟨⟨w.1.1, ‹_›⟩, w.2⟩
      · simp only [Memory.wfFrom, Bool.and_eq_true, decide_eq_true_eq]
        exact ⟨w.1, cellWrite_wfFrom a v (by omega) w.2⟩

/-- One byte written keeps the canonical form. -/
theorem cellWrite_wf {l : List Host.Cell} (a : Nat) (v : Byte) (h : Memory.wf l = true) : Memory.wf (cellWrite l a v) = true :=
  cellWrite_wfFrom a v (Nat.zero_le a) h

/-- Bytes written keep the canonical form. -/
theorem cellsWrite_wf : ∀ (b : List Byte) {l : List Host.Cell} (a : Nat), Memory.wf l = true → Memory.wf (cellsWrite l a b) = true
  | [], _, _, h => h
  | v :: bs, _, a, h => cellsWrite_wf bs (a + 1) (cellWrite_wf a v h)

/-- A read after a write to the same address gives the byte written; any other address reads as before. -/
theorem cellRead_cellWrite {lo : Nat} (a : Nat) (v : Byte) (x : Nat) : ∀ {l : List Host.Cell}, Memory.wfFrom lo l = true →
    cellRead (cellWrite l a v) x = if x = a then v else cellRead l x
  | [], _ => by
    unfold cellWrite
    split
    · rename_i h; subst h; simp [cellRead]
    · simp only [cellRead]; split <;> simp_all
  | (b, u) :: l, w => by
    have w' := w
    simp only [Memory.wfFrom, Bool.and_eq_true, decide_eq_true_eq] at w
    unfold cellWrite
    split
    · rename_i hab
      split
      · rename_i hv
        split
        · rename_i hx; subst hx
          have : x ≠ b := by omega
          simp [cellRead, this, hab, hv]
        · rfl
      · rename_i hv
        by_cases hx : x = a
        · simp [cellRead, hx]
        · by_cases hlt : x < a
          · have h1 : x ≠ b := by omega
            have h2 : x < b := by omega
            simp [cellRead, hx, hlt, h1, h2]
          · simp [cellRead, hx, hlt]
    · rename_i hab
      split
      · rename_i heq
        split
        · rename_i hv
          by_cases hx : x = a
          · subst hx
            rw [if_pos rfl, cellRead_below w.2 (by omega), hv]
          · have hxb : x ≠ b := by omega
            rw [if_neg hx]
            by_cases hlt : x < b
            · rw [cellRead_below w.2 (by omega)]; simp [cellRead, hxb, hlt]
            · simp [cellRead, hxb, hlt]
        · rename_i hv
          by_cases hx : x = a
          · subst hx; simp [cellRead, heq]
          · have hxb : x ≠ b := by omega
            simp [cellRead, hx, hxb]
      · rename_i hne
        by_cases hx : x = b
        · have : x ≠ a := by omega
          simp [cellRead, hx, Ne.symm hne]
        · by_cases hlt : x < b
          · have : x ≠ a := by omega
            simp [cellRead, hx, hlt, this]
          · simp only [cellRead, hx, hlt, if_false]
            exact cellRead_cellWrite a v x w.2

/-- Bytes written: an address outside them reads as before. -/
theorem cellRead_cellsWrite_out : ∀ (b : List Byte) {l : List Host.Cell} (a x : Nat), Memory.wf l = true → (x < a ∨ a + b.length ≤ x) →
    cellRead (cellsWrite l a b) x = cellRead l x
  | [], _, _, _, _, _ => rfl
  | v :: bs, l, a, x, h, o => by
    have hl : (v :: bs).length = bs.length + 1 := rfl
    show cellRead (cellsWrite (cellWrite l a v) (a + 1) bs) x = _
    rw [cellRead_cellsWrite_out bs (a + 1) x (cellWrite_wf a v h) (by omega), cellRead_cellWrite a v x h]
    simp only [if_neg (show x ≠ a by omega)]

/-- Bytes written read back. -/
theorem cellRead_cellsWrite_in : ∀ (b : List Byte) {l : List Host.Cell} (a i : Nat) (_ : Memory.wf l = true) (hi : i < b.length),
    cellRead (cellsWrite l a b) (a + i) = b[i]
  | [], _, _, _, _, hi => absurd hi (Nat.not_lt_zero _)
  | v :: bs, l, a, 0, h, _ => by
    show cellRead (cellsWrite (cellWrite l a v) (a + 1) bs) a = v
    rw [cellRead_cellsWrite_out bs (a + 1) a (cellWrite_wf a v h) (by omega), cellRead_cellWrite a v a h]
    simp
  | v :: bs, l, a, i + 1, h, hi => by
    have := cellRead_cellsWrite_in bs (l := cellWrite l a v) (a + 1) i (cellWrite_wf a v h) (by simpa using hi)
    rw [show a + (i + 1) = a + 1 + i by omega]
    show cellRead (cellsWrite (cellWrite l a v) (a + 1) bs) (a + 1 + i) = _
    simpa using this

/-! ### Lists keyed by a number -/

theorem lookupBy_upsert {α κ : Type} [DecidableEq κ] (key : α → κ) (x : α) (k : κ) : ∀ l : List α,
    lookupBy key k (upsert key x l) = if key x = k then some x else lookupBy key k l
  | [] => by simp [upsert, lookupBy]
  | y :: l => by
    unfold upsert
    by_cases h : key y = key x
    · rw [if_pos h]
      by_cases hk : key x = k
      · simp [lookupBy, hk]
      · have : key y ≠ k := by rw [h]; exact hk
        simp [lookupBy, hk, this]
    · rw [if_neg h]
      by_cases hk : key y = k
      · have : key x ≠ k := by rw [← hk]; exact Ne.symm h
        simp [lookupBy, hk, this]
      · simp [lookupBy, hk, lookupBy_upsert key x k l]

end Sys2Proof.Machine
end

