-- ==== Sys2Proof/Safety.lean ====
section
/-! DEFINITION. What the statements about the machine are made of: what a word leaves alone, what one word does to the fibres that
execute it, and the form that every step keeps. -/

namespace Sys2Proof.Machine

/-- A fibre's registers and standing, without where its path stands and what the issue of a word counts. -/
def Fibre.regs (f : Fibre) : Fibre := { f with pc := 0, cl := none, uage := 0, issued := 0, noBrk := false, rtry := false }

/-- A strand but for its fibres, its paths, what their quanta count and its place in the active set: its flags, its QUANTUM and SRSEED,
its held stores. -/
def Strand.own (st : Strand) : Strand := 
  { st with fibres := [], cur := none, others := [], spent := false, gone := none, brim := [], slot := none, since := 0, ready := none }

/-- A rope but for its strands. -/
def Rope.own (r : Rope) : Rope := { r with strands := [] }

/-- A core but for its supervisor strand. -/
def Core.own (c : Core) : Core := { c with sv := Strand.init }

/-- From s to t nothing changes outside the strand of w: no byte of memory, no context, no engine operation, no access, no other
strand's fibres, nothing of a rope or a core but its strands, and of no strand its flags or its control registers. -/
structure Keeps (s t : State) (w : Who) : Prop where
  rest    : { t with ropes := s.ropes, cores := s.cores } = s
  ropes   : ∀ r, (t.rope? r).map Rope.own = (s.rope? r).map Rope.own
  cores   : ∀ n, (t.core n).own = (s.core n).own
  strands : ∀ v, (t.strand v).own = (s.strand v).own
  other   : ∀ v, v ≠ w → ∀ l, t.fibre v l = s.fibre v l

/-- A word that stands to be issued: not one of R508 in the supervisor strand, and no executing lane in a hazard (R21, R24). -/
structure Ready (s : State) (c : Cx) (i : Iss) : Prop where
  stands : s.cx? i.len = some c
  may    : c.barred i = false
  clear  : ∀ l ∈ c.lanes i.g, (c.st.fibre l).hazard i.uses = false

/-- From u to t only where the paths of w stand, what the issue of a word counts, and slots of active sets have changed. -/
structure Moved (u t : State) (w : Who) : Prop where
  keeps : Keeps u t w
  regs  : ∀ l, (t.fibre w l).regs = (u.fibre w l).regs

/-- Lane l at work on the word of c, whose issue has taken its number. -/
def State.atLane (s : State) (c : Cx) (l : Nat) : State := s.fresh.2.as (c.doer s.fresh.2 l)

/-- Inside a clause the path of c, if a fibre of it lives, stands at the next word in t (R33). -/
def Goes (c : Cx) (t : State) : Prop :=
  1 < c.cl.left → (∃ l ∈ lanesOf c.path.mask, (c.st.fibre l).st = .live) → ((t.strand c.who).cur.bind Path.cl).map Clause.ip = some c.next

/-- From s to t a word has completed for the path of c: an executing lane's registers have become what f makes of them, every other
lane of the strand keeps its own, nothing else has changed, and inside a clause the path stands at the next word (R24, R33, R82). -/
structure Done (s t : State) (c : Cx) (g : Guard) (f : Nat → Fibre → Fibre) : Prop where
  keeps : Keeps s t c.who
  lanes : ∀ l, l < c.st.fibres.length → l ∈ c.lanes g → (t.fibre c.who l).regs = (f l (s.fibre c.who l)).regs
  still : ∀ l, l < c.st.fibres.length → l ∉ c.lanes g → (t.fibre c.who l).regs = (s.fibre c.who l).regs
  goes  : Goes c t

/-- THE EFFECT OF A WORD ON REGISTERS ALONE, where every executing lane meets `ok`: the word completes, and f says what becomes of
the executing lanes. -/
def EffectIf (i : Instr) (iss : Iss) (ok : State → Cx → Nat → Fibre → Prop) (f : State → Cx → Nat → Fibre → Fibre) : Prop :=
  ∀ s c, Ready s c iss → (∀ l ∈ c.lanes iss.g, ok s c l (c.st.fibre l)) →
    ∃ t, exec i s = .next t ∧ Done s t c iss.g (f s c)

/-- The effect of a word that completes for any operands. -/
def Effect (i : Instr) (iss : Iss) (f : Fibre → Fibre) : Prop := EffectIf i iss (fun _ _ _ _ => True) (fun _ _ _ fb => f fb)

/-- A word that stands to be issued and that nothing stalls (R19, R170, R238). -/
structure Free (s : State) (c : Cx) (i : Iss) : Prop where
  ready : Ready s c i
  free  : s.stalls c i = false

/-- A fibre after a word that completes: one that executed a committing instruction is in serial mode (R373). -/
def Iss.mark (i : Iss) (f : Fibre) : Fibre := if i.commit then { f with serial := true } else f

/-- The lanes of a list in turn: what each does beyond its fibre, and what its fibre becomes (R269). -/
def State.each (s : State) (c : Cx) (i : Iss) (ls : List Nat) (act : State → Nat → State) (fib : Nat → Fibre) : State :=
  ls.foldl (fun u l => (act u l).setFibre c.who l (i.mark (fib l))) s

/-- The flag of the word raised for n operations (R18). -/
def State.raised (s : State) (c : Cx) (i : Iss) (tag n : Nat) : State :=
  s.setStrand c.who ((s.strand c.who).raiseDue (c.flag i) tag n)

/-- A word has done what makes u of the state, and its path has gone on; nothing else has changed. -/
structure Passed (u t : State) (c : Cx) : Prop where
  moved : Moved u t c.who
  goes  : Goes c t

/-- THE EFFECT OF A WORD BEYOND REGISTERS, where it is free to issue and every executing lane meets `ok`: it completes; in lane order
`act` is what each lane does beyond its fibre, `fib` what its fibre becomes, and `due` operations of each count towards the word's
flag. The number of the issue, which becomes the tag of its operations, is the first argument of act. -/
def Acts (ins : Instr) (i : Iss) (ok : State → Cx → Nat → Prop) (act : Nat → Cx → State → Nat → State) (fib : State → Cx → Nat → Fibre)
    (due : Nat) : Prop :=
  ∀ s c, Free s c i → (∀ l ∈ c.lanes i.g, ok s c l) →
    ∃ t, exec ins s = .next t ∧
      Passed ((s.fresh.2.each c i (c.lanes i.g) (act s.nextId c) (fib s c)).raised c i s.nextId (due * (c.lanes i.g).length)) t c

/-- THE EFFECT OF A WORD OF ONE EXECUTING LANE l: it completes; u is what it makes of the rest of the machine, f of the lane's fibre,
and n operations of it count towards the word's flag. Nothing else has changed but where paths stand. -/
def Acted (ins : Instr) (i : Iss) (s : State) (c : Cx) (l : Nat) (u : State) (f : Fibre) (n : Nat) : Prop :=
  ∃ t, exec ins s = .next t ∧ Moved ((u.setFibre c.who l (i.mark f)).raised c i s.nextId n) t c.who

/-- A WORD OF ONE EXECUTING LANE THAT TRAPS: the trap is taken, by State.park at the word's restart PC, in a state w that differs from
u only in where paths stand, and from there again only where paths stand changes (R82, R363). -/
def Trapped (ins : Instr) (s u : State) (c : Cx) (l : Nat) (t : Trap) : Prop :=
  ∃ w v, exec ins s = .next v ∧ Moved u w c.who ∧
    Moved (w.park c.who [l] t (if t.kind = .knot then (u.fibre c.who l).kpc else if t.after then c.next else c.ip) c.ip c.cl.hpc) v c.who

/-- A float result: no enabled trap meets its conditions; they are recorded in FPSTAT and the value goes to d and lat (R119). -/
def floatFine (r : Fibre → Nat × Nat) (_ : State) (_ : Cx) (_ : Nat) (f : Fibre) : Prop := f.traps (r f).2 = false

/-- What a float word leaves in its fibre. -/
def floatDone (w : Bool) (d : Dst) (r : Fibre → Nat × Nat) (_ : State) (_ : Cx) (_ : Nat) (f : Fibre) : Fibre :=
  (f.raise (r f).2).result w d (r f).1

/-- What a branch of one executing lane to T comes to: the target's test, then the link; where the target's line is at hand, the path
stands at the target. -/
def Branches (ins : Instr) (i : Iss) (T : Cx → Fibre → DWord) (link : Cx → Fibre → Fibre) : Prop :=
  ∀ s c l, Free s c i → c.lanes i.g = [l] → ∀ u, (s.atLane c l).target c.who (T c (c.st.fibre l)) = (u, .header) →
    ∃ t, exec ins s = .next t ∧ Moved ((u.as s.agent).setFibre c.who l (link c (c.st.fibre l))) t c.who ∧
      (u.as s.agent = s.fresh.2 → c.cl.left ≤ 1 → c.cl.yield = false → lanesOf c.path.mask = [l] → (link c (c.st.fibre l)).st = .live → (c.st.fibre l).st = .live →
        (t.strand c.who).cur.map (fun p => (p.pc, p.cl)) = some (T c (c.st.fibre l), none))

/-- The access that a lane's LD, LDRO, ST or atomic makes (R267, R271, R272, R277). -/
def accessOf (s : State) (c : Cx) (l : Nat) (a : Src) (up : MemUp) (z : Nat) (k : AccKind) : Access :=
  { accOf (c.who.lane l) ((s.ctxOf c.who).getD 0) ((c.st.fibre l).gea a up.off) z k c.ip c.cl.hpc with scope := up.scope, order := up.order }

/-- The words that start engine operations, each with what it needs to issue (R18, R326, R333). -/
def Starts (ins : Instr) (i : Iss) : Prop :=
  ∃ (g : Guard) (d : Option (BitVec 8)) (x y b w : Src) (u : CopyUp) (t : TileUp),
    ((ins = .xcp g d x y b u ∨ ins = .xgath g d x y b u ∨ ins = .xscat g d x y b u ∨ ins = .xred g d x y b u) ∧ i = engIss g (copyUses d [x, y] b u)) ∨
    (ins = .xfill g d y b u ∧ i = engIss g (copyUses d [y] b u)) ∨
    ((ins = .tld g d x w t ∨ ins = .tst g d x w t) ∧ i = engIss g (tileUses d [x] w t)) ∨
    ((ins = .tzero g d w t ∨ ins = .trow g d w t ∨ (∃ na nb nacc sat acc16, ins = .mma g na nb nacc sat acc16 d w t) ∨
      (∃ op sat, ins = .tew g op sat d w t) ∨ (∃ sat rc, ins = .tcvt g sat rc d w t) ∨ ∃ op, ins = .tred g op d w t) ∧
      i = engIss g (tileUses d [] w t))

/-- The form that every step leaves the machine in: no word is being issued, no input is being repeated, and no strand that holds a
slot of the active set counts as pending (R162, R163). -/
structure State.AtRest (s : State) : Prop where
  cur   : s.cur = none
  again : s.again = false
  sets  : ∀ r ∈ s.ropes, ∀ st ∈ r.strands, st.slot.isSome = true → st.ready = none

end Sys2Proof.Machine
end

