-- ==== Sys2Proof/Certificates/Slice0/Obligations.lean ====
section
/-! DEFINITION. The statements about the machine, in the order of the spec's instruction groups, then of its other units. -/

open Sys2Proof Sys2Proof.Machine

/-! ### Groups 1 to 7: words on registers alone -/

/-- R91, R95 to R97: the integer arithmetic words write their result to d and lat, and nothing else changes. R91, R81: without .sat, IADD,
ISUB and IMUL of a scalar type of width W write the sum, difference and product modulo 2^W, and under .i32.sat IADD writes the sum clamped
to the range of a signed 32-bit number. -/
def Obligations.IntegerResults : Prop :=
  (∀ (g : Guard) (t : IType) (sat : Bool) (d : Dst) (a b c : Src),
     let i1 := aluIss g t.is64 (some d) [(.i t, a)]
     let i2 := aluIss g t.is64 (some d) [(.i t, a), (.i t, b)]
     let i3 := aluIss g t.is64 (some d) [(.i t, a), (.i t, b), (.i t, c)]
     let x := fun (f : Fibre) => f.src (.i t) a
     let y := fun (f : Fibre) => f.src (.i t) b
     Effect (.iadd g t sat d a b) i2 (fun f => f.result t.is64 d (vIadd t sat (x f) (y f))) ∧
     Effect (.isub g t sat d a b) i2 (fun f => f.result t.is64 d (vIsub t sat (x f) (y f))) ∧
     Effect (.imul g t sat d a b) i2 (fun f => f.result t.is64 d (vImul t sat (x f) (y f))) ∧
     Effect (.imulh g t d a b) i2 (fun f => f.result t.is64 d (vImulh t (x f) (y f))) ∧
     Effect (.imad g t sat d a b c) i3 (fun f => f.result t.is64 d (vImad t sat (x f) (y f) (f.src (.i t) c))) ∧
     Effect (.iabs g t sat d a) i1 (fun f => f.result t.is64 d (vIabs t sat (x f))) ∧
     Effect (.ineg g t sat d a) i1 (fun f => f.result t.is64 d (vIneg t sat (x f))) ∧
     Effect (.imin g t d a b) i2 (fun f => f.result t.is64 d (vImin t (x f) (y f))) ∧
     Effect (.imax g t d a b) i2 (fun f => f.result t.is64 d (vImax t (x f) (y f))) ∧
     Effect (.isad g t d a b c) (aluIss g false (some d) [(.i t, a), (.i t, b), (.i .ui32, c)])
       (fun f => f.result false d (vIsad t (x f) (y f) (f.src (.i .ui32) c))) ∧
     (∀ sh, Effect (.lea g t sh d a b) (aluIss g true (some d) [(.i .ui64, a), (.i t, b)])
       (fun f => f.result true d (vLea t sh.toNat (f.src (.i .ui64) a) (y f)))) ∧
     (∀ sub nc p, Effect (.iaddc g t sub nc d p a b) i2 (fun f =>
       let r := vIaddc t sub (!nc && f.pred p) (x f) (y f)
       (f.result t.is64 d r.1).setPred p r.2))) ∧
  ((∀ (t : IType) (a b : Nat), t.scalar = true →
     vIadd t false a b = (a + b) % 2 ^ iw t ∧
     (vIsub t false a b : Int) = ((a : Int) - b) % 2 ^ iw t ∧
     vImul t false a b = a * b % 2 ^ iw t) ∧
   (∀ a b : BitVec 32, BitVec.ofNat 32 (vIadd .i32 true a.toNat b.toNat) =
     BitVec.ofInt 32 (max (-2 ^ 31) (min (2 ^ 31 - 1) (a.toInt + b.toInt)))))

/-- R92: IMADW reads 32-bit factors and a 64-bit addend of one signedness, and writes the pair d with a × b + c, without .sat modulo 2^64,
with it clamped to the range of the type (R81). -/
def Obligations.ImadwWritesTheWideSum : Prop :=
  ∀ (g : Guard) (d : Dst) (a b c : Src),
    Effect (.imadw g .ui32 false d a b c) (aluIss g true (some d) [(.i .ui32, a), (.i .ui32, b), (.i .ui64, c)])
      (fun f => f.result true d ((f.src (.i .ui32) a % 2 ^ 32 * (f.src (.i .ui32) b % 2 ^ 32) + f.src (.i .ui64) c) % 2 ^ 64)) ∧
    Effect (.imadw g .i32 false d a b c) (aluIss g true (some d) [(.i .i32, a), (.i .i32, b), (.i .i64, c)])
      (fun f => f.result true d (BitVec.ofInt 64 ((BitVec.ofNat 32 (f.src (.i .i32) a)).toInt * (BitVec.ofNat 32 (f.src (.i .i32) b)).toInt +
        (BitVec.ofNat 64 (f.src (.i .i64) c)).toInt)).toNat) ∧
    Effect (.imadw g .ui32 true d a b c) (aluIss g true (some d) [(.i .ui32, a), (.i .ui32, b), (.i .ui64, c)])
      (fun f => f.result true d (min (f.src (.i .ui32) a % 2 ^ 32 * (f.src (.i .ui32) b % 2 ^ 32) + f.src (.i .ui64) c % 2 ^ 64) (2 ^ 64 - 1))) ∧
    Effect (.imadw g .i32 true d a b c) (aluIss g true (some d) [(.i .i32, a), (.i .i32, b), (.i .i64, c)])
      (fun f => f.result true d (BitVec.ofInt 64 (max (-2 ^ 63) (min (2 ^ 63 - 1) ((BitVec.ofNat 32 (f.src (.i .i32) a)).toInt *
        (BitVec.ofNat 32 (f.src (.i .i32) b)).toInt + (BitVec.ofNat 64 (f.src (.i .i64) c)).toInt)))).toNat) ∧
    (0xFFFFFFFF * 0xFFFFFFFF + 1 : Nat) % 2 ^ 64 = 0xFFFFFFFE00000002

/-- R93, R94: a division completes where no executing lane divides by zero under INTCTL.IDZE; IDIV and IREM then write quotient and
remainder, and without IDZE a divisor of zero gives all ones and the dividend. -/
def Obligations.DivisionResults : Prop :=
  (∀ (g : Guard) (t : IType) (sat : Bool) (d : Dst) (a b : Src),
    let i := aluIss g t.is64 (some d) [(.i t, a), (.i t, b)]
    let ok := fun (_ : State) (_ : Cx) (_ : Nat) (f : Fibre) => ¬ (f.src (.i t) b = 0 ∧ f.intctl.getLsbD 0 = true)
    EffectIf (.idiv g t sat d a b) i ok (fun _ _ _ f => f.result t.is64 d (vIdiv t sat (f.src (.i t) a) (f.src (.i t) b))) ∧
    EffectIf (.irem g t d a b) i ok (fun _ _ _ f => f.result t.is64 d (vIrem t (f.src (.i t) a) (f.src (.i t) b)))) ∧
  (∀ (sat : Bool) (a : BitVec 32), vIdiv .ui32 sat a.toNat 0 = 2 ^ 32 - 1 ∧ vIrem .ui32 a.toNat 0 = a.toNat) ∧
  (∀ a b : BitVec 32, b ≠ 0 → vIdiv .ui32 false a.toNat b.toNat = a.toNat / b.toNat ∧ vIrem .ui32 a.toNat b.toNat = a.toNat % b.toNat)

/-- R99: AND, OR, XOR and ANDN give a & b, a | b, a ^ b and a & ~b, bit by bit, over the type's width. -/
def Obligations.LogicIsBitByBit : Prop :=
  ∀ (g : Guard) (t : IType) (d : Dst) (a b : Src),
    let i := aluIss g t.is64 (some d) [(.i t, a), (.i t, b)]
    let x := fun (f : Fibre) => f.src (.i t) a
    let y := fun (f : Fibre) => f.src (.i t) b
    Effect (.and g t d a b) i (fun f => f.result t.is64 d (x f &&& y f)) ∧
    Effect (.or g t d a b) i (fun f => f.result t.is64 d (x f ||| y f)) ∧
    Effect (.xor g t d a b) i (fun f => f.result t.is64 d (x f ^^^ y f)) ∧
    Effect (.andn g t d a b) i (fun f => f.result t.is64 d (vAndn t (x f) (y f))) ∧
    (∀ f j, j < iw t → (vAndn t (x f) (y f)).testBit j = ((x f).testBit j && !(y f).testBit j))

/-- R100 to R103: shifts, bit fields, counts and permutations write their result to d and lat, and nothing else changes. R100, R102: a shift
by the width or more gives zero, SAR the sign; POPC counts ones, CLZ of zero is the width, BREV moves bit j to bit W − 1 − j. -/
def Obligations.BitResults : Prop :=
  (∀ (g : Guard) (t : IType) (d : Dst) (a b c : Src),
     let sh := aluIss g t.is64 (some d) [(.i t, a), (shiftPos t, b)]
     let x := fun (f : Fibre) => f.src (.i t) a
     let n := fun (f : Fibre) => f.src (shiftPos t) b
     Effect (.shl g t d a b) sh (fun f => f.result t.is64 d (vShl t (x f) (n f))) ∧
     Effect (.shr g t d a b) sh (fun f => f.result t.is64 d (vShr t (x f) (n f))) ∧
     Effect (.sar g t d a b) sh (fun f => f.result t.is64 d (vSar t (x f) (n f))) ∧
     Effect (.rotl g t d a b) sh (fun f => f.result t.is64 d (vRotl t (x f) (n f))) ∧
     Effect (.bfx g t d a b) (aluIss g t.is64 (some d) [(.i t, a), (.i .ui32, b)]) (fun f => f.result t.is64 d (vBfx t (x f) (f.src (.i .ui32) b))) ∧
     Effect (.bfi g t d a b c) (aluIss g t.is64 (some d) [(.i t, a), (.i t, b), (.i .ui32, c)])
       (fun f => f.result t.is64 d (vBfi t (x f) (f.src (.i t) b) (f.src (.i .ui32) c))) ∧
     Effect (.popc g t d a) (aluIss g false (some d) [(.i t, a)]) (fun f => f.result false d (vPopc t (x f))) ∧
     Effect (.clz g t d a) (aluIss g false (some d) [(.i t, a)]) (fun f => f.result false d (vClz t (x f))) ∧
     Effect (.brev g t d a) (aluIss g t.is64 (some d) [(.i t, a)]) (fun f => f.result t.is64 d (vBrev t (x f))) ∧
     (∀ gr, Effect (.prmt g t gr d a b c) (aluIss g false (some d) [(.i t, a), (.i t, b), (.i t, c)])
       (fun f => f.result false d (vPrmt gr (x f) (f.src (.i t) b) (f.src (.i t) c))))) ∧
  ((∀ (a : BitVec 32) (n : Nat), 32 ≤ n → vShl .ui32 a.toNat n = 0 ∧ vShr .ui32 a.toNat n = 0 ∧
     vSar .ui32 a.toNat n = (if a.msb then 2 ^ 32 - 1 else 0)) ∧
   (∀ (a : BitVec 32) (n : Nat), n < 32 → vShl .ui32 a.toNat n = (a <<< n).toNat ∧ vShr .ui32 a.toNat n = (a >>> n).toNat) ∧
   (∀ t, vClz t 0 = iw t) ∧
   (∀ (t : IType) (a j : Nat), j < iw t → (vBrev t a).testBit (iw t - 1 - j) = a.testBit j) ∧
   (∀ (t : IType) (a : Nat), vPopc t a = ((List.range (iw t)).filter fun j => a.testBit j).length))

/-- R105, R107 to R110: integer comparisons, predicate logic, selection and moves of the predicate word. R105, R106: FSETP and DSETP under
every condition code. -/
def Obligations.CompareResults : Prop :=
  (∀ (g : Guard) (cc : Cc) (t : IType) (m : AccMode) (mask neg : Bool) (d : Dst) (p pa pb pc : Num4) (lut : BitVec 8) (a b : Src),
     let x := fun (f : Fibre) => f.src (.i t) a
     let y := fun (f : Fibre) => f.src (.i t) b
     Effect (.isetp g cc t m p a b) (aluIss g false none [(.i t, a), (.i t, b)]) (fun f => f.setPred p (accum m (f.pred p) (vIcmp t cc (x f) (y f)))) ∧
     Effect (.plop g p pa pb pc lut) { len := 8, g := g, uses := [] }
       (fun f => f.setPred p (plopBit lut.toNat (f.pred pa) (f.pred pb) (f.pred pc))) ∧
     Effect (.sel g t d a b p neg) (aluIss g t.is64 (some d) [(.i t, a), (.i t, b)])
       (fun f => f.result t.is64 d (if f.pred p != neg then x f else y f)) ∧
     Effect (.iset g cc t mask d a b) (aluIss g t.is64 (some d) [(.i t, a), (.i t, b)]) (fun f => f.result t.is64 d (vIset t cc mask (x f) (y f))) ∧
     Effect (.pmov g t (.rd d)) (aluIss g false (some d) []) (fun f => f.result false d (f.preds.toNat ||| 0x8000)) ∧
     Effect (.pmov g t (.wr a b)) (aluIss g false none [(.i .ui32, a), (.i .ui32, b)])
       (fun f => { f with preds := BitVec.ofNat 16 (pmovWr f.preds.toNat (f.src (.i .ui32) a) (f.src (.i .ui32) b)) })) ∧
  (∀ (g : Guard) (cc : Cc) (rc : Rc) (m : AccMode) (p : Num4) (a b : Src),
     let r := fun (F : FF) (t : FType) (f : Fibre) => vFcmp F cc f.ftz (f.src (.f t) a) (f.src (.f t) b)
     EffectIf (.fsetp g cc rc m p a b) (aluIss g false none [(.f .f32, a), (.f .f32, b)]) (fun _ _ _ f => f.traps (r .f32 .f32 f).2 = false)
       (fun _ _ _ f => (f.raise (r .f32 .f32 f).2).setPred p (accum m (f.pred p) (r .f32 .f32 f).1)) ∧
     EffectIf (.dsetp g cc rc m p a b) (aluIss g false none [(.f .f64, a), (.f .f64, b)]) (fun _ _ _ f => f.traps (r .f64 .f64 f).2 = false)
       (fun _ _ _ f => (f.raise (r .f64 .f64 f).2).setPred p (accum m (f.pred p) (r .f64 .f64 f).1)))

/-- R118 to R128: where no condition meets an enable of FPCTL, the floating-point words record their conditions in FPSTAT and write their
result to d and lat; nothing else changes. FCLASS raises no condition. R124, R125, R129 to R131: double precision and the transcendental
words. -/
def Obligations.FloatResults : Prop :=
  (∀ (g : Guard) (t : FType) (sat : Bool) (rc : Rc) (d : Dst) (a b c : FSrc) (n : Src),
     let w := t == .f64
     let x := fun (f : Fibre) => f.src (.f t) a.src
     let y := fun (f : Fibre) => f.src (.f t) b.src
     let one := fun (i : Instr) (sat : Bool) (v : FEnv → Nat → Nat × Nat) =>
       let r := fun (f : Fibre) => v (fenv f rc sat a noF noF) (x f)
       EffectIf i (aluIss g w (some d) [(.f t, a.src)]) (floatFine r) (floatDone w d r)
     let two := fun (i : Instr) (sat : Bool) (v : FEnv → Nat → Nat → Nat × Nat) =>
       let r := fun (f : Fibre) => v (fenv f rc sat a b noF) (x f) (y f)
       EffectIf i (aluIss g w (some d) [(.f t, a.src), (.f t, b.src)]) (floatFine r) (floatDone w d r)
     two (.fadd g t sat rc d a b) sat (vFadd t) ∧ two (.fmul g t sat rc d a b) sat (vFmul t) ∧
     two (.fmin g t rc d a b) false (fun v => vFminmax t v false) ∧ two (.fmax g t rc d a b) false (fun v => vFminmax t v true) ∧
     two (.fdiv g t sat rc d a b) sat (vFdiv t) ∧
     (let r := fun (f : Fibre) => vFfma t (fenv f rc sat a b c) (x f) (y f) (f.src (.f t) c.src)
      EffectIf (.ffma g t sat rc d a b c) (aluIss g w (some d) [(.f t, a.src), (.f t, b.src), (.f t, c.src)]) (floatFine r) (floatDone w d r)) ∧
     one (.fsqrt g t rc d a) false (vFsqrt t) ∧ one (.frcp g t sat rc d a) sat (vFrcp t) ∧ one (.frsq g t sat rc d a) sat (vFrsq t) ∧
     one (.ffrc g t rc d a) false (vFfrc t) ∧ one (.frnd g t rc d a) false (vFrnd t) ∧
     Effect (.fclass g t rc d a.src) (aluIss g false (some d) [(.f t, a.src)]) (fun f => f.result false d (vFclass t (x f))) ∧
     (let pn : Pos := if t = .f32 then .i .i32 else .i .i16x2
      let r := fun (f : Fibre) => vFldexp t (fenv f rc sat a noF noF) (x f) (f.src pn n)
      EffectIf (.fldexp g t sat rc d a n) (aluIss g w (some d) [(.f t, a.src), (pn, n)]) (floatFine r) (floatDone w d r))) ∧
  (∀ (g : Guard) (t : FType) (sat : Bool) (rc : Rc) (d : Dst) (a b c : FSrc),
     let one := fun (t : FType) (i : Instr) (sat : Bool) (v : FEnv → Nat → Nat × Nat) =>
       let r := fun (f : Fibre) => v (fenv f rc sat a noF noF) (f.src (.f t) a.src)
       EffectIf i (aluIss g (t == .f64) (some d) [(.f t, a.src)]) (floatFine r) (floatDone (t == .f64) d r)
     let two := fun (i : Instr) (sat : Bool) (v : FEnv → Nat → Nat → Nat × Nat) =>
       let r := fun (f : Fibre) => v (fenv f rc sat a b noF) (f.src (.f .f64) a.src) (f.src (.f .f64) b.src)
       EffectIf i (aluIss g true (some d) [(.f .f64, a.src), (.f .f64, b.src)]) (floatFine r) (floatDone true d r)
     two (.dadd g sat rc d a b) sat (vFadd .f64) ∧ two (.dmul g sat rc d a b) sat (vFmul .f64) ∧ two (.ddiv g sat rc d a b) sat (vFdiv .f64) ∧
     two (.dmin g rc d a b) false (fun v => vFminmax .f64 v false) ∧ two (.dmax g rc d a b) false (fun v => vFminmax .f64 v true) ∧
     (let r := fun (f : Fibre) => vFfma .f64 (fenv f rc sat a b c) (f.src (.f .f64) a.src) (f.src (.f .f64) b.src) (f.src (.f .f64) c.src)
      EffectIf (.dfma g sat rc d a b c) (aluIss g true (some d) [(.f .f64, a.src), (.f .f64, b.src), (.f .f64, c.src)]) (floatFine r) (floatDone true d r)) ∧
     one .f64 (.dsqrt g rc d a) false (vFsqrt .f64) ∧
     one t (.fex2 g t sat rc d a) sat (vTrans .ex2 t) ∧ one t (.flg2 g t rc d a) false (vTrans .lg2 t) ∧ one t (.fsin g t rc d a) false (vTrans .sin t) ∧
     one t (.fcos g t rc d a) false (vTrans .cos t) ∧ one t (.ftanh g t rc d a) false (vTrans .tanh t))

/-- R119, R93, R94: a float word whose conditions meet an enable, and a division by zero under IDZE, write nothing: the lane takes an ARITH
trap at the word, with the conditions or bit 8 in its info. Stated of FADD, FMUL, FFMA, IDIV and IREM with one executing lane. -/
def Obligations.ArithmeticTraps : Prop :=
  ∀ (s : State) (c : Cx) (l : Nat) (g : Guard) (d : Dst), c.lanes g = [l] → l < c.st.fibres.length →
    let fb := c.st.fibre l
    (∀ (t : FType) (sat : Bool) (rc : Rc) (a b x : FSrc),
      (Ready s c (aluIss g (t == .f64) (some d) [(.f t, a.src), (.f t, b.src)]) →
        (∀ v, v = vFadd t (fenv fb rc sat a b noF) (fb.src (.f t) a.src) (fb.src (.f t) b.src) → fb.traps v.2 = true →
          Trapped (.fadd g t sat rc d a b) s s c l (arith v.2)) ∧
        (∀ v, v = vFmul t (fenv fb rc sat a b noF) (fb.src (.f t) a.src) (fb.src (.f t) b.src) → fb.traps v.2 = true →
          Trapped (.fmul g t sat rc d a b) s s c l (arith v.2))) ∧
      (Ready s c (aluIss g (t == .f64) (some d) [(.f t, a.src), (.f t, b.src), (.f t, x.src)]) →
        ∀ v, v = vFfma t (fenv fb rc sat a b x) (fb.src (.f t) a.src) (fb.src (.f t) b.src) (fb.src (.f t) x.src) → fb.traps v.2 = true →
          Trapped (.ffma g t sat rc d a b x) s s c l (arith v.2))) ∧
    (∀ (t : IType) (sat : Bool) (a b : Src), Ready s c (aluIss g t.is64 (some d) [(.i t, a), (.i t, b)]) →
      fb.src (.i t) b = 0 → fb.intctl.getLsbD 0 = true →
      Trapped (.idiv g t sat d a b) s s c l ⟨.arith, .at, 256, 0, false⟩ ∧ Trapped (.irem g t d a b) s s c l ⟨.arith, .at, 256, 0, false⟩)

/-- R132 to R141: conversions, packing, dot products, scaling and ternary packing. CVT and PACK under .sr draw from the lane's stochastic
state and add one to its count (R50, R51). -/
def Obligations.ConversionResults : Prop :=
  ∀ (g : Guard) (sat : Bool) (rc : Rc) (d : Dst) (a b c : Src),
    (∀ f e, let r := fun (x : Fibre) => vUnpk f e.toNat x.ftz (x.src .b32 a)
      EffectIf (.unpk g f e d a) (aluIss g false (some d) [(.b32, a)]) (floatFine r) (floatDone false d r)) ∧
    (∀ t k, let r := fun (x : Fibre) => vFscl t (fenv x rc sat ⟨a, false, false⟩ noF noF) k.toNat (x.src (.f t) a) (x.src .b32 b)
      EffectIf (.fscl g t k sat rc d a b) (aluIss g false (some d) [(.f t, a), (.b32, b)]) (floatFine r) (floatDone false d r)) ∧
    Effect (.t3pk g d a b) (aluIss g false (some d) [(.b32, a), (.b32, b)]) (fun f => f.result false d (vT3pk (f.src .b32 a) (f.src .b32 b))) ∧
    (∀ hi p, Effect (.t3up g hi d p a) (aluIss g false (some d) [(.b32, a)])
      (fun f => (f.result false d (vT3up hi (f.src .b32 a)).1).setPred p (vT3up hi (f.src .b32 a)).2)) ∧
    (∀ (ins : Instr) (pa pb pc : Pos) (v : Fibre → Nat × Nat),
      (∃ fa fb, (ins = .dp2 g fa fb sat d a b c ∨ ins = .dp4 g fa fb sat d a b c ∨ ins = .dp8 g fa fb sat d a b c) ∧
        pa = dotPos fa ∧ pb = dotPos fb ∧ pc = (if fa.isInt then Pos.i .i32 else .f .f32) ∧
        v = (fun (f : Fibre) => vDp fa fb sat f.ftz (f.src pa a) (f.src pb b) (f.src pc c))) →
      EffectIf ins (aluIss g false (some d) [(pa, a), (pb, b), (pc, c)]) (floatFine v) (floatDone false d v)) ∧
    (∀ fd fs,
      let v := fun (s : State) (k : Cx) (l : Nat) (f : Fibre) =>
        vCvt fd fs (f.rc rc) sat f.ftz (drawOf (if rc = .sr then s.srState k.who k.st.srseed f.cnt else 0) l 0) (f.src (.c fs) a)
      Acts (.cvt g fd fs sat rc d a) (aluIss g fd.is64 (some d) [(.c fs, a)])
        (fun s k l => (k.who.isSup = false ∨ k.lanes g = [l]) ∧ (k.st.fibre l).traps (v s k l (k.st.fibre l)).2 = false)
        (fun _ k u _ => if rc = .sr then u.spend k.who else u)
        (fun s k l => let f := k.st.fibre l; ((f.raise (v s k l f).2).result fd.is64 d (v s k l f).1).drew rc) 0) ∧
    (∀ fm slot, let p : Pos := .c (CFmt.packSrc fm)
      let v := fun (s : State) (k : Cx) (l : Nat) (f : Fibre) =>
        vPack fm slot.toNat (f.rc rc) sat f.ftz (fun j => drawOf (if rc = .sr then s.srState k.who k.st.srseed f.cnt else 0) l (2 * slot.toNat + j))
          (f.src p a) (f.src p b) (f.src .b32 c)
      Acts (.pack g fm slot sat rc d a b c) (aluIss g false (some d) [(p, a), (p, b), (.b32, c)])
        (fun s k l => (k.who.isSup = false ∨ k.lanes g = [l]) ∧ (k.st.fibre l).traps (v s k l (k.st.fibre l)).2 = false)
        (fun _ k u _ => if rc = .sr then u.spend k.who else u)
        (fun s k l => let f := k.st.fibre l; ((f.raise (v s k l f).2).result false d (v s k l f).1).drew rc) 0)

/-- R112 to R114, R116: MOV, MOVS and CSRR. A special register is the one the spec names; what the supervisor strand reads of a rope or
process it does not have is a free value (log 7). -/
def Obligations.MoveResults : Prop :=
  ∀ (g : Guard) (d : Dst) (a : Src),
    (∀ t, Effect (.mov g t d a) (aluIss g (movPos t).wide (some d) [(movPos t, a)]) (fun f => f.result (movPos t).wide d (f.src (movPos t) a))) ∧
    (∀ sp : BitVec 5, let wide := decide (sp = 15 ∨ sp = 16)
      let i : Iss := { len := 8, g := g, uses := useD (nw wide) d }
      Acts (.movs g d sp) i (fun s c l => s.special c.who l sp.toNat ≠ none ∨ c.lanes g = [l])
        (fun _ c u l => match u.special c.who l sp.toNat with
          | some _ => u
          | none => { u with freeCtr := u.freeCtr + 1 })
        (fun s c l => match s.special c.who l sp.toNat with
          | some v => (c.st.fibre l).result wide d (v % 2 ^ (if wide then 64 else 32))
          | none => (c.st.fibre l).result wide d ((Config.freeValue s.freeCtr).toNat % 2 ^ 32)) 0) ∧
    (∀ num : BitVec 12, EffectIf (.csrr g d num) { len := 8, g := g, uses := useD (nw (csr64 num)) d }
      (fun s c _ f => ∃ r v, csrFor c.who num.toNat = .ok r ∧ s.csrRead c.who f r = some v)
      (fun s c _ f => match csrFor c.who num.toNat with
        | .ok r => f.result (csr64 num) d ((s.csrRead c.who f r).getD 0)
        | .error _ => f))

/-- R30, R113: the special registers 0 to 2, 10 to 13, 15 and 16 of a rope's lane. R27, R29, R115: a CSRW whose new value no executing lane
may not write completes: a register of the fibre takes it at once; of one of the strand, the lowest lane's value takes effect at the next
header; others take the lanes' values in order. -/
def Obligations.SpecialRegisters : Prop :=
  (∀ (s : State) (r : RopeId) (sid l : Nat) (rp : Rope), s.rope? r = some rp →
     s.special (.strand r sid) l 0 = some (sid * 32 + l) ∧ s.special (.strand r sid) l 1 = some l ∧ s.special (.strand r sid) l 2 = some sid ∧
     s.special (.strand r sid) l 10 = some r.core ∧ s.special (.strand r sid) l 11 = some (r.core / 8) ∧
     s.special (.strand r sid) l 12 = some s.chip ∧ s.special (.strand r sid) l 13 = some rp.ctx ∧
     s.special (.strand r sid) l 16 = some s.gtime) ∧
  (∀ (g : Guard) (op : CsrOp) (num : BitVec 12) (a : Src),
     let pa : Pos := .i (if csr64 num then .ui64 else .ui32)
     let val := fun (s : State) (c : Cx) (l : Nat) (r : Csr) => csrNew op ((s.csrRead c.who (c.st.fibre l) r).getD 0) ((c.st.fibre l).src pa a)
     ∀ r : Csr, ∀ s c, Free s c (aluIss g false none [(pa, a)]) → csrFor c.who num.toNat = .ok r →
       (∀ l ∈ c.lanes g, s.csrRead c.who (c.st.fibre l) r ≠ none ∧ csrForbidden r (val s c l r) = false) →
       ∃ t, exec (.csrw g op num a) s = .next t ∧
         Passed (s.fresh.2.each c (aluIss g false none [(pa, a)]) (c.lanes g)
           (fun u l => if r.perStrand = true ∧ (c.lanes g).head? ≠ some l then u else u.csrWrite c.who r (val s c l r))
           (fun l => (c.st.fibre l).csrWrite r (val s c l r))) t c)

/-- R88, R89: NOP has no effect; YIELD ends its clause as with the yield bit and counts its path's quantum as spent. R172, R173: FORK of one
lane fills the lowest empty slots of its rope with children at the target, whose w0 is the argument and w1 the parent's number, and writes
the first child's number and the count; FEND empties the slot of its fibre. -/
def Obligations.NopAndYield : Prop :=
  (∀ (g : Guard),
     Effect (.nop g) { len := 8, g := g, uses := [] } id ∧
     Effect (.yield g) { len := 8, g := g, uses := [] } id ∧
     (∀ s c, Ready s c { len := 8, g := g, uses := [] } → c.lanes g ≠ [] → 1 < c.cl.left → (∃ l ∈ lanesOf c.path.mask, (c.st.fibre l).st = .live) →
       ∃ t p cl, exec (.yield g) s = .next t ∧ (t.strand c.who).cur = some p ∧ p.cl = some cl ∧ cl.yield = true ∧ (t.strand c.who).spent = true)) ∧
  ((∀ (g : Guard) (d : Dst) (n a : Src) (off : BitVec 32) (s : State) (c : Cx) (l sid : Nat) (r : RopeId) (rp : Rope),
     let i : Iss := { len := 12, g := g, uses := useD 1 d ++ useS 1 n ++ useS 1 a, commit := true, rope := true }
     Free s c i → c.lanes g = [l] → c.who = .strand r sid → s.rope? r = some rp → (c.st.fibre l).st = .live → 2 ≤ rp.size →
     (∀ k < rp.strands.length, (rp.strands.getD k Strand.init).fibres.length = 32) →
     (s.atLane c l).target c.who (c.ip + off.signExtend 64) = (s.atLane c l, .header) →
     let slots := rp.emptySlots (min ((c.st.fibre l).src (.i .ui32) n) 32)
     ∃ t, exec (.fork g d n a off) s = .next t ∧
       (t.fibre c.who l).regs = (i.mark ((c.st.fibre l).dst false d (slots.headD 0xFFFF * 65536 + slots.length))).regs ∧
       ∀ k ∈ slots, let f := t.fibre (.strand r (k / 32)) (k % 32)
         f.st = .live ∧ f.pc = c.ip + off.signExtend 64 ∧ f.cl = none ∧ f.reg 0 = (c.st.fibre l).src .b32 a % 2 ^ 32 ∧ f.reg 1 = (sid * 32 + l) % 2 ^ 32) ∧
   (∀ (g : Guard) (s : State) (c : Cx) (l : Nat) (r : RopeId) (sid : Nat), c.who = .strand r sid →
     Free s c { len := 8, g := g, uses := [], commit := true, rope := true } → c.lanes g = [l] →
     ∃ t, exec (.fend g) s = .next t ∧ (t.fibre c.who l).st = .empty))

/-! ### Group 0: branches -/

/-- R85: BRA, BRX, CALL, CALLX and RET of one executing lane go to their target, and CALL and CALLX write the address after the word to the
link pair. -/
def Obligations.BranchesGoToTheirTargets : Prop :=
  ∀ (g : Guard) (off : BitVec 32) (a : Src) (l : Dst),
    let at_ := fun (_ : Cx) (f : Fibre) => BitVec.ofNat 64 (f.src .b64 a)
    let near := fun (c : Cx) (_ : Fibre) => c.ip + off.signExtend 64
    let link := fun (c : Cx) (f : Fibre) => f.dst true l c.next.toNat
    Branches (.bra g off) { len := 12, g := g, uses := [] } near (fun _ f => f) ∧
    Branches (.brx g a) { len := 8, g := g, uses := useS 2 a } at_ (fun _ f => f) ∧
    Branches (.call g l off) { len := 12, g := g, uses := useD 2 l } near link ∧
    Branches (.callx g l a) { len := 8, g := g, uses := useD 2 l ++ useS 2 a } at_ link ∧
    Branches (.ret g a) { len := 8, g := g, uses := useS 2 a } at_ (fun _ f => f)

/-! ### Group 8: collectives and fibres -/

/-- R174 to R179: the collectives over the issuing set, which is the executing lanes where none is in a hazard. No collective writes lat. -/
def Obligations.CollectiveResults : Prop :=
  ∀ (g : Guard) (cv b64 : Bool) (d : Dst) (p ps : Num4) (a b : Src) (gate : Option Src),
    let gu := useGate (if cv then gate else none)
    let pa : Pos := if b64 then .b64 else .b32
    (∀ m inv p, EffectIf (.vote g m inv cv (.p p) ps gate) { len := 8, g := g, uses := [] ++ gu } (fun _ _ _ _ => True)
      (fun _ c l f => let v := voteMasks ((c.lanes g).map fun k => (k, (c.st.fibre k).pred ps != inv)); f.setPred p (voteFor m v.1 v.2 l != 0))) ∧
    (∀ m inv, EffectIf (.vote g m inv cv (.r d) ps gate) { len := 8, g := g, uses := useD 1 d ++ gu } (fun _ _ _ _ => True)
      (fun _ c l f => let v := voteMasks ((c.lanes g).map fun k => (k, (c.st.fibre k).pred ps != inv)); f.dst false d (voteFor m v.1 v.2 l))) ∧
    (∀ fm, EffectIf (.matchL g fm b64 cv d p a gate) { len := 8, g := g, uses := useD 1 d ++ useS (nw b64) a ++ gu } (fun _ _ _ _ => True)
      (fun _ c l f =>
        let v := matchFor fm ((c.lanes g).map fun k => (k, (c.st.fibre k).src pa a)) l (f.src pa a)
        if fm = .uni then (f.dst false d v).setPred p (v == 1) else f.dst false d v)) ∧
    (∀ m n, EffectIf (.shfl g m n b64 cv d p a b gate)
      { len := (immUp [a, b]).len, g := g, uses := useD (nw b64) d ++ useS (nw b64) a ++ useS 1 b ++ gu } (fun _ _ _ _ => True)
      (fun _ c l f =>
        let w := 2 ^ (n.toNat + 1)
        let src := shflFrom m w l (f.src (.i .ui32) b)
        let valid := decide (((l / w * w : Nat) : Int) ≤ src ∧ src < ((l / w * w + w : Nat) : Int) ∧ src.toNat ∈ c.lanes g)
        (f.dst b64 d (if valid then (c.st.fibre src.toNat).src pa a else 0)).setPred p valid)) ∧
    (∀ op t sat, redsF t = none → ∀ det, EffectIf (.reds g op t det sat cv d a gate)
      { len := 8, g := g, uses := useD (nw (redsWide t)) d ++ useS (nw (redsWide t)) a ++ gu } (fun _ _ _ _ => True)
      (fun _ c _ f => f.dst (redsWide t) d (redsInt op t sat ((c.lanes g).map fun k => (c.st.fibre k).src (redsPos t) a)))) ∧
    (∀ op t sat det F, redsF t = some F → ∀ s c,
      let i : Iss := { len := 8, g := g, uses := useD (nw (redsWide t)) d ++ useS (nw (redsWide t)) a ++ gu }
      Ready s c i →
      let r := redsFloat F op det s.picks ((c.lanes g).map fun k => ftzP F (c.st.fibre k).ftz ((c.st.fibre k).src (redsPos t) a))
      (∀ l ∈ c.lanes g, (c.st.fibre l).traps (ftzOut F (c.st.fibre l).ftz r.2).2 = false) →
      ∃ u, exec (.reds g op t det sat cv d a gate) s = .next u ∧
        Done { s with picks := r.1 } u c g (fun _ f => (f.dst (redsWide t) d (ftzOut F f.ftz r.2).1).raise (ftzOut F f.ftz r.2).2))

/-- R180: ELECT writes the lowest lane of the set to every fibre of it, and sets pD in that one alone. -/
def Obligations.ElectNamesTheLowestLane : Prop :=
  ∀ (g : Guard) (cv : Bool) (d : Dst) (p : Num4) (gate : Option Src) (s : State) (c : Cx) (m : Nat),
    Ready s c { len := 8, g := g, uses := useD 1 d ++ useGate (if cv then gate else none) } →
    m ∈ c.lanes g → (∀ k ∈ c.lanes g, m ≤ k) →
    ∃ t, exec (.elect g cv d p gate) s = .next t ∧ Done s t c g (fun l f => (f.dst false d m).setPred p (decide (l = m)))

/-! ### Ties, barriers and sleep -/

/-- R157 to R160, R181 to R185, of one executing lane: TIEDEF fixes a tie's expected set; TIESGN's signature counts, or holds the fibre
where it is the second; HBAR's arrival is counted in the open round, or opens one; NSLEEP puts its fibre to sleep on its word. R185: a
sleeping fibre wakes with pD set once its word differs from the value; at its deadline, or chosen for a signal, it wakes with pD clear; else
it sleeps on. Stated of the supervisor strand's memory, and of a rope's fibre whose load answers. -/
def Obligations.SynchronisingWords : Prop :=
  (∀ (g : Guard) (s : State) (c : Cx) (l : Nat) (r : RopeId) (sid : Nat), c.who = .strand r sid →
     (∀ k set x y, (set = .rng x y ∨ set = .lanes x y) →
       let i : Iss := { len := (immUp [x, y]).len, g := g, uses := useS 1 x ++ useS 1 y, rope := true }
       Free s c i → c.lanes g = [l] →
       Acted (.tiedef g k set) i s c l (s.fresh.2.tieDefine r k.toNat (((s.fresh.2.rope? r).map fun rp => rp.tieSet (c.st.fibre l) set).getD []))
         (c.st.fibre l) 0) ∧
     (∀ k, let i : Iss := { len := 8, g := g, uses := [], commit := true, rope := true, access := true }
       Free s c i → c.lanes g = [l] → (s.tie r k.toNat).expected.contains (sid * 32 + l) = true →
       (if (s.tie r k.toNat).signed.contains (sid * 32 + l) then
         Acted (.tiesgn g k) i s c l (s.fresh.2.holdSecond r k.toNat (sid * 32 + l) none c none (c.st.fibre l)) { c.st.fibre l with wait := some (.tie k.toNat) } 0
       else
         Acted (.tiesgn g k) i s c l
           ((s.fresh.2.setTie r k.toNat { s.tie r k.toNat with
             signed := (s.tie r k.toNat).signed ++ [sid * 32 + l]
             seeds := upsert Prod.fst (sid * 32 + l, s.tcvtSeed r (sid * 32 + l)) (s.tie r k.toNat).seeds }).tieCheck r k.toNat)
           (c.st.fibre l) 0)) ∧
     (∀ m b mask pd ps rp h, let i : Iss := { len := 8, g := g, uses := useS 1 mask, commit := true, rope := true, access := true, rel := true }
       Free s c i → c.lanes g = [l] → s.rope? r = some rp →
       let mk := (c.st.fibre ((lanesOf c.path.mask).headD 0)).src .b32 mask % 2 ^ rp.strands.length
       let h0 := s.hbar r b.toNat
       (if h0.opened then h0 else rp.openRound h0 mk).arrive (sid * 32 + l) m mk pd ((c.st.fibre l).pred ps) = some h →
       ∃ u, u = ((s.fresh.2.setFibre c.who l { c.st.fibre l with wait := some (.hbar b.toNat (if m = .plain then none else some pd)) }).setHbar r
           b.toNat h).hbarCheck 4 r b.toNat ∧
         Acted (.hbar g m b mask pd ps) i s c l u (u.fibre c.who l) 0) ∧
     (∀ pd a v x u xl ctx, let i : Iss := { len := (immUp [a, v, x]).len, g := g, uses := useS 2 a ++ useS 1 v ++ useS 1 x, access := true }
       Free s c i → c.lanes g = [l] → s.ctxOf c.who = some ctx → globalCheck .load 4 ((c.st.fibre l).src .b64 a) = none →
       (s.atLane c l).early { accOf (c.who.lane l) ctx ((c.st.fibre l).src .b64 a) 4 (.ld .b32) c.ip c.cl.hpc with scope := .dev } true = (u, .ok xl) →
       Acted (.nsleep g pd a v x) i s c l (u.as s.agent) { c.st.fibre l with
         wait := some (.sleep (BitVec.ofNat 64 ((c.st.fibre l).src .b64 a)) (BitVec.ofNat 32 ((c.st.fibre l).src .b32 v))
           (if (c.st.fibre l).src (.i .ui32) x = 2 ^ 32 - 1 then none else some (s.gtime + (c.st.fibre l).src (.i .ui32) x)) pd c.ip c.cl.hpc) } 0)) ∧
  (∀ (s : State) (l : LaneId) (a : DWord) (v : Word) (d : Option Nat) (pd : Num4) (ip hpc : DWord) (ctx : Nat) (u : State) (b : List Byte),
     (s.fibre (laneWho l) l.lane).wait = some (.sleep a v d pd ip hpc) → s.ctxOf (laneWho l) = some ctx → s.fibreLoad l ctx a.toNat 4 = (u, .ok b) →
     let w := laneWho l
     let f := u.fibre w l.lane
     (leNat b ≠ v.toNat → exec (.nsleepRetest l) s = .next (u.setFibre w l.lane { f.setPred pd true with wait := none })) ∧
     (leNat b = v.toNat → ∀ t, d = some t → t ≤ s.gtime → t ≤ u.gtime →
       exec (.nsleepDeadline l) s = .next (u.setFibre w l.lane { f.setPred pd false with wait := none })) ∧
     (leNat b = v.toNat → d = none → f.sel = none → exec (.nsleepRetest l) s = .next u))

/-! ### Groups 9 and 10: memory words -/

/-- R18, R21, R271, R273: outside serial mode each executing lane's LD or LDRO starts a load of its address, which raises the flag of set0;
its destination registers are pending until the load lands. Nothing else changes: no byte of memory. In serial mode, of one executing lane,
the translation comes first. R271, R272: in the supervisor strand LD reads the supervisor space at once and its result lands later; ST
writes it at once. -/
def Obligations.LoadsStart : Prop :=
  (∀ (g : Guard) (ro : Bool) (w : Width) (d : BitVec 8) (a : Src) (up : MemUp) (ins : Instr),
     ins = (if ro then .ldro g w d a up else .ld g w d a up) →
     let i : Iss := { len := 16, g := g, uses := useW (Width.words w) (some d) ++ useS 2 a, flag := some false }
     let k : AccKind := if ro then .ldro w else .ld w
     let acc := fun (s : State) (c : Cx) (l tag : Nat) =>
       { accessOf s c l a up (widthBytes w) k with wd := some (d.toNat, Width.words w), tag := some tag }
     let fib := fun (c : Cx) (l : Nat) => (c.st.fibre l).setPend ((List.range (Width.words w)).map (d.toNat + ·))
     Acts ins i (fun _ c l => c.who.isSup = false ∧ (c.st.fibre l).serial = false ∧ globalCheck .load (widthBytes w) ((c.st.fibre l).gea a up.off) = none)
       (fun tag c u l => u.newAcc (acc u c l tag)) (fun _ c l => fib c l) 1 ∧
     (∀ s c l u x, Free s c i → c.lanes g = [l] → c.who.isSup = false → (c.st.fibre l).serial = true →
       globalCheck .load (widthBytes w) ((c.st.fibre l).gea a up.off) = none →
       (s.atLane c l).early (acc s c l s.nextId) true = (u, .ok x) →
       Acted ins i s c l ((u.newAcc { acc s c l s.nextId with xl := some x }).as s.agent) (fib c l) 1)) ∧
  (∀ (g : Guard) (w : Width) (d : BitVec 8) (a v : Src) (up : MemUp) (s : State) (c : Cx) (l n : Nat), c.who = .sup n → c.lanes g = [l] →
     (let i : Iss := { len := 16, g := g, uses := useW (Width.words w) (some d) ++ useS 2 a, flag := some false }
      Free s c i → globalCheck .load (widthBytes w) ((c.st.fibre l).gea a up.off) = none →
       Acted (.ld g w d a up) i s c l (s.fresh.2.newAcc { accessOf s c l a up (widthBytes w) .land with
           wd := some (d.toNat, Width.words w), tag := some s.nextId, done := true
           data := landBytes (.ld w) (cellsRead s.svMem ((c.st.fibre l).gea a up.off) (widthBytes w)) })
         ((c.st.fibre l).setPend ((List.range (Width.words w)).map (d.toNat + ·))) 1) ∧
     (let i : Iss := { len := 16, g := g, uses := useS 2 a ++ useS (Width.words w) v }
      Free s c i → globalCheck .store (widthBytes w) ((c.st.fibre l).gea a up.off) = none →
       Acted (.st g w a v up) i s c l { s.fresh.2 with svMem := cellsWrite s.svMem ((c.st.fibre l).gea a up.off) ((c.st.fibre l).storeBytes w v) }
         ((c.st.fibre l).seen s.gtime) 0))

/-- R272, R371, R373: outside serial mode, with fewer than 16 held stores of the region and room in the store queue, each executing lane's
ST stands in the queue with the low bytes of its data, and the strand's count of held stores rises by one. No byte of memory changes. In
serial mode, of one executing lane, the store is translated and not held. -/
def Obligations.StoresAreHeld : Prop :=
  ∀ (g : Guard) (w : Width) (a v : Src) (up : MemUp),
    let i : Iss := { len := 16, g := g, uses := useS 2 a ++ useS (Width.words w) v }
    let acc := fun (s : State) (c : Cx) (l : Nat) => { accessOf s c l a up (widthBytes w) .st with data := (c.st.fibre l).storeBytes w v }
    (∀ s c, Free s c i → c.who.isSup = false → c.lanes g ≠ [] → c.st.held < 16 → s.sqUsed c.who < 16 →
      (∀ l ∈ c.lanes g, (c.st.fibre l).serial = false ∧ globalCheck .store (widthBytes w) ((c.st.fibre l).gea a up.off) = none) →
      ∃ t u, exec (.st g w a v up) s = .next t ∧
        u = s.fresh.2.each c i (c.lanes g) (fun u l => u.newAcc { acc u c l with sq := some s.nextId }) (fun l => c.st.fibre l) ∧
        Moved (u.setStrand c.who { u.strand c.who with held := c.st.held + 1 }) t c.who) ∧
    (∀ s c l u x, Free s c i → c.lanes g = [l] → c.who.isSup = false → (c.st.fibre l).serial = true →
      globalCheck .store (widthBytes w) ((c.st.fibre l).gea a up.off) = none → (s.atLane c l).early (acc s c l) true = (u, .ok x) →
      Acted (.st g w a v up) i s c l ((u.newAcc { acc s c l with xl := some x }).as s.agent) (c.st.fibre l) 0)

/-- R188, R267, R274: LDS reads its rope's scratchpad at issue and lands later; STS writes it at issue; ATOMS reads and writes it at issue
and lands its old value, of one executing lane, within the allocation and aligned. R188, R274: a scratchpad byte written reads back, and a
write leaves every other byte of it, and every byte of HBM, host memory and the supervisor space. -/
def Obligations.ScratchpadWords : Prop :=
  (∀ (g : Guard) (w : Width) (d : BitVec 8) (a v : Src) (up : MemUp) (s : State) (c : Cx) (l : Nat) (rp : Rope),
     c.lanes g = [l] → s.myRope c.who = some rp →
     let ea := (c.st.fibre l).sea a up.off
     let land := fun (n k : Nat) (b : List Byte) => { accOf (c.who.lane l) rp.ctx ea.toNat k .land c.ip c.cl.hpc with
       wd := some (d.toNat, n), scope := .rope, data := b, done := true, tag := some s.nextId }
     (let i : Iss := { len := 16, g := g, uses := useW (Width.words w) (some d) ++ useS 1 a, flag := some false, rope := true, access := true }
      Free s c i → scratchCheck rp.spadA (widthBytes w) ea = none →
       Acted (.lds g w d a up) i s c l (s.fresh.2.newAcc (land (Width.words w) (widthBytes w) (landBytes (.ld w) (rp.spadRead ea.toNat (widthBytes w)))))
         ((c.st.fibre l).setPend ((List.range (Width.words w)).map (d.toNat + ·))) 1) ∧
     (let i : Iss := { len := 16, g := g, uses := useS 1 a ++ useS (Width.words w) v, rope := true, access := true, rel := releases up.order }
      Free s c i → scratchCheck rp.spadA (widthBytes w) ea = none →
       Acted (.sts g w a v up) i s c l (s.fresh.2.spadWrite rp.id ea.toNat ((c.st.fibre l).storeBytes w v)) ((c.st.fibre l).seen s.gtime) 0) ∧
     (∀ op t, let i : Iss := { len := 16, g := g, uses := useW (atomWords t) (some d) ++ useS 1 a ++ useS (atomWords t) v, commit := true,
                               flag := some false, rope := true, access := true, rel := releases up.order }
      Free s c i → scratchCheck rp.spadA (4 * atomWords t) ea = none →
       let o := atomDo (.rmw op t (BitVec.ofNat 64 ((c.st.fibre l).src (atomPos t) v))) (rp.spadRead ea.toNat (4 * atomWords t))
       ∀ x, o.2 = some x →
       Acted (.atoms g op t (some d) a v up) i s c l ((s.fresh.2.spadWrite rp.id ea.toNat x).newAcc (land (atomWords t) (4 * atomWords t) o.1))
         (((c.st.fibre l).setPend ((List.range (atomWords t)).map (d.toNat + ·))).seen s.gtime) 1) ∧
     (∀ op t, let i : Iss := { len := 16, g := g, uses := useW (atomWords t) none ++ useS 1 a ++ useS (atomWords t) v, commit := true,
                               rope := true, access := true, rel := releases up.order }
      Free s c i → scratchCheck rp.spadA (4 * atomWords t) ea = none →
       let o := atomDo (.rmw op t (BitVec.ofNat 64 ((c.st.fibre l).src (atomPos t) v))) (rp.spadRead ea.toNat (4 * atomWords t))
       ∀ x, o.2 = some x →
       Acted (.atoms g op t none a v up) i s c l (s.fresh.2.spadWrite rp.id ea.toNat x) ((c.st.fibre l).seen s.gtime) 0)) ∧
  (∀ (s : State) (r : RopeId) (rp : Rope) (o : Nat) (b : List Byte), s.rope? r = some rp → Memory.wf rp.spad = true →
     ∃ rp', (s.spadWrite r o b).rope? r = some rp' ∧ Memory.wf rp'.spad = true ∧
       rp'.spadRead o b.length = b ∧ (∀ x n, x + n ≤ o ∨ o + b.length ≤ x → rp'.spadRead x n = rp.spadRead x n) ∧
       (s.spadWrite r o b).hbm = s.hbm ∧ (s.spadWrite r o b).host = s.host ∧ (s.spadWrite r o b).svMem = s.svMem)

/-- R267, R277 to R280: a global atomic, of one executing lane, is checked and translated at issue and put in serial mode; it is performed
later. Its result, where it has one, raises the flag of set0 and leaves its registers pending. R277 to R279: what an atomic makes of the
bytes it finds: the old ones are its result; a CAS writes only where they equal what it compares with; an integer addition wraps. -/
def Obligations.AtomicsStart : Prop :=
  (∀ (g : Guard) (a b c' : Src) (up : MemUp) (s : State) (c : Cx) (l : Nat) (u : State) (x : Xl) (ins : Instr) (req : AtomReq) (d : Option (BitVec 8))
     (n : Nat) (uses : List Nat),
     ((∃ op t, ins = .atom g op t d a b up ∧ req = .rmw op t (BitVec.ofNat 64 ((c.st.fibre l).src (atomPos t) b)) ∧ n = atomWords t ∧
         uses = useW n d ++ useS 2 a ++ useS n b) ∨
      (∃ w d', d = some d' ∧ ins = .cas g w d' a b c' up ∧ n = Width.words w ∧ uses = useW n d ++ useS 2 a ++ useS n b ++ useS n c' ∧
         req = .cas (widthBytes w) (bytesOfWords ((c.st.fibre l).srcWords n b)) (bytesOfWords ((c.st.fibre l).srcWords n c')))) →
     let i : Iss := { len := 16, g := g, uses := uses, commit := true, flag := atomFlag d }
     Free s c i → c.lanes g = [l] → c.who.isSup = false → globalCheck .atomic (atomSize req) ((c.st.fibre l).gea a up.off) = none →
     let acc : Access := { accessOf s c l a up (atomSize req) (.atom req d.isNone) with
       wd := d.map fun y => (y.toNat, n), tag := d.map fun _ => s.nextId }
     (s.atLane c l).early acc true = (u, .ok x) →
     Acted ins i s c l ((u.newAcc { acc with xl := some x }).as s.agent)
       (match d with
         | some y => (c.st.fibre l).setPend ((List.range n).map (y.toNat + ·))
         | none => c.st.fibre l) (if d.isSome then 1 else 0)) ∧
  ((∀ (n : Nat) (c new old : List Byte), (atomDo (.cas n c new) old).1 = old ∧
     (atomDo (.cas n c new) old).2 = (if old = c then some new else none)) ∧
   (∀ (op : AtomOp) (t : AtomType) (v : BitVec 64) (old : List Byte), (atomDo (.rmw op t v) old).1 = old) ∧
   (∀ (a b : BitVec 32), (atomDo (.rmw .add .ui32 (b.setWidth 64)) (leBytes 4 a.toNat)).2 = some (leBytes 4 (a + b).toNat)) ∧
   (∀ (b o : List Byte), (atomDo (.store b) o).2 = some b))

/-- R238, R281 to R284, R276, of one executing lane: a FENCE of scope .fib, .rope or .coil completes where its lane's accesses have; LOCKL
and UNLKL write their status; CWB and CINV act on the line; PFCH without a choice for a fill changes nothing. R223, R224: a lock taken
stands for its context and counts against its quota; taken again it answers HELD, and released it is gone. -/
def Obligations.FencesLocksAndLines : Prop :=
  (∀ (g : Guard) (a : Src) (off : BitVec 32) (d : Dst) (s : State) (c : Cx) (l ctx : Nat), c.lanes g = [l] → s.ctxOf c.who = some ctx →
     let f := c.st.fibre l
     let ea := f.gea a off
     (∀ sc, (sc = .fib ∨ sc = .rope ∨ sc = .coil) → let i : Iss := { len := 8, g := g, uses := [], commit := true }
       Free s c i → s.fenced (c.who.lane l) sc = true → Acted (.fence g sc) i s c l s.fresh.2 f 0) ∧
     (∀ sc, (sc = .dev ∨ sc = .dom ∨ sc = .sys) → let i : Iss := { len := 8, g := g, uses := [], commit := true }
       Free s c i → s.widePush (c.who.lane l) = none → s.fenced (c.who.lane l) sc = true → Acted (.fence g sc) i s c l s.fresh.2 f 0) ∧
     (ea < 2 ^ 54 →
       (∀ u x, let i : Iss := { len := 16, g := g, uses := useD 1 d ++ useS 2 a, commit := true }
         Free s c i → (s.atLane c l).translate (clusterOf c.who.core) ctx ea .load true = (u, .ok x) →
         Acted (.lockl g d a off) i s c l ((u.lockLine ctx x).1.as s.agent) (f.dst false d (u.lockLine ctx x).2) 0) ∧
       (∀ u x, let i : Iss := { len := 16, g := g, uses := useD 1 d ++ useS 2 a, commit := true }
         Free s c i → (s.atLane c l).canonical (clusterOf c.who.core) ctx ea = (u, .ok x) →
         Acted (.unlkl g d a off) i s c l ((u.unlockLine ctx x.line).1.as s.agent) (f.dst false d (u.unlockLine ctx x.line).2) 0) ∧
       (∀ u x, let i : Iss := { len := 16, g := g, uses := useS 2 a, commit := true, access := true }
         Free s c i → (s.atLane c l).canonical (clusterOf c.who.core) ctx ea = (u, .ok x) → (u.window? x.cctx x.cva).isSome = false → u.isDirect x false = false →
         u.lineOpen (c.who.lane l) x.line = false →
         Acted (.cwb g a off) i s c l ((u.cwbLine (c.who.lane l) x.line).as s.agent) (f.seen (u.cwbLine (c.who.lane l) x.line).gtime) 0 ∧
         (∀ v, u.cinvLine (c.who.lane l) ctx ea x = some v → Acted (.cinv g a off) i s c l (v.as s.agent) (f.seen v.gtime) 0))) ∧
     (∀ l2 wr, let i : Iss := { len := 16, g := g, uses := useS 2 a }
       Free s c i → s.picks.headD 0 = 0 → Acted (.pfch g l2 wr a off) i s c l { s.fresh.2 with picks := s.picks.tail } f 0)) ∧
  (∀ (s : State) (ctx : Nat) (x : Xl) (k : Context), s.ctx? ctx = some k → s.isDirect x false = false → (s.window? x.cctx x.cva).isSome = false →
     (s.locks.contains (ctx, x.line) = true → s.lockLine ctx x = (s, 1)) ∧
     (s.locks.contains (ctx, x.line) = false → k.locks < k.lquota →
       (((s.locks.map Prod.snd).filter fun y => decide (sliceOf y = sliceOf x.line ∧ y ≠ x.line)).eraseDups).length < 12288 →
       ∃ t, s.lockLine ctx x = (t, 0) ∧ t.locks.contains (ctx, x.line) = true ∧ (t.ctx? ctx).map Context.locks = some (k.locks + 1) ∧
         ∃ v, t.unlockLine ctx x.line = (v, 0) ∧ v.locks.contains (ctx, x.line) = false ∧ (v.ctx? ctx).map Context.locks = some k.locks) ∧
     (s.locks.contains (ctx, x.line) = false → k.lquota ≤ k.locks → s.lockLine ctx x = (s, 2)) ∧
     (s.locks.contains (ctx, x.line) = false → s.unlockLine ctx x.line = (s, 1)))

/-! ### Groups 11 to 13: engine state and engine operations -/

/-- R241, R244: a barrier word counts an arrival and expected bytes; its phase completes, and gen rises modulo 2^16, when no arrival and no
byte is due any more, and the quota is due again. R241, R341, R342, R344 to R347: TLREAD and TCFG, and BARI, BARA, BAREX, BARW on the
barrier word they name. A TLWAIT and a BARW leave their fibre waiting at the next header; what a word reads lands later. -/
def Obligations.BarrierPhases : Prop :=
  (∀ (w : BarWord), w.gen < 65536 → w.quota < 65536 →
     (1 < w.due → w.arrive = { w with due := w.due - 1 }) ∧
     (w.due = 1 → w.bytes = 0 → w.arrive.gen = (w.gen + 1) % 65536 ∧ w.arrive.due = w.quota ∧ w.arrive.quota = w.quota) ∧
     (w.due = 1 → w.bytes ≠ 0 → w.arrive.gen = w.gen ∧ w.arrive.due = 0 ∧ w.arrive.bytes = w.bytes)) ∧
  (∀ (g : Guard) (d : BitVec 8) (tl : BitVec 3) (n : Src),
     let land := fun (c : Cx) (u : State) (l tag w : Nat) (b : List Byte) => u.landLater c l tag (some (d.toNat, w)) b none true
     let pend := fun (c : Cx) (l w : Nat) => (c.st.fibre l).setPend ((List.range w).map (d.toNat + ·))
     Acts (.tlwait g tl n) (engIss g (useS 1 n)) (fun _ _ _ => True) (fun tag c u l => u.landLater c l tag none [] none false)
       (fun _ c l => { c.st.fibre l with wait := some (.tl tl.toNat (BitVec.ofNat 32 ((c.st.fibre l).src .b32 n))) }) 1 ∧
     (∀ b64, Acts (.tlread g b64 d tl) (engIss g (useW (nw b64) (some d))) (fun s c _ => (s.myRope c.who).isSome = true)
       (fun tag c u l => land c u l tag (nw b64)
         (let t := ((u.myRope c.who).map fun r => r.tl tl.toNat).getD ⟨0, 0, []⟩; leBytes (4 * nw b64) (t.value.toNat + 2 ^ 32 * t.issued.toNat)))
       (fun _ c l => pend c l (nw b64)) 1) ∧
     (∀ (m : BitVec 16) (a : Src) (s : State) (c : Cx) (l : Nat) (rp : Rope), Free s c (engIss g (useS 1 a)) → c.lanes g = [l] →
       s.myRope c.who = some rp → (∀ t ∈ setBits 16 m.toNat, t < rp.ntiles) → tcBad ((c.st.fibre l).src .b32 a) = false →
       Acted (.tcfg g m a) (engIss g (useS 1 a)) s c l
         (((setBits 16 m.toNat).foldl (fun (u : State) t => u.setTc rp.id t (BitVec.ofNat 32 ((c.st.fibre l).src .b32 a))) s.fresh.2).landLater
           c l s.nextId none [] none true) (c.st.fibre l) 1) ∧
     (∀ (b x : Src) (p : Num4) (up : BarUp) (s : State) (c : Cx) (l : Nat) (r : BarRef), c.lanes g = [l] →
       s.barAt c.who (c.st.fibre l) b up = .ok r →
       let f := c.st.fibre l
       let v := f.src .b32 x
       (Free s c (engIss g (useS 1 b ++ useS 1 x)) → v < 65536 →
         Acted (.bari g b x up) (engIss g (useS 1 b ++ useS 1 x)) s c l
           (s.fresh.2.barUpdate r fun _ => { gen := 0, err := false, bytes := 0, due := v, quota := v }) (f.seen s.gtime) 0) ∧
       (Free s c (engIss g (useS 1 b ++ useS 1 x)) → v < 2 ^ 23 →
         Acted (.barex g b x up) (engIss g (useS 1 b ++ useS 1 x)) s c l (s.fresh.2.barUpdate r fun w => w.add v) (f.seen s.gtime) 0) ∧
       (Free s c { engIss g (useW 1 (some d) ++ useS 1 b) with rel := true } →
         Acted (.bara g d b up) { engIss g (useW 1 (some d) ++ useS 1 b) with rel := true } s c l
           ((land c s.fresh.2 l s.nextId 1 (leBytes 4 (s.barRead r).gen)).barUpdate r BarWord.arrive)
           ((f.setPend [d.toNat]).seen s.gtime) 1) ∧
       (Free s c (engIss g (useS 1 b ++ useS 1 x)) →
         Acted (.barw g p b x up) (engIss g (useS 1 b ++ useS 1 x)) s c l (s.fresh.2.landLater c l s.nextId none [] none false)
           { f with wait := some (.bar r.rope r.off (v % 65536) p) } 1)))

/-- R299, R335, R336, R343: of one executing lane whose record's line translates, SHPW writes the record's bytes by accesses that land
later, SHPR reads its four quarters, and CRPOP takes the ring's next record, or finds the ring empty. -/
def Obligations.RecordsAndTheRing : Prop :=
  ∀ (g : Guard) (i : BitVec 8) (d : BitVec 8) (p : Num4) (s : State) (c : Cx) (l : Nat) (rp : Rope) (u : State) (x : Xl), c.lanes g = [l] →
    s.myRope c.who = some rp →
    let f := c.st.fibre l
    let ea := rp.shapeVa i
    let at_ := fun (n : Nat) => { x with cva := x.cva + n, loc := shpwLane.locPlus x.loc n }
    (ea + 63 < 2 ^ 54 →
      (∀ op j, j = engIss g (match op with
          | .all q => useW 16 (some q)
          | .base a => useS 2 a) →
        let acc : Access := { accOf (c.who.lane l) rp.ctx ea 16 .shpw c.ip c.cl.hpc with order := .rel, tag := some s.nextId }
        Free s c j → (s.atLane c l).early acc true = (u, .ok x) →
        Acted (.shpw g op i) j s c l
          ((f.shapeParts op).foldl (fun (v : State) q => v.newAcc { acc with va := ea + q.1, size := q.2.length, data := q.2, xl := some (at_ q.1) }) (u.as s.agent))
          f (f.shapeParts op).length) ∧
      (let j := engIss g (useW 16 (some d))
       let acc : Access := { accOf (c.who.lane l) rp.ctx ea 16 (.ld .b128) c.ip c.cl.hpc with tag := some s.nextId }
       Free s c j → (s.atLane c l).early acc true = (u, .ok x) →
        Acted (.shpr g d i) j s c l
          ((List.range 4).foldl (fun (v : State) (k : Nat) =>
            v.newAcc { acc with va := ea + 16 * k, wd := some (d.toNat + 4 * k, 4), xl := some (at_ (16 * k)) }) (u.as s.agent))
          (f.setPend ((List.range 16).map (d.toNat + ·))) 4)) ∧
    (let j := engIss g (useW 8 (some d))
     Free s c j → s.fenceTry [c.who.lane l] .sys = (s, true) →
      (∀ b, (s.atLane c l).ringPop c.who.core rp.ctx = (u, .got b) →
        Acted (.crpop g d p) j s c l ((u.as s.agent).landLater c l s.nextId (some (d.toNat, 8)) b (some (p, b ≠ [])) true)
          (f.setPend ((List.range 8).map (d.toNat + ·))) 1) ∧
      ((s.atLane c l).ringPop c.who.core rp.ctx = (u, .empty) →
        Acted (.crpop g d p) j s c l ((u.as s.agent).landLater c l s.nextId (some (d.toNat, 8)) [] (some (p, false)) true)
          (f.setPend ((List.range 8).map (d.toNat + ·))) 1))

/-- R243, R323, R330 to R333: an untied copy or tile operation of one executing lane whose checks pass enters the task table, where the
table and its timeline have room; its destination register takes its number. R157, R158, R330: when every expected fibre of a tie has
signed, and none has signed twice, the round's operation enters the task table once, a TCVT with the stochastic state that the lowest
expected fibre had as it signed, and the signed set is empty again; until then nothing happens. -/
def Obligations.OperationsStart : Prop :=
  (∀ (ins : Instr) (i : Iss) (st : Starter) (s : State) (c : Cx) (l : Nat) (r : RopeId) (sid : Nat) (rp rp' : Rope) (u : State) (p : Pending),
     Starts ins i → starter? ins = some st → st.tie = none → Free s c i → c.lanes i.g = [l] → c.who = .strand r sid →
     s.startStalls c i st = false → s.rope? r = some rp →
     (s.atLane c l).build rp (c.st.fibre l) (s.tcvtSeed r (sid * 32 + l)) ins = (u, .ok p) → u.rope? r = some rp' →
     (u.ops.find? fun o => decide (o.rope = r ∧ o.owed = [(sid, s.nextId)])) = none →
     let n := (rp'.number p.tl).2
     Acted ins i s c l (((u.as s.agent).setRope (rp'.number p.tl).1).enterOp (rp'.number p.tl).1 n { p with num := n, owed := [(sid, s.nextId)] })
       ((c.st.fibre l).started ins n) 1) ∧
  (∀ (s : State) (r : RopeId) (k : Nat) (rp : Rope), s.rope? r = some rp →
     let t := s.tie r k
     let u := s.setTie r k { t with signed := [], seeds := [], pending := none, second := [] }
     (t.full = false → s.tieCheck r k = s) ∧
     (t.full = true → t.second = [] → t.pending = none → s.tieCheck r k = u) ∧
     (∀ p, t.full = true → t.second = [] → t.pending = some p → ∃ rp', u.rope? r = some rp' ∧ s.tieCheck r k = u.enterOp rp' p.num
       ((lookupBy Prod.fst (lowest t.expected (2 ^ 20)) t.seeds).elim p fun q => { p with kind := p.kind.withSeed q.2 })))

/-- R332, R349 to R354: when the checks of a tile operation without a record pass, and what it then fixes: tiles of the rope, distinct and
of the formats and shapes that it asks for. The operation captures the tiles' controls as they stand. -/
def Obligations.TileChecks : Prop :=
  ∀ (s : State) (r : Rope) (f : Fibre) (x : DWord) (g : Guard) (d : Option (BitVec 8)) (w : Src) (u : TileUp), u.wb = false → u.bo = false →
    let own := fun (l : List Num4) => ∀ i ∈ l, i.toNat < r.ntiles
    let made := fun (ins : Instr) (k : TileOp) => s.build r f x ins =
      (s, .ok { kind := .tile k, tl := 4, num := 0, wrec := u.wrec, wait := none, word := wordOf ins, shape := u.shp.toNat, owed := [] })
    let D := r.tc u.td
    let A := r.tc u.ta
    let B := r.tc u.tb
    let Q := r.tc u.tq
    (own [u.td] → made (.tzero g d w u) (.tzero u.td.toNat D)) ∧
    (∀ na nb nacc sat acc16, own [u.td, u.ta, u.tb, u.tq] → u.td ≠ u.ta → u.td ≠ u.tb →
      mmaAcc A.fmt B.fmt acc16 = some D.fmt → Q.fmt = D.fmt → A.rows = Q.rows → A.rows = D.rows → B.rows = Q.cols → B.rows = D.cols → A.cols = B.cols →
      made (.mma g na nb nacc sat acc16 d w u) (.mma na nb nacc sat acc16 u.td.toNat u.ta.toNat u.tb.toNat u.tq.toNat D A B Q)) ∧
    (∀ op sat, own [u.td, u.ta, u.tb] → D.fmt = A.fmt → B.fmt = A.fmt → (A.fmt < 4 ∨ A.fmt = 16) → D.rows = A.rows → D.cols = A.cols →
      B.rows = A.rows → B.cols = A.cols → made (.tew g op sat d w u) (.tew op sat u.td.toNat u.ta.toNat u.tb.toNat D A B)) ∧
    (∀ sat rc, own [u.td, u.ta] → A.fmt ≠ 14 → A.fmt ≠ 15 → D.fmt ≠ 14 → D.fmt ≠ 15 → D.rows = A.rows → D.cols = A.cols →
      made (.tcvt g sat rc d w u) (.tcvt sat (f.rc rc) u.td.toNat u.ta.toNat D A x false)) ∧
    (∀ op, own [u.td, u.ta] → D.fmt = tredFmt A.fmt → D.rows = A.rows → D.cols = 1 → made (.tred g op d w u) (.tred op u.td.toNat u.ta.toNat D A)) ∧
    (own [u.td, u.ta] → D.fmt = A.fmt → D.cols = A.cols → D.sc = A.sc → u.srow.toNat + u.cnt.toNat + 1 ≤ A.rows →
      u.drow.toNat + u.cnt.toNat + 1 ≤ D.rows →
      made (.trow g d w u) (.trow u.td.toNat u.ta.toNat D A u.drow.toNat u.srow.toNat (u.cnt.toNat + 1)))

/-- R243, R307, R308, R314, R315, R320 to R323, R346: the engines' events. A sendable entry goes to its engine's queue, or ends FAULTED with
code 9 where its awaited phase ended with ERR; the operation at the head of its queue moves one segment, parks where that meets a
translation fault, computes one MMA chunk, or is performed whole; one that is finished and visible completes; a held record is written once
the ring has room, and the tail passes it when it is visible. R492, R493, R500: the halo engine's events: a segment of the strip whose turn
it is goes to its neighbour, the strip's end raises the receiver's vt, and a translation fault ends the operation FAULTED with the signal of
its code. -/
def Obligations.EngineEvents : Prop :=
  (∀ (s : State) (n : Nat),
     (∀ o, s.op? n = some o → s.sendable o = true →
       (o.wait = none ∨ (∃ b ph, o.wait = some (b, ph) ∧ (s.barRead b).err = false) → exec (.taskSend n) s = .next (s.opLast { o with st := .queued, since := s.gtime })) ∧
       (∀ b ph, o.wait = some (b, ph) → (s.barRead b).err = true → exec (.taskSend n) s = .next (s.endOp { o with fcode := 9 } 2 0 true))) ∧
     (∀ o m, s.moving n = some (o, m) →
       (∀ u t, s.trySegment o m = (u, .ok t) →
         let v := (u.credit m.cred (segBytes (m.segment o)) false).stage o m (m.segment o)
         exec (.copySegment n) s = .next (v.setOp
           { m.advance o with st := .running, done := o.done + segDone (m.segment o), vis := max o.vis t, since := v.gtime })) ∧
       (∀ u code va wr, s.trySegment o m = (u, .bad code va wr) →
         exec (.copyPark n) s = .next (u.parkOp { o with fcode := code + (if wr then 5 else 4) * 256, fva := va }))) ∧
     (∀ o na nb nacc sat acc16 d a b q td ta tb tq r, s.computing n = some (o, .mma na nb nacc sat acc16 d a b q td ta tb tq, r) →
       (r.mmaStops a b ta tb o.crow = false → exec (.mmaStep n) s = .next ((s.setRope (r.mmaStep na nb nacc sat d a b q td ta tb tq o.crow)).setOp
         { o with st := .running, crow := o.crow + 1, fin := decide (mmaSteps ta tb ≤ o.crow + 1), since := s.gtime })) ∧
       (r.mmaStops a b ta tb o.crow = true → exec (.mmaStep n) s = .next ((s.endOp o 5 0 true).postSig o.ctx 4 0 o.num))) ∧
     (∀ o t r, s.computing n = some (o, t, r) → (∀ na nb nacc sat acc16 d a b q td ta tb tq, t ≠ .mma na nb nacc sat acc16 d a b q td ta tb tq) →
       exec (.mmaStep n) s = .next ((s.setRope (r.tileAtOnce t)).setOp { o with st := .running, fin := true, since := s.gtime })) ∧
     (∀ o, s.op? n = some o → s.completes o = true →
       exec (.engineOpComplete n) s = .next (if s.t3of o = 0 then s.endOp o 0 o.done o.wrec else s.endOp o 6 (s.t3of o) true)) ∧
     (∀ o k more u w, s.op? n = some o → o.st = .held (k :: more) → (∀ x ∈ s.ops, x.ctx = o.ctx → x.st.isPosted = false) →
       (s.as (.op n)).ringRecord o k = (u, .ok w) →
       exec (.ringRoom n) s = .next ((u.setOp { o with st := .posted (k :: more), vis := max o.vis w }).as s.agent)) ∧
     (∀ o k u, s.op? n = some o → o.st = .posted [k] → o.vis < s.gtime → (s.as (.op n)).ringTail o = (u, true) →
       s.postTail n = if k = 1 then (((u.as s.agent).setOp { o with st := .parked }).flushOps o.core) else (u.as s.agent).retire o)) ∧
  (∀ (s : State) (n : Nat) (o : Op) (h : HaloOp) (gr : Grid), s.haloLive n = some (o, h, gr) →
     (∀ f nb u w, s.haloFaceNow o h gr = some f → gr.geo.neigh h.part f = some nb →
       let o1 := if h.cur = some f then o else { o with crow := 0, cseg := 0 }
       let l := gr.strip h.part nb f h.step
       (segAt l o1.crow o1.cseg).isSome = true → (s.as (.op n)).haloSegment o1 h gr f nb = (u, .ok w) →
       exec (.haloStripSend n) s = .next (u.setOp
         { o1.haloNext l with kind := .halo { h with cur := some f, wait := h.wait.erase f }, vis := max o1.vis w, since := u.gtime })) ∧
     (∀ f nb, h.cur = some f → gr.geo.neigh h.part f = some nb → gr.peer nb = s.chip →
       (segAt (gr.strip h.part nb f h.step) o.crow o.cseg).isSome = false → (s.fab.open_.any fun t => t.what == .op o.id) = false →
       exec (.haloStripLand n) s = .next ((s.setOp { o with kind := .halo { h with cur := none }, crow := 0, cseg := 0, since := s.gtime }).raiseVt
         o.ctx h.slot nb (opposite f) (h.step + BitVec.ofNat 32 (gr.geo.k - 1)))) ∧
     (∀ code a w, s.haloBad o h gr = some (code, a, w) →
       exec (.haloFault n) s = .next ((s.endOp { o with fcode := code, fva := a, fin := true } 2 0 true).postSig o.ctx (if code = 6 then 15 else 2)
         (BitVec.ofNat 64 a) (xlateInfo code (if w then .engWrite else .engRead)))))

/-! ### Group 15: grids -/

/-- R487 to R491, R495, R496: the grid words of one executing lane. GDEF fixes the grid its descriptor describes; GLD and GST access the
cell that their coordinates name; GSTEP commits the step after the last and starts a halo operation on timeline 5; GWAIT waits for its
faces; GSTAT reads counters. What a word reads lands later. -/
def Obligations.GridWords : Prop :=
  ∀ (g : Guard) (d : BitVec 8) (slot : BitVec 6) (q x v : Src) (s : State) (c : Cx) (l : Nat) (rp : Rope) (u : State), c.lanes g = [l] →
    s.myRope c.who = some rp →
    let f := c.st.fibre l
    let st1 := { f with pend := (f.setPend [d.toNat]).pend }
    let tells := fun (u : State) (n : Nat) => u.landLater c l s.nextId (some (d.toNat, 1)) (leBytes 4 n) none true
    (let i := engIss g (useW 1 (some d) ++ (useS 2 q ++ useS 1 x))
     Free s c i →
      (∀ n, (s.atLane c l).gdefCheck rp slot.toNat (f.src .b64 q) (BitVec.ofNat 32 (f.src .b32 x)) = (u, .status n) →
        Acted (.gdef g d slot (.define q x)) i s c l (tells (u.as s.agent) n) st1 1) ∧
      (∀ gr, (s.atLane c l).gdefCheck rp slot.toNat (f.src .b64 q) (BitVec.ofNat 32 (f.src .b32 x)) = (u, .ok gr) →
        Acted (.gdef g d slot (.define q x)) i s c l (tells ((u.as s.agent).setGrid rp.ctx gr) 0) st1 1)) ∧
    (let i := engIss g (useW 1 (some d) ++ [])
     Free s c i → s.grid? rp.ctx slot.toNat = none → Acted (.gdef g d slot .del) i s c l (tells s.fresh.2 6) st1 1) ∧
    (∀ ctx va size ghost y, let i := engIss g (useW 1 (some d) ++ useS 1 q ++ useS 4 x)
      let w := cellWidth size
      let acc : Access := { accOf (c.who.lane l) ctx va size (.ld w) c.ip c.cl.hpc with
        wd := some (d.toNat, Width.words w), order := if ghost then .acq else .rlx, tag := some s.nextId }
      Free s c i → s.gldCheck c.who slot d q x f = .cell ctx va size ghost → va < 2 ^ 54 → (s.atLane c l).early acc true = (u, .ok y) →
      Acted (.gld g d slot q x) i s c l ((u.newAcc { acc with xl := some y }).as s.agent) (f.setPend ((List.range (Width.words w)).map (d.toNat + ·))) 1) ∧
    (∀ r gr p, s.gridFor c.who slot (f.src .b32 q) = .ok (r, gr, p) →
      let geo := gr.geo
      let at_ := quadCoord (f.quad x)
      let n := f.src .b32 q
      (∀ y, let i := engIss g (useS 1 q ++ useS 4 x ++ useS 1 v)
        let a := geo.addr (gr.base n) at_.2 at_.1
        let acc : Access := { accOf (c.who.lane l) r.ctx a geo.size .shpw c.ip c.cl.hpc with
          data := (bytesOfWords (f.srcWords (Width.words (cellWidth geo.size)) v)).take geo.size, tag := some s.nextId }
        Free s c i → (geo.size = 8 → cellPairBad f.win.length v = false ∧ f.hazard (useS 2 v) = false) →
        (∀ k < 3, geo.inPad k (at_.1 k) = true) → at_.2 = p.c + 1 →
        (geo.beyond at_.1 ≠ [] → gr.exchange geo at_.2 = false ∧ ∀ k ∈ geo.beyond at_.1, (geo.neigh n k).isSome = true) → a < 2 ^ 54 →
        (s.atLane c l).early acc true = (u, .ok y) →
        Acted (.gst g slot q x v) i s c l ((u.newAcc { acc with xl := some y }).as s.agent) f 1) ∧
      (∀ wrec dd, let i := engIss g (useW 1 dd ++ useS 1 q ++ useS 1 v)
        let st := BitVec.ofNat 32 (f.src .b32 v)
        Free s c i → st = p.c + 1 → (r.tl 5).limit 1 = false →
        ∃ t gr', exec (.gstep g wrec dd slot q v) s = .next t ∧ t.grid? r.ctx slot.toNat = some gr' ∧ (gr'.part? n).map GridPart.c = some st) ∧
      (∀ k, let i := engIss g (useS 1 q ++ useS 1 x ++ useS 1 v)
        let m := f.src .b32 x
        let t := BitVec.ofNat 32 (f.src .b32 v)
        Free s c i → m < 64 → (∀ j ∈ setBits 6 m, geo.face j = true ∧ before t (p.ebOf j) = false) →
        before t (p.c - BitVec.ofNat 32 geo.planes + 1) = false → k = t.toNat →
        Acted (.gwait g slot q x v) i s c l (s.fresh.2.landLater c l s.nextId none [] none false)
          { f with wait := some (.grid slot.toNat n m k none) } 1) ∧
      (let i := engIss g (useW 1 (some d) ++ useS 1 q ++ [])
       Free s c i → Acted (.gstat g d slot q .com) i s c l (s.fresh.2.landLater c l s.nextId (some (d.toNat, 1)) (leBytes 4 p.c.toNat) none true)
          (f.setPend ([d.toNat + 0])) 1) ∧
      (let i := engIss g (useW 2 (some d) ++ useS 1 q ++ useS 1 x)
       let k := f.src .b32 x
       Free s c i → geo.face k = true →
        Acted (.gstat g d slot q (.face x)) i s c l
          (s.fresh.2.landLater c l s.nextId (some (d.toNat, 2)) (leBytes 8 ((p.vtOf k).toNat + 2 ^ 32 * (p.ebOf k).toNat)) none true)
          (f.setPend [d.toNat + 0, d.toNat + 1]) 1))

/-! ### Group 14: exceptions and the supervisor -/

/-- R362 to R367, R375, R376: TAKING AN EXCEPTION in a rope's strand. The lanes of a kind AT trap leave every path of their strand and stand
parked at the restart PC; where every earlier access of theirs is translated and the replay queue has room, the queue's last entry is
theirs, with the queue's next number, and is what the fibres are parked by. -/
def Obligations.ExceptionEntry : Prop :=
  ∀ (s : State) (r : RopeId) (sid l : Nat) (t : Trap) (rpc fpc hpc : DWord) (rp : Rope),
    let w : Who := .strand r sid
    s.rope? r = some rp → sid < rp.strands.length → l < 32 → l < (s.strand w).fibres.length → t.kind = .at →
    (s.core r.core).parking = [] → s.untranslated ⟨r, sid, l⟩ = false → (s.core r.core).rq.length < 64 →
    let u := s.park w [l] t rpc fpc hpc
    let q := (s.core r.core).seq
    (u.fibre w l).st = .parked q ∧ (u.fibre w l).pc = rpc ∧ (u.fibre w l).cl = none ∧ (u.fibre w l).win = (s.fibre w l).win ∧
      (∀ p ∈ (u.strand w).paths, p.mask.getLsbD l = false) ∧ (u.core r.core).seq = q + 1 ∧
      ∃ e, (u.core r.core).rq = (s.core r.core).rq ++ [e] ∧ e.seq = q ∧ e.rope = r ∧ e.sid = sid ∧ e.ctx = rp.ctx ∧ e.fmask = maskOfLanes [l] ∧
        e.cls = t.cls ∧ e.kind = .at ∧ e.info = t.info ∧ e.fva = t.fva ∧ e.rpc = rpc ∧ e.fpc = fpc ∧ e.hpc = hpc ∧
        e.kpc = (s.fibre w l).kpc ∧ e.srl = (s.fibre w l).serial ∧ e.rtry = (s.fibre w l).rtry ∧
        e.lanes = [⟨l, (s.fibre w l).near, (s.fibre w l).lat⟩] ∧ e.bytes.length = 104

/-- R366: an entry of kind AT with no operation has one 40-byte block for each of its lanes after its 64-byte header: 64 + 40 ×
popcount(FMASK) bytes in all. Stated of every entry whose lanes are those of its mask and whose blocks hold 8 near registers. -/
def Obligations.EntryBytes : Prop :=
  ∀ e : Entry, e.lanes.map LaneBlk.lane = lanesOf e.fmask → (∀ b ∈ e.lanes, b.near.length = 8) →
    e.bytes.length = 64 + 40 * (lanesOf e.fmask).length ∧
    leNat ((e.bytes.drop 24).take 4) = e.seq.toNat ∧ leNat ((e.bytes.drop 32).take 4) = e.info.toNat ∧ leNat ((e.bytes.drop 36).take 4) = e.fmask.toNat ∧
    leNat ((e.bytes.drop 40).take 8) = e.fpc.toNat ∧ leNat ((e.bytes.drop 48).take 8) = e.rpc.toNat ∧ leNat ((e.bytes.drop 56).take 8) = e.fva.toNat

/-- R366 to R368, R370, R420: RETURN FROM AN EXCEPTION at a header. A fibre resumed with kind KNOT stands at its region's entry with near
registers and lat zero and the predicates of that entry; one redirected stands at the target in a region of its own; either is live. -/
def Obligations.ExceptionReturn : Prop :=
  ∀ (s : State) (r : RopeId) (sid l : Nat) (t : DWord), let w : Who := .strand r sid
    (∃ rp, s.rope? r = some rp ∧ sid < rp.strands.length) → l < (s.strand w).fibres.length →
    let f := s.fibre w l
    (let g := (s.resumeKnot w l).fibre w l
     g.st = .live ∧ g.pc = f.kpc ∧ g.near = List.replicate 8 0 ∧ g.lat = 0 ∧ g.preds = f.kpreds ||| 0x8000 ∧ g.cnt = f.kcnt ∧ g.win = f.win ∧ g.wait = none) ∧
    (let g := (s.resumeNew w l t).fibre w l
     g.st = .live ∧ g.pc = t ∧ g.kpc = t ∧ g.serial = false ∧ g.near = List.replicate 8 0 ∧ g.lat = 0 ∧ g.win = f.win ∧ g.preds = f.preds ∧ g.kpreds = f.preds) ∧
    (∀ near lat rpc, let g := (s.resumeAt w l near lat rpc rpc).fibre w l
     g.st = .live ∧ g.pc = rpc ∧ g.cl = none ∧ g.near = near ∧ g.lat = lat ∧ g.win = f.win ∧ g.preds = f.preds)

/-- R415 to R417: the words that enter the supervisor of one executing lane. SYSCALL, TRAP and BKPT park it past the word; a TRAP code of
the signal stops is ILLEGAL, cause 6; SYSCALL commits. KNOT enters a new region at its clause's header, and in the supervisor strand does
nothing. R386, R417: what SIGRET restores of a frame's bytes: the window, the predicate word with p15 set, FPCTL, FPSTAT and INTCTL, and the
signal mask without bits 0, 12 and 13; the wait that the handler interrupted, or what ended it meanwhile (R427); and, unless the frame is of
a signal stop, the near registers and lat. -/
def Obligations.EnteringTheSupervisor : Prop :=
  (∀ (g : Guard) (s : State) (c : Cx) (l : Nat), c.lanes g = [l] →
     let f := c.st.fibre l
     (Free s c { len := 8, g := g, uses := [], commit := true, rope := true } →
       Trapped (.syscall g) s (s.fresh.2.setFibre c.who l { f with serial := true }) c l ⟨.syscall, .at, 0, 0, true⟩) ∧
     (∀ code : BitVec 32, Free s c { len := 12, g := g, uses := [], rope := true } →
       (code.toNat < 0xFFFFFF00 → Trapped (.trap g code) s s.fresh.2 c l ⟨.trap, .at, code, 0, true⟩) ∧
       (0xFFFFFF00 ≤ code.toNat → Trapped (.trap g code) s s.fresh.2 c l (illegal .reserved))) ∧
     (Free s c { len := 8, g := g, uses := [] } → Trapped (.bkpt g) s s.fresh.2 c l ⟨.brk, .at, 0xFF, 0, true⟩) ∧
     (∀ wm sm tm, let i : Iss := { len := 16, g := g, uses := [] }
       Free s c i →
       (∀ r sid, c.who = .strand r sid → s.holdsEntry (c.who.lane l) = false →
         Acted (.knot g wm sm tm) i s c l (s.fresh.2.setStrand c.who { s.strand c.who with held := 0 })
           { f with kpc := c.cl.hpc, kid := s.nextId + 1, kpreds := f.preds, kcnt := f.cnt, serial := false, issued := 0, rtry := false, wm := wm, sm := sm, tm := tm } 0) ∧
       (∀ n, c.who = .sup n → Acted (.knot g wm sm tm) i s c l s.fresh.2 f 0)) ∧
     (∀ a u r rpc tested, let i : Iss := { len := 8, g := g, uses := useS 2 a, commit := true, rope := true, access := true }
       Free s c i → (s.atLane c l).frameOf c.who l f (f.src .b64 a) = (u, .header r rpc tested) → s.insides c i a = [] →
       ∃ t, exec (.sigret g a) s = .next t ∧ Moved ((u.as s.agent).setFibre c.who l { r with atTgt := !tested, serial := true }) t c.who)) ∧
  (∀ (f : Fibre) (b : List Byte), f.win.length % 8 = 0 → b.length = 128 + 4 * f.win.length →
     let v := leNat (b.take 64)
     (∀ pd reg, f.stash.headD none = some (.over pd reg) →
       f.restore v b = (({ f with stash := none :: f.stash.drop 1 } : Fibre).restore v b).waitDone pd reg) ∧
     let r := f.restore v b
     (∀ pd reg, f.stash.headD none ≠ some (.over pd reg)) →
     r.wait = f.stash.headD none ∧ r.stash = f.stash.drop 1 ∧ r.win = wordsOf f.win.length (b.drop 128) ∧ r.preds.getLsbD 15 = true ∧ (∀ i < 15, r.preds.getLsbD i = v.testBit (176 + i)) ∧
       r.fpctl = BitVec.ofNat 32 (v / 2 ^ 256) ∧ r.fpstat = BitVec.ofNat 32 (v / 2 ^ 224) ∧ r.intctl = BitVec.ofNat 32 (v / 2 ^ 192) ∧
       r.smask.getLsbD 0 = false ∧ r.smask.getLsbD 12 = false ∧ r.smask.getLsbD 13 = false ∧
       (v.testBit 155 = false → r.near = wordsOf 8 (b.drop 64)) ∧ (v.testBit 155 = true → r.near = f.near ∧ r.lat = f.lat) ∧
       r.kpc = f.kpc ∧ r.st = f.st)

/-- R70, R412: in user mode each of the supervisor's words is ILLEGAL, cause 5, whatever its operands; nothing else happens. -/
def Obligations.PrivilegedWordsTrapInUserMode : Prop :=
  ∀ (s : State) (c : Cx) (l : Nat) (r : RopeId) (sid : Nat) (g : Guard) (ins : Instr) (n : Nat), c.who = .strand r sid → c.lanes g = [l] →
    ((n = 8 ∧ ((∃ d t, ins = .rft g d t) ∨ (∃ d p a, ins = .rqpop g d p a) ∨ (∃ p v m, ins = .replay g p v m) ∨ (∃ p x v, ins = .sigpost g p x v) ∨
        ∃ m d x, ins = .haltc g m d x)) ∨
      (n = 16 ∧ ((∃ sp sv w d p a t off, ins = .smovr g sp sv w d p a t off) ∨ (∃ sp sv w p a v t off, ins = .smovw g sp sv w p a v t off) ∨
        ∃ full a k allc ctx, ins = .ptinv g full a k allc ctx))) →
    Free s c { len := n, g := g, uses := [] } → Trapped ins s s.fresh.2 c l ⟨.illegal, .at, 5, 0, false⟩

/-- R418 to R425: the supervisor's words in the supervisor strand. RFT blocks its strand at the target until an event is present; RQPOP
writes the oldest entry not yet read to the supervisor space; REPLAY resumes, redirects or ends what a popped entry parks; SMOVR and SMOVW
reach a rope; SIGPOST posts a signal; PTINV invalidates translations; HALTC halts, saves, kills or continues a context's coils. -/
def Obligations.SupervisorWords : Prop :=
  ∀ (g : Guard) (d : Dst) (p : Num4) (a b x : Src) (s : State) (c : Cx) (l n : Nat) (u : State), c.who = .sup n → c.lanes g = [l] →
    let f := c.st.fibre l
    (let i : Iss := { len := 8, g := g, uses := useD 1 d ++ useS 2 a }
     Free s c i →
      (∀ k, (s.atLane c l).target c.who (BitVec.ofNat 64 (f.src .b64 a)) = (u, .header) → (s.core n).events = 0 → u.core n = k → k.events = 0 →
        ∃ t, exec (.rft g d a) s = .next t ∧ (t.core n).rft = some d) ∧
      ((s.core n).rq.all (fun e => e.popped) = true → Acted (.rqpop g d p a) i s c l s.fresh.2 ((f.dst false d 0).setPred p false) 0) ∧
      (∀ e, (s.core n).rq.find? (fun e => !e.popped) = some e →
        Acted (.rqpop g d p a) i s c l
          { s.fresh.2.setCore { s.core n with rq := (s.core n).rq.map fun y => if y = e then { y with popped := true } else y } with
            svMem := cellsWrite s.svMem (f.src .b64 a) e.bytes }
          ((f.dst false d e.bytes.length).setPred p true) 0)) ∧
    (∀ m, let i : Iss := { len := 8, g := g, uses := useS 1 a ++ match m with
        | .hdr t => useS 2 t
        | _ => [] }
      let t := match m with
        | .hdr t => BitVec.ofNat 64 (f.src .b64 t)
        | _ => 0
      let e? := (s.core n).rq.find? fun e => decide (e.seq = BitVec.ofNat 32 (f.src .b32 a)) && e.popped
      Free s c i →
      (e? = none → Acted (.replay g p a m) i s c l s.fresh.2 (f.setPred p false) 0) ∧
      (∀ e v ok, e? = some e → (s.atLane c l).replayEntry e m t = (v, ok) → Acted (.replay g p a m) i s c l (v.as s.agent) (f.setPred p ok) 0)) ∧
    (∀ sp sv w off, let ea := f.smovAddr sp a off
      (let i : Iss := { len := 16, g := g, uses := useD (Width.words w) d ++ useA sp a ++ useS 1 x }
       Free s c i →
        (∀ bs, (s.atLane c l).smovRead n sp sv (widthBytes w) (f.src .b32 x) ea c.ip = (u, .got bs) →
          Acted (.smovr g sp sv w d p a x off) i s c l (u.as s.agent) ((f.dstWords d bs).setPred p true) 0) ∧
        ((s.atLane c l).smovRead n sp sv (widthBytes w) (f.src .b32 x) ea c.ip = (u, .fail) →
          Acted (.smovr g sp sv w d p a x off) i s c l (u.as s.agent) (f.setPred p false) 0)) ∧
      (let i : Iss := { len := 16, g := g, uses := useA sp a ++ useS (Width.words w) b ++ useS 1 x }
       Free s c i →
        ((s.atLane c l).smovWrite n sp sv (f.storeBytes w b) (f.src .b32 x) ea c.ip = (u, .done) →
          Acted (.smovw g sp sv w p a b x off) i s c l (u.as s.agent) (f.setPred p true) 0) ∧
        ((s.atLane c l).smovWrite n sp sv (f.storeBytes w b) (f.src .b32 x) ea c.ip = (u, .fail) →
          Acted (.smovw g sp sv w p a b x off) i s c l (u.as s.agent) (f.setPred p false) 0))) ∧
    (let i : Iss := { len := 8, g := g, uses := useS 1 a ++ useS 1 b }
     let sig := f.src .b32 b
     Free s c i →
      (1 ≤ sig → sig ≤ 15 → s.hasProcess (f.src .b32 a) = true → Acted (.sigpost g p a b) i s c l (((s.atLane c l).signalCtx (f.src .b32 a) sig).as s.agent) (f.setPred p true) 0) ∧
      (sig = 0 ∨ 15 < sig ∨ s.hasProcess (f.src .b32 a) = false → Acted (.sigpost g p a b) i s c l s.fresh.2 (f.setPred p false) 0)) ∧
    (∀ full allc ctx, let i : Iss := { len := 16, g := g, uses := useS 2 a ++ useS 1 b }
      let page := f.src .b64 a / 65536
      let k := min (f.src .b32 b) (2 ^ 38 - page)
      Free s c i →
      (k = 0 → Acted (.ptinv g full a b allc ctx) i s c l s.fresh.2 f 0) ∧
      (k ≠ 0 → (s.atLane c l).ptinv ⟨if allc then none else some ctx.toNat, page, k⟩ full = (u, true) → Acted (.ptinv g full a b allc ctx) i s c l (u.as s.agent) f 0)) ∧
    (∀ m k, let i : Iss := { len := 8, g := g, uses := useD 1 d ++ useS 1 a }
      Free s c i → (s.atLane c l).haltc n (f.src .b32 a) m = (u, some k) → Acted (.haltc g m d a) i s c l (u.as s.agent) (f.dst false d k) 0)

/-- R163, R374, R375, R376, R389, R418, R458, R498: events of headers, of the active set and of the supervisor's core. R17, R22, R27, R33,
R154: a strand that stands at no word of a ready path, or at none, selects a path, its waiting registers having taken effect; where that
stands ready at a header that can be fetched, the clause opens at the header's words; where it may not go on, or no path is ready, the
strand waits. -/
def Obligations.CoreEvents : Prop :=
  (∀ (s : State) (n : Nat),
     (∀ w p, s.cur = some w → w.isSup = false → (s.strand w).cur = some p → p.cl = none → (s.strand w).forcedLanes p ≠ [] →
       (∀ l ∈ (s.strand w).forcedLanes p, s.holdsEntry (w.lane l) = false) →
       exec .forcedKnot s = .next (s.setStrand w ((s.strand w).enterAll s.nextId ((s.strand w).forcedLanes p) p.pc 0xFFFFFFFF 0xFFFF 0xFFFF))) ∧
     (∀ w p k ls, s.cur = some w → (s.strand w).cur = some p → s.breakHit w p.at = some (k, ls) → k < 4 →
       exec (.breakpointHit (BitVec.ofNat 2 k)) s = .next (s.breakPark w k ls)) ∧
     (∀ part w k old, s.firstPending n part = some w → s.freeSlot n part = some (k, old) → exec (.activeSetFill n part) s = .next (s.takeSlot w k old)) ∧
     (∀ r sid rp k w, s.staleDue r sid = true → (s.strand (.strand r sid)).slot = some k → s.rope? r = some rp →
       s.firstPending r.core ((rp.part + sid) % 4) = some w →
       exec (.staleGldYield r sid) s = .next (s.takeSlot w k (some (.strand r sid)))) ∧
     (∀ r sid lanes f p, s.parking? r sid lanes f = some p → s.parkReady p = true → (s.strand (.strand r sid)).full = false →
       (s.core r.core).room = true → exec (.faultPark r sid lanes f) s = .next (s.writeEntry p)) ∧
     ((s.core n).room = true → (∃ p ∈ (s.core n).parking, s.parkReady p = true ∧ (s.strand (.strand p.rope p.sid)).full = true) →
       exec (.replayQueueRoom n) s = .next ((s.flushParks n).flushOps n)) ∧
     (∀ f, (s.core n).sv.cur.isSome = true → (s.core n).svWait = none → (s.core n).stopped = false →
       (f.cls = .xlate → exec (.supervisorFault n f true) s = .next ((s.setCore { s.core n with svWait := some f }).send (.serviceReq n f.info.toNat))) ∧
       exec (.supervisorFault n f false) s = .next (s.stopCore n f)) ∧
     (∀ f, (s.core n).svWait = some f → (s.core n).stopped = false →
       (f.kind = .knot → ∀ ok, exec (.supervisorFaultResolution n ok) s = .next (s.setCore { s.core n with svWait := none, svNo := !ok, svTry := ok })) ∧
       (f.kind ≠ .knot → exec (.supervisorFaultResolution n false) s = .next (s.stopCore n f)) ∧
       (f.kind ≠ .knot → f.cls ≠ .brk →
         exec (.supervisorFaultResolution n true) s = .next (s.setCore { s.core n with svWait := none, svflt := (s.core n).svflt + 1 }))) ∧
     (∀ k ∈ s.cores, k.no = n → (s.core n).tickAt + 100000 ≤ s.gtime →
       exec (.supervisorTick n) s = .next (s.setCore { s.core n with tickAt := s.gtime, tickEv := true })) ∧
     (∀ b : List Byte, b.length ≤ 64 → exec (.mailboxWrite n b) s =
       .next (({ s with svMem := cellsWrite s.svMem (Config.svPage n).toNat b } : State).setCore { s.core n with mailEv := true }))) ∧
  (∀ (s : State) (w : Who), s.cur = some w → (∀ p, (s.strand w).cur = some p → p.cl = none ∨ s.pathReady w (s.strand w) p = false) →
     let st := s.selectPath w (s.strand w).applyCsr
     let s1 := s.setStrand w st
     (st.cur = none → exec .clauseHeader s = .next s1) ∧
     (∀ p, st.cur = some p → p.cl = none →
       (s1.pathReady w st p = false → exec .clauseHeader s = .next s1) ∧
       (∀ u b, s1.pathReady w st p = true → s1.overdue w = false → (∀ l ∈ lanesOf p.mask, (st.fibre l).sel = none) →
         (w.isSup = true ∨ st.forcedLanes p = []) → s1.breakHit w p.pc = none → s1.fetch w p.pc 8 = (u, .ok b) → headerOk (leNat b) = true →
         exec .clauseHeader s = .next (u.setStrand w ((u.strand w).openClause p (leNat b))))))

/-! ### Processes: signals and calls -/

/-- R382, R383, R385, R427: a fibre chosen for a signal stops at its header: the signal is no longer pending, and the fibre parks there with
class TRAP and the signal in its info; a timer that has expired makes TIMER pending and is set again by its period. R379 to R385, R460: the
process's own calls. Each answers its result to the fibre that called; SIGACTION installs the record it reads, SIGMASK changes the fibre's
mask, KILL signals the process it names, LAUNCH submits a packet, TIMER sets the timer. -/
def Obligations.SignalEvents : Prop :=
  (∀ (s : State),
     (∀ l (sig : BitVec 4) rp x pc, s.stopsFor l sig.toNat = true → s.rope? l.rope = some rp → s.ctx? rp.ctx = some x → s.headerOf l = some pc →
       let w := laneWho l
       let f := s.fibre w l.lane
       exec (.signalStop l sig) s = .next
         (((s.setCtx { x with pending := x.pending &&& ~~~(1#16 <<< sig.toNat) }).setFibre w l.lane
             { f with sel := none, wait := none, stash := f.wait :: f.stash }).park w [l.lane]
           ⟨.trap, .at, BitVec.ofNat 32 (0xFFFFFF00 + sig.toNat), 0, false⟩ pc pc pc)) ∧
     (∀ n x t per, s.ctx? n = some x → x.timer = some (t, per) → t ≤ s.gtime →
       exec (.timerExpiry n) s = .next ((s.setCtx { x with timer := if per = 0 then none else some (t + per, per) }).postSig n 11 0 0)) ∧
     (∀ n x (sig : Nat) v i, s.ctx? n = some x → x.no = n → sig < 16 →
       (x.pending.getLsbD sig = true → s.postSig n sig v i = s) ∧
       (x.pending.getLsbD sig = false → ((s.postSig n sig v i).ctx? n).map (fun y => y.pending.getLsbD sig) = some true))) ∧
  (∀ (s : State) (core : Nat) (seq : Word) (c : Call) (x : Context),
     let a := s.arg c
     let q := s.as (.call core seq)
     let serves := fun (ins : Instr) (u : State) (v : Word) => exec ins s = .next (u.answerCall c v)
     (s.callOf core seq false (calls 0) = some (c, x) → serves (.getpid core seq) q x.pid) ∧
     (s.callOf core seq false (calls 1) = some (c, x) → 1 ≤ a 0 → a 0 ≤ 15 → a 0 ≠ 12 → a 0 ≠ 13 → s.arg64 c 4 = 0 →
       (s.arg64 c 2 = 0 → serves (.sigaction core seq) q 0) ∧
       (∀ u b d y, s.arg64 c 2 ≠ 0 → s.arg64 c 2 + 32 ≤ 2 ^ 54 →
         q.vLoadN (clusterOf c.e.rope.core) c.e.ctx (s.arg64 c 2) 32 .load true = (u, .ok b) → dispOf b = some d → u.ctx? x.no = some y →
         serves (.sigaction core seq) (u.setCtx { y with disps := (y.disps ++ List.replicate (16 - y.disps.length) Disp.dflt).set (a 0) d }) 0)) ∧
     (s.callOf core seq false (calls 2) = some (c, x) →
       let f := s.caller c
       let m := BitVec.ofNat 16 (a 1) &&& 0xFFFE
       let put := fun (v : BitVec 16) => q.setFibre (.strand c.e.rope c.e.sid) c.lane { f with smask := v }
       (a 0 = 0 → serves (.sigmask core seq) (put m) (f.smask.setWidth 32)) ∧
       (a 0 = 1 → serves (.sigmask core seq) (put (f.smask ||| m)) (f.smask.setWidth 32)) ∧
       (a 0 = 2 → serves (.sigmask core seq) (put (f.smask &&& ~~~m)) (f.smask.setWidth 32))) ∧
     (s.callOf core seq true (calls 3) = some (c, x) → ∀ y, s.ctxs.find? (fun y => decide (y.pid.toNat = a 0) && !y.dead) = some y →
       1 ≤ a 1 → a 1 ≤ 15 → (y.kslot = 0 ∨ y.kslot = x.kslot) → serves (.kill core seq) (q.signalCtx y.no (a 1)) 0) ∧
     (s.callOf core seq false (fun f => calls 11 f && f.sel.isSome) = some (c, x) → serves (.pause core seq) q (BitVec.ofInt 32 (-6))) ∧
     (s.callOf core seq true (calls 12) = some (c, x) → ∀ u b y v, s.arg64 c 0 % 128 = 0 → s.arg64 c 0 + 128 ≤ 2 ^ 54 →
       q.vLoadN (clusterOf c.e.rope.core) c.e.ctx (s.arg64 c 0) 128 .load true = (u, .ok b) → u.ctx? x.no = some y →
       u.accept y b u.chip = (v, true) → serves (.launch core seq) v 0) ∧
     (s.callOf core seq true (calls 13) = some (c, x) →
       serves (.timerCall core seq) (q.setCtx { x with timer := if s.arg64 c 0 = 0 then none else some (s.gtime + s.arg64 c 0, s.arg64 c 2) }) 0))

/-- R379, R462 to R464: file and socket calls: the result is the agent's; what it delivers goes into the caller's buffer, what it takes is
read from there, a new handle belongs to the process, a closed one no longer does. R219 to R222: SPMAP registers a window of the caller's
scratchpad in the lowest free entry of its cluster, where no other window meets it, once no cache holds a line of its pages; SPUNMAP takes
away the window that begins at an address. -/
def Obligations.FileAndSocketCalls : Prop :=
  (∀ (s : State) (core : Nat) (seq : Word) (c : Call) (x : Context) (v : Word) (u : State) (b : List Byte),
     let a := s.arg c
     let cl := clusterOf c.e.rope.core
     let q := s.as (.call core seq)
     let reads := fun (u t : State) (va n : Nat) (b : List Byte) => va + n ≤ 2 ^ 54 ∧ u.vLoadN cl c.e.ctx va n .load true = (t, .ok b)
     (s.callOf core seq true (calls 4) = some (c, x) → reads q u (s.arg64 c 0) 1 b →
       exec (.sysOpen core seq v) s = .next ((u.addHandle x.no v false).answerCall c v)) ∧
     (s.callOf core seq true (calls 5) = some (c, x) → x.has (a 0) false = true → ∀ d : List Byte, v.msb = false → d.length = v.toNat → d.length ≤ a 4 →
       s.arg64 c 2 + d.length ≤ 2 ^ 54 → ∀ w, q.vStoreN cl c.e.ctx (s.arg64 c 2) d .store true = (u, .ok w) →
       exec (.sysRead core seq v d) s = .next (u.answerCall c v)) ∧
     (s.callOf core seq true (calls 6) = some (c, x) → x.has (a 0) false = true → v.msb = false → v.toNat ≤ a 4 → reads q u (s.arg64 c 2) (a 4) b →
       exec (.sysWrite core seq v) s = .next ((u.send (.wrote c.e.ctx (a 0) (b.take v.toNat))).answerCall c v)) ∧
     (s.callOf core seq true (calls 7) = some (c, x) → (x.handles.any fun k => decide (k.no = a 0)) = true → v.msb = false →
       exec (.sysClose core seq v) s = .next ((q.setCtx { x with handles := x.handles.filter fun k => decide (k.no ≠ a 0) }).answerCall c v)) ∧
     (let call := fun (op : Nat) (blk : List Byte) => s.callOf core seq true (fun fb => calls 8 fb && (fb.win.getD 0 0).toNat == op) = some (c, x) ∧
         reads q u (s.arg64 c 2) 32 blk
      let h := fieldAt b 12 4
      let va := fieldAt b 0 8
      let len := fieldAt b 8 4
      (call 0 b → exec (.sockCreate core seq v) s = .next ((u.addHandle x.no v true).answerCall c v)) ∧
      (∀ t d, x.has h true = true → reads u t va 32 d →
        (call 1 b → exec (.sockBind core seq v) s = .next (t.answerCall c v)) ∧ (call 2 b → exec (.sockConnect core seq v) s = .next (t.answerCall c v))) ∧
      (call 3 b → x.has h true = true → exec (.sockListen core seq v) s = .next (u.answerCall c v)) ∧
      (call 4 b → x.has h true = true → exec (.sockAccept core seq v) s = .next ((u.addHandle x.no v true).answerCall c v)) ∧
      (∀ t d, call 5 b → x.has h true = true → fieldAt b 16 4 % 2 = 0 → v.msb = false → v.toNat ≤ len → reads u t va len d →
        exec (.sockSend core seq (some v)) s = .next ((t.send (.wrote c.e.ctx h (d.take v.toNat))).answerCall c v)) ∧
      (∀ t w (d : List Byte), call 6 b → x.has h true = true → v.msb = false → d.length = v.toNat → d.length ≤ len → va + d.length ≤ 2 ^ 54 →
        u.vStoreN cl c.e.ctx va d .store true = (t, .ok w) → exec (.sockRecv core seq v d) s = .next (t.answerCall c v)) ∧
      (call 7 b → x.has h true = true → exec (.sockShutdown core seq v) s = .next (u.answerCall c v)))) ∧
  (∀ (s : State) (core : Nat) (seq : Word) (c : Call) (x : Context),
     (s.callOf core seq false (calls 9) = some (c, x) →
       let off := s.arg c 0
       let len := s.arg c 1
       let va := s.arg64 c 2
       let cl := clusterOf core
       let p0 := va / 65536
       let n := (va + len * 1024 - 1) / 65536 + 1 - p0
       let r : PageRange := ⟨some x.no, p0, n⟩
       ∀ i u, 1 ≤ len → len ≤ 704 → va % 1024 = 0 → va + len * 1024 ≤ 2 ^ 54 → (off + len) * 1024 ≤ c.r.spadA →
         (∀ w ∈ s.windows, overlap w.vbase w.klen (va / 1024) len = false ∧
           (w.rope = c.r.id → overlap w.koff w.klen (c.r.sramOff / 1024 + off) len = false)) →
         (∀ y ∈ s.watches, y.valid = true → ¬ (y.ctx = x.no ∧ y.base < p0 + n ∧ p0 ≤ y.limit)) →
         (List.range 16).find? (fun i => !s.windows.any fun w => decide (w.cluster = cl ∧ w.idx = i)) = some i →
         (List.range n).foldl (fun (a : State × Served) k => if a.2 = .res 0 then a.1.ownPage cl x.no (p0 + k) else a) (s.as (.call core seq), .res 0) = (u, .res 0) →
         (u.flushLines r).flushed r = true → (u.flushLines r).quietRange r = true →
         exec (.spmap core seq) s = .next (({ u.flushLines r with
           windows := (u.flushLines r).windows ++ [{ cluster := cl, idx := i, wb := s.arg c 4 % 2 == 1, vbase := va / 1024, ctx := x.no, klen := len,
                                                     koff := c.r.sramOff / 1024 + off, core := core % 8, rope := c.r.id, dirty := [], closed := false }]
           roCopies := (u.flushLines r).roCopies.filter fun y => !r.line y.line } : State).answerCall c 0)) ∧
     (s.callOf core seq false (calls 10) = some (c, x) → ∀ w u, s.windows.find? (fun w => decide (w.ctx = x.no ∧ w.vbase * 1024 = s.arg64 c 2)) = some w →
       (s.as (.call core seq)).unmapAll [w] = (u, true) → exec (.spunmap core seq) s = .next (u.answerCall c 0)))

/-! ### The memory system's events -/

/-- R210, R268, R363, R371: an access is translated with those of its issue at its address, or their fault is found; a fault found late
parks its fibres with kind KNOT; a held store whose fibre's earlier operations are all translated leaves the queue. -/
def Obligations.TranslationAndRelease : Prop :=
  ∀ (s : State) (n : Nat) (a : Access), s.acc? n = some a →
    (a.untranslated = true →
      (∀ u x, s.early a true = (u, .ok x) → exec (.translation n) s =
        .next { u with accs := u.accs.map fun b => if b.untranslated && a.peers b then { b with xl := some x, xf := none } else b }) ∧
      (∀ u e, s.early a true = (u, .bad e) → exec (.translation n) s =
        .next { u with accs := u.accs.map fun b => if b.untranslated && a.peers b then { b with xl := none, xf := some e } else b })) ∧
    (∀ e, a.xf = some e → a.void = false →
      let w := laneWho a.lane
      let f := s.fibre w a.lane.lane
      let all := s.accs.filter fun b => a.peers b && decide (b.xf = some e) && !b.void &&
        decide ((s.fibre w b.lane.lane).kpc = f.kpc ∧ (s.fibre w b.lane.lane).serial = f.serial)
      let u := all.foldl (fun (s : State) b => (s.failAcc b).unpark b.lane) s
      exec (.lateXlateFault n) s = .next ((u.park w (all.map fun b => b.lane.lane)
        ⟨.xlate, .knot, xlateInfo e a.kind.xkind, BitVec.ofNat 64 a.va, false⟩ f.kpc a.fpc a.hpc).flushParks a.lane.rope.core)) ∧
    (a.kind = .st → a.done = false →
      (∀ k, a.sq = some k → s.releasable a = true → exec (.storeRelease n) s =
        .next (((s.setAcc { a with sq := none }).perform { a with sq := none }).getD (s.setAcc { a with sq := none }))) ∧
      (∀ u, a.sq = none → s.perform a = some u → exec (.storeRelease n) s = .next u)) ∧
    ((∀ w, a.kind = .ld w → a.done = true → exec (.loadResult n) s = .next (s.land a)) ∧
     (∀ w u, a.kind = .ld w → a.done = false → a.void = false → s.perform a = some u → exec (.loadResult n) s = .next u))

/-- R18, R266, R271, R368: a result that lands writes its registers, extended to the width of a register, ends their pending state, and the
access is gone; a discarded one writes nothing. -/
def Obligations.ResultsLand : Prop :=
  ∀ (s : State) (a : Access) (r : RopeId) (rp : Rope), a.lane.rope = r → s.rope? r = some rp → a.lane.sid < rp.strands.length →
    a.lane.lane < (s.strand (laneWho a.lane)).fibres.length → a.pd = none →
    let f := s.fibre (laneWho a.lane) a.lane.lane
    let g := (s.land a).fibre (laneWho a.lane) a.lane.lane
    (∀ x ∈ (s.land a).accs, x.id ≠ a.id) ∧
    (a.void = true → g = f) ∧
    (∀ d, a.void = false → a.wd = some (d, 1) → a.data ≠ [] → d < f.win.length → d < 256 →
      g.reg d = leNat ((landBytes a.kind a.data).take 4) ∧ g.pend.getLsbD d = false ∧ (∀ k, k ≠ d → g.reg k = f.reg k) ∧ g.preds = f.preds ∧ g.lat = f.lat) ∧
    (∀ b : Byte, landBytes (.ld .ui8) [b] = leBytes 4 b.toNat ∧ landBytes (.ld .i8) [b] = leBytes 4 (b.signExtend 32).toNat)

/-- R248, R252: a message that is the next of its line for its receiver is delivered there: the 15 messages of a line's protocol. R221,
R222, R237, R255, R256, R261: a pin ends 2 µs after it began; a lease ends by its holder's clock; a copy that is not pinned may leave its
slice; an access that another cluster forwards to a window is performed on its scratchpad. -/
def Obligations.MessagesAreDelivered : Prop :=
  (∀ (s : State) (m : Msg), (∀ p, m.src ≠ .host ∧ m.src ≠ .peer p) →
     let goes := fun (i : Instr) (ty : MType) => s.isNext ty m = true → exec i s = .next (s.deliver ty m)
     goes (.gets m) .gets ∧ goes (.getm m) .getm ∧ goes (.upgr m) .upgr ∧ goes (.puts m) .puts ∧ goes (.putm m) .putm ∧
     goes (.wbdata m) .wbdata ∧ goes (.atomMsg m) .atom ∧ goes (.ack m) .ack ∧ goes (.fwds m) .fwds ∧ goes (.fwdm m) .fwdm ∧
     goes (.inv m) .inv ∧ goes (.wbgrant m) .wbgrant ∧ goes (.datas m) .datas ∧ goes (.datam m) .datam ∧ goes (.update m) .update) ∧
  (∀ (s : State) (k : Nat) (l : LineId),
     (∀ p, s.myPin? k l = some p → p.start + 2000 ≤ s.gtime → exec (.pinExpiry k l) s = .next (s.endPin p)) ∧
     (∀ c, s.copy? k l = some c → s.myPin? k l = none →
       (∀ u, c.vb = false → c.lasting = false → c.expiry ≠ 0 → c.expiry ≤ s.gtime → s.cacheRecv k .timer (plainMsg l .home (.cluster k)) = some u →
         exec (.timer k l) s = .next u) ∧
       (∀ u, s.evict c = some u → exec (.l1Eviction k l) s = .next u)) ∧
     (∀ f w a, f ∈ s.fwds → f.line = l →
       let u := { s with fwds := s.fwds.erase f }
       let va := l.line * 128 + f.off
       s.window? l.ctx va = some w → w.closed = false → (f.acc.bind s.acc?) = some a →
       (f.req = none → exec (.forwardedAccess f) s = .next (u.doneAcc a (u.overlay a (u.winRead w va f.size)))) ∧
       (∀ r, f.req = some r →
         let o := atomDo r (u.winRead w va f.size)
         let v := match o.2 with
           | some b => u.winWrite w va b
           | none => u
         exec (.forwardedAccess f) s = .next ((v.raiseVis a.lane v.gtime).doneAcc a o.1))))

/-- R218, R233, R235, R452, R453, R478: the host's accesses to device memory, and what comes back from the host: served through the inbound
map, or aborted and counted where no entry holds the address; an abort of the device's own request gives zeros and posts ACCESS. R215, R477:
a migration that system software refuses only takes its request off the list. One that it carries on clears P in the page's leaf,
invalidates the page, and asks the peer for the page's 512 lines. Stated of a 64 KiB page under no window. -/
def Obligations.HostAccesses : Prop :=
  (∀ (s : State), s.boot = .ready →
     (∀ r : PhysReq, s.personality = .endpoint →
       let n := match r.data with
         | some b => b.length
         | none => r.size
       let l := lineParts (n / 128 + 2) r.pa n
       (s.hostParts r.pa r.data l = none → exec (.cxlMemRequest r) s = .next (({ s with discarded := s.discarded + 1 } : State).send (.abort r.tag))) ∧
       (∀ u b, s.hostParts r.pa r.data l = some (some (u, b)) → r.keep = false → exec (.cxlMemRequest r) s = .next (u.send (.answer r.tag b))) ∧
       (∀ q, r.atom = some q → atomicOpOk q = true → r.pa % atomSize q = 0 →
         (s.inEntry r.pa = none → exec (.atomicop r) s = .next (({ s with discarded := s.discarded + 1 } : State).send (.abort r.tag))) ∧
         (∀ e u b w, s.inEntry r.pa = some e → s.mAtomic (s.inXl e r.pa) q .atomic .host = some (u, b, w) →
           exec (.atomicop r) s = .next (u.send (.answer r.tag b))))) ∧
     (∀ n a x, s.acc? n = some a → s.atHost a = some x →
       (∀ r u o v, a.req = some r → s.mAtomic x r a.kind.xkind (.dev a.cluster) = some (u, o, v) →
         exec (.hostCompletion n) s = .next ((u.seenNow a.lane).doneAcc a o)) ∧
       (let u : State := { s with discarded := s.discarded + 1 }
        exec (.completerAbort n) s = .next ((u.postAccess a.ctx a.va).doneAcc a (List.replicate a.size 0))))) ∧
  (∀ (s : State) (ctx page frame : Nat), (ctx, page) ∈ s.migreq →
     let rest := fun (u : State) => u.migreq.filter (· ≠ (ctx, page))
     exec (.pageMigration ctx page false frame) s = .next { s with migreq := rest s } ∧
     (∀ pa e u v, s.leafAt ctx page = some (pa, false, e) → (∀ w ∈ s.windows, w.ctx ≠ ctx) → ptePeer e ≠ 0 → ptePeer e ≠ 0x3FFFF →
       s.reaches (ptePeer e) = true → frame * 65536 + 65536 ≤ 0x18000000000 → pteBit e 0 = true → s.ptePut pa (e &&& ~~~1#128) = some u →
       u.ptinv ⟨some ctx, page, 1⟩ true = (v, true) →
       exec (.pageMigration ctx page true frame) s = .next ((List.range 512).foldl (fun (t : State) i => t.sendTx
         { tid := 0, dst := ptePeer e, kind := .read, addr := pteFrame e * 65536 + i * 128, mask := BitVec.allOnes 128, data := [],
           atom := none, cls := 0, wct := 0, what := .page ctx page frame }) { v with migreq := rest v })))

/-! ### Launches, coils, saving and restoring -/

/-- R189 to R196, R198, R200: a launch's events: a member of a chip group reports, or fails to within 1 ms; the next coil in order starts on
the cores that system software has chosen; an ended launch's completion word is written, its entry is free, and its message is sent. R454,
R459: a submission outside READY is Unsupported Request; to a page that is no context it is dropped and counted; a context's queue takes it,
or answers Retry where it is full. -/
def Obligations.LaunchEvents : Prop :=
  (∀ (s : State),
     (∀ g gen peer c l grp, s.groupLaunch (fun l => decide (l.chips = g ∧ l.gen = gen ∧ l.boss = s.chip) && l.waiting.isSome) = some (c, l) →
       lookupBy Group.no g s.groups = some grp → (grp.members.any fun m => decide (m.1 = peer)) = true →
       exec (.groupReady g gen peer true) s = .next (s.openGroup c.no { l with readyM := (peer :: l.readyM).eraseDups }) ∧
       exec (.groupReady g gen peer false) s = .next (s.failGroup c.no l)) ∧
     (∀ g c l, s.groupLaunch (fun l => decide (l.chips = g ∧ l.boss = s.chip) && (l.waiting.map fun t => decide (t + 1000000 ≤ s.gtime)).getD false) = some (c, l) →
       exec (.groupTimeout g) s = .next (s.failGroup c.no l)) ∧
     (∀ c l st k u p offs, s.nextCoil = some (c, l, st, k) → l.fitsEmpty = true → s.depTry c.no l st k = (u, .ready) →
       p.ropes.length = l.ropesIn.length → placementOk p (u.banned c.no) = true →
       u.placeAll p.cluster ((seatsOf p).map fun q => (q.1, l.need q.2)) = some offs →
       let new := (l.ropesIn.zip ((seatsOf p).zip offs)).zipIdx.map fun q => l.rope c.no st k q.2 q.1.1 q.1.2.1.1 q.1.2.1.2 q.1.2.2 u.gtime
       let t := ((u.dropRoCtx p.cluster c.no).setLaunch c.no { l with gone := l.gone ++ [(st, k)] }).seated new
       exec (.coilDispatch c.no l.q st k p) s = .next { t with rrCtx := c.no } ∧ t.ropes.map Rope.id = u.ropes.map Rope.id ++ new.map Rope.id) ∧
     (∀ c l st k p, s.nextCoil = some (c, l, st, k) →
       (l.fitsEmpty = false → exec (.coilDispatch c.no l.q st k p) s = .next (s.setLaunch c.no { l with st := .failing 2 })) ∧
       (∀ u, l.fitsEmpty = true → s.depTry c.no l st k = (u, .fault) →
         exec (.coilDispatch c.no l.q st k p) s = .next (u.setLaunch c.no { l with st := .failing 3 }))) ∧
     (∀ n q c l st, s.ctx? n = some c → lookupBy Launch.q q c.queue = some l → s.endStatus c l = some st →
       exec (.launchComplete n q) s =
         .next ((({ s with host := cellsWrite s.host (c.compl + 16 * q) (l.word st s.gtime) } : State).setCtx
           { c with queue := c.queue.filter fun x => decide (x.q ≠ q) }).interrupt c.msix))) ∧
  (∀ (s : State) (page : Nat) (b : List Byte),
     (s.boot ≠ .ready → ∀ off posted, exec (.launchSubmission page off b posted) s = .next (s.send (.submit 2))) ∧
     (s.boot = .ready → b.length = 128 →
       (s.ctx? page = none → exec (.launchSubmission page 0 b false) s = .next (({ s with discarded := s.discarded + 1 } : State).send (.submit 0))) ∧
       (∀ c, s.ctx? page = some c →
         (c.freeEntry = none → exec (.launchSubmission page 0 b false) s = .next (s.send (.submit 1))) ∧
         (∀ q, c.freeEntry = some q → ∃ u, exec (.launchSubmission page 0 b false) s = .next (u.send (.submit 0)) ∧ s.accept c b s.chip = (u, true))) ∧
       exec (.launchSubmission page 0 b true) s = .next { s with discarded := s.discarded + 1 }))

/-- R147, R193, R202, R222, R237: a rope that is done ends its windows, its completion is recorded, and its registers, tiles and fibres are
gone; a rope none of whose fibres is left first ends its pins. -/
def Obligations.RopesEnd : Prop :=
  ∀ (s : State) (r : RopeId) (rp : Rope), s.rope? r = some rp →
    (s.pinsOf r ≠ [] → rp.occupied = [] → rp.ended = false → exec (.ropeEnd r) s = .next (s.endPins r)) ∧
    (∀ c l u v, s.pinsOf r = [] → s.ropeDone rp = true → (s.as (.rope r rp.qent rp.bidx)).unmapAll (s.windows.filter fun w => decide (w.rope = r)) = (u, true) →
      u.ctx? rp.ctx = some c → lookupBy Launch.q rp.qent c.queue = some l → u.recordEnd rp l = (v, some true) →
      ∃ t, exec (.ropeEnd r) s = .next t ∧ (t.rope? r = none ∨ ∃ x, t.rope? r = some x ∧ x.ended = true ∧ x.tiles = [] ∧ x.occupied = []))

/-- R393 to R396, R425: a request stops a context's resident coils, or the one of an index; after 4 µs its fibres are cut at their words or
rolled back to their knots; once nothing of the coil is in flight it is quiesced. R410: an engine is reset by command, or by its watchdog
where it has made no progress. -/
def Obligations.StoppingCoils : Prop :=
  (∀ (s : State) (ctx coil : Nat),
     (s.coils ctx ≠ [] → exec (.preemptRequest ctx none) s = .next ((s.coils ctx).foldl (fun (t : State) k => t.stopCoil k true) s)) ∧
     (∀ x, (s.stopFor ctx coil fun x => !x.quiet && decide (x.since + 4000 ≤ s.gtime) && !(s.coilRopes x.key).all Rope.atRest) = some x →
       exec (.preemptDeadline ctx coil) s = .next ((s.coilRopes x.key).foldl (fun (t : State) r =>
         r.occupied.foldl (fun (t : State) q => t.cutFibre r.id q.1 q.2) t) s)) ∧
     (∀ x, (s.stopFor ctx coil fun x => !x.quiet && s.coilQuiet x.key) = some x →
       ∃ t, exec (.quiesce ctx coil) s = .next t ∧ t.stop? x.key = some { x with quiet := true, since := t.gtime } ∧
         ∀ k ∈ t.ropes, k.key = x.key → k.halt = true)) ∧
  (∀ (s : State) (core : Nat) (e : EngineId),
     (s.boot = .ready → core < 2880 → exec (.engineReset core e) s = .next (s.resetEngine core e)) ∧
     (s.hung core e = true → exec (.engineWatchdog core e) s = .next (s.resetEngine core e)))

/-- R398 to R401, R406 to R408, R447: a quiesced coil that is to be saved leaves its cores for the area that its sections fill, or stays
where the area does not fit; the area is read back, checked and unpacked; a state image is written for halted coils. -/
def Obligations.SavingAndRestoring : Prop :=
  ∀ (s : State) (ctx coil : Nat),
    (∀ x c, (s.stopFor ctx coil fun x => x.save && x.quiet && !x.full && !s.posting x.key) = some x → s.ctx? ctx = some c →
      let xs := s.coilSections x.key ⟨false, none, none⟩ 0
      let total := 128 + (xs.map fun y => 16 + y.len).sum
      let cl := clusterOf (((s.coilRopes x.key).head?.map fun r => r.id.core).getD 0)
      (c.room total = none → s.thermal = false → exec (.saveCoil ctx coil) s = .next (s.setStop { x with full := true })) ∧
      (∀ a u v y z, c.room total = some a → s.vProbe cl ctx a total .store false = (u, .ok y) →
        (u.as (.ctx ctx)).putPieces cl ctx a ((0, s.headerFor x.key xs 0 0) :: pieces 128 xs) = (v, .ok z) → exec (.saveCoil ctx coil) s = .next (v.depart x.key a total))) ∧
    (∀ area p c x offs u v h b xs, s.ctx? ctx = some c → c.saved.find? (fun x => decide (x.area = area)) = some x → s.restorable c x = true →
      p.ropes.length = x.ropes.length → placementOk p (s.banned ctx) = true → s.mapsOf x ≤ s.freeMaps p.cluster →
      s.placeAll p.cluster ((x.ropes.zip (seatsOf p)).map fun q => (q.2.1, q.1.need q.2.2)) = some offs →
      (s.as (.ctx ctx)).vLoadN p.cluster ctx area 128 .load false = (u, .ok h) →
      u.vLoadN p.cluster ctx area (min (bits (leNat h) 256 64) (2 ^ 32)) .load false = (v, .ok b) →
      (∀ o, parseArea x.ropes b = .error o → ∃ t, exec (.restoreCoil ctx area p) s = .next t) ∧
      (parseArea x.ropes b = .ok xs → ∃ t, exec (.restoreCoil ctx area p) s = .next t ∧
        ∀ d, t.ctx? ctx = some d → ∀ y ∈ d.saved, y.area ≠ area)) ∧
    (∀ core, let slot := (Config.svPage core).toNat + 64
      let v := leNat (cellsRead s.svMem slot 32)
      let tells := fun (u : State) (st : Nat) =>
        let u : State := { u with svMem := cellsWrite u.svMem slot (leBytes 8 (st * 2 ^ 32)) }
        exec (.stateimg core) s = .next (u.setCore { u.core core with mailEv := true })
      bits v 32 32 = 0 →
      (bits v 0 32 ≠ 0 → bits v 0 32 ≠ 1 → tells s 3) ∧
      (bits v 0 32 = 1 → s.coils (bits v 128 12) ≠ [] → (∃ k ∈ s.coils (bits v 128 12), s.quietCoil k = false) → tells s 2) ∧
      (∀ e r, bits v 0 32 = 1 → s.coils (bits v 128 12) ≠ [] → (∀ k ∈ s.coils (bits v 128 12), s.quietCoil k = true) →
        ((s.core core).rq.find? fun e => decide (e.seq = BitVec.ofNat 32 (bits v 64 32) ∧ e.ctx = bits v 128 12) && e.popped &&
          ((s.rope? e.rope).map fun r => decide (r.ridx = bits v 144 8)).getD false) = some e → s.rope? e.rope = some r →
        ∃ u : State, tells u 1 ∧ { u with svMem := s.svMem } = s))

/-! ### Power, boot, heat, errors, the debugger -/

/-- R4, R5, R197, R225, R378, R389, R437, R451, R454, R455: the boot sequence by its writes and events. Reset leads to WAITFW, a GO write
there to VERIFY, an image that verifies to INIT, one that does not back with its reason, training to READY with HBM and GTIME at zero, or to
HALTED. -/
def Obligations.BootSequence : Prop :=
  ∀ (s : State),
    (∀ strap fuse, exec (.powerUp strap fuse) s = .next (s.afterReset (fuse.getD strap)) ∧ (s.afterReset (fuse.getD strap)).boot = .waitfw ∧
      (s.afterReset (fuse.getD strap)).bootErr = 0 ∧ (s.afterReset (fuse.getD strap)).personality = fuse.getD strap) ∧
    (s.boot ≠ .reset → exec .reset s = .next (s.afterReset s.personality)) ∧
    (s.boot = .waitfw → s.personality = .endpoint →
      (∀ i, s.fwlen.toNat ≤ 2 ^ 26 → exec (.go (some i)) s = .next { s with
        boot := .verify, bootErr := 0, fwImage := some i, fwBytes := cellsRead s.host (s.fwaddr.toNat % 2 ^ 52) s.fwlen.toNat }) ∧
      (∀ v, exec (.registerWrite .fwaddr v) s = .next { s with fwaddr := v }) ∧
      (∀ v, exec (.registerWrite .fwlen v) s = .next { s with fwlen := v.setWidth 32 })) ∧
    (s.boot ≠ .waitfw → s.boot ≠ .reset → ∀ i v, exec (.go i) s = .next s ∧ exec (.registerWrite .fwaddr v) s = .next s) ∧
    (s.boot = .waitfw → s.personality = .rootComplex → ∀ i,
      (∀ v, exec (.fwMctpMessage (.addr v) i) s = .next { s with fwaddr := v }) ∧
      (∀ v, exec (.fwMctpMessage (.len v) i) s = .next { s with fwlen := v, fwBytes := [] }) ∧
      (∀ b, b.length ≤ 4096 → exec (.fwMctpMessage (.image b) i) s = .next { s with fwBytes := s.fwBytes ++ b }) ∧
      (s.fwBytes.length = s.fwlen.toNat → exec (.fwMctpMessage .go i) s = .next { s with boot := .verify, bootErr := 0, fwImage := i })) ∧
    (s.boot = .verify →
      let back := fun (e : Nat) => Host.Outcome.next { s with boot := .waitfw, bootErr := e, fwImage := none, fwBytes := [] }
      (2 ^ 26 < s.fwlen.toNat → exec .verifyDone s = back 2) ∧
      (0 < s.fwlen.toNat → s.fwlen.toNat ≤ 2 ^ 26 → (s.fwImage = none → exec .verifyDone s = back 3) ∧
        (∀ i, s.fwImage = some i → exec .verifyDone s = if i.sigOk then .next { s with boot := .init } else back 1))) ∧
    (s.boot = .init →
      (∀ o, exec (.initDone false o) s = .next { s with boot := .halted, bootErr := 4 }) ∧
      exec (.initDone true false) s = .next { s with boot := .halted, bootErr := 5 } ∧
      (∀ i, s.fwImage = some i → ∃ t, exec (.initDone true true) s = .next t ∧ t.boot = .ready ∧ t.gtime = 0 ∧ t.hbm = [] ∧ t.hbmKey = [] ∧
        t.keys = [⟨0, .loaded, 0, 0⟩] ∧ t.bootNonce = s.bootNonce + 1 ∧
        (i.svCode ≠ [] → ∀ n, n < 2880 → (t.core n).sv = Strand.sup i.svEntry (Config.svPage n))))

/-- R4, R5, R195, R197, R389, R454: in READY the issue share falls by one to 2 at the least, rises by one to 16 at the most; a thermal stop
stops every coil to be saved; a fault that the service cores cannot carry halts the device; breakpoint CSRs keep their writable bits. R10,
R391, R392: a correctable error is counted and nothing else; an uncorrectable one is counted in its class and has the effect of its
location: a clean line of local memory is read again, a line of HBM holding zeros and a window register holding zero post DATALOSS. -/
def Obligations.PowerAndHeat : Prop :=
  (∀ (s : State), s.boot = .ready →
     (∀ e, (s.hot = true ∨ 9700000 < e) → exec (.throttleUpdate e) s = .next { s with power := e, share := max 2 (s.share - 1) }) ∧
     (∀ e, s.hot = false → e < 9500000 → exec (.throttleUpdate e) s = .next { s with power := e, share := min 16 (s.share + 1) }) ∧
     (∀ e, s.hot = false → 9500000 ≤ e → e ≤ 9700000 → exec (.throttleUpdate e) s = .next { s with power := e }) ∧
     (∀ hot, exec (.thermalThrottle hot) s = .next { s with hot := hot }) ∧
     exec .thermalStop s = .next ((s.ctxs.flatMap fun c => s.coils c.no).foldl (fun (t : State) k => t.stopCoil k true)
       { s with thermal := true, hot := true }) ∧
     exec .fatalServiceCoreFault s = .next { s with boot := .halted } ∧
     (∀ n cls c b v, s.ctx? n = some c → c.budgets[cls]? = some b →
       exec (.budgetWindow n cls .hbm v) s = .next (s.setCtx { c with budgets := c.budgets.set cls { b with hbmC := v } }) ∧
       exec (.budgetWindow n cls .power v) s = .next (s.setCtx { c with budgets := c.budgets.set cls { b with powC := v } })) ∧
     (∀ k (n : BitVec 2) v, exec (.registerWrite (.bka k n) v) s =
       .next (s.setCore { s.core k with bka := (s.core k).bka.set n.toNat (v &&& 0x003FFFFFFFFFFFFC) }))) ∧
  (∀ (s : State), s.boot = .ready →
     (∀ l, exec (.correctableError l) s = .next { s with correctable := s.correctable + 1 }) ∧
     (∀ l u, s.strike l = some u → exec (.uncorrectableError l) s = .next (u.countErr (errClass l))) ∧
     (∀ l h pa, s.home? l = some h → h.loc = .hbm pa → h.dirty = false →
       s.strike (.l2Clean l) = some (s.setHome { h with data := s.hbmRead (s.keyOf h.key) pa 128 })) ∧
     (∀ pa, hbmOk pa = true → s.inb? (pa / 128 * 128 / 65536) = none →
       s.strike (.hbmLine pa) = some (s.hbmWrite (s.tagOf (pa / 128 * 128)) (pa / 128 * 128) (List.replicate 128 0))) ∧
     (∀ l reg, reg < (s.fibre (laneWho l) l.lane).win.length → s.strike (.window l reg) =
       let f := s.fibre (laneWho l) l.lane
       some ((s.setFibre (laneWho l) l.lane { f with win := f.win.set reg 0 }).ropeLoss l.rope 2 reg)))

/-- R389, R390: the debugger halts strands, grants one word to a halted fibre that can issue it, or reports that it waits, and lets strands
go on. -/
def Obligations.Debugger : Prop :=
  ∀ (s : State), s.boot = .ready →
    let d : State := { s with debugger := true }
    (∀ t, exec (.debugHalt t) s = .next ((d.dbgStrands t).foldl (fun (s : State) w => s.setStrand w { s.strand w with halted := true, grant := none }) d)) ∧
    (∀ l st p, (s.strand (laneWho l)).halted = true → ((s.strand (laneWho l)).fibre l.lane).st = .live → (d.strand (laneWho l)).focus l.lane = some st → st.cur = some p →
      (d.pathReady (laneWho l) st p = true → exec (.debugStep l) s = .next (d.setStrand (laneWho l) st)) ∧
      (d.pathReady (laneWho l) st p = false → exec (.debugStep l) s = .next (d.send (.debug 1)))) ∧
    (∀ t, (∀ c ∈ s.cores, c.rq = []) → exec (.debugResume t) s =
      .next ((d.dbgStrands t).foldl (fun (s : State) w => s.setStrand w { s.strand w with halted := false, grant := none }) d))

/-! ### Management, keys and evidence -/

/-- R226, R247, R312, R393, R401, R406, R409, R425, R428, R456, R457: the commands on contexts: each answers its result, or ends later. -/
def Obligations.ContextCommands : Prop :=
  ∀ (s : State) (res : ResAddr), s.boot = .ready → s.cmds = [] →
    let answers := fun (ins : Instr) (u : State) (st v : Nat) => exec ins s = .next (u.result res.toNat st v)
    (∀ desc,
      (desc % 256 ≠ 0 → answers (.ctxcreate res desc) s 2 0) ∧
      (∀ u b, desc % 256 = 0 → localOk desc 256 = true → s.svcRead desc 256 = some (u, b) → descOk (leNat b) = true →
        let no := bits (leNat b) 208 12
        let c := (Context.blank no desc).describe (leNat b)
        ((u.ctx? no).isSome = true → answers (.ctxcreate res desc) u 1 0) ∧
        (u.ctx? no = none → answers (.ctxcreate res desc) ((u.setCtx c).zeroRing no) 0 0))) ∧
    (∀ n, s.ctx? n = none → answers (.ctxctlResident res n) s 3 0 ∧ answers (.ctxctlPreemptAll res n) s 3 0 ∧ answers (.ctxctlKill res n) s 3 0 ∧
      answers (.ctxctlReload res n) s 3 0 ∧ answers (.ctxend res n) s 3 0 ∧ ∀ k, answers (.ctxctlPreemptCoil res n k) s 3 0) ∧
    (∀ n c, s.ctx? n = some c →
      (c.resident = true → c.leaving = true → answers (.ctxctlResident res n) s 1 c.saved.length) ∧
      (∀ u d, c.resident = false → c.dead = false → (s.ctxs.filter Context.resident).length < 256 → s.reload c true = (u, some 0) → u.ctx? n = some d →
        u.slotFits d = true → ∃ t, exec (.ctxctlResident res n) s = .next t ∧ (t.ctx? d.no).map Context.resident = some true ∧
          (d.kslot ≠ 0 → ∀ k ∈ t.keys, k.no = d.kslot → k.st = .bound)) ∧
      (∀ u st, s.reload c false = (u, some st) → answers (.ctxctlReload res n) u st 0) ∧
      (∀ k, let ks := s.named n (some k)
        let u := ks.foldl (fun (s : State) k => s.stopCoil k true) s
        exec (.ctxctlPreemptCoil res n k) s = .next { u with cmds := u.cmds ++ [⟨.preempt (some k), n, res.toNat, ks.length⟩] }) ∧
      (let u := (s.coils n).foldl (fun (s : State) k => s.stopCoil k true) s
       exec (.ctxctlPreemptAll res n) s = .next { u with cmds := u.cmds ++ [⟨.preempt none, n, res.toNat, (s.coils n).length⟩] }) ∧
      (let u := s.killCtx n
       exec (.ctxctlKill res n) s = .next { u with cmds := u.cmds ++ [⟨.kill, n, res.toNat, (s.coils n).length⟩] } ∧
       exec (.ctxend res n) s = .next { u with cmds := u.cmds ++ [⟨.end_, n, res.toNat, 0⟩] }))

/-- R199, R218, R246, R433, R436, R457, R472: the other commands: chip groups, protocol tables, watches, the inbound map, closed log
batches, the fabric's slots. -/
def Obligations.OtherCommands : Prop :=
  ∀ (s : State) (res : ResAddr), s.boot = .ready → s.cmds = [] →
    let answers := fun (ins : Instr) (u : State) (st v : Nat) => exec ins s = .next (u.result res.toNat st v)
    (∀ g n a, (g = 0 ∨ 1023 < g ∨ n = 0 ∨ 64 < n) → answers (.chipgrp res g n a) s 2 0) ∧
    (∀ g n a u b, 0 < g → g ≤ 1023 → 0 < n → n ≤ 64 → localOk a (8 * n) = true → (∀ c ∈ s.ctxs, c.queue = []) → s.svcRead a (8 * n) = some (u, b) →
      let es := (List.range n).map fun i => fieldAt b (8 * i) 8
      (∀ e ∈ es, bits e 18 14 = 0 ∧ bits e 44 20 = 0) →
      answers (.chipgrp res g n a) { u with groups := upsert Group.no ⟨g, es.map fun e => (bits e 0 18, bits e 32 12), 0⟩ u.groups } 0 0) ∧
    (∀ k a, (k < 6 ∨ 15 < k) → answers (.tabload res k a) s 2 0) ∧
    (∀ k a u b, 6 ≤ k → k ≤ 15 → localOk a 1600 = true → s.svcRead a 1600 = some (u, b) →
      checkImage b 3 (u.ctxs.any fun c => c.resident && c.ranges.any fun r => r.valid && decide (r.slot = k)) = 0 →
      answers (.tabload res k a) { u with tables := upsert Prod.fst (k, tableOf b) u.tables, tabImages := upsert Prod.fst (k, b) u.tabImages } 0 0) ∧
    (∀ i (e : BitVec 128), i < 1024 → bits e.toNat 102 26 = 0 → bits e.toNat 1 7 = 0 → bit e.toNat 0 = false →
      let w : Watch := ⟨i, bits e.toNat 26 38, bits e.toNat 64 38, bits e.toNat 14 12, bits e.toNat 8 6, false⟩
      answers (.watch res i e) { s with watches := upsert Watch.idx w s.watches } 0 0) ∧
    (∀ f, localOk (f * 65536) 65536 = true → answers (.inbound res f none) { s with inbound := eraseBy InEntry.frame f s.inbound } 0 0 ∧
      ∀ c p, answers (.inbound res f (some (c, p))) { s with inbound := upsert InEntry.frame ⟨f, c, p, false⟩ s.inbound } 0 0) ∧
    (∀ d n, answers (.logread res d n)
      { s with batches := s.batches.drop n, host := cellsWrite s.host (d.toNat % 2 ^ 52) ((s.batches.take n).flatMap Batch.bytes) } 0 (s.batches.take n).length) ∧
    (∀ a u v hdr body, localOk a 64 = true → s.svcRead a 64 = some (u, hdr) → localOk a (64 + 384 * (bits (leNat hdr) 0 10 + 1)) = true →
      u.svcRead (a + 64) (384 * (bits (leNat hdr) 0 10 + 1)) = some (v, body) →
      (fabCfgOf hdr body = none → answers (.fabcfg res a) v 2 0) ∧
      (∀ c, fabCfgOf hdr body = some c → ∃ t, answers (.fabcfg res a) t 0 0 ∧ t.fab.retry = c.retry ∧ t.fab.horizon = c.horizon ∧ t.fab.dead = [] ∧
        t.fab.next = some (c, List.range 96)))

/-- R428 to R432, R436, R439, R474: keys are loaded over a secure session into an empty slot; measurements are the SHAKE256 digests that
R439 lists; a scrub frees the context's key, inbound entries and locked lines, and its receipt goes where the descriptor says. -/
def Obligations.KeysAndEvidence : Prop :=
  ∀ (s : State), s.boot = .ready →
    (∀ slot nonce key ses, let does := fun (u : State) (r : Nat) => exec (.keyload slot nonce key ses) s = .next (u.send (.keyStatus r))
      let secure := s.sessions.any fun x => decide (x.id = ses ∧ x.peer = none) && x.secure
      (secure = false → does s 3) ∧
      (secure = true → (slot = 0 ∨ 255 < slot) → does s 2) ∧
      (secure = true → 0 < slot → slot ≤ 255 →
        ((∃ k ∈ s.keys, k.no = slot ∧ k.st ≠ .empty) → does s 1) ∧
        ((∀ k ∈ s.keys, k.no = slot → k.st = .empty) → does { s with keys := upsert KeySlot.no ⟨slot, .loaded, nonce, key.toNat + 2⟩ s.keys } 0))) ∧
    (∀ id root ok peer, exec (.spdmSession id root ok peer) s = .next { s with
      sessions := upsert Session.id ⟨id, ok && (peer.isSome || (Config.requesterRoots.take 4).contains root), root, peer⟩ s.sessions }) ∧
    (exec (.getMeasurements [1, 2, 9] 0) s = .next ((s.send (.measure 1 (Config.shake256 Config.romBytes 64))).send (.measure 2 (Config.shake256 s.fwBytes 64)))) ∧
    (∀ b, s.batch = some b → b.start + 100000 ≤ s.gtime → exec .logBatchClose s = .next s.closeBatch) ∧
    (∀ n c cmd, s.ctx? n = some c → c.no = n → c.scrubAt = none → s.coils n = [] →
      ((cmd = true ∧ s.cmds = []) ∨ (cmd = false ∧ (s.cmds.find? fun m => decide (m.kind = .end_ ∧ m.ctx = n)).isSome = true)) →
      exec (.scrub n none cmd) s = .next { s.scrubStart c with again := cmd } ∧ (∀ e ∈ (s.scrubStart c).inbound, e.ctx = n → e.scrub = true) ∧
        ∀ k ∈ (s.scrubStart c).keys, c.ownsKey k = true → k.st = .scrubbing) ∧
    (∀ n c t0, s.ctx? n = some c → c.no = n → c.scrubAt = some t0 → s.scrubReady n = true → bit c.rcpt 63 = true →
      let u := fun (cause : Nat) => (s.scrubbed c cause).1
      let v := fun (cause : Nat) => { (u cause) with host := cellsWrite (u cause).host (c.rcpt % 2 ^ 52) (s.scrubbed c cause).2 }
      (s.cmds = [] → exec (.scrub n none true) s =
        .next (((v 1).setCtx { c with resident := false, leaving := false, locks := 0, scrubAt := none }).send (.result 0 0 s.receipts))) ∧
      (∀ m, s.cmds = [m] → m.kind = .end_ → m.ctx = n → c.queue = [] → exec (.scrub n none false) s =
        .next (({ (v 0) with ctxs := eraseBy Context.no n (u 0).ctxs, cmds := (u 0).cmds.filter fun x => decide (x ≠ m) } : State).result m.res 0 s.receipts)) ∧
      (∀ k, (u k).receipts = s.receipts + 1 ∧ (∀ l ∈ (u k).locks, l.1 ≠ n) ∧ (∀ e ∈ (u k).inbound, e.ctx ≠ n) ∧ (∀ x ∈ (u k).copies, x.line.ctx ≠ n) ∧
        (∀ x ∈ (u k).keys, ¬ (x.no = c.kslot ∧ x.st = .scrubbing))))

/-! ### The fabric -/

/-- R218, R233, R234, R466, R473, R478: a transaction that arrives for this device is served at its line's home and answered; one that no
inbound entry holds is refused with a NAK and counted; one for another device is relayed. -/
def Obligations.FabricArrivals : Prop :=
  ∀ (s : State) (t : FabTx), s.boot = .ready →
    (t.dst ≠ s.chip → exec (.fabricRead t) s = .next (s.relayIn .read t) ∧ exec (.fabricWrite t) s = .next (s.relayIn .write t) ∧
      exec (.fabricAtomic t) s = .next (s.relayIn .atomic t) ∧ exec (.fabricMsg t) s = .next (s.relayIn .msg t)) ∧
    (t.dst = s.chip →
      (s.inEntry t.addr = none → exec (.fabricRead t) s = .next ((s.refuseIn t).came t) ∧ exec (.fabricWrite t) s = .next ((s.refuseIn t).came t) ∧
        exec (.fabricAtomic t) s = .next ((s.refuseIn t).came t)) ∧
      (∀ e u b, s.inEntry t.addr = some e → s.mLoad (s.inXl e (t.addr / 128 * 128)) 128 .load (.peer t.src) = some (u, b) →
        exec (.fabricRead t) s = .next ((u.respond t .rdrsp (underMask t.mask.toNat b) 0).came t)) ∧
      (∀ e u w, s.inEntry t.addr = some e → t.mask = BitVec.allOnes 128 → t.data.length = 128 →
        s.mStore (s.inXl e (t.addr / 128 * 128)) t.data .store (.peer t.src) = some (u, w) →
        exec (.fabricWrite t) s = .next ((u.respond t .wrrsp [] w).came t)) ∧
      (∀ e r u o w, s.inEntry t.addr = some e → t.atom = some r → s.mAtomic (s.inXl e t.addr) r .atomic (.peer t.src) = some (u, o, w) →
        exec (.fabricAtomic t) s = .next ((u.respond t .atrsp o w).came t)) ∧
      (∀ u, t.cls < 8 → s.asHome (MType.ofCode t.cls) t = some u → exec (.fabricMsg t) s = .next (u.came t)) ∧
      (∀ u, 8 ≤ t.cls → t.cls < 16 → s.asHolder (MType.ofCode t.cls) t = some u → exec (.fabricMsg t) s = .next (u.came t)) ∧
      (17 < t.cls → exec (.fabricMsg t) s = .next (({ s with fab := { s.fab with dropped := s.fab.dropped + 1 } } : State).came t)))

/-- R234, R235, R392, R470, R477, R478: an answer ends its transaction; a write is visible 20 ns after its WCT; a NAK is counted and posts
ACCESS, and zeros are read; acknowledged flits are done with; a flit past its retries takes its transaction along. -/
def Obligations.FabricAnswers : Prop :=
  ∀ (s : State) (p : Nat), s.boot = .ready →
    (∀ tid t, s.openTx p tid = some t →
      (∀ b u, (t.kind = .msg ∨ (t.kind = .read ∧ b ≠ [])) → s.endTx t b none = some u → exec (.rdrsp p tid b) s = .next u) ∧
      (∀ c va u, t.kind = .read → s.txOwner t = some (c, va) → (s.dataLoss c va 1).endTx t [] none = some u → exec (.rdrsp p tid []) s = .next u) ∧
      (t.kind = .write ∨ t.kind = .msg → ∀ (w : DWord) u, s.endTx t [] (some (w.toNat + 20)) = some u → exec (.wrrsp p tid w) s = .next u) ∧
      (t.kind = .atomic → ∀ b (w : DWord) u, s.endTx t b (some (w.toNat + 20)) = some u → exec (.atrsp p tid b w) s = .next u) ∧
      (∀ c va r, s.txOwner t = some (c, va) →
        let u := ({ s with discarded := s.discarded + 1 } : State).postAccess c va
        (∀ o x, t.what = .op o → u.op? o = some x → exec (.nak p tid r) s = .next ((u.closeTx t).failOp x 2)) ∧
        (∀ v, (∀ o, t.what ≠ .op o) → u.endTx t [] none = some v → exec (.nak p tid r) s = .next v))) ∧
    (∀ bank n l, ∃ t, exec (.linkControl p bank n l) s = .next t ∧
      (∀ x ∈ t.fab.flits, x.peer = p → x.bank = bank → x.sent = true → x.ctr < n → False)) ∧
    (∀ bank n a, lookupBy Assoc.peer p s.fab.assocs = some a → (a.bank bank).live = true →
      exec (.flitTimeout p bank n) s = .next (s.send (.linkCtl p bank n true))) ∧
    (∀ bank n x, s.fab.flits.find? (fun x => decide (x.peer = p ∧ x.bank = bank ∧ x.ctr = n ∧ s.fab.retry < x.tries)) = some x →
      let u : State := { s with fab := { s.fab with flits := s.fab.flits.filter (fun y => !(decide (y.peer = p ∧ y.tx = x.tx))), dropped := s.fab.dropped + 1 } }
      ∀ v, (u.countErr 11).loseTx x.tx = some v → exec (.retryLimit p bank n) s = .next (v.retireBank p))

/-- R471 to R476: the rotor and the associations: a fibre takes its new table at a cycle boundary and goes from slot to slot; a relayed
transaction goes on in the slot that reaches its peer; an association changes to a new key at request, or after 2^32 flits, and is fetched
where it is not cached. -/
def Obligations.RotorAndAssociations : Prop :=
  ∀ (s : State), s.boot = .ready →
    (∀ k c ks, s.fab.next = some (c, ks) → k ∈ ks → s.fab.atEnd k = true → ∃ t, exec (.fabcfgAdopt k) s = .next t ∧
      t.fab.tabs = s.fab.tabs.set k (c.tabs.getD k []) ∧ (∀ d ls, t.fab.next = some (d, ls) → d = c ∧ k ∉ ls)) ∧
    (∀ k i, s.fab.tab k ≠ [] → s.fab.adopts k = false → s.fab.slotNo k = some i → s.fab.flits = [] → ∃ t, exec (.rotorSlot k) s = .next t ∧
      t.fab.slotNo k = some ((i + 1) % (s.fab.tab k).length) ∧ t.fab.room k = 112) ∧
    (∀ k r, s.fab.relay.find? (fun r => decide (s.fab.peerAt k 0 = some r.2.dst)) = some r → flitsOf r.2.data.length ≤ s.fab.room k →
      exec (.relayForward k) s = .next (({ s with fab := ({ s.fab with relay := s.fab.relay.erase r } : Fabric).use k (flitsOf r.2.data.length) } : State).send
        (.relay r.1 r.2.dst r.2.src r.2.tid))) ∧
    (∀ p a u, lookupBy Assoc.peer p (s.retireBank p).fab.assocs = some a → (s.retireBank p).newKey a = some u → ∀ r, exec (.rekey p r) s = .next (u.retireBank p)) ∧
    (∀ p a u, lookupBy Assoc.peer p s.fab.assocs = some a → 2 ^ 32 ≤ (a.bank a.kg).txc → s.newKey a = some u → exec (.rekeyCount p) s = .next (u.retireBank p)) ∧
    (∀ a u, s.newKey a = some u → ∃ b, u.fab = s.fab.setAssoc b ∧ b.kg = !a.kg ∧ (b.bank b.kg).txc = 0 ∧ (b.bank b.kg).rxc = 0 ∧ (b.bank b.kg).live = true) ∧
    (∀ p a, lookupBy Assoc.peer p s.fab.assocs = some a → a.cached = false → (s.fab.assocs.filter Assoc.cached).length < 4096 →
      exec (.associationFetch p) s = .next { s with fab := s.fab.setAssoc { a with cached := true } })

/-! ### The machine as a whole -/

/-- R17, R22, R24, R58, R71: when the next move of a step is the issue of a strand whose current path stands, ready, at a word inside a
clause, and that word is fetched, stands where its opcode may, and decodes to i, the step is exec of i, after which the issue is counted and
the machine settles. -/
def Obligations.StepRunsTheDecodedWord : Prop :=
  ∀ (s s1 s2 : State) (w : Who) (p : Path) (cl : Clause) (f : Fields) (i : Instr),
    State.chooseMove (s.tick.moves exec) s.tick = (some (.issue w), s1) →
    let l := ((s1.strand w).cur.map fun p => (lanesOf p.mask).headD 0).getD 0
    let u : State := { s1 with cur := some w, agent := .lane (w.lane l) (s1.fibre w l).issued }
    (s1.strand w).cur = some p → p.cl = some cl → cl.seek = false → u.pathReady w (s1.strand w) p = true → u.breakHit w cl.ip = none → u.word w cl.ip = (s2, .ok f) →
    (f.lastOnly = true → cl.left = 1) → (f.firstOnly = true → cl.first = true) →
    decodeFields (!w.isSup) cl.set0.isSome ((s2.strand w).fibre ((lanesOf p.mask).headD 0)).win.length f = .ok i →
    step s = match exec i s2 with
      | .next t =>
        let n := (t.core w.core).issues + 1
        let t := t.setStrand w { t.strand w with last := n, nextC := s1.gtime * 7 / 10 + 1 }
        let t := t.setCore { t.core w.core with issues := n }
        .next ((t.stepDone w (s1.strand w)).settle)
      | .fault e => .fault e
      | .refused e => .refused e

/-- R58 to R70: words that the spec writes out decode to the instructions they stand for; group 15 is unassigned, and a clause header is no
word. -/
def Obligations.DecodeWords : Prop :=
  decodeTableWord 64 0x00A0703016103408 = some (.ffma ⟨3, false⟩ .f32 false .dyn .lat ⟨.w 5, false, false⟩ ⟨.w 6, false, false⟩ ⟨.w 7, false, false⟩) ∧
  decodeTableWord 64 0x00000A082412F100 = some (.iadd ⟨15, false⟩ .i32 false (.w 9) (.w 9) (.c 1)) ∧
  decodeTableWord 96 0x0000006408000F802400F301 = some (.isetp ⟨15, false⟩ .lt .i32 .plain 0 (.w 9) (.imm (.i32 100))) ∧
  decodeTableWord 96 0xFFFFFFD40000000000000005 = some (.bra ⟨0, false⟩ 0xFFFFFFD4) ∧
  decodeTableWord 64 0x150040180802F30C = some (.plop ⟨15, false⟩ 1 2 3 4 0xA8) ∧
  decodeTableWord 64 0x210030100408F604 = some (.pack ⟨15, false⟩ .e4m3 0 true .rne (.w 4) (.w 1) (.w 2) (.w 3)) ∧
  decodeTableWord 64 0x78000000100CF80C = some (.matchL ⟨15, false⟩ .grp false false (.w 6) 15 (.w 4) none) ∧
  decodeTableWord 128 0x0000001300000010008008402000F906 = some (.st ⟨15, false⟩ .b32 (.w 8) .lat ⟨16, .dev, .rel, .none⟩) ∧
  decodeTableWord 128 0x0000000000000002000000483028FD06 = some (.gld ⟨15, false⟩ 20 2 (.w 9) (.w 12)) ∧
  decodeTableWord 128 0x0000000300000007000000000000FE0A = some (.knot ⟨15, false⟩ 7 3 0) ∧
  decodeTableWord 128 0x000000080000000020C071003000FE26 = some (.smovw ⟨15, false⟩ .va true .b128 4 (.w 12) (.w 32) (.w 7) 0) ∧
  decodeTableWord 64 0x000000000000FF00 = none ∧ decodeTableWord 64 3 = none

/-- R58, R68, R71: the encoder's word of a well-formed instruction of groups 0 to 3 (control flow, integers, logic, comparisons) is read
back by the decoder: the bytes give the fields, the fields give the instruction with every operand, and no check of R71 refuses it but the
window's, which depends on the rope's window. The same of groups 4 to 7: floats, conversions, moves, collectives and synchronisation. -/
def Obligations.EncodeDecodeScalar : Prop :=
  (∀ (i : Instr) (f : Fields), i.wf = true → encodeA i = some f → Fields.ofBytes f.toBytes = some f ∧ build f = some i ∧
     ∃ k, formOf f = some k ∧ checkFields false true 256 f = if (k.fields f).all (fun q => q.1.inWindow 256 q.2) then none else some .window) ∧
  (∀ (i : Instr) (f : Fields), i.wf = true → encodeB i = some f → Fields.ofBytes f.toBytes = some f ∧ build f = some i ∧
     ∃ k, formOf f = some k ∧ checkFields false true 256 f = if (k.fields f).all (fun q => q.1.inWindow 256 q.2) then none else some .window)

/-- The same of groups 8 to 10: memory. The same of groups 11 to 14: engines, tiles, grids and the system words. -/
def Obligations.EncodeDecodeMemory : Prop :=
  (∀ (i : Instr) (f : Fields), i.wf = true → encodeC i = some f → Fields.ofBytes f.toBytes = some f ∧ build f = some i ∧
     ∃ k, formOf f = some k ∧ checkFields false true 256 f = if (k.fields f).all (fun q => q.1.inWindow 256 q.2) then none else some .window) ∧
  (∀ (i : Instr) (f : Fields), i.wf = true → encodeD i = some f → Fields.ofBytes f.toBytes = some f ∧ build f = some i ∧
     ∃ k, formOf f = some k ∧ checkFields false true 256 f = if (k.fields f).all (fun q => q.1.inWindow 256 q.2) then none else some .window)

/-- R162, R163: every step leaves the machine at rest: no word is being issued, no input is being repeated, and no strand that holds a slot
of the active set counts as pending. -/
def Obligations.StepKeepsAtRest : Prop := ∀ s t : State, s.AtRest → step s = .next t → t.AtRest

/-- R454: what reset leaves: the state RESET with no error, no code, no rope, no context, an issue share of 16, nothing on its way, memory
with nothing listed, and only key slot 0. The device after power-up is at rest. -/
def Obligations.ResetState : Prop :=
  (let s := State.reset
   s.boot = .reset ∧ s.bootErr = 0 ∧ s.ropes = [] ∧ s.ctxs = [] ∧ s.cores = [] ∧ s.accs = [] ∧ s.ops = [] ∧ s.msgs = [] ∧ s.hbm = [] ∧ s.host = [] ∧ s.svMem = [] ∧ s.share = 16 ∧
   Memory.wf s.hbm = true ∧ Memory.wf s.host = true ∧ Memory.wf s.svMem = true ∧ s.keys = [⟨0, .loaded, 0, 0⟩]) ∧
  (State.reset.AtRest)

/-- Bytes of a memory in canonical form (addresses strictly rising, nothing listed that reads as an unlisted byte does): a write keeps the
form, reads back, and leaves every other address alone, so that equal memories are equal lists. -/
def Obligations.MemoryCells : Prop :=
  ∀ (l : List Host.Cell) (a : Nat) (b : List Byte), Memory.wf l = true →
    Memory.wf (cellsWrite l a b) = true ∧
    (∀ i, (hi : i < b.length) → cellRead (cellsWrite l a b) (a + i) = b[i]) ∧
    (∀ x, (x < a ∨ a + b.length ≤ x) → cellRead (cellsWrite l a b) x = cellRead l x) ∧
    (∀ m, Memory.wf m = true → (∀ x, cellRead m x = cellRead l x) → m = l)
end

