-- ==== Sys2Proof/Laws/State.lean ====
section
/-! SUPPORT. One lemma per field and update of State, and reads after writes of its parts: cores, ropes, contexts, strands, fibres. -/

namespace Sys2Proof.Machine

/-! ### setCore -/

@[simp] theorem State.setCore_personality (s : State) (c : Core) : (s.setCore c).personality = s.personality := rfl
@[simp] theorem State.setCore_boot (s : State) (c : Core) : (s.setCore c).boot = s.boot := rfl
@[simp] theorem State.setCore_bootErr (s : State) (c : Core) : (s.setCore c).bootErr = s.bootErr := rfl
@[simp] theorem State.setCore_fwaddr (s : State) (c : Core) : (s.setCore c).fwaddr = s.fwaddr := rfl
@[simp] theorem State.setCore_fwlen (s : State) (c : Core) : (s.setCore c).fwlen = s.fwlen := rfl
@[simp] theorem State.setCore_fwBytes (s : State) (c : Core) : (s.setCore c).fwBytes = s.fwBytes := rfl
@[simp] theorem State.setCore_fwImage (s : State) (c : Core) : (s.setCore c).fwImage = s.fwImage := rfl
@[simp] theorem State.setCore_bootNonce (s : State) (c : Core) : (s.setCore c).bootNonce = s.bootNonce := rfl
@[simp] theorem State.setCore_chip (s : State) (c : Core) : (s.setCore c).chip = s.chip := rfl
@[simp] theorem State.setCore_gtime (s : State) (c : Core) : (s.setCore c).gtime = s.gtime := rfl
@[simp] theorem State.setCore_share (s : State) (c : Core) : (s.setCore c).share = s.share := rfl
@[simp] theorem State.setCore_hot (s : State) (c : Core) : (s.setCore c).hot = s.hot := rfl
@[simp] theorem State.setCore_thermal (s : State) (c : Core) : (s.setCore c).thermal = s.thermal := rfl
@[simp] theorem State.setCore_power (s : State) (c : Core) : (s.setCore c).power = s.power := rfl
@[simp] theorem State.setCore_errCount (s : State) (c : Core) : (s.setCore c).errCount = s.errCount := rfl
@[simp] theorem State.setCore_correctable (s : State) (c : Core) : (s.setCore c).correctable = s.correctable := rfl
@[simp] theorem State.setCore_hbm (s : State) (c : Core) : (s.setCore c).hbm = s.hbm := rfl
@[simp] theorem State.setCore_hbmKey (s : State) (c : Core) : (s.setCore c).hbmKey = s.hbmKey := rfl
@[simp] theorem State.setCore_host (s : State) (c : Core) : (s.setCore c).host = s.host := rfl
@[simp] theorem State.setCore_svMem (s : State) (c : Core) : (s.setCore c).svMem = s.svMem := rfl
@[simp] theorem State.setCore_hostUp (s : State) (c : Core) : (s.setCore c).hostUp = s.hostUp := rfl
@[simp] theorem State.setCore_tlb (s : State) (c : Core) : (s.setCore c).tlb = s.tlb := rfl
@[simp] theorem State.setCore_nonleaf (s : State) (c : Core) : (s.setCore c).nonleaf = s.nonleaf := rfl
@[simp] theorem State.setCore_remap (s : State) (c : Core) : (s.setCore c).remap = s.remap := rfl
@[simp] theorem State.setCore_migreq (s : State) (c : Core) : (s.setCore c).migreq = s.migreq := rfl
@[simp] theorem State.setCore_inbound (s : State) (c : Core) : (s.setCore c).inbound = s.inbound := rfl
@[simp] theorem State.setCore_copies (s : State) (c : Core) : (s.setCore c).copies = s.copies := rfl
@[simp] theorem State.setCore_roCopies (s : State) (c : Core) : (s.setCore c).roCopies = s.roCopies := rfl
@[simp] theorem State.setCore_homes (s : State) (c : Core) : (s.setCore c).homes = s.homes := rfl
@[simp] theorem State.setCore_msgs (s : State) (c : Core) : (s.setCore c).msgs = s.msgs := rfl
@[simp] theorem State.setCore_pins (s : State) (c : Core) : (s.setCore c).pins = s.pins := rfl
@[simp] theorem State.setCore_refused (s : State) (c : Core) : (s.setCore c).refused = s.refused := rfl
@[simp] theorem State.setCore_locks (s : State) (c : Core) : (s.setCore c).locks = s.locks := rfl
@[simp] theorem State.setCore_windows (s : State) (c : Core) : (s.setCore c).windows = s.windows := rfl
@[simp] theorem State.setCore_accs (s : State) (c : Core) : (s.setCore c).accs = s.accs := rfl
@[simp] theorem State.setCore_fwds (s : State) (c : Core) : (s.setCore c).fwds = s.fwds := rfl
@[simp] theorem State.setCore_tables (s : State) (c : Core) : (s.setCore c).tables = s.tables := rfl
@[simp] theorem State.setCore_tabImages (s : State) (c : Core) : (s.setCore c).tabImages = s.tabImages := rfl
@[simp] theorem State.setCore_sealedW (s : State) (c : Core) : (s.setCore c).sealedW = s.sealedW := rfl
@[simp] theorem State.setCore_ropes (s : State) (c : Core) : (s.setCore c).ropes = s.ropes := rfl
@[simp] theorem State.setCore_ops (s : State) (c : Core) : (s.setCore c).ops = s.ops := rfl
@[simp] theorem State.setCore_ctxs (s : State) (c : Core) : (s.setCore c).ctxs = s.ctxs := rfl
@[simp] theorem State.setCore_groups (s : State) (c : Core) : (s.setCore c).groups = s.groups := rfl
@[simp] theorem State.setCore_stops (s : State) (c : Core) : (s.setCore c).stops = s.stops := rfl
@[simp] theorem State.setCore_cmds (s : State) (c : Core) : (s.setCore c).cmds = s.cmds := rfl
@[simp] theorem State.setCore_cmdq (s : State) (c : Core) : (s.setCore c).cmdq = s.cmdq := rfl
@[simp] theorem State.setCore_msixOpen (s : State) (c : Core) : (s.setCore c).msixOpen = s.msixOpen := rfl
@[simp] theorem State.setCore_msixPend (s : State) (c : Core) : (s.setCore c).msixPend = s.msixPend := rfl
@[simp] theorem State.setCore_rrCtx (s : State) (c : Core) : (s.setCore c).rrCtx = s.rrCtx := rfl
@[simp] theorem State.setCore_debugger (s : State) (c : Core) : (s.setCore c).debugger = s.debugger := rfl
@[simp] theorem State.setCore_discarded (s : State) (c : Core) : (s.setCore c).discarded = s.discarded := rfl
@[simp] theorem State.setCore_keys (s : State) (c : Core) : (s.setCore c).keys = s.keys := rfl
@[simp] theorem State.setCore_sessions (s : State) (c : Core) : (s.setCore c).sessions = s.sessions := rfl
@[simp] theorem State.setCore_receipts (s : State) (c : Core) : (s.setCore c).receipts = s.receipts := rfl
@[simp] theorem State.setCore_watches (s : State) (c : Core) : (s.setCore c).watches = s.watches := rfl
@[simp] theorem State.setCore_batch (s : State) (c : Core) : (s.setCore c).batch = s.batch := rfl
@[simp] theorem State.setCore_batches (s : State) (c : Core) : (s.setCore c).batches = s.batches := rfl
@[simp] theorem State.setCore_rseq (s : State) (c : Core) : (s.setCore c).rseq = s.rseq := rfl
@[simp] theorem State.setCore_bseq (s : State) (c : Core) : (s.setCore c).bseq = s.bseq := rfl
@[simp] theorem State.setCore_prevDig (s : State) (c : Core) : (s.setCore c).prevDig = s.prevDig := rfl
@[simp] theorem State.setCore_lastPrev (s : State) (c : Core) : (s.setCore c).lastPrev = s.lastPrev := rfl
@[simp] theorem State.setCore_fab (s : State) (c : Core) : (s.setCore c).fab = s.fab := rfl
@[simp] theorem State.setCore_nextId (s : State) (c : Core) : (s.setCore c).nextId = s.nextId := rfl
@[simp] theorem State.setCore_sched (s : State) (c : Core) : (s.setCore c).sched = s.sched := rfl
@[simp] theorem State.setCore_ticks (s : State) (c : Core) : (s.setCore c).ticks = s.ticks := rfl
@[simp] theorem State.setCore_picks (s : State) (c : Core) : (s.setCore c).picks = s.picks := rfl
@[simp] theorem State.setCore_inputs (s : State) (c : Core) : (s.setCore c).inputs = s.inputs := rfl
@[simp] theorem State.setCore_again (s : State) (c : Core) : (s.setCore c).again = s.again := rfl
@[simp] theorem State.setCore_still (s : State) (c : Core) : (s.setCore c).still = s.still := rfl
@[simp] theorem State.setCore_agent (s : State) (c : Core) : (s.setCore c).agent = s.agent := rfl
@[simp] theorem State.setCore_wbWct (s : State) (c : Core) : (s.setCore c).wbWct = s.wbWct := rfl
@[simp] theorem State.setCore_freeCtr (s : State) (c : Core) : (s.setCore c).freeCtr = s.freeCtr := rfl
@[simp] theorem State.setCore_cur (s : State) (c : Core) : (s.setCore c).cur = s.cur := rfl
@[simp] theorem State.setCore_out (s : State) (c : Core) : (s.setCore c).out = s.out := rfl

/-! ### setRope -/

@[simp] theorem State.setRope_personality (s : State) (r : Rope) : (s.setRope r).personality = s.personality := rfl
@[simp] theorem State.setRope_boot (s : State) (r : Rope) : (s.setRope r).boot = s.boot := rfl
@[simp] theorem State.setRope_bootErr (s : State) (r : Rope) : (s.setRope r).bootErr = s.bootErr := rfl
@[simp] theorem State.setRope_fwaddr (s : State) (r : Rope) : (s.setRope r).fwaddr = s.fwaddr := rfl
@[simp] theorem State.setRope_fwlen (s : State) (r : Rope) : (s.setRope r).fwlen = s.fwlen := rfl
@[simp] theorem State.setRope_fwBytes (s : State) (r : Rope) : (s.setRope r).fwBytes = s.fwBytes := rfl
@[simp] theorem State.setRope_fwImage (s : State) (r : Rope) : (s.setRope r).fwImage = s.fwImage := rfl
@[simp] theorem State.setRope_bootNonce (s : State) (r : Rope) : (s.setRope r).bootNonce = s.bootNonce := rfl
@[simp] theorem State.setRope_chip (s : State) (r : Rope) : (s.setRope r).chip = s.chip := rfl
@[simp] theorem State.setRope_gtime (s : State) (r : Rope) : (s.setRope r).gtime = s.gtime := rfl
@[simp] theorem State.setRope_share (s : State) (r : Rope) : (s.setRope r).share = s.share := rfl
@[simp] theorem State.setRope_hot (s : State) (r : Rope) : (s.setRope r).hot = s.hot := rfl
@[simp] theorem State.setRope_thermal (s : State) (r : Rope) : (s.setRope r).thermal = s.thermal := rfl
@[simp] theorem State.setRope_power (s : State) (r : Rope) : (s.setRope r).power = s.power := rfl
@[simp] theorem State.setRope_errCount (s : State) (r : Rope) : (s.setRope r).errCount = s.errCount := rfl
@[simp] theorem State.setRope_correctable (s : State) (r : Rope) : (s.setRope r).correctable = s.correctable := rfl
@[simp] theorem State.setRope_hbm (s : State) (r : Rope) : (s.setRope r).hbm = s.hbm := rfl
@[simp] theorem State.setRope_hbmKey (s : State) (r : Rope) : (s.setRope r).hbmKey = s.hbmKey := rfl
@[simp] theorem State.setRope_host (s : State) (r : Rope) : (s.setRope r).host = s.host := rfl
@[simp] theorem State.setRope_svMem (s : State) (r : Rope) : (s.setRope r).svMem = s.svMem := rfl
@[simp] theorem State.setRope_hostUp (s : State) (r : Rope) : (s.setRope r).hostUp = s.hostUp := rfl
@[simp] theorem State.setRope_tlb (s : State) (r : Rope) : (s.setRope r).tlb = s.tlb := rfl
@[simp] theorem State.setRope_nonleaf (s : State) (r : Rope) : (s.setRope r).nonleaf = s.nonleaf := rfl
@[simp] theorem State.setRope_remap (s : State) (r : Rope) : (s.setRope r).remap = s.remap := rfl
@[simp] theorem State.setRope_migreq (s : State) (r : Rope) : (s.setRope r).migreq = s.migreq := rfl
@[simp] theorem State.setRope_inbound (s : State) (r : Rope) : (s.setRope r).inbound = s.inbound := rfl
@[simp] theorem State.setRope_copies (s : State) (r : Rope) : (s.setRope r).copies = s.copies := rfl
@[simp] theorem State.setRope_roCopies (s : State) (r : Rope) : (s.setRope r).roCopies = s.roCopies := rfl
@[simp] theorem State.setRope_homes (s : State) (r : Rope) : (s.setRope r).homes = s.homes := rfl
@[simp] theorem State.setRope_msgs (s : State) (r : Rope) : (s.setRope r).msgs = s.msgs := rfl
@[simp] theorem State.setRope_pins (s : State) (r : Rope) : (s.setRope r).pins = s.pins := rfl
@[simp] theorem State.setRope_refused (s : State) (r : Rope) : (s.setRope r).refused = s.refused := rfl
@[simp] theorem State.setRope_locks (s : State) (r : Rope) : (s.setRope r).locks = s.locks := rfl
@[simp] theorem State.setRope_windows (s : State) (r : Rope) : (s.setRope r).windows = s.windows := rfl
@[simp] theorem State.setRope_accs (s : State) (r : Rope) : (s.setRope r).accs = s.accs := rfl
@[simp] theorem State.setRope_fwds (s : State) (r : Rope) : (s.setRope r).fwds = s.fwds := rfl
@[simp] theorem State.setRope_tables (s : State) (r : Rope) : (s.setRope r).tables = s.tables := rfl
@[simp] theorem State.setRope_tabImages (s : State) (r : Rope) : (s.setRope r).tabImages = s.tabImages := rfl
@[simp] theorem State.setRope_sealedW (s : State) (r : Rope) : (s.setRope r).sealedW = s.sealedW := rfl
@[simp] theorem State.setRope_cores (s : State) (r : Rope) : (s.setRope r).cores = s.cores := rfl
@[simp] theorem State.setRope_ops (s : State) (r : Rope) : (s.setRope r).ops = s.ops := rfl
@[simp] theorem State.setRope_ctxs (s : State) (r : Rope) : (s.setRope r).ctxs = s.ctxs := rfl
@[simp] theorem State.setRope_groups (s : State) (r : Rope) : (s.setRope r).groups = s.groups := rfl
@[simp] theorem State.setRope_stops (s : State) (r : Rope) : (s.setRope r).stops = s.stops := rfl
@[simp] theorem State.setRope_cmds (s : State) (r : Rope) : (s.setRope r).cmds = s.cmds := rfl
@[simp] theorem State.setRope_cmdq (s : State) (r : Rope) : (s.setRope r).cmdq = s.cmdq := rfl
@[simp] theorem State.setRope_msixOpen (s : State) (r : Rope) : (s.setRope r).msixOpen = s.msixOpen := rfl
@[simp] theorem State.setRope_msixPend (s : State) (r : Rope) : (s.setRope r).msixPend = s.msixPend := rfl
@[simp] theorem State.setRope_rrCtx (s : State) (r : Rope) : (s.setRope r).rrCtx = s.rrCtx := rfl
@[simp] theorem State.setRope_debugger (s : State) (r : Rope) : (s.setRope r).debugger = s.debugger := rfl
@[simp] theorem State.setRope_discarded (s : State) (r : Rope) : (s.setRope r).discarded = s.discarded := rfl
@[simp] theorem State.setRope_keys (s : State) (r : Rope) : (s.setRope r).keys = s.keys := rfl
@[simp] theorem State.setRope_sessions (s : State) (r : Rope) : (s.setRope r).sessions = s.sessions := rfl
@[simp] theorem State.setRope_receipts (s : State) (r : Rope) : (s.setRope r).receipts = s.receipts := rfl
@[simp] theorem State.setRope_watches (s : State) (r : Rope) : (s.setRope r).watches = s.watches := rfl
@[simp] theorem State.setRope_batch (s : State) (r : Rope) : (s.setRope r).batch = s.batch := rfl
@[simp] theorem State.setRope_batches (s : State) (r : Rope) : (s.setRope r).batches = s.batches := rfl
@[simp] theorem State.setRope_rseq (s : State) (r : Rope) : (s.setRope r).rseq = s.rseq := rfl
@[simp] theorem State.setRope_bseq (s : State) (r : Rope) : (s.setRope r).bseq = s.bseq := rfl
@[simp] theorem State.setRope_prevDig (s : State) (r : Rope) : (s.setRope r).prevDig = s.prevDig := rfl
@[simp] theorem State.setRope_lastPrev (s : State) (r : Rope) : (s.setRope r).lastPrev = s.lastPrev := rfl
@[simp] theorem State.setRope_fab (s : State) (r : Rope) : (s.setRope r).fab = s.fab := rfl
@[simp] theorem State.setRope_nextId (s : State) (r : Rope) : (s.setRope r).nextId = s.nextId := rfl
@[simp] theorem State.setRope_sched (s : State) (r : Rope) : (s.setRope r).sched = s.sched := rfl
@[simp] theorem State.setRope_ticks (s : State) (r : Rope) : (s.setRope r).ticks = s.ticks := rfl
@[simp] theorem State.setRope_picks (s : State) (r : Rope) : (s.setRope r).picks = s.picks := rfl
@[simp] theorem State.setRope_inputs (s : State) (r : Rope) : (s.setRope r).inputs = s.inputs := rfl
@[simp] theorem State.setRope_again (s : State) (r : Rope) : (s.setRope r).again = s.again := rfl
@[simp] theorem State.setRope_still (s : State) (r : Rope) : (s.setRope r).still = s.still := rfl
@[simp] theorem State.setRope_agent (s : State) (r : Rope) : (s.setRope r).agent = s.agent := rfl
@[simp] theorem State.setRope_wbWct (s : State) (r : Rope) : (s.setRope r).wbWct = s.wbWct := rfl
@[simp] theorem State.setRope_freeCtr (s : State) (r : Rope) : (s.setRope r).freeCtr = s.freeCtr := rfl
@[simp] theorem State.setRope_cur (s : State) (r : Rope) : (s.setRope r).cur = s.cur := rfl
@[simp] theorem State.setRope_out (s : State) (r : Rope) : (s.setRope r).out = s.out := rfl

/-! ### setCtx -/

@[simp] theorem State.setCtx_personality (s : State) (c : Context) : (s.setCtx c).personality = s.personality := rfl
@[simp] theorem State.setCtx_boot (s : State) (c : Context) : (s.setCtx c).boot = s.boot := rfl
@[simp] theorem State.setCtx_bootErr (s : State) (c : Context) : (s.setCtx c).bootErr = s.bootErr := rfl
@[simp] theorem State.setCtx_fwaddr (s : State) (c : Context) : (s.setCtx c).fwaddr = s.fwaddr := rfl
@[simp] theorem State.setCtx_fwlen (s : State) (c : Context) : (s.setCtx c).fwlen = s.fwlen := rfl
@[simp] theorem State.setCtx_fwBytes (s : State) (c : Context) : (s.setCtx c).fwBytes = s.fwBytes := rfl
@[simp] theorem State.setCtx_fwImage (s : State) (c : Context) : (s.setCtx c).fwImage = s.fwImage := rfl
@[simp] theorem State.setCtx_bootNonce (s : State) (c : Context) : (s.setCtx c).bootNonce = s.bootNonce := rfl
@[simp] theorem State.setCtx_chip (s : State) (c : Context) : (s.setCtx c).chip = s.chip := rfl
@[simp] theorem State.setCtx_gtime (s : State) (c : Context) : (s.setCtx c).gtime = s.gtime := rfl
@[simp] theorem State.setCtx_share (s : State) (c : Context) : (s.setCtx c).share = s.share := rfl
@[simp] theorem State.setCtx_hot (s : State) (c : Context) : (s.setCtx c).hot = s.hot := rfl
@[simp] theorem State.setCtx_thermal (s : State) (c : Context) : (s.setCtx c).thermal = s.thermal := rfl
@[simp] theorem State.setCtx_power (s : State) (c : Context) : (s.setCtx c).power = s.power := rfl
@[simp] theorem State.setCtx_errCount (s : State) (c : Context) : (s.setCtx c).errCount = s.errCount := rfl
@[simp] theorem State.setCtx_correctable (s : State) (c : Context) : (s.setCtx c).correctable = s.correctable := rfl
@[simp] theorem State.setCtx_hbm (s : State) (c : Context) : (s.setCtx c).hbm = s.hbm := rfl
@[simp] theorem State.setCtx_hbmKey (s : State) (c : Context) : (s.setCtx c).hbmKey = s.hbmKey := rfl
@[simp] theorem State.setCtx_host (s : State) (c : Context) : (s.setCtx c).host = s.host := rfl
@[simp] theorem State.setCtx_svMem (s : State) (c : Context) : (s.setCtx c).svMem = s.svMem := rfl
@[simp] theorem State.setCtx_hostUp (s : State) (c : Context) : (s.setCtx c).hostUp = s.hostUp := rfl
@[simp] theorem State.setCtx_tlb (s : State) (c : Context) : (s.setCtx c).tlb = s.tlb := rfl
@[simp] theorem State.setCtx_nonleaf (s : State) (c : Context) : (s.setCtx c).nonleaf = s.nonleaf := rfl
@[simp] theorem State.setCtx_remap (s : State) (c : Context) : (s.setCtx c).remap = s.remap := rfl
@[simp] theorem State.setCtx_migreq (s : State) (c : Context) : (s.setCtx c).migreq = s.migreq := rfl
@[simp] theorem State.setCtx_inbound (s : State) (c : Context) : (s.setCtx c).inbound = s.inbound := rfl
@[simp] theorem State.setCtx_copies (s : State) (c : Context) : (s.setCtx c).copies = s.copies := rfl
@[simp] theorem State.setCtx_roCopies (s : State) (c : Context) : (s.setCtx c).roCopies = s.roCopies := rfl
@[simp] theorem State.setCtx_homes (s : State) (c : Context) : (s.setCtx c).homes = s.homes := rfl
@[simp] theorem State.setCtx_msgs (s : State) (c : Context) : (s.setCtx c).msgs = s.msgs := rfl
@[simp] theorem State.setCtx_pins (s : State) (c : Context) : (s.setCtx c).pins = s.pins := rfl
@[simp] theorem State.setCtx_refused (s : State) (c : Context) : (s.setCtx c).refused = s.refused := rfl
@[simp] theorem State.setCtx_locks (s : State) (c : Context) : (s.setCtx c).locks = s.locks := rfl
@[simp] theorem State.setCtx_windows (s : State) (c : Context) : (s.setCtx c).windows = s.windows := rfl
@[simp] theorem State.setCtx_accs (s : State) (c : Context) : (s.setCtx c).accs = s.accs := rfl
@[simp] theorem State.setCtx_fwds (s : State) (c : Context) : (s.setCtx c).fwds = s.fwds := rfl
@[simp] theorem State.setCtx_tables (s : State) (c : Context) : (s.setCtx c).tables = s.tables := rfl
@[simp] theorem State.setCtx_tabImages (s : State) (c : Context) : (s.setCtx c).tabImages = s.tabImages := rfl
@[simp] theorem State.setCtx_sealedW (s : State) (c : Context) : (s.setCtx c).sealedW = s.sealedW := rfl
@[simp] theorem State.setCtx_ropes (s : State) (c : Context) : (s.setCtx c).ropes = s.ropes := rfl
@[simp] theorem State.setCtx_cores (s : State) (c : Context) : (s.setCtx c).cores = s.cores := rfl
@[simp] theorem State.setCtx_ops (s : State) (c : Context) : (s.setCtx c).ops = s.ops := rfl
@[simp] theorem State.setCtx_groups (s : State) (c : Context) : (s.setCtx c).groups = s.groups := rfl
@[simp] theorem State.setCtx_stops (s : State) (c : Context) : (s.setCtx c).stops = s.stops := rfl
@[simp] theorem State.setCtx_cmds (s : State) (c : Context) : (s.setCtx c).cmds = s.cmds := rfl
@[simp] theorem State.setCtx_cmdq (s : State) (c : Context) : (s.setCtx c).cmdq = s.cmdq := rfl
@[simp] theorem State.setCtx_msixOpen (s : State) (c : Context) : (s.setCtx c).msixOpen = s.msixOpen := rfl
@[simp] theorem State.setCtx_msixPend (s : State) (c : Context) : (s.setCtx c).msixPend = s.msixPend := rfl
@[simp] theorem State.setCtx_rrCtx (s : State) (c : Context) : (s.setCtx c).rrCtx = s.rrCtx := rfl
@[simp] theorem State.setCtx_debugger (s : State) (c : Context) : (s.setCtx c).debugger = s.debugger := rfl
@[simp] theorem State.setCtx_discarded (s : State) (c : Context) : (s.setCtx c).discarded = s.discarded := rfl
@[simp] theorem State.setCtx_keys (s : State) (c : Context) : (s.setCtx c).keys = s.keys := rfl
@[simp] theorem State.setCtx_sessions (s : State) (c : Context) : (s.setCtx c).sessions = s.sessions := rfl
@[simp] theorem State.setCtx_receipts (s : State) (c : Context) : (s.setCtx c).receipts = s.receipts := rfl
@[simp] theorem State.setCtx_watches (s : State) (c : Context) : (s.setCtx c).watches = s.watches := rfl
@[simp] theorem State.setCtx_batch (s : State) (c : Context) : (s.setCtx c).batch = s.batch := rfl
@[simp] theorem State.setCtx_batches (s : State) (c : Context) : (s.setCtx c).batches = s.batches := rfl
@[simp] theorem State.setCtx_rseq (s : State) (c : Context) : (s.setCtx c).rseq = s.rseq := rfl
@[simp] theorem State.setCtx_bseq (s : State) (c : Context) : (s.setCtx c).bseq = s.bseq := rfl
@[simp] theorem State.setCtx_prevDig (s : State) (c : Context) : (s.setCtx c).prevDig = s.prevDig := rfl
@[simp] theorem State.setCtx_lastPrev (s : State) (c : Context) : (s.setCtx c).lastPrev = s.lastPrev := rfl
@[simp] theorem State.setCtx_fab (s : State) (c : Context) : (s.setCtx c).fab = s.fab := rfl
@[simp] theorem State.setCtx_nextId (s : State) (c : Context) : (s.setCtx c).nextId = s.nextId := rfl
@[simp] theorem State.setCtx_sched (s : State) (c : Context) : (s.setCtx c).sched = s.sched := rfl
@[simp] theorem State.setCtx_ticks (s : State) (c : Context) : (s.setCtx c).ticks = s.ticks := rfl
@[simp] theorem State.setCtx_picks (s : State) (c : Context) : (s.setCtx c).picks = s.picks := rfl
@[simp] theorem State.setCtx_inputs (s : State) (c : Context) : (s.setCtx c).inputs = s.inputs := rfl
@[simp] theorem State.setCtx_again (s : State) (c : Context) : (s.setCtx c).again = s.again := rfl
@[simp] theorem State.setCtx_still (s : State) (c : Context) : (s.setCtx c).still = s.still := rfl
@[simp] theorem State.setCtx_agent (s : State) (c : Context) : (s.setCtx c).agent = s.agent := rfl
@[simp] theorem State.setCtx_wbWct (s : State) (c : Context) : (s.setCtx c).wbWct = s.wbWct := rfl
@[simp] theorem State.setCtx_freeCtr (s : State) (c : Context) : (s.setCtx c).freeCtr = s.freeCtr := rfl
@[simp] theorem State.setCtx_cur (s : State) (c : Context) : (s.setCtx c).cur = s.cur := rfl
@[simp] theorem State.setCtx_out (s : State) (c : Context) : (s.setCtx c).out = s.out := rfl

/-! ### setOp -/

@[simp] theorem State.setOp_personality (s : State) (o : Op) : (s.setOp o).personality = s.personality := rfl
@[simp] theorem State.setOp_boot (s : State) (o : Op) : (s.setOp o).boot = s.boot := rfl
@[simp] theorem State.setOp_bootErr (s : State) (o : Op) : (s.setOp o).bootErr = s.bootErr := rfl
@[simp] theorem State.setOp_fwaddr (s : State) (o : Op) : (s.setOp o).fwaddr = s.fwaddr := rfl
@[simp] theorem State.setOp_fwlen (s : State) (o : Op) : (s.setOp o).fwlen = s.fwlen := rfl
@[simp] theorem State.setOp_fwBytes (s : State) (o : Op) : (s.setOp o).fwBytes = s.fwBytes := rfl
@[simp] theorem State.setOp_fwImage (s : State) (o : Op) : (s.setOp o).fwImage = s.fwImage := rfl
@[simp] theorem State.setOp_bootNonce (s : State) (o : Op) : (s.setOp o).bootNonce = s.bootNonce := rfl
@[simp] theorem State.setOp_chip (s : State) (o : Op) : (s.setOp o).chip = s.chip := rfl
@[simp] theorem State.setOp_gtime (s : State) (o : Op) : (s.setOp o).gtime = s.gtime := rfl
@[simp] theorem State.setOp_share (s : State) (o : Op) : (s.setOp o).share = s.share := rfl
@[simp] theorem State.setOp_hot (s : State) (o : Op) : (s.setOp o).hot = s.hot := rfl
@[simp] theorem State.setOp_thermal (s : State) (o : Op) : (s.setOp o).thermal = s.thermal := rfl
@[simp] theorem State.setOp_power (s : State) (o : Op) : (s.setOp o).power = s.power := rfl
@[simp] theorem State.setOp_errCount (s : State) (o : Op) : (s.setOp o).errCount = s.errCount := rfl
@[simp] theorem State.setOp_correctable (s : State) (o : Op) : (s.setOp o).correctable = s.correctable := rfl
@[simp] theorem State.setOp_hbm (s : State) (o : Op) : (s.setOp o).hbm = s.hbm := rfl
@[simp] theorem State.setOp_hbmKey (s : State) (o : Op) : (s.setOp o).hbmKey = s.hbmKey := rfl
@[simp] theorem State.setOp_host (s : State) (o : Op) : (s.setOp o).host = s.host := rfl
@[simp] theorem State.setOp_svMem (s : State) (o : Op) : (s.setOp o).svMem = s.svMem := rfl
@[simp] theorem State.setOp_hostUp (s : State) (o : Op) : (s.setOp o).hostUp = s.hostUp := rfl
@[simp] theorem State.setOp_tlb (s : State) (o : Op) : (s.setOp o).tlb = s.tlb := rfl
@[simp] theorem State.setOp_nonleaf (s : State) (o : Op) : (s.setOp o).nonleaf = s.nonleaf := rfl
@[simp] theorem State.setOp_remap (s : State) (o : Op) : (s.setOp o).remap = s.remap := rfl
@[simp] theorem State.setOp_migreq (s : State) (o : Op) : (s.setOp o).migreq = s.migreq := rfl
@[simp] theorem State.setOp_inbound (s : State) (o : Op) : (s.setOp o).inbound = s.inbound := rfl
@[simp] theorem State.setOp_copies (s : State) (o : Op) : (s.setOp o).copies = s.copies := rfl
@[simp] theorem State.setOp_roCopies (s : State) (o : Op) : (s.setOp o).roCopies = s.roCopies := rfl
@[simp] theorem State.setOp_homes (s : State) (o : Op) : (s.setOp o).homes = s.homes := rfl
@[simp] theorem State.setOp_msgs (s : State) (o : Op) : (s.setOp o).msgs = s.msgs := rfl
@[simp] theorem State.setOp_pins (s : State) (o : Op) : (s.setOp o).pins = s.pins := rfl
@[simp] theorem State.setOp_refused (s : State) (o : Op) : (s.setOp o).refused = s.refused := rfl
@[simp] theorem State.setOp_locks (s : State) (o : Op) : (s.setOp o).locks = s.locks := rfl
@[simp] theorem State.setOp_windows (s : State) (o : Op) : (s.setOp o).windows = s.windows := rfl
@[simp] theorem State.setOp_accs (s : State) (o : Op) : (s.setOp o).accs = s.accs := rfl
@[simp] theorem State.setOp_fwds (s : State) (o : Op) : (s.setOp o).fwds = s.fwds := rfl
@[simp] theorem State.setOp_tables (s : State) (o : Op) : (s.setOp o).tables = s.tables := rfl
@[simp] theorem State.setOp_tabImages (s : State) (o : Op) : (s.setOp o).tabImages = s.tabImages := rfl
@[simp] theorem State.setOp_sealedW (s : State) (o : Op) : (s.setOp o).sealedW = s.sealedW := rfl
@[simp] theorem State.setOp_ropes (s : State) (o : Op) : (s.setOp o).ropes = s.ropes := rfl
@[simp] theorem State.setOp_cores (s : State) (o : Op) : (s.setOp o).cores = s.cores := rfl
@[simp] theorem State.setOp_ctxs (s : State) (o : Op) : (s.setOp o).ctxs = s.ctxs := rfl
@[simp] theorem State.setOp_groups (s : State) (o : Op) : (s.setOp o).groups = s.groups := rfl
@[simp] theorem State.setOp_stops (s : State) (o : Op) : (s.setOp o).stops = s.stops := rfl
@[simp] theorem State.setOp_cmds (s : State) (o : Op) : (s.setOp o).cmds = s.cmds := rfl
@[simp] theorem State.setOp_cmdq (s : State) (o : Op) : (s.setOp o).cmdq = s.cmdq := rfl
@[simp] theorem State.setOp_msixOpen (s : State) (o : Op) : (s.setOp o).msixOpen = s.msixOpen := rfl
@[simp] theorem State.setOp_msixPend (s : State) (o : Op) : (s.setOp o).msixPend = s.msixPend := rfl
@[simp] theorem State.setOp_rrCtx (s : State) (o : Op) : (s.setOp o).rrCtx = s.rrCtx := rfl
@[simp] theorem State.setOp_debugger (s : State) (o : Op) : (s.setOp o).debugger = s.debugger := rfl
@[simp] theorem State.setOp_discarded (s : State) (o : Op) : (s.setOp o).discarded = s.discarded := rfl
@[simp] theorem State.setOp_keys (s : State) (o : Op) : (s.setOp o).keys = s.keys := rfl
@[simp] theorem State.setOp_sessions (s : State) (o : Op) : (s.setOp o).sessions = s.sessions := rfl
@[simp] theorem State.setOp_receipts (s : State) (o : Op) : (s.setOp o).receipts = s.receipts := rfl
@[simp] theorem State.setOp_watches (s : State) (o : Op) : (s.setOp o).watches = s.watches := rfl
@[simp] theorem State.setOp_batch (s : State) (o : Op) : (s.setOp o).batch = s.batch := rfl
@[simp] theorem State.setOp_batches (s : State) (o : Op) : (s.setOp o).batches = s.batches := rfl
@[simp] theorem State.setOp_rseq (s : State) (o : Op) : (s.setOp o).rseq = s.rseq := rfl
@[simp] theorem State.setOp_bseq (s : State) (o : Op) : (s.setOp o).bseq = s.bseq := rfl
@[simp] theorem State.setOp_prevDig (s : State) (o : Op) : (s.setOp o).prevDig = s.prevDig := rfl
@[simp] theorem State.setOp_lastPrev (s : State) (o : Op) : (s.setOp o).lastPrev = s.lastPrev := rfl
@[simp] theorem State.setOp_fab (s : State) (o : Op) : (s.setOp o).fab = s.fab := rfl
@[simp] theorem State.setOp_nextId (s : State) (o : Op) : (s.setOp o).nextId = s.nextId := rfl
@[simp] theorem State.setOp_sched (s : State) (o : Op) : (s.setOp o).sched = s.sched := rfl
@[simp] theorem State.setOp_ticks (s : State) (o : Op) : (s.setOp o).ticks = s.ticks := rfl
@[simp] theorem State.setOp_picks (s : State) (o : Op) : (s.setOp o).picks = s.picks := rfl
@[simp] theorem State.setOp_inputs (s : State) (o : Op) : (s.setOp o).inputs = s.inputs := rfl
@[simp] theorem State.setOp_again (s : State) (o : Op) : (s.setOp o).again = s.again := rfl
@[simp] theorem State.setOp_still (s : State) (o : Op) : (s.setOp o).still = s.still := rfl
@[simp] theorem State.setOp_agent (s : State) (o : Op) : (s.setOp o).agent = s.agent := rfl
@[simp] theorem State.setOp_wbWct (s : State) (o : Op) : (s.setOp o).wbWct = s.wbWct := rfl
@[simp] theorem State.setOp_freeCtr (s : State) (o : Op) : (s.setOp o).freeCtr = s.freeCtr := rfl
@[simp] theorem State.setOp_cur (s : State) (o : Op) : (s.setOp o).cur = s.cur := rfl
@[simp] theorem State.setOp_out (s : State) (o : Op) : (s.setOp o).out = s.out := rfl

/-! ### setAcc -/

@[simp] theorem State.setAcc_personality (s : State) (a : Access) : (s.setAcc a).personality = s.personality := rfl
@[simp] theorem State.setAcc_boot (s : State) (a : Access) : (s.setAcc a).boot = s.boot := rfl
@[simp] theorem State.setAcc_bootErr (s : State) (a : Access) : (s.setAcc a).bootErr = s.bootErr := rfl
@[simp] theorem State.setAcc_fwaddr (s : State) (a : Access) : (s.setAcc a).fwaddr = s.fwaddr := rfl
@[simp] theorem State.setAcc_fwlen (s : State) (a : Access) : (s.setAcc a).fwlen = s.fwlen := rfl
@[simp] theorem State.setAcc_fwBytes (s : State) (a : Access) : (s.setAcc a).fwBytes = s.fwBytes := rfl
@[simp] theorem State.setAcc_fwImage (s : State) (a : Access) : (s.setAcc a).fwImage = s.fwImage := rfl
@[simp] theorem State.setAcc_bootNonce (s : State) (a : Access) : (s.setAcc a).bootNonce = s.bootNonce := rfl
@[simp] theorem State.setAcc_chip (s : State) (a : Access) : (s.setAcc a).chip = s.chip := rfl
@[simp] theorem State.setAcc_gtime (s : State) (a : Access) : (s.setAcc a).gtime = s.gtime := rfl
@[simp] theorem State.setAcc_share (s : State) (a : Access) : (s.setAcc a).share = s.share := rfl
@[simp] theorem State.setAcc_hot (s : State) (a : Access) : (s.setAcc a).hot = s.hot := rfl
@[simp] theorem State.setAcc_thermal (s : State) (a : Access) : (s.setAcc a).thermal = s.thermal := rfl
@[simp] theorem State.setAcc_power (s : State) (a : Access) : (s.setAcc a).power = s.power := rfl
@[simp] theorem State.setAcc_errCount (s : State) (a : Access) : (s.setAcc a).errCount = s.errCount := rfl
@[simp] theorem State.setAcc_correctable (s : State) (a : Access) : (s.setAcc a).correctable = s.correctable := rfl
@[simp] theorem State.setAcc_hbm (s : State) (a : Access) : (s.setAcc a).hbm = s.hbm := rfl
@[simp] theorem State.setAcc_hbmKey (s : State) (a : Access) : (s.setAcc a).hbmKey = s.hbmKey := rfl
@[simp] theorem State.setAcc_host (s : State) (a : Access) : (s.setAcc a).host = s.host := rfl
@[simp] theorem State.setAcc_svMem (s : State) (a : Access) : (s.setAcc a).svMem = s.svMem := rfl
@[simp] theorem State.setAcc_hostUp (s : State) (a : Access) : (s.setAcc a).hostUp = s.hostUp := rfl
@[simp] theorem State.setAcc_tlb (s : State) (a : Access) : (s.setAcc a).tlb = s.tlb := rfl
@[simp] theorem State.setAcc_nonleaf (s : State) (a : Access) : (s.setAcc a).nonleaf = s.nonleaf := rfl
@[simp] theorem State.setAcc_remap (s : State) (a : Access) : (s.setAcc a).remap = s.remap := rfl
@[simp] theorem State.setAcc_migreq (s : State) (a : Access) : (s.setAcc a).migreq = s.migreq := rfl
@[simp] theorem State.setAcc_inbound (s : State) (a : Access) : (s.setAcc a).inbound = s.inbound := rfl
@[simp] theorem State.setAcc_copies (s : State) (a : Access) : (s.setAcc a).copies = s.copies := rfl
@[simp] theorem State.setAcc_roCopies (s : State) (a : Access) : (s.setAcc a).roCopies = s.roCopies := rfl
@[simp] theorem State.setAcc_homes (s : State) (a : Access) : (s.setAcc a).homes = s.homes := rfl
@[simp] theorem State.setAcc_msgs (s : State) (a : Access) : (s.setAcc a).msgs = s.msgs := rfl
@[simp] theorem State.setAcc_pins (s : State) (a : Access) : (s.setAcc a).pins = s.pins := rfl
@[simp] theorem State.setAcc_refused (s : State) (a : Access) : (s.setAcc a).refused = s.refused := rfl
@[simp] theorem State.setAcc_locks (s : State) (a : Access) : (s.setAcc a).locks = s.locks := rfl
@[simp] theorem State.setAcc_windows (s : State) (a : Access) : (s.setAcc a).windows = s.windows := rfl
@[simp] theorem State.setAcc_fwds (s : State) (a : Access) : (s.setAcc a).fwds = s.fwds := rfl
@[simp] theorem State.setAcc_tables (s : State) (a : Access) : (s.setAcc a).tables = s.tables := rfl
@[simp] theorem State.setAcc_tabImages (s : State) (a : Access) : (s.setAcc a).tabImages = s.tabImages := rfl
@[simp] theorem State.setAcc_sealedW (s : State) (a : Access) : (s.setAcc a).sealedW = s.sealedW := rfl
@[simp] theorem State.setAcc_ropes (s : State) (a : Access) : (s.setAcc a).ropes = s.ropes := rfl
@[simp] theorem State.setAcc_cores (s : State) (a : Access) : (s.setAcc a).cores = s.cores := rfl
@[simp] theorem State.setAcc_ops (s : State) (a : Access) : (s.setAcc a).ops = s.ops := rfl
@[simp] theorem State.setAcc_ctxs (s : State) (a : Access) : (s.setAcc a).ctxs = s.ctxs := rfl
@[simp] theorem State.setAcc_groups (s : State) (a : Access) : (s.setAcc a).groups = s.groups := rfl
@[simp] theorem State.setAcc_stops (s : State) (a : Access) : (s.setAcc a).stops = s.stops := rfl
@[simp] theorem State.setAcc_cmds (s : State) (a : Access) : (s.setAcc a).cmds = s.cmds := rfl
@[simp] theorem State.setAcc_cmdq (s : State) (a : Access) : (s.setAcc a).cmdq = s.cmdq := rfl
@[simp] theorem State.setAcc_msixOpen (s : State) (a : Access) : (s.setAcc a).msixOpen = s.msixOpen := rfl
@[simp] theorem State.setAcc_msixPend (s : State) (a : Access) : (s.setAcc a).msixPend = s.msixPend := rfl
@[simp] theorem State.setAcc_rrCtx (s : State) (a : Access) : (s.setAcc a).rrCtx = s.rrCtx := rfl
@[simp] theorem State.setAcc_debugger (s : State) (a : Access) : (s.setAcc a).debugger = s.debugger := rfl
@[simp] theorem State.setAcc_discarded (s : State) (a : Access) : (s.setAcc a).discarded = s.discarded := rfl
@[simp] theorem State.setAcc_keys (s : State) (a : Access) : (s.setAcc a).keys = s.keys := rfl
@[simp] theorem State.setAcc_sessions (s : State) (a : Access) : (s.setAcc a).sessions = s.sessions := rfl
@[simp] theorem State.setAcc_receipts (s : State) (a : Access) : (s.setAcc a).receipts = s.receipts := rfl
@[simp] theorem State.setAcc_watches (s : State) (a : Access) : (s.setAcc a).watches = s.watches := rfl
@[simp] theorem State.setAcc_batch (s : State) (a : Access) : (s.setAcc a).batch = s.batch := rfl
@[simp] theorem State.setAcc_batches (s : State) (a : Access) : (s.setAcc a).batches = s.batches := rfl
@[simp] theorem State.setAcc_rseq (s : State) (a : Access) : (s.setAcc a).rseq = s.rseq := rfl
@[simp] theorem State.setAcc_bseq (s : State) (a : Access) : (s.setAcc a).bseq = s.bseq := rfl
@[simp] theorem State.setAcc_prevDig (s : State) (a : Access) : (s.setAcc a).prevDig = s.prevDig := rfl
@[simp] theorem State.setAcc_lastPrev (s : State) (a : Access) : (s.setAcc a).lastPrev = s.lastPrev := rfl
@[simp] theorem State.setAcc_fab (s : State) (a : Access) : (s.setAcc a).fab = s.fab := rfl
@[simp] theorem State.setAcc_nextId (s : State) (a : Access) : (s.setAcc a).nextId = s.nextId := rfl
@[simp] theorem State.setAcc_sched (s : State) (a : Access) : (s.setAcc a).sched = s.sched := rfl
@[simp] theorem State.setAcc_ticks (s : State) (a : Access) : (s.setAcc a).ticks = s.ticks := rfl
@[simp] theorem State.setAcc_picks (s : State) (a : Access) : (s.setAcc a).picks = s.picks := rfl
@[simp] theorem State.setAcc_inputs (s : State) (a : Access) : (s.setAcc a).inputs = s.inputs := rfl
@[simp] theorem State.setAcc_again (s : State) (a : Access) : (s.setAcc a).again = s.again := rfl
@[simp] theorem State.setAcc_still (s : State) (a : Access) : (s.setAcc a).still = s.still := rfl
@[simp] theorem State.setAcc_agent (s : State) (a : Access) : (s.setAcc a).agent = s.agent := rfl
@[simp] theorem State.setAcc_wbWct (s : State) (a : Access) : (s.setAcc a).wbWct = s.wbWct := rfl
@[simp] theorem State.setAcc_freeCtr (s : State) (a : Access) : (s.setAcc a).freeCtr = s.freeCtr := rfl
@[simp] theorem State.setAcc_cur (s : State) (a : Access) : (s.setAcc a).cur = s.cur := rfl
@[simp] theorem State.setAcc_out (s : State) (a : Access) : (s.setAcc a).out = s.out := rfl

/-! ### dropAcc -/

@[simp] theorem State.dropAcc_personality (s : State) (n : Nat) : (s.dropAcc n).personality = s.personality := rfl
@[simp] theorem State.dropAcc_boot (s : State) (n : Nat) : (s.dropAcc n).boot = s.boot := rfl
@[simp] theorem State.dropAcc_bootErr (s : State) (n : Nat) : (s.dropAcc n).bootErr = s.bootErr := rfl
@[simp] theorem State.dropAcc_fwaddr (s : State) (n : Nat) : (s.dropAcc n).fwaddr = s.fwaddr := rfl
@[simp] theorem State.dropAcc_fwlen (s : State) (n : Nat) : (s.dropAcc n).fwlen = s.fwlen := rfl
@[simp] theorem State.dropAcc_fwBytes (s : State) (n : Nat) : (s.dropAcc n).fwBytes = s.fwBytes := rfl
@[simp] theorem State.dropAcc_fwImage (s : State) (n : Nat) : (s.dropAcc n).fwImage = s.fwImage := rfl
@[simp] theorem State.dropAcc_bootNonce (s : State) (n : Nat) : (s.dropAcc n).bootNonce = s.bootNonce := rfl
@[simp] theorem State.dropAcc_chip (s : State) (n : Nat) : (s.dropAcc n).chip = s.chip := rfl
@[simp] theorem State.dropAcc_gtime (s : State) (n : Nat) : (s.dropAcc n).gtime = s.gtime := rfl
@[simp] theorem State.dropAcc_share (s : State) (n : Nat) : (s.dropAcc n).share = s.share := rfl
@[simp] theorem State.dropAcc_hot (s : State) (n : Nat) : (s.dropAcc n).hot = s.hot := rfl
@[simp] theorem State.dropAcc_thermal (s : State) (n : Nat) : (s.dropAcc n).thermal = s.thermal := rfl
@[simp] theorem State.dropAcc_power (s : State) (n : Nat) : (s.dropAcc n).power = s.power := rfl
@[simp] theorem State.dropAcc_errCount (s : State) (n : Nat) : (s.dropAcc n).errCount = s.errCount := rfl
@[simp] theorem State.dropAcc_correctable (s : State) (n : Nat) : (s.dropAcc n).correctable = s.correctable := rfl
@[simp] theorem State.dropAcc_hbm (s : State) (n : Nat) : (s.dropAcc n).hbm = s.hbm := rfl
@[simp] theorem State.dropAcc_hbmKey (s : State) (n : Nat) : (s.dropAcc n).hbmKey = s.hbmKey := rfl
@[simp] theorem State.dropAcc_host (s : State) (n : Nat) : (s.dropAcc n).host = s.host := rfl
@[simp] theorem State.dropAcc_svMem (s : State) (n : Nat) : (s.dropAcc n).svMem = s.svMem := rfl
@[simp] theorem State.dropAcc_hostUp (s : State) (n : Nat) : (s.dropAcc n).hostUp = s.hostUp := rfl
@[simp] theorem State.dropAcc_tlb (s : State) (n : Nat) : (s.dropAcc n).tlb = s.tlb := rfl
@[simp] theorem State.dropAcc_nonleaf (s : State) (n : Nat) : (s.dropAcc n).nonleaf = s.nonleaf := rfl
@[simp] theorem State.dropAcc_remap (s : State) (n : Nat) : (s.dropAcc n).remap = s.remap := rfl
@[simp] theorem State.dropAcc_migreq (s : State) (n : Nat) : (s.dropAcc n).migreq = s.migreq := rfl
@[simp] theorem State.dropAcc_inbound (s : State) (n : Nat) : (s.dropAcc n).inbound = s.inbound := rfl
@[simp] theorem State.dropAcc_copies (s : State) (n : Nat) : (s.dropAcc n).copies = s.copies := rfl
@[simp] theorem State.dropAcc_roCopies (s : State) (n : Nat) : (s.dropAcc n).roCopies = s.roCopies := rfl
@[simp] theorem State.dropAcc_homes (s : State) (n : Nat) : (s.dropAcc n).homes = s.homes := rfl
@[simp] theorem State.dropAcc_msgs (s : State) (n : Nat) : (s.dropAcc n).msgs = s.msgs := rfl
@[simp] theorem State.dropAcc_pins (s : State) (n : Nat) : (s.dropAcc n).pins = s.pins := rfl
@[simp] theorem State.dropAcc_refused (s : State) (n : Nat) : (s.dropAcc n).refused = s.refused := rfl
@[simp] theorem State.dropAcc_locks (s : State) (n : Nat) : (s.dropAcc n).locks = s.locks := rfl
@[simp] theorem State.dropAcc_windows (s : State) (n : Nat) : (s.dropAcc n).windows = s.windows := rfl
@[simp] theorem State.dropAcc_fwds (s : State) (n : Nat) : (s.dropAcc n).fwds = s.fwds := rfl
@[simp] theorem State.dropAcc_tables (s : State) (n : Nat) : (s.dropAcc n).tables = s.tables := rfl
@[simp] theorem State.dropAcc_tabImages (s : State) (n : Nat) : (s.dropAcc n).tabImages = s.tabImages := rfl
@[simp] theorem State.dropAcc_sealedW (s : State) (n : Nat) : (s.dropAcc n).sealedW = s.sealedW := rfl
@[simp] theorem State.dropAcc_ropes (s : State) (n : Nat) : (s.dropAcc n).ropes = s.ropes := rfl
@[simp] theorem State.dropAcc_cores (s : State) (n : Nat) : (s.dropAcc n).cores = s.cores := rfl
@[simp] theorem State.dropAcc_ops (s : State) (n : Nat) : (s.dropAcc n).ops = s.ops := rfl
@[simp] theorem State.dropAcc_ctxs (s : State) (n : Nat) : (s.dropAcc n).ctxs = s.ctxs := rfl
@[simp] theorem State.dropAcc_groups (s : State) (n : Nat) : (s.dropAcc n).groups = s.groups := rfl
@[simp] theorem State.dropAcc_stops (s : State) (n : Nat) : (s.dropAcc n).stops = s.stops := rfl
@[simp] theorem State.dropAcc_cmds (s : State) (n : Nat) : (s.dropAcc n).cmds = s.cmds := rfl
@[simp] theorem State.dropAcc_cmdq (s : State) (n : Nat) : (s.dropAcc n).cmdq = s.cmdq := rfl
@[simp] theorem State.dropAcc_msixOpen (s : State) (n : Nat) : (s.dropAcc n).msixOpen = s.msixOpen := rfl
@[simp] theorem State.dropAcc_msixPend (s : State) (n : Nat) : (s.dropAcc n).msixPend = s.msixPend := rfl
@[simp] theorem State.dropAcc_rrCtx (s : State) (n : Nat) : (s.dropAcc n).rrCtx = s.rrCtx := rfl
@[simp] theorem State.dropAcc_debugger (s : State) (n : Nat) : (s.dropAcc n).debugger = s.debugger := rfl
@[simp] theorem State.dropAcc_discarded (s : State) (n : Nat) : (s.dropAcc n).discarded = s.discarded := rfl
@[simp] theorem State.dropAcc_keys (s : State) (n : Nat) : (s.dropAcc n).keys = s.keys := rfl
@[simp] theorem State.dropAcc_sessions (s : State) (n : Nat) : (s.dropAcc n).sessions = s.sessions := rfl
@[simp] theorem State.dropAcc_receipts (s : State) (n : Nat) : (s.dropAcc n).receipts = s.receipts := rfl
@[simp] theorem State.dropAcc_watches (s : State) (n : Nat) : (s.dropAcc n).watches = s.watches := rfl
@[simp] theorem State.dropAcc_batch (s : State) (n : Nat) : (s.dropAcc n).batch = s.batch := rfl
@[simp] theorem State.dropAcc_batches (s : State) (n : Nat) : (s.dropAcc n).batches = s.batches := rfl
@[simp] theorem State.dropAcc_rseq (s : State) (n : Nat) : (s.dropAcc n).rseq = s.rseq := rfl
@[simp] theorem State.dropAcc_bseq (s : State) (n : Nat) : (s.dropAcc n).bseq = s.bseq := rfl
@[simp] theorem State.dropAcc_prevDig (s : State) (n : Nat) : (s.dropAcc n).prevDig = s.prevDig := rfl
@[simp] theorem State.dropAcc_lastPrev (s : State) (n : Nat) : (s.dropAcc n).lastPrev = s.lastPrev := rfl
@[simp] theorem State.dropAcc_fab (s : State) (n : Nat) : (s.dropAcc n).fab = s.fab := rfl
@[simp] theorem State.dropAcc_nextId (s : State) (n : Nat) : (s.dropAcc n).nextId = s.nextId := rfl
@[simp] theorem State.dropAcc_sched (s : State) (n : Nat) : (s.dropAcc n).sched = s.sched := rfl
@[simp] theorem State.dropAcc_ticks (s : State) (n : Nat) : (s.dropAcc n).ticks = s.ticks := rfl
@[simp] theorem State.dropAcc_picks (s : State) (n : Nat) : (s.dropAcc n).picks = s.picks := rfl
@[simp] theorem State.dropAcc_inputs (s : State) (n : Nat) : (s.dropAcc n).inputs = s.inputs := rfl
@[simp] theorem State.dropAcc_again (s : State) (n : Nat) : (s.dropAcc n).again = s.again := rfl
@[simp] theorem State.dropAcc_still (s : State) (n : Nat) : (s.dropAcc n).still = s.still := rfl
@[simp] theorem State.dropAcc_agent (s : State) (n : Nat) : (s.dropAcc n).agent = s.agent := rfl
@[simp] theorem State.dropAcc_wbWct (s : State) (n : Nat) : (s.dropAcc n).wbWct = s.wbWct := rfl
@[simp] theorem State.dropAcc_freeCtr (s : State) (n : Nat) : (s.dropAcc n).freeCtr = s.freeCtr := rfl
@[simp] theorem State.dropAcc_cur (s : State) (n : Nat) : (s.dropAcc n).cur = s.cur := rfl
@[simp] theorem State.dropAcc_out (s : State) (n : Nat) : (s.dropAcc n).out = s.out := rfl

/-! ### send -/

@[simp] theorem State.send_personality (s : State) (o : Out) : (s.send o).personality = s.personality := rfl
@[simp] theorem State.send_boot (s : State) (o : Out) : (s.send o).boot = s.boot := rfl
@[simp] theorem State.send_bootErr (s : State) (o : Out) : (s.send o).bootErr = s.bootErr := rfl
@[simp] theorem State.send_fwaddr (s : State) (o : Out) : (s.send o).fwaddr = s.fwaddr := rfl
@[simp] theorem State.send_fwlen (s : State) (o : Out) : (s.send o).fwlen = s.fwlen := rfl
@[simp] theorem State.send_fwBytes (s : State) (o : Out) : (s.send o).fwBytes = s.fwBytes := rfl
@[simp] theorem State.send_fwImage (s : State) (o : Out) : (s.send o).fwImage = s.fwImage := rfl
@[simp] theorem State.send_bootNonce (s : State) (o : Out) : (s.send o).bootNonce = s.bootNonce := rfl
@[simp] theorem State.send_chip (s : State) (o : Out) : (s.send o).chip = s.chip := rfl
@[simp] theorem State.send_gtime (s : State) (o : Out) : (s.send o).gtime = s.gtime := rfl
@[simp] theorem State.send_share (s : State) (o : Out) : (s.send o).share = s.share := rfl
@[simp] theorem State.send_hot (s : State) (o : Out) : (s.send o).hot = s.hot := rfl
@[simp] theorem State.send_thermal (s : State) (o : Out) : (s.send o).thermal = s.thermal := rfl
@[simp] theorem State.send_power (s : State) (o : Out) : (s.send o).power = s.power := rfl
@[simp] theorem State.send_errCount (s : State) (o : Out) : (s.send o).errCount = s.errCount := rfl
@[simp] theorem State.send_correctable (s : State) (o : Out) : (s.send o).correctable = s.correctable := rfl
@[simp] theorem State.send_hbm (s : State) (o : Out) : (s.send o).hbm = s.hbm := rfl
@[simp] theorem State.send_hbmKey (s : State) (o : Out) : (s.send o).hbmKey = s.hbmKey := rfl
@[simp] theorem State.send_host (s : State) (o : Out) : (s.send o).host = s.host := rfl
@[simp] theorem State.send_svMem (s : State) (o : Out) : (s.send o).svMem = s.svMem := rfl
@[simp] theorem State.send_hostUp (s : State) (o : Out) : (s.send o).hostUp = s.hostUp := rfl
@[simp] theorem State.send_tlb (s : State) (o : Out) : (s.send o).tlb = s.tlb := rfl
@[simp] theorem State.send_nonleaf (s : State) (o : Out) : (s.send o).nonleaf = s.nonleaf := rfl
@[simp] theorem State.send_remap (s : State) (o : Out) : (s.send o).remap = s.remap := rfl
@[simp] theorem State.send_migreq (s : State) (o : Out) : (s.send o).migreq = s.migreq := rfl
@[simp] theorem State.send_inbound (s : State) (o : Out) : (s.send o).inbound = s.inbound := rfl
@[simp] theorem State.send_copies (s : State) (o : Out) : (s.send o).copies = s.copies := rfl
@[simp] theorem State.send_roCopies (s : State) (o : Out) : (s.send o).roCopies = s.roCopies := rfl
@[simp] theorem State.send_homes (s : State) (o : Out) : (s.send o).homes = s.homes := rfl
@[simp] theorem State.send_msgs (s : State) (o : Out) : (s.send o).msgs = s.msgs := rfl
@[simp] theorem State.send_pins (s : State) (o : Out) : (s.send o).pins = s.pins := rfl
@[simp] theorem State.send_refused (s : State) (o : Out) : (s.send o).refused = s.refused := rfl
@[simp] theorem State.send_locks (s : State) (o : Out) : (s.send o).locks = s.locks := rfl
@[simp] theorem State.send_windows (s : State) (o : Out) : (s.send o).windows = s.windows := rfl
@[simp] theorem State.send_accs (s : State) (o : Out) : (s.send o).accs = s.accs := rfl
@[simp] theorem State.send_fwds (s : State) (o : Out) : (s.send o).fwds = s.fwds := rfl
@[simp] theorem State.send_tables (s : State) (o : Out) : (s.send o).tables = s.tables := rfl
@[simp] theorem State.send_tabImages (s : State) (o : Out) : (s.send o).tabImages = s.tabImages := rfl
@[simp] theorem State.send_sealedW (s : State) (o : Out) : (s.send o).sealedW = s.sealedW := rfl
@[simp] theorem State.send_ropes (s : State) (o : Out) : (s.send o).ropes = s.ropes := rfl
@[simp] theorem State.send_cores (s : State) (o : Out) : (s.send o).cores = s.cores := rfl
@[simp] theorem State.send_ops (s : State) (o : Out) : (s.send o).ops = s.ops := rfl
@[simp] theorem State.send_ctxs (s : State) (o : Out) : (s.send o).ctxs = s.ctxs := rfl
@[simp] theorem State.send_groups (s : State) (o : Out) : (s.send o).groups = s.groups := rfl
@[simp] theorem State.send_stops (s : State) (o : Out) : (s.send o).stops = s.stops := rfl
@[simp] theorem State.send_cmds (s : State) (o : Out) : (s.send o).cmds = s.cmds := rfl
@[simp] theorem State.send_cmdq (s : State) (o : Out) : (s.send o).cmdq = s.cmdq := rfl
@[simp] theorem State.send_msixOpen (s : State) (o : Out) : (s.send o).msixOpen = s.msixOpen := rfl
@[simp] theorem State.send_msixPend (s : State) (o : Out) : (s.send o).msixPend = s.msixPend := rfl
@[simp] theorem State.send_rrCtx (s : State) (o : Out) : (s.send o).rrCtx = s.rrCtx := rfl
@[simp] theorem State.send_debugger (s : State) (o : Out) : (s.send o).debugger = s.debugger := rfl
@[simp] theorem State.send_discarded (s : State) (o : Out) : (s.send o).discarded = s.discarded := rfl
@[simp] theorem State.send_keys (s : State) (o : Out) : (s.send o).keys = s.keys := rfl
@[simp] theorem State.send_sessions (s : State) (o : Out) : (s.send o).sessions = s.sessions := rfl
@[simp] theorem State.send_receipts (s : State) (o : Out) : (s.send o).receipts = s.receipts := rfl
@[simp] theorem State.send_watches (s : State) (o : Out) : (s.send o).watches = s.watches := rfl
@[simp] theorem State.send_batch (s : State) (o : Out) : (s.send o).batch = s.batch := rfl
@[simp] theorem State.send_batches (s : State) (o : Out) : (s.send o).batches = s.batches := rfl
@[simp] theorem State.send_rseq (s : State) (o : Out) : (s.send o).rseq = s.rseq := rfl
@[simp] theorem State.send_bseq (s : State) (o : Out) : (s.send o).bseq = s.bseq := rfl
@[simp] theorem State.send_prevDig (s : State) (o : Out) : (s.send o).prevDig = s.prevDig := rfl
@[simp] theorem State.send_lastPrev (s : State) (o : Out) : (s.send o).lastPrev = s.lastPrev := rfl
@[simp] theorem State.send_fab (s : State) (o : Out) : (s.send o).fab = s.fab := rfl
@[simp] theorem State.send_nextId (s : State) (o : Out) : (s.send o).nextId = s.nextId := rfl
@[simp] theorem State.send_sched (s : State) (o : Out) : (s.send o).sched = s.sched := rfl
@[simp] theorem State.send_ticks (s : State) (o : Out) : (s.send o).ticks = s.ticks := rfl
@[simp] theorem State.send_picks (s : State) (o : Out) : (s.send o).picks = s.picks := rfl
@[simp] theorem State.send_inputs (s : State) (o : Out) : (s.send o).inputs = s.inputs := rfl
@[simp] theorem State.send_again (s : State) (o : Out) : (s.send o).again = s.again := rfl
@[simp] theorem State.send_still (s : State) (o : Out) : (s.send o).still = s.still := rfl
@[simp] theorem State.send_agent (s : State) (o : Out) : (s.send o).agent = s.agent := rfl
@[simp] theorem State.send_wbWct (s : State) (o : Out) : (s.send o).wbWct = s.wbWct := rfl
@[simp] theorem State.send_freeCtr (s : State) (o : Out) : (s.send o).freeCtr = s.freeCtr := rfl
@[simp] theorem State.send_cur (s : State) (o : Out) : (s.send o).cur = s.cur := rfl

/-! ### setHome -/

@[simp] theorem State.setHome_personality (s : State) (h : HomeLine) : (s.setHome h).personality = s.personality := rfl
@[simp] theorem State.setHome_boot (s : State) (h : HomeLine) : (s.setHome h).boot = s.boot := rfl
@[simp] theorem State.setHome_bootErr (s : State) (h : HomeLine) : (s.setHome h).bootErr = s.bootErr := rfl
@[simp] theorem State.setHome_fwaddr (s : State) (h : HomeLine) : (s.setHome h).fwaddr = s.fwaddr := rfl
@[simp] theorem State.setHome_fwlen (s : State) (h : HomeLine) : (s.setHome h).fwlen = s.fwlen := rfl
@[simp] theorem State.setHome_fwBytes (s : State) (h : HomeLine) : (s.setHome h).fwBytes = s.fwBytes := rfl
@[simp] theorem State.setHome_fwImage (s : State) (h : HomeLine) : (s.setHome h).fwImage = s.fwImage := rfl
@[simp] theorem State.setHome_bootNonce (s : State) (h : HomeLine) : (s.setHome h).bootNonce = s.bootNonce := rfl
@[simp] theorem State.setHome_chip (s : State) (h : HomeLine) : (s.setHome h).chip = s.chip := rfl
@[simp] theorem State.setHome_gtime (s : State) (h : HomeLine) : (s.setHome h).gtime = s.gtime := rfl
@[simp] theorem State.setHome_share (s : State) (h : HomeLine) : (s.setHome h).share = s.share := rfl
@[simp] theorem State.setHome_hot (s : State) (h : HomeLine) : (s.setHome h).hot = s.hot := rfl
@[simp] theorem State.setHome_thermal (s : State) (h : HomeLine) : (s.setHome h).thermal = s.thermal := rfl
@[simp] theorem State.setHome_power (s : State) (h : HomeLine) : (s.setHome h).power = s.power := rfl
@[simp] theorem State.setHome_errCount (s : State) (h : HomeLine) : (s.setHome h).errCount = s.errCount := rfl
@[simp] theorem State.setHome_correctable (s : State) (h : HomeLine) : (s.setHome h).correctable = s.correctable := rfl
@[simp] theorem State.setHome_hbm (s : State) (h : HomeLine) : (s.setHome h).hbm = s.hbm := rfl
@[simp] theorem State.setHome_hbmKey (s : State) (h : HomeLine) : (s.setHome h).hbmKey = s.hbmKey := rfl
@[simp] theorem State.setHome_host (s : State) (h : HomeLine) : (s.setHome h).host = s.host := rfl
@[simp] theorem State.setHome_svMem (s : State) (h : HomeLine) : (s.setHome h).svMem = s.svMem := rfl
@[simp] theorem State.setHome_hostUp (s : State) (h : HomeLine) : (s.setHome h).hostUp = s.hostUp := rfl
@[simp] theorem State.setHome_tlb (s : State) (h : HomeLine) : (s.setHome h).tlb = s.tlb := rfl
@[simp] theorem State.setHome_nonleaf (s : State) (h : HomeLine) : (s.setHome h).nonleaf = s.nonleaf := rfl
@[simp] theorem State.setHome_remap (s : State) (h : HomeLine) : (s.setHome h).remap = s.remap := rfl
@[simp] theorem State.setHome_migreq (s : State) (h : HomeLine) : (s.setHome h).migreq = s.migreq := rfl
@[simp] theorem State.setHome_inbound (s : State) (h : HomeLine) : (s.setHome h).inbound = s.inbound := rfl
@[simp] theorem State.setHome_copies (s : State) (h : HomeLine) : (s.setHome h).copies = s.copies := rfl
@[simp] theorem State.setHome_roCopies (s : State) (h : HomeLine) : (s.setHome h).roCopies = s.roCopies := rfl
@[simp] theorem State.setHome_msgs (s : State) (h : HomeLine) : (s.setHome h).msgs = s.msgs := rfl
@[simp] theorem State.setHome_pins (s : State) (h : HomeLine) : (s.setHome h).pins = s.pins := rfl
@[simp] theorem State.setHome_refused (s : State) (h : HomeLine) : (s.setHome h).refused = s.refused := rfl
@[simp] theorem State.setHome_locks (s : State) (h : HomeLine) : (s.setHome h).locks = s.locks := rfl
@[simp] theorem State.setHome_windows (s : State) (h : HomeLine) : (s.setHome h).windows = s.windows := rfl
@[simp] theorem State.setHome_accs (s : State) (h : HomeLine) : (s.setHome h).accs = s.accs := rfl
@[simp] theorem State.setHome_fwds (s : State) (h : HomeLine) : (s.setHome h).fwds = s.fwds := rfl
@[simp] theorem State.setHome_tables (s : State) (h : HomeLine) : (s.setHome h).tables = s.tables := rfl
@[simp] theorem State.setHome_tabImages (s : State) (h : HomeLine) : (s.setHome h).tabImages = s.tabImages := rfl
@[simp] theorem State.setHome_sealedW (s : State) (h : HomeLine) : (s.setHome h).sealedW = s.sealedW := rfl
@[simp] theorem State.setHome_ropes (s : State) (h : HomeLine) : (s.setHome h).ropes = s.ropes := rfl
@[simp] theorem State.setHome_cores (s : State) (h : HomeLine) : (s.setHome h).cores = s.cores := rfl
@[simp] theorem State.setHome_ops (s : State) (h : HomeLine) : (s.setHome h).ops = s.ops := rfl
@[simp] theorem State.setHome_ctxs (s : State) (h : HomeLine) : (s.setHome h).ctxs = s.ctxs := rfl
@[simp] theorem State.setHome_groups (s : State) (h : HomeLine) : (s.setHome h).groups = s.groups := rfl
@[simp] theorem State.setHome_stops (s : State) (h : HomeLine) : (s.setHome h).stops = s.stops := rfl
@[simp] theorem State.setHome_cmds (s : State) (h : HomeLine) : (s.setHome h).cmds = s.cmds := rfl
@[simp] theorem State.setHome_cmdq (s : State) (h : HomeLine) : (s.setHome h).cmdq = s.cmdq := rfl
@[simp] theorem State.setHome_msixOpen (s : State) (h : HomeLine) : (s.setHome h).msixOpen = s.msixOpen := rfl
@[simp] theorem State.setHome_msixPend (s : State) (h : HomeLine) : (s.setHome h).msixPend = s.msixPend := rfl
@[simp] theorem State.setHome_rrCtx (s : State) (h : HomeLine) : (s.setHome h).rrCtx = s.rrCtx := rfl
@[simp] theorem State.setHome_debugger (s : State) (h : HomeLine) : (s.setHome h).debugger = s.debugger := rfl
@[simp] theorem State.setHome_discarded (s : State) (h : HomeLine) : (s.setHome h).discarded = s.discarded := rfl
@[simp] theorem State.setHome_keys (s : State) (h : HomeLine) : (s.setHome h).keys = s.keys := rfl
@[simp] theorem State.setHome_sessions (s : State) (h : HomeLine) : (s.setHome h).sessions = s.sessions := rfl
@[simp] theorem State.setHome_receipts (s : State) (h : HomeLine) : (s.setHome h).receipts = s.receipts := rfl
@[simp] theorem State.setHome_watches (s : State) (h : HomeLine) : (s.setHome h).watches = s.watches := rfl
@[simp] theorem State.setHome_batch (s : State) (h : HomeLine) : (s.setHome h).batch = s.batch := rfl
@[simp] theorem State.setHome_batches (s : State) (h : HomeLine) : (s.setHome h).batches = s.batches := rfl
@[simp] theorem State.setHome_rseq (s : State) (h : HomeLine) : (s.setHome h).rseq = s.rseq := rfl
@[simp] theorem State.setHome_bseq (s : State) (h : HomeLine) : (s.setHome h).bseq = s.bseq := rfl
@[simp] theorem State.setHome_prevDig (s : State) (h : HomeLine) : (s.setHome h).prevDig = s.prevDig := rfl
@[simp] theorem State.setHome_lastPrev (s : State) (h : HomeLine) : (s.setHome h).lastPrev = s.lastPrev := rfl
@[simp] theorem State.setHome_fab (s : State) (h : HomeLine) : (s.setHome h).fab = s.fab := rfl
@[simp] theorem State.setHome_nextId (s : State) (h : HomeLine) : (s.setHome h).nextId = s.nextId := rfl
@[simp] theorem State.setHome_sched (s : State) (h : HomeLine) : (s.setHome h).sched = s.sched := rfl
@[simp] theorem State.setHome_ticks (s : State) (h : HomeLine) : (s.setHome h).ticks = s.ticks := rfl
@[simp] theorem State.setHome_picks (s : State) (h : HomeLine) : (s.setHome h).picks = s.picks := rfl
@[simp] theorem State.setHome_inputs (s : State) (h : HomeLine) : (s.setHome h).inputs = s.inputs := rfl
@[simp] theorem State.setHome_again (s : State) (h : HomeLine) : (s.setHome h).again = s.again := rfl
@[simp] theorem State.setHome_still (s : State) (h : HomeLine) : (s.setHome h).still = s.still := rfl
@[simp] theorem State.setHome_agent (s : State) (h : HomeLine) : (s.setHome h).agent = s.agent := rfl
@[simp] theorem State.setHome_wbWct (s : State) (h : HomeLine) : (s.setHome h).wbWct = s.wbWct := rfl
@[simp] theorem State.setHome_freeCtr (s : State) (h : HomeLine) : (s.setHome h).freeCtr = s.freeCtr := rfl
@[simp] theorem State.setHome_cur (s : State) (h : HomeLine) : (s.setHome h).cur = s.cur := rfl
@[simp] theorem State.setHome_out (s : State) (h : HomeLine) : (s.setHome h).out = s.out := rfl

/-! ### as -/

@[simp] theorem State.as_personality (s : State) (d : Doer) : (s.as d).personality = s.personality := rfl
@[simp] theorem State.as_boot (s : State) (d : Doer) : (s.as d).boot = s.boot := rfl
@[simp] theorem State.as_bootErr (s : State) (d : Doer) : (s.as d).bootErr = s.bootErr := rfl
@[simp] theorem State.as_fwaddr (s : State) (d : Doer) : (s.as d).fwaddr = s.fwaddr := rfl
@[simp] theorem State.as_fwlen (s : State) (d : Doer) : (s.as d).fwlen = s.fwlen := rfl
@[simp] theorem State.as_fwBytes (s : State) (d : Doer) : (s.as d).fwBytes = s.fwBytes := rfl
@[simp] theorem State.as_fwImage (s : State) (d : Doer) : (s.as d).fwImage = s.fwImage := rfl
@[simp] theorem State.as_bootNonce (s : State) (d : Doer) : (s.as d).bootNonce = s.bootNonce := rfl
@[simp] theorem State.as_chip (s : State) (d : Doer) : (s.as d).chip = s.chip := rfl
@[simp] theorem State.as_gtime (s : State) (d : Doer) : (s.as d).gtime = s.gtime := rfl
@[simp] theorem State.as_share (s : State) (d : Doer) : (s.as d).share = s.share := rfl
@[simp] theorem State.as_hot (s : State) (d : Doer) : (s.as d).hot = s.hot := rfl
@[simp] theorem State.as_thermal (s : State) (d : Doer) : (s.as d).thermal = s.thermal := rfl
@[simp] theorem State.as_power (s : State) (d : Doer) : (s.as d).power = s.power := rfl
@[simp] theorem State.as_errCount (s : State) (d : Doer) : (s.as d).errCount = s.errCount := rfl
@[simp] theorem State.as_correctable (s : State) (d : Doer) : (s.as d).correctable = s.correctable := rfl
@[simp] theorem State.as_hbm (s : State) (d : Doer) : (s.as d).hbm = s.hbm := rfl
@[simp] theorem State.as_hbmKey (s : State) (d : Doer) : (s.as d).hbmKey = s.hbmKey := rfl
@[simp] theorem State.as_host (s : State) (d : Doer) : (s.as d).host = s.host := rfl
@[simp] theorem State.as_svMem (s : State) (d : Doer) : (s.as d).svMem = s.svMem := rfl
@[simp] theorem State.as_hostUp (s : State) (d : Doer) : (s.as d).hostUp = s.hostUp := rfl
@[simp] theorem State.as_tlb (s : State) (d : Doer) : (s.as d).tlb = s.tlb := rfl
@[simp] theorem State.as_nonleaf (s : State) (d : Doer) : (s.as d).nonleaf = s.nonleaf := rfl
@[simp] theorem State.as_remap (s : State) (d : Doer) : (s.as d).remap = s.remap := rfl
@[simp] theorem State.as_migreq (s : State) (d : Doer) : (s.as d).migreq = s.migreq := rfl
@[simp] theorem State.as_inbound (s : State) (d : Doer) : (s.as d).inbound = s.inbound := rfl
@[simp] theorem State.as_copies (s : State) (d : Doer) : (s.as d).copies = s.copies := rfl
@[simp] theorem State.as_roCopies (s : State) (d : Doer) : (s.as d).roCopies = s.roCopies := rfl
@[simp] theorem State.as_homes (s : State) (d : Doer) : (s.as d).homes = s.homes := rfl
@[simp] theorem State.as_msgs (s : State) (d : Doer) : (s.as d).msgs = s.msgs := rfl
@[simp] theorem State.as_pins (s : State) (d : Doer) : (s.as d).pins = s.pins := rfl
@[simp] theorem State.as_refused (s : State) (d : Doer) : (s.as d).refused = s.refused := rfl
@[simp] theorem State.as_locks (s : State) (d : Doer) : (s.as d).locks = s.locks := rfl
@[simp] theorem State.as_windows (s : State) (d : Doer) : (s.as d).windows = s.windows := rfl
@[simp] theorem State.as_accs (s : State) (d : Doer) : (s.as d).accs = s.accs := rfl
@[simp] theorem State.as_fwds (s : State) (d : Doer) : (s.as d).fwds = s.fwds := rfl
@[simp] theorem State.as_tables (s : State) (d : Doer) : (s.as d).tables = s.tables := rfl
@[simp] theorem State.as_tabImages (s : State) (d : Doer) : (s.as d).tabImages = s.tabImages := rfl
@[simp] theorem State.as_sealedW (s : State) (d : Doer) : (s.as d).sealedW = s.sealedW := rfl
@[simp] theorem State.as_wbWct (s : State) (d : Doer) : (s.as d).wbWct = s.wbWct := rfl
@[simp] theorem State.as_ropes (s : State) (d : Doer) : (s.as d).ropes = s.ropes := rfl
@[simp] theorem State.as_cores (s : State) (d : Doer) : (s.as d).cores = s.cores := rfl
@[simp] theorem State.as_ops (s : State) (d : Doer) : (s.as d).ops = s.ops := rfl
@[simp] theorem State.as_ctxs (s : State) (d : Doer) : (s.as d).ctxs = s.ctxs := rfl
@[simp] theorem State.as_groups (s : State) (d : Doer) : (s.as d).groups = s.groups := rfl
@[simp] theorem State.as_stops (s : State) (d : Doer) : (s.as d).stops = s.stops := rfl
@[simp] theorem State.as_cmds (s : State) (d : Doer) : (s.as d).cmds = s.cmds := rfl
@[simp] theorem State.as_cmdq (s : State) (d : Doer) : (s.as d).cmdq = s.cmdq := rfl
@[simp] theorem State.as_msixOpen (s : State) (d : Doer) : (s.as d).msixOpen = s.msixOpen := rfl
@[simp] theorem State.as_msixPend (s : State) (d : Doer) : (s.as d).msixPend = s.msixPend := rfl
@[simp] theorem State.as_rrCtx (s : State) (d : Doer) : (s.as d).rrCtx = s.rrCtx := rfl
@[simp] theorem State.as_debugger (s : State) (d : Doer) : (s.as d).debugger = s.debugger := rfl
@[simp] theorem State.as_discarded (s : State) (d : Doer) : (s.as d).discarded = s.discarded := rfl
@[simp] theorem State.as_keys (s : State) (d : Doer) : (s.as d).keys = s.keys := rfl
@[simp] theorem State.as_sessions (s : State) (d : Doer) : (s.as d).sessions = s.sessions := rfl
@[simp] theorem State.as_receipts (s : State) (d : Doer) : (s.as d).receipts = s.receipts := rfl
@[simp] theorem State.as_watches (s : State) (d : Doer) : (s.as d).watches = s.watches := rfl
@[simp] theorem State.as_batch (s : State) (d : Doer) : (s.as d).batch = s.batch := rfl
@[simp] theorem State.as_batches (s : State) (d : Doer) : (s.as d).batches = s.batches := rfl
@[simp] theorem State.as_rseq (s : State) (d : Doer) : (s.as d).rseq = s.rseq := rfl
@[simp] theorem State.as_bseq (s : State) (d : Doer) : (s.as d).bseq = s.bseq := rfl
@[simp] theorem State.as_prevDig (s : State) (d : Doer) : (s.as d).prevDig = s.prevDig := rfl
@[simp] theorem State.as_lastPrev (s : State) (d : Doer) : (s.as d).lastPrev = s.lastPrev := rfl
@[simp] theorem State.as_fab (s : State) (d : Doer) : (s.as d).fab = s.fab := rfl
@[simp] theorem State.as_nextId (s : State) (d : Doer) : (s.as d).nextId = s.nextId := rfl
@[simp] theorem State.as_sched (s : State) (d : Doer) : (s.as d).sched = s.sched := rfl
@[simp] theorem State.as_ticks (s : State) (d : Doer) : (s.as d).ticks = s.ticks := rfl
@[simp] theorem State.as_picks (s : State) (d : Doer) : (s.as d).picks = s.picks := rfl
@[simp] theorem State.as_inputs (s : State) (d : Doer) : (s.as d).inputs = s.inputs := rfl
@[simp] theorem State.as_agent (s : State) (d : Doer) : (s.as d).agent = d := rfl
@[simp] theorem State.as_again (s : State) (d : Doer) : (s.as d).again = s.again := rfl
@[simp] theorem State.as_still (s : State) (d : Doer) : (s.as d).still = s.still := rfl
@[simp] theorem State.as_freeCtr (s : State) (d : Doer) : (s.as d).freeCtr = s.freeCtr := rfl
@[simp] theorem State.as_cur (s : State) (d : Doer) : (s.as d).cur = s.cur := rfl
@[simp] theorem State.as_out (s : State) (d : Doer) : (s.as d).out = s.out := rfl
@[simp] theorem State.as_strand (s : State) (d : Doer) (w : Who) : (s.as d).strand w = s.strand w := rfl
@[simp] theorem State.as_fibre (s : State) (d : Doer) (w : Who) (l : Nat) : (s.as d).fibre w l = s.fibre w l := rfl
@[simp] theorem State.as_as (s : State) (d e : Doer) : (s.as d).as e = s.as e := rfl
@[simp] theorem State.as_same (s : State) : s.as s.agent = s := rfl

/-! ### setStrand and setFibre -/

@[simp] theorem State.setStrand_personality (s : State) (w : Who) (st : Strand) : (s.setStrand w st).personality = s.personality := by
  cases w <;> simp only [State.setStrand] <;> (try split) <;> rfl
@[simp] theorem State.setFibre_personality (s : State) (w : Who) (l : Nat) (f : Fibre) : (s.setFibre w l f).personality = s.personality := by simp [State.setFibre]
@[simp] theorem State.setStrand_boot (s : State) (w : Who) (st : Strand) : (s.setStrand w st).boot = s.boot := by
  cases w <;> simp only [State.setStrand] <;> (try split) <;> rfl
@[simp] theorem State.setFibre_boot (s : State) (w : Who) (l : Nat) (f : Fibre) : (s.setFibre w l f).boot = s.boot := by simp [State.setFibre]
@[simp] theorem State.setStrand_bootErr (s : State) (w : Who) (st : Strand) : (s.setStrand w st).bootErr = s.bootErr := by
  cases w <;> simp only [State.setStrand] <;> (try split) <;> rfl
@[simp] theorem State.setFibre_bootErr (s : State) (w : Who) (l : Nat) (f : Fibre) : (s.setFibre w l f).bootErr = s.bootErr := by simp [State.setFibre]
@[simp] theorem State.setStrand_fwaddr (s : State) (w : Who) (st : Strand) : (s.setStrand w st).fwaddr = s.fwaddr := by
  cases w <;> simp only [State.setStrand] <;> (try split) <;> rfl
@[simp] theorem State.setFibre_fwaddr (s : State) (w : Who) (l : Nat) (f : Fibre) : (s.setFibre w l f).fwaddr = s.fwaddr := by simp [State.setFibre]
@[simp] theorem State.setStrand_fwlen (s : State) (w : Who) (st : Strand) : (s.setStrand w st).fwlen = s.fwlen := by
  cases w <;> simp only [State.setStrand] <;> (try split) <;> rfl
@[simp] theorem State.setFibre_fwlen (s : State) (w : Who) (l : Nat) (f : Fibre) : (s.setFibre w l f).fwlen = s.fwlen := by simp [State.setFibre]
@[simp] theorem State.setStrand_fwBytes (s : State) (w : Who) (st : Strand) : (s.setStrand w st).fwBytes = s.fwBytes := by
  cases w <;> simp only [State.setStrand] <;> (try split) <;> rfl
@[simp] theorem State.setFibre_fwBytes (s : State) (w : Who) (l : Nat) (f : Fibre) : (s.setFibre w l f).fwBytes = s.fwBytes := by simp [State.setFibre]
@[simp] theorem State.setStrand_fwImage (s : State) (w : Who) (st : Strand) : (s.setStrand w st).fwImage = s.fwImage := by
  cases w <;> simp only [State.setStrand] <;> (try split) <;> rfl
@[simp] theorem State.setFibre_fwImage (s : State) (w : Who) (l : Nat) (f : Fibre) : (s.setFibre w l f).fwImage = s.fwImage := by simp [State.setFibre]
@[simp] theorem State.setStrand_bootNonce (s : State) (w : Who) (st : Strand) : (s.setStrand w st).bootNonce = s.bootNonce := by
  cases w <;> simp only [State.setStrand] <;> (try split) <;> rfl
@[simp] theorem State.setFibre_bootNonce (s : State) (w : Who) (l : Nat) (f : Fibre) : (s.setFibre w l f).bootNonce = s.bootNonce := by simp [State.setFibre]
@[simp] theorem State.setStrand_chip (s : State) (w : Who) (st : Strand) : (s.setStrand w st).chip = s.chip := by
  cases w <;> simp only [State.setStrand] <;> (try split) <;> rfl
@[simp] theorem State.setFibre_chip (s : State) (w : Who) (l : Nat) (f : Fibre) : (s.setFibre w l f).chip = s.chip := by simp [State.setFibre]
@[simp] theorem State.setStrand_gtime (s : State) (w : Who) (st : Strand) : (s.setStrand w st).gtime = s.gtime := by
  cases w <;> simp only [State.setStrand] <;> (try split) <;> rfl
@[simp] theorem State.setFibre_gtime (s : State) (w : Who) (l : Nat) (f : Fibre) : (s.setFibre w l f).gtime = s.gtime := by simp [State.setFibre]
@[simp] theorem State.setStrand_share (s : State) (w : Who) (st : Strand) : (s.setStrand w st).share = s.share := by
  cases w <;> simp only [State.setStrand] <;> (try split) <;> rfl
@[simp] theorem State.setFibre_share (s : State) (w : Who) (l : Nat) (f : Fibre) : (s.setFibre w l f).share = s.share := by simp [State.setFibre]
@[simp] theorem State.setStrand_hot (s : State) (w : Who) (st : Strand) : (s.setStrand w st).hot = s.hot := by
  cases w <;> simp only [State.setStrand] <;> (try split) <;> rfl
@[simp] theorem State.setFibre_hot (s : State) (w : Who) (l : Nat) (f : Fibre) : (s.setFibre w l f).hot = s.hot := by simp [State.setFibre]
@[simp] theorem State.setStrand_thermal (s : State) (w : Who) (st : Strand) : (s.setStrand w st).thermal = s.thermal := by
  cases w <;> simp only [State.setStrand] <;> (try split) <;> rfl
@[simp] theorem State.setFibre_thermal (s : State) (w : Who) (l : Nat) (f : Fibre) : (s.setFibre w l f).thermal = s.thermal := by simp [State.setFibre]
@[simp] theorem State.setStrand_power (s : State) (w : Who) (st : Strand) : (s.setStrand w st).power = s.power := by
  cases w <;> simp only [State.setStrand] <;> (try split) <;> rfl
@[simp] theorem State.setFibre_power (s : State) (w : Who) (l : Nat) (f : Fibre) : (s.setFibre w l f).power = s.power := by simp [State.setFibre]
@[simp] theorem State.setStrand_errCount (s : State) (w : Who) (st : Strand) : (s.setStrand w st).errCount = s.errCount := by
  cases w <;> simp only [State.setStrand] <;> (try split) <;> rfl
@[simp] theorem State.setFibre_errCount (s : State) (w : Who) (l : Nat) (f : Fibre) : (s.setFibre w l f).errCount = s.errCount := by simp [State.setFibre]
@[simp] theorem State.setStrand_correctable (s : State) (w : Who) (st : Strand) : (s.setStrand w st).correctable = s.correctable := by
  cases w <;> simp only [State.setStrand] <;> (try split) <;> rfl
@[simp] theorem State.setFibre_correctable (s : State) (w : Who) (l : Nat) (f : Fibre) : (s.setFibre w l f).correctable = s.correctable := by simp [State.setFibre]
@[simp] theorem State.setStrand_hbm (s : State) (w : Who) (st : Strand) : (s.setStrand w st).hbm = s.hbm := by
  cases w <;> simp only [State.setStrand] <;> (try split) <;> rfl
@[simp] theorem State.setFibre_hbm (s : State) (w : Who) (l : Nat) (f : Fibre) : (s.setFibre w l f).hbm = s.hbm := by simp [State.setFibre]
@[simp] theorem State.setStrand_hbmKey (s : State) (w : Who) (st : Strand) : (s.setStrand w st).hbmKey = s.hbmKey := by
  cases w <;> simp only [State.setStrand] <;> (try split) <;> rfl
@[simp] theorem State.setFibre_hbmKey (s : State) (w : Who) (l : Nat) (f : Fibre) : (s.setFibre w l f).hbmKey = s.hbmKey := by simp [State.setFibre]
@[simp] theorem State.setStrand_host (s : State) (w : Who) (st : Strand) : (s.setStrand w st).host = s.host := by
  cases w <;> simp only [State.setStrand] <;> (try split) <;> rfl
@[simp] theorem State.setFibre_host (s : State) (w : Who) (l : Nat) (f : Fibre) : (s.setFibre w l f).host = s.host := by simp [State.setFibre]
@[simp] theorem State.setStrand_svMem (s : State) (w : Who) (st : Strand) : (s.setStrand w st).svMem = s.svMem := by
  cases w <;> simp only [State.setStrand] <;> (try split) <;> rfl
@[simp] theorem State.setFibre_svMem (s : State) (w : Who) (l : Nat) (f : Fibre) : (s.setFibre w l f).svMem = s.svMem := by simp [State.setFibre]
@[simp] theorem State.setStrand_hostUp (s : State) (w : Who) (st : Strand) : (s.setStrand w st).hostUp = s.hostUp := by
  cases w <;> simp only [State.setStrand] <;> (try split) <;> rfl
@[simp] theorem State.setFibre_hostUp (s : State) (w : Who) (l : Nat) (f : Fibre) : (s.setFibre w l f).hostUp = s.hostUp := by simp [State.setFibre]
@[simp] theorem State.setStrand_tlb (s : State) (w : Who) (st : Strand) : (s.setStrand w st).tlb = s.tlb := by
  cases w <;> simp only [State.setStrand] <;> (try split) <;> rfl
@[simp] theorem State.setFibre_tlb (s : State) (w : Who) (l : Nat) (f : Fibre) : (s.setFibre w l f).tlb = s.tlb := by simp [State.setFibre]
@[simp] theorem State.setStrand_nonleaf (s : State) (w : Who) (st : Strand) : (s.setStrand w st).nonleaf = s.nonleaf := by
  cases w <;> simp only [State.setStrand] <;> (try split) <;> rfl
@[simp] theorem State.setFibre_nonleaf (s : State) (w : Who) (l : Nat) (f : Fibre) : (s.setFibre w l f).nonleaf = s.nonleaf := by simp [State.setFibre]
@[simp] theorem State.setStrand_remap (s : State) (w : Who) (st : Strand) : (s.setStrand w st).remap = s.remap := by
  cases w <;> simp only [State.setStrand] <;> (try split) <;> rfl
@[simp] theorem State.setFibre_remap (s : State) (w : Who) (l : Nat) (f : Fibre) : (s.setFibre w l f).remap = s.remap := by simp [State.setFibre]
@[simp] theorem State.setStrand_migreq (s : State) (w : Who) (st : Strand) : (s.setStrand w st).migreq = s.migreq := by
  cases w <;> simp only [State.setStrand] <;> (try split) <;> rfl
@[simp] theorem State.setFibre_migreq (s : State) (w : Who) (l : Nat) (f : Fibre) : (s.setFibre w l f).migreq = s.migreq := by simp [State.setFibre]
@[simp] theorem State.setStrand_inbound (s : State) (w : Who) (st : Strand) : (s.setStrand w st).inbound = s.inbound := by
  cases w <;> simp only [State.setStrand] <;> (try split) <;> rfl
@[simp] theorem State.setFibre_inbound (s : State) (w : Who) (l : Nat) (f : Fibre) : (s.setFibre w l f).inbound = s.inbound := by simp [State.setFibre]
@[simp] theorem State.setStrand_copies (s : State) (w : Who) (st : Strand) : (s.setStrand w st).copies = s.copies := by
  cases w <;> simp only [State.setStrand] <;> (try split) <;> rfl
@[simp] theorem State.setFibre_copies (s : State) (w : Who) (l : Nat) (f : Fibre) : (s.setFibre w l f).copies = s.copies := by simp [State.setFibre]
@[simp] theorem State.setStrand_roCopies (s : State) (w : Who) (st : Strand) : (s.setStrand w st).roCopies = s.roCopies := by
  cases w <;> simp only [State.setStrand] <;> (try split) <;> rfl
@[simp] theorem State.setFibre_roCopies (s : State) (w : Who) (l : Nat) (f : Fibre) : (s.setFibre w l f).roCopies = s.roCopies := by simp [State.setFibre]
@[simp] theorem State.setStrand_homes (s : State) (w : Who) (st : Strand) : (s.setStrand w st).homes = s.homes := by
  cases w <;> simp only [State.setStrand] <;> (try split) <;> rfl
@[simp] theorem State.setFibre_homes (s : State) (w : Who) (l : Nat) (f : Fibre) : (s.setFibre w l f).homes = s.homes := by simp [State.setFibre]
@[simp] theorem State.setStrand_msgs (s : State) (w : Who) (st : Strand) : (s.setStrand w st).msgs = s.msgs := by
  cases w <;> simp only [State.setStrand] <;> (try split) <;> rfl
@[simp] theorem State.setFibre_msgs (s : State) (w : Who) (l : Nat) (f : Fibre) : (s.setFibre w l f).msgs = s.msgs := by simp [State.setFibre]
@[simp] theorem State.setStrand_pins (s : State) (w : Who) (st : Strand) : (s.setStrand w st).pins = s.pins := by
  cases w <;> simp only [State.setStrand] <;> (try split) <;> rfl
@[simp] theorem State.setFibre_pins (s : State) (w : Who) (l : Nat) (f : Fibre) : (s.setFibre w l f).pins = s.pins := by simp [State.setFibre]
@[simp] theorem State.setStrand_refused (s : State) (w : Who) (st : Strand) : (s.setStrand w st).refused = s.refused := by
  cases w <;> simp only [State.setStrand] <;> (try split) <;> rfl
@[simp] theorem State.setFibre_refused (s : State) (w : Who) (l : Nat) (f : Fibre) : (s.setFibre w l f).refused = s.refused := by simp [State.setFibre]
@[simp] theorem State.setStrand_locks (s : State) (w : Who) (st : Strand) : (s.setStrand w st).locks = s.locks := by
  cases w <;> simp only [State.setStrand] <;> (try split) <;> rfl
@[simp] theorem State.setFibre_locks (s : State) (w : Who) (l : Nat) (f : Fibre) : (s.setFibre w l f).locks = s.locks := by simp [State.setFibre]
@[simp] theorem State.setStrand_windows (s : State) (w : Who) (st : Strand) : (s.setStrand w st).windows = s.windows := by
  cases w <;> simp only [State.setStrand] <;> (try split) <;> rfl
@[simp] theorem State.setFibre_windows (s : State) (w : Who) (l : Nat) (f : Fibre) : (s.setFibre w l f).windows = s.windows := by simp [State.setFibre]
@[simp] theorem State.setStrand_accs (s : State) (w : Who) (st : Strand) : (s.setStrand w st).accs = s.accs := by
  cases w <;> simp only [State.setStrand] <;> (try split) <;> rfl
@[simp] theorem State.setFibre_accs (s : State) (w : Who) (l : Nat) (f : Fibre) : (s.setFibre w l f).accs = s.accs := by simp [State.setFibre]
@[simp] theorem State.setStrand_fwds (s : State) (w : Who) (st : Strand) : (s.setStrand w st).fwds = s.fwds := by
  cases w <;> simp only [State.setStrand] <;> (try split) <;> rfl
@[simp] theorem State.setFibre_fwds (s : State) (w : Who) (l : Nat) (f : Fibre) : (s.setFibre w l f).fwds = s.fwds := by simp [State.setFibre]
@[simp] theorem State.setStrand_tables (s : State) (w : Who) (st : Strand) : (s.setStrand w st).tables = s.tables := by
  cases w <;> simp only [State.setStrand] <;> (try split) <;> rfl
@[simp] theorem State.setFibre_tables (s : State) (w : Who) (l : Nat) (f : Fibre) : (s.setFibre w l f).tables = s.tables := by simp [State.setFibre]
@[simp] theorem State.setStrand_tabImages (s : State) (w : Who) (st : Strand) : (s.setStrand w st).tabImages = s.tabImages := by
  cases w <;> simp only [State.setStrand] <;> (try split) <;> rfl
@[simp] theorem State.setFibre_tabImages (s : State) (w : Who) (l : Nat) (f : Fibre) : (s.setFibre w l f).tabImages = s.tabImages := by simp [State.setFibre]
@[simp] theorem State.setStrand_sealedW (s : State) (w : Who) (st : Strand) : (s.setStrand w st).sealedW = s.sealedW := by
  cases w <;> simp only [State.setStrand] <;> (try split) <;> rfl
@[simp] theorem State.setFibre_sealedW (s : State) (w : Who) (l : Nat) (f : Fibre) : (s.setFibre w l f).sealedW = s.sealedW := by simp [State.setFibre]
@[simp] theorem State.setStrand_ops (s : State) (w : Who) (st : Strand) : (s.setStrand w st).ops = s.ops := by
  cases w <;> simp only [State.setStrand] <;> (try split) <;> rfl
@[simp] theorem State.setFibre_ops (s : State) (w : Who) (l : Nat) (f : Fibre) : (s.setFibre w l f).ops = s.ops := by simp [State.setFibre]
@[simp] theorem State.setStrand_ctxs (s : State) (w : Who) (st : Strand) : (s.setStrand w st).ctxs = s.ctxs := by
  cases w <;> simp only [State.setStrand] <;> (try split) <;> rfl
@[simp] theorem State.setFibre_ctxs (s : State) (w : Who) (l : Nat) (f : Fibre) : (s.setFibre w l f).ctxs = s.ctxs := by simp [State.setFibre]
@[simp] theorem State.setStrand_groups (s : State) (w : Who) (st : Strand) : (s.setStrand w st).groups = s.groups := by
  cases w <;> simp only [State.setStrand] <;> (try split) <;> rfl
@[simp] theorem State.setFibre_groups (s : State) (w : Who) (l : Nat) (f : Fibre) : (s.setFibre w l f).groups = s.groups := by simp [State.setFibre]
@[simp] theorem State.setStrand_stops (s : State) (w : Who) (st : Strand) : (s.setStrand w st).stops = s.stops := by
  cases w <;> simp only [State.setStrand] <;> (try split) <;> rfl
@[simp] theorem State.setFibre_stops (s : State) (w : Who) (l : Nat) (f : Fibre) : (s.setFibre w l f).stops = s.stops := by simp [State.setFibre]
@[simp] theorem State.setStrand_cmds (s : State) (w : Who) (st : Strand) : (s.setStrand w st).cmds = s.cmds := by
  cases w <;> simp only [State.setStrand] <;> (try split) <;> rfl
@[simp] theorem State.setStrand_cmdq (s : State) (w : Who) (st : Strand) : (s.setStrand w st).cmdq = s.cmdq := by
  cases w <;> simp only [State.setStrand] <;> (try split) <;> rfl
@[simp] theorem State.setStrand_msixOpen (s : State) (w : Who) (st : Strand) : (s.setStrand w st).msixOpen = s.msixOpen := by
  cases w <;> simp only [State.setStrand] <;> (try split) <;> rfl
@[simp] theorem State.setStrand_msixPend (s : State) (w : Who) (st : Strand) : (s.setStrand w st).msixPend = s.msixPend := by
  cases w <;> simp only [State.setStrand] <;> (try split) <;> rfl
@[simp] theorem State.setFibre_cmds (s : State) (w : Who) (l : Nat) (f : Fibre) : (s.setFibre w l f).cmds = s.cmds := by simp [State.setFibre]
@[simp] theorem State.setFibre_cmdq (s : State) (w : Who) (l : Nat) (f : Fibre) : (s.setFibre w l f).cmdq = s.cmdq := by simp [State.setFibre]
@[simp] theorem State.setFibre_msixOpen (s : State) (w : Who) (l : Nat) (f : Fibre) : (s.setFibre w l f).msixOpen = s.msixOpen := by simp [State.setFibre]
@[simp] theorem State.setFibre_msixPend (s : State) (w : Who) (l : Nat) (f : Fibre) : (s.setFibre w l f).msixPend = s.msixPend := by simp [State.setFibre]
@[simp] theorem State.setStrand_rrCtx (s : State) (w : Who) (st : Strand) : (s.setStrand w st).rrCtx = s.rrCtx := by
  cases w <;> simp only [State.setStrand] <;> (try split) <;> rfl
@[simp] theorem State.setFibre_rrCtx (s : State) (w : Who) (l : Nat) (f : Fibre) : (s.setFibre w l f).rrCtx = s.rrCtx := by simp [State.setFibre]
@[simp] theorem State.setStrand_debugger (s : State) (w : Who) (st : Strand) : (s.setStrand w st).debugger = s.debugger := by
  cases w <;> simp only [State.setStrand] <;> (try split) <;> rfl
@[simp] theorem State.setFibre_debugger (s : State) (w : Who) (l : Nat) (f : Fibre) : (s.setFibre w l f).debugger = s.debugger := by simp [State.setFibre]
@[simp] theorem State.setStrand_discarded (s : State) (w : Who) (st : Strand) : (s.setStrand w st).discarded = s.discarded := by
  cases w <;> simp only [State.setStrand] <;> (try split) <;> rfl
@[simp] theorem State.setFibre_discarded (s : State) (w : Who) (l : Nat) (f : Fibre) : (s.setFibre w l f).discarded = s.discarded := by simp [State.setFibre]
@[simp] theorem State.setStrand_keys (s : State) (w : Who) (st : Strand) : (s.setStrand w st).keys = s.keys := by
  cases w <;> simp only [State.setStrand] <;> (try split) <;> rfl
@[simp] theorem State.setFibre_keys (s : State) (w : Who) (l : Nat) (f : Fibre) : (s.setFibre w l f).keys = s.keys := by simp [State.setFibre]
@[simp] theorem State.setStrand_sessions (s : State) (w : Who) (st : Strand) : (s.setStrand w st).sessions = s.sessions := by
  cases w <;> simp only [State.setStrand] <;> (try split) <;> rfl
@[simp] theorem State.setFibre_sessions (s : State) (w : Who) (l : Nat) (f : Fibre) : (s.setFibre w l f).sessions = s.sessions := by simp [State.setFibre]
@[simp] theorem State.setStrand_receipts (s : State) (w : Who) (st : Strand) : (s.setStrand w st).receipts = s.receipts := by
  cases w <;> simp only [State.setStrand] <;> (try split) <;> rfl
@[simp] theorem State.setFibre_receipts (s : State) (w : Who) (l : Nat) (f : Fibre) : (s.setFibre w l f).receipts = s.receipts := by simp [State.setFibre]
@[simp] theorem State.setStrand_watches (s : State) (w : Who) (st : Strand) : (s.setStrand w st).watches = s.watches := by
  cases w <;> simp only [State.setStrand] <;> (try split) <;> rfl
@[simp] theorem State.setFibre_watches (s : State) (w : Who) (l : Nat) (f : Fibre) : (s.setFibre w l f).watches = s.watches := by simp [State.setFibre]
@[simp] theorem State.setStrand_batch (s : State) (w : Who) (st : Strand) : (s.setStrand w st).batch = s.batch := by
  cases w <;> simp only [State.setStrand] <;> (try split) <;> rfl
@[simp] theorem State.setFibre_batch (s : State) (w : Who) (l : Nat) (f : Fibre) : (s.setFibre w l f).batch = s.batch := by simp [State.setFibre]
@[simp] theorem State.setStrand_batches (s : State) (w : Who) (st : Strand) : (s.setStrand w st).batches = s.batches := by
  cases w <;> simp only [State.setStrand] <;> (try split) <;> rfl
@[simp] theorem State.setFibre_batches (s : State) (w : Who) (l : Nat) (f : Fibre) : (s.setFibre w l f).batches = s.batches := by simp [State.setFibre]
@[simp] theorem State.setStrand_rseq (s : State) (w : Who) (st : Strand) : (s.setStrand w st).rseq = s.rseq := by
  cases w <;> simp only [State.setStrand] <;> (try split) <;> rfl
@[simp] theorem State.setFibre_rseq (s : State) (w : Who) (l : Nat) (f : Fibre) : (s.setFibre w l f).rseq = s.rseq := by simp [State.setFibre]
@[simp] theorem State.setStrand_bseq (s : State) (w : Who) (st : Strand) : (s.setStrand w st).bseq = s.bseq := by
  cases w <;> simp only [State.setStrand] <;> (try split) <;> rfl
@[simp] theorem State.setFibre_bseq (s : State) (w : Who) (l : Nat) (f : Fibre) : (s.setFibre w l f).bseq = s.bseq := by simp [State.setFibre]
@[simp] theorem State.setStrand_prevDig (s : State) (w : Who) (st : Strand) : (s.setStrand w st).prevDig = s.prevDig := by
  cases w <;> simp only [State.setStrand] <;> (try split) <;> rfl
@[simp] theorem State.setFibre_prevDig (s : State) (w : Who) (l : Nat) (f : Fibre) : (s.setFibre w l f).prevDig = s.prevDig := by simp [State.setFibre]
@[simp] theorem State.setStrand_lastPrev (s : State) (w : Who) (st : Strand) : (s.setStrand w st).lastPrev = s.lastPrev := by
  cases w <;> simp only [State.setStrand] <;> (try split) <;> rfl
@[simp] theorem State.setFibre_lastPrev (s : State) (w : Who) (l : Nat) (f : Fibre) : (s.setFibre w l f).lastPrev = s.lastPrev := by simp [State.setFibre]
@[simp] theorem State.setStrand_fab (s : State) (w : Who) (st : Strand) : (s.setStrand w st).fab = s.fab := by
  cases w <;> simp only [State.setStrand] <;> (try split) <;> rfl
@[simp] theorem State.setFibre_fab (s : State) (w : Who) (l : Nat) (f : Fibre) : (s.setFibre w l f).fab = s.fab := by simp [State.setFibre]
@[simp] theorem State.setStrand_nextId (s : State) (w : Who) (st : Strand) : (s.setStrand w st).nextId = s.nextId := by
  cases w <;> simp only [State.setStrand] <;> (try split) <;> rfl
@[simp] theorem State.setFibre_nextId (s : State) (w : Who) (l : Nat) (f : Fibre) : (s.setFibre w l f).nextId = s.nextId := by simp [State.setFibre]
@[simp] theorem State.setStrand_sched (s : State) (w : Who) (st : Strand) : (s.setStrand w st).sched = s.sched := by
  cases w <;> simp only [State.setStrand] <;> (try split) <;> rfl
@[simp] theorem State.setFibre_sched (s : State) (w : Who) (l : Nat) (f : Fibre) : (s.setFibre w l f).sched = s.sched := by simp [State.setFibre]
@[simp] theorem State.setStrand_ticks (s : State) (w : Who) (st : Strand) : (s.setStrand w st).ticks = s.ticks := by
  cases w <;> simp only [State.setStrand] <;> (try split) <;> rfl
@[simp] theorem State.setFibre_ticks (s : State) (w : Who) (l : Nat) (f : Fibre) : (s.setFibre w l f).ticks = s.ticks := by simp [State.setFibre]
@[simp] theorem State.setStrand_picks (s : State) (w : Who) (st : Strand) : (s.setStrand w st).picks = s.picks := by
  cases w <;> simp only [State.setStrand] <;> (try split) <;> rfl
@[simp] theorem State.setFibre_picks (s : State) (w : Who) (l : Nat) (f : Fibre) : (s.setFibre w l f).picks = s.picks := by simp [State.setFibre]
@[simp] theorem State.setStrand_inputs (s : State) (w : Who) (st : Strand) : (s.setStrand w st).inputs = s.inputs := by
  cases w <;> simp only [State.setStrand] <;> (try split) <;> rfl
@[simp] theorem State.setFibre_inputs (s : State) (w : Who) (l : Nat) (f : Fibre) : (s.setFibre w l f).inputs = s.inputs := by simp [State.setFibre]
@[simp] theorem State.setStrand_again (s : State) (w : Who) (st : Strand) : (s.setStrand w st).again = s.again := by
  cases w <;> simp only [State.setStrand] <;> (try split) <;> rfl
@[simp] theorem State.setStrand_still (s : State) (w : Who) (st : Strand) : (s.setStrand w st).still = s.still := by
  cases w <;> simp only [State.setStrand] <;> (try split) <;> rfl
@[simp] theorem State.setStrand_agent (s : State) (w : Who) (st : Strand) : (s.setStrand w st).agent = s.agent := by
  cases w <;> simp only [State.setStrand] <;> (try split) <;> rfl
@[simp] theorem State.setStrand_wbWct (s : State) (w : Who) (st : Strand) : (s.setStrand w st).wbWct = s.wbWct := by
  cases w <;> simp only [State.setStrand] <;> (try split) <;> rfl
@[simp] theorem State.setFibre_again (s : State) (w : Who) (l : Nat) (f : Fibre) : (s.setFibre w l f).again = s.again := by simp [State.setFibre]
@[simp] theorem State.setFibre_still (s : State) (w : Who) (l : Nat) (f : Fibre) : (s.setFibre w l f).still = s.still := by simp [State.setFibre]
@[simp] theorem State.setFibre_agent (s : State) (w : Who) (l : Nat) (f : Fibre) : (s.setFibre w l f).agent = s.agent := by simp [State.setFibre]
@[simp] theorem State.setFibre_wbWct (s : State) (w : Who) (l : Nat) (f : Fibre) : (s.setFibre w l f).wbWct = s.wbWct := by simp [State.setFibre]
@[simp] theorem State.setStrand_freeCtr (s : State) (w : Who) (st : Strand) : (s.setStrand w st).freeCtr = s.freeCtr := by
  cases w <;> simp only [State.setStrand] <;> (try split) <;> rfl
@[simp] theorem State.setFibre_freeCtr (s : State) (w : Who) (l : Nat) (f : Fibre) : (s.setFibre w l f).freeCtr = s.freeCtr := by simp [State.setFibre]
@[simp] theorem State.setStrand_cur (s : State) (w : Who) (st : Strand) : (s.setStrand w st).cur = s.cur := by
  cases w <;> simp only [State.setStrand] <;> (try split) <;> rfl
@[simp] theorem State.setFibre_cur (s : State) (w : Who) (l : Nat) (f : Fibre) : (s.setFibre w l f).cur = s.cur := by simp [State.setFibre]
@[simp] theorem State.setStrand_out (s : State) (w : Who) (st : Strand) : (s.setStrand w st).out = s.out := by
  cases w <;> simp only [State.setStrand] <;> (try split) <;> rfl
@[simp] theorem State.setFibre_out (s : State) (w : Who) (l : Nat) (f : Fibre) : (s.setFibre w l f).out = s.out := by simp [State.setFibre]

/-! ### Reads after writes -/

theorem lookupBy_key {α κ : Type} [DecidableEq κ] {key : α → κ} {k : κ} {x : α} : ∀ {l : List α}, lookupBy key k l = some x → key x = k
  | y :: l, h => by
    unfold lookupBy at h
    split at h
    · cases h; assumption
    · exact lookupBy_key h

theorem State.rope?_id {s : State} {r : RopeId} {rp : Rope} (h : s.rope? r = some rp) : rp.id = r := lookupBy_key h

theorem State.core_no (s : State) (n : Nat) : (s.core n).no = n := by
  unfold State.core
  cases h : lookupBy Core.no n s.cores with
  | none => rfl
  | some c => exact lookupBy_key h

theorem State.core_setCore (s : State) (c : Core) (n : Nat) : (s.setCore c).core n = if c.no = n then c else s.core n := by
  simp only [State.core, State.setCore, lookupBy_upsert]
  split <;> rfl

theorem State.rope?_setRope (s : State) (r : Rope) (i : RopeId) : (s.setRope r).rope? i = if r.id = i then some r else s.rope? i := by
  simp only [State.rope?, State.setRope, lookupBy_upsert]

theorem State.ctx?_setCtx (s : State) (c : Context) (n : Nat) : (s.setCtx c).ctx? n = if c.no = n then some c else s.ctx? n := by
  simp only [State.ctx?, State.setCtx, lookupBy_upsert]

theorem State.op?_setOp (s : State) (o : Op) (n : Nat) : (s.setOp o).op? n = if o.id = n then some o else s.op? n := by
  simp only [State.op?, State.setOp, lookupBy_upsert]

theorem State.acc?_setAcc (s : State) (a : Access) (n : Nat) : (s.setAcc a).acc? n = if a.id = n then some a else s.acc? n := by
  simp only [State.acc?, State.setAcc, lookupBy_upsert]

@[simp] theorem State.core_setRope (s : State) (r : Rope) (n : Nat) : (s.setRope r).core n = s.core n := rfl
@[simp] theorem State.rope?_setCore (s : State) (c : Core) (r : RopeId) : (s.setCore c).rope? r = s.rope? r := rfl

/-- An issuer's strand exists in the state: every supervisor strand does, a rope's where the rope has it. -/
def State.hasStrand (s : State) : Who → Prop
  | .strand r sid => ∃ rp, s.rope? r = some rp ∧ sid < rp.strands.length
  | .sup _ => True

/-- A strand read after a strand written. -/
theorem State.strand_setStrand (s : State) (w v : Who) (st : Strand) (h : s.hasStrand w) :
    (s.setStrand w st).strand v = if w = v then st else s.strand v := by
  cases w with
  | sup n =>
    cases v with
    | sup m =>
      simp only [State.setStrand, State.strand, State.core_setCore, State.core_no, Who.sup.injEq]
      split <;> rfl
    | strand r sid => simp [State.setStrand, State.strand]
  | strand r sid =>
    obtain ⟨rp, hr, hs⟩ := h
    cases v with
    | sup m => simp [State.setStrand, State.strand, hr]
    | strand r' sid' =>
      simp only [State.setStrand, State.strand, hr, State.rope?_setRope, State.rope?_id hr, Who.strand.injEq]
      by_cases he : r = r'
      · subst he
        simp only [if_true, true_and, hr]
        by_cases hi : sid = sid'
        · subst hi; simp [List.getD, hs]
        · simp [List.getD, List.getElem?_set_ne hi, hi]
      · simp [he]

/-- A strand that is no default exists. -/
theorem State.hasStrand_of_cur {s : State} {w : Who} {p : Path} (h : (s.strand w).cur = some p) : s.hasStrand w := by
  cases w with
  | sup n => trivial
  | strand r sid =>
    simp only [State.strand] at h
    split at h
    · rename_i rp hr
      refine ⟨rp, hr, ?_⟩
      by_contra hn
      have : rp.strands[sid]? = none := List.getElem?_eq_none (by omega)
      simp [List.getD, this, Strand.init] at h
    · simp [Strand.init] at h

theorem State.setStrand_hasStrand (s : State) (w v : Who) (st : Strand) : (s.setStrand w st).hasStrand v ↔ s.hasStrand v := by
  cases v with
  | sup n => exact Iff.rfl
  | strand r' sid' =>
    cases w with
    | sup n => exact Iff.rfl
    | strand r sid =>
      simp only [State.hasStrand, State.setStrand]
      cases hr : s.rope? r with
      | none => exact Iff.rfl
      | some rp =>
        simp only [State.rope?_setRope, State.rope?_id hr]
        by_cases he : r = r'
        · subst he; simp [hr]
        · simp [he]

end Sys2Proof.Machine
end

