-- ==== Sys2Proof/Laws/Issue.lean ====
section
/-! SUPPORT. What the issue of a word can do, said once: everything outside the issuing strand stays, and each lane comes to what its lane
function makes of it. -/

namespace Sys2Proof.Machine

/-! ### Keeps -/

theorem Keeps.refl (s : State) (w : Who) : Keeps s s w := ⟨rfl, fun _ => rfl, fun _ => rfl, fun _ => rfl, fun _ _ _ => rfl⟩

theorem Keeps.trans {s t u : State} {w : Who} (a : Keeps s t w) (b : Keeps t u w) : Keeps s u w where
  rest := by
    have h : ({ u with ropes := s.ropes, cores := s.cores } : State) = { ({ u with ropes := t.ropes, cores := t.cores } : State) with ropes := s.ropes, cores := s.cores } := rfl
    rw [h, b.rest]; exact a.rest
  ropes r := (b.ropes r).trans (a.ropes r)
  cores n := (b.cores n).trans (a.cores n)
  strands v := (b.strands v).trans (a.strands v)
  other v h l := (b.other v h l).trans (a.other v h l)

/-- A strand read after a strand written: the old one, or the one written. -/
theorem State.strand_setStrand_or (s : State) (w v : Who) (st : Strand) :
    (s.setStrand w st).strand v = s.strand v ∨ (w = v ∧ (s.setStrand w st).strand v = st) := by
  by_cases h : s.hasStrand w
  · rw [s.strand_setStrand w v st h]
    split
    · exact .inr ⟨‹_›, rfl⟩
    · exact .inl rfl
  · cases w with
    | sup n => exact absurd trivial h
    | strand r sid =>
      left
      simp only [State.setStrand]
      split
      · rename_i rp hr
        have hs : ¬ sid < rp.strands.length := fun hs => h ⟨rp, hr, hs⟩
        have he : rp.strands.set sid st = rp.strands := List.set_eq_of_length_le (by omega)
        cases v with
        | sup m => rfl
        | strand r' sid' =>
          simp only [State.strand, State.rope?_setRope, State.rope?_id hr, he]
          by_cases hq : r = r'
          · subst hq; simp [hr]
          · simp [hq]
      · rfl

theorem keeps_setStrand (s : State) (v w : Who) (st : Strand) (ho : st.own = (s.strand v).own)
    (hf : v ≠ w → st.fibres = (s.strand v).fibres) : Keeps s (s.setStrand v st) w where
  rest := by
    cases v with
    | sup n => rfl
    | strand r sid => simp only [State.setStrand]; split <;> rfl
  ropes r' := by
    cases v with
    | sup n => rfl
    | strand r sid =>
      simp only [State.setStrand]
      split
      · rename_i rp hr
        rw [State.rope?_setRope]
        split
        · rename_i h
          have : s.rope? r' = some rp := by rw [← h, State.rope?_id hr]; exact hr
          simp [this, Rope.own]
        · rfl
      · rfl
  cores m := by
    cases v with
    | sup n =>
      simp only [State.setStrand, State.core_setCore, State.core_no]
      split
      · rename_i h; subst h; simp [Core.own, State.core_no]
      · rfl
    | strand r sid => simp only [State.setStrand]; split <;> rfl
  strands u := by
    rcases s.strand_setStrand_or v u st with h | ⟨rfl, h⟩
    · rw [h]
    · rw [h, ho]
  other u hu l := by
    rcases s.strand_setStrand_or v u st with h | ⟨rfl, h⟩
    · simp [State.fibre, h]
    · simp [State.fibre, h, Strand.fibre, hf hu]

/-! ### The end of a word -/

theorem regs_tally (f : Fibre) (n : Nat) (b : Bool) : ({ f with issued := n, noBrk := false, rtry := b } : Fibre).regs = f.regs := rfl

/-- Each lane's registers as they were, each strand's fibres of the same number. -/
def SameRegs (a b : Strand) : Prop := b.fibres.length = a.fibres.length ∧ ∀ l, (b.fibre l).regs = (a.fibre l).regs

theorem SameRegs.refl (a : Strand) : SameRegs a a := ⟨rfl, fun _ => rfl⟩

theorem SameRegs.trans {a b c : Strand} (x : SameRegs a b) (y : SameRegs b c) : SameRegs a c :=
  ⟨y.1.trans x.1, fun l => (y.2 l).trans (x.2 l)⟩

theorem fibre_mapIdx (st : Strand) (f : Nat → Fibre → Fibre) (l : Nat) (h : l < st.fibres.length) :
    (st.fibres.mapIdx f).getD l Fibre.vacant = f l (st.fibre l) := by
  simp [List.getD, Strand.fibre, h]

theorem sameRegs_mapIdx (st st' : Strand) (f : Nat → Fibre → Fibre) (hf : st'.fibres = st.fibres.mapIdx f) (h : ∀ i x, (f i x).regs = x.regs) :
    SameRegs st st' := by
  refine ⟨by rw [hf]; simp, fun l => ?_⟩
  simp only [Strand.fibre, hf]
  by_cases hl : l < st.fibres.length
  · rw [fibre_mapIdx st f l hl, h]; rfl
  · simp [List.getD, List.getElem?_eq_none (Nat.le_of_not_lt hl)]

theorem sameRegs_addPath (st : Strand) (p : Path) : SameRegs st (st.addPath p) ∧ (st.addPath p).own = st.own := by
  unfold Strand.addPath
  split <;>
  · refine ⟨sameRegs_mapIdx st _ _ rfl ?_, rfl⟩
    intro i x
    split <;> rfl

theorem sameRegs_split (st : Strand) (c : Path) (ts : List (Nat × DWord)) : SameRegs st (st.split c ts) ∧ (st.split c ts).own = st.own := by
  unfold Strand.split
  split
  · exact ⟨SameRegs.refl _, rfl⟩
  · rename_i a ls more _
    have base : ∀ (m : List (DWord × List Nat)) (x : Strand), SameRegs st x ∧ x.own = st.own →
        SameRegs st (m.foldl (fun st p => st.addPath ⟨maskOfLanes p.2, p.1, 0, false, none⟩) x) ∧
          (m.foldl (fun st p => st.addPath ⟨maskOfLanes p.2, p.1, 0, false, none⟩) x).own = st.own := by
      intro m
      induction m with
      | nil => intro x h; exact h
      | cons q m ih =>
        intro x h
        have := sameRegs_addPath x ⟨maskOfLanes q.2, q.1, 0, false, none⟩
        exact ih _ ⟨h.1.trans this.1, this.2.trans h.2⟩
    refine base more _ ⟨sameRegs_mapIdx st _ _ rfl ?_, rfl⟩
    intro i x
    split <;> rfl

theorem Moved.refl (s : State) (w : Who) : Moved s s w := ⟨Keeps.refl s w, fun _ => rfl⟩

theorem Moved.trans {s t u : State} {w : Who} (a : Moved s t w) (b : Moved t u w) : Moved s u w :=
  ⟨a.keeps.trans b.keeps, fun l => (b.regs l).trans (a.regs l)⟩

theorem moved_setStrand (s : State) (v w : Who) (st : Strand) (ho : st.own = (s.strand v).own)
    (hf : v ≠ w → st.fibres = (s.strand v).fibres) (hr : SameRegs (s.strand v) st) : Moved s (s.setStrand v st) w := by
  refine ⟨keeps_setStrand s v w st ho hf, fun l => ?_⟩
  rcases s.strand_setStrand_or v w st with h | ⟨rfl, h⟩
  · simp [State.fibre, h]
  · simp [State.fibre, h, hr.2]

theorem moved_swapSlot (s : State) (w : Who) : Moved s (s.swapSlot w) w := by
  unfold State.swapSlot
  cases w with
  | sup n => exact Moved.refl _ _
  | strand r sid =>
    dsimp only
    split
    · refine Moved.trans (moved_setStrand s (.strand r sid) (.strand r sid) _ ?_ ?_ ?_) (moved_setStrand _ _ _ _ ?_ ?_ ?_)
      · rfl
      · exact fun _ => rfl
      · exact ⟨rfl, fun _ => rfl⟩
      · rfl
      · exact fun _ => rfl
      · exact ⟨rfl, fun _ => rfl⟩
    · exact Moved.refl _ _

/-- The end of a word none of whose lanes has trapped. -/
theorem moved_finish (s : State) (c : Cx) (tgts : List (Nat × DWord)) : Moved s (s.finish c [] tgts) c.who := by
  have tally : ∀ (st : Strand) (f : Nat → Fibre → Fibre), (∀ i x, (f i x).regs = x.regs) →
      SameRegs st { st with fibres := st.fibres.mapIdx f } := fun st f h => sameRegs_mapIdx st _ f rfl h
  unfold State.finish
  split
  · rename_i h; cases h
  · have hg : ∀ st : Strand, groupTraps st [] = [] := fun _ => rfl
    simp only [hg, List.foldl_nil]
    have key : ∀ st' : Strand, st'.own = (s.strand c.who).own ∧ SameRegs (s.strand c.who) st' →
        Moved s (if c.cl.left ≤ 1 ∧ c.cl.yield = true then (s.setStrand c.who st').swapSlot c.who else s.setStrand c.who st') c.who := by
      intro st' h
      have m := moved_setStrand s c.who c.who st' h.1 (fun h => absurd rfl h) h.2
      split
      · exact m.trans (moved_swapSlot _ _)
      · exact m
    refine key _ ?_
    let ty := fun (i : Nat) (f : Fibre) => if (lanesOf c.path.mask).contains i = true then
        { f with issued := f.issued + 1, noBrk := false, rtry := f.rtry && (!f.noBrk || ([] : List (Nat × Trap)).any fun q => decide (q.1 = i)) }
      else f
    have t := tally (s.strand c.who) ty (by intro i x; simp only [ty]; split <;> rfl)
    split
    · exact ⟨rfl, t⟩
    · split
      · have h := sameRegs_split ({ s.strand c.who with
          fibres := (s.strand c.who).fibres.mapIdx ty, brim := eraseBy Prod.fst c.path.mask (s.strand c.who).brim })
        exact ⟨(h _ _).2, t.trans (h _ _).1⟩
      · exact ⟨rfl, t⟩

/-! ### A word on registers alone -/

theorem mem_setBits : ∀ (n m l : Nat), l ∈ setBits n m ↔ l < n ∧ bit m l = true := by
  intro n m l
  simp [setBits]

theorem bit_toNat {w : Nat} (m : BitVec w) (l : Nat) : bit m.toNat l = m.getLsbD l := by
  rw [← BitVec.testBit_toNat, Nat.testBit_eq_decide_div_mod_eq]
  simp [bit, beq_eq_decide]

theorem mem_lanesOf (m : BitVec 32) (l : Nat) : l ∈ lanesOf m ↔ m.getLsbD l = true := by
  unfold lanesOf
  rw [mem_setBits, bit_toNat]
  exact ⟨fun h => h.2, fun h => ⟨BitVec.lt_of_getLsbD h, h⟩⟩

theorem mem_lanes (c : Cx) (g : Guard) (l : Nat) : l ∈ c.lanes g ↔ c.path.mask.getLsbD l = true ∧ (c.st.fibre l).guard g = true := by
  simp [Cx.lanes, mem_lanesOf]

/-- What is known of the place of an issue. -/
theorem cx_eq {s : State} {n : Nat} {c : Cx} (h : s.cx? n = some c) :
    s.cur = some c.who ∧ c.st = s.strand c.who ∧ c.st.cur = some c.path ∧ c.path.cl = some c.cl ∧ c.next = nextIp c.cl.ip n := by
  unfold State.cx? at h
  split at h
  · cases h
  · split at h
    · cases h
    · split at h
      · cases h
      · cases h
        exact ⟨‹_›, rfl, ‹_›, ‹_›, rfl⟩

theorem cx_has {s : State} {n : Nat} {c : Cx} (h : s.cx? n = some c) : s.hasStrand c.who := by
  obtain ⟨-, h1, h2, -⟩ := cx_eq h
  exact State.hasStrand_of_cur (h1 ▸ h2)

/-- Inside a clause a word's path, where a fibre of it lives, goes on to the next word. -/
theorem goes_finish (u : State) (c : Cx) (tgts : List (Nat × DWord)) (hs : u.hasStrand c.who)
    (hl : ∀ l ∈ lanesOf c.path.mask, (c.st.fibre l).st = .live → (u.fibre c.who l).st = .live) : Goes c (u.finish c [] tgts) := by
  rintro h1 ⟨l, hm, hv⟩
  have hv := hl l hm hv
  unfold State.finish
  split
  · rename_i h; cases h
  · have hg : ∀ st : Strand, groupTraps st [] = [] := fun _ => rfl
    have hn : ¬ c.cl.left ≤ 1 := by omega
    simp only [hg, List.foldl_nil, if_neg hn, if_neg (show ¬ (c.cl.left ≤ 1 ∧ c.cl.yield = true) from fun h => hn h.1)]
    rw [State.strand_setStrand _ _ _ _ hs, if_pos rfl]
    rw [if_neg]
    · rfl
    · intro he
      have := List.filter_eq_nil_iff.1 he l hm
      simp only [List.any_nil, Bool.not_false, Bool.true_and, decide_eq_true_eq] at this
      exact this hv

/-- A word whose lanes all complete, by its lane function. -/
theorem issue_done {i : Iss} {f : Cx → Nat → Fibre → LaneRes} {s : State} {c : Cx} (r : Ready s c i)
    (F : Nat → Fibre → Fibre) (hf : ∀ l ∈ c.lanes i.g, f c l (c.st.fibre l) = .ok (F l (c.st.fibre l)))
    (hl : ∀ l ∈ c.lanes i.g, (F l (c.st.fibre l)).st = (c.st.fibre l).st) :
    ∃ t, issue i f s = .next t ∧ Done s t c i.g F := by
  obtain ⟨-, hst, -, -, -⟩ := cx_eq r.stands
  have has := cx_has r.stands
  -- every lane completes
  have lane : ∀ l, c.lane i (f c) l (c.st.fibre l) =
      .ok (if c.path.mask.getLsbD l = true ∧ (c.st.fibre l).guard i.g = true then F l (c.st.fibre l) else c.st.fibre l) := by
    intro l
    unfold Cx.lane
    by_cases h : c.path.mask.getLsbD l = true ∧ (c.st.fibre l).guard i.g = true
    · have hm := (mem_lanes c i.g l).2 h
      simp [h.1, h.2, r.may, r.clear l hm, hf l hm]
    · rw [if_neg (by simpa using h), if_neg h]
  let rs := c.st.fibres.mapIdx fun l fb => c.lane i (f c) l fb
  let st' : Strand := { c.st with fibres := rs.map LaneRes.fib }
  have hrs : ∀ q ∈ rs.zipIdx, q.1.trap = none ∧ q.1.tgt = none := by
    rintro ⟨q, k⟩ h
    obtain ⟨hk, he⟩ := List.mem_zipIdx' h
    have hk' : k < c.st.fibres.length := by simpa [rs] using hk
    have : q = c.lane i (f c) k (c.st.fibre k) := by rw [he]; simp [rs, Strand.fibre, List.getD, hk']
    rw [this, lane k]
    exact ⟨rfl, rfl⟩
  have t1 : rs.zipIdx.filterMap (fun q => q.1.trap.map fun t => (q.2, t)) = [] := by
    rw [List.filterMap_eq_nil_iff]; intro q h; simp [(hrs q h).1]
  have t2 : rs.zipIdx.filterMap (fun q => q.1.tgt.map fun t => (q.2, t)) = [] := by
    rw [List.filterMap_eq_nil_iff]; intro q h; simp [(hrs q h).2]
  have fib : ∀ l, l < c.st.fibres.length → st'.fibre l =
      if c.path.mask.getLsbD l = true ∧ (c.st.fibre l).guard i.g = true then F l (c.st.fibre l) else c.st.fibre l := by
    intro l h
    have : st'.fibre l = (c.lane i (f c) l (c.st.fibre l)).fib := by simp [st', rs, Strand.fibre, List.getD, h]
    rw [this, lane l]; rfl
  have u : ∀ l, (s.setStrand c.who st').fibre c.who l = st'.fibre l := by
    intro l; simp [State.fibre, State.strand_setStrand _ _ _ _ has]
  refine ⟨(s.setStrand c.who st').finish c [] [], ?_, ?_⟩
  · simp only [issue, r.stands]
    show Host.Outcome.next ((s.setStrand c.who st').finish c (rs.zipIdx.filterMap fun q => q.1.trap.map fun t => (q.2, t))
      (rs.zipIdx.filterMap fun q => q.1.tgt.map fun t => (q.2, t))) = _
    rw [t1, t2]
  · have k := keeps_setStrand s c.who c.who st' (by rw [← hst]; rfl) (fun h => absurd rfl h)
    have m := moved_finish (s.setStrand c.who st') c []
    refine ⟨k.trans m.keeps, ?_, ?_, ?_⟩
    · intro l hlt hm
      rw [m.regs, u, fib l hlt, if_pos ((mem_lanes c i.g l).1 hm)]
      simp [State.fibre, hst]
    · intro l hlt hm
      rw [m.regs, u, fib l hlt, if_neg (fun h => hm ((mem_lanes c i.g l).2 h))]
      simp [State.fibre, hst]
    · refine goes_finish _ c _ ((State.setStrand_hasStrand _ _ _ _).2 has) ?_
      intro l _ hv
      rw [u]
      have hlt : l < c.st.fibres.length := by
        by_contra h
        simp [Strand.fibre, List.getD, List.getElem?_eq_none (Nat.le_of_not_lt h), Fibre.vacant] at hv
      rw [fib l hlt]
      split
      · rename_i h; rw [hl l ((mem_lanes c i.g l).2 h)]; exact hv
      · exact hv

/-! ### Words with effects beyond registers -/

theorem fibre_setFibre_ne (u : State) (w : Who) (l k : Nat) (f : Fibre) (h : k ≠ l) : (u.setFibre w l f).fibre w k = u.fibre w k := by
  rcases u.strand_setStrand_or w w ((u.strand w).setFibre l f) with e | ⟨-, e⟩
  · simp [State.setFibre, State.fibre, e]
  · show ((u.setStrand w ((u.strand w).setFibre l f)).strand w).fibre k = (u.strand w).fibre k
    rw [e]
    simp [Strand.setFibre, Strand.fibre, List.getD, List.getElem?_set_ne (Ne.symm h)]

theorem fibre_setFibre_eq (u : State) (w : Who) (l : Nat) (f : Fibre) (hs : u.hasStrand w) (hl : l < (u.strand w).fibres.length) :
    (u.setFibre w l f).fibre w l = f := by
  simp [State.setFibre, State.fibre, State.strand_setStrand _ _ _ _ hs, Strand.setFibre, Strand.fibre, List.getD, hl]

theorem setFibre_hasStrand (u : State) (w : Who) (l : Nat) (f : Fibre) : (u.setFibre w l f).hasStrand w ↔ u.hasStrand w :=
  State.setStrand_hasStrand _ _ _ _

theorem lt_of_live {u : State} {w : Who} {l : Nat} (h : (u.fibre w l).st = .live) : l < (u.strand w).fibres.length := by
  by_contra hn
  simp [State.fibre, Strand.fibre, List.getD, List.getElem?_eq_none (Nat.le_of_not_lt hn), Fibre.vacant] at h

theorem nodup_lanes (c : Cx) (g : Guard) : (c.lanes g).Nodup := by
  unfold Cx.lanes lanesOf setBits
  exact ((List.nodup_range).filter _).filter _

theorem mark_st (i : Iss) (f : Fibre) : (i.mark f).st = f.st := by unfold Iss.mark; split <;> rfl

theorem committed_ok (i : Iss) (f : Fibre) (t : Option DWord) : (LaneRes.mk f t none).committed i = i.mark f := by
  simp [LaneRes.committed, Iss.mark]

/-- What a lane of a word does, as the laws of issue take it: over every state that Inv holds of, the lane function answers what act and fib
say, with tgt, and act leaves the strand's fibres and Inv alone. -/
structure Lane (c : Cx) (i : Iss) (Inv : State → Prop) (act : State → Nat → State) (fib : Nat → Fibre) (l : Nat) : Prop where
  inv  : ∀ u, Inv u → Inv (act u l)
  keep : ∀ u k, Inv u → (act u l).fibre c.who k = u.fibre c.who k
  has  : ∀ u, Inv u → u.hasStrand c.who → (act u l).hasStrand c.who
  set  : ∀ u f, Inv u → Inv (u.setFibre c.who l f)
  live : (fib l).st = (c.st.fibre l).st

/-- The lanes of a list in turn. -/
theorem each_spec {c : Cx} {i : Iss} {Inv : State → Prop} {act : State → Nat → State} {fib : Nat → Fibre} :
    ∀ (ls : List Nat) (u : State), ls.Nodup → (∀ l ∈ ls, Lane c i Inv act fib l) → Inv u → u.hasStrand c.who →
      (∀ l ∈ ls, u.fibre c.who l = c.st.fibre l) →
      (u.each c i ls act fib).hasStrand c.who ∧
      (∀ k, (u.fibre c.who k).st = .live → (∀ l ∈ ls, k = l → (c.st.fibre l).st = .live) → ((u.each c i ls act fib).fibre c.who k).st = .live)
  | [], u, _, _, _, hs, _ => ⟨hs, fun _ h _ => h⟩
  | l :: ls, u, hn, hL, hi, hs, hu => by
    have L := hL l (List.mem_cons_self ..)
    have hs' : ((act u l).setFibre c.who l (i.mark (fib l))).hasStrand c.who := (setFibre_hasStrand _ _ _ _).2 (L.has u hi hs)
    have ih := each_spec ls ((act u l).setFibre c.who l (i.mark (fib l))) (List.nodup_cons.1 hn).2
      (fun k hk => hL k (List.mem_cons_of_mem _ hk)) (L.set _ _ (L.inv u hi)) hs'
      (fun k hk => by
        have : k ≠ l := fun h => (List.nodup_cons.1 hn).1 (h ▸ hk)
        rw [fibre_setFibre_ne _ _ _ _ _ this, L.keep u k hi]
        exact hu k (List.mem_cons_of_mem _ hk))
    refine ⟨ih.1, fun k hk hl => ih.2 k ?_ (fun m hm => hl m (List.mem_cons_of_mem _ hm))⟩
    by_cases h : k = l
    · subst h
      have hlive : ((act u k).fibre c.who k).st = .live := by rw [L.keep u k hi]; exact hk
      rw [fibre_setFibre_eq _ _ _ _ (L.has u hi hs) (lt_of_live hlive), mark_st, L.live]
      exact hl k (List.mem_cons_self ..) rfl
    · rw [fibre_setFibre_ne _ _ _ _ _ h, L.keep u k hi]; exact hk

/-- One lane of `runLanes`. -/
def laneStep (c : Cx) (i : Iss) (f : State → Nat → Fibre → LaneFx) (a : State × List (Nat × Trap) × List (Nat × DWord) × Nat) (l : Nat) :
    State × List (Nat × Trap) × List (Nat × DWord) × Nat :=
  let fb := a.1.fibre c.who l
  if c.barred i then (a.1, a.2.1 ++ [(l, illegal .operand)], a.2.2)
  else if fb.hazard i.uses then (a.1, a.2.1 ++ [(l, illegal .hazard)], a.2.2)
  else
    let r := f a.1 l fb
    (r.s.setFibre c.who l (r.res.committed i),
      a.2.1 ++ (r.res.trap.map fun t => (l, t)).toList, a.2.2.1 ++ (r.res.tgt.map fun t => (l, t)).toList, a.2.2.2 + r.due)

theorem runLanes_eq (c : Cx) (i : Iss) (f : State → Nat → Fibre → LaneFx) (s : State) :
    runLanes c i f s = (c.lanes i.g).foldl (laneStep c i f) (s, [], [], 0) := rfl

theorem runLanes_each {c : Cx} {i : Iss} {Inv : State → Prop} {act : State → Nat → State} {fib : Nat → Fibre} {tgt : Nat → Option DWord}
    {n : Nat} {f : State → Nat → Fibre → LaneFx} (hb : c.barred i = false) :
    ∀ (ls : List Nat) (u : State) (tg : List (Nat × DWord)) (d : Nat), ls.Nodup → (∀ l ∈ ls, Lane c i Inv act fib l) → Inv u →
      (∀ l ∈ ls, u.fibre c.who l = c.st.fibre l) → (∀ l ∈ ls, (c.st.fibre l).hazard i.uses = false) →
      (∀ l ∈ ls, ∀ u, Inv u → u.fibre c.who l = c.st.fibre l → f u l (c.st.fibre l) = ⟨act u l, ⟨fib l, tgt l, none⟩, n⟩) →
      ls.foldl (laneStep c i f) (u, [], tg, d) =
        (u.each c i ls act fib, [], tg ++ ls.flatMap (fun l => ((tgt l).map fun t => (l, t)).toList), d + n * ls.length)
  | [], u, tg, d, _, _, _, _, _, _ => by simp [State.each]
  | l :: ls, u, tg, d, hn, hL, hi, hu, hh, hf => by
    have L := hL l (List.mem_cons_self ..)
    have step : laneStep c i f (u, [], tg, d) l =
        ((act u l).setFibre c.who l (i.mark (fib l)), [], tg ++ ((tgt l).map fun t => (l, t)).toList, d + n) := by
      simp only [laneStep, hu l (List.mem_cons_self ..), hb, hh l (List.mem_cons_self ..), Bool.false_eq_true, if_false,
        hf l (List.mem_cons_self ..) u hi (hu l (List.mem_cons_self ..)), committed_ok, Option.map_none, Option.toList_none, List.append_nil]
    rw [List.foldl_cons, step,
      runLanes_each hb ls _ _ _ (List.nodup_cons.1 hn).2 (fun k hk => hL k (List.mem_cons_of_mem _ hk)) (L.set _ _ (L.inv u hi))
      (fun k hk => by
        have : k ≠ l := fun h => (List.nodup_cons.1 hn).1 (h ▸ hk)
        rw [fibre_setFibre_ne _ _ _ _ _ this, L.keep u k hi]
        exact hu k (List.mem_cons_of_mem _ hk))
      (fun k hk => hh k (List.mem_cons_of_mem _ hk)) (fun k hk => hf k (List.mem_cons_of_mem _ hk))]
    simp only [State.each, List.foldl_cons, List.flatMap_cons, List.append_assoc, List.length_cons, Nat.mul_add, Nat.mul_one]
    refine Prod.ext rfl (Prod.ext rfl (Prod.ext rfl ?_))
    simp only
    omega

/-- One lane of `runLanesTry`. -/
def laneTryStep (c : Cx) (i : Iss) (f : State → Nat → Fibre → Except State LaneFx)
    (a : Option (State × List (Nat × Trap) × List (Nat × DWord) × Nat)) (l : Nat) : Option (State × List (Nat × Trap) × List (Nat × DWord) × Nat) :=
  match a with
  | none => none
  | some a =>
    let fb := a.1.fibre c.who l
    if c.barred i then some (a.1, a.2.1 ++ [(l, illegal .operand)], a.2.2)
    else if fb.hazard i.uses then some (a.1, a.2.1 ++ [(l, illegal .hazard)], a.2.2)
    else match f (a.1.as (c.doer a.1 l)) l fb with
      | .error _ => none
      | .ok r => some ((r.s.as a.1.agent).setFibre c.who l (r.res.committed i), a.2.1 ++ (r.res.trap.map fun t => (l, t)).toList,
          a.2.2.1 ++ (r.res.tgt.map fun t => (l, t)).toList, a.2.2.2 + r.due)

theorem runLanesTry_eq (c : Cx) (i : Iss) (f : State → Nat → Fibre → Except State LaneFx) (s : State) :
    runLanesTry c i f s = (c.lanes i.g).foldl (laneTryStep c i f) (some (s, [], [], 0)) := rfl

theorem runLanesTry_each {c : Cx} {i : Iss} {Inv : State → Prop} {act : State → Nat → State} {fib : Nat → Fibre} {tgt : Nat → Option DWord}
    {n : Nat} {f : State → Nat → Fibre → Except State LaneFx} (hb : c.barred i = false) :
    ∀ (ls : List Nat) (u : State) (tg : List (Nat × DWord)) (d : Nat), ls.Nodup → (∀ l ∈ ls, Lane c i Inv act fib l) → Inv u →
      (∀ l ∈ ls, u.fibre c.who l = c.st.fibre l) → (∀ l ∈ ls, (c.st.fibre l).hazard i.uses = false) →
      (∀ l ∈ ls, ∀ u, Inv u → u.fibre c.who l = c.st.fibre l →
        ∃ v, f (u.as (c.doer u l)) l (c.st.fibre l) = .ok ⟨v, ⟨fib l, tgt l, none⟩, n⟩ ∧ v.as u.agent = act u l) →
      ls.foldl (laneTryStep c i f) (some (u, [], tg, d)) =
        some (u.each c i ls act fib, [], tg ++ ls.flatMap (fun l => ((tgt l).map fun t => (l, t)).toList), d + n * ls.length)
  | [], u, tg, d, _, _, _, _, _, _ => by simp [State.each]
  | l :: ls, u, tg, d, hn, hL, hi, hu, hh, hf => by
    have L := hL l (List.mem_cons_self ..)
    have step : laneTryStep c i f (some (u, [], tg, d)) l =
        some ((act u l).setFibre c.who l (i.mark (fib l)), [], tg ++ ((tgt l).map fun t => (l, t)).toList, d + n) := by
      obtain ⟨v, hv, ha⟩ := hf l (List.mem_cons_self ..) u hi (hu l (List.mem_cons_self ..))
      simp only [laneTryStep, hu l (List.mem_cons_self ..), hb, hh l (List.mem_cons_self ..), Bool.false_eq_true, if_false, hv, ha, committed_ok, Option.map_none, Option.toList_none, List.append_nil]
    rw [List.foldl_cons, step,
      runLanesTry_each hb ls _ _ _ (List.nodup_cons.1 hn).2 (fun k hk => hL k (List.mem_cons_of_mem _ hk)) (L.set _ _ (L.inv u hi))
      (fun k hk => by
        have : k ≠ l := fun h => (List.nodup_cons.1 hn).1 (h ▸ hk)
        rw [fibre_setFibre_ne _ _ _ _ _ this, L.keep u k hi]
        exact hu k (List.mem_cons_of_mem _ hk))
      (fun k hk => hh k (List.mem_cons_of_mem _ hk)) (fun k hk => hf k (List.mem_cons_of_mem _ hk))]
    simp only [State.each, List.foldl_cons, List.flatMap_cons, List.append_assoc, List.length_cons, Nat.mul_add, Nat.mul_one]
    refine congrArg some (Prod.ext rfl (Prod.ext rfl (Prod.ext rfl ?_)))
    simp only
    omega

/-- The end of a word with effects beyond registers. -/
theorem passed_finish {c : Cx} {i : Iss} {s : State} {ls : List Nat} {act : State → Nat → State} {fib : Nat → Fibre} {tag n : Nat}
    {tgts : List (Nat × DWord)} (hs : (s.each c i ls act fib).hasStrand c.who)
    (hl : ∀ k ∈ lanesOf c.path.mask, (c.st.fibre k).st = .live → ((s.each c i ls act fib).fibre c.who k).st = .live) :
    Passed ((s.each c i ls act fib).raised c i tag n) (((s.each c i ls act fib).raised c i tag n).finish c [] tgts) c := by
  refine ⟨moved_finish _ _ _, goes_finish _ _ _ ((State.setStrand_hasStrand _ _ _ _).2 hs) fun k hk hv => ?_⟩
  have : (((s.each c i ls act fib).raised c i tag n).fibre c.who k).st = ((s.each c i ls act fib).fibre c.who k).st := by
    simp only [State.raised, State.fibre, State.strand_setStrand _ _ _ _ hs, if_true]
    unfold Strand.raiseDue
    split
    · split <;> rfl
    · rfl
  rw [this]
  exact hl k hk hv

/-- A word lane by lane, none of whose lanes traps. -/
theorem issueSt_passes {c : Cx} {i : Iss} {s : State} {Inv : State → Prop} {act : State → Nat → State} {fib : Nat → Fibre}
    {tgt : Nat → Option DWord} {n : Nat} {f : Cx → Nat → State → Nat → Fibre → LaneFx} (r : Free s c i)
    (hi : Inv s.fresh.2) (hL : ∀ l ∈ c.lanes i.g, Lane c i Inv act fib l)
    (hf : ∀ l ∈ c.lanes i.g, ∀ u, Inv u → u.fibre c.who l = c.st.fibre l → f c s.nextId u l (c.st.fibre l) = ⟨act u l, ⟨fib l, tgt l, none⟩, n⟩) :
    ∃ t, issueSt i f s = .next t ∧ Passed ((s.fresh.2.each c i (c.lanes i.g) act fib).raised c i s.nextId (n * (c.lanes i.g).length)) t c := by
  obtain ⟨-, hst, -, -, -⟩ := cx_eq r.ready.stands
  have has : s.fresh.2.hasStrand c.who := by
    have := cx_has r.ready.stands
    cases h : c.who <;> simp_all [State.hasStrand, State.fresh, State.rope?]
  have hu : ∀ l, s.fresh.2.fibre c.who l = c.st.fibre l := by
    intro l; rw [hst]; cases c.who <;> rfl
  have run := runLanes_each (f := f c s.nextId) r.ready.may (c.lanes i.g) s.fresh.2 [] 0 (nodup_lanes c i.g) hL hi (fun l _ => hu l) r.ready.clear hf
  have spec := each_spec (c.lanes i.g) s.fresh.2 (nodup_lanes c i.g) hL hi has (fun l _ => hu l)
  refine ⟨_, ?_, passed_finish (tgts := (c.lanes i.g).flatMap fun l => ((tgt l).map fun t => (l, t)).toList) spec.1 ?_⟩
  · unfold issueSt
    simp only [r.ready.stands, r.free, Bool.false_eq_true, if_false]
    rw [show s.fresh.1 = s.nextId from rfl, runLanes_eq, run]
    simp only [List.nil_append, Nat.zero_add]
    rfl
  · intro k _ hv
    exact spec.2 k (by rw [hu]; exact hv) (fun l _ e => e ▸ hv)

/-- The same for a word whose accesses may have to be repeated, where none has. -/
theorem issueTry_passes {c : Cx} {i : Iss} {s : State} {Inv : State → Prop} {act : State → Nat → State} {fib : Nat → Fibre}
    {tgt : Nat → Option DWord} {n : Nat} {f : Cx → Nat → State → Nat → Fibre → Except State LaneFx} (r : Free s c i)
    (hi : Inv s.fresh.2) (hL : ∀ l ∈ c.lanes i.g, Lane c i Inv act fib l)
    (hf : ∀ l ∈ c.lanes i.g, ∀ u, Inv u → u.fibre c.who l = c.st.fibre l →
      ∃ v, f c s.nextId (u.as (c.doer u l)) l (c.st.fibre l) = .ok ⟨v, ⟨fib l, tgt l, none⟩, n⟩ ∧ v.as u.agent = act u l) :
    ∃ t, issueTry i f s = .next t ∧ Passed ((s.fresh.2.each c i (c.lanes i.g) act fib).raised c i s.nextId (n * (c.lanes i.g).length)) t c := by
  obtain ⟨-, hst, -, -, -⟩ := cx_eq r.ready.stands
  have has : s.fresh.2.hasStrand c.who := by
    have := cx_has r.ready.stands
    cases h : c.who <;> simp_all [State.hasStrand, State.fresh, State.rope?]
  have hu : ∀ l, s.fresh.2.fibre c.who l = c.st.fibre l := by
    intro l; rw [hst]; cases c.who <;> rfl
  have run := runLanesTry_each (f := f c s.nextId) r.ready.may (c.lanes i.g) s.fresh.2 [] 0 (nodup_lanes c i.g) hL hi (fun l _ => hu l) r.ready.clear hf
  have spec := each_spec (c.lanes i.g) s.fresh.2 (nodup_lanes c i.g) hL hi has (fun l _ => hu l)
  have again : c.again i (f c s.nextId) s.fresh.2 = none := by
    unfold Cx.again
    rw [if_neg (by simp [r.ready.may]), List.findSome?_eq_none_iff]
    intro l hl
    have hl' : l ∈ c.lanes i.g := (List.mem_filter.1 hl).1
    obtain ⟨v, hv, -⟩ := hf l hl' s.fresh.2 hi (hu l)
    rw [hu, hv]
  refine ⟨_, ?_, passed_finish (tgts := (c.lanes i.g).flatMap fun l => ((tgt l).map fun t => (l, t)).toList) spec.1 ?_⟩
  · unfold issueTry
    simp only [r.ready.stands, r.free, Bool.false_eq_true, if_false]
    rw [show s.fresh.1 = s.nextId from rfl, again, runLanesTry_eq, run]
    simp only [List.nil_append, Nat.zero_add]
    rfl
  · intro k _ hv
    exact spec.2 k (by rw [hu]; exact hv) (fun l _ e => e ▸ hv)

/-! ### Words of one executing lane -/

theorem committed_fault (fb : Fibre) (t : Trap) (i : Iss) (h : i.commit = false ∨ t.after = false) :
    (LaneRes.fault fb t).committed i = fb := by
  rcases h with h | h <;> simp [LaneRes.fault, LaneRes.committed, h]

/-- Where a word of one executing lane does what u, f and n say, whatever follows at its end. -/
theorem issueSt_one {c : Cx} {i : Iss} {s u : State} {l n : Nat} {fb : Fibre} {tg : Option DWord}
    {f : Cx → Nat → State → Nat → Fibre → LaneFx} (r : Free s c i) (h1 : c.lanes i.g = [l])
    (hf : f c s.nextId s.fresh.2 l (c.st.fibre l) = ⟨u, ⟨fb, tg, none⟩, n⟩) :
    ∃ t, issueSt i f s = .next t ∧ Moved ((u.setFibre c.who l (i.mark fb)).raised c i s.nextId n) t c.who := by
  obtain ⟨-, hst, -, -, -⟩ := cx_eq r.ready.stands
  have hu : s.fresh.2.fibre c.who l = c.st.fibre l := by rw [hst]; cases c.who <;> rfl
  have hz := r.ready.clear l (by simp [h1])
  have run : runLanes c i (f c s.nextId) s.fresh.2 = (u.setFibre c.who l (i.mark fb), [], (tg.map fun t => (l, t)).toList, n) := by
    rw [runLanes_eq, h1]
    simp only [List.foldl_cons, List.foldl_nil, laneStep, hu, r.ready.may, hz, Bool.false_eq_true, if_false, hf, Option.map_none,
      Option.toList_none, List.append_nil, List.nil_append, Nat.zero_add]
    rw [committed_ok]
  refine ⟨_, ?_, moved_finish _ c ((tg.map fun t => (l, t)).toList)⟩
  unfold issueSt
  simp only [r.ready.stands, r.free, Bool.false_eq_true, if_false]
  rw [show s.fresh.1 = s.nextId from rfl, run]
  rfl

/-- The same for a word whose accesses may have to be repeated. -/
theorem issueTry_one {c : Cx} {i : Iss} {s u : State} {l n : Nat} {fb : Fibre} {tg : Option DWord}
    {f : Cx → Nat → State → Nat → Fibre → Except State LaneFx} (r : Free s c i) (h1 : c.lanes i.g = [l])
    (hf : f c s.nextId (s.fresh.2.as (c.doer s.fresh.2 l)) l (c.st.fibre l) = .ok ⟨u, ⟨fb, tg, none⟩, n⟩) :
    ∃ t, issueTry i f s = .next t ∧ Moved (((u.as s.agent).setFibre c.who l (i.mark fb)).raised c i s.nextId n) t c.who := by
  obtain ⟨-, hst, -, -, -⟩ := cx_eq r.ready.stands
  have hu : s.fresh.2.fibre c.who l = c.st.fibre l := by rw [hst]; cases c.who <;> rfl
  have hz := r.ready.clear l (by simp [h1])
  have run : runLanesTry c i (f c s.nextId) s.fresh.2 = some ((u.as s.agent).setFibre c.who l (i.mark fb), [], (tg.map fun t => (l, t)).toList, n) := by
    rw [runLanesTry_eq, h1]
    simp only [List.foldl_cons, List.foldl_nil, laneTryStep, hu, r.ready.may, hz, Bool.false_eq_true, if_false, hf, Option.map_none,
      Option.toList_none, List.append_nil, List.nil_append, Nat.zero_add]
    rw [committed_ok]
    rfl
  have again : c.again i (f c s.nextId) s.fresh.2 = none := by
    unfold Cx.again
    rw [if_neg (by simp [r.ready.may]), List.findSome?_eq_none_iff]
    intro k hk
    have hk' : k ∈ c.lanes i.g := (List.mem_filter.1 hk).1
    rw [h1, List.mem_singleton] at hk'
    subst hk'
    rw [hu, hf]
  refine ⟨_, ?_, moved_finish _ c ((tg.map fun t => (l, t)).toList)⟩
  unfold issueTry
  simp only [r.ready.stands, r.free, Bool.false_eq_true, if_false]
  rw [show s.fresh.1 = s.nextId from rfl, again, run]
  rfl

/-! ### Words that trap -/

theorem Moved.kpc {u t : State} {w : Who} (m : Moved u t w) (l : Nat) : (t.fibre w l).kpc = (u.fibre w l).kpc := by
  have := congrArg Fibre.kpc (m.regs l)
  exact this

theorem groupTraps_one (st : Strand) (l : Nat) (t : Trap) : groupTraps st [(l, t)] = [(t, [l])] := rfl

/-- The end of a word one of whose lanes has trapped. -/
theorem finish_trap (u : State) (c : Cx) (l : Nat) (t : Trap) (tgts : List (Nat × DWord)) :
    ∃ w, Moved u w c.who ∧
      Moved (w.park c.who [l] t (if t.kind = .knot then (u.fibre c.who l).kpc else if t.after then c.next else c.ip) c.ip c.cl.hpc)
        (u.finish c [(l, t)] tgts) c.who := by
  have kpc : ∀ st' : Strand, SameRegs (u.strand c.who) st' → (st'.fibre l).kpc = (u.fibre c.who l).kpc := fun st' h => by
    exact (congrArg Fibre.kpc (h.2 l) : (st'.fibre l).regs.kpc = ((u.strand c.who).fibre l).regs.kpc)
  unfold State.finish
  cases hw : c.who with
  | sup n =>
    refine ⟨u, Moved.refl _ _, ?_⟩
    simp only [State.park]
    exact Moved.refl _ _
  | strand r sid =>
    rw [← hw]
    simp only [hw, groupTraps_one, List.foldl_cons, List.foldl_nil]
    rw [← hw]
    have key : ∀ st' : Strand, st'.own = (u.strand c.who).own ∧ SameRegs (u.strand c.who) st' → ∀ x : DWord,
        x = (if t.kind = .knot then (u.fibre c.who l).kpc else if t.after then c.next else c.ip) →
        ∃ w, Moved u w c.who ∧
          Moved (w.park c.who [l] t (if t.kind = .knot then (u.fibre c.who l).kpc else if t.after then c.next else c.ip) c.ip c.cl.hpc)
            (if c.cl.left ≤ 1 ∧ c.cl.yield = true then ((u.setStrand c.who st').park c.who [l] t x c.ip c.cl.hpc).swapSlot c.who
             else (u.setStrand c.who st').park c.who [l] t x c.ip c.cl.hpc) c.who := by
      rintro st' h x rfl
      refine ⟨_, moved_setStrand u c.who c.who st' h.1 (fun h => absurd rfl h) h.2, ?_⟩
      by_cases hy : c.cl.left ≤ 1 ∧ c.cl.yield = true
      · rw [if_pos hy]; exact moved_swapSlot _ _
      · rw [if_neg hy]; exact Moved.refl _ _
    let ty := fun (i : Nat) (f : Fibre) => if (lanesOf c.path.mask).contains i = true then
        { f with issued := f.issued + 1, noBrk := false, rtry := f.rtry && (!f.noBrk || ([(l, t)] : List (Nat × Trap)).any fun q => decide (q.1 = i)) }
      else f
    have tly : SameRegs (u.strand c.who) { u.strand c.who with fibres := (u.strand c.who).fibres.mapIdx ty } :=
      sameRegs_mapIdx _ _ _ rfl (by intro i x; simp only [ty]; split <;> rfl)
    refine key _ ?_ _ ?_
    · split
      · exact ⟨rfl, tly⟩
      · split
        · have h := sameRegs_split ({ u.strand c.who with fibres := (u.strand c.who).fibres.mapIdx ty, brim := eraseBy Prod.fst c.path.mask (u.strand c.who).brim })
          exact ⟨(h _ _).2, tly.trans (h _ _).1⟩
        · exact ⟨rfl, tly⟩
    · rw [show ([l].headD 0) = l from rfl, kpc _ ?_]
      split
      · exact tly
      · split
        · exact tly.trans (sameRegs_split ({ u.strand c.who with fibres := (u.strand c.who).fibres.mapIdx ty, brim := eraseBy Prod.fst c.path.mask (u.strand c.who).brim }) _ _).1
        · exact tly

theorem none_trap : ∀ (rs : List LaneRes) (k : Nat), (∀ q ∈ rs, q.trap = none) →
    (rs.zipIdx k).filterMap (fun q => q.1.trap.map fun t => (q.2, t)) = []
  | [], _, _ => rfl
  | r :: rs, k, h => by
    simp only [List.zipIdx_cons, List.filterMap_cons, h r (List.mem_cons_self ..), Option.map_none]
    exact none_trap rs (k + 1) fun q hq => h q (List.mem_cons_of_mem _ hq)

theorem one_trap : ∀ (rs : List LaneRes) (k l : Nat) (t : Trap), l < rs.length →
    (∀ j (h : j < rs.length), rs[j].trap = if j = l then some t else none) →
    (rs.zipIdx k).filterMap (fun q => q.1.trap.map fun t => (q.2, t)) = [(k + l, t)]
  | [], _, _, _, hl, _ => by simp at hl
  | r :: rs, k, 0, t, _, h => by
    have h0 := h 0 (by simp)
    simp only [List.getElem_cons_zero, if_true] at h0
    simp only [List.zipIdx_cons, List.filterMap_cons, h0, Option.map_some, Nat.add_zero]
    rw [none_trap]
    intro q hq
    obtain ⟨j, hj, rfl⟩ := List.getElem_of_mem hq
    have := h (j + 1) (by simpa using hj)
    rw [List.getElem_cons_succ, if_neg (by omega)] at this
    exact this
  | r :: rs, k, l + 1, t, hl, h => by
    have h0 := h 0 (by simp)
    simp only [List.getElem_cons_zero] at h0
    rw [if_neg (by omega)] at h0
    simp only [List.zipIdx_cons, List.filterMap_cons, h0, Option.map_none]
    rw [one_trap rs (k + 1) l t (by simpa using hl) (fun j hj => by
      have := h (j + 1) (by simpa using hj)
      rw [List.getElem_cons_succ] at this
      rw [this]
      simp only [Nat.add_right_cancel_iff])]
    simp only [List.cons.injEq, Prod.mk.injEq, and_true]
    omega

/-- A word on registers alone whose only executing lane traps. -/
theorem issue_trap {c : Cx} {i : Iss} {s : State} {l : Nat} {t : Trap} {f : Cx → Nat → Fibre → LaneRes} (r : Ready s c i)
    (h1 : c.lanes i.g = [l]) (hl : l < c.st.fibres.length) (hf : f c l (c.st.fibre l) = .fault (c.st.fibre l) t) :
    ∃ w v, issue i f s = .next v ∧ Moved s w c.who ∧
      Moved (w.park c.who [l] t (if t.kind = .knot then (s.fibre c.who l).kpc else if t.after then c.next else c.ip) c.ip c.cl.hpc) v c.who := by
  obtain ⟨-, hst, -, -, -⟩ := cx_eq r.stands
  have has := cx_has r.stands
  have lane : ∀ k, c.lane i (f c) k (c.st.fibre k) = if k = l then .fault (c.st.fibre l) t else .ok (c.st.fibre k) := by
    intro k
    unfold Cx.lane
    by_cases h : c.path.mask.getLsbD k = true ∧ (c.st.fibre k).guard i.g = true
    · have hm := (mem_lanes c i.g k).2 h
      rw [h1, List.mem_singleton] at hm
      subst hm
      have := r.clear k (by simp [h1])
      simp [h.1, h.2, r.may, this, hf]
    · have hk : k ≠ l := by
        rintro rfl
        exact h ((mem_lanes c i.g k).1 (by simp [h1]))
      rw [if_neg (by simpa using h), if_neg hk]
  let rs := c.st.fibres.mapIdx fun l fb => c.lane i (f c) l fb
  have hrs : ∀ j (h : j < rs.length), rs[j] = if j = l then .fault (c.st.fibre l) t else .ok (c.st.fibre j) := by
    intro j hj
    have hj' : j < c.st.fibres.length := by simpa [rs] using hj
    have : rs[j] = c.lane i (f c) j (c.st.fibre j) := by simp [rs, Strand.fibre, List.getD, hj']
    rw [this, lane]
  have t1 : rs.zipIdx.filterMap (fun q => q.1.trap.map fun t => (q.2, t)) = [(l, t)] := by
    rw [one_trap rs 0 l t (by simpa [rs] using hl)]
    · simp
    · intro j hj; rw [hrs j hj]; split <;> rfl
  have fibs : rs.map LaneRes.fib = c.st.fibres := by
    refine List.ext_getElem (by simp [rs]) fun j h1 h2 => ?_
    rw [List.getElem_map, hrs j (by simpa using h1)]
    have : c.st.fibre j = c.st.fibres[j] := by simp [Strand.fibre, List.getD, h2]
    split
    · rename_i h; subst h; exact this
    · exact this
  have hs : s.setStrand c.who { c.st with fibres := rs.map LaneRes.fib } = s.setStrand c.who (s.strand c.who) := by rw [fibs, hst]
  have m := moved_setStrand s c.who c.who (s.strand c.who) rfl (fun h => absurd rfl h) (SameRegs.refl _)
  obtain ⟨w, m1, m2⟩ := finish_trap (s.setStrand c.who (s.strand c.who)) c l t
    (rs.zipIdx.filterMap fun q => q.1.tgt.map fun t => (q.2, t))
  refine ⟨w, (s.setStrand c.who { c.st with fibres := rs.map LaneRes.fib }).finish c (rs.zipIdx.filterMap fun q => q.1.trap.map fun t => (q.2, t))
      (rs.zipIdx.filterMap fun q => q.1.tgt.map fun t => (q.2, t)), ?_, m.trans m1, ?_⟩
  · simp only [issue, r.stands]
    rfl
  · have hk : ((s.setStrand c.who (s.strand c.who)).fibre c.who l).kpc = (s.fibre c.who l).kpc := Moved.kpc m l
    rw [hk] at m2
    rw [t1, hs]
    exact m2

theorem raised_zero (u : State) (c : Cx) (i : Iss) (tag : Nat) : Moved u (u.raised c i tag 0) c.who := by
  have : (u.strand c.who).raiseDue (c.flag i) tag 0 = u.strand c.who := by unfold Strand.raiseDue; split <;> simp
  unfold State.raised
  rw [this]
  exact moved_setStrand u c.who c.who _ rfl (fun h => absurd rfl h) (SameRegs.refl _)

theorem setFibre_same (u : State) (w : Who) (l : Nat) (f : Fibre) (h : u.fibre w l = f) : Moved u (u.setFibre w l f) w := by
  refine moved_setStrand u w w _ rfl (fun h => absurd rfl h) ⟨by simp [Strand.setFibre], fun k => ?_⟩
  subst h
  by_cases hk : k = l
  · subst hk
    by_cases hl : k < (u.strand w).fibres.length
    · simp [Strand.setFibre, Strand.fibre, List.getD, hl, State.fibre]
    · rw [Strand.setFibre, List.set_eq_of_length_le (Nat.le_of_not_lt hl)]
  · simp [Strand.setFibre, Strand.fibre, List.getD, List.getElem?_set_ne (Ne.symm hk)]

/-- The end of a word whose only executing lane traps. -/
theorem trap_end {c : Cx} {i : Iss} (u : State) {l tag : Nat} {t : Trap} :
    ∃ w, Moved u w c.who ∧
      Moved (w.park c.who [l] t (if t.kind = .knot then (u.fibre c.who l).kpc else if t.after then c.next else c.ip) c.ip c.cl.hpc)
        ((u.raised c i tag 0).finish c [(l, t)] []) c.who := by
  have m := raised_zero u c i tag
  obtain ⟨w, m1, m2⟩ := finish_trap (u.raised c i tag 0) c l t []
  have hk : ((u.raised c i tag 0).fibre c.who l).kpc = (u.fibre c.who l).kpc := Moved.kpc m l
  rw [hk] at m2
  exact ⟨w, m.trans m1, m2⟩

/-- A word whose only executing lane traps; a committing one that resumes after the word is in serial mode by then (R373). -/
theorem issueSt_trap {c : Cx} {i : Iss} {s u : State} {l : Nat} {fb : Fibre} {t : Trap} {f : Cx → Nat → State → Nat → Fibre → LaneFx}
    (r : Free s c i) (h1 : c.lanes i.g = [l]) (hf : f c s.nextId s.fresh.2 l (c.st.fibre l) = ⟨u, .fault fb t, 0⟩) :
    let v := u.setFibre c.who l ((LaneRes.fault fb t).committed i)
    ∃ w x, issueSt i f s = .next x ∧ Moved v w c.who ∧
      Moved (w.park c.who [l] t (if t.kind = .knot then (v.fibre c.who l).kpc else if t.after then c.next else c.ip) c.ip c.cl.hpc) x c.who := by
  obtain ⟨-, hst, -, -, -⟩ := cx_eq r.ready.stands
  have hu0 : s.fresh.2.fibre c.who l = c.st.fibre l := by rw [hst]; cases c.who <;> rfl
  have hz := r.ready.clear l (by simp [h1])
  have run : runLanes c i (f c s.nextId) s.fresh.2 = (u.setFibre c.who l ((LaneRes.fault fb t).committed i), [(l, t)], [], 0) := by
    rw [runLanes_eq, h1]
    simp only [List.foldl_cons, List.foldl_nil, laneStep, hu0, r.ready.may, hz, Bool.false_eq_true, if_false, hf]
    rfl
  obtain ⟨w, m1, m2⟩ := trap_end (c := c) (i := i) (tag := s.nextId) (t := t) (l := l) (u.setFibre c.who l ((LaneRes.fault fb t).committed i))
  refine ⟨w, _, ?_, m1, m2⟩
  unfold issueSt
  simp only [r.ready.stands, r.free, Bool.false_eq_true, if_false]
  rw [show s.fresh.1 = s.nextId from rfl, run]
  rfl

/-- The same for a word whose accesses may have to be repeated. -/
theorem issueTry_trap {c : Cx} {i : Iss} {s u : State} {l : Nat} {fb : Fibre} {t : Trap} {f : Cx → Nat → State → Nat → Fibre → Except State LaneFx}
    (r : Free s c i) (h1 : c.lanes i.g = [l])
    (hf : f c s.nextId (s.fresh.2.as (c.doer s.fresh.2 l)) l (c.st.fibre l) = .ok ⟨u, .fault fb t, 0⟩) :
    let v := (u.as s.agent).setFibre c.who l ((LaneRes.fault fb t).committed i)
    ∃ w x, issueTry i f s = .next x ∧ Moved v w c.who ∧
      Moved (w.park c.who [l] t (if t.kind = .knot then (v.fibre c.who l).kpc else if t.after then c.next else c.ip) c.ip c.cl.hpc) x c.who := by
  obtain ⟨-, hst, -, -, -⟩ := cx_eq r.ready.stands
  have hu0 : s.fresh.2.fibre c.who l = c.st.fibre l := by rw [hst]; cases c.who <;> rfl
  have hz := r.ready.clear l (by simp [h1])
  have run : runLanesTry c i (f c s.nextId) s.fresh.2 = some ((u.as s.agent).setFibre c.who l ((LaneRes.fault fb t).committed i), [(l, t)], [], 0) := by
    rw [runLanesTry_eq, h1]
    simp only [List.foldl_cons, List.foldl_nil, laneTryStep, hu0, r.ready.may, hz, Bool.false_eq_true, if_false, hf]
    rfl
  have again : c.again i (f c s.nextId) s.fresh.2 = none := by
    unfold Cx.again
    rw [if_neg (by simp [r.ready.may]), List.findSome?_eq_none_iff]
    intro k hk
    have hk' : k ∈ c.lanes i.g := (List.mem_filter.1 hk).1
    rw [h1, List.mem_singleton] at hk'
    subst hk'
    rw [hu0, hf]
  obtain ⟨w, m1, m2⟩ := trap_end (c := c) (i := i) (tag := s.nextId) (t := t) (l := l) ((u.as s.agent).setFibre c.who l ((LaneRes.fault fb t).committed i))
  refine ⟨w, _, ?_, m1, m2⟩
  unfold issueTry
  simp only [r.ready.stands, r.free, Bool.false_eq_true, if_false]
  rw [show s.fresh.1 = s.nextId from rfl, again, run]
  rfl

/-- A committed fibre that keeps its place: nothing of the trap has changed it (R82). -/
theorem trapped_same {ins : Instr} {s u : State} {c : Cx} {l : Nat} {t : Trap} (hu : u.fibre c.who l = c.st.fibre l)
    (h : Trapped ins s (u.setFibre c.who l (c.st.fibre l)) c l t) : Trapped ins s u c l t := by
  obtain ⟨w, v, h1, h2, h3⟩ := h
  have m := setFibre_same u c.who l _ hu
  have hk : ((u.setFibre c.who l (c.st.fibre l)).fibre c.who l).kpc = (u.fibre c.who l).kpc :=
    Moved.kpc m l
  rw [hk] at h3
  exact ⟨w, v, h1, m.trans h2, h3⟩

end Sys2Proof.Machine
end

