-- ==== Sys2Proof/Tests/Slice0.lean ====
section
/-! SUPPORT. Tests: ill-formed terms, words that the spec writes out, single steps, and for every statement a state that meets its hypotheses. -/

namespace Sys2Proof.Tests
open Sys2Proof Sys2Proof.Machine
set_option Elab.async false

/-! ### Well-formedness: an ill-formed term for each check (R59, R61, R62, R65 to R69, R84, R91 to R179, R263 to R284, R326 to R354, R412 to R427) -/

/-- A guard that always passes. -/
def gt : Guard := ⟨15, false⟩
/-- An immediate of 32 bits, another, and one of 64 bits. -/
def im : Src := .imm (.i32 7)
/-- Another immediate of 32 bits. -/
def im2 : Src := .imm (.i32 8)
/-- An immediate of 64 bits. -/
def im64 : Src := .imm (.i64 7)
/-- Upper words without anything. -/
def mup : MemUp := ⟨0, .dev, .rlx, .none⟩
/-- A copy without a tie. -/
def cup : CopyUp := ⟨0, false, false, false, false, false, 0, false, 0, false, 0, 0, .add, .i32, false, false, 0, 0, 0⟩
/-- A tile operation without a tie. -/
def tup : TileUp := ⟨0, false, false, false, false, false, 0, 0, 0, 0, 0, false, 0, 0, 0, 0, 0⟩
/-- A float source. -/
def fs (i : BitVec 8) : FSrc := ⟨.w i, false, false⟩

theorem test_wf_refuses_control : [Instr.brx gt im, .ret gt im, .call gt .lat 0, .callx gt .lat (.w 0), .callx gt (.w 0) im, .fork gt .lat (.w 0) (.w 0) 0,
    .fork gt (.w 0) im (.w 0) 0].all (fun i => !i.wf) = true := by decide +kernel

theorem test_wf_refuses_integer : [Instr.iadd gt .i32 false (.w 0) im im2, .iadd gt .i32 false (.w 0) im64 (.w 0), .imadw gt .i64 false (.w 0) (.w 0) (.w 0) (.w 0),
    .imadw gt .i32 false (.w 0) im64 (.w 0) im64, .idiv gt .i16x2 false (.w 0) (.w 0) (.w 0), .irem gt .i8x4 (.w 0) (.w 0) (.w 0), .iabs gt .ui32 false (.w 0) (.w 0),
    .ineg gt .ui64 false (.w 0) (.w 0), .iaddc gt .i32 false false (.w 0) 0 (.w 0) (.w 0), .iaddc gt .ui16x2 false false (.w 0) 0 (.w 0) (.w 0),
    .isad gt .i64 (.w 0) (.w 0) (.w 0) (.w 0), .lea gt .i16x2 0 (.w 0) (.w 0) (.w 0), .and gt .i8x4 (.w 0) (.w 0) (.w 0), .shl gt .i64 (.w 0) im64 im64,
    .bfx gt .i16x2 (.w 0) (.w 0) (.w 0), .bfi gt .i16x2 (.w 0) (.w 0) (.w 0) (.w 0), .popc gt .i8x4 (.w 0) (.w 0), .prmt gt .i64 .n8 (.w 0) (.w 0) (.w 0) (.w 0),
    .isetp gt .nan .i32 .plain 0 (.w 0) (.w 0), .isetp gt .lt .i16x2 .plain 0 (.w 0) (.w 0), .sel gt .i16x2 (.w 0) (.w 0) (.w 0) 0 false,
    .iset gt .nan .i32 false (.w 0) (.w 0) (.w 0), .pmov gt .i64 (.rd (.w 0)), .pmov gt .i32 (.wr im im2)].all (fun i => !i.wf) = true := by decide +kernel

theorem test_wf_refuses_float : [Instr.fadd gt .f64 false .rne (.w 0) (fs 0) (fs 0), .fadd gt .f32 false .sr (.w 0) (fs 0) (fs 0), .fsetp gt .lt .sr .plain 0 (.w 0) (.w 0),
    .dsetp gt .lt .sr .plain 0 (.w 0) (.w 0), .ffma gt .f32 false .rne (.w 0) (fs 0) (fs 0) ⟨.w 0, false, true⟩, .fsqrt gt .f64 .rne (.w 0) (fs 0),
    .frcp gt .f32 false .sr (.w 0) (fs 0), .fclass gt .f64 .rne (.w 0) (.w 0), .fldexp gt .f64 false .rne (.w 0) (fs 0) (.w 0), .dadd gt false .sr (.w 0) (fs 0) (fs 0),
    .dmin gt .sr (.w 0) (fs 0) (fs 0), .dfma gt false .rne (.w 0) (fs 0) (fs 0) ⟨.w 0, false, true⟩, .dsqrt gt .sr (.w 0) (fs 0), .cvt gt .i32 .f32 true .rne (.w 0) (.w 0),
    .pack gt .e4m3 2 false .rne (.w 0) (.w 0) (.w 0) (.w 0), .unpk gt .e4m3 4 (.w 0) (.w 0), .dp4 gt .i8 .e4m3 false (.w 0) (.w 0) (.w 0) (.w 0),
    .dp8 gt .i8 .i8 false (.w 0) (.w 0) (.w 0) (.w 0), .dp2 gt .i8 .i8 false (.w 0) (.w 0) (.w 0) (.w 0), .fscl gt .f64 0 false .rne (.w 0) (.w 0) (.w 0),
    .t3pk gt (.w 0) im im2, .t3up gt false (.w 0) 0 im64, .mov gt .b32 (.w 0) im64, .movs gt (.w 0) 17, .csrw gt .write 0 im64].all (fun i => !i.wf) = true := by decide +kernel

theorem test_wf_refuses_parallel : [Instr.vote gt .mask false false (.p 0) 0 none, .vote gt .some false true (.p 0) 0 none, .vote gt .some false false (.p 0) 0 (some (.w 0)),
    .vote gt .mask false false (.r .lat) 0 none, .vote gt .mask false true (.r (.w 0)) 0 (some .lat), .matchL gt .grp false false (.w 0) 0 (.w 0) none,
    .matchL gt .uni false false .lat 0 (.w 0) none, .matchL gt .uni false false (.w 0) 0 im none, .shfl gt .idx 5 false false (.w 0) 0 (.w 0) (.w 0) none,
    .shfl gt .idx 0 false false .lat 0 (.w 0) (.w 0) none, .reds gt .and .f32 false false false (.w 0) (.w 0) none, .reds gt .add .f32 false true false (.w 0) (.w 0) none,
    .reds gt .add .i32 false false false .lat (.w 0) none, .elect gt false .lat 0 none, .tiedef gt 0 (.rng im im2), .tiedef gt 0 (.lanes im64 (.w 0)), .hbar gt .plain 0 im 0 0,
    .nsleep gt 0 (.w 0) im64 (.w 0)].all (fun i => !i.wf) = true := by decide +kernel

theorem test_wf_refuses_memory : [Instr.ld gt .b32 0 im mup, .ld gt .b32 0 (.w 0) ⟨0, .fib, .rlx, .none⟩, .ld gt .b32 0 (.w 0) ⟨0, .dev, .rel, .none⟩,
    .ldro gt .b32 0 (.w 0) ⟨0, .sys, .rlx, .none⟩, .lds gt .b32 0 (.w 0) mup, .st gt .i8 (.w 0) (.w 0) mup, .st gt .b32 (.w 0) im mup, .st gt .b128 (.w 0) .lat mup,
    .st gt .b32 (.w 0) (.w 0) ⟨0, .dev, .acq, .none⟩, .sts gt .b32 (.w 0) (.w 0) mup, .pfch gt false false im 0, .atom gt .and .f32 none (.w 0) (.w 0) mup,
    .atom gt .add .ui32 none (.w 0) im mup, .atom gt .add .ui32 none (.w 0) (.w 0) ⟨0, .fib, .rlx, .none⟩, .atoms gt .add .ui32 none (.w 0) (.w 0) mup,
    .cas gt .ui8 0 (.w 0) (.w 0) (.w 0) mup, .cas gt .b32 0 (.w 0) im (.w 0) mup, .lockl gt .lat (.w 0) 0, .unlkl gt (.w 0) im 0, .cwb gt im 0, .cinv gt im 0].all (fun i => !i.wf) = true := by
  decide +kernel

theorem test_wf_refuses_engines : [Instr.shpw gt (.base im) 0, .xcp gt none im (.w 0) (.w 0) cup, .xcp gt none (.w 0) .lat (.w 0) cup, .xcp gt none (.w 0) (.w 0) (.w 1) cup,
    .xcp gt none (.w 0) (.w 0) (.w 0) { cup with is := 1 }, .xcp gt none (.w 0) (.w 0) (.w 0) { cup with sat := true }, .xgath gt none (.w 0) (.w 0) (.w 0) { cup with ro := true },
    .xscat gt none (.w 0) (.w 0) (.w 0) { cup with ro := true }, .xred gt none (.w 0) (.w 0) (.w 0) { cup with rop := .min, sat := true },
    .xfill gt none (.w 0) (.w 0) { cup with ss := 1 }, .tlwait gt 6 (.w 0), .tlwait gt 0 im, .bari gt im (.w 0) ⟨false, 0, 0⟩, .bara gt 0 im ⟨false, 0, 0⟩,
    .barex gt (.w 0) im ⟨false, 0, 0⟩, .barw gt 0 im (.w 0) ⟨false, 0, 0⟩, .tcfg gt 0 im, .tld gt none im (.w 0) tup, .tst gt none (.w 0) (.w 1) tup, .tzero gt none (.w 1) tup,
    .mma gt false false false false false none (.w 1) tup, .tew gt .add false none (.w 1) tup, .tcvt gt false .rne none (.w 1) tup, .tred gt .add none (.w 1) tup,
    .trow gt none im tup].all (fun i => !i.wf) = true := by decide +kernel

theorem test_wf_refuses_system : [Instr.gdef gt 0 0 (.define im (.w 0)), .gld gt 0 0 im (.w 0), .gld gt 0 0 (.w 0) .lat, .gst gt 0 (.w 0) (.w 0) im, .gstep gt false none 0 im (.w 0),
    .gwait gt 0 (.w 0) im (.w 0), .gstat gt 0 0 (.w 0) (.face im), .gstat gt 0 0 im .com, .sigret gt im, .rft gt .lat (.w 0), .rqpop gt .lat 0 (.w 0), .replay gt 0 im .kill,
    .replay gt 0 (.w 0) (.hdr im), .smovr gt .va false .ui8 (.w 0) 0 (.w 0) (.w 0) 0, .smovr gt .va false .b32 .lat 0 (.w 0) (.w 0) 0, .smovw gt .va false .b32 0 (.w 0) im (.w 0) 0,
    .sigpost gt 0 im (.w 0), .ptinv gt false im (.w 0) false 0, .haltc gt .halt .lat (.w 0)].all (fun i => !i.wf) = true := by decide +kernel

theorem test_wf_accepts : [Instr.iadd gt .i32 false (.w 0) im im, .iadd gt .i64 false (.w 0) im64 (.w 0), .vote gt .some false true (.p 0) 0 (some (.w 0)), .ld gt .b32 0 (.w 0) mup,
    .xcp gt none (.w 0) (.w 4) (.w 0) cup, .mma gt false false false false false none (.w 0) tup, .haltc gt .halt (.w 0) (.c 0)].all Instr.wf = true := by decide +kernel

/-! ### Decoding: words that the spec writes out (R58 to R70) -/

/-- Chapter 3's worked loop. -/
theorem test_decode_fadd : decodeTableWord 64 0x00A00B34200AF400 = some (.fadd gt .f32 false .dyn (.w 5) ⟨.lat, false, false⟩ ⟨.c 38, false, false⟩) := by decide +kernel
/-- Chapter 4's CALL. -/
theorem test_decode_call : decodeTableWord 96 0x000003F0000000000028F00D = some (.call gt (.w 20) 0x3F0) := by decide +kernel
/-- Chapter 4's RET. -/
theorem test_decode_ret : decodeTableWord 64 0x000000005000F014 = some (.ret gt (.w 20)) := by decide +kernel
/-- Chapter 7's SHFL. -/
theorem test_decode_shfl : decodeTableWord 64 0x0A400A08140EF810 = some (.shfl gt .hi 4 false false (.w 7) 1 (.w 5) (.c 1) none) := by decide +kernel
/-- Chapter 13's ATOMS. -/
theorem test_decode_atoms : decodeTableWord 128 0x0000000100000000_09000A0884001A0A = some (.atoms ⟨1, false⟩ .add .ui32 none (.w 33) (.c 1) ⟨0, .rope, .rlx, .none⟩) := by
  decide +kernel
/-- Chapter 14's NSLEEP, its low word by R58 (chapter 14 prints one digit too many before it). -/
theorem test_decode_nsleep : decodeTableWord 96 0xFFFFFFFF_001F0A003002F829 = some (.nsleep gt 1 (.w 12) (.c 0) (.imm (.i32 0xFFFFFFFF))) := by decide +kernel
/-- Chapter 17's MMA with .na. -/
theorem test_decode_mma : decodeTableWord 128 0x0800000000004314_802000000000FC12 =
    some (.mma gt true false false false false none (.w 0) { tup with tie := true, tq := 4, tb := 3, ta := 1, td := 4 }) := by decide +kernel
/-- Chapter 20's SMOVW to a window. -/
theorem test_decode_smovw : decodeTableWord 128 0x0000000100000000_1880CA850000FE26 = some (.smovw gt .win false .b32 3 (.c 0) (.c 16) (.w 12) 0) := by decide +kernel
/-- Chapter 22's KNOT and FDIV. -/
theorem test_decode_knot_fdiv : decodeTableWord 128 0x000000000000000F_000000000000FE0A = some (.knot gt 15 0 0) ∧
    decodeTableWord 64 0x00A000F8783CF414 = some (.fdiv gt .f32 false .dyn (.w 30) (fs 30) (fs 31)) := by decide +kernel
/-- Chapter 27's GWAIT. -/
theorem test_decode_gwait : decodeTableWord 128 0x0014F04D0800FD12 = some (.gwait gt 0 (.w 9) (.c 15) (.c 2)) := by decide +kernel
/-- A length class that the opcode does not have, a reserved bit, an unassigned index, a window register beyond the rope's. -/
theorem test_decode_refuses : decodeBytes true true 16 (leBytes 16 0x00000A082412F101) = .error .length ∧ decodeBytes true true 16 (leBytes 16 0x20000A082412F100) = .error .reserved ∧
    decodeBytes true true 16 (leBytes 16 0xFF00) = .error .opcode ∧ decodeBytes true true 8 (leBytes 16 0x00000A082412F100) = .error .window ∧
    decodeBytes true true 16 (leBytes 16 3) = .error .wordkind := by decide +kernel
/-- The encoder gives chapter 3's IADD. -/
theorem test_encode_iadd : encode (.iadd gt .i32 false (.w 9) (.w 9) (.c 1)) = some (leBytes 8 0x00000A082412F100) := by decide +kernel

/-! ### One fibre at one word -/

/-- The strand of the placed rope. -/
def w0 : Who := .strand ⟨0, 0⟩ 0
/-- A device in READY whose one fibre stands at a word. -/
def s0 : State := { State.reset.withFetchWord 64 0xF000 with cur := some w0 }
/-- The supervisor strand of core 0 at a word. -/
def sv : State := { State.reset.withFetchWord 64 0xFE18 with cur := some (.sup 0) }
/-- A state with its fibre changed. -/
def fib (s : State) (g : Fibre → Fibre) : State := s.setFibre w0 0 (g (s.fibre w0 0))
/-- A state with its rope changed. -/
def rop (s : State) (g : Rope → Rope) : State := { s with ropes := s.ropes.map g }
/-- Window registers of the fibre from w0. -/
def regs (l : List Nat) (f : Fibre) : Fibre := { f with win := l.map (BitVec.ofNat 32) ++ List.replicate (256 - l.length) 0 }
/-- A fibre of a next state, or an empty one. -/
def after (s : State) (i : Instr) (p : State → Fibre → Bool) : Bool :=
  match exec i s with
  | .next t => p t (t.fibre w0 0)
  | _ => false

/-- The word of i stands to be issued in s, free, with the lanes ls, and p holds. -/
def meets (s : State) (i : Iss) (ls : List Nat) (p : Cx → Bool) : Bool :=
  match s.cx? i.len with
  | none => false
  | some c => !c.barred i && ((c.lanes i.g).all fun l => !(c.st.fibre l).hazard i.uses) && !s.stalls c i && decide (c.lanes i.g = ls) && p c

theorem meets_spec {s : State} {i : Iss} {ls : List Nat} {p : Cx → Bool} (h : meets s i ls p = true) :
    ∃ c, Free s c i ∧ c.lanes i.g = ls ∧ p c = true := by
  unfold meets at h
  split at h
  · cases h
  · rename_i c hc
    simp only [Bool.and_eq_true, Bool.not_eq_true', decide_eq_true_eq, List.all_eq_true] at h
    obtain ⟨⟨⟨⟨h1, h2⟩, h3⟩, h4⟩, h5⟩ := h
    exact ⟨c, ⟨⟨hc, h1, fun l hl => by simpa using h2 l hl⟩, h3⟩, h4, h5⟩

/-! ### Single steps: values worked by hand from the rules -/

/-- R91's examples: IMUL.i32 of 0x10000 and 0x10000 gives 0, with .sat 0x7FFFFFFF; IMULH.ui32 of them gives 1. -/
theorem test_imul : ([.imul gt .i32 false (.w 8) (.w 0) (.w 0), .imul gt .i32 true (.w 8) (.w 0) (.w 0), .imulh gt .ui32 (.w 8) (.w 0) (.w 0)].zip [0, 0x7FFFFFFF, 1]).all (fun q =>
    after (fib s0 (regs [0x10000])) q.1 fun _ f => f.reg 8 == q.2) = true := by decide +kernel
/-- R92's example: the wide sum of 0xFFFFFFFF × 0xFFFFFFFF + 1. -/
theorem test_imadw : after (fib s0 (regs [0xFFFFFFFF, 0, 1])) (.imadw gt .ui32 false (.w 8) (.w 0) (.w 0) (.w 2)) (fun _ f => f.reg 8 == 2 && f.reg 9 == 0xFFFFFFFE) = true := by
  decide +kernel
/-- R93's examples: −7 / 2 = −3, the least number over −1 wraps, 5 / 0 is all ones. The destination is a source. -/
theorem test_idiv : ([(0xFFFFFFF9, 2, 0xFFFFFFFD), (0x80000000, 0xFFFFFFFF, 0x80000000), (5, 0, 0xFFFFFFFF)] : List (Nat × Nat × Nat)).all (fun q =>
    after (fib s0 (regs [q.1, q.2.1])) (.idiv gt .i32 false (.w 0) (.w 0) (.w 1)) fun _ f => f.reg 0 == q.2.2) = true := by decide +kernel
/-- 1 + 2^−24 lies half way between 1 and its successor, and rounds to even. -/
theorem test_fadd_ties_to_even : after (fib s0 (regs [0x3F800000, 0x33800000])) (.fadd gt .f32 false .rne (.w 8) (fs 0) (fs 1)) (fun _ f => f.reg 8 == 0x3F800000) = true := by
  decide +kernel
/-- A lane whose guard fails writes nothing, and the program counter passes the word. -/
theorem test_guard_off : after (fib s0 (regs [5])) (.iadd ⟨0, false⟩ .i32 false (.w 0) (.w 0) (.w 0)) (fun t f =>
    f.reg 0 == 5 && (t.strand w0).cur.any fun p => p.pc == 0x1010 && p.cl.isNone) = true := by decide +kernel
/-- R70, R364: a supervisor's word in user mode parks the fibre with ILLEGAL, cause 5. -/
theorem test_privileged_traps : after s0 (.rft gt (.w 0) (.w 2)) (fun t f => f.st == .parked 0 &&
    (t.core 0).rq.any fun e => e.cls == .illegal && e.info == 5 && e.rpc == 0x1008) = true := by decide +kernel
/-- A placed word is fetched, decoded and run by a step. -/
theorem test_step_runs : (match step (State.reset.withFetchWord 64 0x00000A082412F100) with
    | .next t => (t.strand w0).cur.any fun p => p.pc == 0x1010
    | _ => false) = true := by decide +kernel
/-! ### Witnesses: the statements on words of registers alone -/

theorem wit_IntegerResults : (∃ c, Free s0 c (aluIss gt true (some (.w 2)) [(.i .i64, .w 0), (.i .i64, im64)]) ∧ c.lanes gt = [0] ∧ true = true) ∧ IType.scalar .ui32 = true :=
  ⟨meets_spec (by decide +kernel), rfl⟩
theorem wit_ImadwWritesTheWideSum : ∃ c, Free s0 c (aluIss gt true (some (.w 8)) [(.i .ui32, .w 0), (.i .ui32, im), (.i .ui64, .w 4)]) ∧ c.lanes gt = [0] ∧ true = true :=
  meets_spec (by decide +kernel)
/-- A divisor of zero without IDZE, and one other than zero with it. -/
theorem wit_DivisionResults : (∃ c, Free s0 c (aluIss gt false (some (.w 8)) [(.i .ui32, .w 0), (.i .ui32, .w 1)]) ∧ c.lanes gt = [0] ∧
      (decide ((c.st.fibre 0).src (.i .ui32) (.w 1) = 0) && !(c.st.fibre 0).intctl.getLsbD 0) = true) ∧
    (∃ c, Free (fib s0 fun f => { regs [9, 2] f with intctl := 1 }) c (aluIss gt false (some (.w 8)) [(.i .ui32, .w 0), (.i .ui32, .w 1)]) ∧ c.lanes gt = [0] ∧
      (decide ((c.st.fibre 0).src (.i .ui32) (.w 1) ≠ 0) && (c.st.fibre 0).intctl.getLsbD 0) = true) :=
  ⟨meets_spec (by decide +kernel), meets_spec (by decide +kernel)⟩
theorem wit_LogicIsBitByBit : (∃ c, Free s0 c (aluIss gt true (some (.n 0)) [(.i .ui64, .lat), (.i .ui64, .c 1)]) ∧ c.lanes gt = [0] ∧ true = true) ∧ 63 < iw .ui64 :=
  ⟨meets_spec (by decide +kernel), by decide⟩
theorem wit_BitResults : (∃ c, Free s0 c (aluIss gt false (some (.w 255)) [(.i .i32, .w 0), (shiftPos .i32, .w 1)]) ∧ c.lanes gt = [0] ∧ true = true) ∧ 31 < iw .i32 :=
  ⟨meets_spec (by decide +kernel), by decide⟩
/-- Also of a comparison that raises no enabled condition. -/
theorem wit_CompareResults : (∃ c, Free s0 c { len := 8, g := gt, uses := [] } ∧ c.lanes gt = [0] ∧ true = true) ∧
    ∃ c, Free s0 c (aluIss gt false none [(.f .f32, .w 0), (.f .f32, im)]) ∧ c.lanes gt = [0] ∧
      (!(c.st.fibre 0).traps (vFcmp .f32 .lt (c.st.fibre 0).ftz ((c.st.fibre 0).src (.f .f32) (.w 0)) ((c.st.fibre 0).src (.f .f32) im)).2) = true :=
  ⟨meets_spec (by decide +kernel), meets_spec (by decide +kernel)⟩
theorem wit_FloatResults : ∃ c, Free s0 c (aluIss gt false (some (.w 0)) [(.f .f32, (fs 1).src), (.f .f32, (fs 2).src)]) ∧ c.lanes gt = [0] ∧
      (!(c.st.fibre 0).traps (vFadd .f32 (fenv (c.st.fibre 0) .dyn false (fs 1) (fs 2) noF) ((c.st.fibre 0).src (.f .f32) (.w 1)) ((c.st.fibre 0).src (.f .f32) (.w 2))).2) = true :=
  meets_spec (by decide +kernel)
/-- Infinity less infinity with its condition enabled, and a division by zero under IDZE. -/
theorem wit_ArithmeticTraps : (∃ c, Free (fib s0 fun f => { regs [0x7F800000, 0xFF800000] f with fpctl := 0xFFFFFFFC }) c
        (aluIss gt false (some (.w 8)) [(.f .f32, (fs 0).src), (.f .f32, (fs 1).src)]) ∧ c.lanes gt = [0] ∧
      (decide (0 < c.st.fibres.length) &&
        (c.st.fibre 0).traps (vFadd .f32 (fenv (c.st.fibre 0) .rne false (fs 0) (fs 1) noF) ((c.st.fibre 0).src (.f .f32) (.w 0)) ((c.st.fibre 0).src (.f .f32) (.w 1))).2) = true) ∧
    ∃ c, Free (fib s0 fun f => { f with intctl := 1 }) c (aluIss gt false (some (.w 8)) [(.i .i32, .w 0), (.i .i32, .w 1)]) ∧ c.lanes gt = [0] ∧
      (decide (0 < c.st.fibres.length) && decide ((c.st.fibre 0).src (.i .i32) (.w 1) = 0) && (c.st.fibre 0).intctl.getLsbD 0) = true :=
  ⟨meets_spec (by decide +kernel), meets_spec (by decide +kernel)⟩
theorem wit_ConversionResults : ∃ c, Free s0 c (aluIss gt (CFmt.is64 .f64) (some (.w 2)) [(.c .f32, .w 0)]) ∧ c.lanes gt = [0] ∧
      (!c.who.isSup && !(c.st.fibre 0).traps (vCvt .f64 .f32 ((c.st.fibre 0).rc .sr) false (c.st.fibre 0).ftz
        (drawOf (s0.srState c.who c.st.srseed (c.st.fibre 0).cnt) 0 0) ((c.st.fibre 0).src (.c .f32) (.w 0))).2) = true :=
  meets_spec (by decide +kernel)
theorem wit_MoveResults : (∃ c, Free s0 c { len := 8, g := gt, uses := useD (nw false) (.w 2) } ∧ c.lanes gt = [0] ∧ (s0.special c.who 0 14).isSome = true) ∧
    ∃ c, Free s0 c { len := 8, g := gt, uses := useD (nw (csr64 0)) (.w 2) } ∧ c.lanes gt = [0] ∧
      (match csrFor c.who 0 with
        | .ok r => (s0.csrRead c.who (c.st.fibre 0) r).isSome
        | .error _ => false) = true :=
  ⟨meets_spec (by decide +kernel), meets_spec (by decide +kernel)⟩
/-- A special register of the placed rope; and a control register that may be written. -/
theorem wit_SpecialRegisters : (s0.rope? ⟨0, 0⟩).isSome = true ∧ ∃ c, Free s0 c (aluIss gt false none [(.i .ui32, .w 0)]) ∧ c.lanes gt = [0] ∧
      (match csrFor c.who 0 with
        | .ok r => (s0.csrRead c.who (c.st.fibre 0) r).isSome && !csrForbidden r (csrNew .write ((s0.csrRead c.who (c.st.fibre 0) r).getD 0) ((c.st.fibre 0).src (.i .ui32) (.w 0)))
        | .error _ => false) = true :=
  ⟨by decide +kernel, meets_spec (by decide +kernel)⟩

/-- The placed fibre in a clause of two words. -/
def s2 : State := s0.setStrand w0 { s0.strand w0 with cur := (s0.strand w0).cur.map fun p => { p with cl := p.cl.map fun c => { c with left := 2 } } }
/-- The placed rope with a second strand. -/
def sf : State := rop s0 fun r => { r with size := 2, strands := r.strands.map fun st => { st with fibres := (st.fibres ++ List.replicate 32 Fibre.vacant).take 32 } }

/-- YIELD inside a clause; FORK to the header of the placed clause; FEND. -/
theorem wit_NopAndYield : (∃ c, Free s2 c { len := 8, g := gt, uses := [] } ∧ c.lanes gt = [0] ∧
      (decide (1 < c.cl.left) && (lanesOf c.path.mask).any fun l => decide ((c.st.fibre l).st = .live)) = true) ∧
    (∃ c, Free sf c { len := 12, g := gt, uses := useD 1 (.w 0) ++ useS 1 (.w 1) ++ useS 1 (.w 2), commit := true, rope := true } ∧ c.lanes gt = [0] ∧
      (decide (c.who = .strand ⟨0, 0⟩ 0 ∧ (c.st.fibre 0).st = .live ∧ (sf.atLane c 0).target c.who (c.ip + (-8#32).signExtend 64) = ((sf.atLane c 0), .header)) &&
        ((sf.rope? ⟨0, 0⟩).any fun r => decide (2 ≤ r.size) && (List.range r.strands.length).all fun k => decide ((r.strands.getD k Strand.init).fibres.length = 32))) = true) ∧
    ∃ c, Free s0 c { len := 8, g := gt, uses := [], commit := true, rope := true } ∧ c.lanes gt = [0] ∧ decide (c.who = .strand ⟨0, 0⟩ 0) = true :=
  ⟨meets_spec (by decide +kernel), meets_spec (by decide +kernel), meets_spec (by decide +kernel)⟩
/-- A branch back to the placed clause's header, whose line is at hand. -/
theorem wit_BranchesGoToTheirTargets : ∃ c, Free s0 c { len := 12, g := gt, uses := [] } ∧ c.lanes gt = [0] ∧
      decide ((s0.atLane c 0).target c.who (c.ip + (-8#32).signExtend 64) = ((s0.atLane c 0), .header) ∧ c.cl.left ≤ 1 ∧ c.cl.yield = false ∧ lanesOf c.path.mask = [0] ∧ (c.st.fibre 0).st = .live) = true :=
  meets_spec (by decide +kernel)
theorem wit_CollectiveResults : ∃ c, Free s0 c { len := 8, g := gt, uses := useD (nw (redsWide .f32)) (.w 0) ++ useS (nw (redsWide .f32)) (.w 1) ++ useGate none } ∧ c.lanes gt = [0] ∧
      (decide (redsF .f32 = some .f32 ∧ redsF .i32 = none) && !(c.st.fibre 0).traps (ftzOut .f32 (c.st.fibre 0).ftz
        (redsFloat .f32 .add true s0.picks ((c.lanes gt).map fun k => ftzP .f32 (c.st.fibre k).ftz ((c.st.fibre k).src (redsPos .f32) (.w 1)))).2).2) = true :=
  meets_spec (by decide +kernel)
theorem wit_ElectNamesTheLowestLane : ∃ c, Free s0 c { len := 8, g := gt, uses := useD 1 (.w 0) ++ useGate (if true then some (.c 1) else none) } ∧ c.lanes gt = [0] ∧
      (c.lanes gt).contains 0 = true :=
  meets_spec (by decide +kernel)

/-- The placed rope with its fibre expected at tie 2, and the same with the fibre's signature. -/
def st_ (signed : List Nat) : State := rop s0 fun r => { r with ties := r.ties.set 2 { Tie.init with expected := [0], signed := signed } }
/-- The placed fibre's page, readable and writable. -/
def sw : State := { s0 with tlb := (List.range 96).map fun k => ⟨k, 0, 0, false, 0x31F, 0⟩ }
/-- A translation has come out. -/
def isOk : XRes → Bool
  | .ok _ => true
  | _ => false

/-- A set by range; a first and a second signature; a barrier round that opens; a word to sleep on. -/
theorem wit_SynchronisingWords : (∃ c, Free s0 c { len := 8, g := gt, uses := useS 1 (.w 0) ++ useS 1 (.w 1), rope := true } ∧ c.lanes gt = [0] ∧ true = true) ∧
    (∃ c, Free (st_ []) c { len := 8, g := gt, uses := [], commit := true, rope := true, access := true } ∧ c.lanes gt = [0] ∧
      (((st_ []).tie ⟨0, 0⟩ 2).expected.contains 0 && !((st_ []).tie ⟨0, 0⟩ 2).signed.contains 0) = true) ∧
    (∃ c, Free (st_ [0]) c { len := 8, g := gt, uses := [], commit := true, rope := true, access := true } ∧ c.lanes gt = [0] ∧
      (((st_ [0]).tie ⟨0, 0⟩ 2).expected.contains 0 && ((st_ [0]).tie ⟨0, 0⟩ 2).signed.contains 0) = true) ∧
    (∃ c, Free s0 c { len := 8, g := gt, uses := useS 1 (.c 1), commit := true, rope := true, access := true, rel := true } ∧ c.lanes gt = [0] ∧
      ((s0.rope? ⟨0, 0⟩).any fun rp => ((rp.openRound (s0.hbar ⟨0, 0⟩ 7) 1).arrive 0 .and 1 3 true).isSome) = true) ∧
    ∃ c, Free sw c { len := 8, g := gt, uses := useS 2 (.w 0) ++ useS 1 (.w 2) ++ useS 1 (.w 3), access := true } ∧ c.lanes gt = [0] ∧
      (decide (sw.ctxOf c.who = some 0 ∧ globalCheck .load 4 0 = none) &&
        isOk ((sw.atLane c 0).early { accOf (c.who.lane 0) 0 0 4 (.ld .b32) c.ip c.cl.hpc with scope := .dev } true).2) = true :=
  ⟨meets_spec (by decide +kernel), meets_spec (by decide +kernel), meets_spec (by decide +kernel), meets_spec (by decide +kernel), meets_spec (by decide +kernel)⟩
/-- The placed fibre asleep on a word that differs, with a deadline that has come, and without one. -/
def sl (v : Word) (d : Option Nat) : State := fib { sw with tlb := sw.tlb, gtime := 5 } fun f => { f with wait := some (.sleep 0x1000 v d 1 0x1008 0x1000) }
theorem wit_SleepersWake : (match (sl 9 none).fibreLoad ⟨⟨0, 0⟩, 0, 0⟩ 0 0x1000 4 with
      | (_, .ok b) => decide (leNat b ≠ 9)
      | _ => false) = true ∧ (sl 9 none).ctxOf w0 = some 0 ∧
    (match (sl 0x400003 (some 5)).fibreLoad ⟨⟨0, 0⟩, 0, 0⟩ 0 0x1000 4 with
      | (u, .ok b) => decide (leNat b = 0x400003 ∧ 5 ≤ u.gtime ∧ ((sl 0x400003 none).fibre w0 0).sel = none)
      | _ => false) = true := by decide +kernel
/-! ### Witnesses: memory words -/

/-- The page is readable and writable, and the fibre in serial mode. -/
def ss : State := fib sw fun f => { f with serial := true }
/-- A load outside serial mode, and one of a fibre in serial mode whose page is mapped. -/
theorem wit_LoadsStart : (∃ c, Free s0 c { len := 16, g := gt, uses := useW (Width.words .b128) (some 4) ++ useS 2 (.w 0), flag := some false } ∧ c.lanes gt = [0] ∧
      (!c.who.isSup && !(c.st.fibre 0).serial && (globalCheck .load 16 ((c.st.fibre 0).gea (.w 0) 16)).isNone) = true) ∧
    ∃ c, Free ss c { len := 16, g := gt, uses := useW (Width.words .b32) (some 4) ++ useS 2 (.w 0), flag := some false } ∧ c.lanes gt = [0] ∧
      (!c.who.isSup && (c.st.fibre 0).serial && (globalCheck .load 4 ((c.st.fibre 0).gea (.w 0) 0)).isNone &&
        isOk ((ss.atLane c 0).early { accessOf ss c 0 (.w 0) mup 4 (.ld .b32) with wd := some (4, 1), tag := some ss.nextId } true).2) = true :=
  ⟨meets_spec (by decide +kernel), meets_spec (by decide +kernel)⟩
theorem wit_SupervisorAccesses : (∃ c, Free sv c { len := 16, g := gt, uses := useW (Width.words .b32) (some 4) ++ useS 2 (.w 8), flag := some false } ∧ c.lanes gt = [0] ∧
      (decide (c.who = .sup 0) && (globalCheck .load 4 ((c.st.fibre 0).gea (.w 8) 8)).isNone) = true) ∧
    ∃ c, Free sv c { len := 16, g := gt, uses := useS 2 (.w 8) ++ useS (Width.words .b32) (.w 4) } ∧ c.lanes gt = [0] ∧
      (decide (c.who = .sup 0) && (globalCheck .store 4 ((c.st.fibre 0).gea (.w 8) 8)).isNone) = true :=
  ⟨meets_spec (by decide +kernel), meets_spec (by decide +kernel)⟩
/-- Fifteen held stores, and a fibre in serial mode. -/
theorem wit_StoresAreHeld : (∃ c, Free (s0.setStrand w0 { s0.strand w0 with held := 15 }) c { len := 16, g := gt, uses := useS 2 (.w 0) ++ useS (Width.words .b32) (.w 2) } ∧
      c.lanes gt = [0] ∧ (!c.who.isSup && decide (c.st.held < 16 ∧ s0.sqUsed c.who < 16) && !(c.st.fibre 0).serial && (globalCheck .store 4 ((c.st.fibre 0).gea (.w 0) 0)).isNone) = true) ∧
    ∃ c, Free ss c { len := 16, g := gt, uses := useS 2 (.w 0) ++ useS (Width.words .b32) (.w 2) } ∧ c.lanes gt = [0] ∧
      (!c.who.isSup && (c.st.fibre 0).serial && (globalCheck .store 4 ((c.st.fibre 0).gea (.w 0) 0)).isNone &&
        isOk ((ss.atLane c 0).early { accessOf ss c 0 (.w 0) mup 4 .st with data := (c.st.fibre 0).storeBytes .b32 (.w 2) } true).2) = true :=
  ⟨meets_spec (by decide +kernel), meets_spec (by decide +kernel)⟩
/-- The last bytes of the scratchpad; an atomic that writes; its memory in canonical form. -/
theorem wit_ScratchpadWords : (∃ c, Free (fib s0 (regs [4080])) c { len := 16, g := gt, uses := useW (Width.words .b128) (some 4) ++ useS 1 (.w 0), flag := some false, rope := true, access := true } ∧
      c.lanes gt = [0] ∧ ((s0.myRope c.who).any fun rp => (scratchCheck rp.spadA 16 ((c.st.fibre 0).sea (.w 0) 0)).isNone) = true) ∧
    (∃ c, Free (fib s0 (regs [4080])) c { len := 16, g := gt, uses := useS 1 (.w 0) ++ useS (Width.words .b128) (.w 4), rope := true, access := true, rel := releases .rel } ∧
      c.lanes gt = [0] ∧ ((s0.myRope c.who).any fun rp => (scratchCheck rp.spadA 16 ((c.st.fibre 0).sea (.w 0) 0)).isNone) = true) ∧
    (∃ c, Free s0 c { len := 16, g := gt, uses := useW (atomWords .ui32) (some 4) ++ useS 1 (.w 0) ++ useS (atomWords .ui32) (.w 1), commit := true, flag := some false, rope := true, access := true, rel := releases .rlx } ∧ c.lanes gt = [0] ∧ (atomDo (.rmw .add .ui32 1) [0, 0, 0, 0]).2.isSome = true) ∧
    (s0.rope? ⟨0, 0⟩).any (fun rp => Memory.wf rp.spad) = true :=
  ⟨meets_spec (by decide +kernel), meets_spec (by decide +kernel), meets_spec (by decide +kernel), by decide +kernel⟩
/-- ATOM without a result and CAS with one, of a page that is mapped for writes. -/
theorem wit_AtomicsStart : (∃ c, Free sw c { len := 16, g := gt, uses := useW 1 none ++ useS 2 (.w 0) ++ useS 1 (.w 2), commit := true, flag := atomFlag none } ∧ c.lanes gt = [0] ∧
      (!c.who.isSup && (globalCheck .atomic (atomSize (.rmw .add .ui32 0)) ((c.st.fibre 0).gea (.w 0) 0)).isNone &&
        isOk ((sw.atLane c 0).early (accessOf sw c 0 (.w 0) mup 4 (.atom (.rmw .add .ui32 0) true)) true).2) = true) ∧
    ∃ c, Free sw c { len := 16, g := gt, uses := useW (Width.words .b64) (some 8) ++ useS 2 (.w 0) ++ useS (Width.words .b64) (.w 2) ++ useS (Width.words .b64) (.w 4), commit := true, flag := atomFlag (some 8) } ∧
      c.lanes gt = [0] ∧ (!c.who.isSup && isOk ((sw.atLane c 0).early { accessOf sw c 0 (.w 0) mup 8 (.atom (.cas 8 (List.replicate 8 0) (List.replicate 8 0)) false) with wd := some (8, 2), tag := some sw.nextId } true).2) = true :=
  ⟨meets_spec (by decide +kernel), meets_spec (by decide +kernel)⟩
/-- Later than the cycle of everything seen. -/
def sf5 : State := { sw with gtime := 5 }
/-- A FENCE with nothing open, in each group of scopes; a line for LOCKL, UNLKL, CWB and CINV; PFCH without a choice. -/
theorem wit_FencesLocksAndLines : (∃ c, Free sf5 c { len := 8, g := gt, uses := [], commit := true } ∧ c.lanes gt = [0] ∧
      (decide (sf5.ctxOf c.who = some 0) && sf5.fenced (c.who.lane 0) .coil && sf5.fenced (c.who.lane 0) .sys && (sf5.widePush (c.who.lane 0)).isNone) = true) ∧
    (∃ c, Free sw c { len := 16, g := gt, uses := useD 1 (.w 4) ++ useS 2 (.w 0), commit := true } ∧ c.lanes gt = [0] ∧
      (decide ((c.st.fibre 0).gea (.w 0) 0 < 2 ^ 54) && isOk ((sw.atLane c 0).translate (clusterOf c.who.core) 0 0 .load true).2 && (match ((sw.atLane c 0).canonical 0 0 0).2 with
        | .ok _ => true
        | _ => false)) = true) ∧
    (∃ c, Free sw c { len := 16, g := gt, uses := useS 2 (.w 0), commit := true, access := true } ∧ c.lanes gt = [0] ∧
      (match (sw.atLane c 0).canonical 0 0 0 with
        | (u, .ok x) => (u.window? x.cctx x.cva).isNone && !u.isDirect x false && !u.lineOpen (c.who.lane 0) x.line && (u.cinvLine (c.who.lane 0) 0 0 x).isSome
        | _ => false) = true) ∧
    ∃ c, Free sw c { len := 16, g := gt, uses := useS 2 (.w 0) } ∧ c.lanes gt = [0] ∧ decide (sw.picks.headD 0 = 0) = true :=
  ⟨meets_spec (by decide +kernel), meets_spec (by decide +kernel), meets_spec (by decide +kernel), meets_spec (by decide +kernel)⟩
/-- A context with a quota of one lock, with the lock and without. -/
def lk (ls : List (Nat × LineId)) (n q : Nat) : State := { s0 with ctxs := s0.ctxs.map fun c => { c with lquota := q, locks := n }, locks := ls }
/-- A local translation. -/
def xl0 : Xl := { cctx := 0, cva := 0, loc := .hbm 0, mode := 0, key := 0, rd := true, w := true, x := false, sup := false, lent := false, own := none }
theorem wit_LocksAreHeldAndReleased : ([lk [] 0 1, lk [(0, xl0.line)] 1 1, lk [] 1 1].all fun s => (s.ctx? 0).isSome && !s.isDirect xl0 false && (s.window? 0 0).isNone) = true ∧
    (lk [(0, xl0.line)] 1 1).locks.contains (0, xl0.line) = true ∧ (lk [] 0 1).locks.contains (0, xl0.line) = false := by decide +kernel

/-! ### Witnesses: engines -/

/-- TLREAD's rope; TCFG of the last tile; BARI at its largest value, BARW. -/
theorem wit_EngineStateWords : (∃ c, Free s0 c (engIss gt (useW (nw true) (some 4))) ∧ c.lanes gt = [0] ∧ (s0.myRope c.who).isSome = true) ∧
    (∃ c, Free s0 c (engIss gt (useS 1 (.w 0))) ∧ c.lanes gt = [0] ∧
      ((s0.myRope c.who).any fun rp => (setBits 16 (0x8001#16).toNat).all (fun t => decide (t < rp.ntiles)) && !tcBad ((c.st.fibre 0).src .b32 (.w 0))) = true) ∧
    (∃ c, Free (fib s0 (regs [16, 65535])) c (engIss gt (useS 1 (.w 0) ++ useS 1 (.w 1))) ∧ c.lanes gt = [0] ∧
      (decide ((c.st.fibre 0).src .b32 (.w 1) < 65536) && (match s0.barAt c.who (c.st.fibre 0) (.w 0) ⟨false, 0, 0⟩ with
        | .ok _ => true
        | .error _ => false)) = true) ∧
    ∃ c, Free s0 c { engIss gt (useW 1 (some 4) ++ useS 1 (.w 0)) with rel := true } ∧ c.lanes gt = [0] ∧ true = true :=
  ⟨meets_spec (by decide +kernel), meets_spec (by decide +kernel), meets_spec (by decide +kernel), meets_spec (by decide +kernel)⟩
/-- A barrier word with more than one arrival due, with its last, and with its last but bytes still due. -/
theorem wit_BarrierPhases : ([BarWord.mk 65535 false 0 2 65535, ⟨65535, false, 0, 1, 65535⟩, ⟨0, false, 1, 1, 1⟩].map fun w =>
    (w.arrive.gen, w.arrive.due, decide (w.gen < 65536 ∧ w.quota < 65536))) = [(65535, 1, true), (0, 65535, true), (0, 0, true)] := by decide +kernel
/-- A shape record on the page, and a context without a ring. -/
theorem wit_RecordsAndTheRing : (∃ c, Free sw c (engIss gt (useW 16 (some 16))) ∧ c.lanes gt = [0] ∧
      ((sw.myRope c.who).any fun rp => decide (rp.shapeVa 1 + 63 < 2 ^ 54) &&
        isOk ((sw.atLane c 0).early { accOf (c.who.lane 0) rp.ctx (rp.shapeVa 1) 16 (.ld .b128) c.ip c.cl.hpc with tag := some sw.nextId } true).2 &&
        isOk ((sw.atLane c 0).early { accOf (c.who.lane 0) rp.ctx (rp.shapeVa 1) 16 .shpw c.ip c.cl.hpc with order := .rel, tag := some sw.nextId } true).2) = true) ∧
    ∃ c, Free sf5 c (engIss gt (useW 8 (some 16))) ∧ c.lanes gt = [0] ∧ ((sf5.fenceTry [c.who.lane 0] .sys).2 && (match (sf5.atLane c 0).ringPop c.who.core 0 with
        | (_, .empty) => true
        | _ => false)) = true :=
  ⟨meets_spec (by decide +kernel), meets_spec (by decide +kernel)⟩
/-- TZERO of tile 1 and a FILL would start on the placed rope: an untied TZERO whose checks pass. -/
theorem wit_OperationsStart : Starts (.tzero gt (some 4) (.w 0) { tup with td := 1 }) (engIss gt (tileUses (some 4) [] (.w 0) { tup with td := 1 })) ∧
    (∃ c, Free s0 c (engIss gt (tileUses (some 4) [] (.w 0) { tup with td := 1 })) ∧ c.lanes gt = [0] ∧
      (match starter? (.tzero gt (some 4) (.w 0) { tup with td := 1 }), s0.rope? ⟨0, 0⟩ with
        | some st, some rp => decide (st.tie = none ∧ c.who = .strand ⟨0, 0⟩ 0) && !s0.startStalls c (engIss gt (tileUses (some 4) [] (.w 0) { tup with td := 1 })) st &&
            (match (s0.atLane c 0).build rp (c.st.fibre 0) (s0.tcvtSeed ⟨0, 0⟩ 0) (.tzero gt (some 4) (.w 0) { tup with td := 1 }) with
              | (u, .ok _) => (u.rope? ⟨0, 0⟩).isSome && (u.ops.find? fun o => decide (o.rope = ⟨0, 0⟩ ∧ o.owed = [(0, s0.nextId)])).isNone
              | _ => false)
        | _, _ => false) = true) :=
  ⟨⟨gt, some 4, .w 0, .w 0, .w 0, .w 0, cup, { tup with td := 1 }, .inr (.inr (.inr ⟨.inl rfl, rfl⟩))⟩, meets_spec (by decide +kernel)⟩
/-- Tiles of FP32 of one row and column, and of BF16 for MMA into FP32. -/
theorem wit_TileChecks : ((s0.rope? ⟨0, 0⟩).any fun r => decide (15 < r.ntiles) && (let t := r.tc 1; decide (t.rows = t.rows ∧ t.cols = 1 ∧ t.fmt = tredFmt t.fmt ∧ t.fmt < 4))) = true ∧
    mmaAcc 3 3 false = some 1 := by decide +kernel
/-- A tie whose round is full with an operation, one without, and one that waits. -/
theorem wit_TiesStartOneOperation : ((st_ []).tie ⟨0, 0⟩ 2).full = false ∧ ((st_ [0]).tie ⟨0, 0⟩ 2).full = true ∧ ((st_ [0]).tie ⟨0, 0⟩ 2).second = [] ∧
    ((st_ [0]).tie ⟨0, 0⟩ 2).pending = none := by decide +kernel
/-! ### Witnesses: operations and grids -/

/-- A scratchpad box of 16 elements of FP32. -/
def shp : Shape := { boxes := [16, 0, 0, 0], fill := 0, sbase := 0, stride := [0, 0, 0, 0], dim := [16, 0, 0, 0], rsv := false, scalei := false,
                     clip := false, swz := 0, spad := true, rank := 1, fmt := 1, base := 0, idx := 1 }
/-- A fill of that box. -/
def cpy (dst : Shape) : OpKind := .copy { src := none, dst := dst, srope := ⟨0, 0⟩, drope := ⟨0, 0⟩, cs := [], cd := [0, 0, 0, 0], scat := false, rows := none, red := none,
                                          ro := false, only := none, cred := none }
/-- A tile of a format with one row and one column. -/
def tc (f : Nat) (t3 : Bool) : Tc := ⟨t3, false, 1, 1, f⟩
/-- An operation of the placed rope. -/
def opr (tl : Nat) (k : OpKind) (st : OpSt) : Op :=
  { id := 1, core := 0, rope := ⟨0, 0⟩, ctx := 0, qent := 0, rtag := 0, tl := tl, num := 1, word := (0, 0), tag := 0, kind := k, st := st, wrec := false,
    wait := none, shape := 0, owed := [], crow := 0, cseg := 0, done := 0, fva := 0, fcode := 0, vis := 0, fin := false, since := 0, rtry := false }
/-- The placed device with one operation. -/
def so (o : Op) : State := { sw with ops := [o], gtime := 5 }
/-- A TZERO of tile 1; and an MMA whose A is a T3 tile that traps. -/
def tz : OpKind := .tile (.tzero 1 (tc 1 false))
def mm (f : Nat) (t3 : Bool) : OpKind := .tile (.mma false false false false false 1 2 3 1 (tc 1 false) (tc f t3) (tc f t3) (tc 1 false))
/-- A grid of two hosted partitions of four cells of FP32 with two ghost cells each, of three planes, at step 5. -/
def gb : Nat := 8 * 2 ^ 64 + 2 ^ 96 + 2 ^ 128 + 2 * 2 ^ 160 + 2 ^ 168 + 2 ^ 176 + 2 ^ 184 + 2 ^ 192 + 2 * 2 ^ 196 + 3 * 2 ^ 200 + 0x3000
def gp : GridPart := ⟨5, List.replicate 6 5, List.replicate 6 5, some ⟨0, 0⟩⟩
def gr0 : Grid := { slot := 3, desc := 0x2000, bytes := leBytes 128 gb, map := [(1, 0x2000), (1, 0x3000)], s0 := 1, parts := [(0, gp), (1, gp)], known := [] }
def sg (s : State) : State := { s with ctxs := s.ctxs.map fun c => { c with grids := [gr0] }, gtime := 5 }
/-- A halo operation of partition 0 that runs. -/
def ho (cur : Option Nat) (crow : Nat) : Op := { opr 5 (.halo ⟨3, 0, 5, 3, [1], cur⟩) .running with crow := crow }

/-- One operation for each event of the engines: sent, with and without a phase, and with an error in it; a segment that moves and one whose
page is not mapped; an MMA's step and one that a T3 byte stops; another tile operation; an end; a record that finds room. -/
theorem wit_EngineEvents :
    (let b := { opr 4 tz .table with wait := some (⟨⟨0, 0⟩, 0⟩, true) }
     let u := rop (so b) fun r => { r with spad := [⟨13, 1⟩] }
     (so (opr 4 tz .table)).sendable (opr 4 tz .table) && (so b).sendable b && !((so b).barRead ⟨⟨0, 0⟩, 0⟩).err &&
       u.sendable b && (u.barRead ⟨⟨0, 0⟩, 0⟩).err) = true ∧
    (let o := opr 0 (cpy shp) .queued
     match (so o).moving 1 with
     | some (o, m) => (match (so o).trySegment o m with
       | (_, .ok _) => true
       | _ => false)
     | none => false) = true ∧
    (let o := opr 0 (cpy { shp with spad := false, base := 0x20000 }) .queued
     match (so o).moving 1 with
     | some (o, m) => (match (so o).trySegment o m with
       | (_, .bad _ _ _) => true
       | _ => false)
     | none => false) = true ∧
    ([(mm 3 false, false), (mm 14 true, true)].all fun k =>
      match (rop (so (opr 4 k.1 .queued)) fun r => { r with tiles := List.replicate 16 [⟨0, 0xFF⟩] }).computing 1 with
      | some (_, .mma _ _ _ _ _ _ a b _ _ ta tb _, r) => r.mmaStops a b ta tb 0 == k.2
      | _ => false) = true ∧
    ((so (opr 4 tz .queued)).computing 1).isSome = true ∧ (so { opr 4 tz .running with fin := true }).completes { opr 4 tz .running with fin := true } = true ∧
    (let rg := fun (o : Op) => ({ so o with ctxs := (so o).ctxs.map fun c => { c with ring := 0x4000, ringn := 4, ringNew := false } } : State)
     let o := opr 0 (cpy shp) (.held [1, 0])
     (match ((rg o).as (.op 1)).ringRecord o 1 with
       | (_, .ok _) => true
       | _ => false) && !(rg o).ops.any (fun x => x.st.isPosted) &&
     [0, 1].all fun k => let o := opr 0 (cpy shp) (.posted [k])
       decide (o.vis < (rg o).gtime) && (((rg o).as (.op 1)).ringTail o).2) = true := by decide +kernel
/-- A strip that goes, one that has landed, and one whose page is not mapped. -/
theorem wit_HaloEvents :
    (let s := sg (so (ho none 0))
     match s.haloLive 1 with
     | some (o, h, gr) => decide (s.haloFaceNow o h gr = some 1 ∧ gr.geo.neigh h.part 1 = some 1) && (segAt (gr.strip h.part 1 1 h.step) 0 0).isSome &&
         (match (s.as (.op 1)).haloSegment { o with crow := 0, cseg := 0 } h gr 1 1 with
           | (_, .ok _) => true
           | _ => false)
     | none => false) = true ∧
    (let s := sg (so (ho (some 1) 1))
     match s.haloLive 1 with
     | some (o, h, gr) => decide (h.cur = some 1 ∧ gr.geo.neigh h.part 1 = some 1 ∧ gr.peer 1 = s.chip) &&
         (segAt (gr.strip h.part 1 1 h.step) o.crow o.cseg).isNone && !(s.fab.open_.any fun t => t.what == .op o.id)
     | none => false) = true ∧
    (let s : State := { sg (so (ho none 0)) with tlb := [] }
     match s.haloLive 1 with
     | some (o, h, gr) => (s.haloBad o h gr).isSome
     | none => false) = true := by decide +kernel

/-- The descriptor of that grid stands in memory, its map names a peer of the chip group. -/
def sgd (slot : List Grid) : State :=
  { sw with hbm := cellsWrite (cellsWrite sw.hbm 0x2000 (leBytes 128 gb)) 0x3000 (leBytes 8 0 ++ leBytes 8 2 ++ leBytes 8 0 ++ leBytes 8 2),
            groups := [{ no := 0, members := [(2, 0)], last := 0 }], ctxs := sw.ctxs.map fun c => { c with grids := slot } }
/-- The registers of a cell's coordinates. -/
def cell (s : State) (q x t : Nat) : State := fib (sg s) (regs [q, 0x2000, 0, 1, x, 0, 0, t, 63, 5])
theorem wit_GridWords :
    (∃ c, Free (fib (sgd []) (regs [0x2000, 0])) c (engIss gt (useW 1 (some 12) ++ (useS 2 (.w 0) ++ useS 1 (.w 3)))) ∧ c.lanes gt = [0] ∧
      ((sw.myRope c.who).any fun rp => match ((sgd []).atLane c 0).gdefCheck rp 3 0x2000 1 with
        | (_, .ok _) => true
        | _ => false) = true) ∧
    (∃ c, Free (sgd [gr0]) c (engIss gt (useW 1 (some 12) ++ [])) ∧ c.lanes gt = [0] ∧ ((sw.myRope c.who).any fun rp =>
      (match ((sgd [gr0]).atLane c 0).gdefCheck rp 3 0x2000 1 with
        | (_, .status _) => true
        | _ => false) && ((sgd [gr0]).grid? rp.ctx 63).isNone) = true) ∧
    (∃ c, Free (cell sw 0 3 5) c (engIss gt (useW 1 (some 12) ++ useS 1 (.w 0) ++ useS 4 (.w 4))) ∧ c.lanes gt = [0] ∧
      (match (cell sw 0 3 5).gldCheck c.who 3 12 (.w 0) (.w 4) (c.st.fibre 0) with
        | .cell ctx va size ghost => decide (va < 2 ^ 54) && !ghost &&
            isOk (((cell sw 0 3 5).atLane c 0).early { accOf (c.who.lane 0) ctx va size (.ld (cellWidth size)) c.ip c.cl.hpc with tag := some 0 } true).2
        | _ => false) = true) ∧
    (∃ c, Free (cell sw 0 5 5) c (engIss gt (useW 1 (some 12) ++ useS 1 (.w 0) ++ useS 4 (.w 4))) ∧ c.lanes gt = [0] ∧
      (match (cell sw 0 5 5).gldCheck c.who 3 12 (.w 0) (.w 4) (c.st.fibre 0) with
        | .cell _ va _ ghost => decide (va < 2 ^ 54) && ghost
        | _ => false) = true) ∧
    (∃ c, Free (cell sw 0 5 6) c (engIss gt (useS 1 (.w 0) ++ useS 4 (.w 4) ++ useS 1 (.w 8))) ∧ c.lanes gt = [0] ∧
      (match (cell sw 0 5 6).gridFor c.who 3 0 with
        | .ok (r, gr, p) => let x := quadCoord ((c.st.fibre 0).quad (.w 4))
            decide (gr.geo.beyond x.1 = [1] ∧ x.2 = p.c + 1 ∧ gr.exchange gr.geo x.2 = false ∧ gr.geo.neigh 0 1 = some 1) &&
              ((List.range 3).all fun k => gr.geo.inPad k (x.1 k)) &&
              isOk (((cell sw 0 5 6).atLane c 0).early { accOf (c.who.lane 0) r.ctx (gr.geo.addr (gr.base 0) x.2 x.1) 4 .shpw c.ip c.cl.hpc with
                data := (bytesOfWords ((c.st.fibre 0).srcWords 1 (.w 8))).take 4, tag := some (cell sw 0 5 6).nextId } true).2
        | _ => false) = true) ∧
    (∃ c, Free (cell sw 0 5 6) c (engIss gt (useW 1 (some 12) ++ useS 1 (.w 0) ++ useS 1 (.w 7))) ∧ c.lanes gt = [0] ∧
      (match (cell sw 0 5 6).gridFor c.who 3 0 with
        | .ok (r, _, p) => decide (BitVec.ofNat 32 ((c.st.fibre 0).src .b32 (.w 7)) = p.c + 1) && !(r.tl 5).limit 1
        | _ => false) = true) ∧
    (∃ c, Free (cell sw 0 3 5) c (engIss gt (useS 1 (.w 0) ++ useS 1 (.w 3) ++ useS 1 (.w 7))) ∧ c.lanes gt = [0] ∧
      (match (cell sw 0 3 5).gridFor c.who 3 0 with
        | .ok (_, gr, p) => ((setBits 6 1).all fun j => gr.geo.face j && !before 5 (p.ebOf j)) && !before 5 (p.c - BitVec.ofNat 32 gr.geo.planes + 1)
        | _ => false) = true) ∧
    ∃ c, Free (cell sw 0 3 5) c (engIss gt (useW 2 (some 12) ++ useS 1 (.w 0) ++ useS 1 (.w 3))) ∧ c.lanes gt = [0] ∧
      (match (cell sw 0 3 5).gridFor c.who 3 0 with
        | .ok (_, gr, _) => gr.geo.face ((c.st.fibre 0).src .b32 (.w 3))
        | _ => false) = true :=
  ⟨meets_spec (by decide +kernel), meets_spec (by decide +kernel), meets_spec (by decide +kernel), meets_spec (by decide +kernel), meets_spec (by decide +kernel),
    meets_spec (by decide +kernel), meets_spec (by decide +kernel), meets_spec (by decide +kernel)⟩
/-! ### Witnesses: exceptions and the supervisor -/

/-- An entry of two lanes; one already read, of the placed rope. -/
def ent (n : Word) (m : BitVec 32) (ls : List Nat) : Entry :=
  { seq := n, ctx := 0, rope := ⟨0, 0⟩, sid := 0, fmask := m, cls := .trap, kind := .at, info := 1, opnum := 0, tl := 0, rtry := false, srl := false, fva := 0, rpc := 0x1000,
    fpc := 0x1008, hpc := 0x1000, kpc := 0x1000, lanes := ls.map fun l => ⟨l, List.replicate 8 0, 0⟩, popped := true, op := none }
theorem wit_ExceptionEntry : ((s0.rope? ⟨0, 0⟩).any fun rp => decide (0 < rp.strands.length) && decide (0 < (s0.strand w0).fibres.length) && decide ((s0.core 0).parking = []) &&
    !s0.untranslated ⟨⟨0, 0⟩, 0, 0⟩ && decide ((s0.core 0).rq.length < 64)) = true := by decide +kernel
theorem wit_EntryBytes : [ent 0 0x80000001#32 [0, 31], ent 0 0 []].all (fun e => decide (e.lanes.map LaneBlk.lane = lanesOf e.fmask) && e.lanes.all fun b => b.near.length = 8) = true := by
  decide +kernel
theorem wit_ExceptionReturn : ((s0.rope? ⟨0, 0⟩).any fun rp => decide (0 < rp.strands.length) && decide (0 < (s0.strand w0).fibres.length)) = true := by decide +kernel
/-- A frame at 0x1800 of the placed fibre, of a stop at the header of the placed clause. -/
def fr : State := fib { sw with hbm := cellsWrite sw.hbm 0x1800 (leBytes 64 (0x1800 + 32 * 2 ^ 144 + 2 ^ 155 + 0x1000 * 2 ^ 320 + 0x1000 * 2 ^ 384)) } (regs [0x1800])
theorem wit_EnteringTheSupervisor :
    (∃ c, Free s0 c { len := 8, g := gt, uses := [], commit := true, rope := true } ∧ c.lanes gt = [0] ∧ decide (c.who = w0) = true) ∧
    (∃ c, Free s0 c { len := 12, g := gt, uses := [], rope := true } ∧ c.lanes gt = [0] ∧ decide ((0xFFFFFEFF#32).toNat < 0xFFFFFF00) = true) ∧
    (∃ c, Free s0 c { len := 8, g := gt, uses := [] } ∧ c.lanes gt = [0] ∧ decide (c.who = w0) = true) ∧
    (∃ c, Free s0 c { len := 16, g := gt, uses := [] } ∧ c.lanes gt = [0] ∧ (decide (c.who = .strand ⟨0, 0⟩ 0) && !s0.holdsEntry (c.who.lane 0)) = true) ∧
    (∃ c, Free sv c { len := 16, g := gt, uses := [] } ∧ c.lanes gt = [0] ∧ decide (c.who = .sup 0) = true) ∧
    ∃ c, Free fr c { len := 8, g := gt, uses := useS 2 (.w 0), commit := true, rope := true, access := true } ∧ c.lanes gt = [0] ∧
      (match (fr.atLane c 0).frameOf c.who 0 (c.st.fibre 0) 0x1800 with
        | (_, .header _ _ tested) => tested && decide (fr.insides c { len := 8, g := gt, uses := useS 2 (.w 0), commit := true, rope := true, access := true } (.w 0) = [])
        | _ => false) = true :=
  ⟨meets_spec (by decide +kernel), meets_spec (by decide +kernel), meets_spec (by decide +kernel), meets_spec (by decide +kernel), meets_spec (by decide +kernel),
    meets_spec (by decide +kernel)⟩
/-- Frames of a window of eight registers, with and without the stop bit. -/
theorem wit_FramesAreRestored : ((regs [] Fibre.vacant).win.length % 8 = 0) ∧
    ([0, 255].map fun (x : Byte) => (List.replicate 1152 x).length == 128 + 4 * (regs [] Fibre.vacant).win.length && (leNat ((List.replicate 1152 x).take 64)).testBit 155 == (x == 255)) = [true, true] := by
  decide +kernel
theorem wit_PrivilegedWordsTrapInUserMode : (∃ c, Free s0 c { len := 8, g := gt, uses := [] } ∧ c.lanes gt = [0] ∧ decide (c.who = .strand ⟨0, 0⟩ 0) = true) ∧
    ∃ c, Free s0 c { len := 16, g := gt, uses := [] } ∧ c.lanes gt = [0] ∧ decide (c.who = .strand ⟨0, 0⟩ 0) = true := ⟨meets_spec (by decide +kernel), meets_spec (by decide +kernel)⟩

/-- The supervisor's registers from the eighth on; a supervisor with a rope and entries. -/
def vr (l : List Nat) (es : List Entry) : State :=
  let s : State := { sv with ropes := s0.ropes, cores := sv.cores.map fun k => { k with rq := es } }
  let f := s.fibre (.sup 0) 0
  s.setFibre (.sup 0) 0 { f with win := f.win.take 8 ++ (l.map (BitVec.ofNat 32)) ++ List.replicate (56 - l.length) 0 }
/-- RFT without an event; RQPOP without and with an entry; REPLAY; SMOVR and SMOVW of a scratchpad; SIGPOST with the last signal and with none;
PTINV of no page and of one; HALTC. -/
theorem wit_SupervisorWords :
    (∃ c, Free (vr [0x1000] []) c { len := 8, g := gt, uses := useD 1 (.w 20) ++ useS 2 (.w 8) } ∧ c.lanes gt = [0] ∧
      (decide (c.who = .sup 0) && (match ((vr [0x1000] []).atLane c 0).target c.who 0x1000 with
        | (u, .header) => decide ((u.core 0).events = 0)
        | _ => false) && decide (((vr [0x1000] []).core 0).events = 0) && (((vr [0x1000] []).core 0).rq.all fun e => e.popped)) = true) ∧
    (∃ c, Free (vr [0x2000] [{ ent 5 1 [0] with popped := false }]) c { len := 8, g := gt, uses := useD 1 (.w 20) ++ useS 2 (.w 8) } ∧ c.lanes gt = [0] ∧
      (((vr [0x2000] [{ ent 5 1 [0] with popped := false }]).core 0).rq.find? fun e => !e.popped).isSome = true) ∧
    (∃ c, Free (vr [5, 6] [ent 5 1 [0]]) c { len := 8, g := gt, uses := useS 1 (.w 8) ++ [] } ∧ c.lanes gt = [0] ∧
      (((((vr [5, 6] [ent 5 1 [0]]).core 0).rq.find? fun e => decide (e.seq = 5) && e.popped).isSome) &&
        (((vr [5, 6] [ent 5 1 [0]]).core 0).rq.find? fun e => decide (e.seq = 6) && e.popped).isNone) = true) ∧
    (∃ c, Free (vr [] []) c { len := 16, g := gt, uses := useD (Width.words .b32) (.w 20) ++ useA .spad (.w 8) ++ useS 1 (.w 9) } ∧ c.lanes gt = [0] ∧
      (match ((vr [] []).atLane c 0).smovRead 0 .spad false 4 0 4092 c.ip, ((vr [] []).atLane c 0).smovRead 0 .spad false 4 0 4096 c.ip with
        | (_, .got _), (_, .fail) => true
        | _, _ => false) = true) ∧
    (∃ c, Free (vr [] []) c { len := 16, g := gt, uses := useA .spad (.w 8) ++ useS (Width.words .b32) (.w 10) ++ useS 1 (.w 9) } ∧ c.lanes gt = [0] ∧
      (match ((vr [] []).atLane c 0).smovWrite 0 .spad false [1, 2, 3, 4] 0 4092 c.ip, ((vr [] []).atLane c 0).smovWrite 0 .spad false [1, 2, 3, 4] 0 4096 c.ip with
        | (_, .done), (_, .fail) => true
        | _, _ => false) = true) ∧
    (∃ c, Free (vr [0, 15] []) c { len := 8, g := gt, uses := useS 1 (.w 8) ++ useS 1 (.w 9) } ∧ c.lanes gt = [0] ∧ ((vr [0, 15] []).hasProcess 0 && !(vr [0, 15] []).hasProcess 9) = true) ∧
    (∃ c, Free (vr [0, 0, 1] []) c { len := 16, g := gt, uses := useS 2 (.w 8) ++ useS 1 (.w 10) } ∧ c.lanes gt = [0] ∧
      (((vr [0, 0, 1] []).atLane c 0).ptinv ⟨some 0, 0, 1⟩ false).2 = true) ∧
    ∃ c, Free (vr [] []) c { len := 8, g := gt, uses := useD 1 (.w 20) ++ useS 1 (.w 8) } ∧ c.lanes gt = [0] ∧ (((vr [] []).atLane c 0).haltc 0 0 .cont).2.isSome = true :=
  ⟨meets_spec (by decide +kernel), meets_spec (by decide +kernel), meets_spec (by decide +kernel), meets_spec (by decide +kernel), meets_spec (by decide +kernel),
    meets_spec (by decide +kernel), meets_spec (by decide +kernel), meets_spec (by decide +kernel)⟩

/-- The placed strand at its clause's header, changed. -/
def hd (s : State) (g : Strand → Strand) : State :=
  s.setStrand w0 (g { s.strand w0 with cur := (s.strand w0).cur.map fun p => { p with pc := 0x1000, cl := none } })
/-- A second rope of the core, whose strand waits for a slot of the active set. -/
def r2 (s : State) : State :=
  { s with gtime := 200, ropes := s.ropes ++ s.ropes.map fun r => { r with id := ⟨0, 1⟩, strands := r.strands.map fun st => { st with slot := none, ready := some 3 } } }
/-- A park of the placed fibre, and what tells of it. -/
def prk : Parking := ⟨⟨0, 0⟩, 0, 1, ⟨.trap, .at, 0, 0, 0x1000⟩, 0x1008, 0x1000⟩
def fi (c : FClass) (k : RKind) : FaultInfo := ⟨c, k, 0, 0, 0x1000, 0x1008⟩
theorem wit_CoreEvents :
    (let s := fib (hd s0 id) fun f => { f with issued := 512 }
     decide ((s.strand w0).cur.any fun p => p.cl.isNone ∧ (s.strand w0).forcedLanes p ≠ [] ∧ ((s.strand w0).forcedLanes p).all fun l => !s.holdsEntry (w0.lane l))) = true ∧
    (let s : State := { s0 with cores := s0.cores.map fun k => { k with bka := [0, 0, 0, 0x1008], bkc := [0, 0, 0, 1] } }
     (s.strand w0).cur.any fun p => s.breakHit w0 p.at == some (3, [0])) = true ∧
    (decide ((r2 s0).firstPending 0 0 = some (.strand ⟨0, 1⟩ 0)) && ((r2 s0).freeSlot 0 0).isSome) = true ∧
    (let s := (r2 s0).setStrand w0 { s0.strand w0 with stale := some 0 }
     s.staleDue ⟨0, 0⟩ 0 && (s.firstPending 0 0).isSome) = true ∧
    (let s (b : Bool) : State := ({ s0 with cores := s0.cores.map fun k => { k with parking := [prk] } } : State).setStrand w0 { s0.strand w0 with full := b }
     decide ((s false).parking? ⟨0, 0⟩ 0 1 (fi .trap .at) = some prk) && (s false).parkReady prk && !((s false).strand w0).full && ((s true).core 0).room &&
       ((s true).strand w0).full) = true ∧
    (((sv.core 0).sv.cur.isSome && (sv.core 0).svWait.isNone && !(sv.core 0).stopped) = true ∧ (fi .xlate .at).cls = .xlate) ∧
    ([fi .xlate .knot, fi .xlate .at].map fun f =>
      let s : State := { sv with cores := sv.cores.map fun k => { k with svWait := some f } }
      decide ((s.core 0).svWait = some f) && !(s.core 0).stopped && (f.kind == .knot || f.cls != .brk)) = [true, true] ∧
    ({ s0 with gtime := 100000 } : State).cores.all (fun k => decide (k.no = 0 ∧ k.tickAt + 100000 ≤ 100000)) = true ∧
    -- No path; a path that waits while it is stepped; a header that opens.
    (let s := fib (hd s0 fun st => { st with cur := none }) fun f => { f with st := .empty }
     (s.selectPath w0 (s.strand w0).applyCsr).cur.isNone) = true ∧
    (let s := fib (hd s0 fun st => { st with grant := some 0 }) fun f => { f with wait := some (.tie 0) }
     let st := s.selectPath w0 (s.strand w0).applyCsr
     st.cur.any fun p => p.cl.isNone && !(s.setStrand w0 st).pathReady w0 st p) = true ∧
    (let s := hd s0 id
     let st := s.selectPath w0 (s.strand w0).applyCsr
     let s1 := s.setStrand w0 st
     st.cur.any fun p => p.cl.isNone && s1.pathReady w0 st p && !s1.overdue w0 && ((lanesOf p.mask).all fun l => (st.fibre l).sel.isNone) && decide (st.forcedLanes p = []) &&
       (s1.breakHit w0 p.pc).isNone && (match s1.fetch w0 p.pc 8 with
         | (_, .ok b) => headerOk (leNat b)
         | _ => false)) = true := by decide +kernel
/-! ### Witnesses: processes and memory events -/

/-- The placed fibre waits at a call of a number, with arguments and a context of its own. -/
def cs (n : Nat) (l : List Nat) (g : Context → Context) (s : State) : State :=
  fib { s with cores := s.cores.map fun k => { k with rq := [{ ent 5 1 [0] with cls := .syscall }] }, ctxs := s.ctxs.map g } (regs ((l ++ List.replicate 6 0).take 6 ++ [n]))
/-- The call stands to be served, and p holds of it. -/
def called (s : State) (b : Bool) (n : Nat) (p : Call → Context → Bool) : Bool :=
  match s.callOf 0 5 b (calls n) with
  | some (c, x) => p c x
  | none => false
/-- Memory with bytes at an address. -/
def mem (a : Nat) (b : List Byte) (s : State) : State := { s with hbm := cellsWrite s.hbm a b }
/-- A value of memory has come out. -/
def got {α : Type} : VRes α → Bool
  | .ok _ => true
  | _ => false

/-- A signal chosen at a header; a timer that expires now; a signal that is pending, and one that is not; the process calls. -/
theorem wit_SignalEvents :
    (let s := fib (hd s0 id) fun f => { f with sel := some 15 }
     s.stopsFor ⟨⟨0, 0⟩, 0, 0⟩ 15 && (s.headerOf ⟨⟨0, 0⟩, 0, 0⟩).isSome && (s.ctx? 0).isSome && (s.rope? ⟨0, 0⟩).any fun r => r.ctx == 0) = true ∧
    (({ s0 with gtime := 7, ctxs := s0.ctxs.map fun c => { c with timer := some (7, 0) } } : State).ctx? 0).any (fun x => x.timer == some (7, 0)) = true ∧
    [0, 0x8000].map (fun m => (({ s0 with ctxs := s0.ctxs.map fun c => { c with pending := m } } : State).ctx? 0).any fun x => x.no == 0 && x.pending.getLsbD 15) = [false, true] ∧
    called (cs 0 [] id sw) false 0 (fun _ _ => true) = true ∧
    called (cs 1 [15, 0, 0, 0, 0, 0] id sw) false 1 (fun c _ => let s := cs 1 [15, 0, 0, 0, 0, 0] id sw
      decide (s.arg c 0 = 15 ∧ s.arg64 c 4 = 0 ∧ s.arg64 c 2 = 0)) = true ∧
    (let s := cs 1 [1, 0, 0x1800, 0, 0, 0] id (mem 0x1800 (leBytes 32 (0x1000 * 2 ^ 192)) sw)
     called s false 1 fun c x => decide (s.arg c 0 = 1 ∧ s.arg64 c 4 = 0 ∧ s.arg64 c 2 ≠ 0) &&
       (match (s.as (.call 0 5)).vLoadN 0 0 0x1800 32 .load true with
         | (u, .ok b) => (dispOf b).isSome && (u.ctx? x.no).isSome
         | _ => false)) = true ∧
    [0, 1, 2].all (fun op => called (cs 2 [op] id sw) false 2 fun c _ => decide ((cs 2 [op] id sw).arg c 0 = op)) = true ∧
    (let s := cs 3 [0, 15] id sw
     called s true 3 fun c x => (s.ctxs.find? fun y => decide (y.pid.toNat = s.arg c 0) && !y.dead).any fun y => decide (y.kslot = x.kslot ∧ s.arg c 1 = 15)) = true ∧
    ((fib (cs 11 [] id sw) fun f => { f with sel := some 1 }).callOf 0 5 false fun f => calls 11 f && f.sel.isSome).isSome = true ∧
    (let s := cs 12 [0x1800] id sw
     called s true 12 fun c x => decide (s.arg64 c 0 % 128 = 0) &&
       (match (s.as (.call 0 5)).vLoadN 0 0 0x1800 128 .load true with
         | (u, .ok b) => (u.ctx? x.no).any fun y => (u.accept y b u.chip).2
         | _ => false)) = true ∧
    called (cs 13 [] id sw) true 13 (fun _ _ => true) = true := by decide +kernel
/-- A context with a file and a socket. -/
def hnd (c : Context) : Context := { c with handles := [⟨3, false⟩, ⟨4, true⟩] }
/-- A socket call whose block names a handle, an address, a length and flags. -/
def sk (op h len : Nat) : State := cs 8 [op, 0, 0x1800] hnd (mem 0x1800 (leBytes 8 0x1900 ++ leBytes 4 len ++ leBytes 4 h) sw)
/-- Every file and socket call with its handle, and buffers that can be read and written; a window's ends. -/
theorem wit_FileAndSocketCalls :
    (called (cs 4 [0x1800] hnd sw) true 4 fun _ _ => got ((sw.as (.call 0 5)).vLoadN 0 0 0x1800 1 .load true).2) = true ∧
    (called (cs 5 [3, 0, 0x1800, 0, 4] hnd sw) true 5 fun c x => let s := cs 5 [3, 0, 0x1800, 0, 4] hnd sw
      x.has (s.arg c 0) false && decide (s.arg c 4 = 4) && got ((s.as (.call 0 5)).vStoreN 0 0 0x1800 [1, 2, 3, 4] .store true).2) = true ∧
    (called (cs 6 [3, 0, 0x1800, 0, 4] hnd sw) true 6 fun c x => let s := cs 6 [3, 0, 0x1800, 0, 4] hnd sw
      x.has (s.arg c 0) false && got ((s.as (.call 0 5)).vLoadN 0 0 0x1800 4 .load true).2) = true ∧
    (called (cs 7 [3] hnd sw) true 7 fun c x => x.handles.any fun k => decide (k.no = (cs 7 [3] hnd sw).arg c 0)) = true ∧
    ([0, 1, 2, 3, 4, 5, 6, 7].all fun op => (match (sk op 4 32).callOf 0 5 true (fun fb => calls 8 fb && (fb.win.getD 0 0).toNat == op) with
      | some (c, x) => (match ((sk op 4 32).as (.call 0 5)).vLoadN 0 0 ((sk op 4 32).arg64 c 2) 32 .load true with
        | (u, .ok b) => x.has (fieldAt b 12 4) true && decide (fieldAt b 16 4 % 2 = 0 ∧ fieldAt b 0 8 = 0x1900 ∧ fieldAt b 8 4 = 32) &&
            got (u.vLoadN 0 0 0x1900 32 .load true).2 && got (u.vStoreN 0 0 0x1900 [1, 2] .store true).2
        | _ => false)
      | none => false)) = true := by decide +kernel
/-- A kibibyte of the scratchpad mapped at the last kibibyte of the page, and unmapped. -/
def wn (c : Bool) : Window := { cluster := 0, idx := 0, wb := false, vbase := 63, ctx := 0, klen := 1, koff := 0, core := 0, rope := ⟨0, 0⟩, dirty := [], closed := c }
theorem wit_WindowCalls :
    (let s := cs 9 [3, 1, 0xFC00] id sw
     let r : PageRange := ⟨some 0, 0, 1⟩
     called s false 9 fun c x => decide (s.arg c 0 = 3 ∧ s.arg c 1 = 1 ∧ s.arg64 c 2 = 0xFC00 ∧ (3 + 1) * 1024 ≤ c.r.spadA ∧ x.no = 0 ∧ s.windows = [] ∧ s.watches = []) &&
       (match (s.as (.call 0 5)).ownPage 0 0 0 with
         | (u, .res 0) => (u.flushLines r).flushed r && (u.flushLines r).quietRange r
         | _ => false)) = true ∧
    (let s : State := { cs 10 [0, 0, 0xFC00] id sw with windows := [wn false] }
     called s false 10 fun c x => (s.windows.find? fun w => decide (w.ctx = x.no ∧ w.vbase * 1024 = s.arg64 c 2)).any fun w => ((s.as (.call 0 5)).unmapAll [w]).2) = true := by decide +kernel

/-- An access of the placed fibre, of four bytes. -/
def ac (k : AccKind) : Access := { accOf ⟨⟨0, 0⟩, 0, 0⟩ 0 0x1800 4 k 0x1008 0x1000 with id := 7 }
def sa (a : Access) (s : State) : State := { s with accs := [a] }
/-- An access that can be translated, one that cannot, a late fault, a held store and one that is performed, a load that lands and one that is performed. -/
theorem wit_TranslationAndRelease :
    ((ac .st).untranslated && isOk ((sa (ac .st) sw).early (ac .st) true).2 && (match ((sa (ac .st) { sw with tlb := [] }).early (ac .st) true).2 with
      | .bad _ => true
      | _ => false)) = true ∧
    ((sa { ac .st with xf := some 1 } sw).acc? 7).any (fun a => a.xf == some 1 && !a.void) = true ∧
    (let a := { ac .st with xl := some xl0, sq := some 0 }
     (sa a sw).releasable a && !a.done) = true ∧
    (let a := { ac .st with xl := some xl0, data := [1, 2, 3, 4] }
     ((sa a sw).perform a).isSome) = true ∧
    (let a := { ac (.ld .b32) with xl := some xl0, done := true, data := [1, 2, 3, 4] }
     ((sa a sw).acc? 7).any fun a => a.done) = true ∧
    (let a := { ac (.ld .b32) with xl := some xl0 }
     ((sa a sw).perform a).isSome && !a.done && !a.void) = true := by decide +kernel
/-- A load of one byte for the last register, and a discarded one. -/
theorem wit_ResultsLand : (let a := { ac (.ld .ui8) with wd := some (255, 1), data := [200], done := true }
    (s0.rope? ⟨0, 0⟩).any fun rp => decide (a.lane.sid < rp.strands.length ∧ a.lane.lane < (s0.strand (laneWho a.lane)).fibres.length ∧ a.pd = none ∧ a.data ≠ [] ∧
      255 < (s0.fibre w0 0).win.length)) = true := by decide +kernel
/-- Each message next of its line; a pin, a lease and a copy at their ends; a forwarded load and atomic. -/
def msg0 : Msg := plainMsg ⟨0, 0x30⟩ (.cluster 0) .home
def cp0 (e : Nat) : Copy := { cluster := 0, line := ⟨0, 0x30⟩, slot := 0, cst := 1, data := List.replicate 128 0, dirty := 0, expiry := e, way := 0, vb := false, surr := false, perm := none, lasting := false, wb := none }
theorem wit_MessagesAreDelivered :
    [MType.gets, .getm, .upgr, .puts, .putm, .wbdata, .atom, .ack, .fwds, .fwdm, .inv, .wbgrant, .datas, .datam, .update].all (fun t =>
      ({ sw with msgs := [⟨t, msg0⟩] } : State).isNext t msg0 && decide (msg0.src ≠ .host)) = true := by decide +kernel
theorem wit_CacheEvents :
    (({ sw with gtime := 2000, pins := [⟨0, ⟨0, 0x30⟩, ⟨0, 0⟩, false, 0, 0, [], false⟩] } : State).myPin? 0 ⟨0, 0x30⟩).any (fun p => p.start + 2000 ≤ 2000) = true ∧
    (let s : State := { sw with gtime := 9, copies := [cp0 9] }
     (s.copy? 0 ⟨0, 0x30⟩).any fun c => (s.myPin? 0 ⟨0, 0x30⟩).isNone && !c.vb && !c.lasting && decide (c.expiry ≠ 0 ∧ c.expiry ≤ s.gtime) && (s.evict c).isSome && (s.cacheRecv 0 .timer (plainMsg ⟨0, 0x30⟩ .home (.cluster 0))).isSome) = true ∧
    ([none, some (AtomReq.rmw .add .ui32 1)].all fun r =>
      let a := { ac (.ld .b32) with va := 0xFC00, xl := some xl0 }
      let f : FwdReq := { line := ⟨0, 0x1F8⟩, off := 0, size := 4, req := r, src := .cluster 1, acc := some 7 }
      let s : State := { sa a sw with fwds := [f], windows := [wn false] }
      s.fwds.contains f && ((({ s with fwds := s.fwds.erase f } : State)).window? 0 (0x1F8 * 128)).any (fun w => !w.closed) && (s.acc? 7).isSome) = true := by decide +kernel
/-! ### Witnesses: the host, launches, stopping, saving -/

/-- A frame of device memory mapped for the host, and the table of a context that maps a page at a peer the fabric reaches. -/
def hst (s : State) : State := { s with inbound := [⟨1, 0, 0x50, false⟩] }
def tbl (e : Nat) (s : State) : State :=
  { s with tlb := [], ctxs := s.ctxs.map fun c => { c with root := 0x100000 }, fab := { s.fab with tabs := [[some 2]] },
           hbm := cellsWrite (cellsWrite (cellsWrite s.hbm 0x100000 (leBytes 16 (0x12 * 2 ^ 32 + 1))) 0x120000 (leBytes 16 (0x14 * 2 ^ 32 + 1))) 0x140010 (leBytes 16 e) }
def phr (pa : Nat) (d : Option (List Byte)) (q : Option AtomReq) : PhysReq := { pa := pa, size := 4, data := d, atom := q, keep := false, tag := 1 }
theorem wit_HostAccesses :
    ((hst s0).boot = .ready ∧ (hst s0).personality = .endpoint) ∧
    ((hst s0).hostParts 0x20000 none (lineParts 2 0x20000 4)).isNone = true ∧
    ([(0x1FFFC, none), (0x1007E, some [1, 2, 3, 4])].all fun q => match (hst s0).hostParts q.1 q.2 (lineParts 2 q.1 4) with
      | some (some _) => true
      | _ => false) = true ∧
    (atomicOpOk (.rmw .add .ui32 1) && decide (0x1FFFC % atomSize (.rmw .add .ui32 1) = 0) && ((hst s0).inEntry 0x20000).isNone &&
      ((hst s0).inEntry 0x1FFFC).any fun e => ((hst s0).mAtomic ((hst s0).inXl e 0x1FFFC) (.rmw .add .ui32 1) .atomic .host).isSome) = true ∧
    (let a := { ac (.atom (.rmw .add .ui32 1) false) with xl := some { xl0 with loc := .host 0x40 } }
     let s := sa a sf5
     (s.acc? 7).any fun a => (s.atHost a).any fun x => (s.mAtomic x (.rmw .add .ui32 1) .atomic (.dev a.cluster)).isSome) = true := by decide +kernel
theorem wit_PageMigrations :
    (let s := tbl (2 * 2 ^ 60 + 0x0F) { s0 with migreq := [(0, 1)] }
     match s.leafAt 0 1 with
     | some (pa, false, e) => decide ((0, 1) ∈ s.migreq ∧ s.windows = [] ∧ ptePeer e = 2 ∧ 1 * 65536 + 65536 ≤ 0x18000000000) && s.reaches 2 && pteBit e 0 &&
         (match s.ptePut pa (e &&& ~~~1#128) with
           | some u => (u.ptinv ⟨some 0, 1, 1⟩ true).2
           | none => false)
     | _ => false) = true := by decide +kernel

/-- A packet of one coil of one fibre, for a chip group, and a context that holds its launch. -/
def pkt (g : Nat) : List Byte := leBytes 128 (0x1000 + 2 ^ 64 + 2 ^ 80 + 2 ^ 96 + 8 * 2 ^ 112 + 2 ^ 128 + 2 ^ 136 + 2 ^ 144 + 2 ^ 152 + g * 2 ^ 224 + 2 ^ 256 + 2 ^ 288 + 2 ^ 320)
def lc (g : Nat) (st : LaunchSt) : Launch :=
  { q := 0, seq := 1, packet := pkt g, st := st, boff := 0, gone := [], ended := 0, lo := 0, hi := 1, readyM := [], doneM := [], boss := 1, final := none, opened := true }
def sl1 (l : Launch) : State :=
  { s0 with ropes := [], gtime := 1000000, groups := [⟨1, [(1, 0), (2, 0)], 0⟩], ctxs := s0.ctxs.map fun c => { c with resident := true, queue := [l], budgets := [⟨1, 1, 1, 0, 0⟩] } }
theorem wit_LaunchEvents :
    ((sl1 (lc 1 (.group 0))).groupLaunch fun l => decide (l.chips = 1 ∧ l.gen = 0 ∧ l.boss = 1) && l.waiting.isSome).isSome = true ∧
    ((lookupBy Group.no 1 (sl1 (lc 1 (.group 0))).groups).any fun g => g.members.any fun m => decide (m.1 = 2)) = true ∧
    ((sl1 (lc 1 (.group 0))).groupLaunch fun l => decide (l.chips = 1 ∧ l.boss = 1) && (l.waiting.map fun t => decide (t + 1000000 ≤ 1000000)).getD false).isSome = true ∧
    (match (sl1 (lc 0 .running)).nextCoil with
      | some (c, l, st, k) => l.fitsEmpty && (match (sl1 (lc 0 .running)).depTry c.no l st k with
        | (u, .ready) => let p : Placement := ⟨359, [⟨2879, 0⟩], [3]⟩
          decide (l.ropesIn.length = 1) && placementOk p (u.banned c.no) && (u.placeAll 359 ((seatsOf p).map fun q => (q.1, l.need q.2))).isSome
        | _ => false)
      | none => false) = true ∧
    -- A coil that fits no core, and one whose dependency record is not mapped.
    ([(17 * 2 ^ 160, false), (0x20000 * 2 ^ 512, true)].all fun x =>
      let s := sl1 { lc 0 .running with packet := leBytes 128 (leNat (pkt 0) + x.1) }
      match s.nextCoil with
      | some (c, l, st, k) => l.fitsEmpty == x.2 && decide ((s.depTry c.no l st k).2 = .fault) == x.2
      | none => false) = true ∧
    (let s := sl1 { lc 0 .running with gone := [(0, 0)], ended := 1 }
     (s.ctx? 0).any fun c => (lookupBy Launch.q 0 c.queue).any fun l => (s.endStatus c l).isSome) = true := by decide +kernel
/-- A context whose queue is empty, and one whose queue is full. -/
theorem wit_LaunchSubmissions : State.reset.boot ≠ .ready ∧ s0.boot = .ready ∧ (pkt 0).length = 128 ∧ s0.ctx? 4095 = none ∧ ((s0.ctx? 0).any fun c => c.freeEntry == some 0) = true ∧
    ({ Context.blank 0 0 with queue := (List.range 16).map fun q => { lc 0 .running with q := q } } : Context).freeEntry = none := by decide +kernel
/-- A rope with no fibre left, with a pin and with none. -/
def dead : State := { rop (sl1 { lc 0 .running with gone := [(0, 0)] }) id with
  ropes := s0.ropes.map fun r => { r with strands := r.strands.map fun st => { st with fibres := st.fibres.map fun f => { f with st := .empty } } } }
theorem wit_RopesEnd :
    (let s : State := { dead with pins := [⟨0, ⟨0, 0x30⟩, ⟨0, 0⟩, false, 0, 0, [], false⟩] }
     (s.rope? ⟨0, 0⟩).any fun rp => decide (s.pinsOf ⟨0, 0⟩ ≠ [] ∧ rp.occupied = []) && !rp.ended) = true ∧
    ((dead.rope? ⟨0, 0⟩).any fun rp => decide (dead.pinsOf ⟨0, 0⟩ = []) && dead.ropeDone rp &&
      (match (dead.as (.rope ⟨0, 0⟩ 0 0)).unmapAll (dead.windows.filter fun w => decide (w.rope = ⟨0, 0⟩)) with
        | (u, true) => (u.ctx? rp.ctx).any fun c => (lookupBy Launch.q rp.qent c.queue).any fun l => (match u.recordEnd rp l with
          | (_, some true) => true
          | _ => false)
        | _ => false)) = true := by decide +kernel
/-- A stop of the placed coil. -/
def stp (since : Nat) (quiet save : Bool) : Stop := ⟨0, 0, 0, 0, since, save, quiet, false⟩
theorem wit_StoppingCoils : s0.coils 0 ≠ [] ∧
    (({ s0 with gtime := 4000, stops := [stp 0 false true] } : State).stopFor 0 0 fun x =>
      !x.quiet && decide (x.since + 4000 ≤ 4000) && !(s0.coilRopes x.key).all Rope.atRest).isSome = true ∧
    (let s : State := { dead with stops := [stp 0 false true] }
     (s.stopFor 0 0 fun x => !x.quiet && s.coilQuiet x.key).isSome) = true := by decide +kernel
theorem wit_EngineResets : (s0.boot = .ready ∧ 2879 < 2880) ∧ ({ so (opr 4 tz .running) with gtime := 1000000 } : State).hung 0 .matrix = true := by decide +kernel
/-- A small coil that is halted, and what it leaves when it is saved. -/
def small (room : Nat) : State :=
  let s := rop sw fun r => { r with halt := true, ntiles := 0, spadA := 1024, size := 8, tiles := [], planes := [],
                                    strands := r.strands.map fun st => { st with fibres := st.fibres.map fun f => { f with win := f.win.take 8 } } }
  { s with stops := [stp 0 true true], ctxs := sw.ctxs.map fun c => { c with resident := true, savebase := 0x4000, savelen := room, budgets := [⟨1, 1, 1, 0, 0⟩] } }
/-- No room for the area, and room for it. -/
theorem wit_SavingAndRestoring :
    [0x3000, 0x4000].map (fun n => match (small n).stopFor 0 0 fun x => x.save && x.quiet && !x.full && !(small n).posting x.key, (small n).ctx? 0 with
     | some x, some c =>
       let xs : List Sect := (small n).coilSections x.key ⟨false, none, none⟩ 0
       let total := 128 + (xs.map fun y => 16 + y.len).sum
       match c.room total with
         | some a => (match (small n).vProbe 0 0 a total .store false with
           | (u, .ok _) => if got ((u.as (.ctx 0)).putPieces 0 0 a ((0, (small n).headerFor x.key xs 0 0) :: pieces 128 xs)).2 then 2 else 3
           | _ => 4)
         | none => 5
     | _, _ => 6) = [5, 2] := by decide +kernel
/-- An area that holds nothing is read back; and what asks for a state image, in each of its forms. -/
theorem wit_RestoringAndImages :
    (let y : Saved := ⟨0, 1, 0, 0, 0x4000, 128, 0, s0.ropes, [], false⟩
     let t : State := { small 0x4000 with ropes := [], stops := [], ctxs := (small 0x4000).ctxs.map fun c => { c with saved := [y] } }
     (t.ctx? 0).any fun c => let p : Placement := ⟨0, [⟨0, 0⟩], [0]⟩
       t.restorable c y && decide (p.ropes.length = y.ropes.length ∧ t.mapsOf y ≤ t.freeMaps 0) && placementOk p (t.banned 0) &&
       (t.placeAll 0 ((y.ropes.zip (seatsOf p)).map fun q => (q.2.1, q.1.need q.2.2))).isSome &&
       (match (t.as (.ctx 0)).vLoadN 0 0 0x4000 128 .load false with
         | (u, .ok h) => (match u.vLoadN 0 0 0x4000 (min (bits (leNat h) 256 64) (2 ^ 32)) .load false with
           | (_, .ok b) => (match parseArea y.ropes b with
             | .ok _ => false
             | .error _ => true)
           | _ => false)
         | _ => false)) = true ∧
    [2, 1].map (fun v => (bits v 32 32, bits v 0 32, bits v 128 12)) = [(0, 2, 0), (0, 1, 0)] ∧
    s0.coils 0 ≠ [] ∧ (s0.coils 0).any (fun k => !s0.quietCoil k) = true ∧
    (let s : State := { small 0x4000 with cores := sw.cores.map fun k => { k with rq := [ent 5 1 [0]] }, stops := [stp 0 true false] }
     (s.coils 0).all (fun k => s.quietCoil k) && (((s.core 0).rq.find? fun e => decide (e.seq = 5 ∧ e.ctx = 0) && e.popped &&
       ((s.rope? e.rope).map fun r => decide (r.ridx = 0)).getD false).any fun e => (s.rope? e.rope).isSome)) = true := by decide +kernel
/-! ### Witnesses: the device's own state -/

/-- States of the boot sequence, with and without an image. -/
def bt (b : BootSt) (p : Personality) (l : Nat) (i : Option FwImage) : State := { State.reset with boot := b, personality := p, fwlen := BitVec.ofNat 32 l, fwImage := i }
def img : FwImage := { sigOk := true, svEntry := 0x1000, svCode := [3] }
theorem wit_BootSequence :
    ((bt .waitfw .endpoint (2 ^ 26) none).fwlen.toNat ≤ 2 ^ 26 ∧ (bt .verify .endpoint 0 none).boot ≠ .waitfw ∧ (bt .verify .endpoint 0 none).boot ≠ .reset) ∧
    ((bt .waitfw .rootComplex 0 none).fwBytes.length = (bt .waitfw .rootComplex 0 none).fwlen.toNat ∧ (List.replicate 4096 (0 : Byte)).length ≤ 4096) ∧
    (2 ^ 26 < (bt .verify .endpoint (2 ^ 26 + 1) none).fwlen.toNat) ∧
    [none, some img].map (fun i => let s := bt .verify .endpoint (2 ^ 26) i
      decide (0 < s.fwlen.toNat ∧ s.fwlen.toNat ≤ 2 ^ 26 ∧ s.boot = .verify) && s.fwImage == i) = [true, true] ∧
    ((bt .init .endpoint 1 (some img)).boot = .init ∧ img.svCode ≠ []) := by decide +kernel
/-- A context with a budget, each side of the power thresholds, an error in each place. -/
theorem wit_PowerAndHeat : (s0.boot = .ready ∧ s0.hot = false ∧ ({ s0 with hot := true } : State).hot = true) ∧ 9700000 < 9700001 ∧ 9499999 < 9500000 ∧
    ((sl1 (lc 0 .running)).ctx? 0).any (fun c => (c.budgets[0]?).isSome) = true ∧ (s0.fibre w0 0).win.length = 256 ∧ hbmOk 0x20000 = true ∧ (s0.inb? (0x20000 / 65536)) = none ∧
    (s0.strike (.hbmLine 0x20000)).isSome = true := by decide +kernel
def hl : HomeLine :=
  { line := ⟨0, 0x30⟩, loc := .hbm 0x1800, key := 0, slot := 0, hstate := 0, ptrs := [], coarse := none, host := false, peers := [], sealed := false, wct := 0, lease := 0,
    txn := none, queue := [], priv := [], rdata := [], rwrite := false, rsent := false, rdir := false, rexp := 0, data := List.replicate 128 0, dirty := false, perm := none }
theorem wit_HardwareErrors : (({ s0 with homes := [hl] } : State).home? ⟨0, 0x30⟩).any (fun h => decide (h.loc = .hbm 0x1800) && !h.dirty) = true := by decide +kernel
/-- A halted fibre whose path can go, and one whose path waits. -/
theorem wit_Debugger : [none, some (Wait.tie 0)].map (fun (x : Option Wait) =>
    let s : State := fib (s0.setStrand w0 { s0.strand w0 with halted := true }) fun f => { f with wait := x }
    let d : State := { s with debugger := true }
    (s.strand w0).halted && decide ((s.fibre w0 0).st = .live) && (s.cores.all fun c => c.rq == []) &&
      (match (d.strand w0).focus 0 with
        | some st => st.cur.any fun p => d.pathReady w0 st p == x.isNone
        | none => false)) = [true, true] := by decide +kernel

/-- A context's descriptor at 0x20000, of a number, and the context in a form. -/
def dsc (no : Nat) (g : Context → Context) : State := { mem 0x20000 (leBytes 256 (no * 2 ^ 208)) s0 with ctxs := s0.ctxs.map fun c => g { c with desc := 0x20000 } }
theorem wit_ContextCommands : (s0.boot = .ready ∧ s0.cmds = [] ∧ s0.ctx? 4095 = none) ∧
    ([0, 4095].map fun n => match (dsc n id).svcRead 0x20000 256 with
      | some (u, b) => decide (0x20000 % 256 = 0 ∧ bits (leNat b) 208 12 = n) && localOk 0x20000 256 && descOk (leNat b) &&
          (u.ctx? n).isSome == (n == 0)
      | none => false) = [true, true] ∧
    ((dsc 0 fun c => { c with leaving := true }).ctx? 0).any (fun c => c.resident && c.leaving) = true ∧
    (let s := dsc 0 fun c => { c with resident := false }
     (s.ctx? 0).any fun c => !c.resident && !c.dead && decide ((s.ctxs.filter Context.resident).length < 256) && (match s.reload c true, s.reload c false with
       | (u, some 0), (_, some _) => (u.ctx? 0).any fun d => u.slotFits d
       | _, _ => false)) = true := by decide +kernel
/-- A fabric configuration of one slot at an address, with a retry count and without. -/
def cfg (r : Nat) : State := mem 0x20000 (leBytes 64 (r * 2 ^ 32)) s0
theorem wit_OtherCommands : (localOk 0x20000 8 && (match ({ mem 0x20000 (leBytes 8 (2 + 5 * 2 ^ 32)) s0 with ctxs := [] } : State).svcRead 0x20000 8 with
      | some (_, b) => decide (bits (fieldAt b 0 8) 18 14 = 0 ∧ bits (fieldAt b 0 8) 44 20 = 0 ∧ bits (fieldAt b 0 8) 0 18 = 2)
      | none => false)) = true ∧
    (let e : BitVec 128 := BitVec.ofNat 128 (2 ^ 26 + 5 * 2 ^ 64)
     decide (1023 < 1024 ∧ bits e.toNat 102 26 = 0 ∧ bits e.toNat 1 7 = 0) && !bit e.toNat 0) = true ∧ localOk 0x17FFFFF0000 65536 = true ∧
    ([0, 1].map fun r => localOk 0x20000 64 && (match (cfg r).svcRead 0x20000 64 with
      | some (u, h) => localOk 0x20000 (64 + 384 * (bits (leNat h) 0 10 + 1)) && (match u.svcRead 0x20040 (384 * (bits (leNat h) 0 10 + 1)) with
        | some (_, body) => (fabCfgOf h body).isSome == (r == 1)
        | none => false)
      | none => false)) = [true, true] := by decide +kernel
/-- Sessions and slots for a key; a batch that closes; a context that can be scrubbed, on command and at its end. -/
theorem wit_KeysAndEvidence :
    (let s : State := { s0 with sessions := [⟨1, true, 0, none⟩, ⟨2, false, 0, none⟩] }
     [1, 2, 3].map fun n => s.sessions.any fun x => decide (x.id = n) && x.secure) = [true, false, false] ∧
    [0, 1].map (fun n => s0.keys.any fun k => decide (k.no = n ∧ k.st ≠ .empty)) = [true, false] ∧
    (({ s0 with gtime := 100000, batch := some ⟨[], 0, 0, [], 0⟩ } : State).batch.any fun b => decide (b.start + 100000 ≤ 100000)) = true ∧
    ([[], [Cmd.mk .end_ 0 8 0]].all fun m => [none, some 3].all fun t =>
      let s : State := { s0 with ropes := [], cmds := m, ctxs := s0.ctxs.map fun c => { c with rcpt := 2 ^ 63 + 64, scrubAt := t } }
      (s.ctx? 0).any fun c => decide (c.no = 0 ∧ c.queue = [] ∧ c.scrubAt = t ∧ s.coils 0 = []) && s.scrubReady 0 && bit c.rcpt 63 &&
        (m == [] || (s.cmds.find? fun m => decide (m.kind = .end_ ∧ m.ctx = 0)).isSome)) = true := by decide +kernel
/-! ### Witnesses: the fabric and the step -/

/-- A transaction of peer 2, for a device, at an address. -/
def ftx (dst a c : Nat) (q : Option AtomReq) : FabTx :=
  { dst := dst, src := 2, tid := 5, addr := a, mask := BitVec.allOnes 128, data := List.replicate 128 7, atom := q, cls := c, scope := .sys, order := .rlx, exp := 0, slot := 0 }
theorem wit_FabricArrivals : ((hst s0).boot = .ready ∧ (ftx 3 0 0 none).dst ≠ (hst s0).chip ∧ (ftx 1 0 0 none).dst = (hst s0).chip) ∧ ((hst s0).inEntry 0x20000).isNone = true ∧
    (((hst s0).inEntry 0x1FF80).any fun e => let x := (hst s0).inXl e 0x1FF80
      ((hst s0).mLoad x 128 .load (.peer 2)).isSome && ((hst s0).mStore x (List.replicate 128 7) .store (.peer 2)).isSome &&
        ((hst s0).mAtomic x (.rmw .add .ui32 1) .atomic (.peer 2)).isSome) = true ∧ (List.replicate 128 (7 : Byte)).length = 128 ∧
    ((hst s0).asHome (MType.ofCode 0) (ftx 1 0x1FF80 0 none)).isSome = true ∧ ((hst s0).asHolder (MType.ofCode 15) (ftx 1 0x1FF80 15 none)).isSome = true := by decide +kernel
/-- Open transactions of each kind, an association, a flit past its retries. -/
def otx (k : TxKind) : Tx := { tid := 5, dst := 2, kind := k, addr := 0, mask := 0, data := [], atom := none, cls := 0, wct := 0, what := .agent .sys 0 0x1800 }
def bnk (n : Nat) : Bank := ⟨1, n, 0, true⟩
def fbs (g : Fabric → Fabric) : State := { s0 with fab := g { Fabric.init with tabs := [[some 2, none]], assocs := [⟨2, bnk (2 ^ 32), ⟨1, 0, 0, false⟩, false, true⟩, ⟨3, bnk 0, bnk 0, false, false⟩] } }
theorem wit_FabricAnswers :
    [TxKind.read, .write, .atomic].map (fun k => let s := fbs fun f => { f with open_ := [otx k] }
      (s.openTx 2 5).any fun t => decide (t.kind = k) && (s.txOwner t).isSome && (s.endTx t [] none).isSome && (s.endTx t [7] none).isSome && ((s.dataLoss 0 0x1800 1).endTx t [] none).isSome && (s.endTx t [] (some 9)).isSome) = [true, true, true] ∧
    (let s := { so (opr 5 tz .running) with fab := (fbs fun f => { f with open_ := [{ otx .msg with what := .op 1 }] }).fab }
     (s.openTx 2 5).any fun t => decide (t.what = .op 1) && (s.txOwner t).isSome && (s.op? 1).isSome) = true ∧
    ((lookupBy Assoc.peer 2 (fbs id).fab.assocs).any fun a => (a.bank false).live) = true ∧
    ((fbs fun f => { f with retry := 8, flits := [⟨2, false, 4, 0, otx .read, true, 9, false, true⟩] }).fab.flits.find? fun x =>
      decide (x.peer = 2 ∧ x.bank = false ∧ x.ctr = 4 ∧ 8 < x.tries)).any (fun x => ((fbs fun f => { f with retry := 8, flits := [] }).loseTx x.tx).isSome) = true := by decide +kernel
theorem wit_RotorAndAssociations :
    (let s := fbs fun f => { f with next := some (⟨8, 0, [[some 3]]⟩, [0, 1]), slots := [(0, 1, 0)] }
     s.fab.atEnd 0 && (s.fab.next.any fun n => n.2.contains 0)) = true ∧
    (let f := (fbs fun f => { f with slots := [(0, 1, 0)] }).fab
     decide (f.tab 0 ≠ []) && !f.adopts 0 && (f.slotNo 0).isSome && decide (f.flits = [])) = true ∧
    (let f := (fbs fun f => { f with slots := [(0, 0, 0)], relay := [(.read, ftx 2 0 0 none)] }).fab
     (f.relay.find? fun r => decide (f.peerAt 0 0 = some r.2.dst)).any fun r => decide (flitsOf r.2.data.length ≤ f.room 0)) = true ∧
    ((lookupBy Assoc.peer 2 ((fbs id).retireBank 2).fab.assocs).any fun a => (((fbs id).retireBank 2).newKey a).isSome) = true ∧
    ((lookupBy Assoc.peer 2 (fbs id).fab.assocs).any fun a => decide (2 ^ 32 ≤ (a.bank a.kg).txc) && ((fbs id).newKey a).isSome) = true ∧
    ((lookupBy Assoc.peer 3 (fbs id).fab.assocs).any fun a => !a.cached) = true := by decide +kernel

/-- A placed word is the next thing that a step runs. -/
theorem wit_StepRunsTheDecodedWord :
    (let s := State.reset.withFetchWord 64 0xF000
     match State.chooseMove (s.tick.moves exec) s.tick with
     | (some (.issue w), s1) =>
       let l := ((s1.strand w).cur.map fun p => (lanesOf p.mask).headD 0).getD 0
       let u : State := { s1 with cur := some w, agent := .lane (w.lane l) (s1.fibre w l).issued }
       (s1.strand w).cur.any fun p => p.cl.any fun cl => !cl.seek && u.pathReady w (s1.strand w) p && (u.breakHit w cl.ip).isNone && (match u.word w cl.ip with
         | (s2, .ok f) => (!f.lastOnly || cl.left == 1) && (!f.firstOnly || cl.first) &&
             (decodeFields (!w.isSup) cl.set0.isSome ((s2.strand w).fibre ((lanesOf p.mask).headD 0)).win.length f).isOk
         | _ => false)
     | _ => false) = true := by decide +kernel
/-- Well-formed instructions of each quarter that the encoder has a word for. -/
theorem wit_EncodeDecode :
    (Instr.iadd gt .i32 false (.w 255) (.w 1) im).wf = true ∧ (encodeA (Instr.iadd gt .i32 false (.w 255) (.w 1) im)).isSome = true ∧
    (Instr.fadd gt .f32 false .rne (.w 3) (fs 1) (fs 2)).wf = true ∧ (encodeB (Instr.fadd gt .f32 false .rne (.w 3) (fs 1) (fs 2))).isSome = true ∧
    (Instr.ld gt .b32 4 (.w 0) mup).wf = true ∧ (encodeC (Instr.ld gt .b32 4 (.w 0) mup)).isSome = true ∧
    (Instr.tzero gt (some 4) (.w 0) tup).wf = true ∧ (encodeD (Instr.tzero gt (some 4) (.w 0) tup)).isSome = true := by decide +kernel
theorem wit_StepKeepsAtRest : State.reset.AtRest ∧ (match step (State.reset.withFetchWord 64 0xF000) with
    | .next _ => true
    | _ => false) = true := ⟨⟨rfl, rfl, fun r h => by simp [State.reset] at h⟩, by decide +kernel⟩
theorem wit_MemoryCells : Memory.wf ([⟨5, 1⟩, ⟨9, 255⟩] : List Host.Cell) = true ∧ Memory.wf ([⟨5, 0⟩] : List Host.Cell) = false := by decide +kernel
end Sys2Proof.Tests
end

section
/-! SUPPORT. The words of group 1 and 2 that write one result: their effect on registers, and their values (R81, R92, R99). -/

namespace Sys2Proof.Machine

/-! ### A word on registers alone that completes for any operands -/

@[simp] theorem Fibre.setReg_st (f : Fibre) (i v : Nat) : (f.setReg i v).st = f.st := rfl
@[simp] theorem Fibre.setNreg_st (f : Fibre) (i v : Nat) : (f.setNreg i v).st = f.st := rfl
@[simp] theorem Fibre.setLat_st (f : Fibre) (v : Nat) : (f.setLat v).st = f.st := rfl

@[simp] theorem Fibre.dst_st (f : Fibre) (wide : Bool) (d : Dst) (v : Nat) : (f.dst wide d v).st = f.st := by
  cases d <;> cases wide <;> rfl

@[simp] theorem Fibre.result_st (f : Fibre) (wide : Bool) (d : Dst) (v : Nat) : (f.result wide d v).st = f.st := by
  simp [Fibre.result]

/-- A word whose lane function always completes has that function as its effect (R24, R82). -/
theorem effect_of_issue {ins : Instr} {i : Iss} {F : Fibre → Fibre} (hx : ∀ s, exec ins s = issue i (fun _ _ fb => .ok (F fb)) s)
    (hst : ∀ fb, (F fb).st = fb.st) : Effect ins i F := by
  intro s c ready _
  rw [hx]
  exact issue_done ready (fun _ => F) (fun _ _ => rfl) (fun _ _ => hst _)

/-- The effect of a word of two sources that writes one result (R80, R82). -/
theorem effect_of_alu2 {ins : Instr} {g : Guard} {dw : Bool} {d : Dst} {pa pb : Pos} {a b : Src} {f : Nat → Nat → Nat}
    (hx : ∀ s, exec ins s = alu2 g dw d pa a pb b f s) :
    Effect ins (aluIss g dw (some d) [(pa, a), (pb, b)]) (fun fb => fb.result dw d (f (fb.src pa a) (fb.src pb b))) :=
  effect_of_issue hx fun _ => Fibre.result_st _ _ _ _

/-- The effect of a word of three sources that writes one result (R80, R82). -/
theorem effect_of_alu3 {ins : Instr} {g : Guard} {dw : Bool} {d : Dst} {pa pb pc : Pos} {a b c : Src} {f : Nat → Nat → Nat → Nat}
    (hx : ∀ s, exec ins s = alu3 g dw d pa a pb b pc c f s) :
    Effect ins (aluIss g dw (some d) [(pa, a), (pb, b), (pc, c)])
      (fun fb => fb.result dw d (f (fb.src pa a) (fb.src pb b) (fb.src pc c))) :=
  effect_of_issue hx fun _ => Fibre.result_st _ _ _ _

/-! ### Elements and delivery (R81) -/

/-- The model's reduction modulo 2^w is a bit vector's. -/
theorem wrap_eq_toNat_ofInt (w : Nat) (v : Int) : wrap w v = (BitVec.ofInt w v).toNat := (BitVec.toNat_ofInt v).symm

theorem wrap_natCast (w n : Nat) : wrap w n = n % 2 ^ w := by
  rw [wrap, ← Int.natCast_mod, Int.toNat_natCast]

/-- The model's signed reading is a bit vector's. -/
theorem sx_eq_toInt_ofNat {w : Nat} (hw : w ≠ 0) (v : Nat) : sx w v = (BitVec.ofNat w v).toInt := by
  have half : 2 * 2 ^ (w - 1) = 2 ^ w := mul_pow_sub_one hw 2
  simp only [sx, BitVec.toInt_eq_toNat_cond, BitVec.toNat_ofNat]
  congr 1
  exact propext (by omega)

theorem sx_mod (w v : Nat) : sx w (v % 2 ^ w) = sx w v := by simp [sx]

theorem elemN_zero (w v : Nat) : elemN w v 0 = v % 2 ^ w := by simp [elemN]

theorem iw_ne_zero (t : IType) : iw t ≠ 0 := by cases t <;> decide

/-- The lowest element of an unsigned type (R91 Get). -/
theorem elemI_zero_unsigned {t : IType} (h : t.signed = false) (v : Nat) : elemI t v 0 = (v % 2 ^ iw t : Nat) := by
  rw [elemI, if_neg (by simp [h]), elemN_zero]

/-- The lowest element of a signed type (R91 Get). -/
theorem elemI_zero_signed {t : IType} (h : t.signed = true) (v : Nat) : elemI t v 0 = (BitVec.ofNat (iw t) v).toInt := by
  rw [elemI, if_pos h, elemN_zero, sx_mod, sx_eq_toInt_ofNat (iw_ne_zero t)]

theorem clampI_eq_max_min {lo hi : Int} (h : lo ≤ hi) (v : Int) : clampI lo hi v = max lo (min hi v) := by
  unfold clampI
  split
  · omega
  · split <;> omega

theorem iMin_le_iMax (t : IType) : iMin t ≤ iMax t := by cases t <;> decide

theorem putI_exact (t : IType) (v : Int) : putI t false v = wrap (iw t) v := rfl

theorem putI_sat (t : IType) (v : Int) : putI t true v = wrap (iw t) (max (iMin t) (min (iMax t) v)) := by
  rw [putI, if_pos rfl, clampI_eq_max_min (iMin_le_iMax t)]

/-- Clamping to an unsigned type cuts off from above alone. -/
theorem putI_sat_natCast {t : IType} (h : t.signed = false) (n : Nat) : putI t true n = min n (2 ^ iw t - 1) := by
  have pos : 0 < 2 ^ iw t := Nat.two_pow_pos _
  have top : iMax t = (2 ^ iw t - 1 : Nat) := by simp [iMax, h]
  have bottom : iMin t = 0 := by simp [iMin, h]
  have clamped : max (iMin t) (min (iMax t) n) = (min n (2 ^ iw t - 1) : Nat) := by omega
  rw [putI_sat, clamped, wrap_natCast, Nat.mod_eq_of_lt (by omega)]

/-! ### IMADW (R92) -/

theorem vImadw_unsigned (sat : Bool) (a b c : Nat) :
    vImadw .ui32 sat a b c = putI .ui64 sat (a % 2 ^ 32 * (b % 2 ^ 32) + c % 2 ^ 64 : Nat) := by
  simp only [vImadw, elemI_zero_unsigned (t := .ui32) rfl, elemI_zero_unsigned (t := .ui64) rfl, IType.signed, Nat.cast_add,
    Nat.cast_mul, Bool.false_eq_true, if_false]
  rfl

theorem vImadw_signed (sat : Bool) (a b c : Nat) :
    vImadw .i32 sat a b c =
      putI .i64 sat ((BitVec.ofNat 32 a).toInt * (BitVec.ofNat 32 b).toInt + (BitVec.ofNat 64 c).toInt) := by
  simp only [vImadw, elemI_zero_signed (t := .i32) rfl, elemI_zero_signed (t := .i64) rfl, IType.signed, if_true]
  rfl

theorem vImadw_ui32 (a b c : Nat) : vImadw .ui32 false a b c = (a % 2 ^ 32 * (b % 2 ^ 32) + c) % 2 ^ 64 := by
  rw [vImadw_unsigned, putI_exact, wrap_natCast]
  exact Nat.add_mod_mod _ _ _

theorem vImadw_ui32_sat (a b c : Nat) :
    vImadw .ui32 true a b c = min (a % 2 ^ 32 * (b % 2 ^ 32) + c % 2 ^ 64) (2 ^ 64 - 1) := by
  rw [vImadw_unsigned, putI_sat_natCast rfl]
  rfl

theorem vImadw_i32 (a b c : Nat) : vImadw .i32 false a b c =
    (BitVec.ofInt 64 ((BitVec.ofNat 32 a).toInt * (BitVec.ofNat 32 b).toInt + (BitVec.ofNat 64 c).toInt)).toNat := by
  rw [vImadw_signed, putI_exact, wrap_eq_toNat_ofInt]
  rfl

theorem vImadw_i32_sat (a b c : Nat) : vImadw .i32 true a b c =
    (BitVec.ofInt 64 (max (-2 ^ 63) (min (2 ^ 63 - 1)
      ((BitVec.ofNat 32 a).toInt * (BitVec.ofNat 32 b).toInt + (BitVec.ofNat 64 c).toInt)))).toNat := by
  rw [vImadw_signed, putI_sat, wrap_eq_toNat_ofInt]
  rfl

/-- The effect of IMADW, whose addend is of the 64-bit type w of the factors' signedness. -/
theorem imadw_effect {t w : IType} (hw : w = if t.signed then .i64 else .ui64) (g : Guard) (sat : Bool) (d : Dst) (a b c : Src) :
    Effect (.imadw g t sat d a b c) (aluIss g true (some d) [(.i t, a), (.i t, b), (.i w, c)])
      (fun f => f.result true d (vImadw t sat (f.src (.i t) a) (f.src (.i t) b) (f.src (.i w) c))) := by
  subst hw
  exact effect_of_alu3 fun _ => rfl

/-- Settles O2: the word's effect is that of any three-source word, and its value, by signedness and `.sat`, is the sum as R81 reduces
it. -/
theorem imadwWritesTheWideSum : Obligations.ImadwWritesTheWideSum := by
  intro g d a b c
  refine ⟨?_, ?_, ?_, ?_, by decide⟩
  · simpa only [vImadw_ui32] using imadw_effect (t := .ui32) (w := .ui64) rfl g false d a b c
  · simpa only [vImadw_i32] using imadw_effect (t := .i32) (w := .i64) rfl g false d a b c
  · simpa only [vImadw_ui32_sat] using imadw_effect (t := .ui32) (w := .ui64) rfl g true d a b c
  · simpa only [vImadw_i32_sat] using imadw_effect (t := .i32) (w := .i64) rfl g true d a b c

/-! ### Logic (R99) -/

/-- ANDN over the type's width, bit by bit. -/
theorem testBit_vAndn (t : IType) (a b : Nat) {j : Nat} (hj : j < iw t) :
    (vAndn t a b).testBit j = (a.testBit j && !b.testBit j) := by
  have complement : 2 ^ iw t - 1 - b % 2 ^ iw t = 2 ^ iw t - (b % 2 ^ iw t + 1) := by omega
  rw [vAndn, complement, Nat.testBit_and, Nat.testBit_two_pow_sub_succ (Nat.mod_lt _ (Nat.two_pow_pos _)), Nat.testBit_mod_two_pow]
  simp [hj]

/-- Settles O4: each word is one of two sources that writes the bitwise operation, and ANDN's complement is taken bit by bit. -/
theorem logicIsBitByBit : Obligations.LogicIsBitByBit := by
  intro g t d a b
  refine ⟨?_, ?_, ?_, ?_, fun _ _ => testBit_vAndn t _ _⟩
  · exact effect_of_alu2 (f := (· &&& ·)) fun _ => rfl
  · exact effect_of_alu2 (f := (· ||| ·)) fun _ => rfl
  · exact effect_of_alu2 (f := (· ^^^ ·)) fun _ => rfl
  · exact effect_of_alu2 (f := vAndn t) fun _ => rfl

end Sys2Proof.Machine
end

section
/-! SUPPORT. The collectives of group 8: the issuing set of a word that stands, its lowest lane, and ELECT (R174, R180). -/

namespace Sys2Proof.Machine

@[simp] theorem Fibre.setPred_st (f : Fibre) (i : Num4) (v : Bool) : (f.setPred i v).st = f.st := by
  unfold Fibre.setPred
  split <;> rfl

/-- No executing lane of a word that stands is in a hazard, so the issuing set is all of them (R174). -/
theorem Ready.set_eq_lanes {s : State} {c : Cx} {i : Iss} (r : Ready s c i) : c.set i = c.lanes i.g :=
  List.filter_eq_self.2 fun l hl => by simp [r.clear l hl]

/-- The model's minimum of a list is the library's. -/
theorem listMin_eq_min? (l : List Nat) : listMin l = l.min? := by
  cases l <;> rfl

theorem listMin_eq_some_iff {l : List Nat} {m : Nat} : listMin l = some m ↔ m ∈ l ∧ ∀ k ∈ l, m ≤ k := by
  rw [listMin_eq_min?, List.min?_eq_some_iff]

/-- Settles O15: the issuing set is the executing lanes, its minimum is m, and ELECT writes what that minimum says in each of them. -/
theorem electNamesTheLowestLane : Obligations.ElectNamesTheLowestLane := by
  intro g cv d p gate s c m ready mem le
  have lowest : listMin (c.set { len := 8, g := g, uses := useD 1 d ++ useGate (if cv then gate else none) }) = some m := by
    rw [ready.set_eq_lanes]
    exact listMin_eq_some_iff.2 ⟨mem, le⟩
  refine issue_done ready (fun l f => (f.dst false d m).setPred p (decide (l = m))) (fun l _ => ?_) fun l _ => ?_
  · simp only [lowest, Option.getD_some, beq_eq_decide]
  · rw [Fibre.setPred_st, Fibre.dst_st]

end Sys2Proof.Machine
end

section
/-! SUPPORT. What every step of the machine keeps (R162, R163, log 4). -/

namespace Sys2Proof.Machine

/-- Noting which strands are ready leaves no strand of the active set pending. -/
theorem State.noteReady_sets (s : State) : ∀ r ∈ s.noteReady.ropes, ∀ st ∈ r.strands, st.slot.isSome = true → st.ready = none := by
  intro r hr st hst slot
  obtain ⟨rp, -, rfl⟩ := List.mem_map.1 hr
  obtain ⟨k, hk, rfl⟩ := List.mem_mapIdx.1 hst
  exact if_pos slot

/-- The last thing that settling does puts the machine at rest (log 4). -/
theorem State.noteReady_atRest (s : State) : ({ s.noteReady with cur := none, agent := .sys, again := false, still := false } : State).AtRest :=
  ⟨rfl, rfl, s.noteReady_sets⟩

/-- What follows at once from a move ends with the machine at rest. -/
theorem State.settle_atRest (s : State) : s.settle.AtRest := by
  unfold State.settle
  split
  · exact State.noteReady_atRest _
  · extract_lets
    exact State.noteReady_atRest _

/-- A step that answers a next state has settled one. -/
theorem step_eq_settle {s t : State} (h : step s = .next t) : ∃ u : State, t = u.settle := by
  simp only [step, stepWith] at h
  split at h
  · exact ⟨_, (Host.Outcome.next.inj h).symm⟩
  · split at h
    · exact ⟨_, (Host.Outcome.next.inj h).symm⟩
    · rename_i no_next
      exact absurd h (no_next t)

/-- Settles O58: a step ends by settling, whatever the move. -/
theorem stepKeepsAtRest : Obligations.StepKeepsAtRest := by
  intro s t _ h
  obtain ⟨u, rfl⟩ := step_eq_settle h
  exact u.settle_atRest

end Sys2Proof.Machine
end

section
/-! SUPPORT. The bytes of a word give its fields back (R6, R58). -/

namespace Sys2Proof

@[simp] theorem leBytes_length (n v : Nat) : (leBytes n v).length = n := by
  induction n generalizing v with
  | zero => rfl
  | succ n ih => simp [leBytes, ih]

/-- The value of the n low bytes of a number (R6). -/
theorem leNat_leBytes (n v : Nat) : leNat (leBytes n v) = v % 256 ^ n := by
  induction n generalizing v with
  | zero => simp [leBytes, leNat, Nat.mod_one]
  | succ n ih => rw [leBytes, leNat, ih, BitVec.toNat_ofNat, pow_succ' 256 n, Nat.mod_mul]

theorem leNat_leBytes_toNat {w n : Nat} (v : BitVec w) (h : w ≤ 8 * n) : leNat (leBytes n v.toNat) = v.toNat := by
  have fits : 2 ^ w ≤ 256 ^ n := by
    rw [show 256 = 2 ^ 8 from rfl, ← Nat.pow_mul]
    exact Nat.pow_le_pow_right (by decide) h
  rw [leNat_leBytes, Nat.mod_eq_of_lt (Nat.lt_of_lt_of_le v.isLt fits)]

/-- The low 64 bits of a word give back its fields (R58). -/
theorem Fields.ofWord_toWord (f : Fields) : Fields.ofWord f.toWord f.up = f := by
  obtain ⟨opc, pg, pn, dst, sa, sb, sc, md, ext, up⟩ := f
  simp (disch := omega) only [Fields.ofWord, Fields.toWord, BitVec.extractLsb'_append_eq_of_add_le, BitVec.extractLsb'_append_eq_of_le,
    BitVec.getLsbD_append]
  simp

/-- The low two bits of a word tell its length (R58). -/
theorem Fields.toWord_code (f : Fields) : f.toWord.extractLsb' 0 2 = f.up.code := by
  simp (disch := omega) only [Fields.toWord, BitVec.extractLsb'_append_eq_of_add_le, BitVec.extractLsb'_eq_self]

/-- Every word is read back from its bytes (R6, R58). -/
theorem Fields.ofBytes_toBytes (f : Fields) : Fields.ofBytes f.toBytes = some f := by
  have low : f.toBytes.take 8 = leBytes 8 f.toWord.toNat := List.take_left' (leBytes_length ..)
  have high : f.toBytes.drop 8 = leBytes (f.up.len - 8) f.up.bits.toNat := List.drop_left' (leBytes_length ..)
  have length : f.toBytes.length = f.up.len := by
    simp only [Fields.toBytes, List.length_append, leBytes_length]
    cases f.up <;> rfl
  have word : BitVec.ofNat 64 (leNat (f.toBytes.take 8)) = f.toWord := by
    rw [low, leNat_leBytes_toNat _ (by decide), BitVec.ofNat_toNat, BitVec.setWidth_eq]
  have bytes : wordLen (f.toWord.extractLsb' 0 2) = f.up.len := by
    rw [f.toWord_code]
    cases f.up <;> rfl
  have whole : f.toBytes.take f.up.len = f.toBytes := List.take_of_length_le (by omega)
  have fits : ¬ (f.up.len = 0 ∨ f.toBytes.length < f.up.len) := by
    rw [length]
    cases f.up <;> simp [Upper.len]
  simp only [Fields.ofBytes, word, bytes, whole, high, if_neg fits]
  refine congrArg some (Eq.trans ?_ f.ofWord_toWord)
  congr 1
  cases f.up with
  | no => rfl
  | w32 v =>
    have widened : (Upper.w32 v).bits.toNat = v.toNat := BitVec.toNat_setWidth_of_le (by decide)
    have value : leNat (leBytes 4 v.toNat) = v.toNat := leNat_leBytes_toNat v (by decide)
    simp [Upper.len, widened, value]
  | w64 v =>
    have value : leNat (leBytes 8 v.toNat) = v.toNat := leNat_leBytes_toNat v (by decide)
    simp [Upper.len, Upper.bits, value]

end Sys2Proof
end

section
/-! SUPPORT. Codes of suffixes and operands are read back: each decoder of R61, R66 and R67 undoes its encoder. -/

namespace Sys2Proof

/-! ### Suffixes -/

@[simp] theorem IType.ofCode_code (t : IType) : IType.ofCode t.code = t := by cases t <;> rfl
@[simp] theorem FType.ofCode_code (t : FType) : FType.ofCode t.code = t := by cases t <;> rfl
@[simp] theorem Rc.ofCode_code (r : Rc) : Rc.ofCode r.code = r := by cases r <;> rfl
@[simp] theorem Cc.ofCode_code (c : Cc) : Cc.ofCode c.code = c := by cases c <;> rfl
@[simp] theorem AccMode.ofCode_code (m : AccMode) : AccMode.ofCode m.code = m := by cases m <;> rfl
@[simp] theorem Gran.ofCode_code (g : Gran) : Gran.ofCode g.code = g := by cases g <;> rfl
@[simp] theorem MovType.ofCode_code (t : MovType) : MovType.ofCode t.code = t := by cases t <;> rfl
@[simp] theorem CsrOp.ofCode_code (o : CsrOp) : CsrOp.ofCode o.code = o := by cases o <;> rfl
@[simp] theorem CFmt.ofCode_code (f : CFmt) : CFmt.ofCode f.code = f := by cases f <;> rfl
@[simp] theorem VoteMode.ofCode_code (m : VoteMode) : VoteMode.ofCode m.code = m := by cases m <;> rfl
@[simp] theorem MatchForm.ofCode_code (f : MatchForm) : MatchForm.ofCode f.code = f := by cases f <;> rfl
@[simp] theorem ShflMode.ofCode_code (m : ShflMode) : ShflMode.ofCode m.code = m := by cases m <;> rfl
@[simp] theorem RedOp.ofCode_code (o : RedOp) : RedOp.ofCode o.code = o := by cases o <;> rfl
@[simp] theorem RedType.ofCode_code (t : RedType) : RedType.ofCode t.code = t := by cases t <;> rfl
@[simp] theorem HbarMode.ofCode_code (m : HbarMode) : HbarMode.ofCode m.code = m := by cases m <;> rfl
@[simp] theorem Width.ofCode_code (w : Width) : Width.ofCode w.code = w := by cases w <;> rfl
@[simp] theorem Scope.ofCode_code (s : Scope) : Scope.ofCode s.code = s := by cases s <;> rfl
@[simp] theorem Order.ofCode_code (o : Order) : Order.ofCode o.code = o := by cases o <;> rfl
@[simp] theorem Hint.ofCode_code (h : Hint) : Hint.ofCode h.code = h := by cases h <;> rfl
@[simp] theorem AtomOp.ofCode_code (o : AtomOp) : AtomOp.ofCode o.code = o := by cases o <;> rfl
@[simp] theorem AtomType.ofCode_code (t : AtomType) : AtomType.ofCode t.code = t := by cases t <;> rfl
@[simp] theorem XredType.ofCode_code (t : XredType) : XredType.ofCode t.code = t := by cases t <;> rfl
@[simp] theorem TewOp.ofCode_code (o : TewOp) : TewOp.ofCode o.code = o := by cases o <;> rfl
@[simp] theorem TredOp.ofCode_code (o : TredOp) : TredOp.ofCode o.code = o := by cases o <;> rfl
@[simp] theorem SSpace.ofCode_code (s : SSpace) : SSpace.ofCode s.code = s := by cases s <;> rfl
@[simp] theorem HaltMode.ofCode_code (m : HaltMode) : HaltMode.ofCode m.code = m := by cases m <;> rfl

/-! ### Fields of the mod and ext values -/

@[simp] theorem mdI_type (t : IType) (s : Bool) (v : BitVec 2) : (mdI t s v).extractLsb' 3 3 = t.code := by cases t <;> decide +revert
@[simp] theorem mdI_sat (t : IType) (s : Bool) (v : BitVec 2) : (mdI t s v)[2] = s := by cases t <;> decide +revert
@[simp] theorem mdI_var (t : IType) (s : Bool) (v : BitVec 2) : (mdI t s v).extractLsb' 0 2 = v := by cases t <;> decide +revert
@[simp] theorem mdI_zero (t : IType) (s : Bool) (v : BitVec 2) : (mdI t s v)[0] = v[0] := by cases t <;> decide +revert
@[simp] theorem mdF_type (t : FType) (s : Bool) (r : Rc) : (mdF t s r).extractLsb' 4 2 = t.code := by
  cases t <;> cases r <;> decide +revert
@[simp] theorem mdF_sat (t : FType) (s : Bool) (r : Rc) : (mdF t s r)[3] = s := by cases t <;> cases r <;> decide +revert
@[simp] theorem mdF_rc (t : FType) (s : Bool) (r : Rc) : (mdF t s r).extractLsb' 0 3 = r.code := by
  cases t <;> cases r <;> decide +revert
@[simp] theorem ex4_low (b : Bool) (n : BitVec 4) : (ex4 b n).extractLsb' 0 4 = n := by decide +revert
@[simp] theorem ex4_high (b : Bool) (n : BitVec 4) : (ex4 b n)[4] = b := by decide +revert
@[simp] theorem ex4_zero (b : Bool) (n : BitVec 4) : (ex4 b n)[0] = n[0] := by decide +revert

/-- The bits of ext in layout XF (R67). -/
theorem xf_bits : ∀ na nb nc aa ab : Bool, let x := (bit1 ab ++ bit1 aa ++ bit1 nc ++ bit1 nb ++ bit1 na : BitVec 5)
    x[0] = na ∧ x[1] = nb ∧ x[2] = nc ∧ x[3] = aa ∧ x[4] = ab := by decide

@[simp] theorem exF_nega (a b : FSrc) (n : Bool) : (exF a b n)[0] = a.neg := (xf_bits a.neg b.neg n a.abs b.abs).1
@[simp] theorem exF_negb (a b : FSrc) (n : Bool) : (exF a b n)[1] = b.neg := (xf_bits a.neg b.neg n a.abs b.abs).2.1
@[simp] theorem exF_negc (a b : FSrc) (n : Bool) : (exF a b n)[2] = n := (xf_bits a.neg b.neg n a.abs b.abs).2.2.1
@[simp] theorem exF_absa (a b : FSrc) (n : Bool) : (exF a b n)[3] = a.abs := (xf_bits a.neg b.neg n a.abs b.abs).2.2.2.1
@[simp] theorem exF_absb (a b : FSrc) (n : Bool) : (exF a b n)[4] = b.abs := (xf_bits a.neg b.neg n a.abs b.abs).2.2.2.2

/-! ### Operands (R59, R61) -/

theorem setWidth9_toNat (i : BitVec 8) : (i.setWidth 9).toNat = i.toNat := BitVec.toNat_setWidth_of_le (by decide)

theorem nearCode_toNat : ∀ i : BitVec 3, (0x100#9 ||| i.setWidth 9).toNat = 0x100 + i.toNat := by decide

theorem constCode_toNat : ∀ j : BitVec 6, (0x140#9 ||| j.setWidth 9).toNat = 0x140 + j.toNat := by decide

/-- Where a source's code stands among the ranges of R61. -/
theorem Src.code_toNat (s : Src) : s.code.toNat = match s with
    | .w i => i.toNat
    | .n i => 0x100 + i.toNat
    | .lat => 0x108
    | .c j => 0x140 + j.toNat
    | .imm _ => 0x1F0 := by
  cases s with
  | w i => exact setWidth9_toNat i
  | n i => exact nearCode_toNat i
  | lat => rfl
  | c j => exact constCode_toNat j
  | imm v => rfl

theorem nearCode_index : ∀ i : BitVec 3, (0x100#9 ||| i.setWidth 9).setWidth 3 = i := by decide

theorem constCode_index : ∀ j : BitVec 6, (0x140#9 ||| j.setWidth 9).setWidth 6 = j := by decide

/-- A source is read back from its code; the upper word supplies an immediate. -/
theorem srcOf_code (up : Upper) (s : Src) : srcOf up s.code = if s.isImm then .imm up.imm else s := by
  have at_ := s.code_toNat
  unfold srcOf
  cases s with
  | w i => rw [if_pos (by simp only [at_]; omega)]; simp [Src.isImm, Src.code]
  | n i =>
    rw [if_neg (by simp only [at_]; omega), if_pos (by simp only [at_]; omega)]
    simp only [Src.isImm, Src.code, nearCode_index, Bool.false_eq_true, if_false]
  | lat => rfl
  | c j =>
    rw [if_neg (by simp only [at_]; omega), if_neg (by simp only [at_]; omega), if_neg (by simp only [at_]; omega), if_pos (by simp only [at_]; omega)]
    simp only [Src.isImm, Src.code, constCode_index, Bool.false_eq_true, if_false]
  | imm v => rfl

/-- A source that is no immediate is read back from its code under any upper word. -/
@[simp] theorem srcOf_code_of_not_imm {up : Upper} {s : Src} (h : s.isImm = false) : srcOf up s.code = s := by
  rw [srcOf_code, h]; rfl

/-- A destination is read back from its code. -/
@[simp] theorem dstOf_code (d : Dst) : dstOf d.code = d := by
  unfold dstOf
  cases d with
  | w i => rw [if_pos (by simp only [Dst.code, setWidth9_toNat]; omega)]; simp [Dst.code]
  | n i =>
    rw [if_neg (by simp only [Dst.code, nearCode_toNat]; omega), if_pos (by simp only [Dst.code, nearCode_toNat]; omega)]
    simp only [Dst.code, nearCode_index]
  | lat => rfl

@[simp] theorem p4_pc9 (p : Num4) : p4 (pc9 p) = p := by simp [p4, pc9]

end Sys2Proof
end

section
/-! SUPPORT. The checks of R71 on an encoded word: what the operand codes of well-formed operands pass. -/

namespace Sys2Proof

/-- The word passes checks 4 to 8 of R71, where its clause header has a set0 and it runs in the supervisor strand. -/
def Fields.passes (f : Fields) : Bool :=
  (formOf f).any fun k => k.lenOk f && k.rsvOk f && (k.fields f).all fun p => p.1.codeOk p.2

/-- What is left of the checks of a word that passes them is the window's (R71). -/
theorem checkFields_of_passes {f : Fields} (h : f.passes = true) : ∃ k, formOf f = some k ∧
    checkFields false true 256 f = if (k.fields f).all (fun q => q.1.inWindow 256 q.2) then none else some .window := by
  unfold Fields.passes at h
  cases hk : formOf f with
  | none => simp [hk] at h
  | some k =>
    obtain ⟨⟨len, rsv⟩, codes⟩ : (k.lenOk f = true ∧ k.rsvOk f = true) ∧ (k.fields f).all (fun p => p.1.codeOk p.2) = true := by
      simpa only [hk, Option.any_some, Bool.and_eq_true] using h
    refine ⟨k, rfl, ?_⟩
    simp only [checkFields, hk, len, rsv, codes, Bool.not_true, Bool.false_eq_true, if_false, Bool.false_and, Bool.and_false, Bool.or_self]
    cases (k.fields f).all fun q => q.1.inWindow 256 q.2 <;> rfl

/-! ### Codes that a field accepts (R61) -/

theorem Src.code_eq_imm (s : Src) : (s.code == 0x1F0#9) = s.isImm := by
  have at_ := s.code_toNat
  cases s with
  | imm v => rfl
  | w i => exact beq_false_of_ne fun h => by rw [h] at at_; simp at at_; omega
  | n i => exact beq_false_of_ne fun h => by rw [h] at at_; simp at at_; omega
  | lat => rfl
  | c j => exact beq_false_of_ne fun h => by rw [h] at at_; simp at at_; omega

theorem Dst.code_toNat (d : Dst) : d.code.toNat = match d with
    | .w i => i.toNat
    | .n i => 0x100 + i.toNat
    | .lat => 0x108 := by
  cases d with
  | w i => exact setWidth9_toNat i
  | n i => exact nearCode_toNat i
  | lat => rfl

theorem Dst.code_ne_imm (d : Dst) : (d.code == 0x1F0#9) = false := by
  have at_ := d.code_toNat
  refine beq_false_of_ne fun h => ?_
  rw [h] at at_
  cases d <;> simp at at_ <;> omega

@[simp] theorem codeOk_src (n : Nat) (b : Bool) (s : Src) : (Kind.src n b).codeOk s.code = (b || !s.isImm) := by
  have at_ := s.code_toNat
  cases s <;> simp [Kind.codeOk, at_, Src.isImm] <;> omega

@[simp] theorem codeOk_quad (s : Src) : Kind.quad.codeOk s.code = s.quadOk := by
  have at_ := s.code_toNat
  cases s <;> simp [Kind.codeOk, at_, Src.quadOk, Src.isImm, Src.isLat] <;> omega

@[simp] theorem codeOk_gate (s : Src) : Kind.gate.codeOk s.code = s.isGate := by
  have at_ := s.code_toNat
  cases s <;> simp [Kind.codeOk, at_, Src.isGate] <;> omega

@[simp] theorem codeOk_block (n : Nat) (i : BitVec 8) : (Kind.block n).codeOk (i.setWidth 9) = true := by
  simp [Kind.codeOk]; omega

@[simp] theorem codeOk_wdst (n : Nat) (i : BitVec 8) : (Kind.wdst n).codeOk (i.setWidth 9) = true := by
  simp [Kind.codeOk]; omega

@[simp] theorem codeOk_dst (n : Nat) (b : Bool) (d : Dst) : (Kind.dst n b).codeOk d.code = (b || d.notLat) := by
  have at_ := d.code_toNat
  cases d <;> simp [Kind.codeOk, at_, Dst.notLat] <;> omega

@[simp] theorem codeOk_link (n : Nat) (d : Dst) : (Kind.wdst n).codeOk d.code = d.isWin := by
  have at_ := d.code_toNat
  cases d <;> simp [Kind.codeOk, at_, Dst.isWin] <;> omega

@[simp] theorem codeOk_pred (p : Num4) : Kind.pred.codeOk (pc9 p) = true := by
  simp [Kind.codeOk, pc9]; omega

@[simp] theorem codeOk_no (v : BitVec 9) : Kind.no.codeOk v = true := rfl

@[simp] theorem codeOk_num (m : Nat) (v : BitVec 9) : (Kind.num m).codeOk v = decide (v.toNat ≤ m) := rfl

end Sys2Proof
end

section
/-! SUPPORT. The length of an encoded word: its immediate, where it has one, is what its upper word supplies (R62, R69). -/

namespace Sys2Proof

/-- A field names the immediate (R69). -/
def namesImm (p : Kind × BitVec 9) : Bool := p.1.isCode && p.2 == 0x1F0#9

@[simp] theorem namesImm_dst (k : Kind) (d : Dst) : namesImm (k, d.code) = false := by simp [namesImm, d.code_ne_imm]
@[simp] theorem namesImm_zero (k : Kind) : namesImm (k, 0#9) = false := by simp [namesImm]
@[simp] theorem namesImm_pred (v : BitVec 9) : namesImm (.pred, v) = false := by simp [namesImm, Kind.isCode]
@[simp] theorem namesImm_num (m : Nat) (v : BitVec 9) : namesImm (.num m, v) = false := by simp [namesImm, Kind.isCode]
theorem namesImm_src (w : Bool) (s : Src) : namesImm (ks w, s.code) = s.isImm := s.code_eq_imm

theorem ks_wide (w : Bool) : (ks w).wide = w := by cases w <;> rfl

/-- The sources of a class-I word as operand fields. -/
def srcFields (l : List (Src × Bool)) : List (Kind × BitVec 9) := l.map fun q => (ks q.2, q.1.code)

/-- The source fields that name the immediate are those of immediates. -/
theorem filter_namesImm_srcFields (l : List (Src × Bool)) :
    (srcFields l).filter namesImm = srcFields (l.filter fun q => q.1.isImm) := by
  simp only [srcFields, List.filter_map, Function.comp_def, namesImm_src]

theorem isImm_of_firstImm {l : List (Src × Bool)} (h : firstImm l = none) : ∀ q ∈ l, q.1.isImm = false := by
  induction l with
  | nil => simp
  | cons q l ih =>
    obtain ⟨s, w⟩ := q
    cases s <;> simp_all [firstImm, Src.isImm]

theorem immUp_of_firstImm (l : List (Src × Bool)) : immUp (l.map Prod.fst) = match firstImm l with
    | none => .no
    | some (.i32 v) => .w32 v
    | some (.i64 v) => .w64 v := by
  induction l with
  | nil => rfl
  | cons q l ih =>
    obtain ⟨s, w⟩ := q
    cases s with
    | imm v => cases v <;> rfl
    | _ => exact ih

theorem mem_of_firstImm {l : List (Src × Bool)} {v : ImmVal} (h : firstImm l = some v) : ∃ w, (Src.imm v, w) ∈ l := by
  induction l with
  | nil => cases h
  | cons q l ih =>
    obtain ⟨s, w⟩ := q
    cases s with
    | imm u => exact ⟨w, by simp_all [firstImm]⟩
    | _ => exact (ih h).elim fun w hw => ⟨w, List.mem_cons_of_mem _ hw⟩

/-- What R62 and R69 ask of operands one of which is an immediate: each immediate has the first one's value, and is 64 bits wide where that is. -/
theorem of_immOk {l : List (Src × Bool)} (h : immOk l = true) {v : ImmVal} (first : firstImm l = some v) {u : ImmVal} {w : Bool}
    (mem : (Src.imm u, w) ∈ l) : u = v ∧ (∀ x, v = .i64 x → w = true) := by
  simp only [immOk, first, List.all_eq_true] at h
  have at_ := h _ mem
  simp only [Bool.and_eq_true, decide_eq_true_eq] at at_
  obtain ⟨rfl, wide⟩ := at_
  refine ⟨rfl, ?_⟩
  rintro x rfl
  exact wide

/-- An immediate among well-formed operands is the value that the upper word supplies (R62). -/
theorem srcOf_code_of_immOk {l : List (Src × Bool)} (h : immOk l = true) {s : Src} {w : Bool} (mem : (s, w) ∈ l) :
    srcOf (immUp (l.map Prod.fst)) s.code = s := by
  cases s with
  | imm u =>
    cases first : firstImm l with
    | none => exact absurd (isImm_of_firstImm first _ mem) (by simp [Src.isImm])
    | some v =>
      rw [srcOf_code, immUp_of_firstImm, first, (of_immOk h first mem).1]
      cases v <;> rfl
  | _ => exact srcOf_code_of_not_imm rfl

/-- The length class of a word whose operands may be immediates (R69). -/
theorem lenOk_classI {k : Form} {f : Fields} {l : List (Src × Bool)} (h : immOk l = true) (len : k.len = .classI)
    (up : f.up = immUp (l.map Prod.fst)) (named : (k.fields f).filter namesImm = (srcFields l).filter namesImm) : k.lenOk f = true := by
  rw [filter_namesImm_srcFields] at named
  have shape : k.lenOk f = match f.up with
      | .no => ((k.fields f).filter namesImm).isEmpty
      | .w32 _ => !((k.fields f).filter namesImm).isEmpty
      | .w64 _ => !((k.fields f).filter namesImm).isEmpty && ((k.fields f).filter namesImm).all fun p => p.1.wide := by
    unfold Form.lenOk
    rw [len]
    cases f.up <;> rfl
  rw [shape, up, immUp_of_firstImm, named]
  cases first : firstImm l with
  | none =>
    have : l.filter (fun q => q.1.isImm) = [] := List.filter_eq_nil_iff.2 fun q hq => by simp [isImm_of_firstImm first q hq]
    simp [this, srcFields]
  | some v =>
    obtain ⟨w, mem⟩ := mem_of_firstImm first
    have some_ : (srcFields (l.filter fun q => q.1.isImm)).isEmpty = false := by
      simp only [srcFields, List.isEmpty_map, List.isEmpty_eq_false_iff]
      exact List.ne_nil_of_mem (List.mem_filter.2 ⟨mem, rfl⟩)
    cases v with
    | i32 x => simp only [some_, Bool.not_false]
    | i64 x =>
      simp only [some_, Bool.not_false, Bool.true_and]
      simp only [srcFields, List.all_map, List.all_eq_true, Function.comp_apply, ks_wide, List.mem_filter]
      rintro ⟨s, w⟩ ⟨hq, isImm⟩
      cases s with
      | imm u => exact (of_immOk h first hq).2 x rfl
      | _ => cases isImm

/-! ### The length check by shape (R68, R69) -/

section

variable {opc : BitVec 10} {pg : BitVec 4} {pn : Bool} {dst sb sc : BitVec 9} {md : BitVec 6} {ext : BitVec 5} {kdst kb kc : Kind}
  {mx ux wa wb wc : Bool} {a b c : Src}

/-- A word that is always 64 bits long. -/
theorem lenOk_l64 {d a b c : Kind} {sa : BitVec 9} :
    Form.lenOk ⟨.l64, d, a, b, c, mx, ux⟩ ⟨opc, pg, pn, dst, sa, sb, sc, md, ext, .no⟩ = true := rfl

/-- A word that is always 96 bits long. -/
theorem lenOk_l96 {d a b c : Kind} {sa : BitVec 9} {v : BitVec 32} :
    Form.lenOk ⟨.l96, d, a, b, c, mx, ux⟩ ⟨opc, pg, pn, dst, sa, sb, sc, md, ext, .w32 v⟩ = true := rfl

/-- A word that is always 128 bits long. -/
theorem lenOk_l128 {d a b c : Kind} {sa : BitVec 9} {v : BitVec 64} :
    Form.lenOk ⟨.l128, d, a, b, c, mx, ux⟩ ⟨opc, pg, pn, dst, sa, sb, sc, md, ext, .w64 v⟩ = true := rfl

/-- A class-I word without a source. -/
theorem lenOk_none {d : Dst} {w : Bool} :
    Form.lenOk ⟨.classI, kd w, .no, .no, .no, mx, ux⟩ ⟨opc, pg, pn, d.code, 0#9, 0#9, 0#9, md, ext, immUp []⟩ = true :=
  lenOk_classI (l := []) rfl rfl rfl (by simp [Form.fields, srcFields])

/-- A class-I word of one source. -/
theorem lenOk_one (h : immOk [(a, wa)] = true) (hd : namesImm (kdst, dst) = false) (hb : namesImm (kb, sb) = false)
    (hc : namesImm (kc, sc) = false) :
    Form.lenOk ⟨.classI, kdst, ks wa, kb, kc, mx, ux⟩ ⟨opc, pg, pn, dst, a.code, sb, sc, md, ext, immUp [a]⟩ = true :=
  lenOk_classI h rfl rfl (by simp [Form.fields, srcFields, List.filter_cons, hd, hb, hc])

/-- A class-I word of two sources. -/
theorem lenOk_two (h : immOk [(a, wa), (b, wb)] = true) (hd : namesImm (kdst, dst) = false) (hc : namesImm (kc, sc) = false) :
    Form.lenOk ⟨.classI, kdst, ks wa, ks wb, kc, mx, ux⟩ ⟨opc, pg, pn, dst, a.code, b.code, sc, md, ext, immUp [a, b]⟩ = true :=
  lenOk_classI h rfl rfl (by simp [Form.fields, srcFields, List.filter_cons, hd, hc])

/-- A class-I word of three sources. -/
theorem lenOk_three (h : immOk [(a, wa), (b, wb), (c, wc)] = true) (hd : namesImm (kdst, dst) = false) :
    Form.lenOk ⟨.classI, kdst, ks wa, ks wb, ks wc, mx, ux⟩ ⟨opc, pg, pn, dst, a.code, b.code, c.code, md, ext, immUp [a, b, c]⟩ = true :=
  lenOk_classI h rfl rfl (by simp [Form.fields, srcFields, List.filter_cons, hd])

end

/-- What well-formed operands come to: the length check takes them, and each is read back from its code. -/
def Reads (l : List (Src × Bool)) : Prop := immOk l = true ∧ ∀ q ∈ l, srcOf (immUp (l.map Prod.fst)) q.1.code = q.1

theorem immOk_iff_reads (l : List (Src × Bool)) : immOk l = true ↔ Reads l :=
  ⟨fun h => ⟨h, fun _ mem => srcOf_code_of_immOk h mem⟩, And.left⟩

end Sys2Proof
end

section
/-! SUPPORT. Fields narrower than their place, and codes in their ranges: what the checks of R71 read back of an encoded word. -/

namespace Sys2Proof

@[simp] theorem ks_ne_no (w : Bool) : (ks w != .no) = true := rfl
@[simp] theorem kr_ne_no (n : Nat) : (kr n != .no) = true := rfl
@[simp] theorem kd_ne_no (w : Bool) : (kd w != .no) = true := rfl
@[simp] theorem codeOk_ks (w : Bool) (s : Src) : (ks w).codeOk s.code = true := codeOk_src _ true s
@[simp] theorem codeOk_kr (n : Nat) (s : Src) : (kr n).codeOk s.code = !s.isImm := codeOk_src n false s
@[simp] theorem codeOk_kd (w : Bool) (d : Dst) : (kd w).codeOk d.code = true := codeOk_dst _ true d
@[simp] theorem Src.code_w_zero : (Src.w 0#8).code = 0#9 := rfl

/-! ### Fields narrower than their place -/

@[simp] theorem extractLsb'_setWidth_self {n w : Nat} (v : BitVec n) (h : n ≤ w) : (v.setWidth w).extractLsb' 0 n = v := by
  rw [BitVec.extractLsb'_setWidth_of_le (by omega), BitVec.extractLsb'_eq_self]

/-- The bits above a widened field are zero. -/
@[simp] theorem extractLsb'_setWidth_above {n w k m : Nat} (v : BitVec n) (h : n ≤ k) : (v.setWidth w).extractLsb' k m = 0#m := by
  ext i hi
  simp only [BitVec.getElem_extractLsb', BitVec.getLsbD_setWidth, BitVec.getElem_zero, BitVec.getLsbD_of_ge v (k + i) (by omega), Bool.and_false]

theorem bit1_eq_one : ∀ b : Bool, ((bit1 b).setWidth 2 == 1#2) = b := by decide
@[simp] theorem bit1_getElem : ∀ b : Bool, (bit1 b)[0] = b := by decide
theorem bit1_le (b : Bool) : (bit1 b).toNat % 4 ≤ 1 := by decide +revert

/-- The saturation bit of mod in CVT and PACK. -/
@[simp] theorem mod_sat (s : BitVec 2) (b : Bool) (v : BitVec 3) : (s ++ bit1 b ++ v : BitVec 6)[3] = b := by decide +revert

@[simp] theorem mod_high (s : BitVec 2) (b : Bool) (v : BitVec 3) : (s ++ bit1 b ++ v : BitVec 6).extractLsb' 4 2 = s := by decide +revert

@[simp] theorem mod_low (s : BitVec 2) (b : Bool) (v : BitVec 3) : (s ++ bit1 b ++ v : BitVec 6).extractLsb' 0 3 = v := by decide +revert

@[simp] theorem pair_high (u v : BitVec 3) : (u ++ v : BitVec 6).extractLsb' 3 3 = u := by decide +revert

@[simp] theorem pair_low (u v : BitVec 3) : (u ++ v : BitVec 6).extractLsb' 0 3 = v := by decide +revert

/-- A number cut in two and put together again (R107, R114). -/
theorem append_extractLsb' {w m : Nat} (n : Nat) (v : BitVec w) (h : w = m + n) : v.extractLsb' n m ++ v.extractLsb' 0 n = v.cast h := by
  subst h
  rw [BitVec.extractLsb'_append_extractLsb'_eq_extractLsb' (by omega), BitVec.extractLsb'_eq_self, BitVec.cast_eq]

theorem plop_lut (v : BitVec 8) : v.extractLsb' 6 2 ++ v.extractLsb' 0 6 = v := append_extractLsb' 6 v rfl

theorem csr_number (v : BitVec 12) : v.extractLsb' 9 3 ++ v.extractLsb' 0 9 = v := append_extractLsb' 9 v rfl

/-- The ext bits that two float sources leave zero, and those that one does (R67). -/
theorem exF_two (a b : FSrc) : exF a b false &&& 4#5 = 0#5 := by
  have all : ∀ aa an ba bn : Bool, exF ⟨.lat, an, aa⟩ ⟨.lat, bn, ba⟩ false &&& 4#5 = 0#5 := by decide
  exact all a.abs a.neg b.abs b.neg

theorem exF_one (a : FSrc) : exF a noF false &&& 22#5 = 0#5 := by
  have all : ∀ aa an : Bool, exF ⟨.lat, an, aa⟩ noF false &&& 22#5 = 0#5 := by decide
  exact all a.abs a.neg

/-- A third float source takes no absolute value. -/
theorem FSrc.eq_of_not_abs {c : FSrc} (h : c.abs = false) : ⟨c.src, c.neg, false⟩ = c := by rw [← h]

/-! ### Codes in their ranges -/

theorem Gran.code_le (g : Gran) : g.code.toNat ≤ 2 := by cases g <;> decide
theorem CsrOp.code_lt (o : CsrOp) : o.code.toNat % 64 < 3 := by cases o <;> decide
theorem AccMode.code_le (m : AccMode) : m.code.toNat % 512 ≤ 3 := by cases m <;> decide
theorem Rc.code_le (r : Rc) : r.code.toNat ≤ 5 := by cases r <;> decide
theorem CFmt.code_lt (f : CFmt) : f.code.toNat < 20 := by cases f <;> decide
theorem Rc.code_of_notSr {r : Rc} (h : r.notSr = true) : r.code.toNat ≤ 3 ∨ r.code = 5#3 := by cases r <;> revert h <;> decide
theorem CFmt.code_le (f : CFmt) : f.code.toNat % 512 ≤ 19 := by cases f <;> decide
theorem mod_512_le (n : Nat) : n % 512 ≤ 511 := by omega
theorem special_le {v : BitVec 5} (h : v.toNat ≤ 16) : v.toNat % 512 ≤ 16 := by omega
theorem MovType.code_odd (t : MovType) : t.code[0] = (t == .b64 || t == .f64) := by cases t <;> rfl

/-- The element codes of a dot product (R138). -/
theorem dp4El_code {a : DpElem} (h : a.count = 4) : dp4El a.code = a := by cases a <;> revert h <;> decide
theorem dp8El_code {a : DpElem} (h : a.count = 8) : dp8El a.code = a := by cases a <;> revert h <;> decide
theorem dp2El_code {a : DpElem} (h : a.count = 2) : dp2El a.code = a := by cases a <;> revert h <;> decide
theorem DpElem.code_le_one (a : DpElem) : a.code.toNat ≤ 1 ↔ a.isInt = true := by cases a <;> decide
theorem DpElem.code_le_five (a : DpElem) : a.code.toNat ≤ 5 := by cases a <;> decide
theorem DpElem.code_le_two {a : DpElem} (h : a.count = 8) : a.code.toNat ≤ 2 := by cases a <;> revert h <;> decide
theorem DpElem.code_le_three {a : DpElem} (h : a.count = 2) : a.code.toNat ≤ 3 := by cases a <;> revert h <;> decide

end Sys2Proof
end

section
/-! SUPPORT. Words of groups 0 to 7 (R68, R84 to R141): the decoder reads back what the encoder writes, and the checks of R71 let it pass. One
case for each instruction; each comes down to the lemmas of its suffixes, its operands and its length. -/

namespace Sys2Proof

/-! ### Groups 0 to 3 -/

theorem encodeA_build (i : Instr) (f : Fields) (hw : i.wf = true) (h : encodeA i = some f) : build f = some i := by
  revert hw h
  fun_cases encodeA i
  case case45 => exact fun _ => nofun
  all_goals
    rintro hw ⟨⟩
    revert hw
    delta Instr.wf
    simp only [enc, encN, encI, build, buildA, Fields.group, BitVec.toNat_ofNat, Nat.reduceMod, Nat.reducePow, Nat.reduceDiv, Nat.zero_div,
      Nat.reduceLT, Nat.zero_lt_succ, if_true, immOk_iff_reads, Bool.and_eq_true]
    intro hw
    simp_all [Reads, Fields.g, Fields.it, Fields.isat, Fields.ivar, Fields.d, Fields.a, Fields.b, Fields.c, Fields.i32, Fields.e4,
      Fields.e5, Fields.rc, Fields.frc, Upper.bits, bit1_eq_one, plop_lut]

theorem encodeA_passes (i : Instr) (f : Fields) (hw : i.wf = true) (h : encodeA i = some f) : f.passes = true := by
  revert hw h
  fun_cases encodeA i
  case case45 => exact fun _ => nofun
  all_goals
    rintro hw ⟨⟩
    revert hw
    delta Instr.wf
    simp only [enc, encN, encI, Fields.passes, formOf, Fields.group, BitVec.toNat_ofNat, Nat.reduceMod, Nat.reducePow, Nat.reduceDiv, Nat.zero_div,
      Bool.and_eq_true]
    intro hw
    simp_all [form0, form1, form2, form3, Fields.index, Fields.it, Fields.isat, Fields.ivar, Fields.e4, Fields.mi, Fields.mf, Fields.xz, Fields.mzxz, Fields.icc, Fields.ft, Fields.fsat,
      Fields.e5, Fields.frc, lenOk_l64, lenOk_l96, lenOk_none, lenOk_one, lenOk_two, lenOk_three, Form.rsvOk, Form.fields, bit1_le, Gran.code_le,
      AccMode.code_le, Rc.code_of_notSr]

/-! ### Groups 4 to 7 -/

theorem encodeB_build (i : Instr) (f : Fields) (hw : i.wf = true) (h : encodeB i = some f) : build f = some i := by
  revert hw h
  fun_cases encodeB i
  case case39 => exact fun _ => nofun
  all_goals
    rintro hw ⟨⟩
    revert hw
    delta Instr.wf
    simp only [enc, encF1, encF2, encI, build, buildB, Fields.group, BitVec.toNat_ofNat, Nat.reduceMod, Nat.reducePow, Nat.reduceDiv,
      Nat.reduceLT, if_true, if_false, immOk_iff_reads, Bool.and_eq_true]
    intro hw
    simp_all [Reads, Fields.g, Fields.ft, Fields.fsat, Fields.frc, Fields.rc, Fields.d, Fields.a, Fields.b, Fields.c, Fields.fa, Fields.fb, Fields.fc,
      Fields.e4, Fields.csr, csr_number, dpOk, dp4El_code, dp8El_code, dp2El_code,
      FSrc.eq_of_not_abs]

theorem encodeB_passes (i : Instr) (f : Fields) (hw : i.wf = true) (h : encodeB i = some f) : f.passes = true := by
  revert hw h
  fun_cases encodeB i
  case case39 => exact fun _ => nofun
  all_goals
    rintro hw ⟨⟩
    revert hw
    delta Instr.wf
    simp only [enc, encF1, encF2, encI, Fields.passes, formOf, Fields.group, BitVec.toNat_ofNat, Nat.reduceMod, Nat.reducePow, Nat.reduceDiv,
      Bool.and_eq_true]
    intro hw
    simp_all [form4, form5, form6, form7, Fields.index, Fields.xf, Fields.mf, Fields.xz, Fields.mzxz, Fields.ft, Fields.fsat,
      Fields.e5, Fields.frc, Fields.csr, Fields.dpForm, lenOk_l64, lenOk_one, lenOk_two, lenOk_three, Form.rsvOk, Form.fields, Rc.code_of_notSr, Rc.code_le,
      CFmt.code_lt, exF_two, exF_one, csr_number, dpOk, DpElem.code_le_one,
      DpElem.code_le_two, DpElem.code_le_three, DpElem.code_le_five, CFmt.code_le, mod_512_le, special_le, MovType.code_odd, CsrOp.code_lt]

/-- Settles O56: the bytes give the fields of any word, and case by case over the instructions of groups 0 to 7 the fields give the
instruction and pass checks 4 to 8. -/
theorem encodeDecodeScalar : Obligations.EncodeDecodeScalar :=
  ⟨fun i f wf h => ⟨f.ofBytes_toBytes, encodeA_build i f wf h, checkFields_of_passes (encodeA_passes i f wf h)⟩,
   fun i f wf h => ⟨f.ofBytes_toBytes, encodeB_build i f wf h, checkFields_of_passes (encodeB_passes i f wf h)⟩⟩

end Sys2Proof
end

section
/-! SUPPORT. The upper words of memory and engine words are read back (R263, R327 to R329), and the optional operands are. -/

namespace Sys2Proof

theorem getLsbD_append_low {v w : Nat} {x : BitVec v} {y : BitVec w} {i : Nat} (h : i < w) : (x ++ y).getLsbD i = y.getLsbD i := by
  rw [BitVec.getLsbD_append, if_pos h]

theorem getLsbD_append_high {v w : Nat} {x : BitVec v} {y : BitVec w} {i : Nat} (h : w ≤ i) : (x ++ y).getLsbD i = x.getLsbD (i - w) := by
  rw [BitVec.getLsbD_append, if_neg (Nat.not_lt.2 h)]

/-! ### Upper words -/

@[simp] theorem MemUp.ofBits_bits (u : MemUp) : MemUp.ofBits u.bits = u := by
  obtain ⟨off, scope, order, hint⟩ := u
  simp (disch := omega) only [MemUp.ofBits, MemUp.bits, BitVec.extractLsb'_append_eq_of_add_le, BitVec.extractLsb'_append_eq_of_le]
  simp

theorem MemUp.reserved_bits (u : MemUp) : u.bits.extractLsb' 39 25 = 0#25 := by
  simp (disch := omega) only [MemUp.bits, BitVec.extractLsb'_append_eq_of_le]
  simp

theorem MemUp.scope_bits (u : MemUp) : u.bits.extractLsb' 32 3 = u.scope.code := by
  simp (disch := omega) only [MemUp.bits, BitVec.extractLsb'_append_eq_of_add_le, BitVec.extractLsb'_append_eq_of_le]
  simp

theorem MemUp.hint_bits (u : MemUp) : u.bits.extractLsb' 37 2 = u.hint.code := by
  simp (disch := omega) only [MemUp.bits, BitVec.extractLsb'_append_eq_of_add_le, BitVec.extractLsb'_append_eq_of_le]
  simp

@[simp] theorem MemUp.ofBits_setWidth (v : BitVec 32) : (MemUp.ofBits (v.setWidth 64)).off = v := extractLsb'_setWidth_self v (by decide)

@[simp] theorem CopyUp.ofBits_bits (u : CopyUp) : CopyUp.ofBits u.bits = u := by
  obtain ⟨⟩ := u
  simp only [CopyUp.ofBits, CopyUp.bits, CopyUp.mk.injEq]
  and_intros
  all_goals
    simp (disch := omega) only [BitVec.extractLsb'_append_eq_of_add_le, BitVec.extractLsb'_append_eq_of_le, getLsbD_append_low, getLsbD_append_high]
    simp [bit1]

@[simp] theorem TileUp.ofBits_bits (u : TileUp) : TileUp.ofBits u.bits = u := by
  obtain ⟨⟩ := u
  simp only [TileUp.ofBits, TileUp.bits, TileUp.mk.injEq]
  and_intros
  all_goals
    simp (disch := omega) only [BitVec.extractLsb'_append_eq_of_add_le, BitVec.extractLsb'_append_eq_of_le, getLsbD_append_low, getLsbD_append_high]
    simp [bit1]

@[simp] theorem BarUp.ofBits_bits (u : BarUp) : BarUp.ofBits u.bits = u := by
  obtain ⟨⟩ := u
  simp (disch := omega) only [BarUp.ofBits, BarUp.bits, BitVec.extractLsb'_append_eq_of_add_le, BitVec.extractLsb'_append_eq_of_le,
    getLsbD_append_low, getLsbD_append_high]
  simp [bit1]

/-! ### What upper words leave zero -/

/-- The checks of R263 come down to the modifiers of the entry (R264). -/
@[simp] theorem memUpOk_bits (u : MemUp) (ok : MemUp → Bool) : memUpOk u.bits ok = ok u := by
  have scope : u.scope.code.toNat ≤ 5 := by cases u.scope <;> decide
  have hint : (u.hint.code != 3#2) = true := by cases u.hint <;> decide
  simp [memUpOk, u.reserved_bits, u.scope_bits, u.hint_bits, scope, hint]

@[simp] theorem offUpOk_setWidth (v : BitVec 32) : offUpOk (v.setWidth 64) = true := by
  simp [offUpOk]

@[simp] theorem copyUpOk_bits (u : CopyUp) (ok : CopyUp → Bool) : copyUpOk u.bits ok = ok u := by
  have zero : u.bits.extractLsb' 24 10 = 0#10 := by
    simp (disch := omega) only [CopyUp.bits, BitVec.extractLsb'_append_eq_of_add_le, BitVec.extractLsb'_append_eq_of_le]
    simp
  have rop : u.bits.extractLsb' 39 3 = u.rop.code := by
    simp (disch := omega) only [CopyUp.bits, BitVec.extractLsb'_append_eq_of_add_le, BitVec.extractLsb'_append_eq_of_le]
    simp
  have rty : u.bits.extractLsb' 36 3 = u.rty.code := by
    simp (disch := omega) only [CopyUp.bits, BitVec.extractLsb'_append_eq_of_add_le, BitVec.extractLsb'_append_eq_of_le]
    simp
  have opLe : u.rop.code.toNat ≤ 5 := by cases u.rop <;> decide
  have tyLe : u.rty.code.toNat ≤ 5 := by cases u.rty <;> decide
  simp [copyUpOk, zero, rop, rty, opLe, tyLe]

@[simp] theorem tileUpOk_bits (u : TileUp) (ok : TileUp → Bool) : tileUpOk u.bits ok = ok u := by
  have high : u.bits.extractLsb' 50 2 = 0#2 := by
    simp (disch := omega) only [TileUp.bits, BitVec.extractLsb'_append_eq_of_add_le, BitVec.extractLsb'_append_eq_of_le]
    simp
  have low : u.bits.extractLsb' 28 4 = 0#4 := by
    simp (disch := omega) only [TileUp.bits, BitVec.extractLsb'_append_eq_of_add_le, BitVec.extractLsb'_append_eq_of_le]
    simp
  simp [tileUpOk, high, low]

@[simp] theorem zeroFrom_zero (n : Nat) : zeroFrom n 0#64 = true := by simp [zeroFrom]

@[simp] theorem zeroFrom_setWidth {m n : Nat} (v : BitVec m) (h : m ≤ n) : zeroFrom n (v.setWidth 64) = true := by
  have shifted : v.setWidth 64 >>> n = 0#64 := by
    ext i hi
    simp only [BitVec.getElem_ushiftRight, BitVec.getLsbD_setWidth, BitVec.getLsbD_of_ge v (n + i) (by omega), Bool.and_false, BitVec.getElem_zero]
  rw [zeroFrom, shifted]
  rfl

@[simp] theorem zeroFrom_barUp (u : BarUp) : zeroFrom 36 u.bits = true := by
  have shifted : u.bits >>> 36 = 0#64 := by
    ext i hi
    simp (disch := omega) only [BarUp.bits, BitVec.getElem_ushiftRight, getLsbD_append_high]
    simp
  rw [zeroFrom, shifted]
  rfl

/-! ### Optional operands -/

@[simp] theorem setWidth_9_8 (v : BitVec 8) : (v.setWidth 9).setWidth 8 = v := by simp

@[simp] theorem nrx_zero (d : Option (BitVec 8)) : (nrx d)[0] = d.isNone := by cases d <;> simp [nrx]
theorem nrx_le (d : Option (BitVec 8)) : (nrx d).toNat ≤ 1 := by cases d <;> simp [nrx, bit1]
@[simp] theorem nnx_high (d : Option (BitVec 8)) : (nnx d)[4] = d.isNone := by simp [nnx]
@[simp] theorem nnx_low (d : Option (BitVec 8)) : (nnx d).extractLsb' 0 4 = 0#4 := by simp [nnx]

/-- A number destination that may be left out (R265, R326). -/
@[simp] theorem od_od9 (d : Option (BitVec 8)) : (if d = none then none else some ((od9 d).setWidth 8)) = d := by
  cases d <;> simp [od9]

@[simp] theorem od9_reserved (d : Option (BitVec 8)) : ¬d = none ∨ od9 d = 0#9 := by cases d <;> simp [od9]

@[simp] theorem codeOk_od9 (d : Option (BitVec 8)) (n : Nat) : (if d = none then Kind.no else .wdst n).codeOk (od9 d) = true := by
  cases d <;> simp [od9]

/-- A gate operand is there with .cv and only with it (R175). -/
theorem gate_code {cv : Bool} {gate : Option Src} (h : gateOk cv gate = true) (up : Upper) :
    (if cv = true then some (srcOf up (gateCode gate)) else none) = gate := by
  cases gate with
  | none => simp_all [gateOk]
  | some s =>
    obtain ⟨hcv, isGate⟩ : cv = true ∧ s.isGate = true := by simpa [gateOk] using h
    have notImm : s.isImm = false := by cases s <;> simp_all [Src.isGate, Src.isImm]
    simp [hcv, gateCode, notImm]

theorem gate_reserved {cv : Bool} {gate : Option Src} (h : gateOk cv gate = true) : cv = true ∨ gateCode gate = 0#9 := by
  cases gate <;> simp_all [gateOk, gateCode]

theorem codeOk_gateCode {cv : Bool} {gate : Option Src} (h : gateOk cv gate = true) :
    (if cv = true then Kind.gate else .no).codeOk (gateCode gate) = true := by
  cases gate <;> simp_all [gateOk, gateCode]

theorem namesImm_gate {cv : Bool} {gate : Option Src} (h : gateOk cv gate = true) :
    namesImm (if cv = true then .gate else .no, gateCode gate) = false := by
  cases gate with
  | none => simp [gateCode]
  | some s => cases s <;> simp_all [gateOk, gateCode, Src.isGate, namesImm, Src.code_eq_imm, Src.isImm]

/-! ### Data of a store (R266) -/

@[simp] theorem srcW_ne_no (w : Width) : (srcW w != .no) = true := by cases w <;> rfl

theorem codeOk_srcW {w : Width} {v : Src} (h : w.dataOk v = true) : (srcW w).codeOk v.code = true := by
  cases w <;> simp_all [srcW, Width.dataOk]

@[simp] theorem pc9_le (p : Num4) : (pc9 p).toNat ≤ 15 := by simp [pc9]; omega

end Sys2Proof
end

section
namespace Sys2Proof

/-! ### Groups 8 to 10 -/

/-- The destination of a VOTE is of its mode (R176). -/
theorem wf_vote {g : Guard} {m : VoteMode} {inv cv : Bool} {d : VoteDst} {ps : Num4} {gate : Option Src}
    (h : (Instr.vote g m inv cv d ps gate).wf = true) : gateOk cv gate = true ∧
      match d with
      | .p _ => m.toPred = true
      | .r d => m.toPred = false ∧ d.notLat = true := by
  revert h
  delta Instr.wf
  cases m <;> cases d <;> simp +contextual [VoteMode.toPred]

theorem casWidth_casCode {w : Width} (h : w.casOk = true) : casWidth (casCode w) = w := by cases w <;> simp_all [Width.casOk] <;> rfl

theorem casCode_lt (w : Width) : (casCode w).toNat % 64 < 3 := by cases w <;> decide
theorem Width.code_lt (w : Width) : w.code.toNat % 64 < 7 := by cases w <;> decide
theorem VoteMode.code_le (m : VoteMode) : m.code.toNat ≤ 5 := by cases m <;> decide
theorem MatchForm.code_eq_three (f : MatchForm) : f.code = 3#2 ↔ f = .uni := by cases f <;> decide
theorem RedOp.code_le (o : RedOp) : o.code.toNat ≤ 5 := by cases o <;> decide
theorem RedType.code_le (t : RedType) : t.code.toNat ≤ 5 := by cases t <;> decide
theorem HbarMode.code_lt (m : HbarMode) : m.code.toNat % 64 < 3 := by cases m <;> decide
theorem AtomOp.code_lt (o : AtomOp) : o.code.toNat < 7 := by cases o <;> decide
theorem Scope.code_le (s : Scope) : s.code.toNat % 64 ≤ 5 := by cases s <;> decide

@[simp] theorem mod_shfl_low (b : Bool) (n : BitVec 3) (v : BitVec 2) : (bit1 b ++ n ++ v : BitVec 6).extractLsb' 0 2 = v := by decide +revert
@[simp] theorem mod_shfl_mid (b : Bool) (n : BitVec 3) (v : BitVec 2) : (bit1 b ++ n ++ v : BitVec 6).extractLsb' 2 3 = n := by decide +revert
@[simp] theorem mod_shfl_high (b : Bool) (n : BitVec 3) (v : BitVec 2) : (bit1 b ++ n ++ v : BitVec 6)[5] = b := by decide +revert
@[simp] theorem mod_match_mid (v : BitVec 2) (b : Bool) : (0#3 ++ v ++ bit1 b : BitVec 6).extractLsb' 1 2 = v := by decide +revert
@[simp] theorem mod_match_low (v : BitVec 2) (b : Bool) : (0#3 ++ v ++ bit1 b : BitVec 6)[0] = b := by decide +revert
@[simp] theorem mod_match_high (v : BitVec 2) (b : Bool) : (0#3 ++ v ++ bit1 b : BitVec 6).extractLsb' 3 3 = 0#3 := by decide +revert
@[simp] theorem ext_reds_det (c s d : Bool) : (bit1 c ++ 0#2 ++ bit1 s ++ bit1 d : BitVec 5)[0] = d := by decide +revert
@[simp] theorem ext_reds_sat (c s d : Bool) : (bit1 c ++ 0#2 ++ bit1 s ++ bit1 d : BitVec 5)[1] = s := by decide +revert
@[simp] theorem ext_reds_cv (c s d : Bool) : (bit1 c ++ 0#2 ++ bit1 s ++ bit1 d : BitVec 5)[4] = c := by decide +revert
@[simp] theorem ext_reds_zero (c s d : Bool) : (bit1 c ++ 0#2 ++ bit1 s ++ bit1 d : BitVec 5).extractLsb' 2 2 = 0#2 := by decide +revert
@[simp] theorem mod_pfch_low (a b : Bool) : (0#4 ++ bit1 a ++ bit1 b : BitVec 6)[0] = b := by decide +revert
@[simp] theorem mod_pfch_high (a b : Bool) : (0#4 ++ bit1 a ++ bit1 b : BitVec 6)[1] = a := by decide +revert
theorem mod_pfch_lt (a b : Bool) : (0#4 ++ bit1 a ++ bit1 b : BitVec 6).toNat < 4 := by decide +revert

theorem encodeC_build (i : Instr) (f : Fields) (hw : i.wf = true) (h : encodeC i = some f) : build f = some i := by
  revert hw h
  fun_cases encodeC i
  case case27 => exact fun _ => nofun
  case case3 g m inv cv d ps gate =>
    rintro hw ⟨⟩
    obtain ⟨gated, dest⟩ := wf_vote hw
    simp only [enc, build, buildC, Fields.group, BitVec.toNat_ofNat, Nat.reduceMod, Nat.reducePow, Nat.reduceDiv, Nat.reduceLT, if_true, if_false]
    cases d <;> simp_all [Fields.g, Fields.d, Fields.e5, Fields.gate, Fields.c, gate_code]
  all_goals
    rintro hw ⟨⟩
    revert hw
    delta Instr.wf
    simp only [enc, encI, encM, build, buildC, Fields.group, BitVec.toNat_ofNat, Nat.reduceMod, Nat.reducePow, Nat.reduceDiv,
      Nat.reduceLT, if_true, if_false, immOk_iff_reads, Bool.and_eq_true]
    intro hw
    simp_all [Reads, Fields.g, Fields.d, Fields.a, Fields.b, Fields.c, Fields.e4, Fields.e5, Fields.i32, Fields.gate, Fields.od, Fields.wd, Upper.bits,
      noImm, gate_code, casWidth_casCode, Width.dataOk]

theorem encodeC_passes (i : Instr) (f : Fields) (hw : i.wf = true) (h : encodeC i = some f) : f.passes = true := by
  revert hw h
  fun_cases encodeC i
  case case27 => exact fun _ => nofun
  case case3 g m inv cv d ps gate =>
    rintro hw ⟨⟩
    obtain ⟨gated, dest⟩ := wf_vote hw
    simp only [enc, Fields.passes, formOf, form8, Fields.group, Fields.index, BitVec.toNat_ofNat, Nat.reduceMod, Nat.reducePow, Nat.reduceDiv]
    cases d <;> simp_all [Fields.gateK, Fields.e4, Fields.e5, lenOk_l64, Form.rsvOk, Form.fields, gate_reserved, codeOk_gateCode, VoteMode.code_le]
  all_goals
    rintro hw ⟨⟩
    revert hw
    delta Instr.wf
    simp only [enc, encI, encM, Fields.passes, formOf, Fields.group, BitVec.toNat_ofNat, Nat.reduceMod, Nat.reducePow, Nat.reduceDiv,
      Bool.and_eq_true]
    intro hw
    simp_all [form8, form9, form10, Fields.index, Fields.xz, Fields.mzxz, Fields.gateK, wdstW,
      Fields.e4, Fields.e5, Upper.bits, lenOk_l64, lenOk_l96, lenOk_l128, lenOk_two, lenOk_three, Form.rsvOk, Form.fields,
      noImm, casWidth_casCode, mod_pfch_lt, gate_reserved, codeOk_gateCode, namesImm_gate, codeOk_srcW, nrx_le, casCode_lt, Width.code_lt,
      MatchForm.code_eq_three, RedOp.code_le, RedType.code_le, HbarMode.code_lt, AtomOp.code_lt, Scope.code_le]

end Sys2Proof
end

section
/-! SUPPORT. Words of groups 11 to 14 (R68, R326 to R329, R412 to R425, R486): the decoder reads back what the encoder writes, and the checks
of R71 let it pass. -/

namespace Sys2Proof

/-! ### The fields of these groups -/

theorem TewOp.code_le (o : TewOp) : o.code.toNat ≤ 6 := by cases o <;> decide
theorem TredOp.code_lt (o : TredOp) : o.code.toNat % 64 < 3 := by cases o <;> decide
theorem SSpace.code_le (o : SSpace) : o.code.toNat ≤ 4 := by cases o <;> decide
theorem HaltMode.code_lt (m : HaltMode) : m.code.toNat % 64 < 4 := by cases m <;> decide

theorem Width.code_le_six {w : Width} (h : w.casOk = true) : w.code.toNat ≤ 6 := by cases w <;> simp_all [Width.casOk] <;> decide

/-! The modifiers of MMA, TEW and TCVT. -/

@[simp] theorem mod_mma_na (v w x y z : Bool) : (0#1 ++ bit1 v ++ bit1 w ++ bit1 x ++ bit1 y ++ bit1 z : BitVec 6)[0] = z := by decide +revert
@[simp] theorem mod_mma_nb (v w x y z : Bool) : (0#1 ++ bit1 v ++ bit1 w ++ bit1 x ++ bit1 y ++ bit1 z : BitVec 6)[1] = y := by decide +revert
@[simp] theorem mod_mma_nc (v w x y z : Bool) : (0#1 ++ bit1 v ++ bit1 w ++ bit1 x ++ bit1 y ++ bit1 z : BitVec 6)[2] = x := by decide +revert
@[simp] theorem mod_mma_sat (v w x y z : Bool) : (0#1 ++ bit1 v ++ bit1 w ++ bit1 x ++ bit1 y ++ bit1 z : BitVec 6)[3] = w := by decide +revert
@[simp] theorem mod_mma_acc (v w x y z : Bool) : (0#1 ++ bit1 v ++ bit1 w ++ bit1 x ++ bit1 y ++ bit1 z : BitVec 6)[4] = v := by decide +revert
theorem mod_mma_lt (v w x y z : Bool) : (0#1 ++ bit1 v ++ bit1 w ++ bit1 x ++ bit1 y ++ bit1 z : BitVec 6).toNat < 32 := by decide +revert
@[simp] theorem mod_tile_op (s : Bool) (v : BitVec 3) : (0#2 ++ bit1 s ++ v : BitVec 6).extractLsb' 0 3 = v := by decide +revert
@[simp] theorem mod_tile_sat (s : Bool) (v : BitVec 3) : (0#2 ++ bit1 s ++ v : BitVec 6)[3] = s := by decide +revert
@[simp] theorem mod_tile_high (s : Bool) (v : BitVec 3) : (0#2 ++ bit1 s ++ v : BitVec 6).extractLsb' 4 2 = 0#2 := by decide +revert

/-! The upper words of KNOT, SMOVR, SMOVW, PTINV and GSTEP. -/

@[simp] theorem up_knot_wm (t s : BitVec 16) (w : BitVec 32) : (t ++ s ++ w : BitVec 64).extractLsb' 0 32 = w := by
  simp (disch := omega) only [BitVec.extractLsb'_append_eq_of_add_le]
  simp


@[simp] theorem up_knot_sm (t s : BitVec 16) (w : BitVec 32) : (t ++ s ++ w : BitVec 64).extractLsb' 32 16 = s := by
  simp (disch := omega) only [BitVec.extractLsb'_append_eq_of_add_le, BitVec.extractLsb'_append_eq_of_le]
  simp

@[simp] theorem up_knot_tm (t s : BitVec 16) (w : BitVec 32) : (t ++ s ++ w : BitVec 64).extractLsb' 48 16 = t := by
  simp (disch := omega) only [BitVec.extractLsb'_append_eq_of_le]
  simp

@[simp] theorem up_smov_off (b : Bool) (s : BitVec 3) (o : BitVec 32) : (0#28 ++ bit1 b ++ s ++ o : BitVec 64).extractLsb' 0 32 = o := by
  simp (disch := omega) only [BitVec.extractLsb'_append_eq_of_add_le]
  simp

@[simp] theorem up_smov_space (b : Bool) (s : BitVec 3) (o : BitVec 32) : (0#28 ++ bit1 b ++ s ++ o : BitVec 64).extractLsb' 32 3 = s := by
  simp (disch := omega) only [BitVec.extractLsb'_append_eq_of_add_le, BitVec.extractLsb'_append_eq_of_le]
  simp

@[simp] theorem up_smov_sv (b : Bool) (s : BitVec 3) (o : BitVec 32) : (0#28 ++ bit1 b ++ s ++ o : BitVec 64)[35] = b := by
  rw [← BitVec.getLsbD_eq_getElem]
  simp (disch := omega) only [getLsbD_append_low, getLsbD_append_high]
  simp [bit1]

@[simp] theorem zeroFrom_smov (b : Bool) (s : BitVec 3) (o : BitVec 32) : zeroFrom 36 (0#28 ++ bit1 b ++ s ++ o : BitVec 64) = true := by
  have shifted : (0#28 ++ bit1 b ++ s ++ o : BitVec 64) >>> 36 = 0#64 := by
    ext i hi
    simp (disch := omega) only [BitVec.getElem_ushiftRight, getLsbD_append_high]
    simp
  rw [zeroFrom, shifted]
  rfl

@[simp] theorem up_ptinv_ctx (b : Bool) (c : BitVec 12) : (0#51 ++ bit1 b ++ c : BitVec 64).extractLsb' 0 12 = c := by
  simp (disch := omega) only [BitVec.extractLsb'_append_eq_of_add_le]
  simp

@[simp] theorem up_ptinv_all (b : Bool) (c : BitVec 12) : (0#51 ++ bit1 b ++ c : BitVec 64)[12] = b := by
  rw [← BitVec.getLsbD_eq_getElem]
  simp (disch := omega) only [getLsbD_append_low, getLsbD_append_high]
  simp [bit1]

@[simp] theorem zeroFrom_ptinv (b : Bool) (c : BitVec 12) : zeroFrom 13 (0#51 ++ bit1 b ++ c : BitVec 64) = true := by
  have shifted : (0#51 ++ bit1 b ++ c : BitVec 64) >>> 13 = 0#64 := by
    ext i hi
    simp (disch := omega) only [BitVec.getElem_ushiftRight, getLsbD_append_high]
    simp
  rw [zeroFrom, shifted]
  rfl

@[simp] theorem up_gstep_slot (b : Bool) (s : BitVec 6) : (0#57 ++ bit1 b ++ s : BitVec 64).extractLsb' 0 6 = s := by
  simp (disch := omega) only [BitVec.extractLsb'_append_eq_of_add_le]
  simp

@[simp] theorem up_gstep_rc (b : Bool) (s : BitVec 6) : (0#57 ++ bit1 b ++ s : BitVec 64)[6] = b := by
  rw [← BitVec.getLsbD_eq_getElem]
  simp (disch := omega) only [getLsbD_append_low, getLsbD_append_high]
  simp [bit1]

@[simp] theorem zeroFrom_gstep (b : Bool) (s : BitVec 6) : zeroFrom 7 (0#57 ++ bit1 b ++ s : BitVec 64) = true := by
  have shifted : (0#57 ++ bit1 b ++ s : BitVec 64) >>> 7 = 0#64 := by
    ext i hi
    simp (disch := omega) only [BitVec.getElem_ushiftRight, getLsbD_append_high]
    simp
  rw [zeroFrom, shifted]
  rfl

/-! An operand that an upper word turns on (R326). -/

theorem offOk_reserved {en : Bool} {b : Src} (h : offOk en b = true) : en = true ∨ b.code = 0#9 := by
  obtain ⟨-, on⟩ : b.isImm = false ∧ (en = true ∨ b = .w 0) := by simpa [offOk] using h
  exact on.imp id (by rintro rfl; rfl)

theorem codeOk_off {en : Bool} {b : Src} (h : offOk en b = true) : (if en = true then kr 1 else .no).codeOk b.code = true := by
  obtain ⟨notImm, on⟩ : b.isImm = false ∧ (en = true ∨ b = .w 0) := by simpa [offOk] using h
  cases en
  · obtain rfl : b = .w 0 := by simpa using on
    rfl
  · simp [notImm]

theorem offOk_iff {en : Bool} {b : Src} : offOk en b = true ↔ b.isImm = false ∧ (en = true ∨ b = .w 0) := by
  simp [offOk]

/-! An operand of one register or two, by a modifier (R421). -/

theorem kr_ne (n : Nat) : kr n ≠ .no := nofun

theorem kr_ite_ne_no (p : Prop) [Decidable p] (m n : Nat) : (if p then kr m else kr n) ≠ .no := by
  split <;> exact kr_ne _

theorem codeOk_kr_ite (p : Prop) [Decidable p] (m n : Nat) {a : Src} (h : a.isImm = false) :
    (if p then kr m else kr n).codeOk a.code = true := by
  split <;> simp [h]

theorem bit1_mod_le (b : Bool) : (bit1 b).toNat % 64 ≤ 1 := by cases b <;> decide

theorem timeline_le (t : BitVec 3) : t.toNat ≤ 7 := by omega
theorem timeline_mod (t : BitVec 3) : t.toNat % 512 = t.toNat := by omega

/-! ### Groups 11 to 14 -/

theorem encodeD_build (i : Instr) (f : Fields) (hw : i.wf = true) (h : encodeD i = some f) : build f = some i := by
  revert hw h
  fun_cases encodeD i
  case case48 => exact fun _ => nofun
  all_goals
    rintro hw ⟨⟩
    revert hw
    delta Instr.wf
    simp only [enc, encM, build, buildD, Fields.group, BitVec.toNat_ofNat, Nat.reduceMod, Nat.reducePow, Nat.reduceDiv,
      Nat.reduceLT, if_false, Bool.and_eq_true]
    intro hw
    simp_all [Fields.g, Fields.d, Fields.a, Fields.b, Fields.c, Fields.e4, Fields.e5, Fields.i32, Fields.od, Fields.wd, Upper.bits,
      noImm, offOk_iff, TileUp.waitOk, Fields.fsat, Fields.rc, Fields.frc, Src.quadOk, Width.dataOk]

theorem encodeD_passes (i : Instr) (f : Fields) (hw : i.wf = true) (h : encodeD i = some f) : f.passes = true := by
  revert hw h
  fun_cases encodeD i
  case case48 => exact fun _ => nofun
  all_goals
    rintro hw ⟨⟩
    revert hw
    delta Instr.wf
    simp only [enc, encM, Fields.passes, formOf, Fields.group, BitVec.toNat_ofNat, Nat.reduceMod, Nat.reducePow, Nat.reduceDiv,
      Bool.and_eq_true]
    intro hw
    simp_all [form11, form12, form13, form14, Fields.index, Fields.xz, Fields.mzxz, Fields.numK,
      Fields.e4, Fields.e5, Upper.bits, lenOk_l64, lenOk_l96, lenOk_l128, Form.rsvOk, Form.fields,
      noImm, TileUp.waitOk, codeOk_off, offOk_reserved, codeOk_srcW, Width.code_le_six, Fields.frc, SSpace.code_le, TewOp.code_le, TredOp.code_lt, HaltMode.code_lt, Rc.code_le,
      mod_mma_lt, kr_ne, kr_ite_ne_no, codeOk_kr_ite, bit1_mod_le, timeline_mod, timeline_le]

/-- Settles O57: as for groups 0 to 7, and an upper word of each shape read back. -/
theorem encodeDecodeMemory : Obligations.EncodeDecodeMemory :=
  ⟨fun i f wf h => ⟨f.ofBytes_toBytes, encodeC_build i f wf h, checkFields_of_passes (encodeC_passes i f wf h)⟩,
   fun i f wf h => ⟨f.ofBytes_toBytes, encodeD_build i f wf h, checkFields_of_passes (encodeD_passes i f wf h)⟩⟩

end Sys2Proof
end

section
/-! SUPPORT. Integer words and divisions: their effects, and their values on the scalar types (R81, R91 to R97). -/

namespace Sys2Proof.Machine

/-- The effect of a word of one source that writes one result (R80, R82). -/
theorem effect_of_alu1 {ins : Instr} {g : Guard} {dw : Bool} {d : Dst} {pa : Pos} {a : Src} {f : Nat → Nat}
    (hx : ∀ s, exec ins s = alu1 g dw d pa a f s) :
    Effect ins (aluIss g dw (some d) [(pa, a)]) (fun fb => fb.result dw d (f (fb.src pa a))) :=
  effect_of_issue hx fun _ => Fibre.result_st _ _ _ _

/-- A word whose lane function completes under a condition has that function as its effect there. -/
theorem effectIf_of_issue {ins : Instr} {i : Iss} {f : Cx → Nat → Fibre → LaneRes} {ok : Fibre → Prop} {F : Fibre → Fibre}
    (hx : ∀ s, exec ins s = issue i f s) (hf : ∀ c l fb, ok fb → f c l fb = .ok (F fb)) (hst : ∀ fb, (F fb).st = fb.st) :
    EffectIf ins i (fun _ _ _ fb => ok fb) (fun _ _ _ fb => F fb) := by
  intro s c ready all
  rw [hx]
  exact issue_done ready (fun _ => F) (fun l hl => hf c l _ (all l hl)) fun _ _ => hst _

/-! ### Values of the scalar types -/

theorem joinN_singleton (w x : Nat) : joinN w [x] = x % 2 ^ w := by simp [joinN]

theorem ie_scalar {t : IType} (h : t.scalar = true) : ie t = 1 := by cases t <;> simp_all [IType.scalar, IType.packed, ie]

theorem wrap_lt (w : Nat) (v : Int) : wrap w v < 2 ^ w := by
  rw [wrap_eq_toNat_ofInt]
  exact BitVec.isLt _

theorem putI_lt (t : IType) (sat : Bool) (v : Int) : putI t sat v < 2 ^ iw t := wrap_lt _ _

/-- Of a scalar type the operation is on the one element (R91). -/
theorem mapI_scalar {t : IType} (h : t.scalar = true) (sat : Bool) (op : Int → Int → Int → Int) (a b c : Nat) :
    mapI t sat op a b c = putI t sat (op (elemI t a 0) (elemI t b 0) (elemI t c 0)) := by
  rw [mapI, ie_scalar h]
  exact (joinN_singleton _ _).trans (Nat.mod_eq_of_lt (putI_lt _ _ _))

/-- An element is its value modulo 2^W, whatever its sign (R91 Get). -/
theorem elemI_zero_emod (t : IType) (v : Nat) : elemI t v 0 % (2 ^ iw t : Nat) = (v : Int) % (2 ^ iw t : Nat) := by
  cases h : t.signed
  · rw [elemI_zero_unsigned h, Int.natCast_mod, Int.emod_emod_of_dvd _ (dvd_refl _)]
  · rw [elemI_zero_signed h, BitVec.toInt_eq_toNat_bmod, Int.bmod_emod, BitVec.toNat_ofNat, Int.natCast_mod,
      Int.emod_emod_of_dvd _ (dvd_refl _)]

theorem wrap_natCast_eq (w : Nat) (v : Int) : (wrap w v : Int) = v % (2 ^ w : Nat) :=
  Int.toNat_of_nonneg (Int.emod_nonneg _ (by simp))

theorem vIadd_scalar {t : IType} (h : t.scalar = true) (a b : Nat) : vIadd t false a b = (a + b) % 2 ^ iw t := by
  rw [vIadd, mapI_scalar h, putI_exact]
  zify
  rw [wrap_natCast_eq, Int.add_emod, elemI_zero_emod, elemI_zero_emod, ← Int.add_emod]
  simp

theorem vIsub_scalar {t : IType} (h : t.scalar = true) (a b : Nat) : (vIsub t false a b : Int) = ((a : Int) - b) % 2 ^ iw t := by
  rw [vIsub, mapI_scalar h, putI_exact, wrap_natCast_eq, Int.sub_emod, elemI_zero_emod, elemI_zero_emod, ← Int.sub_emod]
  simp

theorem vImul_scalar {t : IType} (h : t.scalar = true) (a b : Nat) : vImul t false a b = a * b % 2 ^ iw t := by
  rw [vImul, mapI_scalar h, putI_exact]
  zify
  rw [wrap_natCast_eq, Int.mul_emod, elemI_zero_emod, elemI_zero_emod, ← Int.mul_emod]
  simp

theorem vIadd_i32_sat (a b : BitVec 32) : BitVec.ofNat 32 (vIadd .i32 true a.toNat b.toNat) =
    BitVec.ofInt 32 (max (-2 ^ 31) (min (2 ^ 31 - 1) (a.toInt + b.toInt))) := by
  rw [vIadd, mapI_scalar rfl, putI_sat, wrap_eq_toNat_ofInt, elemI_zero_signed rfl, elemI_zero_signed rfl]
  simp only [iw, iMin, iMax, IType.signed, if_true, BitVec.ofNat_toNat, BitVec.setWidth_eq]

/-- Settles O1: each word is one of the shapes of one, two or three sources, and on a scalar type the one element's sum, difference or
product is reduced or clamped as R81 says. -/
theorem integerResults : Obligations.IntegerResults := by
  refine ⟨?_, fun t a b h => ⟨vIadd_scalar h a b, vIsub_scalar h a b, vImul_scalar h a b⟩, vIadd_i32_sat⟩
  intro g t sat d a b c
  refine ⟨?_, ?_, ?_, ?_, ?_, ?_, ?_, ?_, ?_, ?_, ?_, ?_⟩
  · exact effect_of_alu2 (f := vIadd t sat) fun _ => rfl
  · exact effect_of_alu2 (f := vIsub t sat) fun _ => rfl
  · exact effect_of_alu2 (f := vImul t sat) fun _ => rfl
  · exact effect_of_alu2 (f := vImulh t) fun _ => rfl
  · exact effect_of_alu3 (f := vImad t sat) fun _ => rfl
  · exact effect_of_alu1 (f := vIabs t sat) fun _ => rfl
  · exact effect_of_alu1 (f := vIneg t sat) fun _ => rfl
  · exact effect_of_alu2 (f := vImin t) fun _ => rfl
  · exact effect_of_alu2 (f := vImax t) fun _ => rfl
  · exact effect_of_alu3 (f := vIsad t) fun _ => rfl
  · exact fun sh => effect_of_alu2 (f := vLea t sh.toNat) fun _ => rfl
  · exact fun _ _ _ => effect_of_issue (fun _ => rfl) fun _ => by simp

/-! ### Divisions (R93, R94) -/

/-- The effect of a division where no executing lane takes the trap of R94. -/
theorem effect_of_divide {ins : Instr} {g : Guard} {t : IType} {d : Dst} {a b : Src} {f : Nat → Nat → Nat}
    (hx : ∀ s, exec ins s = divide g t d a b f s) :
    EffectIf ins (aluIss g t.is64 (some d) [(.i t, a), (.i t, b)])
      (fun _ _ _ fb => ¬ (fb.src (.i t) b = 0 ∧ fb.intctl.getLsbD 0 = true))
      (fun _ _ _ fb => fb.result t.is64 d (f (fb.src (.i t) a) (fb.src (.i t) b))) :=
  effectIf_of_issue hx (fun _ _ _ h => if_neg h) fun _ => Fibre.result_st _ _ _ _

theorem elemI_ui32 (a : BitVec 32) : elemI .ui32 a.toNat 0 = a.toNat := by
  rw [elemI_zero_unsigned rfl]
  exact congrArg Nat.cast (Nat.mod_eq_of_lt a.isLt)

theorem elemI_ui32_zero : elemI .ui32 0 0 = 0 := by decide

theorem vIdiv_ui32 {a b : BitVec 32} (h : b ≠ 0) : vIdiv .ui32 false a.toNat b.toNat = a.toNat / b.toNat := by
  have nonzero : (b.toNat : Int) ≠ 0 := by
    simpa [BitVec.toNat_eq] using h
  have lt : a.toNat / b.toNat < 2 ^ 32 := (Nat.div_le_self _ _).trans_lt a.isLt
  simp only [vIdiv, elemI_ui32, if_neg nonzero, putI_exact, ← Int.ofNat_tdiv, wrap_natCast]
  exact Nat.mod_eq_of_lt lt

theorem vIrem_ui32 {a b : BitVec 32} (h : b ≠ 0) : vIrem .ui32 a.toNat b.toNat = a.toNat % b.toNat := by
  have nonzero : (b.toNat : Int) ≠ 0 := by
    simpa [BitVec.toNat_eq] using h
  have rest : (a.toNat : Int) - b.toNat * (a.toNat / b.toNat : Nat) = (a.toNat % b.toNat : Nat) := by
    have := Nat.mod_add_div a.toNat b.toNat
    zify at this ⊢
    linarith
  have lt : a.toNat % b.toNat < 2 ^ 32 := (Nat.mod_le _ _).trans_lt a.isLt
  simp only [vIrem, elemI_ui32, if_neg nonzero, ← Int.ofNat_tdiv, rest, wrap_natCast]
  exact Nat.mod_eq_of_lt lt

/-- Settles O3: both words are divisions, which complete where R94 takes no trap; on .ui32 the elements are the values themselves. -/
theorem divisionResults : Obligations.DivisionResults := by
  refine ⟨fun g t sat d a b => ⟨?_, ?_⟩, fun sat a => ⟨?_, ?_⟩, fun a b h => ⟨vIdiv_ui32 h, vIrem_ui32 h⟩⟩
  · exact effect_of_divide (f := vIdiv t sat) fun _ => rfl
  · exact effect_of_divide (f := vIrem t) fun _ => rfl
  · simp only [vIdiv, elemI_ui32_zero, if_true]
    rfl
  · simp only [vIrem, elemI_ui32_zero, if_true, elemI_ui32, wrap_natCast]
    exact Nat.mod_eq_of_lt a.isLt

end Sys2Proof.Machine
end

section
/-! SUPPORT. Shifts, bit fields, counts and permutations: their effects, and what they compute bit by bit (R100 to R103). -/

namespace Sys2Proof.Machine

theorem elemN_toNat (a : BitVec 32) : elemN 32 a.toNat 0 = a.toNat := by
  rw [elemN_zero, Nat.mod_eq_of_lt a.isLt]

/-- Of a scalar type a shift is of the one element, by the whole amount (R100). -/
theorem mapShift_ui32 (op : Nat → Nat → Nat → Nat) (a : BitVec 32) (n : Nat) :
    mapShift .ui32 op a.toNat n = op 32 a.toNat n % 2 ^ 32 := by
  rw [mapShift, ie_scalar rfl]
  simp only [List.range_one, List.map_cons, List.map_nil, joinN_singleton, iw, elemN_toNat, IType.packed, Bool.false_eq_true, if_false]

theorem vShl_ui32_of_le (a : BitVec 32) {n : Nat} (h : 32 ≤ n) : vShl .ui32 a.toNat n = 0 := by
  rw [vShl, mapShift_ui32, if_neg (by omega), Nat.zero_mod]

theorem vShr_ui32_of_le (a : BitVec 32) {n : Nat} (h : 32 ≤ n) : vShr .ui32 a.toNat n = 0 := by
  rw [vShr, mapShift_ui32, if_neg (by omega), Nat.zero_mod]

theorem bit_eq_testBit (v i : Nat) : bit v i = v.testBit i := by
  rw [Nat.testBit_eq_decide_div_mod_eq, bit, beq_eq_decide]

theorem vSar_ui32_of_le (a : BitVec 32) {n : Nat} (h : 32 ≤ n) : vSar .ui32 a.toNat n = if a.msb then 2 ^ 32 - 1 else 0 := by
  rw [vSar, mapShift_ui32, if_neg (by omega), bit_eq_testBit, BitVec.msb_eq_getLsbD_last, ← BitVec.testBit_toNat]
  split <;> simp

theorem vShl_ui32_of_lt (a : BitVec 32) {n : Nat} (h : n < 32) : vShl .ui32 a.toNat n = (a <<< n).toNat := by
  rw [vShl, mapShift_ui32, if_pos h, BitVec.toNat_shiftLeft, Nat.shiftLeft_eq, Nat.mod_mod]

theorem vShr_ui32_of_lt (a : BitVec 32) {n : Nat} (h : n < 32) : vShr .ui32 a.toNat n = (a >>> n).toNat := by
  have lt : a.toNat / 2 ^ n < 2 ^ 32 := (Nat.div_le_self _ _).trans_lt a.isLt
  rw [vShr, mapShift_ui32, if_pos h, BitVec.toNat_ushiftRight, Nat.shiftRight_eq_div_pow, Nat.mod_eq_of_lt lt]

theorem vClz_zero (t : IType) : vClz t 0 = iw t := by simp [vClz]

/-! ### Bits reversed and counted (R102) -/

theorem brev_lt : ∀ w v : Nat, brev w v < 2 ^ w
  | 0, _ => by simp [brev]
  | w + 1, v => by
    have low := brev_lt w (v / 2)
    have top : v % 2 * 2 ^ w ≤ 1 * 2 ^ w := Nat.mul_le_mul_right _ (by omega)
    rw [brev, pow_succ]
    omega

/-- Bit j of a number goes to bit w − 1 − j. -/
theorem testBit_brev : ∀ (w v j : Nat), j < w → (brev w v).testBit (w - 1 - j) = v.testBit j
  | w + 1, v, 0, _ => by
    have low := brev_lt w (v / 2)
    rw [brev, Nat.mul_comm, show w + 1 - 1 - 0 = w by omega, Nat.testBit_two_pow_mul_add _ low]
    simp
  | w + 1, v, j + 1, h => by
    have low := brev_lt w (v / 2)
    have ih := testBit_brev w (v / 2) j (by omega)
    rw [brev, Nat.mul_comm, Nat.testBit_two_pow_mul_add _ low, if_pos (by omega), show w + 1 - 1 - (j + 1) = w - 1 - j by omega, ih,
      Nat.testBit_div_two]

theorem popc_eq_length : ∀ w v : Nat, popc w v = ((List.range w).filter fun j => v.testBit j).length
  | 0, _ => rfl
  | w + 1, v => by
    rw [popc, popc_eq_length w (v / 2), List.range_succ_eq_map, List.filter_cons, List.filter_map, Nat.testBit_zero]
    have rest : ((fun j => v.testBit j) ∘ Nat.succ) = fun j => (v / 2).testBit j := by
      funext j
      exact (Nat.testBit_div_two v j).symm
    rw [rest]
    rcases Nat.mod_two_eq_zero_or_one v with h | h <;> simp [h, Nat.add_comm]

/-- Settles O5: each word is one of the shapes of one, two or three sources; on 32-bit values the shifts are the bit vectors', and POPC,
CLZ and BREV go bit by bit. -/
theorem bitResults : Obligations.BitResults := by
  refine ⟨fun g t d a b c => ⟨?_, ?_, ?_, ?_, ?_, ?_, ?_, ?_, ?_, ?_⟩,
    fun a n h => ⟨vShl_ui32_of_le a h, vShr_ui32_of_le a h, vSar_ui32_of_le a h⟩,
    fun a n h => ⟨vShl_ui32_of_lt a h, vShr_ui32_of_lt a h⟩,
    vClz_zero, fun t a j h => testBit_brev (iw t) a j h, fun t a => popc_eq_length (iw t) a⟩
  · exact effect_of_alu2 (f := vShl t) fun _ => rfl
  · exact effect_of_alu2 (f := vShr t) fun _ => rfl
  · exact effect_of_alu2 (f := vSar t) fun _ => rfl
  · exact effect_of_alu2 (f := vRotl t) fun _ => rfl
  · exact effect_of_alu2 (f := vBfx t) fun _ => rfl
  · exact effect_of_alu3 (f := vBfi t) fun _ => rfl
  · exact effect_of_alu1 (f := vPopc t) fun _ => rfl
  · exact effect_of_alu1 (f := vClz t) fun _ => rfl
  · exact effect_of_alu1 (f := vBrev t) fun _ => rfl
  · exact fun gr => effect_of_alu3 (f := vPrmt gr) fun _ => rfl

end Sys2Proof.Machine
end

section
/-! SUPPORT. Comparisons, predicate words and floats: their effects where no condition traps, and the ARITH trap where one does (R105 to
R110, R118 to R131, R94, R119). -/

namespace Sys2Proof.Machine

@[simp] theorem Fibre.raise_st (f : Fibre) (flags : Nat) : (f.raise flags).st = f.st := rfl

/-- Where no enabled condition arises a word with conditions completes (R119). -/
theorem Fibre.finish_ok {f : Fibre} {flags : Nat} (h : f.traps flags = false) (write : Fibre → Fibre) :
    f.finish flags write = .ok (write (f.raise flags)) := by
  simp [Fibre.finish, h]

/-- Where one arises it traps. -/
theorem Fibre.finish_fault {f : Fibre} {flags : Nat} (h : f.traps flags = true) (write : Fibre → Fibre) :
    f.finish flags write = .fault f (arith flags) := by
  simp [Fibre.finish, h]

/-- The effect of a word that ends by its conditions and writes one result (R119). -/
theorem effect_of_finishF {ins : Instr} {i : Iss} {w : Bool} {d : Dst} {r : Fibre → Nat × Nat}
    (hx : ∀ s, exec ins s = issue i (fun _ _ fb => fb.finishF w d (r fb)) s) :
    EffectIf ins i (floatFine r) (floatDone w d r) := by
  intro s c ready fine
  rw [hx]
  exact issue_done ready (fun l fb => floatDone w d r s c l fb) (fun l hl => Fibre.finish_ok (fine l hl) _)
    fun _ _ => by simp [floatDone]

/-- The effect of a float comparison (R105, R106, R119). -/
theorem effect_of_fcmp {ins : Instr} {g : Guard} {F : FF} {t : FType} {cc : Cc} {m : AccMode} {p : Num4} {a b : Src}
    (hx : ∀ s, exec ins s = fcmp g F t cc m p a b s) :
    let r := fun (f : Fibre) => vFcmp F cc f.ftz (f.src (.f t) a) (f.src (.f t) b)
    EffectIf ins (aluIss g false none [(.f t, a), (.f t, b)]) (fun _ _ _ f => f.traps (r f).2 = false)
      (fun _ _ _ f => (f.raise (r f).2).setPred p (accum m (f.pred p) (r f).1)) :=
  effectIf_of_issue hx (fun _ _ _ fine => Fibre.finish_ok fine _) fun _ => by simp

/-- Settles O6: the words complete for any operands, but for the float comparisons, which complete where no enabled condition arises. -/
theorem compareResults : Obligations.CompareResults := by
  constructor
  · intro g cc t m mask neg d p pa pb pc lut a b
    refine ⟨?_, ?_, ?_, ?_, ?_, ?_⟩
    · exact effect_of_issue (fun _ => rfl) fun _ => by simp
    · exact effect_of_issue (fun _ => rfl) fun _ => by simp
    · exact effect_of_issue (fun _ => rfl) fun _ => by simp
    · exact effect_of_alu2 (f := vIset t cc mask) fun _ => rfl
    · exact effect_of_issue (fun _ => rfl) fun _ => by simp
    · exact effect_of_issue (fun _ => rfl) fun _ => rfl
  · exact fun g cc rc m p a b => ⟨effect_of_fcmp fun _ => rfl, effect_of_fcmp fun _ => rfl⟩

/-- Settles O7: each word but FCLASS ends by its conditions, so it completes where none meets an enable; FCLASS is a word of one source. -/
theorem floatResults : Obligations.FloatResults := by
  constructor
  · intro g t sat rc d a b c n
    refine ⟨?_, ?_, ?_, ?_, ?_, ?_, ?_, ?_, ?_, ?_, ?_, effect_of_alu1 (f := vFclass t) fun _ => rfl, ?_⟩
    all_goals exact effect_of_finishF fun _ => rfl
  · intro g t sat rc d a b c
    refine ⟨?_, ?_, ?_, ?_, ?_, ?_, ?_, ?_, ?_, ?_, ?_, ?_⟩
    all_goals exact effect_of_finishF fun _ => rfl

/-! ### ARITH traps (R94, R119) -/

/-- A word on registers alone whose only executing lane faults is a word that traps. -/
theorem trapped_of_issue {ins : Instr} {i : Iss} {s : State} {c : Cx} {l : Nat} {t : Trap} {f : Cx → Nat → Fibre → LaneRes}
    (hx : ∀ s, exec ins s = issue i f s) (ready : Ready s c i) (one : c.lanes i.g = [l]) (lt : l < c.st.fibres.length)
    (fault : f c l (c.st.fibre l) = .fault (c.st.fibre l) t) : Trapped ins s s c l t := by
  obtain ⟨w, v, run, before, after⟩ := issue_trap ready one lt fault
  exact ⟨w, v, (hx s).trans run, before, after⟩

/-- Settles O8: a float word whose conditions meet an enable, and a division by zero under IDZE, fault in their only executing lane. -/
theorem arithmeticTraps : Obligations.ArithmeticTraps := by
  intro s c l g d one lt
  constructor
  · intro t sat rc a b x
    refine ⟨fun ready => ⟨?_, ?_⟩, fun ready => ?_⟩
    all_goals
      rintro v rfl traps
      exact trapped_of_issue (fun _ => rfl) ready one lt (Fibre.finish_fault traps _)
  · intro t sat a b ready zero idze
    exact ⟨trapped_of_issue (fun _ => rfl) ready one lt (if_pos ⟨zero, idze⟩),
      trapped_of_issue (fun _ => rfl) ready one lt (if_pos ⟨zero, idze⟩)⟩

end Sys2Proof.Machine
end

section
/-! SUPPORT. The canonical form of byte cells is one list for each memory; the device after power-up (R454); words the spec writes out
(R58 to R70). -/

namespace Sys2Proof.Machine

/-- Two canonical lists that read alike are the same list. -/
theorem eq_of_cellRead_eq {lo lo' : Nat} : ∀ {m l : List Host.Cell}, Memory.wfFrom lo' m = true → Memory.wfFrom lo l = true →
    (∀ x, cellRead m x = cellRead l x) → m = l
  | [], [], _, _, _ => rfl
  | [], (a, v) :: _, _, wl, same => by
    simp only [Memory.wfFrom, Bool.and_eq_true, decide_eq_true_eq] at wl
    exact absurd (by simpa [cellRead] using (same a).symm) wl.1.2
  | (b, u) :: _, [], wm, _, same => by
    simp only [Memory.wfFrom, Bool.and_eq_true, decide_eq_true_eq] at wm
    exact absurd (by simpa [cellRead] using same b) wm.1.2
  | (b, u) :: m, (a, v) :: l, wm, wl, same => by
    simp only [Memory.wfFrom, Bool.and_eq_true, decide_eq_true_eq] at wm wl
    have readB := same b
    have readA := same a
    rcases Nat.lt_trichotomy a b with h | rfl | h
    · simp only [cellRead, if_neg h.ne, h, if_true] at readA
      exact absurd readA.symm wl.1.2
    · simp only [cellRead, if_true] at readA
      subst readA
      have tails : ∀ x, cellRead m x = cellRead l x := fun x => by
        by_cases below : x < a + 1
        · rw [cellRead_below wm.2 below, cellRead_below wl.2 below]
        · have := same x
          simpa only [cellRead, if_neg (show x ≠ a by omega), if_neg (show ¬ x < a by omega)] using this
      rw [eq_of_cellRead_eq wm.2 wl.2 tails]
    · simp only [cellRead, if_neg h.ne, h, if_true] at readB
      exact absurd readB wm.1.2

/-- Settles O60: the laws of byte cells, and that a canonical list is determined by what it reads as. -/
theorem memoryCells : Obligations.MemoryCells := fun _ a b wf =>
  ⟨cellsWrite_wf b a wf, fun i => cellRead_cellsWrite_in b a i wf, fun x => cellRead_cellsWrite_out b a x wf,
   fun _ wf' same => eq_of_cellRead_eq wf' wf same⟩

/-- Settles O59: the fields of the reset state as it is written, which lists no rope. -/
theorem resetState : Obligations.ResetState :=
  ⟨⟨rfl, rfl, rfl, rfl, rfl, rfl, rfl, rfl, rfl, rfl, rfl, rfl, rfl, rfl, rfl, rfl⟩, rfl, rfl, fun _ h => nomatch h⟩

/-- Settles O55: the decoder evaluated on each word. -/
theorem decodeWords : Obligations.DecodeWords := by
  unfold Obligations.DecodeWords
  decide +kernel

/-! ### Privileged words in user mode (R70, R412) -/

/-- A word of the supervisor in a rope's strand faults in its only executing lane. -/
theorem trapped_of_privileged {ins : Instr} {n : Nat} {g : Guard} {uses : List Nat} {f : Cx → State → Nat → Fibre → Except State LaneFx}
    {s : State} {c : Cx} {l : Nat} {r : RopeId} {sid : Nat} (user : c.who = .strand r sid) (one : c.lanes g = [l])
    (free : Free s c { len := n, g := g, uses := [] }) (hx : exec ins s = privileged n g uses f s) :
    Trapped ins s s.fresh.2 c l ⟨.illegal, .at, 5, 0, false⟩ := by
  obtain ⟨cur, hst, -⟩ := cx_eq free.ready.stands
  have run : exec ins s = issueSt { len := n, g := g, uses := [] } (fun _ _ s _ fb => ⟨s, .fault fb (illegal .privileged), 0⟩) s := by
    rw [hx, privileged, cur, user]
  have here : s.fresh.2.fibre c.who l = c.st.fibre l := by
    rw [hst, user]
    rfl
  have traps := issueSt_trap (t := illegal .privileged) (fb := c.st.fibre l) (u := s.fresh.2)
    (f := fun _ _ s _ fb => ⟨s, .fault fb (illegal .privileged), 0⟩) free one rfl
  rw [committed_fault _ _ _ (.inl rfl)] at traps
  refine trapped_same here ?_
  rw [Trapped, run]
  exact traps

/-- Settles O32: in user mode every one of the words comes to the fault of R70. -/
theorem privilegedWordsTrapInUserMode : Obligations.PrivilegedWordsTrapInUserMode := by
  rintro s c l r sid g ins n user one words free
  have cur : s.cur = some (.strand r sid) := user ▸ (cx_eq free.ready.stands).1
  rcases words with ⟨rfl, words⟩ | ⟨rfl, words⟩
  · rcases words with ⟨d, t, rfl⟩ | ⟨d, p, a, rfl⟩ | ⟨p, v, m, rfl⟩ | ⟨p, x, v, rfl⟩ | ⟨m, d, x, rfl⟩
    · refine trapped_of_privileged (uses := useD 1 d ++ useS 2 t) (f := fun c s _ fb => rftLane d t c s fb) user one free ?_
      show execRft g d t s = _
      rw [execRft, cur]
    all_goals exact trapped_of_privileged user one free rfl
  · rcases words with ⟨sp, sv, w, d, p, a, t, off, rfl⟩ | ⟨sp, sv, w, p, a, v, t, off, rfl⟩ | ⟨full, a, k, allc, ctx, rfl⟩
    all_goals exact trapped_of_privileged user one free rfl

/-! ### The bytes of a replay entry (R364, R366) -/

/-- A field of bytes that a number fills (R6). -/
theorem leNat_field (n : Nat) : ∀ (v k j : Nat) (rest : List Byte), k + j ≤ n →
    leNat (((leBytes n v ++ rest).drop k).take j) = v / 256 ^ k % 256 ^ j := by
  intro v k
  induction k generalizing n v with
  | zero =>
    intro j rest h
    have head : ((leBytes n v ++ rest).drop 0).take j = (leBytes n v).take j := by
      rw [List.drop_zero, List.take_append_of_le_length (by simpa using h)]
    have taken : ∀ (n v j : Nat), j ≤ n → (leBytes n v).take j = leBytes j v := by
      intro n v j
      induction j generalizing n v with
      | zero => intro _; rfl
      | succ j ih =>
        intro le
        obtain ⟨n, rfl⟩ : ∃ m, n = m + 1 := ⟨n - 1, by omega⟩
        rw [leBytes, leBytes, List.take_succ_cons, ih n _ (by omega)]
    rw [head, taken _ _ _ (by omega), leNat_leBytes, pow_zero, Nat.div_one]
  | succ k ih =>
    intro j rest h
    obtain ⟨n, rfl⟩ : ∃ m, n = m + 1 := ⟨n - 1, by omega⟩
    rw [leBytes, List.cons_append, List.drop_succ_cons, ih n _ j rest (by omega), Nat.div_div_eq_div_mul, pow_succ' 256 k]

@[simp] theorem bytesOfWords_length (l : List (BitVec 32)) : (bytesOfWords l).length = 4 * l.length := by
  induction l with
  | nil => rfl
  | cons w l ih => simp only [bytesOfWords, List.flatMap_cons, List.length_append, leBytes_length, List.length_cons] at ih ⊢; omega

theorem LaneBlk.bytes_length {b : LaneBlk} (h : b.near.length = 8) : b.bytes.length = 40 := by
  simp [LaneBlk.bytes, h]

theorem blocks_length : ∀ {l : List LaneBlk}, (∀ b ∈ l, b.near.length = 8) → (l.flatMap LaneBlk.bytes).length = 40 * l.length
  | [], _ => rfl
  | b :: l, h => by
    rw [List.flatMap_cons, List.length_append, LaneBlk.bytes_length (h b (List.mem_cons_self ..)),
      blocks_length fun x hx => h x (List.mem_cons_of_mem _ hx), List.length_cons]
    omega

/-- The number an entry's header is the bytes of (R364). -/
def Entry.headerNat (e : Entry) : Nat :=
  e.kpc.toNat + e.hpc.toNat * 2 ^ 64 + (if e.srl then 2 ^ 157 else 0) + (if e.rtry then 2 ^ 158 else 0) +
    RKind.num e.kind * 2 ^ 159 + FClass.num e.cls * 2 ^ 161 + e.tl % 8 * 2 ^ 165 + e.sid % 32 * 2 ^ 168 + e.rope.slot % 128 * 2 ^ 173 +
    e.ctx % 4096 * 2 ^ 180 + e.seq.toNat * 2 ^ 192 + e.opnum.toNat * 2 ^ 224 + e.info.toNat * 2 ^ 256 + e.fmask.toNat * 2 ^ 288 +
    e.fpc.toNat * 2 ^ 320 + e.rpc.toNat * 2 ^ 384 + e.fva.toNat * 2 ^ 448

theorem Entry.header_eq (e : Entry) : e.header = leBytes 64 e.headerNat := rfl

theorem Entry.bytes_length {e : Entry} (h : ∀ b ∈ e.lanes, b.near.length = 8) : e.bytes.length = 64 + 40 * e.lanes.length := by
  rw [Entry.bytes, List.length_append, blocks_length h, Entry.header_eq, leBytes_length]

theorem Entry.bytes_field (e : Entry) {k j : Nat} (h : k + j ≤ 64) :
    leNat ((e.bytes.drop k).take j) = e.headerNat / 256 ^ k % 256 ^ j :=
  leNat_field 64 e.headerNat k j _ h

/-- The words and addresses of the header do not overlap what stands below them. -/
theorem Entry.headerNat_fields (e : Entry) :
    ∃ low < 2 ^ 192, e.headerNat = low + 2 ^ 192 * (e.seq.toNat + 2 ^ 32 * (e.opnum.toNat + 2 ^ 32 * (e.info.toNat + 2 ^ 32 * (e.fmask.toNat +
      2 ^ 32 * (e.fpc.toNat + 2 ^ 64 * (e.rpc.toNat + 2 ^ 64 * e.fva.toNat)))))) := by
  have kind : RKind.num e.kind < 4 := by cases e.kind <;> decide
  have cls : FClass.num e.cls < 16 := by cases e.cls <;> decide
  refine ⟨e.kpc.toNat + e.hpc.toNat * 2 ^ 64 + (if e.srl then 2 ^ 157 else 0) + (if e.rtry then 2 ^ 158 else 0) +
    RKind.num e.kind * 2 ^ 159 + FClass.num e.cls * 2 ^ 161 + e.tl % 8 * 2 ^ 165 + e.sid % 32 * 2 ^ 168 + e.rope.slot % 128 * 2 ^ 173 +
    e.ctx % 4096 * 2 ^ 180, ?_, ?_⟩
  · split <;> split <;> omega
  · rw [Entry.headerNat]
    omega

/-- Settles O29: the blocks make the length, and each field is read where the header holds it. -/
theorem entryBytes : Obligations.EntryBytes := by
  intro e lanes near
  have count : e.lanes.length = (lanesOf e.fmask).length := by rw [← lanes, List.length_map]
  obtain ⟨low, lt, fields⟩ := e.headerNat_fields
  refine ⟨count ▸ Entry.bytes_length near, ?_, ?_, ?_, ?_, ?_, ?_⟩
  all_goals
    rw [Entry.bytes_field e (by decide), fields]
    omega

end Sys2Proof.Machine
end

section
/-! SUPPORT. Words whose lanes do something beyond registers: what a fibre, a strand and a rope's own fields keep, and one executing lane.
Conversions with draws (R50, R51), moves, special registers and control registers (R27 to R30, R111 to R116). -/

namespace Sys2Proof.Machine

/-! ### What is kept -/

theorem keeps_setFibre (u : State) (w : Who) (l : Nat) (f : Fibre) : Keeps u (u.setFibre w l f) w :=
  keeps_setStrand u w w _ rfl fun h => absurd rfl h

/-- A field of a rope that is not of its strands. -/
theorem Keeps.rope_map {s t : State} {w : Who} (k : Keeps s t w) {α : Type} (f : Rope → α) (own : ∀ r, f r.own = f r) (r : RopeId) :
    (t.rope? r).map f = (s.rope? r).map f := by
  simpa only [Option.map_map, Function.comp_def, own] using congrArg (Option.map f) (k.ropes r)

theorem Keeps.gtime {s t : State} {w : Who} (k : Keeps s t w) : t.gtime = s.gtime := (congrArg State.gtime k.rest :)
theorem Keeps.chip {s t : State} {w : Who} (k : Keeps s t w) : t.chip = s.chip := (congrArg State.chip k.rest :)
theorem Keeps.ctx? {s t : State} {w : Who} (k : Keeps s t w) (n : Nat) : t.ctx? n = s.ctx? n :=
  (congrArg (fun u : State => u.ctx? n) k.rest :)

/-- A special register is of the rope's own fields and of the device's (R30). -/
theorem Keeps.special {s t : State} {w : Who} (k : Keeps s t w) (v : Who) (l sp : Nat) : t.special v l sp = s.special v l sp := by
  cases v with
  | sup n => simp only [State.special, State.clock, k.gtime, k.chip]; rfl
  | strand r sid =>
    have pid : ((t.rope? r).bind fun r => t.ctx? r.ctx).map (fun c => c.pid.toNat) = ((s.rope? r).bind fun r => s.ctx? r.ctx).map fun c => c.pid.toNat := by
      have := congrArg (fun o => (o.bind s.ctx?).map fun c : Context => c.pid.toNat) (k.rope_map Rope.ctx (fun _ => rfl) r)
      simpa only [Option.bind_map, Function.comp_def, k.ctx?] using this
    simp only [State.special, State.clock, k.gtime, k.chip, pid, k.rope_map (fun r : Rope => r.ropeXyz.1) (fun _ => rfl) r,
      k.rope_map (fun r : Rope => r.ropeXyz.2.1) (fun _ => rfl) r, k.rope_map (fun r : Rope => r.ropeXyz.2.2) (fun _ => rfl) r,
      k.rope_map (fun r : Rope => r.coilXyz.1) (fun _ => rfl) r, k.rope_map (fun r : Rope => r.coilXyz.2.1) (fun _ => rfl) r,
      k.rope_map (fun r : Rope => r.coilXyz.2.2) (fun _ => rfl) r, k.rope_map Rope.stage (fun _ => rfl) r, k.rope_map Rope.ctx (fun _ => rfl) r]

theorem strandKey_own (seed : DWord) (rp : Rope) (sid : Nat) : strandKey seed rp.own sid = strandKey seed rp sid := by
  simp only [strandKey, Rope.own]

theorem State.srState_strand (u : State) (r : RopeId) (sid : Nat) (seed : DWord) (cnt : Word) : u.srState (.strand r sid) seed cnt =
    match u.rope? r with
    | some rp => mix (strandKey seed rp sid ^^^ cnt.toNat)
    | none => 0 := rfl

/-- So is the stochastic state of a rope's lane (R51). -/
theorem Keeps.srState {s t : State} {w : Who} (k : Keeps s t w) {v : Who} (rope : v.isSup = false) (seed : DWord) (cnt : Word) :
    t.srState v seed cnt = s.srState v seed cnt := by
  cases v with
  | sup n => cases rope
  | strand r sid =>
    have own := k.ropes r
    rw [State.srState_strand, State.srState_strand]
    cases ht : t.rope? r <;> cases hs : s.rope? r <;> simp only [ht, hs, Option.map_some, Option.map_none, Option.some.injEq, reduceCtorEq] at own ⊢
    rw [← strandKey_own, own, strandKey_own]

/-! ### One executing lane, whose path goes on -/

/-- A word of one executing lane that completes, with where its path goes. -/
theorem issueSt_one_passed {c : Cx} {i : Iss} {s : State} {act : State → Nat → State} {fib : Nat → Fibre} {l n : Nat} {tg : Option DWord}
    {f : Cx → Nat → State → Nat → Fibre → LaneFx} (r : Free s c i) (one : c.lanes i.g = [l]) (L : Lane c i (fun _ => True) act fib l)
    (hf : f c s.nextId s.fresh.2 l (c.st.fibre l) = ⟨act s.fresh.2 l, ⟨fib l, tg, none⟩, n⟩) :
    ∃ t, issueSt i f s = .next t ∧ Passed ((s.fresh.2.each c i (c.lanes i.g) act fib).raised c i s.nextId (n * (c.lanes i.g).length)) t c := by
  obtain ⟨-, hst, -⟩ := cx_eq r.ready.stands
  have has : s.fresh.2.hasStrand c.who := by
    have := cx_has r.ready.stands
    cases h : c.who <;> simp_all [State.hasStrand, State.fresh, State.rope?]
  have here : ∀ k, s.fresh.2.fibre c.who k = c.st.fibre k := by
    intro k; rw [hst]; cases c.who <;> rfl
  have run : runLanes c i (f c s.nextId) s.fresh.2 =
      ((act s.fresh.2 l).setFibre c.who l (i.mark (fib l)), [], (tg.map fun t => (l, t)).toList, n) := by
    rw [runLanes_eq, one]
    simp only [List.foldl_cons, List.foldl_nil, laneStep, here, r.ready.may, r.ready.clear l (by simp [one]), Bool.false_eq_true, if_false,
      hf, Option.map_none, Option.toList_none, List.append_nil, List.nil_append, Nat.zero_add]
    rw [committed_ok]
  have spec := each_spec (Inv := fun _ => True) (act := act) (fib := fib) (i := i) [l] s.fresh.2 (List.nodup_singleton l)
    (fun k hk => List.mem_singleton.1 hk ▸ L) trivial has (fun k _ => here k)
  rw [one]
  refine ⟨_, ?_, passed_finish (tgts := (tg.map fun t => (l, t)).toList) spec.1 fun k _ live => ?_⟩
  · unfold issueSt
    simp only [r.ready.stands, r.free, Bool.false_eq_true, if_false]
    rw [show s.fresh.1 = s.nextId from rfl, run]
    simp only [List.length_singleton, Nat.mul_one]
    rfl
  · exact spec.2 k (by rw [here]; exact live) fun l _ e => e ▸ live

/-! ### Lanes -/

/-- A lane that leaves everything but its fibre alone. -/
theorem lane_of_same {c : Cx} {i : Iss} {s : State} {act : State → Nat → State} {fib : Nat → Fibre} {l : Nat}
    (same : ∀ u, Keeps s u c.who → act u l = u) (live : (fib l).st = (c.st.fibre l).st) : Lane c i (fun u => Keeps s u c.who) act fib l where
  inv u k := (same u k).symm ▸ k
  keep u _ k := by rw [same u k]
  has u k h := (same u k).symm ▸ h
  set u _ k := k.trans (keeps_setFibre _ _ _ _)
  live := live

/-- A lane that leaves the fibres of its strand alone. -/
theorem lane_of_fibres {c : Cx} {i : Iss} {act : State → Nat → State} {fib : Nat → Fibre} {l : Nat}
    (keep : ∀ u k, (act u l).fibre c.who k = u.fibre c.who k) (has : ∀ u, u.hasStrand c.who → (act u l).hasStrand c.who)
    (live : (fib l).st = (c.st.fibre l).st) : Lane c i (fun _ => True) act fib l :=
  ⟨fun _ _ => trivial, fun u k _ => keep u k, fun u _ => has u, fun _ _ _ => trivial, live⟩

end Sys2Proof.Machine
end

section
/-! SUPPORT. Conversions with their draws, MOVS and CSRR (R50, R51, R112 to R114, R132 to R141). -/

namespace Sys2Proof.Machine

/-! ### Conversions (R134 to R136) -/

@[simp] theorem Fibre.drew_st (f : Fibre) (rc : Rc) : (f.drew rc).st = f.st := by
  unfold Fibre.drew
  split <;> rfl

@[simp] theorem State.spend_fibre (u : State) (w v : Who) (k : Nat) : (u.spend w).fibre v k = u.fibre v k := by
  cases w <;> cases v <;> rfl

@[simp] theorem State.spend_hasStrand (u : State) (w v : Who) : (u.spend w).hasStrand v ↔ u.hasStrand v := by
  cases w <;> cases v <;> rfl

theorem State.spend_of_rope {u : State} {w : Who} (rope : w.isSup = false) : u.spend w = u := by
  cases w
  · rfl
  · cases rope

theorem State.fresh_srState (s : State) (w : Who) (seed : DWord) (cnt : Word) : s.fresh.2.srState w seed cnt = s.srState w seed cnt := by
  cases w
  · rw [State.srState_strand, State.srState_strand]
    rfl
  · rfl

/-- A lane's draws under .sr are of its stochastic state; other roundings draw nothing (R50, R51). -/
def drawsOf (s : State) (k : Cx) (rc : Rc) (l : Nat) (f : Fibre) : Nat → Nat :=
  drawOf (if rc = .sr then s.srState k.who k.st.srseed f.cnt else 0) l

/-- The effect of a conversion (R50, R51, R119). -/
theorem acts_of_convert {ins : Instr} {i : Iss} {dw : Bool} {d : Dst} {rc : Rc} {v : (Nat → Nat) → Fibre → Nat × Nat}
    (hx : ∀ s, exec ins s = convert i dw d rc v s) :
    Acts ins i
      (fun s k l => (k.who.isSup = false ∨ k.lanes i.g = [l]) ∧ (k.st.fibre l).traps (v (drawsOf s k rc l (k.st.fibre l)) (k.st.fibre l)).2 = false)
      (fun _ k u _ => if rc = .sr then u.spend k.who else u)
      (fun s k l => let f := k.st.fibre l
        let r := v (drawsOf s k rc l f) f
        ((f.raise r.2).result dw d r.1).drew rc) 0 := by
  intro s c free ok
  rw [hx, convert]
  have lane : ∀ (u : State) (l : Nat), u.srState c.who c.st.srseed (c.st.fibre l).cnt = s.srState c.who c.st.srseed (c.st.fibre l).cnt →
      (c.st.fibre l).traps (v (drawsOf s c rc l (c.st.fibre l)) (c.st.fibre l)).2 = false →
      drawOf (if rc = .sr then u.srState c.who c.st.srseed (c.st.fibre l).cnt else 0) l = drawsOf s c rc l (c.st.fibre l) ∧
      (c.st.fibre l).finishF dw d (v (drawsOf s c rc l (c.st.fibre l)) (c.st.fibre l)) =
        .ok (((c.st.fibre l).raise (v (drawsOf s c rc l (c.st.fibre l)) (c.st.fibre l)).2).result dw d
          (v (drawsOf s c rc l (c.st.fibre l)) (c.st.fibre l)).1) :=
    fun u l same fine => ⟨by rw [same, drawsOf], Fibre.finish_ok fine _⟩
  by_cases rope : c.who.isSup = false
  · refine issueSt_passes (Inv := fun u => Keeps s.fresh.2 u c.who) (tgt := fun _ => none) free (Keeps.refl _ _)
      (fun l _ => lane_of_same (fun u _ => ?_) (by simp)) fun l hl u k _ => ?_
    · show (if rc = .sr then u.spend c.who else u) = u
      rw [State.spend_of_rope rope, ite_self]
    · obtain ⟨draws, fine⟩ := lane u l ((k.srState rope _ _).trans (s.fresh_srState _ _ _)) (ok l hl).2
      simp only [draws, fine]
      rfl
  · cases lanes : c.lanes i.g with
    | nil =>
      rw [← lanes]
      exact issueSt_passes (Inv := fun _ => True) (tgt := fun _ => none) free trivial (by simp [lanes]) (by simp [lanes])
    | cons l rest =>
      obtain ⟨one, traps⟩ := ok l (by simp [lanes])
      have one : c.lanes i.g = [l] := one.resolve_left rope
      rw [← lanes]
      refine issueSt_one_passed (tg := none) free one (lane_of_fibres (fun u k => ?_) (fun u h => ?_) (by simp)) ?_
      · split <;> simp
      · split
        · exact (State.spend_hasStrand _ _ _).2 h
        · exact h
      · obtain ⟨draws, fine⟩ := lane s.fresh.2 l (s.fresh_srState _ _ _) traps
        simp only [draws, fine]
        rfl

/-- Settles O9: the words on registers alone end by their conditions; CVT and PACK are conversions, whose lanes draw from the state they
have at issue. -/
theorem conversionResults : Obligations.ConversionResults := by
  intro g sat rc d a b c
  refine ⟨fun f e => ?_, fun t k => ?_, ?_, fun hi p => ?_, ?_, fun fd fs => ?_, fun fm slot => ?_⟩
  · exact effect_of_finishF fun _ => rfl
  · exact effect_of_finishF fun _ => rfl
  · exact effect_of_alu2 (f := vT3pk) fun _ => rfl
  · exact effect_of_issue (fun _ => rfl) fun _ => by simp
  · rintro ins pa pb pc v ⟨fa, fb, rfl | rfl | rfl, rfl, rfl, rfl, rfl⟩
    all_goals exact effect_of_finishF fun _ => rfl
  · exact acts_of_convert (v := fun dr f => vCvt fd fs (f.rc rc) sat f.ftz (dr 0) (f.src (.c fs) a)) fun _ => rfl
  · exact acts_of_convert (v := fun dr f => vPack fm slot.toNat (f.rc rc) sat f.ftz (fun j => dr (2 * slot.toNat + j))
      (f.src (.c (CFmt.packSrc fm)) a) (f.src (.c (CFmt.packSrc fm)) b) (f.src .b32 c)) fun _ => rfl

end Sys2Proof.Machine
end

section
/-! SUPPORT. MOV, MOVS, CSRR and CSRW (R27 to R30, R112 to R116). -/

namespace Sys2Proof.Machine

/-! ### MOVS (R113) -/

theorem State.fresh_special (s : State) (w : Who) (l sp : Nat) : s.fresh.2.special w l sp = s.special w l sp := by
  cases w <;> rfl

theorem State.freeCtr_fibre (u : State) (n : Nat) (v : Who) (k : Nat) : ({ u with freeCtr := n } : State).fibre v k = u.fibre v k := by
  cases v <;> rfl

theorem State.freeCtr_hasStrand (u : State) (n : Nat) (v : Who) : ({ u with freeCtr := n } : State).hasStrand v ↔ u.hasStrand v := by
  cases v <;> rfl

/-- A lane of MOVS beyond its fibre: a number that the reader does not have draws a free value (log 7). -/
def State.movsAct (sp : Nat) (w : Who) (u : State) (l : Nat) : State :=
  match u.special w l sp with
  | some _ => u
  | none => { u with freeCtr := u.freeCtr + 1 }

/-- What a lane of MOVS makes of its fibre. -/
def State.movsFibre (s : State) (wide : Bool) (d : Dst) (sp : Nat) (w : Who) (l : Nat) (fb : Fibre) : Fibre :=
  match s.special w l sp with
  | some v => fb.result wide d (v % 2 ^ (if wide then 64 else 32))
  | none => fb.result wide d ((Config.freeValue s.freeCtr).toNat % 2 ^ 32)

theorem State.movsFibre_st (s : State) (wide : Bool) (d : Dst) (sp : Nat) (w : Who) (l : Nat) (fb : Fibre) :
    (s.movsFibre wide d sp w l fb).st = fb.st := by
  unfold State.movsFibre
  split <;> exact Fibre.result_st _ _ _ _

theorem State.movsAct_some {sp : Nat} {w : Who} {u : State} {l v : Nat} (h : u.special w l sp = some v) : u.movsAct sp w l = u := by
  rw [State.movsAct, h]

theorem State.movsAct_none {sp : Nat} {w : Who} {u : State} {l : Nat} (h : u.special w l sp = none) :
    u.movsAct sp w l = { u with freeCtr := u.freeCtr + 1 } := by
  rw [State.movsAct, h]

theorem State.movsAct_fibre (sp : Nat) (w : Who) (u : State) (l k : Nat) (v : Who) : (u.movsAct sp w l).fibre v k = u.fibre v k := by
  unfold State.movsAct
  split
  · rfl
  · exact State.freeCtr_fibre _ _ _ _

theorem State.movsAct_hasStrand {sp : Nat} {w : Who} {u : State} {l : Nat} {v : Who} (h : u.hasStrand v) : (u.movsAct sp w l).hasStrand v := by
  unfold State.movsAct
  split
  · exact h
  · exact (State.freeCtr_hasStrand _ _ _).2 h

/-- What a lane of MOVS comes to. -/
theorem movs_lane {u s : State} {wide : Bool} {d : Dst} {sp : Nat} {w : Who} {l : Nat} {fb : Fibre}
    (same : u.special w l sp = s.special w l sp) (ctr : u.special w l sp = none → u.freeCtr = s.freeCtr) :
    (match u.special w l sp with
      | some v => (⟨u, .ok (fb.result wide d (v % 2 ^ (if wide then 64 else 32))), 0⟩ : LaneFx)
      | none => let (v, s) := u.free; ⟨s, .ok (fb.result wide d (v.toNat % 2 ^ 32)), 0⟩) =
    ⟨u.movsAct sp w l, ⟨s.movsFibre wide d sp w l fb, none, none⟩, 0⟩ := by
  rw [State.movsAct, State.movsFibre, ← same]
  cases h : u.special w l sp with
  | some v => rfl
  | none => rw [← ctr h]; rfl

theorem movs_acts (g : Guard) (d : Dst) (sp : BitVec 5) (wide : Bool) (hw : wide = decide (sp = 15 ∨ sp = 16)) :
    Acts (.movs g d sp) { len := 8, g := g, uses := useD (nw wide) d } (fun s c l => s.special c.who l sp.toNat ≠ none ∨ c.lanes g = [l])
      (fun _ c u l => u.movsAct sp.toNat c.who l) (fun s c l => s.movsFibre wide d sp.toNat c.who l (c.st.fibre l)) 0 := by
  subst hw
  intro s c free ok
  show ∃ t, execMovs g d sp s = .next t ∧ _
  unfold execMovs
  by_cases known : ∀ l ∈ c.lanes g, s.special c.who l sp.toNat ≠ none
  · have same : ∀ u, Keeps s.fresh.2 u c.who → ∀ l, u.special c.who l sp.toNat = s.special c.who l sp.toNat := fun u k l =>
      (k.special _ _ _).trans (s.fresh_special _ _ _)
    -- a lane that executes leaves the state alone, and any other is not asked
    have lane : ∀ l ∈ c.lanes g, ∀ u, Keeps s.fresh.2 u c.who → u.movsAct sp.toNat c.who l = u := fun l hl u k => by
      obtain ⟨v, hv⟩ := Option.ne_none_iff_exists'.1 (known l hl)
      exact State.movsAct_some ((same u k l).trans hv)
    refine issueSt_passes (Inv := fun u => Keeps s.fresh.2 u c.who) (tgt := fun _ => none) free (Keeps.refl _ _)
      (fun l hl => lane_of_same (lane l hl) (State.movsFibre_st _ _ _ _ _ _ _)) fun l hl u k _ => ?_
    exact movs_lane (same u k l) fun h => absurd ((same u k l).symm.trans h) (known l hl)
  · obtain ⟨l, hl, unknown⟩ : ∃ l ∈ c.lanes g, s.special c.who l sp.toNat = none := by simpa using known
    have one : c.lanes g = [l] := (ok l hl).resolve_left fun h => h unknown
    refine issueSt_one_passed (tg := none) free one (lane_of_fibres (fun u k => State.movsAct_fibre _ _ _ _ _ _)
      (fun u => State.movsAct_hasStrand) (State.movsFibre_st _ _ _ _ _ _ _)) ?_
    exact movs_lane (s.fresh_special _ _ _) fun _ => rfl

/-- Settles O10: MOV is a word of one source, MOVS reads a register that lanes leave alone or draws a free value in one lane, CSRR completes
where the register is there. -/
theorem moveResults : Obligations.MoveResults := by
  intro g d a
  refine ⟨fun t => effect_of_alu1 (f := fun x => x) fun _ => rfl, fun sp => movs_acts g d sp _ rfl, fun num s c ready there => ?_⟩
  refine issue_done ready (fun _ f => match csrFor c.who num.toNat with
    | .ok r => f.result (csr64 num) d ((s.csrRead c.who f r).getD 0)
    | .error _ => f) (fun l hl => ?_) fun l hl => ?_
  all_goals
    obtain ⟨r, v, number, value⟩ := there l hl
    simp only [number, value, Option.getD_some, Fibre.result_st]

/-! ### CSRW (R27, R29, R115) -/

/-- A rope whose strands stay leaves every strand. -/
theorem State.strand_setRope_same {s : State} {rp rq : Rope} (h : s.rope? rq.id = some rp) (same : rq.strands = rp.strands) (v : Who) :
    (s.setRope rq).strand v = s.strand v := by
  cases v with
  | sup n => rfl
  | strand r sid =>
    simp only [State.strand, State.rope?_setRope]
    by_cases here : rq.id = r
    · subst here
      simp only [if_true, h, same]
    · rw [if_neg here]

/-- A core whose supervisor strand stays leaves every strand. -/
theorem State.strand_setCore_same {s : State} {k : Core} (same : k.sv = (s.core k.no).sv) (v : Who) : (s.setCore k).strand v = s.strand v := by
  cases v with
  | strand r sid => rfl
  | sup n =>
    simp only [State.strand, State.core_setCore]
    split
    · rename_i hn
      subst hn
      exact same
    · rfl

theorem State.setTc_strand (u : State) (r : RopeId) (j v : Nat) (w : Who) : (u.setTc r j (BitVec.ofNat 32 v)).strand w = u.strand w := by
  unfold State.setTc
  split
  · rename_i rp hr
    have here : u.rope? rp.id = some rp := (State.rope?_id hr).symm ▸ hr
    exact State.strand_setRope_same (rq := { rp with tcs := rp.tcs.set j (BitVec.ofNat 32 v) }) here rfl w
  · rfl

/-- A control register written leaves every fibre. -/
theorem State.csrWrite_fibre (u : State) (w : Who) (r : Csr) (v k : Nat) : (u.csrWrite w r v).fibre w k = u.fibre w k := by
  have waiting : ∀ st : Strand, st.fibres = (u.strand w).fibres → ((u.setStrand w st).strand w).fibre k = (u.strand w).fibre k := by
    intro st same
    rcases u.strand_setStrand_or w w st with h | ⟨-, h⟩ <;> rw [h]
    rw [Strand.fibre, same]
    rfl
  have core : ∀ x : Core, x.no = (u.core w.core).no → x.sv = (u.core w.core).sv → ((u.setCore x).strand w).fibre k = (u.strand w).fibre k := by
    intro x no sv
    rw [State.strand_setCore_same (by rw [sv, no, State.core_no])]
  cases r with
  | quantum => exact waiting _ rfl
  | srseed => exact waiting _ rfl
  | tc j =>
    cases w with
    | sup n => rfl
    | strand q sid => exact congrArg (·.fibre k) (u.setTc_strand q j v _)
  | bka n => exact core { u.core w.core with bka := (u.core w.core).bka.set n (BitVec.ofNat 64 v) } rfl rfl
  | bkc n => exact core { u.core w.core with bkc := (u.core w.core).bkc.set n (BitVec.ofNat 32 v) } rfl rfl
  | _ => rfl

theorem State.csrWrite_hasStrand {u : State} {w : Who} (h : u.hasStrand w) (r : Csr) (v : Nat) : (u.csrWrite w r v).hasStrand w := by
  cases w with
  | sup n => trivial
  | strand q sid =>
    cases r with
    | quantum => exact (State.setStrand_hasStrand _ _ _ _).2 h
    | srseed => exact (State.setStrand_hasStrand _ _ _ _).2 h
    | tc j =>
      obtain ⟨rp, hr, lt⟩ := h
      refine ⟨{ rp with tcs := rp.tcs.set j (BitVec.ofNat 32 v) }, ?_, lt⟩
      show (u.setTc q j (BitVec.ofNat 32 v)).rope? q = _
      rw [State.setTc, hr]
      simp [State.rope?_setRope, State.rope?_id hr]
    | _ => exact h

theorem Fibre.csrWrite_st (f : Fibre) (r : Csr) (v : Nat) : (f.csrWrite r v).st = f.st := by cases r <;> rfl

/-- What a lane of CSRW would write, from the state before the word (R115). -/
def State.csrwValue (s : State) (w : Who) (op : CsrOp) (pa : Pos) (a : Src) (r : Csr) (fb : Fibre) : Option Nat :=
  (s.csrRead w fb r).map fun old => csrNew op old (fb.src pa a)

/-- Where every executing lane may write, the first that does is the lowest. -/
theorem csrw_first {c : Cx} {g : Guard} {r : Csr} {val : Fibre → Option Nat}
    (may : ∀ l ∈ c.lanes g, ∃ v, val (c.st.fibre l) = some v ∧ csrForbidden r v = false) :
    (c.lanes g).find? (fun k => ((val (c.st.fibre k)).map fun v => !csrForbidden r v).getD false) = (c.lanes g).head? := by
  cases lanes : c.lanes g with
  | nil => rfl
  | cons k rest =>
    obtain ⟨v, hv, ok⟩ := may k (by simp [lanes])
    rw [List.find?_cons, hv]
    simp [ok]

/-- One lane of CSRW, as the model runs it. -/
def execCsrwLane (g : Guard) (op : CsrOp) (num : BitVec 12) (a : Src) (s : State) (c : Cx) (_tag : Nat) (u : State) (l : Nat) (fb : Fibre) : LaneFx :=
  let pa : Pos := .i (if csr64 num then .ui64 else .ui32)
  match csrFor c.who num.toNat with
  | .error e => ⟨u, .fault fb (illegal e), 0⟩
  | .ok r =>
    match s.csrwValue c.who op pa a r fb with
    | none => ⟨u, .fault fb (illegal .reserved), 0⟩
    | some v =>
      if csrForbidden r v then ⟨u, .fault fb (illegal .reserved), 0⟩
      else
        let first := (c.set (aluIss g false none [(pa, a)])).find? fun k =>
          ((s.csrwValue c.who op pa a r (c.st.fibre k)).map fun v => !csrForbidden r v).getD false
        ⟨if !r.perStrand || first == some l then u.csrWrite c.who r v else u, .ok (fb.csrWrite r v), 0⟩

/-- A CSRW that every executing lane may do (R27, R115). -/
theorem csrw_passes {g : Guard} {op : CsrOp} {num : BitVec 12} {a : Src} {pa : Pos} {r : Csr} {s : State} {c : Cx} {v : Nat → Nat}
    (hp : pa = .i (if csr64 num then .ui64 else .ui32)) (free : Free s c (aluIss g false none [(pa, a)])) (number : csrFor c.who num.toNat = .ok r)
    (val : ∀ l ∈ c.lanes g, s.csrwValue c.who op pa a r (c.st.fibre l) = some (v l) ∧ csrForbidden r (v l) = false) :
    ∃ t, execCsrw g op num a s = .next t ∧
      Passed (s.fresh.2.each c (aluIss g false none [(pa, a)]) (c.lanes g)
        (fun u l => if r.perStrand = true ∧ (c.lanes g).head? ≠ some l then u else u.csrWrite c.who r (v l))
        (fun l => (c.st.fibre l).csrWrite r (v l))) t c := by
  subst hp
  have first : (c.set (aluIss g false none [(.i (if csr64 num then .ui64 else .ui32), a)])).find? (fun k =>
      ((s.csrwValue c.who op (.i (if csr64 num then .ui64 else .ui32)) a r (c.st.fibre k)).map fun v => !csrForbidden r v).getD false) =
      (c.lanes g).head? := by
    rw [free.ready.set_eq_lanes]
    exact csrw_first fun l hl => ⟨v l, val l hl⟩
  let act := fun (u : State) (l : Nat) => if r.perStrand = true ∧ (c.lanes g).head? ≠ some l then u else u.csrWrite c.who r (v l)
  have lane : ∀ l ∈ c.lanes g, Lane c (aluIss g false none [(.i (if csr64 num then .ui64 else .ui32), a)]) (fun _ => True) act
      (fun l => (c.st.fibre l).csrWrite r (v l)) l := by
    refine fun l _ => lane_of_fibres (fun u k => ?_) (fun u h => ?_) (Fibre.csrWrite_st _ _ _)
    all_goals
      dsimp only [act]
      split
    · rfl
    · exact State.csrWrite_fibre _ _ _ _ _
    · exact h
    · exact State.csrWrite_hasStrand h _ _
  have run : ∀ l ∈ c.lanes g, ∀ u, True → u.fibre c.who l = c.st.fibre l →
      execCsrwLane g op num a s c s.nextId u l (c.st.fibre l) = ⟨act u l, ⟨(c.st.fibre l).csrWrite r (v l), none, none⟩, 0⟩ := by
    intro l hl u _ _
    obtain ⟨value, ok⟩ := val l hl
    simp only [execCsrwLane, number, value, ok, first, Bool.false_eq_true, if_false, act]
    by_cases head : r.perStrand = true ∧ (c.lanes g).head? ≠ some l
    · simp [head, LaneRes.ok]
    · have writes : (!r.perStrand || (c.lanes g).head? == some l) = true := by
        by_cases p : r.perStrand = true
        · simpa [p] using head
        · simp [p]
      rw [if_neg head, if_pos writes]
      rfl
  obtain ⟨t, next, moved, goes⟩ := issueSt_passes (tgt := fun _ => none) free trivial lane run
  rw [Nat.zero_mul] at moved
  exact ⟨t, next, (raised_zero _ _ _ _).trans moved, goes⟩

/-- Settles O11: the special registers of a rope's lane are the rope's and the device's; a CSRW's lanes write in turn what the state before
the word gives, and all of them may, so the first is the lowest. -/
theorem specialRegisters : Obligations.SpecialRegisters := by
  constructor
  · intro s r sid l rp hr
    refine ⟨rfl, rfl, rfl, rfl, rfl, rfl, ?_, rfl⟩
    simp only [State.special, hr, Option.map_some]
  · intro g op num a pa val r s c free number may
    refine csrw_passes rfl free number fun l hl => ?_
    obtain ⟨v, hv⟩ := Option.ne_none_iff_exists'.1 (may l hl).1
    refine ⟨?_, (may l hl).2⟩
    simp only [State.csrwValue, val, hv, Option.map_some, Option.getD_some, pa]

end Sys2Proof.Machine
end

section
/-! SUPPORT. The collectives over the issuing set (R174 to R179). -/

namespace Sys2Proof.Machine

/-- What a collective gathers, where no executing lane is in a hazard. -/
theorem Ready.gather_eq {s : State} {c : Cx} {i : Iss} (r : Ready s c i) {α : Type} (f : Fibre → α) :
    c.gather i f = (c.lanes i.g).map fun k => (k, f (c.st.fibre k)) := by
  rw [Cx.gather, r.set_eq_lanes]

theorem Ready.gather_snd {s : State} {c : Cx} {i : Iss} (r : Ready s c i) {α : Type} (f : Fibre → α) :
    (c.gather i f).map Prod.snd = (c.lanes i.g).map fun k => f (c.st.fibre k) := by
  rw [r.gather_eq, List.map_map]
  rfl

/-- The choices that an input lists are no part of the place of an issue. -/
theorem Ready.picks {s : State} {c : Cx} {i : Iss} (r : Ready s c i) (l : List Nat) : Ready { s with picks := l } c i :=
  ⟨r.stands, r.may, r.clear⟩

@[simp] theorem ite_setPred_st (b : Prop) [Decidable b] (f : Fibre) (p : Num4) (v : Bool) :
    (if b then f.setPred p v else f).st = f.st := by
  split <;> simp

/-- A float REDS none of whose lanes traps: it uses up choices of the input, and its lanes complete (R179, log 11). -/
theorem reds_float_done {g : Guard} {op : RedOp} {t : RedType} {det sat cv : Bool} {d : Dst} {a : Src} {gate : Option Src} {F : FF}
    (float : redsF t = some F) {s : State} {c : Cx} {i : Iss}
    (hi : i = { len := 8, g := g, uses := useD (nw (redsWide t)) d ++ useS (nw (redsWide t)) a ++ useGate (if cv then gate else none) })
    (ready : Ready s c i) {r : List Nat × Nat × Nat}
    (hr : r = redsFloat F op det s.picks ((c.lanes g).map fun k => ftzP F (c.st.fibre k).ftz ((c.st.fibre k).src (redsPos t) a)))
    (fine : ∀ l ∈ c.lanes g, (c.st.fibre l).traps (ftzOut F (c.st.fibre l).ftz r.2).2 = false) :
    ∃ u, exec (.reds g op t det sat cv d a gate) s = .next u ∧
      Done { s with picks := r.1 } u c g (fun _ f => (f.dst (redsWide t) d (ftzOut F f.ftz r.2).1).raise (ftzOut F f.ftz r.2).2) := by
  subst hi hr
  have gathered := ready.gather_snd fun f => ftzP F f.ftz (f.src (redsPos t) a)
  have stands : s.cx? 8 = some c := ready.stands
  show ∃ u, execReds g op t det sat cv d a gate s = .next u ∧ _
  simp only [execReds, float, stands, gathered]
  refine issue_done (ready.picks _) _ (fun l hl => ?_) fun l _ => by simp
  simp only [fine l hl, Bool.false_eq_true, if_false]

/-- Settles O14: the issuing set of each word is the executing lanes, of which each lane's function gathers. -/
theorem collectiveResults : Obligations.CollectiveResults := by
  intro g cv b64 d p ps a b gate
  refine ⟨fun m inv p s c ready _ => ?_, fun m inv s c ready _ => ?_, fun fm s c ready _ => ?_, fun m n s c ready _ => ?_,
    fun op t sat int det s c ready _ => ?_, fun op t sat det F float s c ready => reds_float_done float rfl ready rfl⟩
  · refine issue_done ready _ (fun l _ => ?_) fun l _ => by simp
    simp only [ready.gather_eq]
  · refine issue_done ready _ (fun l _ => ?_) fun l _ => by simp
    simp only [ready.gather_eq]
  · refine issue_done ready _ (fun l _ => ?_) fun l _ => by simp
    simp only [ready.gather_eq]
  · refine issue_done ready _ (fun l _ => ?_) fun l _ => by simp
    simp only [ready.set_eq_lanes]
    simp [Bool.and_assoc]
  · show ∃ u, execReds g op t det sat cv d a gate s = .next u ∧ _
    simp only [execReds, int]
    refine issue_done ready _ (fun l _ => ?_) fun l _ => by simp
    simp only [ready.gather_snd]

end Sys2Proof.Machine
end

section
/-! SUPPORT. Branches of one executing lane (R85). -/

namespace Sys2Proof.Machine

theorem Iss.mark_of_not_commit {i : Iss} (h : i.commit = false) (f : Fibre) : i.mark f = f := by
  simp [Iss.mark, h]

theorem fresh_hasStrand {s : State} {n : Nat} {c : Cx} (h : s.cx? n = some c) : s.fresh.2.hasStrand c.who := by
  have := cx_has h
  cases hw : c.who <;> simp_all [State.hasStrand, State.fresh, State.rope?]

theorem fresh_fibre {s : State} {n : Nat} {c : Cx} (h : s.cx? n = some c) (l : Nat) : s.fresh.2.fibre c.who l = c.st.fibre l := by
  obtain ⟨-, hst, -⟩ := cx_eq h
  rw [hst]
  cases c.who <;> rfl

/-- The run of a word of one executing lane whose accesses are answered: what its lane does, then the end of the word. -/
theorem issueTry_one_run {c : Cx} {i : Iss} {s u : State} {l n : Nat} {fb : Fibre} {tg : Option DWord}
    {f : Cx → Nat → State → Nat → Fibre → Except State LaneFx} (r : Free s c i) (one : c.lanes i.g = [l])
    (hf : f c s.nextId (s.fresh.2.as (c.doer s.fresh.2 l)) l (c.st.fibre l) = .ok ⟨u, ⟨fb, tg, none⟩, n⟩) :
    issueTry i f s = .next ((((u.as s.agent).setFibre c.who l (i.mark fb)).raised c i s.nextId n).finish c []
      (tg.map fun t => (l, t)).toList) := by
  have here := fresh_fibre r.ready.stands
  have run : runLanesTry c i (f c s.nextId) s.fresh.2 =
      some ((u.as s.agent).setFibre c.who l (i.mark fb), [], (tg.map fun t => (l, t)).toList, n) := by
    rw [runLanesTry_eq, one]
    simp only [List.foldl_cons, List.foldl_nil, laneTryStep, here, r.ready.may, r.ready.clear l (by simp [one]), Bool.false_eq_true, if_false,
      hf, Option.map_none, Option.toList_none, List.append_nil, List.nil_append, Nat.zero_add]
    rw [committed_ok]
    rfl
  have again : c.again i (f c s.nextId) s.fresh.2 = none := by
    unfold Cx.again
    rw [if_neg (by simp [r.ready.may]), List.findSome?_eq_none_iff]
    intro k hk
    have hk' : k ∈ c.lanes i.g := (List.mem_filter.1 hk).1
    rw [one, List.mem_singleton] at hk'
    subst hk'
    rw [here, hf]
  unfold issueTry
  simp only [r.ready.stands, r.free, Bool.false_eq_true, if_false]
  rw [show s.fresh.1 = s.nextId from rfl, again, run]
  rfl

/-- A clause of one live lane ends: its path stands where the lane goes (R33, R152). -/
theorem cur_finish {u : State} {c : Cx} {l : Nat} {T : DWord} (has : u.hasStrand c.who) (last : c.cl.left ≤ 1) (stays : c.cl.yield = false)
    (alone : lanesOf c.path.mask = [l]) (live : (u.fibre c.who l).st = .live) :
    ((u.finish c [] [(l, T)]).strand c.who).cur.map (fun p => (p.pc, p.cl)) = some (T, none) := by
  have live' : ((u.strand c.who).fibre l).st = .live := live
  unfold State.finish
  split
  · rename_i h; cases h
  · have groups : ∀ st : Strand, groupTraps st [] = [] := fun _ => rfl
    simp only [groups, List.foldl_nil, stays, Bool.false_eq_true, and_false, if_false]
    rw [State.strand_setStrand _ _ _ _ has, if_pos rfl]
    simp [alone, live', last, Strand.split, partsOf, lookupBy, sortBy, insBy]

/-- A branch of one executing lane whose target is at hand (R85). -/
theorem branches_of_branch {ins : Instr} {i : Iss} {T : Cx → Fibre → DWord} {link : Cx → Fibre → Fibre} (commit : i.commit = false)
    (hx : ∀ s, exec ins s = branch i T link s) : Branches ins i T link := by
  intro s c l free one u target
  have lane : branchLane c (s.fresh.2.as (c.doer s.fresh.2 l)) (c.st.fibre l) (T c (c.st.fibre l)) (link c) =
      .ok ⟨u, ⟨link c (c.st.fibre l), some (T c (c.st.fibre l)), none⟩, 0⟩ := by
    rw [branchLane, show s.fresh.2.as (c.doer s.fresh.2 l) = s.atLane c l from rfl, target]
  have run := issueTry_one_run (f := fun c _ s _ fb => branchLane c s fb (T c fb) (link c)) free one lane
  rw [Iss.mark_of_not_commit commit] at run
  refine ⟨_, (hx s).trans run, (raised_zero _ _ _ _).trans (moved_finish _ _ _), fun same last stays alone live was => ?_⟩
  rw [same]
  have has := fresh_hasStrand free.ready.stands
  have lt : l < (s.fresh.2.strand c.who).fibres.length := lt_of_live ((fresh_fibre free.ready.stands l).symm ▸ was)
  refine cur_finish ((State.setStrand_hasStrand _ _ _ _).2 ((setFibre_hasStrand _ _ _ _).2 has)) last stays alone ?_
  have raised : ∀ (v : State), v.hasStrand c.who → ((v.raised c i s.nextId 0).fibre c.who l).st = (v.fibre c.who l).st := by
    intro v hv
    simp only [State.raised, State.fibre, State.strand_setStrand _ _ _ _ hv, if_true]
    unfold Strand.raiseDue
    split
    · split <;> rfl
    · rfl
  rw [raised _ ((setFibre_hasStrand _ _ _ _).2 has), fibre_setFibre_eq _ _ _ _ has lt, live]

/-- Settles O13: each word is a branch that commits nothing. -/
theorem branchesGoToTheirTargets : Obligations.BranchesGoToTheirTargets := by
  intro g off a l
  refine ⟨?_, ?_, ?_, ?_, ?_⟩
  all_goals exact branches_of_branch rfl fun _ => rfl

end Sys2Proof.Machine
end

section
/-! SUPPORT. NOP, YIELD and END: what the end of a word leaves of its strand (R33, R88, R89, R173). -/

namespace Sys2Proof.Machine

/-! ### Fibres at the end of a word -/

/-- A raised flag is none of a fibre's. -/
theorem raised_fibre (u : State) (c : Cx) (i : Iss) (tag n : Nat) (w : Who) (k : Nat) : (u.raised c i tag n).fibre w k = u.fibre w k := by
  have same : ((u.strand c.who).raiseDue (c.flag i) tag n).fibres = (u.strand c.who).fibres := by
    unfold Strand.raiseDue
    split
    · split <;> rfl
    · rfl
  rcases u.strand_setStrand_or c.who w ((u.strand c.who).raiseDue (c.flag i) tag n) with h | ⟨rfl, h⟩
  · simp only [State.raised, State.fibre, h]
  · simp only [State.raised, State.fibre, h, Strand.fibre, same]

/-- Every fibre of the machine keeps its registers where only paths move. -/
theorem Moved.fibre_regs {u t : State} {w : Who} (m : Moved u t w) (v : Who) (k : Nat) : (t.fibre v k).regs = (u.fibre v k).regs := by
  by_cases h : v = w
  · subst h
    exact m.regs k
  · rw [m.keeps.other v h k]

theorem Moved.fibre_st {u t : State} {w : Who} (m : Moved u t w) (v : Who) (k : Nat) : (t.fibre v k).st = (u.fibre v k).st :=
  (congrArg Fibre.st (m.fibre_regs v k) :)

theorem Strand.fibre_init (k : Nat) : Strand.init.fibre k = Fibre.vacant := by
  simp only [Strand.fibre, Strand.init, List.getD_eq_getElem?_getD, List.getElem?_replicate]
  split <;> rfl

theorem State.fibre_of_not_hasStrand {u : State} {w : Who} (h : ¬ u.hasStrand w) (k : Nat) : u.fibre w k = Fibre.vacant := by
  cases w with
  | sup n => exact absurd trivial h
  | strand r sid =>
    simp only [State.fibre, State.strand]
    split
    · rename_i rp hr
      have beyond : rp.strands[sid]? = none := List.getElem?_eq_none (Nat.le_of_not_lt fun lt => h ⟨rp, hr, lt⟩)
      rw [List.getD, beyond]
      exact Strand.fibre_init k
    · exact Strand.fibre_init k

/-- A fibre written is there, or its slot is none of the strand's. -/
theorem State.setFibre_fibre_or (u : State) (w : Who) (l : Nat) (f : Fibre) :
    (u.setFibre w l f).fibre w l = f ∨ (u.setFibre w l f).fibre w l = Fibre.vacant := by
  by_cases has : u.hasStrand w
  · by_cases lt : l < (u.strand w).fibres.length
    · exact .inl (fibre_setFibre_eq u w l f has lt)
    · right
      have beyond : ((u.strand w).setFibre l f).fibres.length ≤ l := by simpa [Strand.setFibre] using lt
      simp [State.setFibre, State.fibre, State.strand_setStrand _ _ _ _ has, Strand.fibre, List.getD, List.getElem?_eq_none beyond]
  · exact .inr (State.fibre_of_not_hasStrand ((setFibre_hasStrand u w l f).not.2 has) l)

/-! ### Inside a clause -/

/-- Inside a clause a path of which a fibre lives stands at the next word, and its strand's spent quantum stays (R33, R89). -/
theorem cur_finish_inside {u : State} {c : Cx} (tgts : List (Nat × DWord)) (has : u.hasStrand c.who) (inside : 1 < c.cl.left)
    {l : Nat} (listed : l ∈ lanesOf c.path.mask) (live : (u.fibre c.who l).st = .live) :
    (∃ p, ((u.finish c [] tgts).strand c.who).cur = some p ∧ p.cl = some { c.cl with ip := c.next, left := c.cl.left - 1, first := false }) ∧
      ((u.finish c [] tgts).strand c.who).spent = (u.strand c.who).spent := by
  have live' : ((u.strand c.who).fibre l).st = .live := live
  have going : ¬ ((lanesOf c.path.mask).filter fun l => !(([] : List (Nat × Trap)).any fun q => decide (q.1 = l)) &&
      decide (((u.strand c.who).fibre l).st = .live)) = [] := by
    intro none
    have := List.filter_eq_nil_iff.1 none l listed
    simp [live'] at this
  unfold State.finish
  split
  · rename_i h; cases h
  · have groups : ∀ st : Strand, groupTraps st [] = [] := fun _ => rfl
    have notLast : ¬ c.cl.left ≤ 1 := by omega
    simp only [groups, List.foldl_nil, notLast, false_and, if_false]
    rw [State.strand_setStrand _ _ _ _ has, if_pos rfl, if_neg going]
    exact ⟨⟨_, rfl, rfl⟩, rfl⟩

/-! ### NOP and YIELD (R88, R89) -/

theorem nop_run {s : State} {c : Cx} {g : Guard} (ready : Ready s c { len := 8, g := g, uses := [] }) :
    issue { len := 8, g := g, uses := [] } (fun _ _ fb => .ok fb) s = .next ((s.setStrand c.who c.st).finish c [] []) := by
  have lane : ∀ l fb, c.lane { len := 8, g := g, uses := [] } (fun _ fb => .ok fb) l fb = .ok fb := by
    intro l fb
    simp [Cx.lane, ready.may, Fibre.hazard]
  have results : c.st.fibres.mapIdx (fun l fb => c.lane { len := 8, g := g, uses := [] } (fun _ fb => .ok fb) l fb) =
      c.st.fibres.map LaneRes.ok := by
    simp only [lane]
    exact List.ext_getElem (by simp) (by simp)
  have plain : ∀ q ∈ (c.st.fibres.map LaneRes.ok).zipIdx, q.1.trap = none ∧ q.1.tgt = none := by
    rintro ⟨q, k⟩ h
    have eq := (List.mem_zipIdx' h).2
    rw [List.getElem_map] at eq
    exact ⟨congrArg LaneRes.trap eq, congrArg LaneRes.tgt eq⟩
  have traps : (c.st.fibres.map LaneRes.ok).zipIdx.filterMap (fun q => q.1.trap.map fun t => (q.2, t)) = [] := by
    rw [List.filterMap_eq_nil_iff]
    intro q h
    simp [(plain q h).1]
  have tgts : (c.st.fibres.map LaneRes.ok).zipIdx.filterMap (fun q => q.1.tgt.map fun t => (q.2, t)) = [] := by
    rw [List.filterMap_eq_nil_iff]
    intro q h
    simp [(plain q h).2]
  have fibres : (c.st.fibres.map LaneRes.ok).map LaneRes.fib = c.st.fibres := by
    rw [List.map_map]
    exact List.map_id _
  simp only [issue, ready.stands, results, traps, tgts, fibres]

/-- The place of a YIELD that some fibre executes: its clause ends as with the yield bit, and its quantum is spent (R89). -/
def Cx.yielded (c : Cx) : Cx :=
  let p : Path := { c.path with cl := some { c.cl with yield := true } }
  { c with st := { c.st with spent := true, cur := some p }, path := p, cl := { c.cl with yield := true } }

theorem Ready.yielded {s : State} {c : Cx} {g : Guard} (ready : Ready s c { len := 8, g := g, uses := [] }) :
    Ready (s.setStrand c.who c.yielded.st) c.yielded { len := 8, g := g, uses := [] } := by
  obtain ⟨cur, hst, hpath, hcl, next⟩ := cx_eq ready.stands
  have has := cx_has ready.stands
  refine ⟨?_, ready.may, fun l _ => by simp [Fibre.hazard]⟩
  have cur' : (s.setStrand c.who c.yielded.st).cur = some c.who := by simpa using cur
  unfold State.cx?
  rw [cur']
  simp only [State.strand_setStrand _ _ _ _ has, if_true]
  simp [Cx.yielded, next]

/-- YIELD is a NOP at the place it makes. -/
theorem yield_eq {s : State} {c : Cx} {g : Guard} (ready : Ready s c { len := 8, g := g, uses := [] }) :
    exec (.yield g) s = if c.lanes g = [] then issue { len := 8, g := g, uses := [] } (fun _ _ fb => .ok fb) s
      else issue { len := 8, g := g, uses := [] } (fun _ _ fb => .ok fb) (s.setStrand c.who c.yielded.st) := by
  show execYield g s = _
  have stands : s.cx? 8 = some c := ready.stands
  unfold execYield
  rw [stands]
  rfl

theorem yield_effect (g : Guard) : Effect (.yield g) { len := 8, g := g, uses := [] } id := by
  intro s c ready _
  rw [yield_eq ready]
  split
  · exact issue_done ready (fun _ => id) (fun _ _ => rfl) fun _ _ => rfl
  · obtain ⟨-, hst, -⟩ := cx_eq ready.stands
    have has := cx_has ready.stands
    obtain ⟨t, run, keeps, lanes, still, goes⟩ := issue_done (f := fun _ _ fb => .ok fb) ready.yielded (fun _ => id) (fun _ _ => rfl) fun _ _ => rfl
    have before : ∀ l, (s.setStrand c.who c.yielded.st).fibre c.who l = s.fibre c.who l := by
      intro l
      simp only [State.fibre, State.strand_setStrand _ _ _ _ has, if_true]
      rw [← hst]
      rfl
    refine ⟨t, run, (keeps_setStrand s c.who c.who c.yielded.st (by rw [← hst]; rfl) fun h => absurd rfl h).trans keeps, fun l lt mem => ?_,
      fun l lt mem => ?_, goes⟩
    · rw [← before]
      exact lanes l lt mem
    · rw [← before]
      exact still l lt mem

theorem yield_ends {g : Guard} {s : State} {c : Cx} (ready : Ready s c { len := 8, g := g, uses := [] }) (some_ : c.lanes g ≠ [])
    (inside : 1 < c.cl.left) (live : ∃ l ∈ lanesOf c.path.mask, (c.st.fibre l).st = .live) :
    ∃ t p cl, exec (.yield g) s = .next t ∧ (t.strand c.who).cur = some p ∧ p.cl = some cl ∧ cl.yield = true ∧ (t.strand c.who).spent = true := by
  obtain ⟨l, listed, live⟩ := live
  have has : (s.setStrand c.who c.yielded.st).hasStrand c.who := (State.setStrand_hasStrand _ _ _ _).2 (cx_has ready.stands)
  have here : ((s.setStrand c.who c.yielded.st).setStrand c.who c.yielded.st).strand c.who = c.yielded.st := by
    rw [State.strand_setStrand _ _ _ _ has, if_pos rfl]
  obtain ⟨⟨p, cur, cl⟩, spent⟩ := cur_finish_inside (c := c.yielded) (u := (s.setStrand c.who c.yielded.st).setStrand c.who c.yielded.st) []
    ((State.setStrand_hasStrand _ _ _ _).2 has) inside listed (by
      show ((((s.setStrand c.who c.yielded.st).setStrand c.who c.yielded.st).strand c.who).fibre l).st = .live
      rw [here]
      exact live)
  refine ⟨_, p, _, (yield_eq ready).trans ((if_neg some_).trans (nop_run ready.yielded)), cur, cl, rfl, ?_⟩
  refine spent.trans ?_
  show ((((s.setStrand c.who c.yielded.st).setStrand c.who c.yielded.st).strand c.who)).spent = true
  rw [here]
  rfl

/-! ### END (R173) -/

theorem fend_empties {g : Guard} {s : State} {c : Cx} {l : Nat} {r : RopeId} {sid : Nat} (rope : c.who = .strand r sid)
    (free : Free s c { len := 8, g := g, uses := [], commit := true, rope := true }) (one : c.lanes g = [l]) :
    ∃ t, exec (.fend g) s = .next t ∧ (t.fibre c.who l).st = .empty := by
  obtain ⟨t, run, moved⟩ := issueSt_one (tg := none) (f := fun c _ s l fb => endLane c s l fb) (u := s.fresh.2.endFibre r sid l false) (fb := Fibre.vacant) (n := 0)
    free one (by rw [endLane, rope]; rfl)
  refine ⟨t, run, ?_⟩
  rw [moved.fibre_st, raised_fibre]
  rcases State.setFibre_fibre_or (s.fresh.2.endFibre r sid l false) c.who l
    (Iss.mark { len := 8, g := g, uses := [], commit := true, rope := true } Fibre.vacant) with h | h <;> rw [h]
  · rfl
  · rfl

end Sys2Proof.Machine
end

section
/-! SUPPORT. FORK of one lane: its children stand at the target, in paths of their own (R152, R172). -/

namespace Sys2Proof.Machine

/-! ### The children's slots -/

/-- The slots of a rope that a list of fibre numbers names. -/
def slotWho (r : RopeId) (k : Nat) : Who := .strand r (k / 32)

/-- A rope whose strands have a slot for every lane. -/
def State.fullRope (s : State) (r : RopeId) (n : Nat) : Prop :=
  ∀ j < n, s.hasStrand (.strand r j) ∧ (s.strand (.strand r j)).fibres.length = 32

theorem State.fullRope_setFibre {s : State} {r : RopeId} {n : Nat} (h : s.fullRope r n) (w : Who) (l : Nat) (f : Fibre) :
    (s.setFibre w l f).fullRope r n := by
  intro j lt
  obtain ⟨has, len⟩ := h j lt
  refine ⟨(State.setStrand_hasStrand _ _ _ _).2 has, ?_⟩
  rcases s.strand_setStrand_or w (.strand r j) ((s.strand w).setFibre l f) with e | ⟨rfl, e⟩ <;> rw [State.setFibre, e]
  · exact len
  · rw [Strand.setFibre, List.length_set, len]

/-- A fibre other than the one written. -/
theorem State.fibre_setFibre_other (s : State) {w v : Who} {l k : Nat} (f : Fibre) (h : v ≠ w ∨ k ≠ l) :
    (s.setFibre w l f).fibre v k = s.fibre v k := by
  by_cases hw : v = w
  · subst hw
    exact fibre_setFibre_ne _ _ _ _ _ (h.resolve_left fun h => h rfl)
  · exact (keeps_setFibre s w l f).other v hw k

/-- The children of one FORK, each in its slot. -/
def State.children (s : State) (r : RopeId) (slots : List Nat) (child : Fibre) : State :=
  slots.foldl (fun (s : State) f => s.setFibre (.strand r (f / 32)) (f % 32) child) s

theorem State.fullRope_children {r : RopeId} {n : Nat} (child : Fibre) : ∀ (slots : List Nat) {s : State}, s.fullRope r n →
    (s.children r slots child).fullRope r n
  | [], _, h => h
  | _ :: slots, _, h => State.fullRope_children child slots (State.fullRope_setFibre h _ _ _)

/-- A fibre of no child stays. -/
theorem State.fibre_children_other {r : RopeId} (child : Fibre) (v : Who) (k : Nat) : ∀ (slots : List Nat) (s : State),
    (∀ f ∈ slots, v ≠ .strand r (f / 32) ∨ k ≠ f % 32) → (s.children r slots child).fibre v k = s.fibre v k
  | [], _, _ => rfl
  | f :: slots, s, h => by
    rw [State.children, List.foldl_cons]
    exact (State.fibre_children_other child v k slots _ fun x hx => h x (List.mem_cons_of_mem _ hx)).trans
      (s.fibre_setFibre_other child (h f (List.mem_cons_self ..)))

/-- A child stands in its slot. -/
theorem State.fibre_children {r : RopeId} {n : Nat} (child : Fibre) {f : Nat} (lt : f / 32 < n) : ∀ (slots : List Nat) {s : State}, s.fullRope r n →
    (f ∈ slots ∨ s.fibre (.strand r (f / 32)) (f % 32) = child) → (s.children r slots child).fibre (.strand r (f / 32)) (f % 32) = child
  | [], _, _, h => h.resolve_left fun h => nomatch h
  | g :: slots, s, whole, h => by
    obtain ⟨has, len⟩ := whole (f / 32) lt
    refine State.fibre_children child lt slots (State.fullRope_setFibre whole _ _ _) ?_
    by_cases same : g = f
    · subst same
      exact .inr (fibre_setFibre_eq _ _ _ _ has (by omega))
    · refine h.imp (fun mem => (List.mem_cons.1 mem).resolve_left (Ne.symm same)) fun old => ?_
      rw [State.fibre_setFibre_other s child ?_, old]
      by_contra both
      obtain ⟨who, lane⟩ : Who.strand r (f / 32) = .strand r (g / 32) ∧ f % 32 = g % 32 := by simpa only [not_or, not_not, ne_eq] using both
      simp only [Who.strand.injEq, true_and] at who
      omega

/-! ### Their paths -/

/-- The slots of a strand that were empty and hold a live fibre now. -/
def newLanes (t s : State) (w : Who) : List Nat :=
  (List.range 32).filter fun l => decide ((s.fibre w l).st = .empty ∧ (t.fibre w l).st = .live)

/-- One strand's children listed. -/
def State.placeIn (t s : State) (w : Who) (pc : DWord) : State :=
  if newLanes t s w = [] then t else t.setStrand w ((t.strand w).addPath ⟨maskOfLanes (newLanes t s w), pc, 0, false, none⟩)

theorem State.placeChildren_eq {t s : State} {r : RopeId} {pc : DWord} {rp : Rope} (h : s.rope? r = some rp) :
    t.placeChildren s r pc = (List.range rp.strands.length).foldl (fun t sid => t.placeIn s (.strand r sid) pc) t := by
  unfold State.placeChildren
  rw [h]
  rfl

theorem State.placeIn_strand_ne {t s : State} {w v : Who} {pc : DWord} (h : v ≠ w) : (t.placeIn s w pc).strand v = t.strand v := by
  unfold State.placeIn
  split
  · rfl
  · exact (t.strand_setStrand_or w v _).resolve_right fun e => h e.1.symm

theorem State.placeIn_regs (t s : State) (w v : Who) (pc : DWord) (k : Nat) : ((t.placeIn s w pc).fibre v k).regs = (t.fibre v k).regs := by
  unfold State.placeIn
  split
  · rfl
  · have path := sameRegs_addPath (t.strand w) ⟨maskOfLanes (newLanes t s w), pc, 0, false, none⟩
    exact (moved_setStrand t w w _ path.2 (fun h => absurd rfl h) path.1).fibre_regs v k

theorem testBit_foldl_or (k : Nat) : ∀ (l : List Nat) (m : Nat),
    (l.foldl (fun m i => m ||| 2 ^ i) m).testBit k = true ↔ m.testBit k = true ∨ k ∈ l
  | [], m => by simp
  | i :: l, m => by
    rw [List.foldl_cons, testBit_foldl_or k l, Nat.testBit_or, Nat.testBit_two_pow, List.mem_cons]
    simp only [Bool.or_eq_true, decide_eq_true_eq, eq_comm (a := i), or_assoc]

theorem getLsbD_maskOfLanes {l : List Nat} {k : Nat} (h : k < 32) : (maskOfLanes l).getLsbD k = true ↔ k ∈ l := by
  rw [maskOfLanes, BitVec.getLsbD_ofNat, maskOf, Bool.and_eq_true, testBit_foldl_or]
  simp [h]

/-- A child stands at the target. -/
theorem State.placeIn_child {t s : State} {w : Who} {pc : DWord} {k : Nat} (lt : k < 32) (was : (s.fibre w k).st = .empty)
    (is : (t.fibre w k).st = .live) : ((t.placeIn s w pc).fibre w k).pc = pc ∧ ((t.placeIn s w pc).fibre w k).cl = none := by
  have has : t.hasStrand w := by
    by_contra h
    rw [State.fibre_of_not_hasStrand h] at is
    cases is
  have new : k ∈ newLanes t s w := by simp [newLanes, lt, was, is]
  have there : k < (t.strand w).fibres.length := lt_of_live is
  rw [State.placeIn, if_neg (List.ne_nil_of_mem new)]
  simp only [State.fibre, State.strand_setStrand _ _ _ _ has, if_true]
  have mapped : ∀ f : Nat → Fibre → Fibre, ((t.strand w).fibres.mapIdx f).getD k Fibre.vacant = f k ((t.strand w).fibre k) := fun f =>
    fibre_mapIdx _ f k there
  unfold Strand.addPath
  split <;> simp only [Strand.fibre, mapped, getLsbD_maskOfLanes lt, new, if_true, and_self]

/-- The strands of a rope taken one after another leave a strand that is not among them. -/
theorem placeIn_foldl_strand (s : State) (r : RopeId) (pc : DWord) {j : Nat} : ∀ (l : List Nat) (t : State), j ∉ l →
    (l.foldl (fun t sid => t.placeIn s (.strand r sid) pc) t).strand (.strand r j) = t.strand (.strand r j)
  | [], _, _ => rfl
  | i :: l, t, h => by
    rw [List.foldl_cons, placeIn_foldl_strand s r pc l _ fun m => h (List.mem_cons_of_mem _ m)]
    exact State.placeIn_strand_ne fun e => h (by simp only [Who.strand.injEq, true_and] at e; simp [e])

/-- Of a rope's strands taken one after another each lists its own children. -/
theorem placeIn_foldl_child (s : State) (r : RopeId) (pc : DWord) {j k : Nat} (lt : k < 32) (was : (s.fibre (.strand r j) k).st = .empty) :
    ∀ (l : List Nat) (t : State), l.Nodup → j ∈ l → (t.fibre (.strand r j) k).st = .live →
      let u := l.foldl (fun t sid => t.placeIn s (.strand r sid) pc) t
      (u.fibre (.strand r j) k).pc = pc ∧ (u.fibre (.strand r j) k).cl = none
  | [], _, _, h, _ => nomatch h
  | i :: l, t, nodup, h, is => by
    obtain ⟨notMem, nodup⟩ := List.nodup_cons.1 nodup
    simp only [List.foldl_cons]
    by_cases same : j = i
    · subst same
      simp only [State.fibre, placeIn_foldl_strand s r pc l _ notMem]
      exact State.placeIn_child lt was is
    · have keeps : ((t.placeIn s (.strand r i) pc).fibre (.strand r j) k).st = (t.fibre (.strand r j) k).st :=
        (congrArg Fibre.st (State.placeIn_regs t s _ _ pc k) :)
      exact placeIn_foldl_child s r pc lt was l _ nodup ((List.mem_cons.1 h).resolve_left same) (keeps.trans is)

theorem placeChildren_regs {t s : State} {r : RopeId} {pc : DWord} (v : Who) (k : Nat) :
    ((t.placeChildren s r pc).fibre v k).regs = (t.fibre v k).regs := by
  cases h : s.rope? r with
  | none =>
    unfold State.placeChildren
    rw [h]
  | some rp =>
    rw [State.placeChildren_eq h]
    have all : ∀ (l : List Nat) (t : State),
        ((l.foldl (fun t sid => t.placeIn s (.strand r sid) pc) t).fibre v k).regs = (t.fibre v k).regs := by
      intro l
      induction l with
      | nil => exact fun _ => rfl
      | cons i l ih =>
        intro t
        rw [List.foldl_cons, ih]
        exact State.placeIn_regs t s _ v pc k
    exact all _ t

theorem placeChildren_child {t s : State} {r : RopeId} {pc : DWord} {rp : Rope} (here : s.rope? r = some rp) {j k : Nat}
    (inRope : j < rp.strands.length) (lt : k < 32) (was : (s.fibre (.strand r j) k).st = .empty) (is : (t.fibre (.strand r j) k).st = .live) :
    ((t.placeChildren s r pc).fibre (.strand r j) k).pc = pc ∧ ((t.placeChildren s r pc).fibre (.strand r j) k).cl = none := by
  rw [State.placeChildren_eq here]
  exact placeIn_foldl_child s r pc lt was _ t List.nodup_range (List.mem_range.2 inRope) is

/-! ### The word -/

/-- An empty slot of a rope (R172). -/
theorem mem_emptySlots {s : State} {r : RopeId} {rp : Rope} (here : s.rope? r = some rp) {n k : Nat} (h : k ∈ rp.emptySlots n) :
    k / 32 < rp.strands.length ∧ (s.fibre (.strand r (k / 32)) (k % 32)).st = .empty := by
  obtain ⟨range, empty⟩ := List.mem_filter.1 (List.mem_of_mem_take h)
  have lt := List.mem_range.1 range
  refine ⟨by omega, ?_⟩
  simpa only [State.fibre, State.strand, here, decide_eq_true_eq] using empty

theorem childOf_reg {size : Nat} (two : 2 ≤ size) (target : DWord) (a fid : Nat) (p : Fibre) :
    (childOf size target a fid p).reg 0 = a % 2 ^ 32 ∧ (childOf size target a fid p).reg 1 = fid % 2 ^ 32 := by
  simp [childOf, Fibre.reg, Fibre.setReg, Fibre.start, List.getD_eq_getElem?_getD, show 0 < size by omega, show 1 < size by omega]

theorem Fibre.reg_of_regs {f g : Fibre} (h : f.regs = g.regs) (i : Nat) : f.reg i = g.reg i := (congrArg (Fibre.reg · i) h :)
theorem Fibre.st_of_regs {f g : Fibre} (h : f.regs = g.regs) : f.st = g.st := (congrArg Fibre.st h :)

theorem State.as_hasStrand (s : State) (a : Doer) (w : Who) : (s.as a).hasStrand w ↔ s.hasStrand w := by cases w <;> rfl

theorem State.fullRope_of_rope {s : State} {r : RopeId} {rp : Rope} (here : s.rope? r = some rp)
    (full : ∀ k < rp.strands.length, (rp.strands.getD k Strand.init).fibres.length = 32) : s.fullRope r rp.strands.length := by
  refine fun j lt => ⟨⟨rp, here, lt⟩, ?_⟩
  simpa only [State.strand, here] using full j lt

theorem State.as_setFibre_fibre (s : State) (a : Doer) (w v : Who) (l k : Nat) (f : Fibre) :
    ((s.as a).setFibre w l f).fibre v k = (s.setFibre w l f).fibre v k := by
  have same : (s.as a).setFibre w l f = (s.setFibre w l f).as a := by
    cases w with
    | sup n => rfl
    | strand r sid =>
      simp only [State.setFibre, State.setStrand]
      cases h : s.rope? r <;> simp only [show (s.as a).rope? r = s.rope? r from rfl, h]
      rfl
  rw [same, State.as_fibre]

theorem fork_lane {d : Dst} {n a : Src} {off : BitVec 32} {s : State} {c : Cx} {l sid : Nat} {r : RopeId} {rp : Rope} {fb : Fibre}
    (who : c.who = .strand r sid) (here : s.rope? r = some rp) (target : s.target c.who (c.rel off) = (s, .header)) :
    let slots := rp.emptySlots (min (fb.src (.i .ui32) n) 32)
    forkLane d n a off c s l fb = .ok ⟨s.children r slots (childOf rp.size (c.rel off) (fb.src .b32 a) (sid * 32 + l) fb),
      ⟨fb.dst false d (slots.headD 0xFFFF * 65536 + slots.length), none, none⟩, 0⟩ := by
  rw [who] at target
  unfold forkLane
  rw [who]
  simp only [target, here]
  rfl

/-- The issue of a FORK. -/
def forkIss (g : Guard) (d : Dst) (n a : Src) : Iss :=
  { len := 12, g := g, uses := useD 1 d ++ useS 1 n ++ useS 1 a, commit := true, rope := true }

theorem fork_run {g : Guard} {d : Dst} {n a : Src} {off : BitVec 32} {s u : State} {c : Cx} {l sid : Nat} {r : RopeId} {fb : Fibre}
    (free : Free s c (forkIss g d n a)) (one : c.lanes g = [l]) (who : c.who = .strand r sid)
    (lane : forkLane d n a off c (s.atLane c l) l (c.st.fibre l) = .ok ⟨u, ⟨fb, none, none⟩, 0⟩) :
    exec (.fork g d n a off) s = .next (((((u.as s.agent).setFibre c.who l ((forkIss g d n a).mark fb)).raised c (forkIss g d n a) s.nextId 0).finish c
      [] []).placeChildren s r (c.rel off)) := by
  have run := issueTry_one_run (f := fun c _ => forkLane d n a off c) free one lane
  have shape : execFork g d n a off s = match s.cx? (forkIss g d n a).len, issueTry (forkIss g d n a) (fun c _ => forkLane d n a off c) s with
    | some c, .next t => match c.who with
      | .strand r _ => .next (t.placeChildren s r (c.rel off))
      | .sup _ => .next t
    | _, r => r := rfl
  show execFork g d n a off s = _
  rw [shape, free.ready.stands, run]
  simp only [who]
  rfl

/-- The state that a FORK's lane leaves, before its path goes on: the parent has its result, the children stand in slots that were
empty. -/
theorem fork_state {s u : State} {w : Who} {l n sid : Nat} {r : RopeId} {rp : Rope} {child fb : Fibre} (here : s.rope? r = some rp)
    (who : w = .strand r sid) (inRope : sid < rp.strands.length) (whole : u.fullRope r rp.strands.length) (same : ∀ v k, u.fibre v k = s.fibre v k)
    (live : (s.fibre w l).st = .live) :
    let slots := rp.emptySlots n
    let v := (u.children r slots child).setFibre w l fb
    v.fibre w l = fb ∧ ∀ k ∈ slots, v.fibre (.strand r (k / 32)) (k % 32) = child := by
  intro slots v
  have whole' := State.fullRope_children child slots whole
  -- no child takes the parent's slot
  have apart : ∀ k ∈ slots, Who.strand r (k / 32) ≠ w ∨ k % 32 ≠ l := by
    intro k hk
    by_contra both
    obtain ⟨hw, hl⟩ : Who.strand r (k / 32) = w ∧ k % 32 = l := by simpa only [not_or, not_not, ne_eq] using both
    have empty := (mem_emptySlots here hk).2
    rw [hw, hl, live] at empty
    cases empty
  constructor
  · have parent : ((u.children r slots child).fibre w l).st = .live := by
      rw [State.fibre_children_other child w l slots u fun k hk => (apart k hk).imp Ne.symm Ne.symm, same, live]
    exact fibre_setFibre_eq _ _ _ _ (who ▸ (whole' sid inRope).1) (lt_of_live parent)
  · intro k hk
    rw [State.fibre_setFibre_other _ _ (apart k hk)]
    exact State.fibre_children child (mem_emptySlots here hk).1 slots whole (.inl hk)

/-- A child of a FORK, once its word is done with and its path is formed. -/
theorem placed_child {v s : State} {c : Cx} {r : RopeId} {rp : Rope} {pc : DWord} {n k a fid : Nat} {p : Fibre} (here : s.rope? r = some rp)
    (two : 2 ≤ rp.size) (hk : k ∈ rp.emptySlots n) (child : v.fibre (.strand r (k / 32)) (k % 32) = childOf rp.size pc a fid p) :
    let f := ((v.finish c [] []).placeChildren s r pc).fibre (.strand r (k / 32)) (k % 32)
    f.st = .live ∧ f.pc = pc ∧ f.cl = none ∧ f.reg 0 = a % 2 ^ 32 ∧ f.reg 1 = fid % 2 ^ 32 := by
  obtain ⟨slotLt, empty⟩ := mem_emptySlots here hk
  obtain ⟨reg0, reg1⟩ := childOf_reg two pc a fid p
  have before : ((v.finish c [] []).fibre (.strand r (k / 32)) (k % 32)).regs = (childOf rp.size pc a fid p).regs := by
    rw [(moved_finish v c []).fibre_regs, child]
  have regs := (placeChildren_regs (s := s) (r := r) (pc := pc) (.strand r (k / 32)) (k % 32)).trans before
  obtain ⟨atPc, outside⟩ := placeChildren_child (pc := pc) here slotLt (Nat.mod_lt k (by decide)) empty (Fibre.st_of_regs before)
  exact ⟨Fibre.st_of_regs regs, atPc, outside, (Fibre.reg_of_regs regs 0).trans reg0, (Fibre.reg_of_regs regs 1).trans reg1⟩

theorem fork_children {g : Guard} {d : Dst} {n a : Src} {off : BitVec 32} {s : State} {c : Cx} {l sid : Nat} {r : RopeId} {rp : Rope}
    (free : Free s c (forkIss g d n a)) (one : c.lanes g = [l]) (who : c.who = .strand r sid) (here : s.rope? r = some rp)
    (live : (c.st.fibre l).st = .live) (two : 2 ≤ rp.size)
    (full : ∀ k < rp.strands.length, (rp.strands.getD k Strand.init).fibres.length = 32)
    (target : (s.atLane c l).target c.who (c.rel off) = (s.atLane c l, .header)) :
    let slots := rp.emptySlots (min ((c.st.fibre l).src (.i .ui32) n) 32)
    ∃ t, exec (.fork g d n a off) s = .next t ∧
      (t.fibre c.who l).regs = ((forkIss g d n a).mark ((c.st.fibre l).dst false d (slots.headD 0xFFFF * 65536 + slots.length))).regs ∧
      ∀ k ∈ slots, let f := t.fibre (.strand r (k / 32)) (k % 32)
        f.st = .live ∧ f.pc = c.rel off ∧ f.cl = none ∧ f.reg 0 = (c.st.fibre l).src .b32 a % 2 ^ 32 ∧ f.reg 1 = (sid * 32 + l) % 2 ^ 32 := by
  intro slots
  have run := fork_run free one who (fork_lane (fb := c.st.fibre l) (n := n) (a := a) (d := d) who (s := s.atLane c l) here target)
  have mine : s.fibre c.who l = c.st.fibre l := by rw [State.fibre, ← (cx_eq free.ready.stands).2.1]
  have inRope : sid < rp.strands.length := by
    obtain ⟨rq, hq, lt⟩ : s.hasStrand (.strand r sid) := who ▸ cx_has free.ready.stands
    rw [here] at hq
    exact Option.some.inj hq ▸ lt
  obtain ⟨parent, children⟩ := fork_state (u := s.atLane c l) (n := min ((c.st.fibre l).src (.i .ui32) n) 32) (l := l)
    (child := childOf rp.size (c.rel off) ((c.st.fibre l).src .b32 a) (sid * 32 + l) (c.st.fibre l))
    (fb := (forkIss g d n a).mark ((c.st.fibre l).dst false d (slots.headD 0xFFFF * 65536 + slots.length))) here who inRope
    (State.fullRope_of_rope (s := s.atLane c l) here full) (fun v k => by cases v <;> rfl) (mine ▸ live)
  refine ⟨_, run, ?_, fun k hk => ?_⟩
  · rw [placeChildren_regs, (moved_finish _ _ _).fibre_regs, raised_fibre, State.as_setFibre_fibre]
    exact congrArg Fibre.regs parent
  · refine placed_child here two hk (p := c.st.fibre l) ?_
    rw [raised_fibre, State.as_setFibre_fibre]
    exact children k hk

/-- Settles O12: NOP and YIELD are words on registers alone, the latter at a place whose clause ends; a FORK's children stand in their slots
before their paths are formed; END leaves its slot empty. -/
theorem nopAndYield : Obligations.NopAndYield := by
  refine ⟨fun g => ⟨effect_of_issue (fun _ => rfl) fun _ => rfl, yield_effect g, fun s c => yield_ends⟩, ?_, ?_⟩
  · intro g d n a off s c l sid r rp i free one who here live two full target
    exact fork_children free one who here live two full target
  · exact fun g s c l r sid rope free one => fend_empties rope free one

end Sys2Proof.Machine
end

section
/-! SUPPORT. Ties, barriers and sleep (R157 to R160, R181 to R185), of one executing lane. -/

namespace Sys2Proof.Machine

/-- A word lane by lane whose only executing lane completes. -/
theorem acted_of_issueSt {ins : Instr} {i : Iss} {s u : State} {c : Cx} {l n : Nat} {fb : Fibre} {tg : Option DWord}
    {f : Cx → Nat → State → Nat → Fibre → LaneFx} (hx : ∀ s, exec ins s = issueSt i f s) (free : Free s c i) (one : c.lanes i.g = [l])
    (lane : f c s.nextId s.fresh.2 l (c.st.fibre l) = ⟨u, ⟨fb, tg, none⟩, n⟩) : Acted ins i s c l u fb n := by
  obtain ⟨t, run, moved⟩ := issueSt_one free one lane
  exact ⟨t, (hx s).trans run, moved⟩

/-- The same for a word whose accesses are answered. -/
theorem acted_of_issueTry {ins : Instr} {i : Iss} {s u : State} {c : Cx} {l n : Nat} {fb : Fibre} {tg : Option DWord}
    {f : Cx → Nat → State → Nat → Fibre → Except State LaneFx} (hx : ∀ s, exec ins s = issueTry i f s) (free : Free s c i)
    (one : c.lanes i.g = [l]) (lane : f c s.nextId (s.atLane c l) l (c.st.fibre l) = .ok ⟨u, ⟨fb, tg, none⟩, n⟩) :
    Acted ins i s c l (u.as s.agent) fb n := by
  obtain ⟨t, run, moved⟩ := issueTry_one free one lane
  exact ⟨t, (hx s).trans run, moved⟩

/-! ### Ties (R157, R158, R181, R182) -/

/-- One lane of TIEDEF, as the model runs it. -/
def tiedefLane (i : Iss) (k : Num4) (set : TieSet) (c : Cx) (_tag : Nat) (s : State) (l : Nat) (fb : Fibre) : LaneFx :=
  match c.who with
  | .sup _ => ⟨s, .fault fb (illegal .operand), 0⟩
  | .strand r _ =>
    if (listMin (c.set i)) = some l then ⟨s.tieDefine r k.toNat (((s.rope? r).map fun rp => rp.tieSet fb set).getD []), .ok fb, 0⟩
    else ⟨s, .ok fb, 0⟩

theorem tiedef_acted {g : Guard} {k : Num4} {set : TieSet} {x y : Src} {s : State} {c : Cx} {l : Nat} {r : RopeId} {sid : Nat}
    (who : c.who = .strand r sid) (hset : set = .rng x y ∨ set = .lanes x y)
    (free : Free s c { len := (immUp [x, y]).len, g := g, uses := useS 1 x ++ useS 1 y, rope := true }) (one : c.lanes g = [l]) :
    Acted (.tiedef g k set) { len := (immUp [x, y]).len, g := g, uses := useS 1 x ++ useS 1 y, rope := true } s c l
      (s.fresh.2.tieDefine r k.toNat (((s.fresh.2.rope? r).map fun rp => rp.tieSet (c.st.fibre l) set).getD [])) (c.st.fibre l) 0 := by
  have lowest : listMin (c.set { len := (immUp [x, y]).len, g := g, uses := useS 1 x ++ useS 1 y, rope := true }) = some l := by
    rw [free.ready.set_eq_lanes]
    show listMin (c.lanes g) = _
    rw [one]
    rfl
  have lane : ∀ set tag, tiedefLane { len := (immUp [x, y]).len, g := g, uses := useS 1 x ++ useS 1 y, rope := true } k set c tag s.fresh.2 l
      (c.st.fibre l) = ⟨s.fresh.2.tieDefine r k.toNat (((s.fresh.2.rope? r).map fun rp => rp.tieSet (c.st.fibre l) set).getD []),
        ⟨c.st.fibre l, none, none⟩, 0⟩ := by
    intro set tag
    unfold tiedefLane
    rw [who]
    simp only [lowest, if_true]
    rfl
  rcases hset with rfl | rfl
  · exact acted_of_issueSt (f := tiedefLane _ k (.rng x y)) (fun _ => rfl) free one (lane _ _)
  · exact acted_of_issueSt (f := tiedefLane _ k (.lanes x y)) (fun _ => rfl) free one (lane _ _)

theorem State.fresh_tcvtSeed (s : State) (r : RopeId) (fid : Nat) : s.fresh.2.tcvtSeed r fid = s.tcvtSeed r fid := by
  unfold State.tcvtSeed
  dsimp only
  rw [State.fresh_srState]
  rfl

theorem State.fresh_tie (s : State) (r : RopeId) (k : Nat) : s.fresh.2.tie r k = s.tie r k := rfl

/-- The issue of a TIESGN (R182). -/
def tiesgnIss (g : Guard) : Iss := { len := 8, g := g, uses := [], commit := true, rope := true, access := true }

theorem tiesgn_second {g : Guard} {k : Num4} {s : State} {c : Cx} {l : Nat} {r : RopeId} {sid : Nat} (who : c.who = .strand r sid)
    (free : Free s c (tiesgnIss g)) (one : c.lanes g = [l]) (expected : (s.tie r k.toNat).expected.contains (sid * 32 + l) = true)
    (signed : (s.tie r k.toNat).signed.contains (sid * 32 + l) = true) :
    Acted (.tiesgn g k) (tiesgnIss g) s c l (s.fresh.2.holdSecond r k.toNat (sid * 32 + l) none c none (c.st.fibre l))
      { c.st.fibre l with wait := some (.tie k.toNat) } 0 := by
  have sign : s.fresh.2.tieSign r k.toNat (sid * 32 + l) none (c.st.fibre l) s.nextId = (s.fresh.2, .second) := by
    unfold State.tieSign
    simp only [State.fresh_tie, expected, signed, Bool.not_true, Bool.false_eq_true, if_false, if_true]
  refine acted_of_issueSt (f := tiesgnLane (tiesgnIss g) k) (tg := none) (fun _ => rfl) free one ?_
  unfold tiesgnLane
  rw [who]
  simp only [sign]
  rfl

theorem tiesgn_first {g : Guard} {k : Num4} {s : State} {c : Cx} {l : Nat} {r : RopeId} {sid : Nat} (who : c.who = .strand r sid)
    (free : Free s c (tiesgnIss g)) (one : c.lanes g = [l]) (expected : (s.tie r k.toNat).expected.contains (sid * 32 + l) = true)
    (signed : ¬ (s.tie r k.toNat).signed.contains (sid * 32 + l) = true) :
    Acted (.tiesgn g k) (tiesgnIss g) s c l
      ((s.fresh.2.setTie r k.toNat { s.tie r k.toNat with
        signed := (s.tie r k.toNat).signed ++ [sid * 32 + l]
        seeds := upsert Prod.fst (sid * 32 + l, s.tcvtSeed r (sid * 32 + l)) (s.tie r k.toNat).seeds }).tieCheck r k.toNat) (c.st.fibre l) 0 := by
  have sign : s.fresh.2.tieSign r k.toNat (sid * 32 + l) none (c.st.fibre l) s.nextId = (s.fresh.2.setTie r k.toNat { s.tie r k.toNat with
        signed := (s.tie r k.toNat).signed ++ [sid * 32 + l]
        seeds := upsert Prod.fst (sid * 32 + l, s.tcvtSeed r (sid * 32 + l)) (s.tie r k.toNat).seeds }, .signed 0 0) := by
    unfold State.tieSign
    simp only [State.fresh_tie, State.fresh_tcvtSeed, expected, signed, Bool.not_true, Bool.false_eq_true, if_false]
  refine acted_of_issueSt (f := tiesgnLane (tiesgnIss g) k) (tg := none) (fun _ => rfl) free one ?_
  unfold tiesgnLane
  rw [who]
  simp only [sign]
  rfl

/-! ### HBAR and NSLEEP (R159, R183, R185) -/

theorem hbar_acted {g : Guard} {m : HbarMode} {b : Num4} {mask : Src} {pd ps : Num4} {s : State} {c : Cx} {l sid : Nat} {r : RopeId} {rp : Rope}
    {h : Hbar} (who : c.who = .strand r sid)
    (free : Free s c { len := 8, g := g, uses := useS 1 mask, commit := true, rope := true, access := true, rel := true })
    (one : c.lanes g = [l]) (here : s.rope? r = some rp) :
    let mk := (c.st.fibre ((lanesOf c.path.mask).headD 0)).src .b32 mask % 2 ^ rp.strands.length
    let h0 := s.hbar r b.toNat
    (if h0.opened then h0 else rp.openRound h0 mk).arrive (sid * 32 + l) m mk pd ((c.st.fibre l).pred ps) = some h →
    ∃ u, u = ((s.fresh.2.setFibre c.who l { c.st.fibre l with wait := some (.hbar b.toNat (if m = .plain then none else some pd)) }).setHbar r
        b.toNat h).hbarCheck 4 r b.toNat ∧
      Acted (.hbar g m b mask pd ps) { len := 8, g := g, uses := useS 1 mask, commit := true, rope := true, access := true, rel := true } s c l u
        (u.fibre c.who l) 0 := by
  intro mk h0 arrives
  refine ⟨_, rfl, acted_of_issueSt (f := fun c _ => hbarLane m b mask pd ps c) (tg := none) (fun _ => rfl) free one ?_⟩
  have rope : s.fresh.2.rope? r = some rp := here
  have bar : s.fresh.2.hbar r b.toNat = s.hbar r b.toNat := rfl
  unfold hbarLane
  rw [who]
  simp only [rope, bar]
  simp only [mk, h0] at arrives
  rw [arrives]
  rfl

theorem nsleep_acted {g : Guard} {pd : Num4} {a v x : Src} {s u : State} {c : Cx} {l ctx : Nat} {xl : Xl}
    (free : Free s c { len := (immUp [a, v, x]).len, g := g, uses := useS 2 a ++ useS 1 v ++ useS 1 x, access := true }) (one : c.lanes g = [l])
    (process : s.ctxOf c.who = some ctx) (check : globalCheck .load 4 ((c.st.fibre l).src .b64 a) = none)
    (early : (s.atLane c l).early { accOf (c.who.lane l) ctx ((c.st.fibre l).src .b64 a) 4 (.ld .b32) c.ip c.cl.hpc with scope := .dev } true = (u, .ok xl)) :
    Acted (.nsleep g pd a v x) { len := (immUp [a, v, x]).len, g := g, uses := useS 2 a ++ useS 1 v ++ useS 1 x, access := true } s c l (u.as s.agent)
      { c.st.fibre l with
        wait := some (.sleep (BitVec.ofNat 64 ((c.st.fibre l).src .b64 a)) (BitVec.ofNat 32 ((c.st.fibre l).src .b32 v))
          (if (c.st.fibre l).src (.i .ui32) x = 2 ^ 32 - 1 then none else some (s.gtime + (c.st.fibre l).src (.i .ui32) x)) pd c.ip c.cl.hpc) } 0 := by
  refine acted_of_issueTry (f := fun c _ => nsleepLane pd a v x c) (tg := none) (fun _ => rfl) free one ?_
  have process' : (s.atLane c l).ctxOf c.who = some ctx := process
  unfold nsleepLane
  simp only [check, process', early]
  rfl

/-! ### A sleeper's turn (R185) -/

theorem State.sleepTest_rope {s u : State} {l : LaneId} {a : DWord} {v : Word} {d : Option Nat} {pd : Num4} {ip hpc : DWord} {ctx : Nat} {b : List Byte}
    (process : s.ctxOf (laneWho l) = some ctx) (load : s.fibreLoad l ctx a.toNat 4 = (u, .ok b)) :
    s.sleepTest l a v d pd ip hpc =
      if leNat b ≠ v.toNat then u.setFibre (laneWho l) l.lane { (u.fibre (laneWho l) l.lane).setPred pd true with wait := none }
      else if (d.map fun d => decide (d ≤ u.gtime)).getD false || (u.fibre (laneWho l) l.lane).sel.isSome then
        u.setFibre (laneWho l) l.lane { (u.fibre (laneWho l) l.lane).setPred pd false with wait := none }
      else u := by
  unfold State.sleepTest
  simp only [process, load]

/-- Settles O16: each word's lane answers what its clause says, and a sleeper's turn goes by the word it reads, then its deadline. -/
theorem synchronisingWords : Obligations.SynchronisingWords := by
  constructor
  · intro g s c l r sid who
    refine ⟨fun k set x y hset free one => tiedef_acted who hset free one, fun k free one expected => ?_,
      fun m b mask pd ps rp h free one here => hbar_acted who free one here, fun pd a v x u xl ctx free one => nsleep_acted free one⟩
    split
    · exact tiesgn_second who free one expected ‹_›
    · exact tiesgn_first who free one expected ‹_›
  · intro s l a v d pd ip hpc ctx u b wait process load
    have test := State.sleepTest_rope (v := v) (d := d) (pd := pd) (ip := ip) (hpc := hpc) process load
    refine ⟨fun differs => ?_, fun same t deadline passed later => ?_, fun same forever unchosen => ?_⟩
    · show execNsleepRetest l s = _
      unfold execNsleepRetest
      rw [wait]
      exact congrArg _ (test.trans (if_pos differs))
    · subst deadline
      show execNsleepDeadline l s = _
      unfold execNsleepDeadline
      rw [wait]
      simp only [passed, if_true]
      rw [test, if_neg (not_not.2 same)]
      simp [later]
    · subst forever
      show execNsleepRetest l s = _
      unfold execNsleepRetest
      rw [wait]
      simp only []
      rw [test, if_neg (not_not.2 same)]
      simp [unchosen]

end Sys2Proof.Machine
end

section
/-! SUPPORT. Loads and stores (R18, R21, R271 to R273, R371, R373). -/

namespace Sys2Proof.Machine

@[simp] theorem State.newAcc_fibre (s : State) (a : Access) (w : Who) (l : Nat) : (s.newAcc a).fibre w l = s.fibre w l := by cases w <;> rfl
theorem State.newAcc_hasStrand {s : State} {a : Access} {w : Who} (h : s.hasStrand w) : (s.newAcc a).hasStrand w := h
theorem State.newAcc_as (s : State) (a : Access) (d e : Doer) : ((s.as d).newAcc a).as e = (s.newAcc a).as e := rfl
theorem Fibre.setPend_st (f : Fibre) (rs : List Nat) : (f.setPend rs).st = f.st := rfl

/-! ### Loads -/

/-- The load that one lane of LD or LDRO makes (R271, R273). -/
def loadAcc (ro : Bool) (w : Width) (d : BitVec 8) (a : Src) (up : MemUp) (s : State) (c : Cx) (l tag : Nat) : Access :=
  { accessOf s c l a up (widthBytes w) (if ro then .ldro w else .ld w) with wd := some (d.toNat, Width.words w), tag := some tag }

/-- The issue of LD and LDRO. -/
def loadIss (g : Guard) (w : Width) (d : BitVec 8) (a : Src) : Iss :=
  { len := 16, g := g, uses := useW (Width.words w) (some d) ++ useS 2 a, flag := some false }

section
variable {ro : Bool} {w : Width} {d : BitVec 8} {a : Src} {up : MemUp} {c : Cx} {l tag : Nat} {s : State}

theorem loadLane_starts (user : c.who.isSup = false) (free : (c.st.fibre l).serial = false)
    (check : globalCheck .load (widthBytes w) ((c.st.fibre l).gea a up.off) = none) :
    loadLane ro w d a up c tag s l (c.st.fibre l) =
      .ok ⟨s.newAcc (loadAcc ro w d a up s c l tag), .ok ((c.st.fibre l).setPend ((List.range (Width.words w)).map (d.toNat + ·))), 1⟩ := by
  unfold loadLane
  simp only [check, user, free, Bool.false_eq_true, if_false]
  rfl

theorem loadLane_serial {u : State} {x : Xl} (user : c.who.isSup = false) (serial : (c.st.fibre l).serial = true)
    (check : globalCheck .load (widthBytes w) ((c.st.fibre l).gea a up.off) = none)
    (early : s.early (loadAcc ro w d a up s c l tag) true = (u, .ok x)) :
    loadLane ro w d a up c tag s l (c.st.fibre l) =
      .ok ⟨u.newAcc { loadAcc ro w d a up s c l tag with xl := some x },
        .ok ((c.st.fibre l).setPend ((List.range (Width.words w)).map (d.toNat + ·))), 1⟩ := by
  unfold loadAcc accessOf at early ⊢
  unfold loadLane
  simp only [check, user, serial, Bool.false_eq_true, if_false, if_true, early]

end

theorem loads_start {g : Guard} {ro : Bool} {w : Width} {d : BitVec 8} {a : Src} {up : MemUp} {ins : Instr}
    (run : ∀ s, exec ins s = issueTry (loadIss g w d a) (loadLane ro w d a up) s) :
    Acts ins (loadIss g w d a) (fun _ c l => c.who.isSup = false ∧ (c.st.fibre l).serial = false ∧
        globalCheck .load (widthBytes w) ((c.st.fibre l).gea a up.off) = none)
      (fun tag c u l => u.newAcc (loadAcc ro w d a up u c l tag))
      (fun _ c l => (c.st.fibre l).setPend ((List.range (Width.words w)).map (d.toNat + ·))) 1 := by
  intro s c free ok
  have lane : ∀ l ∈ c.lanes (loadIss g w d a).g, Lane c (loadIss g w d a) (fun _ => True)
      (fun u l => u.newAcc (loadAcc ro w d a up u c l s.nextId)) (fun l => (c.st.fibre l).setPend ((List.range (Width.words w)).map (d.toNat + ·))) l :=
    fun l _ => lane_of_fibres (fun u k => State.newAcc_fibre _ _ _ _) (fun u => State.newAcc_hasStrand) rfl
  obtain ⟨t, h, p⟩ := issueTry_passes (f := loadLane ro w d a up) (tgt := fun _ => none) (n := 1) free trivial lane
    (fun l hl u _ _ => by
      obtain ⟨user, serial, check⟩ := ok l hl
      exact ⟨_, loadLane_starts user serial check, rfl⟩)
  exact ⟨t, (run s).trans h, p⟩

theorem load_serial {g : Guard} {ro : Bool} {w : Width} {d : BitVec 8} {a : Src} {up : MemUp} {ins : Instr}
    (run : ∀ s, exec ins s = issueTry (loadIss g w d a) (loadLane ro w d a up) s) {s u : State} {c : Cx} {l : Nat} {x : Xl}
    (free : Free s c (loadIss g w d a)) (one : c.lanes g = [l]) (user : c.who.isSup = false) (serial : (c.st.fibre l).serial = true)
    (check : globalCheck .load (widthBytes w) ((c.st.fibre l).gea a up.off) = none)
    (early : (s.atLane c l).early (loadAcc ro w d a up s c l s.nextId) true = (u, .ok x)) :
    Acted ins (loadIss g w d a) s c l ((u.newAcc { loadAcc ro w d a up s c l s.nextId with xl := some x }).as s.agent)
      ((c.st.fibre l).setPend ((List.range (Width.words w)).map (d.toNat + ·))) 1 :=
  acted_of_issueTry (f := loadLane ro w d a up) (tg := none) run free one (loadLane_serial user serial check early)

/-! ### The supervisor strand's accesses -/

theorem sup_isSup {c : Cx} {n : Nat} (who : c.who = .sup n) : c.who.isSup = true := by rw [who]; rfl

theorem load_sup {g : Guard} {w : Width} {d : BitVec 8} {a : Src} {up : MemUp} {s : State} {c : Cx} {l n : Nat} (who : c.who = .sup n)
    (one : c.lanes g = [l]) (free : Free s c (loadIss g w d a))
    (check : globalCheck .load (widthBytes w) ((c.st.fibre l).gea a up.off) = none) :
    Acted (.ld g w d a up) (loadIss g w d a) s c l (s.fresh.2.newAcc { accessOf s c l a up (widthBytes w) .land with
        wd := some (d.toNat, Width.words w), tag := some s.nextId, done := true
        data := landBytes (.ld w) (cellsRead s.svMem ((c.st.fibre l).gea a up.off) (widthBytes w)) })
      ((c.st.fibre l).setPend ((List.range (Width.words w)).map (d.toNat + ·))) 1 := by
  have lane : loadLane false w d a up c s.nextId (s.atLane c l) l (c.st.fibre l) = .ok ⟨(s.atLane c l).newAcc
      { accessOf s c l a up (widthBytes w) .land with
        wd := some (d.toNat, Width.words w), tag := some s.nextId, done := true
        data := landBytes (.ld w) (cellsRead s.svMem ((c.st.fibre l).gea a up.off) (widthBytes w)) },
      .ok ((c.st.fibre l).setPend ((List.range (Width.words w)).map (d.toNat + ·))), 1⟩ := by
    unfold loadLane
    simp only [check, sup_isSup who, if_true]
    rfl
  exact acted_of_issueTry (f := loadLane false w d a up) (tg := none) (fun _ => rfl) free one lane

/-- The issue of ST. -/
def storeIss (g : Guard) (w : Width) (a v : Src) : Iss := { len := 16, g := g, uses := useS 2 a ++ useS (Width.words w) v }

theorem execSt_of_holders {g : Guard} {w : Width} {a v : Src} {up : MemUp} {s : State} {c : Cx} (stands : s.cx? 16 = some c)
    (none : c.holders (storeIss g w a v) w a up = []) : exec (.st g w a v up) s = issueTry (storeIss g w a v) (storeLane w a v up) s := by
  show execSt g w a v up s = _
  unfold execSt
  unfold storeIss at none ⊢
  simp only [stands, none, if_true]

theorem store_sup {g : Guard} {w : Width} {a v : Src} {up : MemUp} {s : State} {c : Cx} {l n : Nat} (who : c.who = .sup n)
    (one : c.lanes g = [l]) (free : Free s c (storeIss g w a v))
    (check : globalCheck .store (widthBytes w) ((c.st.fibre l).gea a up.off) = none) :
    Acted (.st g w a v up) (storeIss g w a v) s c l
      { s.fresh.2 with svMem := cellsWrite s.svMem ((c.st.fibre l).gea a up.off) ((c.st.fibre l).storeBytes w v) } ((c.st.fibre l).seen s.gtime) 0 := by
  have lane : storeLane w a v up c s.nextId (s.atLane c l) l (c.st.fibre l) = .ok ⟨{ s.atLane c l with
      svMem := cellsWrite s.svMem ((c.st.fibre l).gea a up.off) ((c.st.fibre l).storeBytes w v) }, .ok ((c.st.fibre l).seen s.gtime), 0⟩ := by
    unfold storeLane
    simp only [check, sup_isSup who, if_true]
    rfl
  have run : exec (.st g w a v up) s = issueTry (storeIss g w a v) (storeLane w a v up) s :=
    execSt_of_holders free.ready.stands (if_pos (sup_isSup who))
  obtain ⟨t, h, m⟩ := issueTry_one free one lane
  exact ⟨t, run.trans h, m⟩

/-- Settles O17: what one lane of a load or of the supervisor strand's store answers, for the lanes in turn or for the only one. -/
theorem loadsStart : Obligations.LoadsStart := by
  constructor
  · rintro g ro w d a up ins rfl
    have run : ∀ s, exec (if ro then .ldro g w d a up else .ld g w d a up) s = issueTry (loadIss g w d a) (loadLane ro w d a up) s := by
      cases ro <;> exact fun _ => rfl
    exact ⟨loads_start run, fun s c l u x free one => load_serial run free one⟩
  · exact fun g w d a v up s c l n who one => ⟨load_sup who one, store_sup who one⟩

/-! ### Stores of a rope's fibres -/

/-- The store that one lane of ST makes (R272). -/
def storeAcc (w : Width) (a v : Src) (up : MemUp) (s : State) (c : Cx) (l : Nat) : Access :=
  { accessOf s c l a up (widthBytes w) .st with data := (c.st.fibre l).storeBytes w v }

section
variable {g : Guard} {w : Width} {a v : Src} {up : MemUp} {c : Cx} {l tag : Nat} {s : State}

theorem storeLane_held (user : c.who.isSup = false) (free : (c.st.fibre l).serial = false)
    (check : globalCheck .store (widthBytes w) ((c.st.fibre l).gea a up.off) = none) :
    storeLane w a v up c tag s l (c.st.fibre l) =
      .ok ⟨s.newAcc { storeAcc w a v up s c l with sq := some tag }, .ok (c.st.fibre l), 0⟩ := by
  unfold storeLane
  simp only [check, user, free, Bool.false_eq_true, if_false]
  rfl

theorem storeLane_serial {u : State} {x : Xl} (user : c.who.isSup = false) (serial : (c.st.fibre l).serial = true)
    (check : globalCheck .store (widthBytes w) ((c.st.fibre l).gea a up.off) = none)
    (early : s.early (storeAcc w a v up s c l) true = (u, .ok x)) :
    storeLane w a v up c tag s l (c.st.fibre l) = .ok ⟨u.newAcc { storeAcc w a v up s c l with xl := some x }, .ok (c.st.fibre l), 0⟩ := by
  unfold storeAcc accessOf at early ⊢
  unfold storeLane
  simp only [check, user, serial, Bool.false_eq_true, if_false, if_true, early]

theorem store_serial {u : State} {x : Xl} (free : Free s c (storeIss g w a v)) (one : c.lanes g = [l]) (user : c.who.isSup = false)
    (serial : (c.st.fibre l).serial = true) (check : globalCheck .store (widthBytes w) ((c.st.fibre l).gea a up.off) = none)
    (early : (s.atLane c l).early (storeAcc w a v up s c l) true = (u, .ok x)) :
    Acted (.st g w a v up) (storeIss g w a v) s c l ((u.newAcc { storeAcc w a v up s c l with xl := some x }).as s.agent) (c.st.fibre l) 0 := by
  have none : c.holders (storeIss g w a v) w a up = [] := by
    unfold Cx.holders
    rw [free.ready.set_eq_lanes]
    show (if c.who.isSup then [] else List.filter _ (c.lanes g)) = _
    simp [one, user, serial]
  obtain ⟨t, h, m⟩ := issueTry_one (f := storeLane w a v up) (tg := Option.none) free one (storeLane_serial user serial check early)
  exact ⟨t, (execSt_of_holders free.ready.stands none).trans h, m⟩

/-- Lanes that have each made an access leave at least one behind, and no number before theirs. -/
theorem each_newAcc_any {i : Iss} {P : Access → Bool} {f : State → Nat → Access} {fib : Nat → Fibre} (n : Nat)
    (mine : ∀ u l, n ≤ u.nextId → P { f u l with id := u.nextId } = true) :
    ∀ (ls : List Nat) (u : State), n ≤ u.nextId → (ls ≠ [] ∨ u.accs.any P = true) →
      (u.each c i ls (fun u l => u.newAcc (f u l)) fib).accs.any P = true
  | [], u, _, h => h.resolve_left fun h => h rfl
  | l :: ls, u, hn, _ => by
    rw [State.each, List.foldl_cons]
    refine each_newAcc_any n mine ls _ ?_ (.inr ?_)
    · show n ≤ ((u.newAcc (f u l)).setStrand _ _).nextId
      rw [State.setStrand_nextId]
      exact Nat.le_succ_of_le hn
    · show ((u.newAcc (f u l)).setStrand _ _).accs.any P = true
      rw [State.setStrand_accs]
      simp [State.newAcc, mine u l hn]

end

theorem swapSlot_hasStrand (u : State) (w v : Who) : (u.swapSlot w).hasStrand v ↔ u.hasStrand v := by
  unfold State.swapSlot
  cases w with
  | sup n => exact Iff.rfl
  | strand r sid =>
    dsimp only
    split
    · rw [State.setStrand_hasStrand, State.setStrand_hasStrand]
    · exact Iff.rfl

theorem finish_hasStrand (u : State) (c : Cx) (tgts : List (Nat × DWord)) (v : Who) : (u.finish c [] tgts).hasStrand v ↔ u.hasStrand v := by
  unfold State.finish
  split
  · rename_i h; cases h
  · have none : ∀ st : Strand, groupTraps st [] = [] := fun _ => rfl
    simp only [none, List.foldl_nil]
    split
    · rw [swapSlot_hasStrand, State.setStrand_hasStrand]
    · rw [State.setStrand_hasStrand]

/-- A strand written leaves of every rope and core all but its strands. -/
theorem State.setStrand_ropes_own (s : State) (w : Who) (st : Strand) (r : RopeId) :
    ((s.setStrand w st).rope? r).map Rope.own = (s.rope? r).map Rope.own := by
  cases w with
  | sup n => rfl
  | strand r' sid =>
    simp only [State.setStrand]
    cases h : s.rope? r' with
    | none => rfl
    | some rp =>
      simp only [State.rope?_setRope, State.rope?_id h]
      by_cases e : r' = r
      · subst e; simp [h, Rope.own, State.rope?_id h]
      · rw [if_neg e]

theorem State.setStrand_cores_own (s : State) (w : Who) (st : Strand) (n : Nat) : ((s.setStrand w st).core n).own = (s.core n).own := by
  cases w with
  | sup m =>
    simp only [State.setStrand, State.core_setCore, State.core_no]
    by_cases e : m = n
    · subst e; simp [Core.own, State.core_no]
    · rw [if_neg e]
  | strand r sid => simp only [State.setStrand]; split <;> rfl

theorem State.setStrand_rest (s : State) (w : Who) (st : Strand) (rs : List Rope) (cs : List Core) :
    ({ s.setStrand w st with ropes := rs, cores := cs } : State) = { s with ropes := rs, cores := cs } := by
  cases w with
  | sup n => rfl
  | strand r sid => simp only [State.setStrand]; split <;> rfl

/-- The count of held stores, set alike on both sides (R373). -/
theorem Moved.held {u t : State} {w : Who} (m : Moved u t w) (hu : u.hasStrand w) (ht : t.hasStrand w) (n : Nat) :
    Moved (u.setStrand w { u.strand w with held := n }) (t.setStrand w { t.strand w with held := n }) w where
  keeps.rest := by
    rw [State.setStrand_rest]
    have rest := m.keeps.rest
    calc ({ t with ropes := (u.setStrand w { u.strand w with held := n }).ropes, cores := (u.setStrand w { u.strand w with held := n }).cores } : State)
        = { ({ t with ropes := u.ropes, cores := u.cores } : State) with
            ropes := (u.setStrand w { u.strand w with held := n }).ropes, cores := (u.setStrand w { u.strand w with held := n }).cores } := rfl
      _ = _ := by rw [rest, ← State.setStrand_rest u w { u.strand w with held := n }]
  keeps.ropes r := by rw [State.setStrand_ropes_own, State.setStrand_ropes_own]; exact m.keeps.ropes r
  keeps.cores k := by rw [State.setStrand_cores_own, State.setStrand_cores_own]; exact m.keeps.cores k
  keeps.strands v := by
    rw [State.strand_setStrand _ _ _ _ hu, State.strand_setStrand _ _ _ _ ht]
    have own := m.keeps.strands v
    split
    · next e => subst e; exact congrArg (fun st : Strand => ({ st with held := n } : Strand)) own
    · exact own
  keeps.other v ne l := by
    simp only [State.fibre, State.strand_setStrand _ _ _ _ hu, State.strand_setStrand _ _ _ _ ht, if_neg (Ne.symm ne)]
    exact m.keeps.other v ne l
  regs l := by
    simp only [State.fibre, State.strand_setStrand _ _ _ _ hu, State.strand_setStrand _ _ _ _ ht, if_true]
    exact m.regs l

/-- A word none of whose lanes traps ends by `finish`. -/
theorem issueTry_passes_run {c : Cx} {i : Iss} {s : State} {Inv : State → Prop} {act : State → Nat → State} {fib : Nat → Fibre}
    {n : Nat} {f : Cx → Nat → State → Nat → Fibre → Except State LaneFx} (r : Free s c i) (base : Inv s.fresh.2)
    (lane : ∀ l ∈ c.lanes i.g, Lane c i Inv act fib l)
    (runs : ∀ l ∈ c.lanes i.g, ∀ u, Inv u → ∃ v, f c s.nextId (u.as (c.doer u l)) l (c.st.fibre l) = .ok ⟨v, .ok (fib l), n⟩ ∧ v.as u.agent = act u l) :
    ∃ tg, issueTry i f s = .next (((s.fresh.2.each c i (c.lanes i.g) act fib).raised c i s.nextId (n * (c.lanes i.g).length)).finish c [] tg) := by
  have here := fresh_fibre r.ready.stands
  have run := runLanesTry_each (f := f c s.nextId) (tgt := fun _ => none) r.ready.may (c.lanes i.g) s.fresh.2 [] 0 (nodup_lanes c i.g) lane base
    (fun l _ => here l) r.ready.clear fun l hl u inv _ => runs l hl u inv
  have again : c.again i (f c s.nextId) s.fresh.2 = none := by
    unfold Cx.again
    rw [if_neg (by simp [r.ready.may]), List.findSome?_eq_none_iff]
    intro l hl
    obtain ⟨v, hv, -⟩ := runs l (List.mem_filter.1 hl).1 s.fresh.2 base
    rw [here, hv]
  refine ⟨(c.lanes i.g).flatMap fun l => ((none : Option DWord).map fun t => (l, t)).toList, ?_⟩
  unfold issueTry
  simp only [r.ready.stands, r.free, Bool.false_eq_true, if_false]
  rw [show s.fresh.1 = s.nextId from rfl, again, runLanesTry_eq, run]
  simp only [List.nil_append, Nat.zero_add]
  rfl

theorem stores_held {g : Guard} {w : Width} {a v : Src} {up : MemUp} {s : State} {c : Cx} (free : Free s c (storeIss g w a v))
    (user : c.who.isSup = false) (some_ : c.lanes g ≠ []) (few : c.st.held < 16) (room : s.sqUsed c.who < 16)
    (ok : ∀ l ∈ c.lanes g, (c.st.fibre l).serial = false ∧ globalCheck .store (widthBytes w) ((c.st.fibre l).gea a up.off) = none) :
    ∃ t u, exec (.st g w a v up) s = .next t ∧
      u = s.fresh.2.each c (storeIss g w a v) (c.lanes g) (fun u l => u.newAcc { storeAcc w a v up u c l with sq := some s.nextId }) (fun l => c.st.fibre l) ∧
      Moved (u.setStrand c.who { u.strand c.who with held := c.st.held + 1 }) t c.who := by
  have lane : ∀ l ∈ c.lanes (storeIss g w a v).g, Lane c (storeIss g w a v) (fun _ => True)
      (fun u l => u.newAcc { storeAcc w a v up u c l with sq := some s.nextId }) (fun l => c.st.fibre l) l :=
    fun l _ => lane_of_fibres (fun u k => State.newAcc_fibre _ _ _ _) (fun u => State.newAcc_hasStrand) rfl
  obtain ⟨tg, run⟩ := issueTry_passes_run (f := storeLane w a v up) (n := 0) free trivial lane fun l hl u _ => by
    obtain ⟨serial, check⟩ := ok l hl
    exact ⟨_, storeLane_held user serial check, rfl⟩
  have has := (each_spec (i := storeIss g w a v) (c.lanes g) s.fresh.2 (nodup_lanes c g) lane trivial (fresh_hasStrand free.ready.stands)
    fun l _ => fresh_fibre free.ready.stands l).1
  rw [Nat.zero_mul] at run
  generalize hu : s.fresh.2.each c (storeIss g w a v) (c.lanes g) (fun u l => u.newAcc { storeAcc w a v up u c l with sq := some s.nextId })
    (fun l => c.st.fibre l) = u at has
  rw [show (storeIss g w a v).g = g from rfl, hu] at run
  generalize ht : (u.raised c (storeIss g w a v) s.nextId 0).finish c [] tg = t at run
  have moved : Moved u t c.who := ht ▸ (raised_zero _ _ _ _).trans (moved_finish _ _ _)
  have has' : t.hasStrand c.who := by
    rw [← ht, finish_hasStrand]
    exact (State.setStrand_hasStrand _ _ _ _).2 has
  have mine : u.accs.any (fun x => x.sq.isSome && decide (s.nextId ≤ x.id)) = true := by
    rw [← hu]
    exact each_newAcc_any (P := fun x => x.sq.isSome && decide (s.nextId ≤ x.id)) s.nextId (fun u l h => by simp [h]) _ _ (Nat.le_succ _) (.inl some_)
  have found : t.accs.any (fun x => x.sq.isSome && decide (s.nextId ≤ x.id)) = true := by
    rw [show t.accs = u.accs from (congrArg State.accs moved.keeps.rest :)]
    exact mine
  have holders : c.holders (storeIss g w a v) w a up ≠ [] := by
    unfold Cx.holders
    rw [user, free.ready.set_eq_lanes, if_neg Bool.false_ne_true, show (storeIss g w a v).g = g from rfl, List.filter_eq_self.2]
    · exact some_
    · intro l hl
      obtain ⟨serial, check⟩ := ok l hl
      simp [serial, check]
  refine ⟨_, u, ?_, rfl, moved.held has has' (c.st.held + 1)⟩
  show execSt g w a v up s = _
  unfold execSt
  unfold storeIss at holders run
  have stands : s.cx? 16 = some c := free.ready.stands
  simp only [stands, holders, if_false, Nat.not_le.2 few, Nat.not_le.2 room, run, found, if_true]

/-- Settles O18: the lanes' stores enter the queue in turn, and the strand counts them once. -/
theorem storesAreHeld : Obligations.StoresAreHeld :=
  fun _ _ _ _ _ => ⟨fun _ _ free user some_ few room ok => stores_held free user some_ few room ok,
    fun _ _ _ _ _ free one user serial check early => store_serial free one user serial check early⟩

end Sys2Proof.Machine
end

section
/-! SUPPORT. The scratchpad words and the atomics (R188, R267, R274, R277 to R280). -/

namespace Sys2Proof.Machine

/-! ### A scratchpad's bytes (R188, R274) -/

theorem cellsRead_eq_map (l : List Host.Cell) (a n : Nat) : cellsRead l a n = (List.range n).map fun i => cellRead l (a + i) := by
  induction n generalizing a with
  | zero => rfl
  | succ n ih =>
    rw [cellsRead, ih, List.range_succ_eq_map]
    simp [Function.comp_def, Nat.add_comm, Nat.add_left_comm]

theorem cellsRead_cellsWrite_same {l : List Host.Cell} (wf : Memory.wf l = true) (o : Nat) (b : List Byte) :
    cellsRead (cellsWrite l o b) o b.length = b := by
  rw [cellsRead_eq_map]
  exact List.ext_getElem (by simp) fun i _ hi => by simp [cellRead_cellsWrite_in b o i wf hi]

theorem cellsRead_cellsWrite_apart {l : List Host.Cell} (wf : Memory.wf l = true) {o x n : Nat} {b : List Byte} (apart : x + n ≤ o ∨ o + b.length ≤ x) :
    cellsRead (cellsWrite l o b) x n = cellsRead l x n := by
  rw [cellsRead_eq_map, cellsRead_eq_map]
  refine List.map_congr_left fun i hi => ?_
  have := List.mem_range.1 hi
  exact cellRead_cellsWrite_out b o (x + i) wf (by omega)

theorem State.spadWrite_rope {s : State} {r : RopeId} {rp : Rope} (here : s.rope? r = some rp) (o : Nat) (b : List Byte) :
    (s.spadWrite r o b).rope? r = some (rp.spadWrite o b) ∧ (s.spadWrite r o b).hbm = s.hbm ∧ (s.spadWrite r o b).host = s.host ∧
      (s.spadWrite r o b).svMem = s.svMem := by
  have written : s.spadWrite r o b = (s.setRope (rp.spadWrite o b)).winDirty r rp.sramOff o b.length := by
    unfold State.spadWrite
    rw [here]
  rw [written]
  refine ⟨?_, rfl, rfl, rfl⟩
  show (s.setRope (rp.spadWrite o b)).rope? r = _
  rw [State.rope?_setRope]
  exact if_pos (State.rope?_id here)

/-! ### LDS, STS, ATOMS -/

theorem State.myRope_who {s : State} {w : Who} {rp : Rope} (h : s.myRope w = some rp) : ∃ r sid, w = .strand r sid ∧ s.rope? r = some rp := by
  cases w with
  | sup n => cases h
  | strand r sid => exact ⟨r, sid, rfl, h⟩

section
variable {g : Guard} {w : Width} {d : BitVec 8} {a v : Src} {up : MemUp} {s : State} {c : Cx} {l : Nat} {rp : Rope}

/-- What lands later of a scratchpad access of n registers and k bytes. -/
def spadLand (rp : Rope) (d : BitVec 8) (up : MemUp) (a : Src) (s : State) (c : Cx) (l n k : Nat) (b : List Byte) : Access :=
  { accOf (c.who.lane l) rp.ctx ((c.st.fibre l).sea a up.off).toNat k .land c.ip c.cl.hpc with
    wd := some (d.toNat, n), scope := .rope, data := b, done := true, tag := some s.nextId }

theorem lds_acted (one : c.lanes g = [l]) (mine : s.myRope c.who = some rp) (free : Free s c
      { len := 16, g := g, uses := useW (Width.words w) (some d) ++ useS 1 a, flag := some false, rope := true, access := true })
    (check : scratchCheck rp.spadA (widthBytes w) ((c.st.fibre l).sea a up.off) = none) :
    Acted (.lds g w d a up) { len := 16, g := g, uses := useW (Width.words w) (some d) ++ useS 1 a, flag := some false, rope := true, access := true }
      s c l (s.fresh.2.newAcc (spadLand rp d up a s c l (Width.words w) (widthBytes w)
        (landBytes (.ld w) (rp.spadRead ((c.st.fibre l).sea a up.off).toNat (widthBytes w)))))
      ((c.st.fibre l).setPend ((List.range (Width.words w)).map (d.toNat + ·))) 1 := by
  refine acted_of_issueSt (f := ldsLane w d a up) (tg := none) (fun _ => rfl) free one ?_
  have mine' : s.fresh.2.myRope c.who = some rp := mine
  unfold ldsLane
  simp only [mine', check]
  rfl

theorem sts_acted (one : c.lanes g = [l]) (mine : s.myRope c.who = some rp) (free : Free s c
      { len := 16, g := g, uses := useS 1 a ++ useS (Width.words w) v, rope := true, access := true, rel := releases up.order })
    (check : scratchCheck rp.spadA (widthBytes w) ((c.st.fibre l).sea a up.off) = none) :
    Acted (.sts g w a v up) { len := 16, g := g, uses := useS 1 a ++ useS (Width.words w) v, rope := true, access := true, rel := releases up.order }
      s c l (s.fresh.2.spadWrite rp.id ((c.st.fibre l).sea a up.off).toNat ((c.st.fibre l).storeBytes w v)) ((c.st.fibre l).seen s.gtime) 0 := by
  refine acted_of_issueSt (f := fun c _ s _ fb => stsLane w a v up c s fb) (tg := none) (fun _ => rfl) free one ?_
  have mine' : s.fresh.2.myRope c.who = some rp := mine
  unfold stsLane
  simp only [mine', check]
  rfl

/-- The issue of ATOMS. -/
def atomsIss (g : Guard) (t : AtomType) (d : Option (BitVec 8)) (a v : Src) (up : MemUp) : Iss :=
  { len := 16, g := g, uses := useW (atomWords t) d ++ useS 1 a ++ useS (atomWords t) v, commit := true, flag := atomFlag d,
    rope := true, access := true, rel := releases up.order }

theorem State.spadWrite_gtime (s : State) (r : RopeId) (o : Nat) (b : List Byte) : (s.spadWrite r o b).gtime = s.gtime := by
  unfold State.spadWrite
  split <;> rfl

variable {op : AtomOp} {t : AtomType} {x : List Byte}

theorem atoms_result (one : c.lanes g = [l]) (mine : s.myRope c.who = some rp) (free : Free s c (atomsIss g t (some d) a v up))
    (check : scratchCheck rp.spadA (4 * atomWords t) ((c.st.fibre l).sea a up.off) = none)
    (writes : (atomDo (.rmw op t (BitVec.ofNat 64 ((c.st.fibre l).src (atomPos t) v)))
      (rp.spadRead ((c.st.fibre l).sea a up.off).toNat (4 * atomWords t))).2 = some x) :
    Acted (.atoms g op t (some d) a v up) (atomsIss g t (some d) a v up) s c l
      ((s.fresh.2.spadWrite rp.id ((c.st.fibre l).sea a up.off).toNat x).newAcc (spadLand rp d up a s c l (atomWords t) (4 * atomWords t)
        (atomDo (.rmw op t (BitVec.ofNat 64 ((c.st.fibre l).src (atomPos t) v)))
          (rp.spadRead ((c.st.fibre l).sea a up.off).toNat (4 * atomWords t))).1))
      (((c.st.fibre l).setPend ((List.range (atomWords t)).map (d.toNat + ·))).seen s.gtime) 1 := by
  refine acted_of_issueSt (f := atomsLane op t (some d) a v up) (tg := none) (fun _ => rfl) free one ?_
  have mine' : s.fresh.2.myRope c.who = some rp := mine
  unfold atomsLane
  simp only [mine', check, writes, State.spadWrite_gtime]
  rfl

theorem atoms_silent (one : c.lanes g = [l]) (mine : s.myRope c.who = some rp) (free : Free s c (atomsIss g t none a v up))
    (check : scratchCheck rp.spadA (4 * atomWords t) ((c.st.fibre l).sea a up.off) = none)
    (writes : (atomDo (.rmw op t (BitVec.ofNat 64 ((c.st.fibre l).src (atomPos t) v)))
      (rp.spadRead ((c.st.fibre l).sea a up.off).toNat (4 * atomWords t))).2 = some x) :
    Acted (.atoms g op t none a v up) (atomsIss g t none a v up) s c l
      (s.fresh.2.spadWrite rp.id ((c.st.fibre l).sea a up.off).toNat x) ((c.st.fibre l).seen s.gtime) 0 := by
  refine acted_of_issueSt (f := atomsLane op t none a v up) (tg := none) (fun _ => rfl) free one ?_
  have mine' : s.fresh.2.myRope c.who = some rp := mine
  unfold atomsLane
  simp only [mine', check, writes, State.spadWrite_gtime]
  rfl

end

/-- Settles O19: one lane of each word, and the laws of a memory's cells for the scratchpad's. -/
theorem scratchpadWords : Obligations.ScratchpadWords := by
  refine ⟨fun g w d a v up s c l rp one mine => ⟨lds_acted one mine, sts_acted one mine, ?_, ?_⟩, fun s r rp o b here wf => ?_⟩
  · exact fun op t free check x writes => atoms_result one mine free check writes
  · exact fun op t free check x writes => atoms_silent one mine free check writes
  · obtain ⟨rope, hbm, host, sv⟩ := State.spadWrite_rope here o b
    exact ⟨_, rope, cellsWrite_wf b o wf, cellsRead_cellsWrite_same wf o b, fun _ _ apart => cellsRead_cellsWrite_apart wf apart, hbm, host, sv⟩

/-! ### Global atomics (R277 to R280) -/

/-- The fibre of an atomic that has started: its result's registers are pending, where it has a result. -/
def Fibre.atomPend (f : Fibre) (n : Nat) : Option (BitVec 8) → Fibre
  | some y => f.setPend ((List.range n).map (y.toNat + ·))
  | none => f

theorem atom_acted {g : Guard} {a : Src} {up : MemUp} {s u : State} {c : Cx} {l n : Nat} {x : Xl} {ins : Instr} {r : Fibre → AtomReq}
    {d : Option (BitVec 8)} {i : Iss} (run : ∀ s, exec ins s = issueTry i (atomLane r d n a up) s) (hg : i.g = g) (free : Free s c i)
    (one : c.lanes g = [l]) (user : c.who.isSup = false)
    (check : globalCheck .atomic (atomSize (r (c.st.fibre l))) ((c.st.fibre l).gea a up.off) = none)
    (early : (s.atLane c l).early { accessOf s c l a up (atomSize (r (c.st.fibre l))) (.atom (r (c.st.fibre l)) d.isNone) with
      wd := d.map fun y => (y.toNat, n), tag := d.map fun _ => s.nextId } true = (u, .ok x)) :
    Acted ins i s c l ((u.newAcc { accessOf s c l a up (atomSize (r (c.st.fibre l))) (.atom (r (c.st.fibre l)) d.isNone) with
        wd := d.map fun y => (y.toNat, n), tag := d.map fun _ => s.nextId, xl := some x }).as s.agent)
      ((c.st.fibre l).atomPend n d) (if d.isSome then 1 else 0) := by
  refine acted_of_issueTry (f := atomLane r d n a up) (tg := none) run free (hg ▸ one) ?_
  unfold accessOf at early ⊢
  unfold atomLane
  simp only [check, user, Bool.false_eq_true, if_false]
  rw [show (s.atLane c l).ctxOf c.who = s.ctxOf c.who from rfl, early]
  cases d <;> rfl

theorem atomNew_add_ui32 (a b : Nat) : atomNew .add .ui32 a b = (a + b) % 2 ^ 32 := vIadd_scalar rfl a b

theorem atomDo_add_ui32 (a b : BitVec 32) :
    (atomDo (.rmw .add .ui32 (b.setWidth 64)) (leBytes 4 a.toNat)).2 = some (leBytes 4 (a + b).toNat) := by
  have old : leNat (leBytes 4 a.toNat) = a.toNat := by rw [leNat_leBytes]; exact Nat.mod_eq_of_lt a.isLt
  have wide : (b.setWidth 64).toNat = b.toNat := by rw [BitVec.toNat_setWidth]; exact Nat.mod_eq_of_lt (by omega)
  show some (leBytes 4 (atomNew .add .ui32 _ _)) = _
  rw [old, wide, atomNew_add_ui32, BitVec.toNat_add]

/-- Settles O20: ATOM and CAS are the same lane with different requests; what an atomic makes of the bytes is `atomDo` by its cases. -/
theorem atomicsStart : Obligations.AtomicsStart := by
  refine ⟨fun g a b c' up s c l u x ins req d n uses form => ?_, fun _ _ _ _ => ⟨rfl, rfl⟩, fun _ _ _ _ => rfl, atomDo_add_ui32, fun _ _ => rfl⟩
  rcases form with ⟨op, t, rfl, rfl, rfl, rfl⟩ | ⟨w, d', rfl, rfl, rfl, rfl, rfl⟩
  · intro i free one user check acc early
    exact atom_acted (ins := .atom g op t d a b up) (r := fun f => .rmw op t (BitVec.ofNat 64 (f.src (atomPos t) b))) (fun _ => rfl) rfl free one user check early
  · intro i free one user check acc early
    exact atom_acted (ins := .cas g w d' a b c' up) (d := some d') (r := fun f => .cas (widthBytes w) (bytesOfWords (f.srcWords (Width.words w) b))
      (bytesOfWords (f.srcWords (Width.words w) c'))) (fun _ => rfl) rfl free one user check early

end Sys2Proof.Machine
end

section
/-! SUPPORT. Fences, line locks, write-back and invalidation of lines, prefetch (R223, R224, R238, R276, R281 to R284). -/

namespace Sys2Proof.Machine

/-! ### FENCE (R238, R281) -/

/-- The issue of FENCE. -/
def fenceIss (g : Guard) : Iss := { len := 8, g := g, uses := [], commit := true }

theorem fence_acted {g : Guard} {sc : Scope} {s : State} {c : Cx} {l : Nat} (one : c.lanes g = [l]) (free : Free s c (fenceIss g))
    (starts : (sc = .fib ∨ narrow sc = true) ∨ s.widePush (c.who.lane l) = none) (complete : s.fenced (c.who.lane l) sc = true) :
    Acted (.fence g sc) (fenceIss g) s c l s.fresh.2 (c.st.fibre l) 0 := by
  have tried : s.fenceTry ((c.lanes g).map c.who.lane) sc = (s, true) := by
    unfold State.fenceTry
    rcases starts with (rfl | near) | none
    · simp [one, complete]
    · simp [near, one, complete]
    · simp [one, none, complete]
  obtain ⟨t, run, moved⟩ := issueSt_one (f := fun _ _ s _ fb => ⟨s, .ok fb, 0⟩) (tg := none) free one rfl
  refine ⟨t, ?_, moved⟩
  show execFence g sc s = _
  have stands : s.cx? 8 = some c := free.ready.stands
  have goes : s.stalls c { len := 8, g := g, uses := [], commit := true } = false := free.free
  unfold execFence
  simp only [stands, goes, Bool.false_eq_true, if_false, tried]
  exact run

/-! ### LOCKL and UNLKL (R282) -/

section
variable {g : Guard} {d : Dst} {a : Src} {off : BitVec 32} {s u : State} {c : Cx} {l ctx : Nat} {x : Xl}

/-- The issue of LOCKL and UNLKL. -/
def lockIss (g : Guard) (d : Dst) (a : Src) : Iss := { len := 16, g := g, uses := useD 1 d ++ useS 2 a, commit := true }

theorem lockl_acted (one : c.lanes g = [l]) (process : s.ctxOf c.who = some ctx) (range : (c.st.fibre l).gea a off < 2 ^ 54)
    (free : Free s c (lockIss g d a))
    (translates : (s.atLane c l).translate (clusterOf c.who.core) ctx ((c.st.fibre l).gea a off) .load true = (u, .ok x)) :
    Acted (.lockl g d a off) (lockIss g d a) s c l ((u.lockLine ctx x).1.as s.agent) ((c.st.fibre l).dst false d (u.lockLine ctx x).2) 0 := by
  refine acted_of_issueTry (f := fun c _ s _ fb => locklLane d a off c s fb) (tg := none) (fun _ => rfl) free one ?_
  unfold locklLane
  rw [show (s.atLane c l).ctxOf c.who = some ctx from process]
  simp only [Nat.not_le.2 range, if_false, translates]
  rfl

theorem unlkl_acted (one : c.lanes g = [l]) (process : s.ctxOf c.who = some ctx) (range : (c.st.fibre l).gea a off < 2 ^ 54)
    (free : Free s c (lockIss g d a)) (names : (s.atLane c l).canonical (clusterOf c.who.core) ctx ((c.st.fibre l).gea a off) = (u, .ok x)) :
    Acted (.unlkl g d a off) (lockIss g d a) s c l ((u.unlockLine ctx x.line).1.as s.agent)
      ((c.st.fibre l).dst false d (u.unlockLine ctx x.line).2) 0 := by
  refine acted_of_issueTry (f := fun c _ s _ fb => unlklLane d a off c s fb) (tg := none) (fun _ => rfl) free one ?_
  unfold unlklLane
  rw [show (s.atLane c l).ctxOf c.who = some ctx from process]
  simp only [Nat.not_le.2 range, if_false, names]
  rfl

/-! ### CWB and CINV (R283, R284) -/

/-- The issue of CWB and CINV. -/
def cacheIss (g : Guard) (a : Src) : Iss := { len := 16, g := g, uses := useS 2 a, commit := true, access := true }

theorem cacheLane_line {inv : Bool} {v : State} (process : s.ctxOf c.who = some ctx) (range : (c.st.fibre l).gea a off < 2 ^ 54)
    (names : (s.atLane c l).canonical (clusterOf c.who.core) ctx ((c.st.fibre l).gea a off) = (u, .ok x))
    (window : (u.window? x.cctx x.cva).isSome = false) (cached : u.isDirect x false = false) (closed : u.lineOpen (c.who.lane l) x.line = false)
    (acts : (if inv then u.cinvLine (c.who.lane l) ctx ((c.st.fibre l).gea a off) x else some (u.cwbLine (c.who.lane l) x.line)) = some v) :
    cacheLane inv a off c (s.atLane c l) l (c.st.fibre l) = .ok ⟨v, .ok ((c.st.fibre l).seen v.gtime), 0⟩ := by
  unfold cacheLane
  rw [show (s.atLane c l).ctxOf c.who = some ctx from process]
  simp only [Nat.not_le.2 range, if_false, names, window, cached, closed, Bool.or_self, Bool.false_eq_true, acts]

end

/-! ### PFCH (R276) -/

/-- One lane of PFCH, as the model runs it. -/
def pfchLane (l2 wr : Bool) (a : Src) (off : BitVec 32) (c : Cx) (_tag : Nat) (s : State) (_l : Nat) (fb : Fibre) : LaneFx :=
  let (n, s) := s.pick
  ⟨if n = 0 then s else s.prefetch c.who (fb.gea a off) l2 wr, .ok fb, 0⟩

theorem pfch_unchosen {g : Guard} {l2 wr : Bool} {a : Src} {off : BitVec 32} {s : State} {c : Cx} {l : Nat} (one : c.lanes g = [l])
    (free : Free s c { len := 16, g := g, uses := useS 2 a }) (unchosen : s.picks.headD 0 = 0) :
    Acted (.pfch g l2 wr a off) { len := 16, g := g, uses := useS 2 a } s c l { s.fresh.2 with picks := s.picks.tail } (c.st.fibre l) 0 := by
  refine acted_of_issueSt (f := pfchLane l2 wr a off) (tg := none) (fun _ => rfl) free one ?_
  have pick : s.fresh.2.pick = (0, { s.fresh.2 with picks := s.picks.tail }) := Prod.ext unchosen rfl
  unfold pfchLane
  simp only [pick, if_true]
  rfl

/-! ### Locks and their quota (R223, R224) -/

section
variable {s : State} {ctx : Nat} {x : Xl} {k : Context}

theorem lockLine_held (cached : s.isDirect x false = false) (window : (s.window? x.cctx x.cva).isSome = false)
    (held : s.locks.contains (ctx, x.line) = true) : s.lockLine ctx x = (s, 1) := by
  unfold State.lockLine
  simp only [cached, window, held, Bool.or_self, Bool.false_eq_true, if_false, if_true]

theorem lockLine_quota (here : s.ctx? ctx = some k) (cached : s.isDirect x false = false) (window : (s.window? x.cctx x.cva).isSome = false)
    (fresh : s.locks.contains (ctx, x.line) = false) (full : k.lquota ≤ k.locks) : s.lockLine ctx x = (s, 2) := by
  unfold State.lockLine
  simp only [cached, window, fresh, here, full, Bool.or_self, Bool.false_eq_true, if_false, if_true]

theorem lockLine_taken (here : s.ctx? ctx = some k) (cached : s.isDirect x false = false) (window : (s.window? x.cctx x.cva).isSome = false)
    (fresh : s.locks.contains (ctx, x.line) = false) (quota : k.locks < k.lquota)
    (room : (((s.locks.map Prod.snd).filter fun y => decide (sliceOf y = sliceOf x.line ∧ y ≠ x.line)).eraseDups).length < 12288) :
    ∃ t, s.lockLine ctx x = (t, 0) ∧ t.locks.contains (ctx, x.line) = true ∧ (t.ctx? ctx).map Context.locks = some (k.locks + 1) := by
  have taken : s.lockLine ctx x = ({ (s.ensureHome x.line x.lineLoc x.key x.own).setCtx { k with locks := k.locks + 1 } with
      locks := (s.ensureHome x.line x.lineLoc x.key x.own).locks ++ [(ctx, x.line)] }, 0) := by
    unfold State.lockLine
    simp only [cached, window, fresh, here, Nat.not_le.2 quota, Nat.not_le.2 room, Bool.or_self, Bool.false_eq_true, if_false]
  refine ⟨_, taken, by simp, ?_⟩
  show (((s.ensureHome x.line x.lineLoc x.key x.own).setCtx { k with locks := k.locks + 1 }).ctx? ctx).map _ = _
  rw [State.ctx?_setCtx, if_pos (show k.no = ctx from lookupBy_key here)]
  rfl

theorem unlockLine_released {t : State} {n : Nat} (held : t.locks.contains (ctx, x.line) = true) (count : (t.ctx? ctx).map Context.locks = some (n + 1)) :
    ∃ v, t.unlockLine ctx x.line = (v, 0) ∧ v.locks.contains (ctx, x.line) = false ∧ (v.ctx? ctx).map Context.locks = some n := by
  obtain ⟨k, here, locks⟩ := Option.map_eq_some_iff.1 count
  have released : t.unlockLine ctx x.line =
      (({ t with locks := t.locks.filter fun k => decide (k ≠ (ctx, x.line)) } : State).setCtx { k with locks := k.locks - 1 }, 0) := by
    unfold State.unlockLine
    rw [if_pos held]
    dsimp only
    rw [show ({ t with locks := t.locks.filter fun k => decide (k ≠ (ctx, x.line)) } : State).ctx? ctx = some k from here]
  refine ⟨_, released, by simp [State.setCtx], ?_⟩
  rw [State.ctx?_setCtx, if_pos (show k.no = ctx from lookupBy_key here)]
  simp [locks]

end

/-- Settles O21: the words by their lanes, and a lock's life by the two operations on the list of locks. -/
theorem fencesLocksAndLines : Obligations.FencesLocksAndLines := by
  constructor
  · intro g a off d s c l ctx one process
    refine ⟨?_, ?_, fun range => ⟨?_, ?_, ?_⟩, ?_⟩
    · rintro sc (rfl | rfl | rfl) i free complete
      · exact fence_acted one free (.inl (.inl rfl)) complete
      · exact fence_acted one free (.inl (.inr rfl)) complete
      · exact fence_acted one free (.inl (.inr rfl)) complete
    · intro sc _ i free push complete
      exact fence_acted one free (.inr push) complete
    · intro u x i free translates
      exact lockl_acted one process range free translates
    · intro u x i free names
      exact unlkl_acted one process range free names
    · intro u x i free names window cached closed
      refine ⟨?_, fun v line => ?_⟩
      · exact acted_of_issueTry (f := fun c _ s l fb => cacheLane false a off c s l fb) (tg := none) (fun _ => rfl) free one
          (cacheLane_line process range names window cached closed rfl)
      · exact acted_of_issueTry (f := fun c _ s l fb => cacheLane true a off c s l fb) (tg := none) (fun _ => rfl) free one
          (cacheLane_line process range names window cached closed line)
    · intro l2 wr i free unchosen
      exact pfch_unchosen one free unchosen
  · intro s ctx x k here cached window
    refine ⟨lockLine_held cached window, fun fresh quota room => ?_, fun fresh => lockLine_quota here cached window fresh, fun fresh => ?_⟩
    · obtain ⟨t, lock, held, count⟩ := lockLine_taken here cached window fresh quota room
      exact ⟨t, lock, held, count, unlockLine_released held count⟩
    · unfold State.unlockLine
      rw [fresh]
      rfl

end Sys2Proof.Machine
end

section
/-! SUPPORT. Timelines, barrier words and tile controls as words reach them (R241, R310, R311, R341 to R347). -/

namespace Sys2Proof.Machine

/-! ### Phases of a barrier word (R311) -/

theorem BarWord.arrive_before {w : BarWord} (more : 1 < w.due) : w.arrive = { w with due := w.due - 1 } := by
  rw [BarWord.arrive, if_neg (by omega), BarWord.close, if_neg (by dsimp only; omega)]

theorem BarWord.arrive_last {w : BarWord} (last : w.due = 1) (none : w.bytes = 0) :
    w.arrive = { w with due := w.quota, gen := (w.gen + 1) % 65536 } := by
  rw [BarWord.arrive, if_neg (by omega), BarWord.close, if_pos ⟨by dsimp only; omega, none⟩]

theorem BarWord.arrive_bytes {w : BarWord} (last : w.due = 1) (some_ : w.bytes ≠ 0) : w.arrive = { w with due := 0 } := by
  rw [BarWord.arrive, if_neg (by omega), BarWord.close, if_neg fun h => some_ h.2, last]

/-! ### TLWAIT, TLREAD, TCFG (R341, R342, R347) -/

theorem State.landLater_fibre (u : State) (c : Cx) (l tag : Nat) (wd : Option (Nat × Nat)) (b : List Byte) (pd : Option (Num4 × Bool)) (done : Bool)
    (w : Who) (k : Nat) : (u.landLater c l tag wd b pd done).fibre w k = u.fibre w k := State.newAcc_fibre _ _ _ _

theorem tlwait_acts (g : Guard) (tl : BitVec 3) (n : Src) :
    Acts (.tlwait g tl n) (engIss g (useS 1 n)) (fun _ _ _ => True) (fun tag c u l => u.landLater c l tag none [] none false)
      (fun _ c l => { c.st.fibre l with wait := some (.tl tl.toNat (BitVec.ofNat 32 ((c.st.fibre l).src .b32 n))) }) 1 := by
  intro s c free _
  exact issueSt_passes (f := tlwaitLane tl n) (tgt := fun _ => none) (n := 1) (Inv := fun _ => True) free trivial
    (fun l _ => lane_of_fibres (fun u k => State.landLater_fibre ..) (fun u => State.newAcc_hasStrand) rfl) fun _ _ _ _ _ => rfl

/-- The two halves of a timeline that TLREAD reads (R342). -/
def State.tlBytes (u : State) (w : Who) (tl : BitVec 3) (n : Nat) : List Byte :=
  let t := ((u.myRope w).map fun r => r.tl tl.toNat).getD ⟨0, 0, []⟩
  leBytes (4 * n) (t.value.toNat + 2 ^ 32 * t.issued.toNat)

/-- One lane of TLREAD, as the model runs it. -/
def tlreadLane (n : Nat) (d : BitVec 8) (tl : BitVec 3) (c : Cx) (tag : Nat) (s : State) (l : Nat) (fb : Fibre) : LaneFx :=
  let t := ((s.myRope c.who).map fun r => r.tl tl.toNat).getD ⟨0, 0, []⟩
  ⟨s.landLater c l tag (some (d.toNat, n)) (leBytes (4 * n) (t.value.toNat + 2 ^ 32 * t.issued.toNat)) none true,
    .ok (fb.setPend ((List.range n).map (d.toNat + ·))), 1⟩

theorem tlread_acts (g : Guard) (b64 : Bool) (d : BitVec 8) (tl : BitVec 3) :
    Acts (.tlread g b64 d tl) (engIss g (useW (nw b64) (some d))) (fun s c _ => (s.myRope c.who).isSome = true)
      (fun tag c u l => u.landLater c l tag (some (d.toNat, nw b64)) (u.tlBytes c.who tl (nw b64)) none true)
      (fun _ c l => (c.st.fibre l).setPend ((List.range (nw b64)).map (d.toNat + ·))) 1 := by
  intro s c free _
  exact issueSt_passes (f := tlreadLane (nw b64) d tl) (tgt := fun _ => none) (n := 1) (Inv := fun _ => True) free trivial
    (fun l _ => lane_of_fibres (fun u k => State.landLater_fibre ..) (fun u => State.newAcc_hasStrand) rfl) fun _ _ _ _ _ => rfl

/-- One lane of TCFG, as the model runs it. -/
def tcfgLane (m : BitVec 16) (a : Src) (c : Cx) (tag : Nat) (s : State) (l : Nat) (fb : Fibre) : LaneFx :=
  match s.myRope c.who with
  | none => ⟨s, .fault fb (illegal .operand), 0⟩
  | some rp =>
    let v := fb.src .b32 a
    let ts := setBits 16 m.toNat
    if ts.any fun t => decide (rp.ntiles ≤ t) || tcBad v then ⟨s, .fault fb (illegal .reserved), 0⟩
    else
      let s := ts.foldl (fun (s : State) t => s.setTc rp.id t (BitVec.ofNat 32 v)) s
      ⟨s.landLater c l tag none [] none true, .ok fb, 1⟩

theorem tcfg_acted {g : Guard} {m : BitVec 16} {a : Src} {s : State} {c : Cx} {l : Nat} {rp : Rope} (free : Free s c (engIss g (useS 1 a)))
    (one : c.lanes g = [l]) (mine : s.myRope c.who = some rp) (tiles : ∀ t ∈ setBits 16 m.toNat, t < rp.ntiles)
    (good : tcBad ((c.st.fibre l).src .b32 a) = false) :
    Acted (.tcfg g m a) (engIss g (useS 1 a)) s c l
      (((setBits 16 m.toNat).foldl (fun (u : State) t => u.setTc rp.id t (BitVec.ofNat 32 ((c.st.fibre l).src .b32 a))) s.fresh.2).landLater
        c l s.nextId none [] none true) (c.st.fibre l) 1 := by
  refine acted_of_issueSt (f := tcfgLane m a) (tg := none) (fun _ => rfl) free one ?_
  have ok : ((setBits 16 m.toNat).any fun t => decide (rp.ntiles ≤ t) || tcBad ((c.st.fibre l).src .b32 a)) = false := by
    rw [List.any_eq_false]
    intro t ht
    simp [good, tiles t ht]
  unfold tcfgLane
  rw [show s.fresh.2.myRope c.who = some rp from mine]
  simp only [ok, Bool.false_eq_true, if_false]
  rfl

/-! ### BARI, BARA, BAREX, BARW (R344, R345) -/

section
variable {g : Guard} {d : BitVec 8} {b x : Src} {p : Num4} {up : BarUp} {s : State} {c : Cx} {l : Nat} {r : BarRef}

/-- A barrier instruction of the only executing lane, whose word's place is r. -/
theorem barLane_at (place : s.barAt c.who (c.st.fibre l) b up = .ok r) (f : BarRef → LaneFx) :
    barLane b up c s.fresh.2 (c.st.fibre l) f = f r := by
  unfold barLane
  rw [show s.fresh.2.barAt c.who (c.st.fibre l) b up = .ok r from place]

theorem State.barUpdate_gtime (u : State) (r : BarRef) (f : BarWord → BarWord) : (u.barUpdate r f).gtime = u.gtime := State.spadWrite_gtime _ _ _ _

/-- One lane of BARI, as the model runs it. -/
def bariLane (b e : Src) (up : BarUp) (c : Cx) (_tag : Nat) (s : State) (_l : Nat) (fb : Fibre) : LaneFx :=
  barLane b up c s fb fun r =>
    let q := fb.src .b32 e
    if 65536 ≤ q then ⟨s, .fault fb (illegal .operand), 0⟩
    else ⟨s.barUpdate r (fun _ => { gen := 0, err := false, bytes := 0, due := q, quota := q }), .ok (fb.seen s.gtime), 0⟩

theorem bari_acted (one : c.lanes g = [l]) (place : s.barAt c.who (c.st.fibre l) b up = .ok r)
    (free : Free s c (engIss g (useS 1 b ++ useS 1 x))) (fits : (c.st.fibre l).src .b32 x < 65536) :
    Acted (.bari g b x up) (engIss g (useS 1 b ++ useS 1 x)) s c l
      (s.fresh.2.barUpdate r fun _ =>
        { gen := 0, err := false, bytes := 0, due := (c.st.fibre l).src .b32 x, quota := (c.st.fibre l).src .b32 x })
      ((c.st.fibre l).seen s.gtime) 0 := by
  refine acted_of_issueSt (f := bariLane b x up) (tg := none) (fun _ => rfl) free one ?_
  unfold bariLane
  rw [barLane_at place]
  simp only [Nat.not_le.2 fits, if_false]
  rfl

/-- One lane of BAREX, as the model runs it. -/
def barexLane (b n : Src) (up : BarUp) (c : Cx) (_tag : Nat) (s : State) (_l : Nat) (fb : Fibre) : LaneFx :=
  barLane b up c s fb fun r =>
    let k := fb.src .b32 n
    if 2 ^ 23 ≤ k then ⟨s, .fault fb (illegal .operand), 0⟩
    else ⟨s.barUpdate r (fun w => w.add k), .ok (fb.seen s.gtime), 0⟩

theorem barex_acted (one : c.lanes g = [l]) (place : s.barAt c.who (c.st.fibre l) b up = .ok r)
    (free : Free s c (engIss g (useS 1 b ++ useS 1 x))) (fits : (c.st.fibre l).src .b32 x < 2 ^ 23) :
    Acted (.barex g b x up) (engIss g (useS 1 b ++ useS 1 x)) s c l
      (s.fresh.2.barUpdate r fun w => w.add ((c.st.fibre l).src .b32 x)) ((c.st.fibre l).seen s.gtime) 0 := by
  refine acted_of_issueSt (f := barexLane b x up) (tg := none) (fun _ => rfl) free one ?_
  unfold barexLane
  rw [barLane_at place]
  simp only [Nat.not_le.2 fits, if_false]
  rfl

/-- One lane of BARA, as the model runs it. -/
def baraLane (d : BitVec 8) (b : Src) (up : BarUp) (c : Cx) (tag : Nat) (s : State) (l : Nat) (fb : Fibre) : LaneFx :=
  barLane b up c s fb fun r =>
    let s := s.landLater c l tag (some (d.toNat, 1)) (leBytes 4 (s.barRead r).gen) none true
    ⟨s.barUpdate r BarWord.arrive, .ok ((fb.setPend [d.toNat]).seen s.gtime), 1⟩

theorem bara_acted (one : c.lanes g = [l]) (place : s.barAt c.who (c.st.fibre l) b up = .ok r)
    (free : Free s c { engIss g (useW 1 (some d) ++ useS 1 b) with rel := true }) :
    Acted (.bara g d b up) { engIss g (useW 1 (some d) ++ useS 1 b) with rel := true } s c l
      ((s.fresh.2.landLater c l s.nextId (some (d.toNat, 1)) (leBytes 4 (s.barRead r).gen) none true).barUpdate r BarWord.arrive)
      (((c.st.fibre l).setPend [d.toNat]).seen s.gtime) 1 := by
  refine acted_of_issueSt (f := baraLane d b up) (tg := none) (fun _ => rfl) free one ?_
  unfold baraLane
  rw [barLane_at place]
  rfl

/-- One lane of BARW, as the model runs it. -/
def barwLane (p : Num4) (b ph : Src) (up : BarUp) (c : Cx) (tag : Nat) (s : State) (l : Nat) (fb : Fibre) : LaneFx :=
  barLane b up c s fb fun r =>
    ⟨s.landLater c l tag none [] none false, .ok { fb with wait := some (.bar r.rope r.off (fb.src .b32 ph % 65536) p) }, 1⟩

theorem barw_acted (one : c.lanes g = [l]) (place : s.barAt c.who (c.st.fibre l) b up = .ok r)
    (free : Free s c (engIss g (useS 1 b ++ useS 1 x))) :
    Acted (.barw g p b x up) (engIss g (useS 1 b ++ useS 1 x)) s c l (s.fresh.2.landLater c l s.nextId none [] none false)
      { c.st.fibre l with wait := some (.bar r.rope r.off ((c.st.fibre l).src .b32 x % 65536) p) } 1 := by
  refine acted_of_issueSt (f := barwLane p b x up) (tg := none) (fun _ => rfl) free one ?_
  unfold barwLane
  rw [barLane_at place]
  rfl

end

/-- Settles O22: a barrier word's phases by `arrive`, and each word by its lane. -/
theorem barrierPhases : Obligations.BarrierPhases := by
  constructor
  · intro w _ _
    refine ⟨BarWord.arrive_before, fun last none => ?_, fun last some_ => ?_⟩
    · rw [BarWord.arrive_last last none]
      exact ⟨rfl, rfl, rfl⟩
    · rw [BarWord.arrive_bytes last some_]
      exact ⟨rfl, rfl, rfl⟩
  · intro g d tl n
    exact ⟨tlwait_acts g tl n, fun b64 => tlread_acts g b64 d tl, fun m a s c l rp free one mine => tcfg_acted free one mine,
      fun b x p up s c l r one place => ⟨bari_acted one place, barex_acted one place, bara_acted one place, barw_acted one place⟩⟩

/-! ### SHPW, SHPR, CRPOP (R335, R336, R343) -/

section
variable {g : Guard} {i d : BitVec 8} {p : Num4} {s u : State} {c : Cx} {l : Nat} {rp : Rope} {x : Xl}

/-- The place n bytes on from a translated address. -/
def Xl.plus (x : Xl) (n : Nat) : Xl := { x with cva := x.cva + n, loc := shpwLane.locPlus x.loc n }

theorem State.foldl_as {α : Type} {f : State → α → State} {a : Doer} (comm : ∀ v q, (f v q).as a = f (v.as a) q) :
    ∀ (ps : List α) (v : State), (ps.foldl f v).as a = ps.foldl f (v.as a)
  | [], _ => rfl
  | q :: ps, v => by rw [List.foldl_cons, List.foldl_cons, State.foldl_as comm ps, comm]

theorem shpw_acted {op : ShpwOp} {j : Iss} (one : c.lanes g = [l]) (mine : s.myRope c.who = some rp) (range : rp.shapeVa i + 63 < 2 ^ 54)
    (hj : j = engIss g (match op with
      | .all q => useW 16 (some q)
      | .base a => useS 2 a)) (free : Free s c j)
    (early : (s.atLane c l).early { accOf (c.who.lane l) rp.ctx (rp.shapeVa i) 16 .shpw c.ip c.cl.hpc with order := .rel, tag := some s.nextId } true =
      (u, .ok x)) :
    Acted (.shpw g op i) j s c l
      (((c.st.fibre l).shapeParts op).foldl (fun (v : State) q => v.newAcc { accOf (c.who.lane l) rp.ctx (rp.shapeVa i) 16 .shpw c.ip c.cl.hpc with
        order := .rel, tag := some s.nextId, va := rp.shapeVa i + q.1, size := q.2.length, data := q.2, xl := some (x.plus q.1) }) (u.as s.agent))
      (c.st.fibre l) ((c.st.fibre l).shapeParts op).length := by
  subst hj
  have lane : shpwLane op i c s.nextId (s.atLane c l) l (c.st.fibre l) = .ok ⟨((c.st.fibre l).shapeParts op).foldl (fun (v : State) q =>
      v.newAcc { accOf (c.who.lane l) rp.ctx (rp.shapeVa i) 16 .shpw c.ip c.cl.hpc with
        order := .rel, tag := some s.nextId, va := rp.shapeVa i + q.1, size := q.2.length, data := q.2, xl := some (x.plus q.1) }) u,
      .ok (c.st.fibre l), ((c.st.fibre l).shapeParts op).length⟩ := by
    unfold shpwLane
    rw [show (s.atLane c l).myRope c.who = some rp from mine]
    simp only [Nat.not_le.2 range, if_false, early]
    rfl
  have acted := acted_of_issueTry (f := shpwLane op i) (tg := none) (ins := .shpw g op i) (fun _ => rfl) free one lane
  rwa [State.foldl_as (fun _ _ => rfl)] at acted

theorem shpr_acted (one : c.lanes g = [l]) (mine : s.myRope c.who = some rp) (range : rp.shapeVa i + 63 < 2 ^ 54)
    (free : Free s c (engIss g (useW 16 (some d))))
    (early : (s.atLane c l).early { accOf (c.who.lane l) rp.ctx (rp.shapeVa i) 16 (.ld .b128) c.ip c.cl.hpc with tag := some s.nextId } true =
      (u, .ok x)) :
    Acted (.shpr g d i) (engIss g (useW 16 (some d))) s c l
      ((List.range 4).foldl (fun (v : State) (k : Nat) => v.newAcc { accOf (c.who.lane l) rp.ctx (rp.shapeVa i) 16 (.ld .b128) c.ip c.cl.hpc with
        tag := some s.nextId, va := rp.shapeVa i + 16 * k, wd := some (d.toNat + 4 * k, 4), xl := some (x.plus (16 * k)) }) (u.as s.agent))
      ((c.st.fibre l).setPend ((List.range 16).map (d.toNat + ·))) 4 := by
  have lane : shprLane d i c s.nextId (s.atLane c l) l (c.st.fibre l) = .ok ⟨(List.range 4).foldl (fun (v : State) (k : Nat) =>
      v.newAcc { accOf (c.who.lane l) rp.ctx (rp.shapeVa i) 16 (.ld .b128) c.ip c.cl.hpc with
        tag := some s.nextId, va := rp.shapeVa i + 16 * k, wd := some (d.toNat + 4 * k, 4), xl := some (x.plus (16 * k)) }) u,
      .ok ((c.st.fibre l).setPend ((List.range 16).map (d.toNat + ·))), 4⟩ := by
    unfold shprLane
    rw [show (s.atLane c l).myRope c.who = some rp from mine]
    simp only [Nat.not_le.2 range, if_false, early]
    rfl
  have acted := acted_of_issueTry (f := shprLane d i) (tg := none) (ins := .shpr g d i) (fun _ => rfl) free one lane
  rwa [State.foldl_as (fun _ _ => rfl)] at acted

theorem execCrpop_fenced (one : c.lanes g = [l]) (free : Free s c (engIss g (useW 8 (some d))))
    (fenced : s.fenceTry [c.who.lane l] .sys = (s, true)) :
    exec (.crpop g d p) s = issueTry (engIss g (useW 8 (some d))) (crpopLane d p) s := by
  show execCrpop g d p s = _
  have lanes : (c.set (engIss g (useW 8 (some d)))).map c.who.lane = [c.who.lane l] := by
    rw [free.ready.set_eq_lanes, show (engIss g (useW 8 (some d))).g = g from rfl, one]
    rfl
  unfold execCrpop
  simp only [free.ready.stands, free.free, Bool.false_eq_true, if_false, lanes, fenced]

/-- CRPOP where its lane finds a record, or an empty ring. -/
theorem crpop_acted {b : List Byte} {n : PopRes} (one : c.lanes g = [l]) (mine : s.myRope c.who = some rp)
    (free : Free s c (engIss g (useW 8 (some d)))) (fenced : s.fenceTry [c.who.lane l] .sys = (s, true))
    (pops : (s.atLane c l).ringPop c.who.core rp.ctx = (u, n)) (found : n = .got b ∨ n = .empty ∧ b = []) :
    Acted (.crpop g d p) (engIss g (useW 8 (some d))) s c l
      ((u.as s.agent).landLater c l s.nextId (some (d.toNat, 8)) b (some (p, b ≠ [])) true)
      ((c.st.fibre l).setPend ((List.range 8).map (d.toNat + ·))) 1 := by
  have lane : crpopLane d p c s.nextId (s.atLane c l) l (c.st.fibre l) =
      .ok ⟨u.landLater c l s.nextId (some (d.toNat, 8)) b (some (p, b ≠ [])) true,
        .ok ((c.st.fibre l).setPend ((List.range 8).map (d.toNat + ·))), 1⟩ := by
    unfold crpopLane
    rw [show (s.atLane c l).myRope c.who = some rp from mine]
    dsimp only
    rw [pops]
    rcases found with rfl | ⟨rfl, rfl⟩ <;> rfl
  obtain ⟨t, run, moved⟩ := issueTry_one (f := crpopLane d p) (tg := none) free one lane
  exact ⟨t, (execCrpop_fenced one free fenced).trans run, moved⟩

end

/-- Settles O23: the words by their lanes, of a record whose line translates or a ring that answers. -/
theorem recordsAndTheRing : Obligations.RecordsAndTheRing := by
  intro g i d p s c l rp u x one mine
  refine ⟨fun range => ⟨?_, ?_⟩, ?_⟩
  · intro op j hj acc free early
    exact shpw_acted one mine range hj free early
  · intro j acc free early
    exact shpr_acted one mine range free early
  · intro j free fenced
    exact ⟨fun b pops => crpop_acted one mine free fenced pops (.inl rfl), fun pops => crpop_acted one mine free fenced pops (.inr ⟨rfl, rfl⟩)⟩

end Sys2Proof.Machine
end

section
/-! SUPPORT. Operations enter the task table (R157, R158, R323, R330 to R333) and the checks of tile operations (R332, R349 to R354). -/

namespace Sys2Proof.Machine

/-! ### Words that start operations -/

theorem exec_of_starts {ins : Instr} {i : Iss} (h : Starts ins i) (s : State) : exec ins s = startOp i ins s := by
  obtain ⟨g, d, x, y, b, w, u, t, copies | ⟨rfl, rfl⟩ | ⟨loads, rfl⟩ | ⟨tiles, rfl⟩⟩ := h
  · obtain ⟨rfl | rfl | rfl | rfl, rfl⟩ := copies <;> rfl
  · rfl
  · obtain rfl | rfl := loads <;> rfl
  · obtain rfl | rfl | ⟨_, _, _, _, _, rfl⟩ | ⟨_, _, rfl⟩ | ⟨_, _, rfl⟩ | ⟨_, rfl⟩ := tiles <;> rfl

/-- The lane of an untied operation whose checks pass and whose issue has not entered another (R330, R332). -/
theorem startLane_enters {i : Iss} {ins : Instr} {st : Starter} {s u : State} {c : Cx} {l sid : Nat} {r : RopeId} {rp rp' : Rope} {p : Pending}
    {fb : Fibre} {tag : Nat} (who : c.who = .strand r sid) (starter : starter? ins = some st) (untied : st.tie = none) (rope : s.rope? r = some rp)
    (builds : s.build rp fb (s.tcvtSeed r (sid * 32 + l)) ins = (u, .ok p)) (rope' : u.rope? r = some rp')
    (first : (u.ops.find? fun o => decide (o.rope = r ∧ o.owed = [(sid, tag)])) = none) :
    startLane i ins c tag s l fb = .ok ⟨(u.setRope (rp'.number p.tl).1).enterOp (rp'.number p.tl).1 (rp'.number p.tl).2
      { p with num := (rp'.number p.tl).2, owed := [(sid, tag)] }, .ok (fb.started ins (rp'.number p.tl).2), 1⟩ := by
  unfold startLane
  rw [who, starter]
  dsimp only
  rw [untied]
  dsimp only
  rw [rope]
  dsimp only
  rw [builds]
  dsimp only
  rw [rope']
  dsimp only
  rw [first]
  rfl

theorem operation_enters {ins : Instr} {i : Iss} {st : Starter} {s u : State} {c : Cx} {l sid : Nat} {r : RopeId} {rp rp' : Rope} {p : Pending}
    (starts : Starts ins i) (starter : starter? ins = some st) (untied : st.tie = none) (free : Free s c i) (one : c.lanes i.g = [l])
    (who : c.who = .strand r sid) (room : s.startStalls c i st = false) (rope : s.rope? r = some rp)
    (builds : (s.atLane c l).build rp (c.st.fibre l) (s.tcvtSeed r (sid * 32 + l)) ins = (u, .ok p)) (rope' : u.rope? r = some rp')
    (first : (u.ops.find? fun o => decide (o.rope = r ∧ o.owed = [(sid, s.nextId)])) = none) :
    Acted ins i s c l (((u.as s.agent).setRope (rp'.number p.tl).1).enterOp (rp'.number p.tl).1 (rp'.number p.tl).2
      { p with num := (rp'.number p.tl).2, owed := [(sid, s.nextId)] }) ((c.st.fibre l).started ins (rp'.number p.tl).2) 1 := by
  have seed : (s.atLane c l).tcvtSeed r (sid * 32 + l) = s.tcvtSeed r (sid * 32 + l) := State.fresh_tcvtSeed s r (sid * 32 + l)
  obtain ⟨t, run, moved⟩ := issueTry_one (f := startLane i ins) (tg := none) free one
    (startLane_enters who starter untied (s := s.atLane c l) rope (seed ▸ builds) rope' first)
  refine ⟨t, ?_, moved⟩
  rw [exec_of_starts starts]
  unfold startOp
  simp only [free.ready.stands, starter, room, Bool.false_eq_true, if_false]
  exact run

/-! ### A tie's round (R157, R158) -/

/-- A tie whose round has ended. -/
def Tie.cleared (t : Tie) : Tie := { t with signed := [], seeds := [], pending := none, second := [] }

theorem State.setTie_rope {s : State} {r : RopeId} {rp : Rope} (here : s.rope? r = some rp) (k : Nat) (t : Tie) :
    (s.setTie r k t).rope? r = some { rp with ties := rp.ties.set k t } := by
  unfold State.setTie
  rw [here]
  exact (State.rope?_setRope _ _ _).trans (if_pos (State.rope?_id here))

theorem tieCheck_waits {s : State} {r : RopeId} {k : Nat} (open_ : (s.tie r k).full = false) : s.tieCheck r k = s := by
  rw [State.tieCheck, if_neg (by simp [open_])]

theorem tieCheck_bare {s : State} {r : RopeId} {k : Nat} (full : (s.tie r k).full = true) (once : (s.tie r k).second = [])
    (bare : (s.tie r k).pending = none) : s.tieCheck r k = s.setTie r k (s.tie r k).cleared := by
  rw [State.tieCheck, if_pos full, State.tieComplete]
  simp only [once, bare, List.foldl_nil]
  rfl

theorem tieCheck_enters {s : State} {r : RopeId} {k : Nat} {rp : Rope} {p : Pending} (here : s.rope? r = some rp) (full : (s.tie r k).full = true)
    (once : (s.tie r k).second = []) (pending : (s.tie r k).pending = some p) :
    ∃ rp', (s.setTie r k (s.tie r k).cleared).rope? r = some rp' ∧ s.tieCheck r k = (s.setTie r k (s.tie r k).cleared).enterOp rp' p.num
      ((lookupBy Prod.fst (lowest (s.tie r k).expected (2 ^ 20)) (s.tie r k).seeds).elim p fun q => { p with kind := p.kind.withSeed q.2 }) := by
  have rope := State.setTie_rope here k (s.tie r k).cleared
  refine ⟨_, rope, ?_⟩
  unfold Tie.cleared at rope ⊢
  rw [State.tieCheck, if_pos full, State.tieComplete]
  simp only [once, pending, rope, List.foldl_nil]
  cases lookupBy Prod.fst (lowest (s.tie r k).expected (2 ^ 20)) (s.tie r k).seeds <;> rfl

/-- Settles O24: the lane of an untied word enters one operation; a tie's check enters its round's, once. -/
theorem operationsStart : Obligations.OperationsStart :=
  ⟨fun _ _ _ _ _ _ _ _ _ _ _ _ starts starter untied free one who room rope builds rope' first =>
      operation_enters starts starter untied free one who room rope builds rope' first,
    fun _ _ _ _ here => ⟨tieCheck_waits, tieCheck_bare, fun _ full once pending => tieCheck_enters here full once pending⟩⟩

/-! ### Checks of tile operations (R332, R349 to R354) -/

theorem failIf_passes {α : Type} {s : State} {b : Bool} {t : Trap} (f : State → Unit → State × Bld α) (pass : b = false) :
    andThen (failIf s b t) f = f s () := by
  subst pass
  rfl

theorem noTile_own {r : Rope} {l : List Num4} (own : ∀ i ∈ l, i.toNat < r.ntiles) : r.noTile l = false := by
  rw [Rope.noTile, List.any_eq_false]
  intro i hi
  simpa using own i hi

/-- A tile operation without a record: its checks are those of `buildTile` alone (R332). -/
theorem build_of_buildTile {s : State} {r : Rope} {f : Fibre} {x : DWord} {ins : Instr} {u : TileUp} {w : Src} {d : Option (BitVec 8)} {k : OpKind}
    (tile : tileUp? ins = some (u, w, d)) (copy : copyUp? ins = none) (wb : u.wb = false) (bo : u.bo = false)
    (builds : s.buildTile r f x ins = (s, .ok k)) :
    s.build r f x ins = (s, .ok { kind := k, tl := 4, num := 0, wrec := u.wrec, wait := none, word := wordOf ins, shape := u.shp.toNat, owed := [] }) := by
  have need : s.needRope r u.bo u.brope = (s, .ok r) := by
    unfold State.needRope State.ropeField
    rw [bo]
    rfl
  have go : State.build.go s r f x ins =
      (s, .ok { kind := k, tl := 4, num := 0, wrec := u.wrec, wait := none, word := wordOf ins, shape := u.shp.toNat, owed := [] }) := by
    unfold State.build.go
    split
    case _ => cases copy
    case _ => cases copy
    case _ => cases copy
    case _ => cases copy
    case _ => cases copy
    case _ =>
      rw [tile]
      dsimp only
      rw [need]
      simp only [andThen]
      rw [builds]
      simp only [wb]
      rfl
  unfold State.build
  rw [go]

section
variable {s : State} {r : Rope} {f : Fibre} {x : DWord} {g : Guard} {d : Option (BitVec 8)} {w : Src} {u : TileUp}

theorem buildTile_tzero (own : ∀ i ∈ [u.td], i.toNat < r.ntiles) :
    s.buildTile r f x (.tzero g d w u) = (s, .ok (.tile (.tzero u.td.toNat (r.tc u.td)))) :=
  failIf_passes _ (noTile_own own)

theorem buildTile_mma {na nb nacc sat acc16 : Bool} (own : ∀ i ∈ [u.td, u.ta, u.tb, u.tq], i.toNat < r.ntiles) (da : u.td ≠ u.ta) (db : u.td ≠ u.tb)
    (fmt : mmaAcc (r.tc u.ta).fmt (r.tc u.tb).fmt acc16 = some (r.tc u.td).fmt) (qfmt : (r.tc u.tq).fmt = (r.tc u.td).fmt)
    (aq : (r.tc u.ta).rows = (r.tc u.tq).rows) (ad : (r.tc u.ta).rows = (r.tc u.td).rows) (bq : (r.tc u.tb).rows = (r.tc u.tq).cols)
    (bd : (r.tc u.tb).rows = (r.tc u.td).cols) (ab : (r.tc u.ta).cols = (r.tc u.tb).cols) :
    s.buildTile r f x (.mma g na nb nacc sat acc16 d w u) = (s, .ok (.tile (.mma na nb nacc sat acc16 u.td.toNat u.ta.toNat u.tb.toNat u.tq.toNat
      (r.tc u.td) (r.tc u.ta) (r.tc u.tb) (r.tc u.tq)))) := by
  have tiles : (r.noTile [u.td, u.ta, u.tb, u.tq] || u.td == u.ta || u.td == u.tb) = false := by simp [noTile_own own, da, db]
  have formats : (match mmaAcc (r.tc u.ta).fmt (r.tc u.tb).fmt acc16 with
      | none => true
      | some x => (r.tc u.td).fmt != x || (r.tc u.tq).fmt != x) = false := by simp [fmt, qfmt]
  have shapes : ((r.tc u.ta).rows != (r.tc u.tq).rows || (r.tc u.ta).rows != (r.tc u.td).rows || (r.tc u.tb).rows != (r.tc u.tq).cols ||
      (r.tc u.tb).rows != (r.tc u.td).cols || (r.tc u.ta).cols != (r.tc u.tb).cols) = false := by simp [← aq, ← ad, ← bq, ← bd, ab]
  exact (failIf_passes _ tiles).trans ((failIf_passes _ formats).trans (failIf_passes _ shapes))

theorem buildTile_tew {op : TewOp} {sat : Bool} (own : ∀ i ∈ [u.td, u.ta, u.tb], i.toNat < r.ntiles) (dfmt : (r.tc u.td).fmt = (r.tc u.ta).fmt)
    (bfmt : (r.tc u.tb).fmt = (r.tc u.ta).fmt) (float : (r.tc u.ta).fmt < 4 ∨ (r.tc u.ta).fmt = 16) (dr : (r.tc u.td).rows = (r.tc u.ta).rows)
    (dc : (r.tc u.td).cols = (r.tc u.ta).cols) (br : (r.tc u.tb).rows = (r.tc u.ta).rows) (bc : (r.tc u.tb).cols = (r.tc u.ta).cols) :
    s.buildTile r f x (.tew g op sat d w u) =
      (s, .ok (.tile (.tew op sat u.td.toNat u.ta.toNat u.tb.toNat (r.tc u.td) (r.tc u.ta) (r.tc u.tb)))) := by
  have formats : ((r.tc u.td).fmt != (r.tc u.ta).fmt || (r.tc u.tb).fmt != (r.tc u.ta).fmt ||
      !(decide ((r.tc u.ta).fmt < 4) || (r.tc u.ta).fmt == 16)) = false := by
    rcases float with float | float <;> simp [dfmt, bfmt, float]
  have shapes : ((r.tc u.td).rows != (r.tc u.ta).rows || (r.tc u.td).cols != (r.tc u.ta).cols || (r.tc u.tb).rows != (r.tc u.ta).rows ||
      (r.tc u.tb).cols != (r.tc u.ta).cols) = false := by simp [dr, dc, br, bc]
  exact (failIf_passes _ (noTile_own own)).trans ((failIf_passes _ formats).trans (failIf_passes _ shapes))

theorem buildTile_tcvt {sat : Bool} {rc : Rc} (own : ∀ i ∈ [u.td, u.ta], i.toNat < r.ntiles) (a14 : (r.tc u.ta).fmt ≠ 14)
    (a15 : (r.tc u.ta).fmt ≠ 15) (d14 : (r.tc u.td).fmt ≠ 14) (d15 : (r.tc u.td).fmt ≠ 15) (rows : (r.tc u.td).rows = (r.tc u.ta).rows)
    (cols : (r.tc u.td).cols = (r.tc u.ta).cols) : s.buildTile r f x (.tcvt g sat rc d w u) =
      (s, .ok (.tile (.tcvt sat (f.rc rc) u.td.toNat u.ta.toNat (r.tc u.td) (r.tc u.ta) x false))) := by
  have formats : ((r.tc u.ta).fmt == 14 || (r.tc u.ta).fmt == 15 || (r.tc u.td).fmt == 14 || (r.tc u.td).fmt == 15) = false := by
    simp [a14, a15, d14, d15]
  have shapes : ((r.tc u.td).rows != (r.tc u.ta).rows || (r.tc u.td).cols != (r.tc u.ta).cols) = false := by simp [rows, cols]
  exact (failIf_passes _ (noTile_own own)).trans ((failIf_passes _ formats).trans (failIf_passes _ shapes))

theorem buildTile_tred {op : TredOp} (own : ∀ i ∈ [u.td, u.ta], i.toNat < r.ntiles) (fmt : (r.tc u.td).fmt = tredFmt (r.tc u.ta).fmt)
    (rows : (r.tc u.td).rows = (r.tc u.ta).rows) (cols : (r.tc u.td).cols = 1) :
    s.buildTile r f x (.tred g op d w u) = (s, .ok (.tile (.tred op u.td.toNat u.ta.toNat (r.tc u.td) (r.tc u.ta)))) := by
  have formats : ((r.tc u.td).fmt != tredFmt (r.tc u.ta).fmt) = false := by simp [fmt]
  have shapes : ((r.tc u.td).rows != (r.tc u.ta).rows || (r.tc u.td).cols != 1) = false := by simp [rows, cols]
  exact (failIf_passes _ (noTile_own own)).trans ((failIf_passes _ formats).trans (failIf_passes _ shapes))

theorem buildTile_trow (own : ∀ i ∈ [u.td, u.ta], i.toNat < r.ntiles) (fmt : (r.tc u.td).fmt = (r.tc u.ta).fmt)
    (cols : (r.tc u.td).cols = (r.tc u.ta).cols) (sc : (r.tc u.td).sc = (r.tc u.ta).sc)
    (src : u.srow.toNat + u.cnt.toNat + 1 ≤ (r.tc u.ta).rows) (dst : u.drow.toNat + u.cnt.toNat + 1 ≤ (r.tc u.td).rows) :
    s.buildTile r f x (.trow g d w u) = (s, .ok (.tile (.trow u.td.toNat u.ta.toNat (r.tc u.td) (r.tc u.ta) u.drow.toNat u.srow.toNat
      (u.cnt.toNat + 1)))) := by
  have formats : ((r.tc u.td).fmt != (r.tc u.ta).fmt || (r.tc u.td).cols != (r.tc u.ta).cols || (r.tc u.td).sc != (r.tc u.ta).sc) = false := by
    simp [fmt, cols, sc]
  have shapes : (decide ((r.tc u.ta).rows < u.srow.toNat + u.cnt.toNat + 1) || decide ((r.tc u.td).rows < u.drow.toNat + u.cnt.toNat + 1)) = false := by
    simp only [Bool.or_eq_false_iff, decide_eq_false_iff_not, Nat.not_lt]
    exact ⟨src, dst⟩
  exact (failIf_passes _ (noTile_own own)).trans ((failIf_passes _ formats).trans (failIf_passes _ shapes))

end

/-- Settles O25: each operation's checks pass in their order, and what stands around them does nothing without a record or a barrier's rope. -/
theorem tileChecks : Obligations.TileChecks := by
  intro s r f x g d w u wb bo own made D A B Q
  have base : ∀ {ins : Instr} {k : TileOp}, tileUp? ins = some (u, w, d) → copyUp? ins = none → s.buildTile r f x ins = (s, .ok (.tile k)) → made ins k :=
    fun tile copy builds => build_of_buildTile tile copy wb bo builds
  refine ⟨fun o => ?_, fun na nb nacc sat acc16 o da db fmt qfmt aq ad bq bd ab => ?_, fun op sat o df bf fl dr dc br bc => ?_,
    fun sat rc o a14 a15 d14 d15 rows cols => ?_, fun op o fmt rows cols => ?_, fun o fmt cols sc src dst => ?_⟩
  · exact base rfl rfl (buildTile_tzero o)
  · exact base rfl rfl (buildTile_mma o da db fmt qfmt aq ad bq bd ab)
  · exact base rfl rfl (buildTile_tew o df bf fl dr dc br bc)
  · exact base rfl rfl (buildTile_tcvt o a14 a15 d14 d15 rows cols)
  · exact base rfl rfl (buildTile_tred o fmt rows cols)
  · exact base rfl rfl (buildTile_trow o fmt cols sc src dst)

end Sys2Proof.Machine
end

section
/-! SUPPORT. GDEF marks its result's register as one that takes a result of its clause (R18, R21, R488). -/

namespace Sys2Proof.Machine

section
variable {g : Guard} {d : BitVec 8} {slot : BitVec 6} {s : State} {c : Cx} {l : Nat} {rp : Rope}

theorem gdef_del (one : c.lanes g = [l]) (mine : s.myRope c.who = some rp) (free : Free s c (engIss g (useW 1 (some d) ++ [])))
    (empty : s.grid? rp.ctx slot.toNat = none) :
    Acted (.gdef g d slot .del) (engIss g (useW 1 (some d) ++ [])) s c l (s.fresh.2.landLater c l s.nextId (some (d.toNat, 1)) (leBytes 4 6) none true)
      ((c.st.fibre l).setPend [d.toNat]) 1 := by
  refine acted_of_issueTry (u := (s.atLane c l).landLater c l s.nextId (some (d.toNat, 1)) (leBytes 4 6) none true) (f := gdefLane d slot .del)
    (tg := none) (fun _ => rfl) free one ?_
  unfold gdefLane
  rw [show (s.atLane c l).myRope c.who = some rp from mine]
  dsimp only
  rw [show (s.atLane c l).grid? rp.ctx slot.toNat = none from empty]
  rfl

end

/-- A word of one lane fixes everything of its fibre but where its path stands: two accounts of it agree on the registers of its clause. -/
theorem Acted.own_unique {ins : Instr} {i : Iss} {s u v : State} {c : Cx} {l n m : Nat} {f h : Fibre} (a : Acted ins i s c l u f n)
    (b : Acted ins i s c l v h m) (has : u.hasStrand c.who) (has' : v.hasStrand c.who) (lt : l < (u.strand c.who).fibres.length)
    (lt' : l < (v.strand c.who).fibres.length) : f.own = h.own := by
  obtain ⟨t, run, moved⟩ := a
  obtain ⟨t', run', moved'⟩ := b
  obtain rfl : t = t' := Host.Outcome.next.inj (run.symm.trans run')
  have left := moved.regs l
  have right := moved'.regs l
  rw [raised_fibre, fibre_setFibre_eq _ _ _ _ has lt] at left
  rw [raised_fibre, fibre_setFibre_eq _ _ _ _ has' lt'] at right
  have own : ∀ x : Fibre, (i.mark x).regs.own = x.own := fun x => by
    unfold Iss.mark
    split <;> rfl
  rw [← own f, ← own h, ← left, right]

theorem Fibre.setPend_own (f : Fibre) (r : Nat) : (f.setPend [r]).own = f.own ||| (1#256 <<< r) := rfl

/-- A device in READY whose one fibre stands at a word and whose context has no grid. -/
def gridless : State := { State.reset.withFetchWord 64 0xF000 with cur := some (.strand ⟨0, 0⟩ 0) }

/-- In s the word of i stands to be issued, free, for lane 0 alone, of a rope whose context has no grid in the slot. -/
def noGridHere (s : State) (i : Iss) (slot : Nat) : Bool :=
  match s.cx? i.len with
  | none => false
  | some c => !c.barred i && ((c.lanes i.g).all fun l => !(c.st.fibre l).hazard i.uses) && !s.stalls c i && decide (c.lanes i.g = [0]) &&
      decide (0 < c.st.fibres.length) && (s.myRope c.who).any fun rp => (s.grid? rp.ctx slot).isNone

theorem noGridHere_spec {s : State} {i : Iss} {slot : Nat} (h : noGridHere s i slot = true) :
    ∃ c rp, Free s c i ∧ c.lanes i.g = [0] ∧ 0 < c.st.fibres.length ∧ s.myRope c.who = some rp ∧ s.grid? rp.ctx slot = none := by
  unfold noGridHere at h
  split at h
  · cases h
  · next c stands =>
    simp only [Bool.and_eq_true, Bool.not_eq_true', decide_eq_true_eq, List.all_eq_true, Option.any_eq_true, Option.isNone_iff_eq_none] at h
    obtain ⟨⟨⟨⟨⟨may, clear⟩, free⟩, one⟩, here⟩, rp, mine, empty⟩ := h
    exact ⟨c, rp, ⟨⟨stands, may, clear⟩, free⟩, one, here, mine, empty⟩

/-- A GDEF's fibre does not keep its `own`: its destination is marked, and was not before (R21). -/
theorem gdef_del_own {g : Guard} {d : BitVec 8} {slot : BitVec 6} {s : State} {c : Cx} {l : Nat} {rp : Rope} {f : Fibre} (one : c.lanes g = [l])
    (here : l < c.st.fibres.length) (mine : s.myRope c.who = some rp) (free : Free s c (engIss g (useW 1 (some d) ++ [])))
    (empty : s.grid? rp.ctx slot.toNat = none) (same : f.own = (c.st.fibre l).own) :
    ¬ Acted (.gdef g d slot .del) (engIss g (useW 1 (some d) ++ [])) s c l
      (s.fresh.2.landLater c l s.nextId (some (d.toNat, 1)) (leBytes 4 6) none true) f 1 := by
  intro stated
  have has := fresh_hasStrand free.ready.stands
  have lt : l < (s.fresh.2.strand c.who).fibres.length := by
    rw [show s.fresh.2.strand c.who = s.strand c.who from by cases c.who <;> rfl, ← (cx_eq free.ready.stands).2.1]
    exact here
  have own := stated.own_unique (gdef_del one mine free empty) has has lt lt
  have clear := free.ready.clear l (one ▸ List.mem_singleton_self l)
  have unmarked : (c.st.fibre l).own.getLsbD d.toNat = false := by
    have : (c.st.fibre l).pend.getLsbD d.toNat = false ∧ (c.st.fibre l).own.getLsbD d.toNat = false := by
      simpa [Fibre.hazard, engIss, useW] using clear
    exact this.2
  have marked := congrArg (fun b : BitVec 256 => b.getLsbD d.toNat) (same.symm.trans own)
  rw [Fibre.setPend_own] at marked
  have := d.isLt
  simp [unmarked] at marked
  omega

/-- Refutes O27: a GDEF marks its destination register both as pending and as one that takes a result of its clause (`own`), and the
statement's fibre keeps its old `own`. The word is GDEF.del of slot 3 into w12, where the context has no grid. -/
theorem not_gridWords : ¬ Obligations.GridWords := by
  intro h
  obtain ⟨c, rp, free, one, here, mine, empty⟩ := noGridHere_spec (s := gridless) (i := engIss ⟨15, false⟩ (useW 1 (some 12) ++ [])) (slot := 3)
    (by decide +kernel)
  have stated := (h ⟨15, false⟩ 12 3 (.w 0) (.w 0) (.w 0) gridless c 0 rp gridless one mine).2.1 free empty
  refine absurd stated (gdef_del_own (g := ⟨15, false⟩) (d := 12) (slot := 3) one here mine free empty ?_)
  rfl

end Sys2Proof.Machine
end

section
/-! SUPPORT. Exceptions: what a replay entry holds, the return from one, and the words that enter the supervisor (R362 to R370, R386, R415 to R417). -/

namespace Sys2Proof.Machine

/-! ### An entry of a fibre without near registers -/

/-- The placed fibre without near registers. -/
def nearless : State :=
  let s := State.reset.withFetchWord 64 0xF000
  s.setFibre (.strand ⟨0, 0⟩ 0) 0 { s.fibre (.strand ⟨0, 0⟩ 0) 0 with near := [] }

/-- Refutes O28: an entry's lane block holds the fibre's near registers as they are listed, and the statement's states may list none. Such a
fibre's entry is 72 bytes long: the header and lat. -/
theorem not_exceptionEntry : ¬ Obligations.ExceptionEntry := by
  intro h
  obtain ⟨rp, here, sid⟩ : ∃ rp, nearless.rope? ⟨0, 0⟩ = some rp ∧ 0 < rp.strands.length := by
    have : (nearless.rope? ⟨0, 0⟩).any (fun rp => decide (0 < rp.strands.length)) = true := by decide +kernel
    obtain ⟨rp, here, sid⟩ := (Option.any_eq_true ..).1 this
    exact ⟨rp, here, of_decide_eq_true sid⟩
  have near : (nearless.fibre (.strand ⟨0, 0⟩ 0) 0).near = [] := by decide +kernel
  obtain ⟨-, -, -, -, -, -, e, -, -, -, -, -, -, -, -, -, -, -, -, -, -, -, -, lanes, length⟩ :=
    h nearless ⟨0, 0⟩ 0 0 (arith 1) 0x1000 0x1000 0x1000 rp here sid (by decide) (by decide +kernel) rfl (by decide +kernel) (by decide +kernel)
      (by decide +kernel)
  rw [near] at lanes
  rw [Entry.bytes, Entry.header_eq, lanes] at length
  simp [LaneBlk.bytes] at length

/-! ### Return from an exception at a header (R366 to R368, R370, R420) -/

/-- A fibre that rejoins its strand is the one given, live, in its clause and not waiting. -/
theorem State.rejoin_fibre {s : State} {w : Who} {l : Nat} (has : s.hasStrand w) (lt : l < (s.strand w).fibres.length) (f : Fibre)
    (cl : Option Clause) : ∃ n, (s.rejoin w l f cl).fibre w l = { f with st := .live, cl := cl, wait := none, uage := n } := by
  unfold State.rejoin State.fibre
  rw [State.strand_setStrand _ _ _ _ has, if_pos rfl]
  have added : ∀ (st : Strand) (p : Path), l < st.fibres.length → (st.addPath p).fibre l =
      if p.mask.getLsbD l then { st.fibre l with pc := p.pc, cl := p.cl, uage := 0 } else st.fibre l := by
    intro st p lt
    unfold Strand.addPath
    split <;> exact fibre_mapIdx st _ l lt
  have set : ((s.strand w).setFibre l { f with st := .live, cl := cl, wait := none }).fibre l = { f with st := .live, cl := cl, wait := none } := by
    simp [Strand.setFibre, Strand.fibre, lt]
  rw [added _ _ (by simpa [Strand.setFibre] using lt), set]
  split
  · exact ⟨0, rfl⟩
  · exact ⟨f.uage, rfl⟩

/-- Settles O30: each way of return is the rejoining of a fibre made from the one that was parked. -/
theorem exceptionReturn : Obligations.ExceptionReturn := by
  intro s r sid l t w has lt f
  refine ⟨?_, ?_, fun near lat rpc => ?_⟩
  · obtain ⟨n, h⟩ := State.rejoin_fibre (w := w) has lt { f with
      pc := f.kpc, atTgt := false, noBrk := true, near := List.replicate 8 0, lat := 0, preds := f.kpreds ||| 0x8000, cnt := f.kcnt, issued := 0 } none
    rw [show s.resumeKnot w l = s.rejoin w l _ none from rfl, h]
    exact ⟨rfl, rfl, rfl, rfl, rfl, rfl, rfl, rfl⟩
  · obtain ⟨n, h⟩ := State.rejoin_fibre (w := w) has lt
      ({ f with pc := t, atTgt := true, near := List.replicate 8 0, lat := 0 }.enter s.nextId t 0xFFFFFFFF 0xFFFF 0xFFFF) none
    rw [show s.resumeNew w l t = s.rejoin w l _ none from rfl, h]
    exact ⟨rfl, rfl, rfl, rfl, rfl, rfl, rfl, rfl, rfl⟩
  · obtain ⟨n, h⟩ := State.rejoin_fibre (w := w) has lt { f with near := near, lat := lat, pc := rpc, noBrk := true, own := 0 } none
    rw [show s.resumeAt w l near lat rpc rpc = s.rejoin w l _ none from if_pos rfl, h]
    exact ⟨rfl, rfl, rfl, rfl, rfl, rfl, rfl⟩

/-! ### SYSCALL, TRAP, BKPT (R415, R416) -/

/-- A word whose only lane takes a trap whatever it finds. -/
theorem trapped_of_fault {ins : Instr} {i : Iss} {s : State} {c : Cx} {l : Nat} {t : Trap} (one : c.lanes i.g = [l]) (free : Free s c i)
    (run : ∀ s, exec ins s = issueSt i (fun _ _ s _ fb => ⟨s, .fault fb t, 0⟩) s) :
    Trapped ins s (s.fresh.2.setFibre c.who l ((LaneRes.fault (c.st.fibre l) t).committed i)) c l t := by
  have traps := issueSt_trap (t := t) (fb := c.st.fibre l) (u := s.fresh.2) (f := fun _ _ s _ fb => ⟨s, .fault fb t, 0⟩) free one rfl
  rw [Trapped, run]
  exact traps

theorem trapped_uncommitted {ins : Instr} {i : Iss} {s : State} {c : Cx} {l : Nat} {t : Trap} (one : c.lanes i.g = [l]) (free : Free s c i)
    (plain : i.commit = false) (run : ∀ s, exec ins s = issueSt i (fun _ _ s _ fb => ⟨s, .fault fb t, 0⟩) s) : Trapped ins s s.fresh.2 c l t := by
  have traps := trapped_of_fault one free run
  rw [committed_fault _ _ _ (.inl plain)] at traps
  exact trapped_same (fresh_fibre free.ready.stands l) traps

/-! ### KNOT (R370, R415) -/

theorem State.as_setStrand (s : State) (a : Doer) (w : Who) (st : Strand) : (s.as a).setStrand w st = (s.setStrand w st).as a := by
  cases w with
  | sup n => rfl
  | strand r sid =>
    simp only [State.setStrand]
    rw [show (s.as a).rope? r = s.rope? r from rfl]
    cases s.rope? r <;> rfl

section
variable {g : Guard} {wm : BitVec 32} {sm tm : BitVec 16} {s : State} {c : Cx} {l : Nat}

theorem knot_enters {r : RopeId} {sid : Nat} (one : c.lanes g = [l]) (free : Free s c { len := 16, g := g, uses := [] }) (who : c.who = .strand r sid)
    (clear : s.holdsEntry (c.who.lane l) = false) :
    Acted (.knot g wm sm tm) { len := 16, g := g, uses := [] } s c l (s.fresh.2.setStrand c.who { s.strand c.who with held := 0 })
      ((c.st.fibre l).enter (s.nextId + 1) c.cl.hpc wm sm tm) 0 := by
  have lane : knotLane wm sm tm c (s.atLane c l) l (c.st.fibre l) = .ok ⟨(s.fresh.2.setStrand c.who { s.strand c.who with held := 0 }).as
      (c.doer s.fresh.2 l), ⟨(c.st.fibre l).enter (s.nextId + 1) c.cl.hpc wm sm tm, none, none⟩, 0⟩ := by
    have strand : (s.atLane c l).strand c.who = s.strand c.who := by rw [who]; rfl
    unfold knotLane
    rw [if_neg (by rw [who]; exact Bool.false_ne_true), show (s.atLane c l).holdsEntry (c.who.lane l) = false from clear, strand,
      ← State.as_setStrand]
    rfl
  have acted := acted_of_issueTry (ins := .knot g wm sm tm) (f := fun c _ => knotLane wm sm tm c) (fun _ => rfl) free one lane
  have agent : (s.fresh.2.setStrand c.who { s.strand c.who with held := 0 }).as s.agent =
      s.fresh.2.setStrand c.who { s.strand c.who with held := 0 } := (State.as_setStrand s.fresh.2 s.agent _ _).symm
  rwa [State.as_as, agent] at acted

theorem knot_sup {n : Nat} (one : c.lanes g = [l]) (free : Free s c { len := 16, g := g, uses := [] }) (who : c.who = .sup n) :
    Acted (.knot g wm sm tm) { len := 16, g := g, uses := [] } s c l s.fresh.2 (c.st.fibre l) 0 := by
  have lane : knotLane wm sm tm c (s.atLane c l) l (c.st.fibre l) = .ok ⟨s.atLane c l, ⟨c.st.fibre l, none, none⟩, 0⟩ :=
    if_pos (sup_isSup who)
  exact acted_of_issueTry (f := fun c _ => knotLane wm sm tm c) (fun _ => rfl) free one lane

/-! ### SIGRET (R386, R388, R417) -/

/-- The issue of SIGRET. -/
def sigretIss (g : Guard) (a : Src) : Iss := { len := 8, g := g, uses := useS 2 a, commit := true, rope := true, access := true }

theorem sigret_header {a : Src} {u : State} {r : Fibre} {rpc : DWord} {tested : Bool} (one : c.lanes g = [l]) (free : Free s c (sigretIss g a))
    (frame : (s.atLane c l).frameOf c.who l (c.st.fibre l) ((c.st.fibre l).src .b64 a) = (u, .header r rpc tested))
    (none : s.insides c (sigretIss g a) a = []) :
    ∃ t, exec (.sigret g a) s = .next t ∧ Moved ((u.as s.agent).setFibre c.who l { r with atTgt := !tested, serial := true }) t c.who := by
  have lane : sigretLane a c (s.atLane c l) l (c.st.fibre l) = .ok ⟨u, ⟨{ r with atTgt := !tested }, some rpc, Option.none⟩, 0⟩ := by
    unfold sigretLane
    rw [frame]
  obtain ⟨t, run, moved⟩ := issueTry_one (f := fun c _ => sigretLane a c) free one lane
  have moved' : Moved ((u.as s.agent).setFibre c.who l { r with atTgt := !tested, serial := true }) t c.who := (raised_zero _ _ _ _).trans moved
  have stands : s.cx? 8 = some c := free.ready.stands
  have exec_eq : exec (.sigret g a) s =
      if (t.strand c.who).cur = c.st.cur then .next t else .next (t.setStrand c.who (t.strand c.who)) := by
    show execSigret g a s = _
    unfold execSigret
    unfold sigretIss at run none
    simp only [stands, run, none, List.foldl_nil]
  rw [exec_eq]
  split
  · exact ⟨t, rfl, moved'⟩
  · exact ⟨_, rfl, moved'.trans (moved_setStrand _ _ _ _ rfl (fun h => absurd rfl h) (SameRegs.refl _))⟩

end

/-! ### What a frame restores (R386, R427) -/

/-- The fibre of a frame's bytes but for its wait, near registers and lat (R386). -/
def Fibre.framed (f : Fibre) (v : Nat) (b : List Byte) : Fibre :=
  { f with
    win := wordsOf f.win.length (b.drop 128), preds := BitVec.ofNat 16 (bits v 176 16) ||| 0x8000,
    fpctl := BitVec.ofNat 32 (bits v 256 32), fpstat := BitVec.ofNat 32 (bits v 224 32), intctl := BitVec.ofNat 32 (bits v 192 32),
    smask := BitVec.ofNat 16 (bits v 160 16) &&& 0xCFFE }

theorem Fibre.restore_eq (f : Fibre) (v : Nat) (b : List Byte) : f.restore v b =
    if bit v 155 then (f.framed v b).waitAgain
    else { (f.framed v b).waitAgain with near := wordsOf 8 (b.drop 64), lat := BitVec.ofNat 64 (leNat ((b.drop 96).take 8)) } := rfl

theorem Fibre.waitAgain_waits {f : Fibre} (waits : ∀ pd reg, f.stash.headD none ≠ some (.over pd reg)) :
    f.waitAgain = { f with wait := f.stash.headD none, stash := f.stash.drop 1 } := by
  unfold Fibre.waitAgain
  split
  · next pd reg h => exact absurd h (waits pd reg)
  · rfl

theorem Fibre.waitAgain_over {f : Fibre} {pd : Option (Num4 × Bool)} {reg : Option (Nat × Word)} (ended : f.stash.headD none = some (.over pd reg)) :
    f.waitAgain = ({ f with wait := none, stash := f.stash.drop 1 } : Fibre).waitDone pd reg := by
  unfold Fibre.waitAgain
  rw [ended]

theorem Fibre.waitDone_near (f : Fibre) (pd : Option (Num4 × Bool)) (reg : Option (Nat × Word)) (near : List Word) (lat : DWord) :
    ({ f.waitDone pd reg with near := near, lat := lat } : Fibre) = ({ f with near := near, lat := lat } : Fibre).waitDone pd reg := by
  have setPred : ∀ (f : Fibre) (p : Num4) (v : Bool),
      ({ f.setPred p v with near := near, lat := lat } : Fibre) = ({ f with near := near, lat := lat } : Fibre).setPred p v := fun f p v => by
    unfold Fibre.setPred
    split <;> rfl
  unfold Fibre.waitDone
  rcases pd with _ | ⟨p, v⟩ <;> rcases reg with _ | ⟨i, x⟩
  · rfl
  · rfl
  · exact setPred f p v
  · exact congrArg (fun g : Fibre => g.setReg i x.toNat) (setPred f p v)

theorem Fibre.restore_over {f : Fibre} {v : Nat} {b : List Byte} {pd : Option (Num4 × Bool)} {reg : Option (Nat × Word)}
    (ended : f.stash.headD none = some (.over pd reg)) :
    f.restore v b = (({ f with stash := none :: f.stash.drop 1 } : Fibre).restore v b).waitDone pd reg := by
  rw [Fibre.restore_eq, Fibre.restore_eq, Fibre.waitAgain_over (f := f.framed v b) ended, Fibre.waitDone_near]
  split <;> rfl

theorem ofNat_bits (v lo n : Nat) : BitVec.ofNat n (bits v lo n) = BitVec.ofNat n (v / 2 ^ lo) :=
  BitVec.eq_of_toNat_eq (by simp [bits])

theorem Fibre.restore_waits {f : Fibre} {v : Nat} {b : List Byte} (waits : ∀ pd reg, f.stash.headD none ≠ some (.over pd reg)) :
    let r := f.restore v b
    r.wait = f.stash.headD none ∧ r.stash = f.stash.drop 1 ∧ r.win = wordsOf f.win.length (b.drop 128) ∧ r.preds.getLsbD 15 = true ∧
      (∀ i < 15, r.preds.getLsbD i = v.testBit (176 + i)) ∧
      r.fpctl = BitVec.ofNat 32 (v / 2 ^ 256) ∧ r.fpstat = BitVec.ofNat 32 (v / 2 ^ 224) ∧ r.intctl = BitVec.ofNat 32 (v / 2 ^ 192) ∧
      r.smask.getLsbD 0 = false ∧ r.smask.getLsbD 12 = false ∧ r.smask.getLsbD 13 = false ∧
      (v.testBit 155 = false → r.near = wordsOf 8 (b.drop 64)) ∧ (v.testBit 155 = true → r.near = f.near ∧ r.lat = f.lat) ∧
      r.kpc = f.kpc ∧ r.st = f.st := by
  have preds : ∀ i < 15, (BitVec.ofNat 16 (bits v 176 16) ||| 0x8000#16).getLsbD i = v.testBit (176 + i) := by
    intro i hi
    have high : (0x8000#16).getLsbD i = false := by
      interval_cases i <;> rfl
    rw [BitVec.getLsbD_or, high, Bool.or_false, ofNat_bits, BitVec.getLsbD_ofNat, Nat.testBit_div_two_pow, Nat.add_comm]
    simp only [show i < 16 by omega, decide_true, Bool.true_and]
  intro r
  have hr : r = if bit v 155 then { f.framed v b with wait := f.stash.headD none, stash := f.stash.drop 1 }
      else { f.framed v b with wait := f.stash.headD none, stash := f.stash.drop 1, near := wordsOf 8 (b.drop 64)
                               lat := BitVec.ofNat 64 (leNat ((b.drop 96).take 8)) } := by
    show f.restore v b = _
    rw [Fibre.restore_eq, Fibre.waitAgain_waits (f := f.framed v b) waits]
    rfl
  rw [bit_eq_testBit] at hr
  cases stop : v.testBit 155 <;> simp only [stop, Bool.false_eq_true, if_false, if_true] at hr <;> rw [hr] <;>
    refine ⟨rfl, rfl, rfl, ?_, preds, ofNat_bits v 256 32, ofNat_bits v 224 32, ofNat_bits v 192 32, ?_, ?_, ?_, ?_, ?_, rfl, rfl⟩ <;>
    simp [Fibre.framed]

/-- Settles O31: each word by its lane, and a frame by `restore`. -/
theorem enteringTheSupervisor : Obligations.EnteringTheSupervisor := by
  refine ⟨fun g s c l one => ⟨fun free => ?_, fun code free => ⟨fun low => ?_, fun high => ?_⟩, fun free => ?_, ?_, ?_⟩, fun f b _ _ => ?_⟩
  · exact trapped_of_fault (ins := .syscall g) (t := ⟨.syscall, .at, 0, 0, true⟩) one free fun _ => rfl
  · refine trapped_uncommitted one free rfl fun s => ?_
    show execTrap g code s = _
    rw [execTrap, trapOf, if_neg (Nat.not_le.2 low)]
  · refine trapped_uncommitted one free rfl fun s => ?_
    show execTrap g code s = _
    rw [execTrap, trapOf, if_pos high]
  · exact trapped_uncommitted (ins := .bkpt g) (t := ⟨.brk, .at, 0xFF, 0, true⟩) one free rfl fun _ => rfl
  · intro wm sm tm i free
    exact ⟨fun r sid who clear => knot_enters one free who clear, fun n who => knot_sup one free who⟩
  · intro a u r rpc tested i free frame none
    exact sigret_header one free frame none
  · exact ⟨fun pd reg ended => Fibre.restore_over ended, Fibre.restore_waits⟩

end Sys2Proof.Machine
end

section
/-! SUPPORT. RQPOP near the end of the address space (R267, R419). -/

namespace Sys2Proof.Machine

/-- An entry that the supervisor has not read yet. -/
def unreadEntry : Entry := State.reset.entryOf ⟨⟨0, 0⟩, 0, 1, ⟨.trap, .at, 0, 0, 0x1000⟩, 0x1008, 0x1000⟩ 0

/-- The supervisor strand of core 0 at a word, with an entry to read and the highest address in w8 and w9. -/
def poppingHigh : State :=
  let s : State := { State.reset.withFetchWord 64 0xFE18 with cur := some (.sup 0) }
  let s := s.setCore { s.core 0 with rq := [unreadEntry] }
  s.setFibre (.sup 0) 0 (((s.fibre (.sup 0) 0).setReg 8 0xFFFFFFFF).setReg 9 0xFFFFFFFF)

/-- The issue of an RQPOP with its address in w8 and w9. -/
def poppingIss : Iss := { len := 8, g := ⟨15, false⟩, uses := useD 1 (.w 20) ++ useS 2 (.w 8) }

/-- In s the word of i stands to be issued, free, for lane 0 of core 0's supervisor strand alone. -/
def supHere (s : State) (i : Iss) : Bool :=
  match s.cx? i.len with
  | none => false
  | some c => !c.barred i && ((c.lanes i.g).all fun l => !(c.st.fibre l).hazard i.uses) && !s.stalls c i && decide (c.lanes i.g = [0]) &&
      decide (c.who = .sup 0)

theorem supHere_spec {s : State} {i : Iss} (h : supHere s i = true) : ∃ c, Free s c i ∧ c.lanes i.g = [0] ∧ c.who = .sup 0 := by
  unfold supHere at h
  split at h
  · cases h
  · next c stands =>
    simp only [Bool.and_eq_true, Bool.not_eq_true', decide_eq_true_eq, List.all_eq_true] at h
    obtain ⟨⟨⟨⟨may, clear⟩, free⟩, one⟩, who⟩ := h
    exact ⟨c, ⟨⟨stands, may, clear⟩, free⟩, one, who⟩

/-- A word leaves each core's replay queue as its lane does. -/
theorem Acted.rq {ins : Instr} {i : Iss} {s u : State} {c : Cx} {l n : Nat} {f : Fibre} (a : Acted ins i s c l u f n) (k : Nat) :
    ∃ t, exec ins s = .next t ∧ (t.core k).rq = (u.core k).rq := by
  obtain ⟨t, run, moved⟩ := a
  refine ⟨t, run, ?_⟩
  have cores := moved.keeps.cores k
  rw [State.raised, State.setStrand_cores_own, State.setFibre, State.setStrand_cores_own] at cores
  exact (congrArg Core.rq cores :)

/-- The queue of one unread entry, once the statement's RQPOP has read it. -/
theorem popped_rq {s : State} {n : Nat} {e : Entry} (unread : (s.core n).rq = [e]) (m : List Host.Cell) :
    ((({ s.fresh.2.setCore { s.core n with rq := (s.core n).rq.map fun y => if y = e then { y with popped := true } else y } with
      svMem := m } : State).core n).rq) = [{ e with popped := true }] := by
  show (State.core (State.setCore _ _) n).rq = _
  rw [State.core_setCore, if_pos (show (s.core n).no = n from State.core_no s n)]
  simp [unread]

/-- Refutes O33: an RQPOP whose entry would not fit below 2^54 faults (RANGE) and pops nothing, and the statement's RQPOP has no bound on
its address. The supervisor's strand pops one entry to address 2^64 - 1. -/
theorem not_supervisorWords : ¬ Obligations.SupervisorWords := by
  intro h
  obtain ⟨c, free, one, who⟩ := supHere_spec (s := poppingHigh) (i := poppingIss) (by decide +kernel)
  have unread : (poppingHigh.core 0).rq = [unreadEntry] := by decide +kernel
  have found : (poppingHigh.core 0).rq.find? (fun e => !e.popped) = some unreadEntry := by
    rw [unread]
    rfl
  have stated := (h ⟨15, false⟩ (.w 20) 0 (.w 8) (.w 0) (.w 0) poppingHigh c 0 0 poppingHigh who one).1 free
  obtain ⟨t, run, rq⟩ := (stated.2.2 unreadEntry found).rq 0
  have popped := rq.trans (popped_rq unread _)
  have kept : (match exec (.rqpop ⟨15, false⟩ (.w 20) 0 (.w 8)) poppingHigh with
    | .next t => (t.core 0).rq == [unreadEntry]
    | _ => false) = true := by decide +kernel
  rw [run] at kept
  have same : (t.core 0).rq = [unreadEntry] := by simpa using kept
  rw [popped] at same
  exact absurd (congrArg (fun l : List Entry => l.all Entry.popped) same) (by decide +kernel)

end Sys2Proof.Machine
end

section
/-! SUPPORT. A result that lands (R18, R266, R271, R368). -/

namespace Sys2Proof.Machine

theorem Strand.dueDone_fibres (st : Strand) (t : Nat) : (st.dueDone t).fibres = st.fibres := by
  unfold Strand.dueDone
  split
  · rfl
  · split <;> rfl

theorem State.dueDone_fibre (s : State) (w v : Who) (t : Option Nat) (l : Nat) : (s.dueDone w t).fibre v l = s.fibre v l := by
  cases t with
  | none => rfl
  | some t =>
    rcases s.strand_setStrand_or w v ((s.strand w).dueDone t) with h | ⟨rfl, h⟩
    · simp only [State.dueDone, State.fibre, h]
    · simp only [State.dueDone, State.fibre, h, Strand.fibre, Strand.dueDone_fibres]

theorem State.dueDone_accs (s : State) (w : Who) (t : Option Nat) : (s.dueDone w t).accs = s.accs := by
  cases t with
  | none => rfl
  | some t => exact State.setStrand_accs _ _ _

/-- The fibre of a result that lands (R18, R343). -/
def Fibre.landed (f : Fibre) (a : Access) : Fibre :=
  let f1 := match a.wd with
    | some (d, n) => (if a.data = [] then f else f.setRegs d (wordsOf n (landBytes a.kind a.data))).clrPend ((List.range n).map (d + ·))
    | none => f
  match a.pd with
  | some (p, v) => f1.setPred p v
  | none => f1

theorem State.land_eq (s : State) (a : Access) : s.land a =
    (if a.void then s.dropAcc a.id else (s.dropAcc a.id).setFibre (laneWho a.lane) a.lane.lane
      ((s.fibre (laneWho a.lane) a.lane.lane).landed a)).dueDone (laneWho a.lane) a.tag := by
  have kept : (s.dropAcc a.id).fibre (laneWho a.lane) a.lane.lane = s.fibre (laneWho a.lane) a.lane.lane := by
    cases laneWho a.lane <;> rfl
  rw [← kept]
  rfl

theorem State.land_accs (s : State) (a : Access) : (s.land a).accs = eraseBy Access.id a.id s.accs := by
  rw [State.land_eq, State.dueDone_accs]
  split
  · rfl
  · rw [State.setFibre, State.setStrand_accs]
    rfl

theorem State.land_fibre {s : State} {a : Access} (has : s.hasStrand (laneWho a.lane))
    (lt : a.lane.lane < (s.strand (laneWho a.lane)).fibres.length) : (s.land a).fibre (laneWho a.lane) a.lane.lane =
      if a.void then s.fibre (laneWho a.lane) a.lane.lane else (s.fibre (laneWho a.lane) a.lane.lane).landed a := by
  have has' : (s.dropAcc a.id).hasStrand (laneWho a.lane) := has
  rw [State.land_eq, State.dueDone_fibre]
  split
  · rfl
  · exact fibre_setFibre_eq _ _ _ _ has' lt

theorem leNat_lt : ∀ l : List Byte, leNat l < 256 ^ l.length
  | [] => Nat.one_pos
  | b :: l => by
    have here := b.isLt
    have rest := leNat_lt l
    rw [leNat, List.length_cons, Nat.pow_succ]
    omega

theorem leNat_take_lt (l : List Byte) : leNat (l.take 4) < 2 ^ 32 :=
  lt_of_lt_of_le (leNat_lt _) (Nat.pow_le_pow_right (n := 256) (by decide) (List.length_take_le 4 l))

theorem Fibre.landed_one {f : Fibre} {a : Access} {d : Nat} (none : a.pd = none) (wd : a.wd = some (d, 1)) (data : a.data ≠ []) :
    f.landed a = (f.setReg d (leNat ((landBytes a.kind a.data).take 4))).clrPend [d] := by
  have lt : leNat ((landBytes a.kind a.data).take 4) % 2 ^ 32 = leNat ((landBytes a.kind a.data).take 4) :=
    Nat.mod_eq_of_lt (leNat_take_lt _)
  unfold Fibre.landed
  rw [none, wd]
  simp only [data, if_false, wordsOf, Fibre.setRegs, BitVec.toNat_ofNat, lt]
  rfl

theorem Fibre.setReg_reg_same {f : Fibre} {d : Nat} (lt : d < f.win.length) (v : Nat) : (f.setReg d v).reg d = v % 2 ^ 32 := by
  simp [Fibre.setReg, Fibre.reg, lt]

theorem Fibre.setReg_reg_other {f : Fibre} {d k : Nat} (ne : k ≠ d) (v : Nat) : (f.setReg d v).reg k = f.reg k := by
  simp [Fibre.setReg, Fibre.reg, List.getElem?_set_ne (Ne.symm ne)]

theorem Fibre.clrPend_bit (f : Fibre) {d : Nat} (lt : d < 256) : (f.clrPend [d]).pend.getLsbD d = false := by
  simp [Fibre.clrPend, lt]

theorem landBytes_i8 (b : Byte) : landBytes (.ld .i8) [b] = leBytes 4 (b.signExtend 32).toNat := by
  have signed : sx 8 (leNat [b]) = b.toInt := by
    have := b.isLt
    simp only [leNat, sx, BitVec.toInt_eq_toNat_cond]
    omega
  show leBytes 4 (wrap 32 (sx 8 (leNat [b]))) = _
  rw [signed]
  rfl

theorem laneWho_hasStrand {s : State} {l : LaneId} (has : s.hasStrand (.strand l.rope l.sid)) : s.hasStrand (laneWho l) := by
  unfold laneWho
  split
  · trivial
  · exact has

/-- Settles O38: the landing of a result of one register by its equation. -/
theorem resultsLand : Obligations.ResultsLand := by
  rintro s a r rp rfl here sid lt none f g
  have has : s.hasStrand (laneWho a.lane) := laneWho_hasStrand ⟨rp, here, sid⟩
  refine ⟨?_, fun void => ?_, fun d void wd data fits small => ?_, fun b => ⟨?_, landBytes_i8 b⟩⟩
  · intro x hx
    rw [State.land_accs] at hx
    exact of_decide_eq_true (List.mem_filter.1 hx).2
  · exact (State.land_fibre has lt).trans (if_pos void)
  · have hg : g = (f.setReg d (leNat ((landBytes a.kind a.data).take 4))).clrPend [d] := by
      rw [← Fibre.landed_one none wd data]
      exact (State.land_fibre has lt).trans (if_neg (by simp [void]))
    rw [hg]
    refine ⟨?_, ?_, fun k ne => Fibre.setReg_reg_other ne _, rfl, rfl⟩
    · exact (Fibre.setReg_reg_same fits _).trans (Nat.mod_eq_of_lt (leNat_take_lt _))
    · exact Fibre.clrPend_bit _ small
  · rfl

end Sys2Proof.Machine
end

section
/-! SUPPORT. The rotor and the associations (R471 to R476). -/

namespace Sys2Proof.Machine

theorem whenReady_of {s : State} (ready : s.boot = .ready) (f : State → Host.Outcome State Fault Refusal) : whenReady s f = f s :=
  if_pos ready

theorem Assoc.bank_setBank (a : Assoc) (k : Bool) (b : Bank) : (a.setBank k b).bank k = b := by
  cases k <;> rfl

/-- An association with its current bank's key newly drawn (R475). -/
def Assoc.rekeyed (a : Assoc) (key : Nat) : Assoc := { (a.setBank (!a.kg) ⟨key, 0, 0, true⟩) with kg := !a.kg }

theorem Assoc.rekeyed_bank (a : Assoc) (key : Nat) : (a.rekeyed key).bank (!a.kg) = ⟨key, 0, 0, true⟩ :=
  a.bank_setBank (!a.kg) _

theorem State.newKey_fab {s u : State} {a : Assoc} (h : s.newKey a = some u) : u.fab = s.fab.setAssoc (a.rekeyed s.nextId) := by
  unfold State.newKey at h
  split at h
  · cases h
  · cases h
    rfl

theorem Fabric.slotNo_upsert (f : Fabric) (k i : Nat) : ({ f with slots := upsert Prod.fst (k, i, 0) f.slots } : Fabric).slotNo k = some i := by
  rw [Fabric.slotNo, lookupBy_upsert, if_pos rfl]
  rfl

theorem Fabric.room_upsert (f : Fabric) (k i : Nat) : ({ f with slots := upsert Prod.fst (k, i, 0) f.slots } : Fabric).room k = 112 := by
  rw [Fabric.room, lookupBy_upsert, if_pos rfl]
  rfl

/-- Settles O53: each event by its definition, a new key by `Assoc.rekeyed`. -/
theorem rotorAndAssociations : Obligations.RotorAndAssociations := by
  intro s ready
  refine ⟨fun k c ks next mem ends => ?_, fun k i tab keeps at_ no_flits => ?_, fun k r oldest room => ?_, fun p a u stands new r => ?_,
    fun p a u stands many new => ?_, fun a u new => ?_, fun p a stands out few => ?_⟩
  · refine ⟨{ s with fab := { s.fab with
      tabs := s.fab.tabs.set k (c.tabs.getD k [])
      slots := eraseBy Prod.fst k s.fab.slots
      next := if ks.filter (· ≠ k) = [] then none else some (c, ks.filter (· ≠ k)) } }, ?_, rfl, fun d ls left => ?_⟩
    · show execFabcfgAdopt k s = _
      rw [execFabcfgAdopt, whenReady_of ready, next]
      exact if_pos (by simp [mem, ends])
    · dsimp only at left
      split at left
      · cases left
      · cases left
        exact ⟨rfl, by simp⟩
  · refine ⟨{ s with fab := { s.fab with slots := upsert Prod.fst (k, (i + 1) % (s.fab.tab k).length, 0) s.fab.slots } }, ?_,
      Fabric.slotNo_upsert .., Fabric.room_upsert ..⟩
    show execRotorSlot k s = _
    rw [execRotorSlot, whenReady_of ready]
    refine ((if_neg (by simp [tab, keeps])).trans (congrArg (fun l : List Flit => Host.Outcome.next (l.foldl _ _)) no_flits)).trans ?_
    rw [at_]
    rfl
  · show execRelayForward k s = _
    rw [execRelayForward, whenReady_of ready, oldest]
    exact if_neg (Nat.not_lt.2 room)
  · show execRekey p r s = _
    rw [execRekey, whenReady_of ready]
    dsimp only
    rw [stands]
    dsimp only
    rw [new]
  · show execRekeyCount p s = _
    rw [execRekeyCount, whenReady_of ready, stands]
    dsimp only
    rw [if_pos many, new]
  · have current := a.rekeyed_bank s.nextId
    refine ⟨a.rekeyed s.nextId, State.newKey_fab new, rfl, ?_, ?_, ?_⟩ <;> exact congrArg _ current
  · show execAssociationFetch p s = _
    rw [execAssociationFetch, whenReady_of ready, stands]
    dsimp only
    rw [if_neg (by simp [out])]
    cases (s.fab.assocs.filter Assoc.cached).head? with
    | none => rfl
    | some o => exact congrArg (fun f : Fabric => Host.Outcome.next { s with fab := f.setAssoc { a with cached := true } }) (if_neg (Nat.not_le.2 few))

end Sys2Proof.Machine
end

section
/-! SUPPORT. Keys, sessions, evidence and the scrub (R428 to R432, R436, R439, R474). -/

namespace Sys2Proof.Machine

/-- What no element of a fold changes, the fold keeps. -/
theorem State.foldl_keeps {α β : Type} {g : State → β} {f : State → α → State} (keep : ∀ s x, g (f s x) = g s) (s : State) :
    ∀ l : List α, g (l.foldl f s) = g s
  | [] => rfl
  | x :: l => (State.foldl_keeps keep (f s x) l).trans (keep s x)

theorem State.assoc_receipts (s : State) (p : Nat) : (s.assoc p).1.receipts = s.receipts := by
  unfold State.assoc
  split <;> rfl

theorem State.sendProto_receipts (s : State) (p : Nat) (ty : MType) (addr : Nat) (mask : BitVec 128) (data : List Byte) (exp slot : Nat) :
    (s.sendProto p ty addr mask data exp slot).receipts = s.receipts :=
  State.assoc_receipts _ _

/-- Dropping a context's lines signs no receipt. -/
theorem State.dropCtx_receipts (s : State) (n : Nat) : (s.dropCtx n).receipts = s.receipts := by
  refine State.foldl_keeps (g := State.receipts) (fun s h => ?_) s _
  have host : (if h.host then s.post .inv (plainMsg h.line .home .host) else s).receipts = s.receipts := by
    split <;> rfl
  dsimp only
  rw [← host]
  cases h.loc with
  | hbm pa => exact State.foldl_keeps (g := State.receipts) (fun s p => State.sendProto_receipts s p ..) _ _
  | _ => rfl

theorem State.scrubbed_receipts (s : State) (c : Context) (k : Nat) : (s.scrubbed c k).1.receipts = s.receipts + 1 :=
  congrArg (· + 1) (s.dropCtx_receipts c.no)

theorem State.scrubbed_locks (s : State) (c : Context) (k : Nat) : ∀ l ∈ (s.scrubbed c k).1.locks, l.1 ≠ c.no :=
  fun _ h => of_decide_eq_true (List.mem_filter.1 h).2

theorem State.scrubbed_inbound (s : State) (c : Context) (k : Nat) : ∀ e ∈ (s.scrubbed c k).1.inbound, e.ctx ≠ c.no :=
  fun _ h => of_decide_eq_true (List.mem_filter.1 h).2

theorem State.scrubbed_copies (s : State) (c : Context) (k : Nat) : ∀ x ∈ (s.scrubbed c k).1.copies, x.line.ctx ≠ c.no :=
  fun _ h => of_decide_eq_true (List.mem_filter.1 h).2

theorem State.scrubbed_keys (s : State) (c : Context) (k : Nat) : ∀ x ∈ (s.scrubbed c k).1.keys, ¬ (x.no = c.kslot ∧ x.st = .scrubbing) := by
  intro x h
  have out := (List.mem_filter.1 h).2
  rwa [Bool.not_eq_true', decide_eq_false_iff_not] at out

theorem State.scrubStart_inbound (s : State) (c : Context) : ∀ e ∈ (s.scrubStart c).inbound, e.ctx = c.no → e.scrub = true := by
  intro e h of
  obtain ⟨d, -, rfl⟩ := List.mem_map.1 h
  split at of
  · next own => rw [if_pos own]
  · next other => exact absurd of other

theorem State.scrubStart_keys (s : State) (c : Context) : ∀ k ∈ (s.scrubStart c).keys, c.ownsKey k = true → k.st = .scrubbing := by
  intro k h owns
  obtain ⟨d, -, rfl⟩ := List.mem_map.1 h
  split at owns
  · next own => rw [if_pos own]
  · next other => exact absurd owns other

theorem State.coils_of_scrubReady {s : State} {n : Nat} (h : s.scrubReady n = true) : s.coils n = [] := by
  unfold State.scrubReady at h
  simp only [Bool.and_eq_true, beq_iff_eq] at h
  exact h.1.1

/-- Settles O50: each operation by its definition; a scrub by what its two steps keep. -/
theorem keysAndEvidence : Obligations.KeysAndEvidence := by
  intro s ready
  refine ⟨fun slot nonce key ses => ?_, fun id root ok peer => if_neg (by simp [ready]), if_neg (by simp [ready]), fun b stands old => ?_,
    fun n c cmd stands no fresh idle may => ?_, fun n c t0 stands no begun ready' host => ?_⟩
  · have open_ : ¬ s.boot ≠ .ready := fun h => h ready
    refine ⟨fun weak => ?_, fun secure bad => ?_, fun secure pos le => ⟨fun ⟨k, mem, is, full⟩ => ?_, fun empty => ?_⟩⟩
    · exact (if_neg open_).trans (if_pos (by rw [weak]; rfl))
    · exact (if_neg open_).trans ((if_neg (by rw [secure]; decide)).trans (if_pos bad))
    all_goals refine (if_neg open_).trans ((if_neg (by rw [secure]; decide)).trans ((if_neg (by omega)).trans ?_))
    · exact if_pos (List.any_eq_true.2 ⟨k, mem, decide_eq_true ⟨is, full⟩⟩)
    · refine if_neg fun h => ?_
      obtain ⟨k, mem, h⟩ := List.any_eq_true.1 h
      obtain ⟨is, full⟩ := of_decide_eq_true h
      exact full (empty k mem is)
  · show execLogBatchClose s = _
    rw [execLogBatchClose, stands]
    exact if_pos old
  · subst no
    refine ⟨?_, s.scrubStart_inbound c, s.scrubStart_keys c⟩
    show execScrub c.no none cmd s = _
    rw [execScrub, stands]
    dsimp only
    rw [if_neg, if_neg (by simp [idle]), if_pos (by simp [fresh])]
    obtain ⟨rfl, none⟩ | ⟨rfl, some⟩ := may
    · simp [ready, none]
    · simpa [ready] using some
  · subst no
    have idle := State.coils_of_scrubReady ready'
    refine ⟨fun none => ?_, fun m one is of free => ?_, fun k => ⟨s.scrubbed_receipts c k, s.scrubbed_locks c k, s.scrubbed_inbound c k,
      s.scrubbed_copies c k, s.scrubbed_keys c k⟩⟩
    · show execScrub c.no Option.none true s = _
      rw [execScrub, stands]
      dsimp only
      rw [none, if_neg (by simp [ready]), if_neg (by simp [idle]), if_neg (by simp [begun]), if_neg (by simp [ready'])]
      simp [host]
    · show execScrub c.no Option.none false s = _
      rw [execScrub, stands]
      dsimp only
      rw [one, if_neg (by simp [ready, is, of]), if_neg (by simp), if_neg (by simp [begun]), if_neg (by simp [ready', free])]
      simp [host, is, of]

end Sys2Proof.Machine
end

section
/-! SUPPORT. Transactions of the fabric: arrivals and answers (R218, R233 to R235, R466, R470, R473, R477, R478). -/

namespace Sys2Proof.Machine

theorem arrive_here {k : TxKind} {t : FabTx} {serve : State → Option State} {s u : State} (ready : s.boot = .ready) (here : t.dst = s.chip)
    (served : serve s = some u) : arrive k t serve s = .next (u.came t) := by
  rw [arrive, whenReady_of ready, if_neg (by simp [here]), served]

theorem arrive_elsewhere {t : FabTx} {s : State} (ready : s.boot = .ready) (away : t.dst ≠ s.chip) (k : TxKind) (serve : State → Option State) :
    arrive k t serve s = .next (s.relayIn k t) := by
  rw [arrive, whenReady_of ready, if_pos away]

theorem maskRuns_all : maskRuns 200 0 (BitVec.allOnes 128).toNat = [(0, 128)] := by decide +kernel

/-- Settles O51: an arrival is relayed, or served and counted. -/
theorem fabricArrivals : Obligations.FabricArrivals := by
  intro s t ready
  refine ⟨fun away => ?_, fun here => ⟨fun none => ?_, fun e u b held read => ?_, fun e u w held full len stored => ?_,
    fun e r u o w held asks done => ?_, fun u few home => ?_, fun u many few holder => ?_, fun many => ?_⟩⟩
  · exact ⟨(arrive_elsewhere ready away .read _ : execFabricRead t s = _), (arrive_elsewhere ready away .write _ : execFabricWrite t s = _),
      (arrive_elsewhere ready away .atomic _ : execFabricAtomic t s = _), (arrive_elsewhere ready away .msg _ : execFabricMsg t s = _)⟩
  · refine ⟨?_, ?_, ?_⟩
    · show execFabricRead t s = _
      rw [execFabricRead]
      exact arrive_here ready here (by rw [none])
    · show execFabricWrite t s = _
      rw [execFabricWrite]
      exact arrive_here ready here (by rw [none])
    · show execFabricAtomic t s = _
      rw [execFabricAtomic]
      exact arrive_here ready here (by rw [none])
  · show execFabricRead t s = _
    rw [execFabricRead]
    exact arrive_here ready here (by rw [held]; dsimp only; rw [read])
  · show execFabricWrite t s = _
    rw [execFabricWrite]
    refine arrive_here ready here ?_
    rw [held, full, maskRuns_all]
    have all : (t.data.drop 0).take 128 = t.data := List.take_of_length_le (by simp [len])
    simp only [List.foldl_cons, List.foldl_nil, Option.bind_some, Nat.add_zero, all, stored, Option.map_some, Nat.zero_max]
  · show execFabricAtomic t s = _
    rw [execFabricAtomic]
    exact arrive_here ready here (by rw [held, asks]; dsimp only; rw [done]; rfl)
  · show execFabricMsg t s = _
    rw [execFabricMsg]
    exact arrive_here ready here ((if_pos few).trans home)
  · show execFabricMsg t s = _
    rw [execFabricMsg]
    exact arrive_here ready here ((if_neg (by omega)).trans ((if_pos few).trans holder))
  · show execFabricMsg t s = _
    rw [execFabricMsg]
    exact arrive_here ready here ((if_neg (by omega)).trans ((if_neg (by omega)).trans ((if_neg (by omega)).trans (if_neg (by omega)))))

theorem State.retireBank_flits (s : State) (p : Nat) : (s.retireBank p).fab.flits = s.fab.flits := by
  unfold State.retireBank
  split
  · rfl
  · split <;> rfl

/-- A transaction that is no operation's fails as any does. -/
theorem nak_other {s : State} {t : Tx} {p tid : Nat} {r : Byte} {c va : Nat} (ready : s.boot = .ready) (stands : s.openTx p tid = some t)
    (owned : s.txOwner t = some (c, va)) (other : ∀ o, t.what ≠ .op o) :
    exec (.nak p tid r) s = s.ended ((({ s with discarded := s.discarded + 1 } : State).postAccess c va).failTx t) := by
  show execNak p tid r s = _
  rw [execNak, whenReady_of ready, stands]
  dsimp only
  rw [owned]
  dsimp only
  cases h : t.what with
  | op o => exact absurd h (other o)
  | _ => rfl

/-- Settles O52: each answer by its definition. -/
theorem fabricAnswers : Obligations.FabricAnswers := by
  intro s p ready
  refine ⟨fun tid t stands => ⟨fun b u kind end_ => ?_, fun c va u kind owned end_ => ?_, fun kind w u end_ => ?_, fun kind b w u end_ => ?_,
    fun c va r owned => ⟨fun o x what op => ?_, fun v other end_ => ?_⟩⟩, fun bank n l => ?_, fun bank n a stands live => ?_,
    fun bank n x stands v lost => ?_⟩
  · show execRdrsp p tid b s = _
    rw [execRdrsp, whenReady_of ready, stands]
    dsimp only
    obtain kind | ⟨kind, full⟩ := kind
    · rw [if_neg (by simp [kind]), if_pos (.inr kind), end_]
      rfl
    · rw [if_neg (by simp [full]), if_pos (.inl kind), end_]
      rfl
  · show execRdrsp p tid [] s = _
    rw [execRdrsp, whenReady_of ready, stands]
    dsimp only
    rw [if_pos ⟨kind, rfl⟩, owned]
    exact congrArg s.ended end_
  · show execWrrsp p tid w s = _
    rw [execWrrsp, whenReady_of ready, stands]
    dsimp only
    rw [if_pos kind, end_]
    rfl
  · show execAtrsp p tid b w s = _
    rw [execAtrsp, whenReady_of ready, stands]
    dsimp only
    rw [if_pos kind, end_]
    rfl
  · show execNak p tid r s = _
    rw [execNak, whenReady_of ready, stands]
    dsimp only
    rw [owned, what]
    dsimp only
    rw [op]
    rfl
  · rw [nak_other ready stands owned other]
    exact congrArg s.ended end_
  · refine ⟨_, (whenReady_of ready _ : execLinkControl p bank n l s = _), fun x mem peer same sent below => ?_⟩
    rw [State.retireBank_flits] at mem
    obtain ⟨y, kept, rfl⟩ := List.mem_map.1 mem
    have kept := (List.mem_filter.1 kept).2
    simp only [Bool.and_eq_true, Bool.not_eq_true', Bool.and_eq_false_iff, decide_eq_true_eq, decide_eq_false_iff_not] at peer same sent below kept
    by_cases resent : ((y.peer = p ∧ y.bank = bank) ∧ y.sent = true) ∧ l.contains y.ctr = true
    · rw [if_pos resent] at below
      simp [resent.1, Nat.not_le.2 below] at kept
    · rw [if_neg resent] at peer same sent below
      simp [peer, same, sent, below] at kept
  · show execFlitTimeout p bank n s = _
    rw [execFlitTimeout, whenReady_of ready, stands]
    exact if_pos live
  · show execRetryLimit p bank n s = _
    rw [execRetryLimit, whenReady_of ready, stands]
    dsimp only
    rw [lost]

end Sys2Proof.Machine
end

section
/-! SUPPORT. The line protocol's messages and the host's accesses (R215, R218, R221, R222, R233 to R237, R248 to R261, R452, R453, R477, R478). -/

namespace Sys2Proof.Machine

theorem message_of_isNext {s : State} {ty : MType} {m : Msg} (next : s.isNext ty m = true) : message ty m s = .next (s.deliver ty m) :=
  if_pos next

/-- An answer of a cluster or of the home is a message as any other. -/
theorem messageOrAnswer_of_isNext {s : State} {ty : MType} {m : Msg} (inside : ∀ p, m.src ≠ .host ∧ m.src ≠ .peer p) (next : s.isNext ty m = true) :
    messageOrAnswer ty m s = .next (s.deliver ty m) := by
  unfold messageOrAnswer
  split
  · next h => exact absurd h (inside 0).1
  · next p h => exact absurd h (inside p).2
  · exact message_of_isNext next

/-- Settles O39: each event by its definition. -/
theorem messagesAreDelivered : Obligations.MessagesAreDelivered := by
  refine ⟨fun s m inside => ?_, fun s k l => ⟨fun p pinned old => ?_, fun c held free => ⟨fun u vb lasting expiry over_ recv => ?_, fun u gone => ?_⟩,
    fun f w a mem line => ?_⟩⟩
  · exact ⟨message_of_isNext, message_of_isNext, message_of_isNext, message_of_isNext, message_of_isNext, messageOrAnswer_of_isNext inside,
      message_of_isNext, messageOrAnswer_of_isNext inside, message_of_isNext, message_of_isNext, message_of_isNext, message_of_isNext,
      message_of_isNext, message_of_isNext, message_of_isNext⟩
  · show execPinExpiry k l s = _
    rw [execPinExpiry, pinned]
    exact if_pos old
  · show execTimer k l s = _
    rw [execTimer, held]
    dsimp only
    rw [if_pos (by simp [vb, lasting, expiry, over_, free]), recv]
  · show execL1Eviction k l s = _
    rw [execL1Eviction, held]
    dsimp only
    rw [if_neg (by simp [free]), gone]
  · subst line
    intro u va window closed acc
    have here : s.fwds.contains f = true := List.contains_iff_mem.2 mem
    have window' : u.window? f.line.ctx va = some w := window
    have acc' : f.acc.bind u.acc? = some a := acc
    refine ⟨fun none => ?_, fun r some => ?_⟩
    · show execForwardedAccess f s = _
      rw [execForwardedAccess, if_pos here]
      dsimp only
      rw [window', acc']
      dsimp only
      rw [if_neg (by simp [closed]), none]
    · show execForwardedAccess f s = _
      rw [execForwardedAccess, if_pos here]
      dsimp only
      rw [window', acc']
      dsimp only
      rw [if_neg (by simp [closed]), some] <;> rfl

/-- Settles O40: each event by its definition. -/
theorem hostAccesses : Obligations.HostAccesses := by
  refine ⟨fun s ready => ⟨fun r device => ?_, fun n a x stands at_ => ⟨fun r u o v asks done => ?_, ?_⟩⟩,
    fun s ctx page frame asked => ⟨?_, fun pa e u v leaf apart home far reach room present put inv => ?_⟩⟩
  · intro n l
    have endpoint : ¬ s.personality = .rootComplex := by simp [device]
    refine ⟨fun aborts => ?_, fun u b serves brief => ?_, fun q asks may aligned => ⟨fun none => ?_, fun e u b w held done => ?_⟩⟩
    · show execCxlMemRequest r s = _
      rw [execCxlMemRequest, whenReady_of ready, if_neg endpoint]
      dsimp only
      split
      · rfl
      · next e => cases e.symm.trans aborts
      · next e => cases e.symm.trans aborts
    · show execCxlMemRequest r s = _
      rw [execCxlMemRequest, whenReady_of ready, if_neg endpoint]
      dsimp only
      split
      · next e => cases e.symm.trans serves
      · next e => cases e.symm.trans serves
      · next e =>
        cases e.symm.trans serves
        rw [if_neg (by simp [brief])]
    · show execAtomicop r s = _
      rw [execAtomicop, whenReady_of ready, asks]
      dsimp only
      rw [if_neg (by simp [endpoint, may, aligned]), none]
    · show execAtomicop r s = _
      rw [execAtomicop, whenReady_of ready, asks]
      dsimp only
      rw [if_neg (by simp [endpoint, may, aligned]), held]
      dsimp only
      rw [done]
  · show execHostCompletion n s = _
    rw [execHostCompletion, whenReady_of ready, stands, Option.bind_some, at_, Option.map_some]
    dsimp only
    rw [asks]
    dsimp only
    rw [done]
  · show execCompleterAbort n s = _
    rw [execCompleterAbort, whenReady_of ready, stands, Option.bind_some, at_]
    rfl
  · show execPageMigration ctx page false frame s = _
    rw [execPageMigration, if_neg (by simp [asked])]
    rfl
  · show execPageMigration ctx page true frame s = _
    have free : (s.windows.any fun w => decide (w.ctx = ctx ∧ w.vbase / 64 < page + 65536 / 65536 ∧ page * 64 < w.vbase + w.klen)) = false := by
      rw [List.any_eq_false]
      intro w mem
      simp [apart w mem]
    rw [execPageMigration, if_neg (by simp [asked]), if_neg (by simp), leaf]
    dsimp only
    rw [if_neg, if_pos present, put]
    · dsimp only
      simp only [Bool.false_eq_true, if_false, Nat.div_self (show 0 < 65536 by decide), show 65536 / 128 = 512 from rfl]
      rw [inv]
    · simp only [Bool.false_eq_true, if_false, free, home, far, reach, false_and, false_or, Bool.not_true, Nat.not_lt.2 room, not_false_eq_true]

end Sys2Proof.Machine
end

section
/-! SUPPORT. Translations, late faults, store release, load results (R18, R210, R268, R271, R363, R371). -/

namespace Sys2Proof.Machine

theorem translation_of {s : State} {n : Nat} {a : Access} (stands : s.acc? n = some a) (waits : a.untranslated = true) :
    (∀ u x, s.early a true = (u, .ok x) → exec (.translation n) s =
      .next { u with accs := u.accs.map fun b => if b.untranslated && a.peers b then { b with xl := some x, xf := none } else b }) ∧
    (∀ u e, s.early a true = (u, .bad e) → exec (.translation n) s =
      .next { u with accs := u.accs.map fun b => if b.untranslated && a.peers b then { b with xl := none, xf := some e } else b }) := by
  refine ⟨fun u x found => ?_, fun u e found => ?_⟩ <;>
  · show execTranslation n s = _
    rw [execTranslation, stands]
    dsimp only
    rw [if_neg (by simp [waits]), found]

theorem storeRelease_of {s : State} {n : Nat} {a : Access} (stands : s.acc? n = some a) (kind : a.kind = .st) (open_ : a.done = false) :
    (∀ k, a.sq = some k → s.releasable a = true → exec (.storeRelease n) s =
      .next (((s.setAcc { a with sq := none }).perform { a with sq := none }).getD (s.setAcc { a with sq := none }))) ∧
    (∀ u, a.sq = none → s.perform a = some u → exec (.storeRelease n) s = .next u) := by
  refine ⟨fun k held may => ?_, fun u left done => ?_⟩ <;>
  · show execStoreRelease n s = _
    rw [execStoreRelease, stands]
    simp [*]

theorem loadResult_of {s : State} {n : Nat} {a : Access} {w : Width} (stands : s.acc? n = some a) (kind : a.kind = .ld w) :
    (a.done = true → exec (.loadResult n) s = .next (s.land a)) ∧
    (∀ u, a.done = false → a.void = false → s.perform a = some u → exec (.loadResult n) s = .next u) := by
  refine ⟨fun done => ?_, fun u open_ valid done => ?_⟩ <;>
  · show execLoadResult n s = _
    rw [execLoadResult, stands]
    simp [*]

theorem lateXlateFault_of {s : State} {n : Nat} {a : Access} {e : Nat} (stands : s.acc? n = some a) (fault : a.xf = some e) (valid : a.void = false) :
    let w := laneWho a.lane
    let f := s.fibre w a.lane.lane
    let all := s.accs.filter fun b => a.peers b && decide (b.xf = some e) && !b.void &&
      decide ((s.fibre w b.lane.lane).kpc = f.kpc ∧ (s.fibre w b.lane.lane).serial = f.serial)
    let u := all.foldl (fun (s : State) b => (s.failAcc b).unpark b.lane) s
    exec (.lateXlateFault n) s = .next ((u.park w (all.map fun b => b.lane.lane)
      ⟨.xlate, .knot, xlateInfo e a.kind.xkind, BitVec.ofNat 64 a.va, false⟩ f.kpc a.fpc a.hpc).flushParks a.lane.rope.core) := by
  show execLateXlateFault n s = _
  rw [execLateXlateFault, stands]
  dsimp only
  rw [fault]
  exact if_neg (by simp [valid])

/-- Settles O37. -/
theorem translationAndRelease : Obligations.TranslationAndRelease :=
  fun _ _ _ stands => ⟨translation_of stands, fun _ fault valid => lateXlateFault_of stands fault valid, storeRelease_of stands,
    fun _ kind => (loadResult_of stands kind).1, fun _ u kind => (loadResult_of stands kind).2 u⟩

end Sys2Proof.Machine
end

section
/-! SUPPORT. Launches, stops and the ends of ropes (R189 to R202, R393 to R396, R410, R425, R454, R459). -/

namespace Sys2Proof.Machine

/-- Steps that keep a rope's number, one after the other. -/
theorem foldl_bind_id {f : Rope → Nat → Option Rope} (keep : ∀ a i t, f a i = some t → t.id = a.id) {t : Rope} :
    ∀ (l : List Nat) (a : Option Rope), l.foldl (fun a i => a.bind fun a => f a i) a = some t → ∃ b, a = some b ∧ t.id = b.id
  | [], _, h => ⟨t, h, rfl⟩
  | i :: l, a, h => by
    obtain ⟨c, step, same⟩ := foldl_bind_id keep l _ h
    obtain ⟨b, rfl, step⟩ := Option.bind_eq_some_iff.1 step
    exact ⟨b, rfl, same.trans (keep b i c step)⟩

/-- A rope that is given its windows' origins keeps its number. -/
theorem Rope.seat_id {rs : List Rope} {r t : Rope} (h : r.seat rs = some t) : t.id = r.id := by
  obtain ⟨b, ⟨⟩, same⟩ := foldl_bind_id (fun a i t step => by
    obtain ⟨o, -, rfl⟩ := Option.map_eq_some_iff.1 step
    rfl) _ _ h
  exact same

/-- The element that stands for a rope, looked up by its number, has that number. -/
theorem find_id (l : List Rope) (x : Rope) : ((l.find? fun y => decide (y.id = x.id)).getD x).id = x.id := by
  cases h : l.find? fun y => decide (y.id = x.id) with
  | none => rfl
  | some y => exact of_decide_eq_true (List.find?_some h :)

theorem State.seated_ids (new : List Rope) (s : State) : (s.seated new).ropes.map Rope.id = s.ropes.map Rope.id ++ new.map Rope.id := by
  unfold State.seated
  induction new generalizing s with
  | nil => simp
  | cons r new ih =>
    rw [List.foldl_cons, ih]
    split
    · next t seat => simp [Rope.seat_id seat]
    · simp only [List.map_map, Function.comp_def, find_id, List.map_append, List.map_cons, List.map_nil, List.append_assoc, List.cons_append, List.nil_append]

theorem State.accept_free {s : State} {c : Context} {q : Nat} (free : c.freeEntry = some q) (b : List Byte) (boss : Nat) :
    (s.accept c b boss).2 = true := by
  unfold State.accept
  rw [free]
  dsimp only
  repeat' split
  all_goals rfl

theorem not_not_eq_true {b : Bool} (h : b = true) : ¬ (!b) = true := by simp [h]

theorem State.setLaunch_ropes (s : State) (n : Nat) (l : Launch) : (s.setLaunch n l).ropes = s.ropes := by
  unfold State.setLaunch
  split <;> rfl

theorem coilDispatch_of {s u : State} {c : Context} {l : Launch} {st k : Nat} {p : Placement} {offs : List Nat}
    (next : s.nextCoil = some (c, l, st, k)) (fits : l.fitsEmpty = true) (dep : s.depTry c.no l st k = (u, .ready))
    (count : p.ropes.length = l.ropesIn.length) (ok : placementOk p (u.banned c.no) = true)
    (placed : u.placeAll p.cluster ((seatsOf p).map fun q => (q.1, l.need q.2)) = some offs) :
    exec (.coilDispatch c.no l.q st k p) s = .next
      { ((u.dropRoCtx p.cluster c.no).setLaunch c.no { l with gone := l.gone ++ [(st, k)] }).seated
          ((l.ropesIn.zip ((seatsOf p).zip offs)).zipIdx.map fun q => l.rope c.no st k q.2 q.1.1 q.1.2.1.1 q.1.2.1.2 q.1.2.2 u.gtime) with rrCtx := c.no } := by
  show execCoilDispatch c.no l.q st k p s = _
  rw [execCoilDispatch, next]
  dsimp only
  rw [if_neg (by simp), if_neg (by simp [fits]), dep]
  dsimp only
  rw [if_neg (by simp [count, ok]), placed]

/-- Settles O41: each event by its definition; ropes that are seated keep their numbers. -/
theorem launchEvents : Obligations.LaunchEvents := by
  refine ⟨fun s => ⟨fun g gen peer c l grp waits group member => ?_, fun g c l waits => ?_, fun c l st k u p offs next fits dep count ok placed => ?_,
    fun c l st k p next => ⟨fun big => ?_, fun u fits dep => ?_⟩, fun n q c l st stands entry ended => ?_⟩,
    fun s page b => ⟨fun off_ off posted => ?_, fun ready len => ⟨fun none => ?_, fun c stands => ⟨fun full => ?_, fun q free => ?_⟩, ?_⟩⟩⟩
  · have member' : ¬ (!((lookupBy Group.no g s.groups).map fun g => g.members.any fun m => decide (m.1 = peer)).getD false) = true := by
      rw [group]
      exact not_not_eq_true member
    refine ⟨?_, ?_⟩
    · show execGroupReady g gen peer true s = _
      rw [execGroupReady, waits]
      exact (if_neg member').trans (if_pos rfl)
    · show execGroupReady g gen peer false s = _
      rw [execGroupReady, waits]
      exact (if_neg member').trans (if_neg (by decide))
  · show execGroupTimeout g s = _
    rw [execGroupTimeout, waits]
  · exact ⟨coilDispatch_of next fits dep count ok placed, (State.seated_ids _ _).trans (by rw [State.setLaunch_ropes]; rfl)⟩
  · show execCoilDispatch c.no l.q st k p s = _
    rw [execCoilDispatch, next]
    dsimp only
    rw [if_neg (by simp), if_pos (by simp [big])]
  · show execCoilDispatch c.no l.q st k p s = _
    rw [execCoilDispatch, next]
    dsimp only
    rw [if_neg (by simp), if_neg (by simp [fits]), dep]
  · show execLaunchComplete n q s = _
    rw [execLaunchComplete, stands, Option.bind_some, entry, Option.map_some]
    dsimp only
    rw [ended]
  · exact if_pos off_
  · show execLaunchSubmission page 0 b false s = _
    rw [execLaunchSubmission, if_neg (by simp [ready]), if_neg (by simp), if_neg (by simp [len]), none]
  · show execLaunchSubmission page 0 b false s = _
    rw [execLaunchSubmission, if_neg (by simp [ready]), if_neg (by simp), if_neg (by simp [len]), stands]
    dsimp only
    rw [show s.accept c b s.chip = (s, false) by rw [State.accept, full]]
  · have taken := State.accept_free free b (s := s) s.chip
    refine ⟨(s.accept c b s.chip).1, ?_, Prod.ext rfl taken⟩
    show execLaunchSubmission page 0 b false s = _
    rw [execLaunchSubmission, if_neg (by simp [ready]), if_neg (by simp), if_neg (by simp [len]), stands]
    dsimp only
    rw [show s.accept c b s.chip = ((s.accept c b s.chip).1, true) from Prod.ext rfl taken]
  · show execLaunchSubmission page 0 b true s = _
    rw [execLaunchSubmission, if_neg (by simp [ready]), if_pos rfl]

end Sys2Proof.Machine
end

section
/-! SUPPORT. Stops of coils (R393 to R396, R410, R425) and the end of a rope (R147, R193, R222). -/

namespace Sys2Proof.Machine

theorem State.stop?_setStop (s : State) (x : Stop) : (s.setStop x).stop? x.key = some x := by
  unfold State.stop? State.setStop
  induction s.stops with
  | nil => simp [upsert]
  | cons y l ih =>
    simp only [upsert]
    split
    · simp
    · next ne => rw [List.find?_cons_of_neg (by simp [ne]), ih]

/-- A halted coil's ropes all stand halted (R395). -/
theorem State.mapCoil_halt (s : State) (k : CoilKey) : ∀ r ∈ (s.mapCoil k fun r => { r with halt := true }).ropes, r.key = k → r.halt = true := by
  intro r mem of
  obtain ⟨q, -, rfl⟩ := List.mem_map.1 mem
  split at of
  · next own => rw [if_pos own]
  · next other => exact absurd of other

/-- Settles O43: each event by its definition. -/
theorem stoppingCoils : Obligations.StoppingCoils := by
  refine ⟨fun s ctx coil => ⟨fun some => ?_, fun x due => ?_, fun x quiet => ?_⟩, fun s core e => ⟨fun ready few => ?_, fun hung => if_pos hung⟩⟩
  · have all : ((s.coils ctx).filter fun _ => true) = s.coils ctx := List.filter_eq_self.2 fun _ _ => rfl
    show execPreemptRequest ctx none s = _
    rw [execPreemptRequest]
    dsimp only
    rw [all, if_neg some]
  · show execPreemptDeadline ctx coil s = _
    rw [execPreemptDeadline, due]
  · let u := (s.coilRopes x.key).foldl (fun (s : State) r => s.endPins r.id) s
    let v := u.mapCoil x.key fun r => { r with halt := true }
    let ids := (s.coilRopes x.key).map Rope.id
    let w : State := { v with windows := v.windows.map fun (w : Window) => if ids.contains w.rope then { w with closed := true } else w }
    refine ⟨w.setStop { x with quiet := true, since := v.gtime }, ?_, w.stop?_setStop _, u.mapCoil_halt x.key⟩
    show execQuiesce ctx coil s = _
    rw [execQuiesce, quiet]
  · exact if_neg (by simp [ready, few])

/-! ### A number that two ropes bear -/

/-- What stands of a rope that has ended; with the last of its coil, none of the coil's (R147, R193). -/
def State.ropeGone (s : State) (rp : Rope) : State :=
  let t := s.setRope { rp with ended := true, ntiles := 0, tiles := [], planes := [], strands := rp.strands.map fun _ => Strand.init }
  if (t.coilRopes rp.key).all Rope.ended then
    { t with ropes := t.ropes.filter fun x => decide (x.key ≠ rp.key), stops := t.stops.filter fun x => decide (x.key ≠ rp.key) }
  else t

theorem ropeEnd_of {s u v : State} {r : RopeId} {rp : Rope} {c : Context} {l : Launch} (here : s.rope? r = some rp) (free : s.pinsOf r = [])
    (over_ : s.ropeDone rp = true)
    (shut : (s.as (.rope r rp.qent rp.bidx)).unmapAll (s.windows.filter fun w => decide (w.rope = r)) = (u, true)) (own : u.ctx? rp.ctx = some c)
    (entry : lookupBy Launch.q rp.qent c.queue = some l) (noted : u.recordEnd rp l = (v, some true)) :
    exec (.ropeEnd r) s = .next ((v.ropeGone rp).setLaunch rp.ctx { l with ended := l.ended + 1 }) := by
  show execRopeEnd r s = _
  rw [execRopeEnd, here]
  dsimp only
  rw [if_neg (by simp [free]), if_neg (by simp [over_]), shut]
  dsimp only
  rw [own, Option.bind_some, entry]
  dsimp only
  rw [noted]
  rfl

/-- A rope with no strand, of the coil of an index. -/
def twin (coil : Nat) : Rope := { shell ⟨0, 0⟩ ⟨0, 8, 0, 0, 0⟩ 0 with
  coil := coil }

/-- A launch that records no completion. -/
def bareLaunch : Launch :=
  { q := 0, seq := 0, packet := [], st := .running, boff := 0, gone := [], ended := 0, lo := 0, hi := 0, readyM := [], doneM := [], boss := 0,
    final := none, opened := false }

theorem bits_of_zero (lo len : Nat) : bits 0 lo len = 0 := by simp [bits]

theorem bareLaunch_fld (lo len : Nat) : bareLaunch.fld lo len = 0 := bits_of_zero lo len

theorem State.recordEnd_none (s : State) (r : Rope) {l : Launch} (none : l.fld 512 64 = 0) : s.recordEnd r l = (s, some true) := by
  rw [State.recordEnd]
  dsimp only
  rw [if_pos none]

/-- A context whose queue holds the bare launch. -/
def bareCtx : Context := { Context.blank 0 0 with queue := [bareLaunch] }

/-- Two ropes of two coils that bear one number, both done, and their launch. -/
def twins : State := { State.reset with
  gtime := 1
  ropes := [twin 0, twin 1]
  ctxs := [bareCtx] }

theorem twins_left : ((twins.as (.rope ⟨0, 0⟩ 0 0)).ropeGone (twin 0)).rope? ⟨0, 0⟩ = some (twin 1) := by
  decide +kernel

/-- Refutes O42: where the whole coil of the rope that ends is gone, a rope of another coil that bears the same number stands for it, and
the statement has no hypothesis that a number is one rope's. -/
theorem not_ropesEnd : ¬ Obligations.RopesEnd := by
  intro h
  have own : (twins.as (.rope ⟨0, 0⟩ 0 0)).ctx? 0 = some bareCtx := rfl
  have noted : (twins.as (.rope ⟨0, 0⟩ 0 0)).recordEnd (twin 0) bareLaunch = (twins.as (.rope ⟨0, 0⟩ 0 0), some true) := State.recordEnd_none _ _ (bareLaunch_fld 512 64)
  have over_ : twins.ropeDone (twin 0) = true := by decide +kernel
  obtain ⟨t, run, ends⟩ := (h twins ⟨0, 0⟩ (twin 0) rfl).2 bareCtx bareLaunch _ _ rfl over_ rfl own rfl noted
  rw [ropeEnd_of (s := twins) (r := ⟨0, 0⟩) (rp := twin 0) rfl rfl over_ rfl own rfl noted] at run
  cases run
  rw [show ∀ (s : State) n l r, (s.setLaunch n l).rope? r = s.rope? r from fun s n l r => by rw [State.rope?, State.setLaunch_ropes]; rfl, twins_left] at ends
  obtain none | ⟨x, same, ended, -⟩ := ends
  · cases none
  · cases same
    cases ended

end Sys2Proof.Machine
end

section
/-! SUPPORT. Boot, power, heat, hardware errors and the debugger (R4, R5, R10, R195, R197, R225, R378, R389 to R392, R437, R451, R454, R455). -/

namespace Sys2Proof.Machine

theorem lookupBy_map {κ α : Type} [DecidableEq κ] {key : α → κ} {f : κ → α} (is : ∀ k, key (f k) = k) {k : κ} :
    ∀ {l : List κ}, k ∈ l → lookupBy key k (l.map f) = some (f k)
  | j :: l, mem => by
    rw [List.map_cons, lookupBy, is]
    split
    · next h => rw [h]
    · next ne => exact lookupBy_map is ((List.mem_cons.1 mem).resolve_left fun h => ne h.symm)

/-- Every core's supervisor strand stands at the image's entry (R378). -/
theorem core_supCores {s : State} {entry : DWord} (h : s.cores = supCores entry) {n : Nat} (lt : n < 2880) :
    (s.core n).sv = Strand.sup entry (Config.svPage n) := by
  rw [State.core, h, supCores, lookupBy_map (key := Core.no) (fun _ => rfl) (List.mem_range.2 lt)]
  rfl

theorem registerWrite_waitfw {s : State} (waits : s.boot = .waitfw) (device : s.personality = .endpoint) (v : DWord) :
    exec (.registerWrite .fwaddr v) s = .next { s with fwaddr := v } ∧ exec (.registerWrite .fwlen v) s = .next { s with fwlen := v.setWidth 32 } := by
  constructor <;> refine (if_neg (by simp [waits])).trans ?_ <;> simp [waits, device]

theorem verifyDone_of {s : State} (verifies : s.boot = .verify) :
    let back := fun (e : Nat) => Host.Outcome.next { s with boot := .waitfw, bootErr := e, fwImage := none, fwBytes := [] }
    (2 ^ 26 < s.fwlen.toNat → exec .verifyDone s = back 2) ∧
    (0 < s.fwlen.toNat → s.fwlen.toNat ≤ 2 ^ 26 → (s.fwImage = none → exec .verifyDone s = back 3) ∧
      (∀ i, s.fwImage = some i → exec .verifyDone s = if i.sigOk then .next { s with boot := .init } else back 1)) := by
  intro back
  have verifies' : ¬ s.boot ≠ .verify := fun h => h verifies
  refine ⟨fun big => ?_, fun pos small => ⟨fun none => ?_, fun i some => ?_⟩⟩
  · show execVerifyDone s = _
    rw [execVerifyDone, if_neg verifies']
    exact if_pos (.inr big)
  · show execVerifyDone s = _
    rw [execVerifyDone, if_neg verifies']
    dsimp only
    rw [if_neg (by omega), none]
  · show execVerifyDone s = _
    rw [execVerifyDone, if_neg verifies']
    dsimp only
    rw [if_neg (by omega), some]
    dsimp only
    split <;> rfl

theorem initDone_of {s : State} (inits : s.boot = .init) :
    (∀ o, exec (.initDone false o) s = .next { s with boot := .halted, bootErr := 4 }) ∧
    exec (.initDone true false) s = .next { s with boot := .halted, bootErr := 5 } ∧
    (∀ i, s.fwImage = some i → ∃ t, exec (.initDone true true) s = .next t ∧ t.boot = .ready ∧ t.gtime = 0 ∧ t.hbm = [] ∧ t.hbmKey = [] ∧
      t.keys = [⟨0, .loaded, 0, 0⟩] ∧ t.bootNonce = s.bootNonce + 1 ∧
      (i.svCode ≠ [] → ∀ n, n < 2880 → (t.core n).sv = Strand.sup i.svEntry (Config.svPage n))) := by
  have inits' : ¬ s.boot ≠ .init := fun h => h inits
  refine ⟨fun o => (if_neg inits').trans (if_pos rfl), (if_neg inits').trans ((if_neg (by decide)).trans (if_pos rfl)), fun i some => ?_⟩
  refine ⟨{ s with
    boot := .ready, hbm := [], hbmKey := [], keys := [⟨0, .loaded, 0, 0⟩], bootNonce := s.bootNonce + 1, gtime := 0, rseq := 0, bseq := 0
    prevDig := [], lastPrev := [], batch := none, batches := []
    svMem := if i.svCode = [] then [] else cellsWrite [] i.svEntry.toNat i.svCode
    cores := if i.svCode = [] then [] else supCores i.svEntry }, ?_, rfl, rfl, rfl, rfl, rfl, rfl, fun code n lt => core_supCores (if_neg code) lt⟩
  show execInitDone true true s = _
  rw [execInitDone, if_neg inits', if_neg (by decide), if_neg (by decide), some]

/-- Settles O45: each write and event by its definition. -/
theorem bootSequence : Obligations.BootSequence := by
  intro s
  refine ⟨fun strap fuse => ⟨rfl, rfl, rfl, rfl⟩, fun up => if_neg up, fun waits device => ⟨fun i small => ?_, fun v => (registerWrite_waitfw waits device v).1,
    fun v => (registerWrite_waitfw waits device v).2⟩, fun past up i v => ⟨?_, ?_⟩, fun waits root i => ⟨fun v => ?_, fun v => ?_, fun b small => ?_, fun all => ?_⟩,
    verifyDone_of, initDone_of⟩
  · show execGo (some i) s = _
    rw [execGo, if_neg (by simp [waits]), if_neg (by simp [waits, device]), if_pos ⟨rfl, small⟩]
    rfl
  · exact (if_neg up).trans (if_pos (.inl past))
  · refine (if_neg up).trans ?_
    simp [past]
  all_goals refine (if_neg (by simp [waits])).trans ((if_neg (by simp [waits, root])).trans ?_)
  · rfl
  · rfl
  · exact congrArg _ (if_pos small)
  · exact congrArg (fun i => Host.Outcome.next (s.goNow s.fwBytes i)) (if_pos all)

theorem throttleUpdate_of {s : State} (ready : s.boot = .ready) (e : Nat) : exec (.throttleUpdate e) s =
    .next (if s.hot ∨ 9700000 < e then { s with power := e, share := max 2 (s.share - 1) }
      else if e < 9500000 then { s with power := e, share := min 16 (s.share + 1) } else { s with power := e }) := by
  show execThrottleUpdate e s = _
  rw [execThrottleUpdate, whenReady_of ready]

theorem State.hbmWrite_inb? (s : State) (key pa : Nat) (b : List Byte) (f : Nat) : (s.hbmWrite key pa b).inb? f = s.inb? f := by
  unfold State.hbmWrite
  split <;> rfl

/-- Settles O46: each event by its definition. -/
theorem powerAndHeat : Obligations.PowerAndHeat := by
  refine ⟨fun s ready => ⟨fun e high => ?_, fun e cool low => ?_, fun e cool least most => ?_, fun hot => if_neg (by simp [ready]), ?_, ?_,
    fun n cls c b v stands budget => ?_, fun k n v => ?_⟩, fun s ready => ⟨fun l => ?_, fun l u struck => ?_, fun l h pa home loc clean => ?_,
    fun pa ok none => ?_, fun l reg lt => ?_⟩⟩
  · rw [throttleUpdate_of ready, if_pos high]
  · rw [throttleUpdate_of ready, if_neg (by simp [cool]; omega), if_pos low]
  · rw [throttleUpdate_of ready, if_neg (by simp [cool]; omega), if_neg (by omega)]
  · show execThermalStop s = _
    rw [execThermalStop, whenReady_of ready]
  · show execFatalServiceCoreFault s = _
    rw [execFatalServiceCoreFault, whenReady_of ready]
  · constructor
    · show execBudgetWindow n cls .hbm v s = _
      rw [execBudgetWindow, whenReady_of ready, stands]
      dsimp only
      rw [budget]
    · show execBudgetWindow n cls .power v s = _
      rw [execBudgetWindow, whenReady_of ready, stands]
      dsimp only
      rw [budget]
  · exact (if_neg (by simp [ready])).trans (if_neg (by simp [ready]))
  · show execCorrectableError l s = _
    rw [execCorrectableError, whenReady_of ready]
  · show execUncorrectableError l s = _
    rw [execUncorrectableError, whenReady_of ready, struck]
  · simp [State.strike, home, loc, clean]
  · refine (if_neg (not_not_eq_true ok)).trans ?_
    refine congrArg some ?_
    rw [State.hbmWrite_inb?, none]
    rfl
  · exact if_neg (Nat.not_le.2 lt)

/-- Strands of ropes changed one after the other leave the cores. -/
theorem State.foldl_setStrand_cores (f : Strand → Strand) : ∀ (ws : List Who) (s : State), (∀ w ∈ ws, ∃ r i, w = .strand r i) →
    (ws.foldl (fun (s : State) w => s.setStrand w (f (s.strand w))) s).cores = s.cores
  | [], _, _ => rfl
  | w :: ws, s, strands => by
    obtain ⟨r, i, rfl⟩ := strands w List.mem_cons_self
    rw [List.foldl_cons, State.foldl_setStrand_cores f ws _ fun w mem => strands w (List.mem_cons_of_mem _ mem)]
    unfold State.setStrand
    dsimp only
    split <;> rfl

/-- The debugger names strands of ropes alone. -/
theorem State.dbgStrands_strand (s : State) (t : DbgTarget) : ∀ w ∈ s.dbgStrands t, ∃ r i, w = .strand r i := by
  intro w mem
  cases t with
  | ctx c =>
    obtain ⟨r, -, mem⟩ := List.mem_flatMap.1 mem
    obtain ⟨i, -, rfl⟩ := List.mem_map.1 mem
    exact ⟨_, _, rfl⟩
  | rope r =>
    rw [State.dbgStrands] at mem
    cases h : s.rope? r with
    | none => simp [h] at mem
    | some rp =>
      rw [h] at mem
      obtain ⟨i, -, rfl⟩ := List.mem_map.1 mem
      exact ⟨_, _, rfl⟩
  | strand r i =>
    rw [State.dbgStrands] at mem
    split at mem
    · exact ⟨r, i, List.mem_singleton.1 mem⟩
    · cases mem

/-- Settles O47: each command by its definition. -/
theorem debugger : Obligations.Debugger := by
  intro s ready d
  refine ⟨fun t => ?_, fun l st p halted live focus cur => ?_, fun t empty => ?_⟩
  · show execDebugHalt t s = _
    rw [execDebugHalt, whenReady_of ready]
  · have may : ¬ ((!(d.strand (laneWho l)).halted) = true ∨ ((d.strand (laneWho l)).fibre l.lane).st ≠ .live) :=
      not_or.2 ⟨not_not_eq_true halted, fun h => h live⟩
    refine ⟨fun ready' => ?_, fun blocked => ?_⟩
    · show execDebugStep l s = _
      rw [execDebugStep, whenReady_of ready]
      dsimp only
      rw [if_neg may, focus]
      dsimp only
      rw [cur]
      exact if_pos ready'
    · show execDebugStep l s = _
      rw [execDebugStep, whenReady_of ready]
      dsimp only
      rw [if_neg may, focus]
      dsimp only
      rw [cur]
      exact if_neg (Bool.eq_false_iff.1 blocked)
  · have none : ((((d.dbgStrands t).foldl (fun (s : State) w => s.setStrand w { s.strand w with halted := false, grant := none }) d).cores.flatMap Core.rq).filter
        fun e => decide (e.cls = .brk) && (d.dbgStrands t).contains (.strand e.rope e.sid)) = [] := by
      rw [State.foldl_setStrand_cores (fun st => { st with halted := false, grant := none }) _ _ (d.dbgStrands_strand t),
        List.flatMap_eq_nil_iff.2 empty]
      rfl
    show execDebugResume t s = _
    rw [execDebugResume, whenReady_of ready]
    dsimp only
    rw [none]
    rfl

end Sys2Proof.Machine
end

section
/-! SUPPORT. Management commands (R199, R218, R226, R246, R247, R312, R393, R401, R406, R409, R425, R428, R433, R436, R456, R457, R472). -/

namespace Sys2Proof.Machine

theorem command_answers {res : ResAddr} {f : State → State × Option (Nat × Nat)} {s u : State} {st v : Nat} (ready : s.boot = .ready) (idle : s.cmds = [])
    (done : f s = (u, some (st, v))) : command res f s = .next (u.result res.toNat st v) := by
  rw [command, if_neg (by simp [ready, idle]), done]

theorem command_starts {res : ResAddr} {f : State → State × Option (Nat × Nat)} {s u : State} {k : CmdKind} {n m : Nat} (ready : s.boot = .ready)
    (idle : s.cmds = []) (begun : f s = u.start k n res m) : command res f s = .next { u with cmds := u.cmds ++ [⟨k, n, res.toNat, m⟩] } := by
  rw [command, if_neg (by simp [ready, idle]), begun, State.start]
  dsimp only
  rw [if_neg (by simp [idle])]

theorem State.ctx?_setCtx_same (s : State) (c : Context) : (s.setCtx c).ctx? c.no = some c :=
  (lookupBy_upsert _ _ _ _).trans (if_pos rfl)

/-- A context that a reload has left fit becomes resident, and its key slot is bound (R226, R428). -/
theorem ctxctlResident_of {s u : State} {res : ResAddr} {n : Nat} {c d : Context} (ready : s.boot = .ready) (idle : s.cmds = [])
    (stands : s.ctx? n = some c) (out : c.resident = false) (alive : c.dead = false) (room : (s.ctxs.filter Context.resident).length < 256)
    (loaded : s.reload c true = (u, some 0)) (now : u.ctx? n = some d) (fits : u.slotFits d = true) :
    ∃ t, exec (.ctxctlResident res n) s = .next t ∧ (t.ctx? d.no).map Context.resident = some true ∧
      (d.kslot ≠ 0 → ∀ k ∈ t.keys, k.no = d.kslot → k.st = .bound) := by
  let e : Context := { d with resident := true, leaving := false, saved := d.saved.map fun (x : Saved) => { x with bad := false } }
  let v := u.setCtx e
  let t : State := { v with keys := v.keys.map fun (k : KeySlot) => if d.kslot ≠ 0 ∧ k.no = d.kslot then { k with st := .bound } else k }
  refine ⟨t.result res.toNat 0 d.saved.length, ?_, congrArg (Option.map Context.resident) (u.ctx?_setCtx_same e), fun keyed k mem own => ?_⟩
  · show execCtxctlResident res n s = _
    rw [execCtxctlResident]
    refine command_answers ready idle ?_
    dsimp only
    rw [stands]
    dsimp only
    rw [if_neg (by simp [out]), if_neg (by simp [alive]), if_neg (Nat.not_le.2 room), loaded]
    dsimp only
    rw [now, Option.getD_some, if_neg (by simp [fits])]
  · obtain ⟨j, -, rfl⟩ := List.mem_map.1 mem
    split at own
    · next bound => rw [if_pos bound]
    · next other => exact absurd ⟨keyed, own⟩ other

/-- Settles O48: each command by its definition. -/
theorem contextCommands : Obligations.ContextCommands := by
  intro s res ready idle answers
  refine ⟨fun desc => ⟨fun odd => ?_, fun u b even ok read fits => ⟨fun used => ?_, fun free => ?_⟩⟩, fun n none => ?_, fun n c stands => ⟨fun in_ leaving => ?_,
    fun u d out alive room loaded now fits => ctxctlResident_of ready idle stands out alive room loaded now fits, fun u st loaded => ?_, fun k => ?_,
    ?_, ?_⟩⟩
  · show execCtxcreate res desc s = _
    rw [execCtxcreate]
    exact command_answers ready idle (if_pos (.inl odd))
  · show execCtxcreate res desc s = _
    rw [execCtxcreate]
    refine command_answers ready idle ((if_neg (by simp [even, ok])).trans ?_)
    rw [read]
    dsimp only
    rw [if_neg (by simp [fits]), if_pos used]
  · show execCtxcreate res desc s = _
    rw [execCtxcreate]
    refine command_answers ready idle ((if_neg (by simp [even, ok])).trans ?_)
    rw [read]
    dsimp only
    rw [if_neg (by simp [fits]), if_neg (by simp [free])]
  · have gone : (s.ctx? n).isNone = true := by rw [none]; rfl
    refine ⟨?_, ?_, ?_, ?_, ?_, fun k => ?_⟩
    · show execCtxctlResident res n s = _
      rw [execCtxctlResident]
      exact command_answers ready idle (by rw [none])
    · show execCtxctlPreemptAll res n s = _
      rw [execCtxctlPreemptAll]
      exact command_answers ready idle (if_pos gone)
    · show execCtxctlKill res n s = _
      rw [execCtxctlKill]
      exact command_answers ready idle (if_pos gone)
    · show execCtxctlReload res n s = _
      rw [execCtxctlReload]
      exact command_answers ready idle (by rw [none])
    · show execCtxend res n s = _
      rw [execCtxend]
      exact command_answers ready idle (by rw [none])
    · show execCtxctlPreemptCoil res n k s = _
      rw [execCtxctlPreemptCoil]
      exact command_answers ready idle (if_pos gone)
  · show execCtxctlResident res n s = _
    rw [execCtxctlResident]
    refine command_answers ready idle ?_
    rw [stands]
    simp [in_, leaving]
  · show execCtxctlReload res n s = _
    rw [execCtxctlReload]
    refine command_answers ready idle ?_
    rw [stands]
    dsimp only
    rw [loaded]
  · show execCtxctlPreemptCoil res n k s = _
    rw [execCtxctlPreemptCoil]
    exact command_starts ready idle (if_neg (by simp [stands]))
  · intro u
    show execCtxctlPreemptAll res n s = _
    rw [execCtxctlPreemptAll]
    exact command_starts ready idle (if_neg (by simp [stands]))
  · intro u
    refine ⟨?_, ?_⟩
    · show execCtxctlKill res n s = _
      rw [execCtxctlKill]
      exact command_starts ready idle (if_neg (by simp [stands]))
    · show execCtxend res n s = _
      rw [execCtxend]
      exact command_starts ready idle (by rw [stands])

/-- Settles O49: each command by its definition. -/
theorem otherCommands : Obligations.OtherCommands := by
  intro s res ready idle answers
  refine ⟨fun g n a bad => ?_, fun g n a u b pos most some few ok quiet read => ?_, fun k a out => ?_, fun k a u b least most ok read checks => ?_,
    fun i e lt hi lo invalid => ?_, fun f ok => ⟨?_, fun c p => ?_⟩, fun d n => ?_, fun a u v hdr body ok read ok' read' => ⟨fun bad => ?_, fun c good => ?_⟩⟩
  · show execChipgrp res g n a s = _
    rw [execChipgrp]
    exact command_answers ready idle (if_pos (by omega))
  · intro es zero
    show execChipgrp res g n a s = _
    rw [execChipgrp]
    refine command_answers ready idle ((if_neg ?_).trans ((if_neg ?_).trans ?_))
    · simp only [ok, Bool.not_true, Bool.false_eq_true, or_false]
      omega
    · simp only [List.any_eq_true, not_exists, not_and]
      intro c mem
      simp [quiet c mem]
    · rw [read]
      dsimp only
      rw [if_neg]
      simp only [List.any_eq_true, not_exists, not_and]
      intro e mem
      simp [zero e mem]
  · have refused : k < 6 ∨ 15 < k ∨ (!localOk a 1600) = true := out.imp_right .inl
    show execTabload res k a s = _
    rw [execTabload]
    refine command_answers ready idle ?_
    rw [if_pos refused]
  · show execTabload res k a s = _
    rw [execTabload]
    have range : ¬ (k < 6 ∨ 15 < k ∨ (!localOk a 1600) = true) := by
      simp only [ok, Bool.not_true, Bool.false_eq_true, or_false]
      omega
    refine command_answers ready idle ?_
    rw [if_neg range, read]
    dsimp only
    rw [checks, if_pos rfl]
  · show execWatch res i e s = _
    rw [execWatch]
    refine command_answers ready idle ?_
    dsimp only
    rw [if_neg (by simp [hi, lo, lt]), if_pos (by simp [invalid]), invalid]
  · show execInbound res f none s = _
    rw [execInbound]
    exact command_answers ready idle (if_neg (by simp [ok]))
  · show execInbound res f (some (c, p)) s = _
    rw [execInbound]
    exact command_answers ready idle (if_neg (by simp [ok]))
  · show execLogread res d n s = _
    rw [execLogread]
    exact command_answers ready idle rfl
  · show execFabcfg res a s = _
    rw [execFabcfg]
    refine command_answers ready idle ((if_neg (by simp [ok])).trans ?_)
    rw [read]
    dsimp only
    rw [if_neg (by simp [ok']), read']
    dsimp only
    rw [bad]
  · refine ⟨{ v with fab := { v.fab with
      retry := c.retry, horizon := c.horizon, tabs := if v.fab.tabs = [] then List.replicate 96 [] else v.fab.tabs
      next := some (c, List.range 96), dead := [] } }, ?_, rfl, rfl, rfl, rfl⟩
    show execFabcfg res a s = _
    rw [execFabcfg]
    refine command_answers ready idle ((if_neg (by simp [ok])).trans ?_)
    rw [read]
    dsimp only
    rw [if_neg (by simp [ok']), read']
    dsimp only
    rw [good]

end Sys2Proof.Machine
end

section
/-! SUPPORT. A step that issues a word, headers, the active set and the supervisor's core (R17, R22, R24, R27, R33, R58, R71, R154, R163,
R374 to R376, R389, R418, R458, R498). -/

namespace Sys2Proof.Machine

theorem issueAt_word {run : Instr → State → Host.Outcome State Fault Refusal} {w : Who} {s : State} {p : Path} {cl : Clause}
    (cur : (s.strand w).cur = some p) (inside : p.cl = some cl) (found : cl.seek = false) :
    let l := ((s.strand w).cur.map fun p => (lanesOf p.mask).headD 0).getD 0
    let u : State := { s with cur := some w, agent := .lane (w.lane l) (s.fibre w l).issued }
    u.pathReady w (s.strand w) p = true → issueAt run w s = issueWord run w p cl u := by
  intro l u ready
  have cur' : (u.strand w).cur = some p := cur
  show (match (u.strand w).cur with
    | none => run .clauseHeader u
    | some p => _) = _
  rw [cur']
  refine (if_neg (not_not_eq_true ready)).trans ?_
  rw [inside]
  exact if_neg (by simp [found])

theorem issueWord_decoded {run : Instr → State → Host.Outcome State Fault Refusal} {w : Who} {s t : State} {p : Path} {cl : Clause} {f : Fields} {i : Instr}
    (free : s.breakHit w cl.ip = none) (read : s.word w cl.ip = (t, .ok f)) (last : f.lastOnly = true → cl.left = 1)
    (first : f.firstOnly = true → cl.first = true)
    (reads : decodeFields (!w.isSup) cl.set0.isSome ((t.strand w).fibre ((lanesOf p.mask).headD 0)).win.length f = .ok i) :
    issueWord run w p cl s = run i t := by
  rw [issueWord, free]
  dsimp only
  rw [read]
  dsimp only
  rw [if_neg, reads]
  simp only [Bool.or_eq_true, Bool.and_eq_true, bne_iff_ne, ne_eq, Bool.not_eq_true', not_or, not_and, Decidable.not_not, Bool.not_eq_false]
  exact ⟨last, first⟩

/-- Settles O54: the move is an issue, the issue a word, the word an instruction. -/
theorem stepRunsTheDecodedWord : Obligations.StepRunsTheDecodedWord := by
  intro s s1 s2 w p cl f i chosen l u cur inside found ready free read last first reads
  have run : issueAt exec w s1 = exec i s2 := (issueAt_word cur inside found ready).trans (issueWord_decoded free read last first reads)
  rw [step, stepWith]
  dsimp only
  rw [chosen]
  dsimp only
  rw [make, run]
  cases exec i s2 <;> rfl

/-- At a header, or blocked inside a clause, a strand selects a path (R17, R154). -/
theorem clauseHeader_selects {s : State} {w : Who} (at_ : s.cur = some w)
    (stands : ∀ p, (s.strand w).cur = some p → p.cl = none ∨ s.pathReady w (s.strand w) p = false) :
    let st := s.selectPath w (s.strand w).applyCsr
    let s1 := s.setStrand w st
    (st.cur = none → exec .clauseHeader s = .next s1) ∧
    (∀ p, st.cur = some p → p.cl = none →
      (s1.pathReady w st p = false → exec .clauseHeader s = .next s1) ∧
      (∀ u b, s1.pathReady w st p = true → s1.overdue w = false → (∀ l ∈ lanesOf p.mask, (st.fibre l).sel = none) →
        (w.isSup = true ∨ st.forcedLanes p = []) → s1.breakHit w p.pc = none → s1.fetch w p.pc 8 = (u, .ok b) → headerOk (leNat b) = true →
        exec .clauseHeader s = .next (u.setStrand w ((u.strand w).openClause p (leNat b))))) := by
  have free : ¬ (((s.strand w).cur.map fun p => p.cl.isSome && s.pathReady w (s.strand w) p).getD false) = true := by
    cases cur : (s.strand w).cur with
    | none => simp
    | some p => rcases stands p cur with header | blocked <;> simp [*]
  intro st s1
  refine ⟨fun gone => ?_, fun p cur header => ⟨fun blocked => ?_, fun u b ready due clear forced free' read ok => ?_⟩⟩
  all_goals
    show execClauseHeader s = _
    rw [execClauseHeader, at_]
    refine (if_neg free).trans ?_
    dsimp only
  · rw [show (s.selectPath w (s.strand w).applyCsr).cur = none from gone]
  all_goals
    rw [show (s.selectPath w (s.strand w).applyCsr).cur = some p from cur]
    refine (if_neg (by simp [header])).trans ?_
  · exact if_pos (show (!s1.pathReady w st p) = true by simp [blocked])
  · have unforced : (if w.isSup then [] else st.forcedLanes p) = [] := by
      rcases forced with sup | empty
      · exact if_pos sup
      · rw [empty, ite_self]
    refine (if_neg (not_not_eq_true ready)).trans ((if_neg (show ¬ s1.overdue w = true by simp [due])).trans ((if_neg ?_).trans ?_))
    · simp only [List.any_eq_true, not_exists, not_and]
      intro l mem
      rw [show ((s.selectPath w (s.strand w).applyCsr).fibre l).sel = none from clear l mem]
      simp
    · rw [show (if w.isSup then [] else (s.selectPath w (s.strand w).applyCsr).forcedLanes p) = [] from unforced]
      refine (if_neg (by simp)).trans ?_
      rw [show (s.setStrand w (s.selectPath w (s.strand w).applyCsr)).breakHit w p.pc = none from free']
      dsimp only
      rw [show (s.setStrand w (s.selectPath w (s.strand w).applyCsr)).fetch w p.pc 8 = (u, .ok b) from read]
      exact if_pos ok

/-- Settles O34: each event by its definition. -/
theorem coreEvents : Obligations.CoreEvents := by
  refine ⟨fun s n => ⟨fun w p at_ rope cur header forced free => ?_, fun w p k ls at_ cur hit lt => ?_, fun part w k old pending free => ?_,
    fun r sid rp k w due slot here pending => ?_, fun r sid lanes f p parked ready room_ room => ?_, fun room waits => ?_, fun f cur free up => ⟨fun xlate => ?_, ?_⟩,
    fun f waits up => ⟨fun knot ok => ?_, fun other => ?_, fun other brk => ?_⟩, fun k mem no old => ?_, fun b short => if_neg (Nat.not_lt.2 short)⟩, fun s w at_ stands => ?_⟩
  · show execForcedKnot s = _
    rw [execForcedKnot, at_]
    dsimp only
    rw [cur]
    dsimp only
    rw [if_neg (by simp [header, rope, forced]), if_neg (by simpa [rope] using free), rope]
    rfl
  · show execBreakpointHit (BitVec.ofNat 2 k) s = _
    rw [execBreakpointHit, at_]
    dsimp only
    rw [cur]
    dsimp only
    rw [hit]
    exact if_pos (Nat.mod_eq_of_lt lt).symm
  · show execActiveSetFill n part s = _
    rw [execActiveSetFill, pending, free]
  · show execStaleGldYield r sid s = _
    rw [execStaleGldYield, if_pos due, slot, here, Option.bind_some, pending]
  · show execFaultPark r sid lanes f s = _
    rw [execFaultPark, parked]
    dsimp only
    rw [if_neg (by simp [ready, room_]), if_pos room]
  · obtain ⟨p, mem, ready, full⟩ := waits
    refine if_pos ?_
    rw [Bool.and_eq_true, Bool.or_eq_true]
    exact ⟨room, .inl (List.any_eq_true.2 ⟨p, mem, by rw [ready, full]; rfl⟩)⟩
  · show execSupervisorFault n f true s = _
    simp [execSupervisorFault, Option.isSome_iff_ne_none.1 cur, free, up, xlate]
  · show execSupervisorFault n f false s = _
    simp [execSupervisorFault, Option.isSome_iff_ne_none.1 cur, free, up]
  · show execSupervisorFaultResolution n ok s = _
    simp [execSupervisorFaultResolution, waits, up, knot]
  · show execSupervisorFaultResolution n false s = _
    simp [execSupervisorFaultResolution, waits, up, other]
  · show execSupervisorFaultResolution n true s = _
    simp [execSupervisorFaultResolution, waits, up, other, brk]
  · exact if_pos ⟨old, s.core_no n, List.any_eq_true.2 ⟨k, mem, decide_eq_true no⟩⟩
  · exact clauseHeader_selects at_ stands

end Sys2Proof.Machine
end

section
/-! SUPPORT. The engines and the halo engine at work (R243, R307, R308, R312, R314, R315, R320 to R323, R346, R492, R493, R500). -/

namespace Sys2Proof.Machine

/-- An entry that can be sent goes to its engine, or ends FAULTED where its phase ended with ERR (R323, R346). -/
theorem taskSend_of {s : State} {n : Nat} {o : Op} (stands : s.op? n = some o) (may : s.sendable o = true) :
    (o.wait = none ∨ (∃ b ph, o.wait = some (b, ph) ∧ (s.barRead b).err = false) → exec (.taskSend n) s = .next (s.opLast { o with
      st := .queued, since := s.gtime })) ∧
    (∀ b ph, o.wait = some (b, ph) → (s.barRead b).err = true → exec (.taskSend n) s = .next (s.endOp { o with fcode := 9 } 2 0 true)) := by
  refine ⟨fun clean => ?_, fun b ph waits err => ?_⟩
  · show execTaskSend n s = _
    rw [execTaskSend, stands]
    refine (if_pos may).trans (if_neg ?_)
    rcases clean with none | ⟨b, ph, waits, clean⟩
    · simp [none]
    · simp [waits, clean]
  · show execTaskSend n s = _
    rw [execTaskSend, stands]
    exact (if_pos may).trans (if_pos (by simp [waits, err]))

/-- A segment moves, or its translation fault parks the operation (R307, R308). -/
theorem segment_of {s : State} {n : Nat} {o : Op} {m : Mover} (moves : s.moving n = some (o, m)) :
    (∀ u t, s.trySegment o m = (u, .ok t) →
      let v := (u.credit m.cred (segBytes (m.segment o)) false).stage o m (m.segment o)
      exec (.copySegment n) s = .next (v.setOp
        { m.advance o with st := .running, done := o.done + segDone (m.segment o), vis := max o.vis t, since := v.gtime })) ∧
    (∀ u code va wr, s.trySegment o m = (u, .bad code va wr) →
      exec (.copyPark n) s = .next (u.parkOp { o with fcode := code + (if wr then 5 else 4) * 256, fva := va })) := by
  refine ⟨fun u t moved => ?_, fun u code va wr fault => ?_⟩
  · show execCopySegment n s = _
    rw [execCopySegment, moves]
    dsimp only
    rw [moved]
  · show execCopyPark n s = _
    rw [execCopyPark, moves]
    dsimp only
    rw [fault]

/-- One chunk of an MMA, or its end FORMAT (R320 to R322). -/
theorem mmaStep_mma {s : State} {n : Nat} {o : Op} {na nb nacc : Bool} {sat : Bool} {acc16 : Bool} {d a b q : Nat} {td ta tb tq : Tc}
    {r : Rope} (works : s.computing n = some (o, .mma na nb nacc sat acc16 d a b q td ta tb tq, r)) :
    (r.mmaStops a b ta tb o.crow = false → exec (.mmaStep n) s = .next ((s.setRope (r.mmaStep na nb nacc sat d a b q td ta tb tq o.crow)).setOp
      { o with st := .running, crow := o.crow + 1, fin := decide (mmaSteps ta tb ≤ o.crow + 1), since := s.gtime })) ∧
    (r.mmaStops a b ta tb o.crow = true → exec (.mmaStep n) s = .next ((s.endOp o 5 0 true).postSig o.ctx 4 0 o.num)) := by
  refine ⟨fun goes => ?_, fun stops => ?_⟩
  · show execMmaStep n s = _
    rw [execMmaStep, works]
    exact if_neg (by simp [goes])
  · show execMmaStep n s = _
    rw [execMmaStep, works]
    exact if_pos stops

theorem mmaStep_other {s : State} {n : Nat} {o : Op} {t : TileOp} {r : Rope} (works : s.computing n = some (o, t, r))
    (other : ∀ na nb nacc sat acc16 d a b q td ta tb tq, t ≠ .mma na nb nacc sat acc16 d a b q td ta tb tq) :
    exec (.mmaStep n) s = .next ((s.setRope (r.tileAtOnce t)).setOp { o with st := .running, fin := true, since := s.gtime }) := by
  show execMmaStep n s = _
  rw [execMmaStep, works]
  cases t with
  | mma => exact (other _ _ _ _ _ _ _ _ _ _ _ _ _ rfl).elim
  | _ => rfl

theorem engineOpComplete_of {s : State} {n : Nat} {o : Op} (stands : s.op? n = some o) (done : s.completes o = true) :
    exec (.engineOpComplete n) s = .next (if s.t3of o = 0 then s.endOp o 0 o.done o.wrec else s.endOp o 6 (s.t3of o) true) := by
  show execEngineOpComplete n s = _
  rw [execEngineOpComplete, stands]
  refine (if_pos done).trans ?_
  by_cases none : s.t3of o = 0
  · rw [if_neg (not_not.2 none), if_pos none]
  · rw [if_pos none, if_neg none]

/-- A held record is written once the ring has room (R315). -/
theorem ringRoom_of {s u : State} {n k w : Nat} {more : List Nat} {o : Op} (stands : s.op? n = some o) (held : o.st = .held (k :: more))
    (first : ∀ x ∈ s.ops, x.ctx = o.ctx → x.st.isPosted = false) (wrote : (s.as (.op n)).ringRecord o k = (u, .ok w)) :
    exec (.ringRoom n) s = .next ((u.setOp { o with st := .posted (k :: more), vis := max o.vis w }).as s.agent) := by
  let p : Op := { o with st := .posted (k :: more), vis := max o.vis w }
  have free : ¬ (s.ops.any fun x => decide (x.ctx = o.ctx) && x.st.isPosted) = true := by
    simp only [List.any_eq_true, Bool.and_eq_true, decide_eq_true_eq, not_exists, not_and]
    exact fun x mem same posted => absurd (first x mem same) (by simp [posted])
  have posts : s.postRecord n = (u.setOp p).as s.agent := by
    rw [State.postRecord, stands]
    dsimp only
    rw [held]
    refine (if_neg free).trans ?_
    rw [wrote]
  have moved : (u.setOp p).as s.agent ≠ s := by
    intro same
    have now : ((u.setOp p).as s.agent).op? n = some p := (lookupBy_upsert _ _ _ _).trans (if_pos (lookupBy_key (x := o) stands))
    rw [same, stands] at now
    have := congrArg Op.st (Option.some.inj now)
    rw [held] at this
    cases this
  show execRingRoom n s = _
  rw [execRingRoom, stands]
  dsimp only
  rw [held]
  dsimp only
  rw [posts]
  exact if_neg moved

/-- The tail passes an operation's last record (R312). -/
theorem State.postTail_last {s u : State} {n k : Nat} {o : Op} (stands : s.op? n = some o) (posted : o.st = .posted [k]) (seen : o.vis < s.gtime)
    (passed : (s.as (.op n)).ringTail o = (u, true)) :
    s.postTail n = if k = 1 then (((u.as s.agent).setOp { o with st := .parked }).flushOps o.core) else (u.as s.agent).retire o := by
  rw [State.postTail, stands]
  dsimp only
  rw [posted]
  refine (if_neg (Nat.not_le.2 seen)).trans ?_
  rw [passed]

/-- Settles O26: each event by its definition. -/
theorem engineEvents : Obligations.EngineEvents := by
  refine ⟨fun s n => ⟨fun o => taskSend_of, fun o m => segment_of, fun o na nb nacc sat acc16 d a b q td ta tb tq r => mmaStep_mma,
    fun o t r => mmaStep_other, fun o => engineOpComplete_of, fun o k more u w => ringRoom_of, fun o k u => State.postTail_last⟩,
    fun s n o h gr live => ⟨fun f nb u w now next => ?_, fun f nb cur next own done quiet => ?_, fun code a w bad => ?_⟩⟩
  · intro o1 l here moved
    show execHaloStripSend n s = _
    rw [execHaloStripSend, live]
    dsimp only
    rw [now]
    dsimp only
    rw [next]
    refine (if_neg (show ¬ (segAt l o1.crow o1.cseg).isNone = true by simpa [Option.isSome_iff_ne_none] using here)).trans ?_
    rw [show (s.as (.op n)).haloSegment (if h.cur = some f then o else { o with crow := 0, cseg := 0 }) h gr f nb = (u, .ok w) from moved]
  · show execHaloStripLand n s = _
    rw [execHaloStripLand, live]
    dsimp only
    rw [cur, Option.bind_some, next]
    refine (if_neg (by simp [done, quiet])).trans (congrArg _ (if_pos own))
  · show execHaloFault n s = _
    rw [execHaloFault, live]
    dsimp only
    rw [bad]

end Sys2Proof.Machine
end

section
/-! SUPPORT. The memory system leaves every fibre's register window as it is: translations, the protocol engines and the slices raise at
most the time that a lane's writes become visible (R235). -/

namespace Sys2Proof.Machine

/-- The register windows of every issuer's fibres. -/
def State.wins (s : State) (w : Who) (l : Nat) : List Word := (s.fibre w l).win

/-! ### What carries a frame over folds and choices -/

theorem State.wins_getD {o : Option State} {s : State} (h : ∀ t, o = some t → t.wins = s.wins) : (o.getD s).wins = s.wins := by
  cases o with
  | none => rfl
  | some t => exact h t rfl

theorem State.wins_ite {c : Prop} [Decidable c] {t u : State} {w : Who → Nat → List Word} (ht : t.wins = w) (hu : u.wins = w) :
    (if c then t else u).wins = w := by
  split
  · exact ht
  · exact hu

/-! ### State operations -/

theorem State.setFibre_wins (s : State) (w : Who) (l : Nat) (f : Fibre) (h : f.win = (s.fibre w l).win) : (s.setFibre w l f).wins = s.wins := by
  funext v k
  rcases s.strand_setStrand_or w v ((s.strand w).setFibre l f) with e | ⟨rfl, e⟩
  · simp [State.wins, State.setFibre, State.fibre, e]
  · simp only [State.wins, State.setFibre, State.fibre, e]
    by_cases same : k = l
    · subst same
      by_cases lt : k < (s.strand w).fibres.length
      · simpa [Strand.setFibre, Strand.fibre, List.getD, lt, State.fibre] using h
      · simp [Strand.setFibre, Strand.fibre, List.getD, lt]
    · simp [Strand.setFibre, Strand.fibre, List.getD, List.getElem?_set_ne (Ne.symm same)]

theorem State.raiseVis_wins (s : State) (l : LaneId) (t : Nat) : (s.raiseVis l t).wins = s.wins := s.setFibre_wins _ _ _ rfl

theorem State.post_wins (s : State) (ty : MType) (m : Msg) : (s.post ty m).wins = s.wins := rfl

theorem State.setHome_wins (s : State) (h : HomeLine) : (s.setHome h).wins = s.wins := rfl

theorem State.setCopy_wins (s : State) (c : Copy) : (s.setCopy c).wins = s.wins := rfl

theorem State.dropCopy_wins (s : State) (c : Nat) (l : LineId) : (s.dropCopy c l).wins = s.wins := rfl

theorem State.hbmWrite_wins (s : State) (key pa : Nat) (b : List Byte) : (s.hbmWrite key pa b).wins = s.wins := by
  unfold State.hbmWrite
  split <;> rfl

theorem State.rawWrite_wins (s : State) (pa : Nat) : ∀ b : List Byte, (s.rawWrite pa b).wins = s.wins := by
  intro b
  induction b generalizing s pa with
  | nil => rfl
  | cons b bs ih => exact (ih _ _).trans (s.hbmWrite_wins ..)

theorem State.writeL2_wins (s : State) (h : HomeLine) : (s.writeL2 h).wins = s.wins := by
  unfold State.writeL2
  cases h.loc with
  | hbm pa => exact State.wins_ite (s.hbmWrite_wins ..) rfl
  | _ => rfl

theorem State.dropHome_wins (s : State) (h : HomeLine) : (s.dropHome h).wins = s.wins := s.writeL2_wins h

theorem State.homePut_wins (s : State) (h : HomeLine) (mask : Nat) (b : List Byte) : (s.homePut h mask b).wins = s.wins := by
  unfold State.homePut
  cases h.loc <;> rfl

theorem State.assoc_wins (s : State) (p : Nat) : (s.assoc p).1.wins = s.wins := by
  unfold State.assoc
  split <;> rfl

theorem State.sendTx_wins (s : State) (t : Tx) : (s.sendTx t).wins = s.wins := State.assoc_wins _ _

theorem State.refuseAt_wins (s : State) (l : LineId) (a : Agent) : (s.refuseAt l a).wins = s.wins := State.wins_ite rfl rfl

theorem State.wroteBack_wins (s : State) (a : Agent) (t : Nat) : (s.wroteBack a t).wins = s.wins := by
  cases a <;> rfl

theorem State.written_wins (s : State) (acc : Option Nat) (t : Nat) (old : List Byte) : (s.written acc t old).wins = s.wins := by
  unfold State.written
  cases acc.bind s.acc? with
  | none => rfl
  | some a =>
    have raised := s.raiseVis_wins a.lane t
    dsimp only
    split
    · exact raised
    · exact raised
    · exact raised
    · exact raised
    · exact raised
    · exact (State.foldl_keeps (g := State.wins) (fun s l => s.raiseVis_wins l t) _ _).trans raised
    · exact raised

/-! ### The home's side -/

theorem State.homePerform_wins (s : State) (l : LineId) (m : Msg) (e : Nat) : (s.homePerform l m e).1.wins = s.wins := by
  unfold State.homePerform
  cases s.home? l with
  | none => rfl
  | some h =>
    dsimp only
    split
    · cases m.req with
      | none => rfl
      | some r =>
        dsimp only
        split
        · exact s.homePut_wins ..
        · rfl
    · split
      · exact s.homePut_wins ..
      · rfl

theorem State.answer_wins (s : State) (h : HomeLine) (m : Msg) (e : Nat) : (s.answer h m e).wins = s.wins := by
  unfold State.answer
  have leased (x : Nat) : (if entAct e 13 then s.setHome { h with lease := x } else s).wins = s.wins := State.wins_ite rfl rfl
  exact State.wins_ite (State.wins_ite (leased _) (State.wins_ite (leased _) (leased _))) rfl

theorem State.posts_wins {α : Type} (ty : α → MType) (m : α → Msg) (s : State) (l : List α) :
    (l.foldl (fun (s : State) a => s.post (ty a) (m a)) s).wins = s.wins :=
  State.foldl_keeps (g := State.wins) (fun s a => s.post_wins (ty a) (m a)) s l

theorem State.homeApply_wins (s : State) (h : HomeLine) (ty : MType) (m : Msg) (e : Nat) : (s.homeApply h ty m e).wins = s.wins := by
  have opened : (if entAct e 12 = true then s.homePerform h.line m e else (s, [])).1.wins = s.wins := by
    split
    · exact s.homePerform_wins ..
    · rfl
  unfold State.homeApply
  extract_lets goesTo zw invs upds fwd sl
  revert opened
  generalize (if entAct e 12 then s.homePerform h.line m e else (s, [])) = p
  obtain ⟨s1, old⟩ := p
  intro opened
  dsimp -zeta only
  extract_lets s2 line s3 s4 s5 s6
  have sent : s6.wins = s.wins := by
    have all : s5.wins = s.wins := calc
      s5.wins = s4.wins := State.posts_wins _ _ _ _
      _ = s3.wins := State.posts_wins _ _ _ _
      _ = s2.wins := State.posts_wins _ _ _ _
      _ = s.wins := opened
    exact State.wins_ite all all
  clear_value s6
  split
  · exact sent
  · rename_i h' _
    have answered : (if answersAtOnce e then s6.answer h' m e else s6).wins = s.wins := State.wins_ite ((s6.answer_wins h' m e).trans sent) sent
    extract_lets s7
    split
    · exact answered
    · exact answered

theorem State.homeClose_wins (s : State) (h : HomeLine) (t : Txn) : (s.homeClose h t).wins = s.wins := by
  unfold State.homeClose
  extract_lets e m wr
  refine State.wins_ite rfl ?_
  have opened : (if entAct e 12 then (s, t.old) else s.homePerform h.line m e).1.wins = s.wins := by
    split
    · rfl
    · exact s.homePerform_wins ..
  revert opened
  generalize (if entAct e 12 then (s, t.old) else s.homePerform h.line m e) = p
  obtain ⟨s1, old⟩ := p
  intro opened
  dsimp -zeta only
  extract_lets w s2 s3 s4
  have seen : s4.wins = s.wins := calc
    s4.wins = s3.wins := State.foldl_keeps (g := State.wins) (fun s l => s.raiseVis_wins l w) _ _
    _ = s2.wins := State.wins_ite (s2.wroteBack_wins ..) rfl
    _ = s1.wins := State.wins_ite (s1.written_wins ..) rfl
    _ = s.wins := opened
  clear_value s4
  split
  · exact seen
  · extract_lets late hinit next kept s5 s6
    have stands : s5.wins = s.wins := seen
    clear_value s5
    have closed : s6.wins = s.wins := stands
    clear_value s6
    refine State.wins_ite closed ?_
    split
    · exact (s6.answer_wins ..).trans closed
    · exact closed

theorem State.privGrant_wins (s : State) (h : HomeLine) (c : Nat) (m : Msg) : (s.privGrant h c m).wins = s.wins := rfl

theorem State.startMerge_wins (s : State) (h : HomeLine) (ty : MType) (m : Msg) : (s.startMerge h ty m).wins = s.wins :=
  State.posts_wins (fun _ => .fwdm) (fun c => plainMsg h.line .home (.cluster c)) s _

theorem State.homeTake_wins (s : State) (h : HomeLine) (ty : MType) (m : Msg) : (s.homeTake h ty m).wins = s.wins := by
  unfold State.homeTake
  extract_lets plain
  have usual : plain.wins = s.wins := by
    unfold plain
    split
    · exact State.wins_ite rfl (s.homeApply_wins ..)
    · rfl
  clear_value plain
  refine State.wins_ite ?_ (State.wins_ite ?_ usual)
  · split
    · exact State.wins_ite (s.startMerge_wins ..) rfl
    · exact s.startMerge_wins ..
  · split
    · exact State.wins_ite usual (State.wins_ite (State.startMerge_wins ..) rfl)
    · exact usual

theorem State.homeSettle_wins (l : LineId) : ∀ (n : Nat) (s : State), (State.homeSettle n l s).wins = s.wins
  | 0, _ => by rw [State.homeSettle]
  | n + 1, s => by
    rw [State.homeSettle]
    split
    · rfl
    · split
      · exact State.wins_ite ((State.homeSettle_wins l n _).trans (s.homeClose_wins ..)) rfl
      · split
        · rfl
        · exact (State.homeSettle_wins l n _).trans (State.homeTake_wins ..)

theorem State.homeRecv_wins {s t : State} {ty : MType} {m : Msg} (h : s.homeRecv ty m = some t) : t.wins = s.wins := by
  unfold State.homeRecv at h
  split at h
  · cases h
    rfl
  · split at h
    · cases h
    · split at h
      · cases h
        exact (State.homeSettle_wins ..).trans (s.homeTake_wins ..)
      · split at h
        · cases h
          exact State.homeSettle_wins ..
        · split at h
          · rename_i hl _ _ _ _ _ _
            extract_lets w s1 at h
            have put : s1.wins = s.wins := (State.wroteBack_wins ..).trans ((State.written_wins ..).trans (s.homePut_wins ..))
            clear_value s1
            split at h
            · cases h
              exact (State.homeSettle_wins ..).trans put
            · cases h
              exact put
          · split at h
            · cases h
              rfl
            · cases h

/-! ### The slices' side -/

theorem State.sendDirty_wins (s : State) (x : Copy) (acc : Option Nat) : (s.sendDirty x acc).wins = s.wins := rfl

theorem State.evict_wins {s t : State} {cp : Copy} (h : s.evict cp = some t) : t.wins = s.wins := by
  unfold State.evict at h
  extract_lets tab at h
  split_ifs at h <;> cases h <;> rfl

theorem State.vbRecv_wins (s : State) (x : Copy) (ty : MType) (m : Msg) : (s.vbRecv x ty m).wins = s.wins := by
  unfold State.vbRecv
  cases ty
  case fwds => exact State.wins_ite (c := agentHolds m.src) (t := s.post .datas _) (u := s) rfl rfl
  case fwdm => exact State.wins_ite (c := agentHolds m.src) (t := s.post .datam _) (u := s) rfl rfl
  all_goals rfl

theorem State.l1Way_wins {s : State} {c : Nat} {l : LineId} {p : State × Nat} (h : s.l1Way c l = some p) : p.1.wins = s.wins := by
  unfold State.l1Way at h
  extract_lets k set at h
  split at h
  · cases h
    rfl
  · obtain ⟨x, -, found⟩ := List.exists_of_findSome?_eq_some h
    split at found
    · cases found
    · obtain ⟨t, evicted, rfl⟩ := Option.map_eq_some_iff.1 found
      exact State.evict_wins evicted

theorem State.fill_wins {s t : State} {c : Nat} {ty : MType} {m : Msg} {slot e : Nat} {x : Option Copy} (h : s.fill c ty m slot e x = some t) :
    t.wins = s.wins := by
  unfold State.fill at h
  extract_lets z st room dirty at h
  obtain ⟨p, found, rfl⟩ := Option.map_eq_some_iff.1 h
  have way : p.1.wins = s.wins := by
    unfold room at found
    split at found
    · cases found
      rfl
    · exact State.l1Way_wins found
  extract_lets cp s1 s2
  have sent : s1.wins = s.wins := State.wins_ite way way
  clear_value s1
  have told : s2.wins = s.wins := State.wins_ite sent sent
  clear_value s2
  exact State.wins_ite told told

theorem State.cacheEnt_wins {s u : State} {c : Nat} {ty : MType} {m : Msg} {slot : Nat} {t : Table} {st : Nat} {x : Option Copy}
    (h : s.cacheEnt c ty m slot t st x = some u) : u.wins = s.wins := by
  unfold State.cacheEnt at h
  split at h
  · split at h
    · cases h
      rfl
    · split at h
      · cases h
        rfl
      · cases h
        rfl
  · rename_i e _
    split at h
    · cases h
    · split at h
      · exact State.fill_wins h
      · extract_lets plain s1 s2 at h
        have sent : s1.wins = s.wins := by
          unfold s1
          split
          · extract_lets s3
            have given : s3.wins = s.wins := State.wins_ite (State.wins_ite rfl rfl) rfl
            exact State.wins_ite given given
          · exact State.wins_ite rfl rfl
        clear_value s1
        have told : s2.wins = s.wins := State.wins_ite sent sent
        clear_value s2
        cases h
        refine State.wins_ite told ?_
        split
        · exact told
        · exact told

theorem State.cacheRecv_wins {s t : State} {c : Nat} {ty : MType} {m : Msg} (h : s.cacheRecv c ty m = some t) : t.wins = s.wins := by
  unfold State.cacheRecv at h
  extract_lets slot tab at h
  split at h
  · split at h
    · cases h
      exact s.vbRecv_wins ..
    · exact State.cacheEnt_wins h
  · exact State.cacheEnt_wins h

theorem State.deliver_wins (s : State) (ty : MType) (m : Msg) : (s.deliver ty m).wins = s.wins := by
  unfold State.deliver
  split
  · split
    · rename_i received
      exact (State.homeRecv_wins received).trans rfl
    · exact State.wins_ite rfl rfl
  · exact State.wins_getD fun t h => (State.cacheRecv_wins h).trans rfl
  · rfl

/-! ### Whole transactions -/

theorem State.runLine_wins (l : LineId) : ∀ (n : Nat) (s : State), (State.runLine n l s).wins = s.wins
  | 0, _ => by rw [State.runLine]
  | n + 1, s => by
    rw [State.runLine]
    split
    · rfl
    · split
      · rfl
      · split
        · exact (State.runLine_wins l n _).trans (s.deliver_wins ..)
        · rfl

theorem State.homeDo_wins {s t : State} {l : LineId} {a : Agent} {ty : MType} {m : Msg} (h : s.homeDo l a ty m = some t) : t.wins = s.wins := by
  unfold State.homeDo at h
  split at h
  · cases h
  · split at h
    · cases h
    · split at h
      · cases h
      · rename_i u received
        have run := (State.runLine_wins l 2000 u).trans (State.homeRecv_wins received)
        extract_lets v at h
        change v.wins = s.wins at run
        clear_value v
        split at h
        · split at h
          · cases h
            exact run
          · cases h
        · cases h

theorem State.homeRead_wins {s : State} {l : LineId} {a : Agent} {p : State × List Byte} (h : s.homeRead l a = some p) : p.1.wins = s.wins := by
  unfold State.homeRead at h
  split at h
  · cases h
  · obtain ⟨x, -, rfl⟩ := Option.map_eq_some_iff.1 h
    exact State.homeDo_wins ‹_›

theorem State.homeWrite_wins {s : State} {l : LineId} {a : Agent} {o : Nat} {b : List Byte} {p : State × Nat} (h : s.homeWrite l a o b = some p) :
    p.1.wins = s.wins := by
  unfold State.homeWrite at h
  extract_lets m at h
  split at h
  · cases h
  · obtain ⟨x, -, rfl⟩ := Option.map_eq_some_iff.1 h
    exact State.homeDo_wins ‹_›

theorem State.recall_wins (s : State) (l : LineId) : (s.recall l).wins = s.wins := by
  unfold State.recall
  split
  · rfl
  · exact State.wins_ite rfl (State.posts_wins ..)

theorem State.nudge_wins (s : State) (l : LineId) : (s.nudge l).wins = s.wins := (State.recall_wins ..).trans (s.refuseAt_wins ..)

/-! ### The lines of an L2 slice -/

theorem State.dropRemote_wins (s : State) (h : HomeLine) : (s.dropRemote h).wins = s.wins := by
  unfold State.dropRemote
  split
  · exact State.wins_ite rfl (State.sendTx_wins ..)
  · rfl

theorem State.retireLine_wins (s : State) (h : HomeLine) : (s.retireLine h).wins = s.wins := (State.dropHome_wins ..).trans (s.dropRemote_wins h)

theorem State.l2Evict_wins (s : State) (h : HomeLine) : (s.l2Evict h).wins = s.wins := by
  unfold State.l2Evict
  extract_lets mine mask data s1 s2
  have put : s2.wins = s.wins := State.wins_ite (t := s1) rfl (s1.homePut_wins ..)
  clear_value s2
  split
  · exact (State.retireLine_wins ..).trans put
  · exact put

theorem State.l2Room_wins {s t : State} {l : LineId} (h : s.l2Room l = some t) : t.wins = s.wins := by
  unfold State.l2Room at h
  extract_lets set at h
  split at h
  · cases h
    rfl
  · obtain ⟨x, -, rfl⟩ := Option.map_eq_some_iff.1 h
    exact s.l2Evict_wins x

theorem State.ensureHome_wins (s : State) (l : LineId) (loc : Loc) (key : Nat) (perm : Option Perm) :
    (s.ensureHome l loc key perm).wins = s.wins := by
  unfold State.ensureHome
  split
  · exact State.wins_ite rfl rfl
  · split
    · rfl
    · rename_i room
      exact (State.setHome_wins ..).trans (State.l2Room_wins room)

theorem State.recalls_wins (s : State) : ∀ l : List HomeLine, (l.foldl (fun (s : State) h => s.recall h.line) s).wins = s.wins
  | [] => rfl
  | h :: l => (State.recalls_wins (s.recall h.line) l).trans (s.recall_wins h.line)

theorem State.evictOr_wins (s : State) (cp : Copy) : ((s.evict cp).getD s).wins = s.wins := by
  cases h : s.evict cp with
  | none => rfl
  | some t => exact State.evict_wins h

theorem State.evictions_wins (s : State) : ∀ l : List Copy, (l.foldl (fun (s : State) c => (s.evict c).getD s) s).wins = s.wins
  | [] => rfl
  | c :: l => (State.evictions_wins ((s.evict c).getD s) l).trans (s.evictOr_wins c)

theorem State.flushLines_wins (s : State) (r : PageRange) : (s.flushLines r).wins = s.wins := by
  unfold State.flushLines
  extract_lets mine s1 rest
  have left : s1.wins = s.wins := s.evictions_wins mine
  clear_value s1
  exact (s1.recalls_wins rest).trans left

end Sys2Proof.Machine
end

section
/-! SUPPORT. A translation leaves every fibre's register window as it is (R205 to R217). -/

namespace Sys2Proof.Machine

theorem State.inHome_wins (s : State) (e : InEntry) (pa : Nat) : (s.inHome e pa).wins = s.wins := s.ensureHome_wins ..

theorem State.pteRead_wins (s : State) (pa : Nat) : (s.pteRead pa).1.wins = s.wins := by
  unfold State.pteRead
  split
  · rename_i e _
    extract_lets t
    have stands : t.wins = s.wins := s.inHome_wins e pa
    clear_value t
    split
    · rename_i read
      exact (State.homeRead_wins read).trans stands
    · exact (t.nudge_wins _).trans stands
  · rfl

theorem State.pteOr_wins (s : State) (pa : Nat) (m : Byte) : (s.pteOr pa m).1.wins = s.wins := by
  unfold State.pteOr
  extract_lets a
  split
  · rename_i e _
    extract_lets t
    have stands : t.wins = s.wins := s.inHome_wins e pa
    clear_value t
    split
    · rename_i read
      have found := (State.homeRead_wins read).trans stands
      split
      · rename_i wrote
        exact (State.homeWrite_wins wrote).trans found
      · exact (State.nudge_wins ..).trans found
    · exact (t.nudge_wins _).trans stands
  · exact s.rawWrite_wins ..

theorem State.nextTable_wins (s : State) (sl ctx level pre ea : Nat) : (s.nextTable sl ctx level pre ea).1.wins = s.wins := by
  have read := s.pteRead_wins ea
  unfold State.nextTable
  split
  · rfl
  · generalize s.pteRead ea = q at read
    obtain ⟨t, _ | e⟩ := q
    · exact read
    · dsimp only
      split
      · exact read
      · split
        · exact read
        · split
          · exact read
          · exact read

theorem State.walk_wins (s : State) (sl ctx page : Nat) : (s.walk sl ctx page).1.wins = s.wins := by
  unfold State.walk
  split
  · rfl
  · rename_i c _
    extract_lets i1 i2 i3
    have first := s.nextTable_wins sl ctx 1 (page / 2 ^ 25) (c.root + i1 * 16)
    generalize s.nextTable sl ctx 1 (page / 2 ^ 25) (c.root + i1 * 16) = q at first
    obtain ⟨t, _ | t2 | _⟩ := q
    · exact first
    · have second := (t.nextTable_wins sl ctx 2 (page / 2 ^ 12) (t2 + i2 * 16)).trans first
      dsimp only
      generalize t.nextTable sl ctx 2 (page / 2 ^ 12) (t2 + i2 * 16) = q at second
      obtain ⟨u, _ | t3 | e⟩ := q
      · exact second
      · have third := (u.pteRead_wins (t3 + i3 * 16)).trans second
        dsimp only
        generalize u.pteRead (t3 + i3 * 16) = q at third
        obtain ⟨v, _ | e⟩ := q
        · exact third
        · dsimp only
          split
          · exact third
          · split
            · exact third
            · exact third
      · dsimp only
        split
        · exact second
        · exact second
    · exact first

theorem State.leafFor_wins (s : State) (sl ctx page : Nat) (wr : Bool) : (s.leafFor sl ctx page wr).1.wins = s.wins := by
  unfold State.leafFor
  extract_lets walked
  have walks : (walked s).1.wins = s.wins := by
    have walk := s.walk_wins sl ctx page
    unfold walked
    generalize s.walk sl ctx page = q at walk
    split
    · exact walk
    · exact walk
  clear_value walked
  split
  · split
    · exact walks
    · rfl
  · exact walks

theorem State.touch_wins (s : State) (sl ctx page : Nat) (f : Found) (dirty : Bool) : (s.touch sl ctx page f dirty).1.wins = s.wins := by
  unfold State.touch
  split
  · rfl
  · rename_i a _
    extract_lets want leaf base cnt
    have set : (if leaf = f.leaf then (s, true) else s.pteOr a (BitVec.ofNat 8 (want / 256))).1.wins = s.wins := by
      split
      · rfl
      · exact s.pteOr_wins ..
    generalize (if leaf = f.leaf then (s, true) else s.pteOr a (BitVec.ofNat 8 (want / 256))) = q at set
    split
    · exact set
    · exact set

theorem State.countMode2_wins (s : State) (sl ctx page : Nat) : (s.countMode2 sl ctx page).wins = s.wins := by
  unfold State.countMode2
  split
  · exact State.wins_ite (State.wins_ite rfl rfl) rfl
  · rfl

theorem State.byLeaf_wins (s : State) (sl ctx cctx cva : Nat) (c : Found) (al : Option Perm) (mis : Bool) (k : XKind) (user : Bool) :
    (s.byLeaf sl ctx cctx cva c al mis k user).1.wins = s.wins := by
  unfold State.byLeaf
  extract_lets page e own p bad
  clear_value bad
  cases bad with
  | some n => rfl
  | none =>
    have touched := s.touch_wins sl cctx page c k.writes
    dsimp only
    generalize s.touch sl cctx page c k.writes = q at touched
    obtain ⟨t, _ | _⟩ := q
    · exact touched
    · exact (t.countMode2_wins ..).trans touched

theorem State.rewritten_wins (s : State) (ctx : Nat) (r : Remap) (big : Option Bool) (va : Nat) (k : XKind) (user : Bool) :
    (s.rewritten ctx r big va k user).1.wins = s.wins := by
  unfold State.rewritten
  extract_lets cva sl
  split
  · rfl
  · have leaf := s.leafFor_wins sl r.cctx (cva / 65536) k.writes
    generalize s.leafFor sl r.cctx (cva / 65536) k.writes = q at leaf
    obtain ⟨t, _ | c⟩ := q
    · exact leaf
    · exact (t.byLeaf_wins ..).trans leaf

theorem State.useRemap_wins (s : State) (r : Remap) : (s.useRemap r).wins = s.wins := rfl

theorem State.translate_wins (s : State) (cluster ctx va : Nat) (k : XKind) (user : Bool) : (s.translate cluster ctx va k user).1.wins = s.wins := by
  unfold State.translate
  extract_lets page sl r
  have found : r.1.wins = s.wins := by
    unfold r
    split
    · exact State.rewritten_wins ..
    · split
      · rfl
      · have leaf := s.leafFor_wins sl ctx page k.writes
        generalize s.leafFor sl ctx page k.writes = q at leaf
        obtain ⟨t, _ | f⟩ := q
        · exact leaf
        · dsimp only
          split
          · have touched := (t.touch_wins sl ctx page f false).trans leaf
            generalize t.touch sl ctx page f false = q at touched
            obtain ⟨u, _ | _⟩ := q
            · exact touched
            · have again := (State.rewritten_wins (u.useRemap (f.redirect cluster ctx page)) ctx (f.redirect cluster ctx page) (some f.big) va k
                user).trans touched
              dsimp only
              generalize (u.useRemap (f.redirect cluster ctx page)).rewritten ctx (f.redirect cluster ctx page) (some f.big) va k user = q at again
              obtain ⟨v, x | n | _⟩ := q
              · exact again
              · exact again
              · exact again
          · exact (t.byLeaf_wins ..).trans leaf
  clear_value r
  obtain ⟨t, x | n | _⟩ := r
  · exact found
  · exact found
  · exact found

theorem State.ownPage_wins (s : State) (cluster ctx page : Nat) : (s.ownPage cluster ctx page).1.wins = s.wins := by
  have found := s.translate_wins cluster ctx (page * 65536) .store true
  unfold State.ownPage
  generalize s.translate cluster ctx (page * 65536) .store true = q at found
  obtain ⟨t, x | n | _⟩ := q
  · dsimp only
    split
    · split
      · exact found
      · exact found
    · exact found
  · exact found
  · exact found

end Sys2Proof.Machine
end

section
/-! SUPPORT. Calls that the service cores forward, and scratchpad windows (R219 to R222, R379, R462 to R464). -/

namespace Sys2Proof.Machine

theorem serve_of {core : Nat} {seq : Word} {byCores : Bool} {want : Fibre → Bool} {f : State → Call → Context → State × Served} {s u : State} {c : Call}
    {x : Context} {v : Word} (called : s.callOf core seq byCores want = some (c, x)) (served : f (s.as (.call core seq)) c x = (u, .res v)) :
    serve core seq byCores want f s = .next (u.answerCall c v) := by
  rw [serve, called]
  dsimp only
  rw [served]

theorem State.callLoad_of {s u : State} {c : Call} {va n : Nat} {b : List Byte}
    (got : va + n ≤ 2 ^ 54 ∧ s.vLoadN (clusterOf c.e.rope.core) c.e.ctx va n .load true = (u, .ok b)) (k : State → List Byte → State × Served) :
    s.callLoad c va n k = k u b := by
  rw [State.callLoad, if_neg (Nat.not_lt.2 got.1), got.2]

theorem State.callStore_of {s u : State} {c : Call} {va w : Nat} {b : List Byte} (fits : va + b.length ≤ 2 ^ 54)
    (put : s.vStoreN (clusterOf c.e.rope.core) c.e.ctx va b .store true = (u, .ok w)) (k : State → State × Served) : s.callStore c va b k = k u := by
  rw [State.callStore, if_neg (Nat.not_lt.2 fits), put]

theorem State.deliverTo_of {s u : State} {c : Call} {va len w : Nat} {v : Word} {d : List Byte} (ok : v.msb = false) (count : d.length = v.toNat)
    (room : d.length ≤ len) (fits : va + d.length ≤ 2 ^ 54) (put : s.vStoreN (clusterOf c.e.rope.core) c.e.ctx va d .store true = (u, .ok w)) :
    s.deliverTo c va len v d = (u, .res v) := by
  rw [State.deliverTo, if_neg (by simp [good, ok]), if_neg (by omega), State.callStore_of fits put]

theorem State.takeFrom_of {s u : State} {c : Call} {h va len : Nat} {v : Word} {b : List Byte} (ok : v.msb = false) (room : v.toNat ≤ len)
    (got : va + len ≤ 2 ^ 54 ∧ s.vLoadN (clusterOf c.e.rope.core) c.e.ctx va len .load true = (u, .ok b)) :
    s.takeFrom c h va len v = (u.send (.wrote c.e.ctx h (b.take v.toNat)), .res v) := by
  rw [State.takeFrom, if_neg (by simp [good, ok]), if_neg (Nat.not_lt.2 room), State.callLoad_of got]

/-- A block's argument of a socket operation (R463). -/
def sockArg (b : List Byte) : SockArg := ⟨fieldAt b 0 8, fieldAt b 8 4, fieldAt b 12 4, fieldAt b 16 4 % 2 == 1⟩

theorem sock_of {op core : Nat} {handle : Bool} {seq : Word} {f : State → Call → Context → SockArg → State × Served} {s u t : State} {c : Call}
    {x : Context} {v : Word} {b : List Byte}
    (called : s.callOf core seq true (fun fb => calls 8 fb && (fb.win.getD 0 0).toNat == op) = some (c, x) ∧
      s.arg64 c 2 + 32 ≤ 2 ^ 54 ∧ (s.as (.call core seq)).vLoadN (clusterOf c.e.rope.core) c.e.ctx (s.arg64 c 2) 32 .load true = (u, .ok b))
    (names : handle = true → x.has (fieldAt b 12 4) true = true) (served : f u c x (sockArg b) = (t, .res v)) :
    sock op handle core seq f s = .next (t.answerCall c v) := by
  refine serve_of called.1 ((State.callLoad_of called.2 _).trans ((if_neg ?_).trans served))
  simpa using names

/-- The pages of a window translate; the windows of the fibres stay. -/
theorem State.ownPages_wins (s : State) (v : Served) (cluster ctx p0 : Nat) (l : List Nat) :
    (l.foldl (fun (a : State × Served) k => if a.2 = .res 0 then a.1.ownPage cluster ctx (p0 + k) else a) (s, v)).1.wins = s.wins := by
  induction l generalizing s v with
  | nil => rfl
  | cons k l ih =>
    rw [List.foldl_cons]
    dsimp only
    split
    · have page := s.ownPage_wins cluster ctx (p0 + k)
      generalize s.ownPage cluster ctx (p0 + k) = q at page
      obtain ⟨t, w⟩ := q
      exact (ih t w).trans page
    · exact ih s v

/-- An argument of a call stands in a window of its fibre. -/
theorem State.arg_of_wins {s t : State} (h : t.wins = s.wins) (c : Call) (i : Nat) : t.arg c i = s.arg c i :=
  congrArg (fun w : List Word => (w.getD i 0).toNat) (congrFun (congrFun h (.strand c.e.rope c.e.sid)) c.lane)

/-- Settles O36: each call by the rules for its buffer and for its block; a window's by their definitions. -/
theorem fileAndSocketCalls : Obligations.FileAndSocketCalls := by
  refine ⟨fun s core seq c x v u b => ?_, fun s core seq c x => ⟨fun called => ?_, fun called w u found gone => ?_⟩⟩
  · intro a cl q reads
    refine ⟨fun called got => ?_, fun called has d ok count room fits w put => ?_, fun called has ok room got => ?_, fun called has ok => ?_, ?_⟩
    · show execSysOpen core seq v s = _
      rw [execSysOpen]
      exact serve_of called (State.callLoad_of got _)
    · show execSysRead core seq v d s = _
      rw [execSysRead]
      exact serve_of called ((if_neg (not_not_eq_true has)).trans (State.deliverTo_of ok count room fits put))
    · show execSysWrite core seq v s = _
      rw [execSysWrite]
      exact serve_of called ((if_neg (not_not_eq_true has)).trans (State.takeFrom_of ok room got))
    · show execSysClose core seq v s = _
      rw [execSysClose]
      exact serve_of called ((if_neg (not_not_eq_true has)).trans (congrArg (·, _) (if_pos (show good v = true by simp [good, ok]))))
    · intro call h va len
      refine ⟨fun called => ?_, fun t d has got => ⟨fun called => ?_, fun called => ?_⟩, fun called has => ?_, fun called has => ?_,
        fun t d called has keep ok room got => ?_, fun t w d called has ok count room fits put => ?_, fun called has => ?_⟩
      · show execSockCreate core seq v s = _
        rw [execSockCreate]
        exact sock_of called (fun h => by cases h) rfl
      · show execSockBind core seq v s = _
        rw [execSockBind]
        exact sock_of called (fun _ => has) (State.callLoad_of got _)
      · show execSockConnect core seq v s = _
        rw [execSockConnect]
        exact sock_of called (fun _ => has) (State.callLoad_of got _)
      · show execSockListen core seq v s = _
        rw [execSockListen]
        exact sock_of called (fun _ => has) rfl
      · show execSockAccept core seq v s = _
        rw [execSockAccept]
        exact sock_of called (fun _ => has) rfl
      · show execSockSend core seq (some v) s = _
        rw [execSockSend]
        exact sock_of called (fun _ => has) ((if_pos (show (!(fieldAt b 16 4 % 2 == 1)) = true by simp [keep])).trans (State.takeFrom_of ok room got))
      · show execSockRecv core seq v d s = _
        rw [execSockRecv]
        exact sock_of called (fun _ => has) (State.deliverTo_of ok count room fits put)
      · show execSockShutdown core seq v s = _
        rw [execSockShutdown]
        exact sock_of called (fun _ => has) rfl
  · intro off len va cl p0 n r i u pos most aligned below inside apart unwatched free owned flushed quiet
    show execSpmap core seq s = _
    rw [execSpmap]
    refine serve_of called ((if_neg ?_).trans ((if_neg ?_).trans ?_))
    · rintro (h | h | h | h | h | h)
      · exact absurd h (Nat.ne_of_gt pos)
      · exact absurd h (Nat.not_lt.2 most)
      · exact h aligned
      · exact absurd h (Nat.not_lt.2 below)
      · exact absurd h (Nat.not_lt.2 inside)
      · obtain ⟨w, mem, meets⟩ := List.any_eq_true.1 h
        obtain ⟨va_, k_⟩ := apart w mem
        rcases Bool.or_eq_true_iff.1 meets with meets | meets
        · exact absurd (va_.symm.trans meets) (by decide)
        · obtain ⟨own, meets⟩ := Bool.and_eq_true_iff.1 meets
          exact absurd ((k_ (of_decide_eq_true own)).symm.trans meets) (by decide)
    · intro h
      obtain ⟨y, mem, meets⟩ := List.any_eq_true.1 h
      obtain ⟨valid, meets⟩ := Bool.and_eq_true_iff.1 meets
      exact unwatched y mem valid (of_decide_eq_true meets)
    · have keeps : (u.flushLines r).arg c 4 = s.arg c 4 := by
        have pages := State.ownPages_wins (s.as (.call core seq)) (.res 0) cl x.no p0 (List.range n)
        rw [owned] at pages
        exact State.arg_of_wins ((u.flushLines_wins r).trans pages) c 4
      have slot : (List.range 16).find? (fun i => !(s.as (.call core seq)).windows.any fun w => decide (w.cluster = clusterOf core ∧ w.idx = i)) =
        some i := free
      rw [slot]
      have pages : (List.range (((s.as (.call core seq)).arg64 c 2 + (s.as (.call core seq)).arg c 1 * 1024 - 1) / 65536 + 1 -
          (s.as (.call core seq)).arg64 c 2 / 65536)).foldl
          (fun (a : State × Served) k => if a.2 = .res 0 then a.1.ownPage (clusterOf core) x.no ((s.as (.call core seq)).arg64 c 2 / 65536 + k) else a)
          (s.as (.call core seq), .res 0) = (u, .res 0) := owned
      rw [pages]
      dsimp only
      refine (if_pos (Bool.and_eq_true_iff.2 ⟨flushed, quiet⟩)).trans ?_
      rw [← keeps]
      rfl
  · show execSpunmap core seq s = _
    rw [execSpunmap]
    refine serve_of called ?_
    have here : (s.as (.call core seq)).windows.find? (fun w => decide (w.ctx = x.no ∧ w.vbase * 1024 = (s.as (.call core seq)).arg64 c 2)) = some w := found
    rw [here]
    dsimp only
    rw [gone]

end Sys2Proof.Machine
end
